-- ==== Sys2Proof/Word.lean ====
section
/-! DEFINITION. The word types of the Z72 and the plainest arithmetic on them (spec/00_scope.md R2). -/

namespace Sys2Proof

abbrev Byte := BitVec 8
abbrev W16 := BitVec 16
abbrev W32 := BitVec 32
abbrev W64 := BitVec 64
/-- A scalar register or an address: bits [71:64] are the space byte (R103). -/
abbrev W72 := BitVec 72
/-- A vector register: sixteen 32-bit lanes, lane 0 lowest (R117). -/
abbrev W512 := BitVec 512

end Sys2Proof
end

