-- ==== Sys2Proof/Syntax.lean ====
section
/-! DEFINITION. The operations of the Z72: the S and V operations of a bundle, the tile commands of a matrix engine,
and the events of the device's other agents and of the outside, one constructor per row of spec/opcode_table.json. -/

namespace Sys2Proof

/-- An operand that sits in an n-bit field of the word or in a literal word (R33, R51). -/
inductive Imm (n : Nat) where
  | fld (v : BitVec n)
  | lit (w : W32)
deriving DecidableEq, Repr

/-- The last register source of a V form, or the V literal that replaces it (R57). -/
inductive VSrc where
  | reg (r : BitVec 4)
  | lit (w : W32)
deriving DecidableEq, Repr

/-- Access widths (R52). -/
inductive Width where
  | b | h | w | d | x | v
deriving DecidableEq, Repr

/-- Element widths of gathers, scatters and `sext` (R52, R53). -/
inductive Elem where
  | b | h | w
deriving DecidableEq, Repr

/-- The ord field (R52, R121). -/
inductive Ord where
  | rlx | acq | rel | sc
deriving DecidableEq, Repr

/-- The scp field (R52, R241). -/
inductive Scope where
  | comb | hive | dev | sys
deriving DecidableEq, Repr

/-- Conditions of scalar compares (R106). -/
inductive Cond where
  | eq | ne | lt | ge | ltu | geu | tst
deriving DecidableEq, Repr

/-- Operations of AMO and `ared` (R53, R123). -/
inductive AmoOp where
  | add | and | or | xor | min | max | minu | maxu | swap | fadd | fmin | fmax
deriving DecidableEq, Repr

/-- Kinds of `fence` (R53, R124). -/
inductive FenceKind where
  | full | acq | rel | ss
deriving DecidableEq, Repr

/-- Rounding modes (R72). -/
inductive Rm where
  | rne | rtz | rup | rdn
deriving DecidableEq, Repr

/-- Types of `vcmp` (R142). -/
inductive CmpTy where
  | f32 | i32 | n32
deriving DecidableEq, Repr

/-- Conditions of `vcmp` (R142). -/
inductive VCond where
  | eq | ne | lt | ge | le | gt | unord
deriving DecidableEq, Repr

/-- Operations of `mlog` (R144). -/
inductive MaskOp where
  | and | or | xor | not
deriving DecidableEq, Repr

/-- Who sent a message (R317, R392): a context, or a matrix engine. -/
inductive Sender where
  | thread (core cx : Nat)
  | engine (core : Nat)
deriving DecidableEq, Repr

/-- Names the register a remote fill is for (R214), and its record: fills of one register come in issue order (R163). -/
structure FillTag where
  core : Nat
  cx : Nat
  isV : Bool
  reg : BitVec 4
  gen : BitVec 16
  seq : Nat := 0
deriving DecidableEq, Repr

/-- What a message does at its target (R312-R320, R392): `msg` and a drain wake carry six words; a call names its
entry and its caller. `back` is the core and context that sent an `mdrain`, and `bits` its command bits [255:128], for the
notice of a refused wake. -/
inductive MsgKind where
  | plain
  | wake (backCore backCx : Nat) (bits : BitVec 128)
  | call (entry : W72) (ret : FillTag)
deriving DecidableEq, Repr

/-- A message in the network (R312-R321): `id` orders the messages of one sender (R319), `launch` is the sender's. -/
structure Msg where
  id : Nat
  launch : Nat
  core : Nat
  chan : BitVec 6
  sender : Sender
  gen : BitVec 16
  /-- bits [63:0] of s4-s9 (R362) -/
  pay : Vector (BitVec 64) 6
  kind : MsgKind
  /-- the bundle's V operation has raised a cause: the message asks for its own cause alone (R61) -/
  dry : Bool := false
deriving DecidableEq, Repr

/-- The uncorrectable errors of R208. -/
inductive MCheck where
  | sramData (key : Nat)
  /-- byte `o` of a core's L1 copy of a line -/
  | l1Data (core line o : Nat)
  | samplerData (comb line : Nat)
  | context (core cx : Nat)
  | control (core : Nat)
  | dramData (pa : Nat)
  | channel (slice : Nat)
  | nectar (line : Nat)
  | noSpare (unit : Nat)
deriving DecidableEq, Repr

/-- One constructor per row of spec/opcode_table.json. `g` is the guard field of a slot; register fields are named as in
the row. The events' operands stand in `Event`. -/
inductive Instr where
  /- MISC, R129, R204, R205, R231 -/
  | nop (g : BitVec 4)
  | brk (g : BitVec 4)
  | exit (g : BitVec 4)
  | eret (g : BitVec 4)
  | trap (g : BitVec 4) (i : BitVec 8)
  | tlbinvPage (g a b : BitVec 4)
  | tlbinvAsid (g b : BitVec 4)
  | tlbinvAll (g : BitVec 4)
  /- INT, R100 -/
  | add (g d a b : BitVec 4)
  | sub (g d a b : BitVec 4)
  | mul (g d a b : BitVec 4)
  | mulh (g d a b : BitVec 4)
  | mulhu (g d a b : BitVec 4)
  | div (g d a b : BitVec 4)
  | divu (g d a b : BitVec 4)
  | rem (g d a b : BitVec 4)
  | remu (g d a b : BitVec 4)
  | and (g d a b : BitVec 4)
  | or (g d a b : BitVec 4)
  | xor (g d a b : BitVec 4)
  | shl (g d a b : BitVec 4)
  | shr (g d a b : BitVec 4)
  | sra (g d a b : BitVec 4)
  | min (g d a b : BitVec 4)
  | max (g d a b : BitVec 4)
  | minu (g d a b : BitVec 4)
  | maxu (g d a b : BitVec 4)
  | clz (g d a : BitVec 4)
  | ctz (g d a : BitVec 4)
  | pcnt (g d a : BitVec 4)
  | sext (g d a : BitVec 4) (e : Elem)
  | mov (g d a : BitVec 4)
  | andn (g d a b : BitVec 4)
  /- immediates, bit fields, addresses, R101-R103 -/
  | addi (g d a : BitVec 4) (i : Imm 13)
  | andi (g d a : BitVec 4) (i : Imm 13)
  | ori (g d a : BitVec 4) (i : Imm 13)
  | xori (g d a : BitVec 4) (i : Imm 13)
  | shli (g d a : BitVec 4) (n : BitVec 6)
  | shri (g d a : BitVec 4) (n : BitVec 6)
  | srai (g d a : BitVec 4) (n : BitVec 6)
  | movi (g d : BitVec 4) (i : Imm 13)
  | orh (g d a : BitVec 4) (i : Imm 13)
  | bfx (g d a : BitVec 4) (p : BitVec 6) (n : BitVec 5)
  | bfxs (g d a : BitVec 4) (p : BitVec 6) (n : BitVec 5)
  | bfi (g d a : BitVec 4) (p : BitVec 6) (n : BitVec 5)
  | lea (g d a b : BitVec 4) (n : BitVec 2)
  | leai (g d a : BitVec 4) (i : Imm 13)
  | setsp (g d a : BitVec 4) (s : BitVec 8)
  | getsp (g d : BitVec 4)
  /- predicates, R106-R108 -/
  | cmp (g : BitVec 4) (p : BitVec 3) (a b : BitVec 4) (c : Cond)
  | cmpi (g : BitVec 4) (p : BitVec 3) (a : BitVec 4) (c : Cond) (i : Imm 10)
  | pand (g : BitVec 4) (d a b : BitVec 3)
  | por (g : BitVec 4) (d a b : BitVec 3)
  | pxor (g : BitVec 4) (d a b : BitVec 3)
  | pandn (g : BitVec 4) (d a b : BitVec 3)
  | pnot (g : BitVec 4) (d a : BitVec 3)
  | pword (g d : BitVec 4)
  | pset (g a : BitVec 4)
  | sel (g d a b : BitVec 4) (p : BitVec 3)
  /- control, R109, R110 -/
  | br (g : BitVec 4) (i : Imm 21)
  | bl (g : BitVec 4) (i : Imm 21)
  | jr (g a : BitVec 4)
  | jlr (g d a : BitVec 4)
  | loop (g c : BitVec 4) (n : BitVec 17)
  | loopi (g : BitVec 4) (c : Imm 4) (n : BitVec 17)
  /- memory, R115-R119 -/
  | ld (g d a : BitVec 4) (o : Imm 6) (wd : Width) (r : Ord) (s : Scope)
  | ldz (g d a : BitVec 4) (o : Imm 6) (wd : Width) (r : Ord) (s : Scope)
  | st (g d a : BitVec 4) (o : Imm 6) (wd : Width) (r : Ord) (s : Scope)
  | ldv (g d a : BitVec 4) (o : Imm 6) (r : Ord) (s : Scope)
  | stv (g d a : BitVec 4) (o : Imm 6) (r : Ord) (s : Scope)
  | ldsamp (g d a : BitVec 4) (o : Imm 6)
  | gath (g v s i : BitVec 4) (e : Elem) (h : BitVec 2) (r : Ord) (c : Scope)
  | scat (g v s i : BitVec 4) (e : Elem) (h : BitVec 2) (r : Ord) (c : Scope)
  | amo (g d a b : BitVec 4) (o : AmoOp) (w : Bool) (r : Ord) (s : Scope)
  | cas (g d a b : BitVec 4) (w : Bool) (r : Ord) (s : Scope)
  | ared (g a b : BitVec 4) (o : AmoOp) (w : Bool) (r : Ord) (s : Scope)
  /- fences, monitors, cache, R124-R126, R294, R299 -/
  | fence (g : BitVec 4) (k : FenceKind) (s : Scope)
  | fsamp (g : BitVec 4) (s : Scope)
  | sinv (g : BitVec 4) (s : Scope)
  | mwatch (g a : BitVec 4)
  | mwait (g d b : BitVec 4)
  | mclr (g : BitVec 4)
  | cflush (g a : BitVec 4)
  | cinval (g a : BitVec 4)
  | prf (g a : BitVec 4)
  /- context, R187-R189 -/
  | mig (g a : BitVec 4)
  | migc (g a : BitVec 4)
  | migb (g : BitVec 4)
  | home (g d a : BitVec 4)
  | isfull (g d a : BitVec 4) (f : Bool)
  | mkempty (g a : BitVec 4) (f : Bool)
  | mkfull (g a : BitVec 4) (f : Bool)
  | fmode (g : BitVec 4) (r : Rm)
  /- special registers, R127 -/
  | rdsr (g d : BitVec 4) (s : BitVec 12)
  | wrsr (g a : BitVec 4) (s : BitVec 12)
  /- messages, R316-R322, qput, R310 -/
  | msg (g a : BitVec 4) (c : BitVec 6)
  | mrecv (g d : BitVec 4)
  | chbind (g : BitVec 4) (c : BitVec 6)
  | tbset (g a : BitVec 4) (c : BitVec 6)
  | tbclr (g : BitVec 4) (c : BitVec 6)
  | mbrd (g d : BitVec 4) (p : Bool) (w : BitVec 2)
  | callat (g d a b : BitVec 4)
  | ret (g a : BitVec 4)
  | qput (g d a b : BitVec 4)
  /- gangs, barriers, nodes, R276, R288, R341 -/
  | gang (g : BitVec 4) (w : BitVec 2)
  | ungang (g : BitVec 4)
  | barInit (g a b : BitVec 4)
  | barArv (g a : BitVec 4)
  | barWait (g a b : BitVec 4)
  | barArw (g a : BitVec 4)
  | trig (g : BitVec 4)
  | cancel (g a : BitVec 4)
  | cnt (g d a : BitVec 4) (f : BitVec 2)
  /- transfers and rings, R347, R355, R359; n is the notice flag, r the ring flag -/
  | xget (g d a b : BitVec 4) (n r : Bool) (c : BitVec 3)
  | xput (g d a b : BitVec 4) (n r : Bool) (c : BitVec 3)
  | xcopy (g d a b : BitVec 4) (n r : Bool) (c : BitVec 3)
  | xtile (g d a b : BitVec 4) (n r : Bool) (c : BitVec 3)
  | xgetv (g d a b : BitVec 4) (n r : Bool) (c : BitVec 3)
  | xwait (g d a : BitVec 4) (c : BitVec 3)
  | xstat (g d : BitVec 4) (k : Bool) (c : BitVec 3)
  | cbinit (g a b : BitVec 4) (n : BitVec 5)
  | cbpush (g d a b : BitVec 4)
  | cbpop (g d a b : BitVec 4)
  | cbwait (g d a b : BitVec 4)
  | cbspace (g d a b : BitVec 4)
  /- promises, R375 -/
  | pinit (g a : BitVec 4)
  | pfill (g a b : BitVec 4)
  | peq (g a b : BitVec 4)
  | pget (g d a : BitVec 4)
  | ptry (g d a : BitVec 4)
  | pstat (g d a : BitVec 4) (f : BitVec 2)
  /- licence, engine, Nectar, R394, R404, R422 -/
  | licAcq (g : BitVec 4) (x : Bool)
  | licRel (g : BitVec 4)
  | licGive (g : BitVec 4)
  | mcmd (g a b : BitVec 4)
  | mfin (g d a : BitVec 4)
  | ninst (g d a : BitVec 4)
  | nwait (g d a : BitVec 4)
  | nstat (g d a : BitVec 4) (f : BitVec 2)
  | nretire (g a : BitVec 4)
  /- bit streams, R192 -/
  | bsinit (g a b : BitVec 4) (x : Bool)
  | bsget (g d : BitVec 4) (n : BitVec 5)
  | bsput (g a : BitVec 4) (n : BitVec 5)
  | bspeek (g d : BitVec 4) (n : BitVec 5)
  | bsskip (g b : BitVec 4)
  | bsalign (g : BitVec 4) (x : Bool)
  | bsflush (g d : BitVec 4)
  | fwait (g d a : BitVec 4)
  /- V operations, R130-R158 -/
  | vnop
  | vaddF32 (g d a : BitVec 4) (b : VSrc)
  | vsubF32 (g d a : BitVec 4) (b : VSrc)
  | vmulF32 (g d a : BitVec 4) (b : VSrc)
  | vminF32 (g d a : BitVec 4) (b : VSrc)
  | vmaxF32 (g d a : BitVec 4) (b : VSrc)
  | vminnum (g d a : BitVec 4) (b : VSrc)
  | vmaxnum (g d a : BitVec 4) (b : VSrc)
  | vabs (g d : BitVec 4) (a : VSrc)
  | vneg (g d : BitVec 4) (a : VSrc)
  | vcopysign (g d a : BitVec 4) (b : VSrc)
  | vfma (g d a b : BitVec 4) (c : VSrc)
  | vfms (g d a b : BitVec 4) (c : VSrc)
  | vfnma (g d a b : BitVec 4) (c : VSrc)
  | vfnms (g d a b : BitVec 4) (c : VSrc)
  | vhAdd (g d a : BitVec 4) (b : VSrc) (t : Bool)
  | vhMul (g d a : BitVec 4) (b : VSrc) (t : Bool)
  | vhFma (g d a b : BitVec 4) (c : VSrc) (t : Bool)
  | vhMin (g d a : BitVec 4) (b : VSrc) (t : Bool)
  | vhMax (g d a : BitVec 4) (b : VSrc) (t : Bool)
  | vaddI32 (g d a : BitVec 4) (b : VSrc)
  | vsubI32 (g d a : BitVec 4) (b : VSrc)
  | vmulI32 (g d a : BitVec 4) (b : VSrc)
  | vmulh (g d a : BitVec 4) (b : VSrc) (u : Bool)
  | vandI32 (g d a : BitVec 4) (b : VSrc)
  | vorI32 (g d a : BitVec 4) (b : VSrc)
  | vxorI32 (g d a : BitVec 4) (b : VSrc)
  | vshlI32 (g d a : BitVec 4) (b : VSrc)
  | vshrI32 (g d a : BitVec 4) (b : VSrc)
  | vsraI32 (g d a : BitVec 4) (b : VSrc)
  | vminI32 (g d a : BitVec 4) (b : VSrc)
  | vmaxI32 (g d a : BitVec 4) (b : VSrc)
  | vminN32 (g d a : BitVec 4) (b : VSrc)
  | vmaxN32 (g d a : BitVec 4) (b : VSrc)
  | vclzI32 (g d : BitVec 4) (a : VSrc)
  | vpcntI32 (g d : BitVec 4) (a : VSrc)
  | vadd8 (g d a : BitVec 4) (b : VSrc)
  | vadds8 (g d a : BitVec 4) (b : VSrc)
  | vdot4 (g d a b : BitVec 4) (c : VSrc)
  | vcmp (g : BitVec 4) (m : BitVec 3) (a : BitVec 4) (b : VSrc) (t : CmpTy) (c : VCond)
  | vsel (g d a : BitVec 4) (b : VSrc) (m : BitVec 3)
  | vcvtI32F32 (g d : BitVec 4) (a : VSrc) (r : Bool)
  | vcvtF32I32 (g d : BitVec 4) (a : VSrc)
  | vcvtF32N32 (g d : BitVec 4) (a : VSrc)
  | vcvtF16F32 (g d a : BitVec 4) (b : VSrc)
  | vcvtF32F16 (g d : BitVec 4) (a : VSrc)
  | vcvtBf16F32 (g d a : BitVec 4) (b : VSrc)
  | vcvtF32Bf16 (g d : BitVec 4) (a : VSrc)
  | vcvtI32I8 (g d : BitVec 4) (a : VSrc)
  | vcvtI8I32 (g d : BitVec 4) (a : VSrc)
  | vcvtN32F32 (g d : BitVec 4) (a : VSrc) (r : Bool)
  | vrcp (g d : BitVec 4) (a : VSrc)
  | vrsqrt (g d : BitVec 4) (a : VSrc)
  | vsqrt (g d : BitVec 4) (a : VSrc)
  | vdiv (g d a : BitVec 4) (b : VSrc)
  | vexp2 (g d : BitVec 4) (a : VSrc)
  | vlog2 (g d : BitVec 4) (a : VSrc)
  | vsinpi (g d : BitVec 4) (a : VSrc)
  | vcospi (g d : BitVec 4) (a : VSrc)
  | vperm (g d a : BitVec 4) (b : VSrc)
  | vrotl (g d : BitVec 4) (a : VSrc) (n : BitVec 4)
  | vbcastl (g d : BitVec 4) (a : VSrc) (n : BitVec 4)
  | vredaddF32 (g d a : BitVec 4)
  | vredaddI32 (g d a : BitVec 4)
  | vredminF32 (g d a : BitVec 4)
  | vredmaxF32 (g d a : BitVec 4)
  | vmov (g d : BitVec 4) (a : VSrc)
  | vbcast (g d a : BitVec 4)
  | vext (g d a n : BitVec 4)
  | vins (g d a n : BitVec 4)
  | vlane (g d : BitVec 4)
  | mlog (g : BitVec 4) (d a b : BitVec 3) (o : MaskOp)
  | mcnt (g d : BitVec 4) (a : BitVec 3)
  | mset (g : BitVec 4) (d : BitVec 3) (a : BitVec 4)
  | vbfpk (d a m : BitVec 4)
  | vbfunp (d a n : BitVec 4)
  | vbfhdr (d a m : BitVec 4)
  | vbfscale (d a b : BitVec 4)
  | vtopk (g d a b k : BitVec 4)
  | vfmak (g d a : BitVec 4) (k : BitVec 8)
  | vaddk (g d a : BitVec 4) (k : BitVec 8)
  | vmulk (g d a : BitVec 4) (k : BitVec 8)
  | vaddi (d a : BitVec 4) (i : BitVec 20)
  | vmuli (d a : BitVec 4) (i : BitVec 20)
  | vfmai (d a : BitVec 4) (i : BitVec 20)
  | vmovi (d : BitVec 4) (i : BitVec 20)
  /- tile commands at engine e, R64, R389 -/
  | mbegin (e : Nat) (tag : W32) (chain : W16) (anchor : Byte)
  | mstep (e : Nat) (tag : W32) (chain : W16) (a b : BitVec 24) (n : BitVec 12) (da db : BitVec 4)
  | mend (e : Nat) (tag : W32) (chain : W16)
  | mdrain (e : Nat) (tag : W32) (chain : W16) (dest : BitVec 12) (o : BitVec 24) (w : BitVec 6) (f : BitVec 4)
  | mzero (e : Nat) (tag : W32) (chain : W16)
  /- events of the agents and of the outside; Event carries their operands -/
  | commandAccept
  | kStep
  | drainComplete
  | licenceGrant
  | coopHandover
  /- contexts and cores -/
  | fill
  | remoteFill
  | clearDone
  | trapDelivery
  | cancelDelivery
  | watchdog
  | energyRefill
  | migrationDepart
  | migrationArrival
  | messageArrival
  | messageRetry
  | counterAcknowledged
  | groupAdmit
  | launchStart
  | pctlGo
  | preemptHalt
  | preemptSave
  | prest
  /- paging -/
  | pageWalk
  | faultRetry
  | faultDecline
  | ephemeralExpire
  | samplerFill
  | mwaitTimeout
  /- queues -/
  | qhdr
  | queueStateStore
  | launchPacket
  | fencePacket
  | fencePass
  | signalPacket
  | copyPacket
  | installPacket
  | markerPacket
  | cancelPacket
  | nheadWrite
  /- transfers, promises, extents -/
  | transferArrive
  | streamerPiece
  | transferFinish
  | ringReserve
  | promiseRequest
  | blockErase
  | unitProgram
  | installComplete
  | supersedeDrain
  | stagingFill
  /- host, power, display, repair -/
  | hostWrite
  | hostCompletionTimeout
  | linkRetrain
  | powerTick
  | grantLoss
  | clampEngage
  | clampRelease
  | frameLatch
  | verticalBlank
  | genlockHeld
  | lockLost
  | muxReturn
  | start
  | mainPowerLoss
  | dorm
  | warmReset
  | repairReplayEnd
  | spareTakeover
  | machineCheck
  | coreFailure
  | storeAcknowledgement
deriving DecidableEq, Repr

/-- An occurrence of an event of the other agents or of the outside, with what names it: a row of the table that has no
encoding carries its operands here (log 22). `command` is the command at the head of a matrix engine's queue. -/
inductive Event where
  | command (i : Instr)
  | commandAccept (e : Nat)
  | kStep (e : Nat)
  | drainComplete (e : Nat)
  | licenceGrant (pair : Nat)
  | coopHandover (pair : Nat)
  /- contexts and cores -/
  | fill (core cx : Nat) (isV : Bool) (reg : BitVec 4)
  | remoteFill (tag : FillTag) (val : W512) (pois : Bool)
  | clearDone (core : Nat)
  | trapDelivery (core cx : Nat)
  | cancelDelivery (core cx : Nat)
  | watchdog (core cx : Nat)
  | energyRefill (core : Nat)
  | migrationDepart (core cx : Nat)
  | migrationArrival (core : Nat)
  | messageArrival (m : Msg)
  | messageRetry (core : Nat)
  | counterAcknowledged (core cx : Nat)
  | groupAdmit (launch comb : Nat)
  | launchStart (launch : Nat)
  | pctlGo
  | preemptHalt
  | preemptSave
  | prest (image : W64)
  /- paging -/
  | pageWalk (hive walk : Nat)
  | faultRetry (hive slot : Nat)
  | faultDecline (hive slot : Nat)
  | ephemeralExpire (frame : Nat)
  | samplerFill (comb line : Nat)
  | mwaitTimeout (core cx : Nat)
  /- queues -/
  | qhdr (v : W64)
  | queueStateStore (q : Nat) (v : Byte)
  | launchPacket (q : Nat)
  | fencePacket (q : Nat)
  | fencePass (q : Nat)
  | signalPacket (q : Nat)
  | copyPacket (q : Nat)
  | installPacket (q : Nat)
  | markerPacket (q : Nat)
  | cancelPacket (q : Nat)
  | nheadWrite (v : W64)
  /- transfers, promises, extents -/
  | transferArrive (t : Nat)
  | streamerPiece (t : Nat)
  | transferFinish (t : Nat)
  | ringReserve (core ring : Nat)
  | promiseRequest (q : Nat)
  | blockErase (x : Nat)
  | unitProgram (x : Nat)
  | installComplete (x : Nat)
  | supersedeDrain (x : Nat)
  | stagingFill (line : Nat)
  /- host, power, display, repair -/
  | hostWrite (pa : Nat) (bytes : List Byte)
  | hostCompletionTimeout (core cx : Nat)
  | linkRetrain
  | powerTick (grant : Option W16)
  | grantLoss
  | clampEngage (samples : List W16)
  | clampRelease (samples : List W16)
  | frameLatch (out : Nat)
  | verticalBlank (out : Nat)
  | genlockHeld
  | lockLost
  | muxReturn
  | start (kind : BitVec 2)
  | mainPowerLoss
  | dorm
  | warmReset
  | repairReplayEnd (stack : Nat) (bad : List Nat)
  | spareTakeover (slice : Nat)
  | machineCheck (k : MCheck)
  | coreFailure (core : Nat)
  | storeAcknowledgement (w : Nat)
deriving DecidableEq, Repr

/-- The row of the table whose effect an event has. -/
def Event.op : Event → Instr
  | .command i => i
  | .commandAccept _ => .commandAccept
  | .kStep _ => .kStep
  | .drainComplete _ => .drainComplete
  | .licenceGrant _ => .licenceGrant
  | .coopHandover _ => .coopHandover
  | .fill _ _ _ _ => .fill
  | .remoteFill _ _ _ => .remoteFill
  | .clearDone _ => .clearDone
  | .trapDelivery _ _ => .trapDelivery
  | .cancelDelivery _ _ => .cancelDelivery
  | .watchdog _ _ => .watchdog
  | .energyRefill _ => .energyRefill
  | .migrationDepart _ _ => .migrationDepart
  | .migrationArrival _ => .migrationArrival
  | .messageArrival _ => .messageArrival
  | .messageRetry _ => .messageRetry
  | .counterAcknowledged _ _ => .counterAcknowledged
  | .groupAdmit _ _ => .groupAdmit
  | .launchStart _ => .launchStart
  | .pctlGo => .pctlGo
  | .preemptHalt => .preemptHalt
  | .preemptSave => .preemptSave
  | .prest _ => .prest
  | .pageWalk _ _ => .pageWalk
  | .faultRetry _ _ => .faultRetry
  | .faultDecline _ _ => .faultDecline
  | .ephemeralExpire _ => .ephemeralExpire
  | .samplerFill _ _ => .samplerFill
  | .mwaitTimeout _ _ => .mwaitTimeout
  | .qhdr _ => .qhdr
  | .queueStateStore _ _ => .queueStateStore
  | .launchPacket _ => .launchPacket
  | .fencePacket _ => .fencePacket
  | .fencePass _ => .fencePass
  | .signalPacket _ => .signalPacket
  | .copyPacket _ => .copyPacket
  | .installPacket _ => .installPacket
  | .markerPacket _ => .markerPacket
  | .cancelPacket _ => .cancelPacket
  | .nheadWrite _ => .nheadWrite
  | .transferArrive _ => .transferArrive
  | .streamerPiece _ => .streamerPiece
  | .transferFinish _ => .transferFinish
  | .ringReserve _ _ => .ringReserve
  | .promiseRequest _ => .promiseRequest
  | .blockErase _ => .blockErase
  | .unitProgram _ => .unitProgram
  | .installComplete _ => .installComplete
  | .supersedeDrain _ => .supersedeDrain
  | .stagingFill _ => .stagingFill
  | .hostWrite _ _ => .hostWrite
  | .hostCompletionTimeout _ _ => .hostCompletionTimeout
  | .linkRetrain => .linkRetrain
  | .powerTick _ => .powerTick
  | .grantLoss => .grantLoss
  | .clampEngage _ => .clampEngage
  | .clampRelease _ => .clampRelease
  | .frameLatch _ => .frameLatch
  | .verticalBlank _ => .verticalBlank
  | .genlockHeld => .genlockHeld
  | .lockLost => .lockLost
  | .muxReturn => .muxReturn
  | .start _ => .start
  | .mainPowerLoss => .mainPowerLoss
  | .dorm => .dorm
  | .warmReset => .warmReset
  | .repairReplayEnd _ _ => .repairReplayEnd
  | .spareTakeover _ => .spareTakeover
  | .machineCheck _ => .machineCheck
  | .coreFailure _ => .coreFailure
  | .storeAcknowledgement _ => .storeAcknowledgement

end Sys2Proof
end

