-- ==== Sys2Proof/Machine/Float.lean ====
section
/-! DEFINITION. Floating-point arithmetic (spec/04_numbers.md R70-R87): exact results of integers and powers of two,
rounded once. -/

namespace Sys2Proof.Machine

/-- A format of R70: exponent and fraction widths. -/
structure Fmt where
  ew : Nat
  fw : Nat
deriving DecidableEq, Repr

def fp32 : Fmt := ⟨8, 23⟩
def fp16 : Fmt := ⟨5, 10⟩
def bf16 : Fmt := ⟨8, 7⟩

def Fmt.bias (f : Fmt) : Int := 2 ^ (f.ew - 1) - 1
def Fmt.signBit (f : Fmt) : Nat := 2 ^ (f.ew + f.fw)
def Fmt.infBits (f : Fmt) : Nat := (2 ^ f.ew - 1) * 2 ^ f.fw
def Fmt.quietBit (f : Fmt) : Nat := 2 ^ (f.fw - 1)
/-- The canonical quiet NaN. -/
def Fmt.nanBits (f : Fmt) : Nat := f.infBits + f.quietBit
/-- The exponent of the smallest normal magnitude. -/
def Fmt.emin (f : Fmt) : Int := 1 - f.bias

/-- The flags of R73 that floating-point forms raise. -/
def nvFlag : BitVec 6 := 1
def dzFlag : BitVec 6 := 2
def ofFlag : BitVec 6 := 4
def ufFlag : BitVec 6 := 8
def nxFlag : BitVec 6 := 16

/-- What the bits of an element stand for: a number is (−1)^sign × m × 2^e. -/
inductive FVal where
  | nan (sign : Bool) (frac : Nat)
  | inf (sign : Bool)
  | num (sign : Bool) (m : Nat) (e : Int)
deriving DecidableEq, Repr

/-- The mode fields that arithmetic uses (R72). -/
structure FMode where
  rm : Rm
  daz : Bool
  ftz : Bool
deriving DecidableEq, Repr

/-- The result of an element: its bits, the flags it raises, and whether it asks for the normaliser (R86). -/
structure FRes where
  bits : Nat
  flags : BitVec 6 := 0
  norm : Bool := false
deriving DecidableEq, Repr

def Fmt.unpack (f : Fmt) (x : Nat) : FVal :=
  let s := x / f.signBit % 2 == 1
  let ex := x / 2 ^ f.fw % 2 ^ f.ew
  let fr := x % 2 ^ f.fw
  if ex = 2 ^ f.ew - 1 then (if fr = 0 then .inf s else .nan s fr)
  else if ex = 0 then .num s fr (f.emin - f.fw)
  else .num s (2 ^ f.fw + fr) (ex - f.bias - f.fw)

/-- A subnormal: exponent zero, fraction not zero. -/
def Fmt.isSub (f : Fmt) (x : Nat) : Bool := x / 2 ^ f.fw % 2 ^ f.ew == 0 && x % 2 ^ f.fw != 0

/-- An operand as the operation reads it: under `daz` a subnormal is a zero of its sign (R85). -/
def Fmt.operand (f : Fmt) (md : FMode) (x : Nat) : FVal :=
  if md.daz && f.isSub x then .num (x / f.signBit % 2 == 1) 0 0 else f.unpack x

/-- Whether an operand asks for the normaliser. -/
def Fmt.asks (f : Fmt) (md : FMode) (x : Nat) : Bool := !md.daz && f.isSub x

def Fmt.signed (f : Fmt) (s : Bool) (x : Nat) : Nat := if s then f.signBit + x else x

/-- The propagated NaN of an operand (R79). -/
def Fmt.quiet (f : Fmt) (s : Bool) (fr : Nat) : Nat := f.signed s (f.infBits + (fr % f.quietBit + f.quietBit))

/-- Whether a NaN's bits are signalling. -/
def Fmt.isSig (f : Fmt) (x : Nat) : Bool :=
  match f.unpack x with
  | .nan _ fr => fr < f.quietBit
  | _ => false

/-- The integer m / 2^sh rounded; `sticky` says that the true value lies above m by less than one. The second part says
whether anything was lost. -/
def roundInt (rm : Rm) (neg : Bool) (m sh : Nat) (sticky : Bool) : Nat × Bool :=
  let q := m / 2 ^ sh
  let r := m % 2 ^ sh
  let lost := r != 0 || sticky
  let up :=
    match rm with
    | .rne => sh != 0 && (2 ^ (sh - 1) < r || (r == 2 ^ (sh - 1) && (sticky || q % 2 == 1)))
    | .rtz => false
    | .rup => lost && !neg
    | .rdn => lost && neg
  (if up then q + 1 else q, lost)

/-- The number m × 2^e (and a little more when `sticky`), m not zero, rounded to a format (R75, R78, R85). -/
def Fmt.round (f : Fmt) (md : FMode) (neg : Bool) (m : Nat) (e : Int) (sticky : Bool) : FRes :=
  let p := f.fw + 1
  -- at least two bits below the last place of the result
  let up := if m.log2 < p + 2 then p + 2 - m.log2 else 0
  let m := m * 2 ^ up
  let e := e - up
  let n := m.log2 + 1
  let free := roundInt md.rm neg m (n - p) sticky
  let freeExp : Int := e + (n - p) + (if free.1 = 2 ^ p then 1 else 0) + (p - 1)
  let tiny := freeExp < f.emin
  let lsb : Int := max (e + (n - p)) (f.emin - f.fw)
  let r := roundInt md.rm neg m (lsb - e).toNat sticky
  if tiny && md.ftz then ⟨f.signed neg 0, ufFlag ||| nxFlag, false⟩
  else
    let nx := if r.2 then nxFlag else 0
    if r.1 < 2 ^ f.fw then ⟨f.signed neg r.1, nx ||| (if tiny && r.2 then ufFlag else 0), tiny⟩
    else
      let q := if r.1 = 2 ^ p then 2 ^ f.fw else r.1
      let ex : Int := lsb + f.fw + f.bias + (if r.1 = 2 ^ p then 1 else 0)
      if (2 ^ f.ew - 1 : Int) ≤ ex then
        let big :=
          match md.rm with
          | .rne => true
          | .rtz => false
          | .rup => !neg
          | .rdn => neg
        ⟨f.signed neg (if big then f.infBits else f.infBits - 1), ofFlag ||| nxFlag, false⟩
      else ⟨f.signed neg (ex.toNat * 2 ^ f.fw + (q - 2 ^ f.fw)), nx ||| (if tiny && r.2 then ufFlag else 0), tiny⟩

/-- A signed exact sum m × 2^e rounded; an exact zero takes the sign given. -/
def Fmt.roundSum (f : Fmt) (md : FMode) (m e : Int) (zero : Bool) : FRes :=
  if m = 0 then ⟨f.signed zero 0, 0, false⟩ else f.round md (m < 0) m.natAbs e false

/-- The first NaN operand in order, quieted. -/
def Fmt.propagate (f : Fmt) : List Nat → Option Nat
  | [] => none
  | x :: l =>
    match f.unpack x with
    | .nan s fr => some (f.quiet s fr)
    | _ => f.propagate l

/-- Adds what every operation on NaN and subnormal operands raises. -/
def Fmt.guardRes (f : Fmt) (md : FMode) (xs : List Nat) (r : FRes) : FRes :=
  { r with flags := r.flags ||| (if xs.any f.isSig then nvFlag else 0), norm := r.norm || xs.any (f.asks md) }

def signedInt (s : Bool) (m : Nat) : Int := if s then -(m : Int) else m

/-- Sum of two numbers, exact: common exponent, integer. -/
def alignSum (s1 : Bool) (m1 : Nat) (e1 : Int) (s2 : Bool) (m2 : Nat) (e2 : Int) : Int × Int :=
  let e := min e1 e2
  (signedInt s1 (m1 * 2 ^ (e1 - e).toNat) + signedInt s2 (m2 * 2 ^ (e2 - e).toNat), e)

/-- The sign of an exact zero sum (R78). -/
def zeroSign (rm : Rm) (s1 s2 : Bool) : Bool := if s1 == s2 then s1 else rm == .rdn

/-- a + b on values that are not NaN. -/
def Fmt.addVal (f : Fmt) (md : FMode) (a b : FVal) : FRes :=
  match a, b with
  | .inf s, .inf t => if s == t then ⟨f.signed s f.infBits, 0, false⟩ else ⟨f.nanBits, nvFlag, false⟩
  | .inf s, _ => ⟨f.signed s f.infBits, 0, false⟩
  | _, .inf s => ⟨f.signed s f.infBits, 0, false⟩
  | .num s m e, .num t n d =>
    let r := alignSum s m e t n d
    f.roundSum md r.1 r.2 (zeroSign md.rm s t)
  | _, _ => ⟨f.nanBits, 0, false⟩

def negVal : FVal → FVal
  | .nan s fr => .nan (!s) fr
  | .inf s => .inf (!s)
  | .num s m e => .num (!s) m e

/-- a + b (R78, R79). -/
def Fmt.add (f : Fmt) (md : FMode) (a b : Nat) : FRes :=
  f.guardRes md [a, b] <|
    match f.propagate [a, b] with
    | some x => ⟨x, 0, false⟩
    | none => f.addVal md (f.operand md a) (f.operand md b)

def Fmt.sub (f : Fmt) (md : FMode) (a b : Nat) : FRes :=
  f.guardRes md [a, b] <|
    match f.propagate [a, b] with
    | some x => ⟨x, 0, false⟩
    | none => f.addVal md (f.operand md a) (negVal (f.operand md b))

/-- The exact product, or none for 0 × ∞ (and NaN). -/
def mulVal (a b : FVal) : Option FVal :=
  match a, b with
  | .num s m e, .num t n d => some (.num (s != t) (m * n) (e + d))
  | .inf s, .num t n _ => if n = 0 then none else some (.inf (s != t))
  | .num s m _, .inf t => if m = 0 then none else some (.inf (s != t))
  | .inf s, .inf t => some (.inf (s != t))
  | _, _ => none

/-- A value delivered as the result. -/
def Fmt.roundVal (f : Fmt) (md : FMode) : FVal → FRes
  | .nan s fr => ⟨f.quiet s fr, 0, false⟩
  | .inf s => ⟨f.signed s f.infBits, 0, false⟩
  | .num s m e => if m = 0 then ⟨f.signed s 0, 0, false⟩ else f.round md s m e false

def Fmt.mul (f : Fmt) (md : FMode) (a b : Nat) : FRes :=
  f.guardRes md [a, b] <|
    match f.propagate [a, b] with
    | some x => ⟨x, 0, false⟩
    | none =>
      match mulVal (f.operand md a) (f.operand md b) with
      | some v => f.roundVal md v
      | none => ⟨f.nanBits, nvFlag, false⟩

/-- ±(a × b) ± c with one rounding (R78, R138); 0 × ∞ raises invalid even where c is a quiet NaN (R79). -/
def Fmt.fma (f : Fmt) (md : FMode) (negP negC : Bool) (a b c : Nat) : FRes :=
  f.guardRes md [a, b, c] <|
    let p := mulVal (f.operand md a) (f.operand md b)
    match f.propagate [a, b, c] with
    | some x => ⟨x, if f.propagate [a, b] = none && p = none then nvFlag else 0, false⟩
    | none =>
      match p with
      | none => ⟨f.nanBits, nvFlag, false⟩
      | some v =>
        let cv := f.operand md c
        f.addVal md (if negP then negVal v else v) (if negC then negVal cv else cv)

/-- A key that orders values that are not NaN, −0 below +0 (R82). -/
def Fmt.key (f : Fmt) (x : Nat) : Int :=
  if x / f.signBit % 2 = 1 then -((x % f.signBit : Nat) : Int) - 1 else ((x % f.signBit : Nat) : Int)

/-- An operand's bits as `daz` leaves them. -/
def Fmt.dazBits (f : Fmt) (md : FMode) (x : Nat) : Nat := if md.daz && f.isSub x then x / f.signBit % 2 * f.signBit else x

/-- A result that is one of the operands: `ftz` flushes a subnormal (R85). -/
def Fmt.pass (f : Fmt) (md : FMode) (x : Nat) : FRes :=
  if f.isSub x then
    (if md.ftz then ⟨x / f.signBit % 2 * f.signBit, ufFlag ||| nxFlag, false⟩ else ⟨x, 0, true⟩)
  else ⟨x, 0, false⟩

def Fmt.pickMin (f : Fmt) (md : FMode) (isMax : Bool) (a b : Nat) : FRes :=
  let x := f.dazBits md a
  let y := f.dazBits md b
  f.pass md (if (if isMax then f.key y ≤ f.key x else f.key x ≤ f.key y) then x else y)

/-- `vmin` and `vmax` (R82, first column). -/
def Fmt.minMax (f : Fmt) (md : FMode) (isMax : Bool) (a b : Nat) : FRes :=
  f.guardRes md [a, b] <|
    match f.propagate [a, b] with
    | some x => ⟨x, 0, false⟩
    | none => f.pickMin md isMax a b

/-- `vminnum` and `vmaxnum` (R82, second column). -/
def Fmt.minMaxNum (f : Fmt) (md : FMode) (isMax : Bool) (a b : Nat) : FRes :=
  f.guardRes md [a, b] <|
    match f.propagate [a], f.propagate [b] with
    | some _, some _ => ⟨f.nanBits, 0, false⟩
    | some _, none => f.pass md (f.dazBits md b)
    | none, some _ => f.pass md (f.dazBits md a)
    | none, none => f.pickMin md isMax a b

/-- A quotient of positive integers, m × 2^e ÷ (n × 2^d), rounded. -/
def Fmt.roundQuot (f : Fmt) (md : FMode) (neg : Bool) (m : Nat) (e : Int) (n : Nat) (d : Int) : FRes :=
  let k := n.log2 + f.fw + 8
  let q := m * 2 ^ k / n
  f.round md neg q (e - d - k) (m * 2 ^ k % n != 0)

/-- a ÷ b (R83). -/
def Fmt.div (f : Fmt) (md : FMode) (a b : Nat) : FRes :=
  f.guardRes md [a, b] <|
    match f.propagate [a, b] with
    | some x => ⟨x, 0, false⟩
    | none =>
      match f.operand md a, f.operand md b with
      | .inf _, .inf _ => ⟨f.nanBits, nvFlag, false⟩
      | .inf s, .num t _ _ => ⟨f.signed (s != t) f.infBits, 0, false⟩
      | .num s _ _, .inf t => ⟨f.signed (s != t) 0, 0, false⟩
      | .num s m e, .num t n d =>
        if n = 0 then (if m = 0 then ⟨f.nanBits, nvFlag, false⟩ else ⟨f.signed (s != t) f.infBits, dzFlag, false⟩)
        else if m = 0 then ⟨f.signed (s != t) 0, 0, false⟩
        else f.roundQuot md (s != t) m e n d
      | _, _ => ⟨f.nanBits, 0, false⟩

/-- Integer square root from bit `fuel` - 1 down. -/
def isqrtFrom (x : Nat) : Nat → Nat → Nat
  | 0, r => r
  | fuel + 1, r => isqrtFrom x fuel (if (r + 2 ^ fuel) * (r + 2 ^ fuel) ≤ x then r + 2 ^ fuel else r)

def isqrt (x : Nat) : Nat := isqrtFrom x (x.log2 / 2 + 1) 0

/-- The integer part of √(m × 2^e) scaled up, its exponent, and whether it is exact. -/
def sqrtParts (m : Nat) (e : Int) (k : Nat) : Nat × Int × Bool :=
  let odd := e % 2 != 0
  let m := if odd then m * 2 else m
  let e := if odd then e - 1 else e
  let r := isqrt (m * 2 ^ (2 * k))
  (r, e / 2 - k, r * r == m * 2 ^ (2 * k))

def Fmt.sqrt (f : Fmt) (md : FMode) (a : Nat) : FRes :=
  f.guardRes md [a] <|
    match f.operand md a with
    | .nan s fr => ⟨f.quiet s fr, 0, false⟩
    | .inf s => if s then ⟨f.nanBits, nvFlag, false⟩ else ⟨f.infBits, 0, false⟩
    | .num s m e =>
      if m = 0 then ⟨f.signed s 0, 0, false⟩
      else if s then ⟨f.nanBits, nvFlag, false⟩
      else
        let r := sqrtParts m e (f.fw + 8)
        f.round md false r.1 r.2.1 (!r.2.2)

def Fmt.rcp (f : Fmt) (md : FMode) (a : Nat) : FRes :=
  f.guardRes md [a] <|
    match f.operand md a with
    | .nan s fr => ⟨f.quiet s fr, 0, false⟩
    | .inf s => ⟨f.signed s 0, 0, false⟩
    | .num s m e => if m = 0 then ⟨f.signed s f.infBits, dzFlag, false⟩ else f.roundQuot md s 1 0 m e

/-- 1/√a: the root of a quotient 2^k ÷ m at an even exponent; floors compose. -/
def Fmt.rsqrt (f : Fmt) (md : FMode) (a : Nat) : FRes :=
  f.guardRes md [a] <|
    match f.operand md a with
    | .nan s fr => ⟨f.quiet s fr, 0, false⟩
    | .inf s => if s then ⟨f.nanBits, nvFlag, false⟩ else ⟨0, 0, false⟩
    | .num s m e =>
      if m = 0 then ⟨f.signed s f.infBits, dzFlag, false⟩
      else if s then ⟨f.nanBits, nvFlag, false⟩
      else
        let odd := e % 2 != 0
        let m := if odd then m * 2 else m
        let e := if odd then e - 1 else e
        let k := m.log2 + 2 * f.fw + 16
        let k := k + k % 2
        let r := isqrt (2 ^ k / m)
        f.round md false r (-(e / 2) - (k / 2 : Nat)) (r * r * m != 2 ^ k)

/-! ### Transcendental functions: fixed point with p fraction bits, bounds on both sides -/

/-- Σ 1/(k 2^k) for ln 2, k from `k` on, `fuel` terms. -/
def ln2From (p k : Nat) : Nat → Nat
  | 0 => 0
  | fuel + 1 => 2 ^ p / (k * 2 ^ k) + ln2From p (k + 1) fuel

/-- Below ln 2 × 2^p by less than 2p. -/
def ln2Fix (p : Nat) : Nat := ln2From p 1 (p + 8)

/-- Σ y^n / n! from term n on. -/
def expFrom (p y n term : Nat) : Nat → Nat
  | 0 => 0
  | fuel + 1 => term + expFrom p y (n + 1) (term * y / 2 ^ p / (n + 1)) fuel

def expFix (p y : Nat) : Nat := expFrom p y 0 (2 ^ p) (p / 4 + 16)

/-- Σ z^(2k+1) / (2k+1). -/
def atanhFrom (p z2 k pow : Nat) : Nat → Nat
  | 0 => 0
  | fuel + 1 => pow / (2 * k + 1) + atanhFrom p z2 (k + 1) (pow * z2 / 2 ^ p) fuel

/-- ln(m / 2^p) for 2^p ≤ m < 2^(p+1). -/
def lnFix (p m : Nat) : Nat :=
  let z := (m - 2 ^ p) * 2 ^ p / (m + 2 ^ p)
  2 * atanhFrom p (z * z / 2 ^ p) 0 z (p / 3 + 8)

/-- atan(1/n) × 2^p by its alternating series. -/
def atanInvFrom (p n k pow : Nat) : Nat → Int
  | 0 => 0
  | fuel + 1 => ((pow / (2 * k + 1) : Nat) : Int) - atanInvFrom p n (k + 1) (pow / (n * n)) fuel

def piFix (p : Nat) : Nat :=
  (16 * atanInvFrom p 5 0 (2 ^ p / 5) (p / 4 + 8) - 4 * atanInvFrom p 239 0 (2 ^ p / 239) (p / 4 + 8)).toNat

/-- Σ (−1)^k y^(2k+1) / (2k+1)!. -/
def sinFrom (p y2 k term : Nat) : Nat → Int
  | 0 => 0
  | fuel + 1 => (term : Int) - sinFrom p y2 (k + 1) (term * y2 / 2 ^ p / ((2 * k + 2) * (2 * k + 3))) fuel

def sinFix (p y : Nat) : Nat := (sinFrom p (y * y / 2 ^ p) 0 y (p / 8 + 16)).toNat

/-- Rounds a positive irrational value that `g p` approximates to within 64 p units of 2^-p, with more bits until the
bounds agree. -/
def settle (f : Fmt) (md : FMode) (neg : Bool) (g : Nat → Nat) (scale : Int) (p : Nat) : Nat → FRes
  | 0 => f.round md neg (g p / 2 ^ 64) (scale + 64 - p) true
  | fuel + 1 =>
    let x := g p
    let lo := (x - 64 * p) / 2 ^ 64
    if lo = (x + 64 * p) / 2 ^ 64 && 2 ^ 48 ≤ lo then f.round md neg lo (scale + 64 - p) true
    else settle f md neg g scale (2 * p) fuel

/-- m × 2^e as a fixed-point number with p fraction bits, for p large enough. -/
def fixOf (m : Nat) (e : Int) (p : Nat) : Nat := m * 2 ^ (e + p).toNat

/-- 2^a. -/
def Fmt.exp2 (f : Fmt) (md : FMode) (a : Nat) : FRes :=
  f.guardRes md [a] <|
    match f.operand md a with
    | .nan s fr => ⟨f.quiet s fr, 0, false⟩
    | .inf s => if s then ⟨0, 0, false⟩ else ⟨f.infBits, 0, false⟩
    | .num s m e =>
      if 0 ≤ e || m % 2 ^ (-e).toNat = 0 then
        -- an integer
        let n : Int := signedInt s (if 0 ≤ e then m * 2 ^ e.toNat else m / 2 ^ (-e).toNat)
        f.round md false 1 (max (-2000) (min 2000 n)) false
      else
        let k := (-e).toNat
        let n : Int := signedInt s m / 2 ^ k
        let fr := (signedInt s m % 2 ^ k).toNat
        if 2000 < n || n < -2000 then f.round md false (2 ^ 40) (if s then -4000 else 4000) true
        else settle f md false (fun p => expFix p (fixOf fr e p * ln2Fix p / 2 ^ p)) n 512 3

/-- log₂ a. -/
def Fmt.log2v (f : Fmt) (md : FMode) (a : Nat) : FRes :=
  f.guardRes md [a] <|
    match f.operand md a with
    | .nan s fr => ⟨f.quiet s fr, 0, false⟩
    | .inf s => if s then ⟨f.nanBits, nvFlag, false⟩ else ⟨f.infBits, 0, false⟩
    | .num s m e =>
      if m = 0 then ⟨f.signed true f.infBits, dzFlag, false⟩
      else if s then ⟨f.nanBits, nvFlag, false⟩
      else
        let n : Int := e + m.log2
        if m = 2 ^ m.log2 then f.roundSum md n 0 false
        else
          let g (p : Nat) : Int := n * 2 ^ p + ((lnFix p (m * 2 ^ p / 2 ^ m.log2) * 2 ^ p / ln2Fix p : Nat) : Int)
          settle f md (n < 0) (fun p => (g p).natAbs) 0 512 3

/-- The magnitude of x modulo 2 in units of 2^-k. -/
def mod2 (m : Nat) (e : Int) : Nat × Nat :=
  if 0 ≤ e then (m * 2 ^ e.toNat % 2, 0) else (m % 2 ^ ((-e).toNat + 1), (-e).toNat)

/-- sin(π t / 2^k) for 0 < t < 2^k, with t ≠ 2^(k-1), rounded. -/
def Fmt.sinFrac (f : Fmt) (md : FMode) (neg : Bool) (t k : Nat) : FRes :=
  let u := if 2 * t ≤ 2 ^ k then t else 2 ^ k - t
  settle f md neg (fun p => sinFix p (piFix p * u / 2 ^ k)) 0 512 3

/-- sin(π x). -/
def Fmt.sinpi (f : Fmt) (md : FMode) (a : Nat) : FRes :=
  f.guardRes md [a] <|
    match f.operand md a with
    | .nan s fr => ⟨f.quiet s fr, 0, false⟩
    | .inf _ => ⟨f.nanBits, nvFlag, false⟩
    | .num s m e =>
      let x := mod2 m e
      let t := x.1 % 2 ^ x.2
      let neg := s != (2 ^ x.2 ≤ x.1 : Bool)
      if t = 0 then ⟨f.signed s 0, 0, false⟩
      else if 2 * t = 2 ^ x.2 then f.round md neg 1 0 false
      else f.sinFrac md neg t x.2

/-- cos(π x) = sin(π (|x| + ½)). -/
def Fmt.cospi (f : Fmt) (md : FMode) (a : Nat) : FRes :=
  f.guardRes md [a] <|
    match f.operand md a with
    | .nan s fr => ⟨f.quiet s fr, 0, false⟩
    | .inf _ => ⟨f.nanBits, nvFlag, false⟩
    | .num _ m e =>
      let x := mod2 m e
      let y := (2 * x.1 + 2 ^ x.2) % 2 ^ (x.2 + 2)
      let t := y % 2 ^ (x.2 + 1)
      let neg : Bool := 2 ^ (x.2 + 1) ≤ y
      if t = 0 then ⟨0, 0, false⟩
      else if 2 * t = 2 ^ (x.2 + 1) then f.round md neg 1 0 false
      else f.sinFrac md neg t (x.2 + 1)

/-! ### Conversions (R81, R84) -/

/-- An integer as a floating-point number. -/
def Fmt.ofInt (f : Fmt) (md : FMode) (n : Int) : FRes := f.roundSum md n 0 false

/-- A floating-point number as an integer between lo and hi. -/
def Fmt.toInt (f : Fmt) (md : FMode) (rm : Rm) (lo hi : Int) (x : Nat) : Int × BitVec 6 × Bool :=
  let n := f.asks md x
  match f.operand md x with
  | .nan _ _ => (0, nvFlag, n)
  | .inf s => (if s then lo else hi, nvFlag, n)
  | .num s m e =>
    let r := if 0 ≤ e then (m * 2 ^ e.toNat, false) else roundInt rm s m (-e).toNat false
    let v := signedInt s r.1
    if v < lo then (lo, nvFlag, n) else if hi < v then (hi, nvFlag, n) else (v, if r.2 then nxFlag else 0, n)

/-- A value of one format in another. -/
def Fmt.convert (src dst : Fmt) (md : FMode) (x : Nat) : FRes :=
  src.guardRes md [x] <|
    match src.operand md x with
    | .nan s fr =>
      let fr' := if dst.fw ≤ src.fw then fr / 2 ^ (src.fw - dst.fw) else fr * 2 ^ (dst.fw - src.fw)
      ⟨dst.quiet s fr', 0, false⟩
    | .inf s => ⟨dst.signed s dst.infBits, 0, false⟩
    | .num s m e => if m = 0 then ⟨dst.signed s 0, 0, false⟩ else dst.round md s m e false

end Sys2Proof.Machine
end

