-- ==== Sys2Proof/Config.lean ====
section
/-! DEFINITION. What the spec leaves open, as constants without a body: no proof can see their values. -/

namespace Sys2Proof.Config

/-- The n-th free choice of the machine: which agent acts next where the spec fixes no order (spec/01_machine.md R22 and
the rules on latencies), read at the counter `choices` of State. Log 1. -/
opaque choose : Nat → Nat

/-- How many granules of 32 bytes a block of comb memory takes, by its 256 bytes, before the bounds of R272 (1 to 8, 1 for
zeros). Log 7. -/
opaque granules : BitVec 2048 → Nat

/-- A byte that the spec leaves undefined: one of a page or a slice whose contents are lost (R236, R449). Log 10. -/
opaque junk : Nat → BitVec 8

/-- A byte of a reserved part of a comb image, by the image's serial number and the byte's offset. Log 46. -/
opaque imageByte : Nat → Nat → BitVec 8

end Sys2Proof.Config
end

