-- ==== Sys2Proof/WellFormed.lean ====
section
/-! DEFINITION. Which terms of Instr stand for operations of the Z72: the limits of the encodings (spec/03_encoding.md
R48-R58, R64) and, for the rows without an encoding, the ranges of the names of R17-R20, R300, R345, R357, R412. -/

namespace Sys2Proof

/-- Guard value 8 is reserved (R48, R55). -/
def guardOk (g : BitVec 4) : Bool := g != 8

/-- The numbers to which the special-register table assigns a register (R128). -/
def sregAssigned (n : BitVec 12) : Bool :=
  let n := n.toNat
  n ≤ 0x015 || (0x020 ≤ n && n ≤ 0x025) || (0x030 ≤ n && n ≤ 0x033) || (0x040 ≤ n && n ≤ 0x047) ||
  (0x050 ≤ n && n ≤ 0x057) || (0x100 ≤ n && n ≤ 0x120)

/-- Numbers 0x100-0x1FF, privileged as a whole (R54). -/
def sregPriv (n : BitVec 12) : Bool := n.extractLsb' 8 4 == 1

/-- A number that decode accepts: assigned, or in the privileged range, whose check waits for the mode (R54). -/
def sregOk (n : BitVec 12) : Bool := sregAssigned n || sregPriv n

/-- Widths that `ld` and `st` accept (R52). -/
def widthOk (w : Width) : Bool := w != .v
/-- Widths that `ldz` accepts (R52). -/
def widthZOk (w : Width) : Bool := w != .v && w != .x
/-- FP32 atomics need width 0 (R52). -/
def amoOk (o : AmoOp) (w : Bool) : Bool := !(w && (o == .fadd || o == .fmin || o == .fmax))
/-- A field of BF ends inside the register (R53). -/
def bfOk (p : BitVec 6) (n : BitVec 5) : Bool := p.toNat + n.toNat + 1 ≤ 64

def coreOk (c : Nat) : Bool := c < 2048

/-- The must-hold limits of one operation. -/
def Instr.wf : Instr → Bool
  | .nop g | .brk g | .exit g | .eret g | .trap g _ | .tlbinvPage g _ _ | .tlbinvAsid g _ | .tlbinvAll g => guardOk g
  | .add g _ _ _ | .sub g _ _ _ | .mul g _ _ _ | .mulh g _ _ _ | .mulhu g _ _ _ | .div g _ _ _ | .divu g _ _ _
  | .rem g _ _ _ | .remu g _ _ _ | .and g _ _ _ | .or g _ _ _ | .xor g _ _ _ | .shl g _ _ _ | .shr g _ _ _
  | .sra g _ _ _ | .min g _ _ _ | .max g _ _ _ | .minu g _ _ _ | .maxu g _ _ _ | .andn g _ _ _ => guardOk g
  | .clz g _ _ | .ctz g _ _ | .pcnt g _ _ | .sext g _ _ _ | .mov g _ _ => guardOk g
  | .addi g _ _ _ | .andi g _ _ _ | .ori g _ _ _ | .xori g _ _ _ | .shli g _ _ _ | .shri g _ _ _ | .srai g _ _ _
  | .movi g _ _ | .orh g _ _ _ => guardOk g
  | .bfx g _ _ p n | .bfxs g _ _ p n | .bfi g _ _ p n => guardOk g && bfOk p n
  | .lea g _ _ _ _ | .leai g _ _ _ | .setsp g _ _ _ | .getsp g _ => guardOk g
  | .cmp g p _ _ _ | .cmpi g p _ _ _ => guardOk g && p != 0
  | .pand g d _ _ | .por g d _ _ | .pxor g d _ _ | .pandn g d _ _ | .pnot g d _ => guardOk g && d != 0
  | .pword g _ | .pset g _ | .sel g _ _ _ _ => guardOk g
  | .br g _ | .bl g _ | .jr g _ | .jlr g _ _ => guardOk g
  | .loop g _ n | .loopi g _ n => guardOk g && n != 0
  | .ld g _ _ _ w _ _ | .st g _ _ _ w _ _ => guardOk g && widthOk w
  | .ldz g _ _ _ w _ _ => guardOk g && widthZOk w
  | .ldv g _ _ _ _ _ | .stv g _ _ _ _ _ | .ldsamp g _ _ _ => guardOk g
  | .gath g _ _ _ _ _ _ _ | .scat g _ _ _ _ _ _ _ => guardOk g
  | .amo g _ _ _ o w _ _ => guardOk g && amoOk o w
  | .cas g _ _ _ _ _ _ => guardOk g
  | .ared g _ _ o w _ _ => guardOk g && amoOk o w
  | .fence g _ _ | .fsamp g _ | .sinv g _ | .mwatch g _ | .mwait g _ _ | .mclr g | .cflush g _ | .cinval g _
  | .prf g _ => guardOk g
  | .mig g _ | .migc g _ | .migb g | .home g _ _ | .isfull g _ _ _ | .mkempty g _ _ | .mkfull g _ _
  | .fmode g _ => guardOk g
  | .rdsr g _ n | .wrsr g _ n => guardOk g && sregOk n
  | .msg g _ _ | .chbind g _ | .tbset g _ _ | .tbclr g _ | .mbrd g _ _ _ | .callat g _ _ _ | .ret g _
  | .qput g _ _ _ => guardOk g
  | .mrecv g d => guardOk g && !(4 ≤ d.toNat && d.toNat ≤ 9)
  | .gang g w => guardOk g && w != 0
  | .ungang g | .barInit g _ _ | .barArv g _ | .barWait g _ _ | .barArw g _ | .trig g | .cancel g _
  | .cnt g _ _ _ => guardOk g
  | .xget g _ _ _ _ _ _ | .xput g _ _ _ _ _ _ | .xcopy g _ _ _ _ _ _ | .xtile g _ _ _ _ _ _
  | .xgetv g _ _ _ _ _ _ | .xwait g _ _ _ | .xstat g _ _ _ => guardOk g
  | .cbinit g _ _ n => guardOk g && 8 ≤ n.toNat && n.toNat ≤ 16
  | .cbpush g _ _ _ | .cbpop g _ _ _ | .cbwait g _ _ _ | .cbspace g _ _ _ => guardOk g
  | .pinit g _ | .pfill g _ _ | .peq g _ _ | .pget g _ _ | .ptry g _ _ | .pstat g _ _ _ => guardOk g
  | .licAcq g _ | .licRel g | .licGive g | .mcmd g _ _ | .mfin g _ _ | .ninst g _ _ | .nwait g _ _
  | .nstat g _ _ _ | .nretire g _ => guardOk g
  | .bsinit g _ _ _ | .bsget g _ _ | .bsput g _ _ | .bspeek g _ _ | .bsskip g _ | .bsalign g _ | .bsflush g _
  | .fwait g _ _ => guardOk g
  | .vnop => true
  | .vaddF32 g _ _ _ | .vsubF32 g _ _ _ | .vmulF32 g _ _ _ | .vminF32 g _ _ _ | .vmaxF32 g _ _ _
  | .vminnum g _ _ _ | .vmaxnum g _ _ _ | .vabs g _ _ | .vneg g _ _ | .vcopysign g _ _ _ => guardOk g
  | .vfma g _ _ _ _ | .vfms g _ _ _ _ | .vfnma g _ _ _ _ | .vfnms g _ _ _ _ => guardOk g
  | .vhAdd g _ _ _ _ | .vhMul g _ _ _ _ | .vhFma g _ _ _ _ _ | .vhMin g _ _ _ _ | .vhMax g _ _ _ _ => guardOk g
  | .vaddI32 g _ _ _ | .vsubI32 g _ _ _ | .vmulI32 g _ _ _ | .vmulh g _ _ _ _ | .vandI32 g _ _ _ | .vorI32 g _ _ _
  | .vxorI32 g _ _ _ | .vshlI32 g _ _ _ | .vshrI32 g _ _ _ | .vsraI32 g _ _ _ | .vminI32 g _ _ _ | .vmaxI32 g _ _ _
  | .vminN32 g _ _ _ | .vmaxN32 g _ _ _ | .vclzI32 g _ _ | .vpcntI32 g _ _ => guardOk g
  | .vadd8 g _ _ _ | .vadds8 g _ _ _ | .vdot4 g _ _ _ _ => guardOk g
  | .vcmp g m _ _ t c => guardOk g && m != 0 && (c != .unord || t == .f32)
  | .vsel g _ _ _ _ => guardOk g
  | .vcvtI32F32 g _ _ _ | .vcvtF32I32 g _ _ | .vcvtF32N32 g _ _ | .vcvtF16F32 g _ _ _ | .vcvtF32F16 g _ _
  | .vcvtBf16F32 g _ _ _ | .vcvtF32Bf16 g _ _ | .vcvtI32I8 g _ _ | .vcvtI8I32 g _ _ | .vcvtN32F32 g _ _ _ => guardOk g
  | .vrcp g _ _ | .vrsqrt g _ _ | .vsqrt g _ _ | .vdiv g _ _ _ | .vexp2 g _ _ | .vlog2 g _ _ | .vsinpi g _ _
  | .vcospi g _ _ => guardOk g
  | .vperm g _ _ _ | .vrotl g _ _ _ | .vbcastl g _ _ _ => guardOk g
  | .vredaddF32 g _ _ | .vredaddI32 g _ _ | .vredminF32 g _ _ | .vredmaxF32 g _ _ => guardOk g
  | .vmov g _ _ | .vbcast g _ _ | .vext g _ _ _ | .vins g _ _ _ | .vlane g _ => guardOk g
  | .mlog g d _ b o => guardOk g && d != 0 && (o != .not || b == 0)
  | .mcnt g _ _ => guardOk g
  | .mset g d _ => guardOk g && d != 0
  | .vbfpk _ a m | .vbfhdr _ a m => a != 15 && m.toNat ≤ 12
  | .vbfunp d _ _ => d != 15
  | .vbfscale _ _ _ => true
  | .vtopk g _ _ _ _ | .vfmak g _ _ _ | .vaddk g _ _ _ | .vmulk g _ _ _ => guardOk g
  | .vaddi _ _ _ | .vmuli _ _ _ | .vfmai _ _ _ | .vmovi _ _ => true
  | .mbegin e _ _ _ | .mend e _ _ | .mzero e _ _ => coreOk e
  | .mstep e _ _ a b n da db =>
      coreOk e && a.extractLsb' 0 2 == 0 && b.extractLsb' 0 2 == 0 && n != 0 && da != 0 && db != 0
  | .mdrain e _ _ dest o _ f => coreOk e && dest.extractLsb' 11 1 == 0 && o.extractLsb' 0 6 == 0 && f.toNat ≤ 5
  | .commandAccept | .kStep | .drainComplete | .licenceGrant | .coopHandover | .fill | .remoteFill | .clearDone
  | .trapDelivery | .cancelDelivery | .watchdog | .energyRefill | .migrationDepart | .migrationArrival
  | .messageArrival | .messageRetry | .counterAcknowledged | .groupAdmit | .launchStart | .pctlGo | .preemptHalt
  | .preemptSave | .prest | .pageWalk | .faultRetry | .faultDecline | .ephemeralExpire | .samplerFill | .mwaitTimeout
  | .qhdr | .queueStateStore | .launchPacket | .fencePacket | .fencePass | .signalPacket | .copyPacket
  | .installPacket | .markerPacket | .cancelPacket | .nheadWrite | .transferArrive | .streamerPiece | .transferFinish
  | .ringReserve | .promiseRequest | .blockErase | .unitProgram | .installComplete | .supersedeDrain | .stagingFill
  | .hostWrite | .hostCompletionTimeout | .linkRetrain | .powerTick | .grantLoss | .clampEngage | .clampRelease
  | .frameLatch | .verticalBlank | .genlockHeld | .lockLost | .muxReturn | .start | .mainPowerLoss | .dorm
  | .warmReset | .repairReplayEnd | .spareTakeover | .machineCheck | .coreFailure | .storeAcknowledgement => true

end Sys2Proof
end

