-- ==== Sys2Proof/Decode.lean ====
section
/-! DEFINITION. The decoder and the encoder (spec/03_encoding.md R43-R67): words, fetch blocks, tile command words. -/

namespace Sys2Proof

/-- The fields into which every regular S- and V-word splits: R49, R50 and R56 are all built from them. -/
structure Parts where
  maj : BitVec 6
  d : BitVec 4
  a : BitVec 4
  b : BitVec 4
  c : BitVec 4
  f : BitVec 5
  g : BitVec 4
  l : BitVec 1
deriving DecidableEq, Repr

/-- The fields of a word: major [31:26], d [25:22], a [21:18], b [17:14], c [13:10], f [9:5], guard [4:1], L [0]. -/
def splitWord (w : W32) : Parts :=
  { maj := w.extractLsb' 26 6, d := w.extractLsb' 22 4, a := w.extractLsb' 18 4, b := w.extractLsb' 14 4,
    c := w.extractLsb' 10 4, f := w.extractLsb' 5 5, g := w.extractLsb' 1 4, l := w.extractLsb' 0 1 }

/-- The word of the fields. -/
def joinWord (p : Parts) : W32 := p.maj ++ p.d ++ p.a ++ p.b ++ p.c ++ p.f ++ p.g ++ p.l

/-- SA and SX: fn9 [13:5]. -/
def Parts.fn9 (p : Parts) : BitVec 9 := p.c ++ p.f
/-- SI: imm13 [17:5]. -/
def Parts.imm13 (p : Parts) : BitVec 13 := p.b ++ p.c ++ p.f
/-- SJ: disp21 [25:5]. -/
def Parts.disp21 (p : Parts) : BitVec 21 := p.d ++ p.a ++ p.b ++ p.c ++ p.f
/-- SL: len17 [21:5]. -/
def Parts.len17 (p : Parts) : BitVec 17 := p.a ++ p.b ++ p.c ++ p.f
/-- SM off6, BF pos6, MSG chan6: [17:12]. -/
def Parts.hi6 (p : Parts) : BitVec 6 := p.b ++ p.c.extractLsb' 2 2
/-- SM wid [11:9]. -/
def Parts.wid (p : Parts) : BitVec 3 := p.c.extractLsb' 0 2 ++ p.f.extractLsb' 4 1
/-- ord [8:7]. -/
def Parts.ord (p : Parts) : BitVec 2 := p.f.extractLsb' 2 2
/-- scp [6:5]; also the scope of FENCE, the rounding mode of `fmode` and other two-bit aux fields. -/
def Parts.scp (p : Parts) : BitVec 2 := p.f.extractLsb' 0 2
/-- AMO width, transfer notice flag, fn5[4]: [9]. -/
def Parts.bit9 (p : Parts) : BitVec 1 := p.f.extractLsb' 4 1
/-- Transfer ring flag, `xstat` clear flag: [8]. -/
def Parts.bit8 (p : Parts) : BitVec 1 := p.f.extractLsb' 3 1
/-- [7:5]: a channel, a predicate, a condition. -/
def Parts.low3 (p : Parts) : BitVec 3 := p.f.extractLsb' 0 3

/-! ### The small enumerations of R52, R53 and R58 -/

def decWidth (n : BitVec 3) : Option Width :=
  match n.toNat with
  | 0 => some .b | 1 => some .h | 2 => some .w | 3 => some .d | 4 => some .x | 5 => some .v | _ => none

def encWidth : Width → BitVec 3
  | .b => 0 | .h => 1 | .w => 2 | .d => 3 | .x => 4 | .v => 5

def decElem (n : BitVec 3) : Option Elem :=
  match n.toNat with
  | 0 => some .b | 1 => some .h | 2 => some .w | _ => none

def encElem : Elem → BitVec 3
  | .b => 0 | .h => 1 | .w => 2

def decOrd (n : BitVec 2) : Ord :=
  match n.toNat with
  | 0 => .rlx | 1 => .acq | 2 => .rel | _ => .sc

def encOrd : Ord → BitVec 2
  | .rlx => 0 | .acq => 1 | .rel => 2 | .sc => 3

def decScope (n : BitVec 2) : Scope :=
  match n.toNat with
  | 0 => .comb | 1 => .hive | 2 => .dev | _ => .sys

def encScope : Scope → BitVec 2
  | .comb => 0 | .hive => 1 | .dev => 2 | .sys => 3

def decCond (n : BitVec 3) : Option Cond :=
  match n.toNat with
  | 0 => some .eq | 1 => some .ne | 2 => some .lt | 3 => some .ge | 4 => some .ltu | 5 => some .geu | 6 => some .tst
  | _ => none

def encCond : Cond → BitVec 3
  | .eq => 0 | .ne => 1 | .lt => 2 | .ge => 3 | .ltu => 4 | .geu => 5 | .tst => 6

def decAmo (n : BitVec 4) : Option AmoOp :=
  match n.toNat with
  | 0 => some .add | 1 => some .and | 2 => some .or | 3 => some .xor | 4 => some .min | 5 => some .max
  | 6 => some .minu | 7 => some .maxu | 8 => some .swap | 9 => some .fadd | 10 => some .fmin | 11 => some .fmax
  | _ => none

def encAmo : AmoOp → BitVec 4
  | .add => 0 | .and => 1 | .or => 2 | .xor => 3 | .min => 4 | .max => 5 | .minu => 6 | .maxu => 7 | .swap => 8
  | .fadd => 9 | .fmin => 10 | .fmax => 11

def decFence (n : BitVec 2) : FenceKind :=
  match n.toNat with
  | 0 => .full | 1 => .acq | 2 => .rel | _ => .ss

def encFence : FenceKind → BitVec 2
  | .full => 0 | .acq => 1 | .rel => 2 | .ss => 3

def decRm (n : BitVec 2) : Rm :=
  match n.toNat with
  | 0 => .rne | 1 => .rtz | 2 => .rup | _ => .rdn

def encRm : Rm → BitVec 2
  | .rne => 0 | .rtz => 1 | .rup => 2 | .rdn => 3

def decCmpTy (n : BitVec 2) : Option CmpTy :=
  match n.toNat with
  | 0 => some .f32 | 1 => some .i32 | 2 => some .n32 | _ => none

def encCmpTy : CmpTy → BitVec 2
  | .f32 => 0 | .i32 => 1 | .n32 => 2

def decVCond (n : BitVec 3) : Option VCond :=
  match n.toNat with
  | 0 => some .eq | 1 => some .ne | 2 => some .lt | 3 => some .ge | 4 => some .le | 5 => some .gt | 6 => some .unord
  | _ => none

def encVCond : VCond → BitVec 3
  | .eq => 0 | .ne => 1 | .lt => 2 | .ge => 3 | .le => 4 | .gt => 5 | .unord => 6

def decMaskOp (n : BitVec 2) : MaskOp :=
  match n.toNat with
  | 0 => .and | 1 => .or | 2 => .xor | _ => .not

def encMaskOp : MaskOp → BitVec 2
  | .and => 0 | .or => 1 | .xor => 2 | .not => 3

def bitOf (x : BitVec 1) : Bool := x == 1
def ofBit (x : Bool) : BitVec 1 := if x then 1 else 0

/-! ### S-words -/

/-- An operand that a literal word may replace: with L = 1 the field must be zero (R51). -/
def immAt {n : Nat} (l : BitVec 1) (v : BitVec n) (lit : W32) : Option (Imm n) :=
  if l = 0 then some (.fld v) else if v = 0 then some (.lit lit) else none

/-- The operation, provided its must-hold conditions hold. -/
def need (c : Bool) (i : Instr) : Option Instr := if c then some i else none

def decMisc (p : Parts) : Option Instr :=
  match p.c.toNat with
  | 1 => need (p.d == 0 && p.a == 0 && p.b == 0 && p.f == 0) (.nop p.g)
  | 2 => need (p.d == 0 && p.a == 0 && p.b == 0 && p.f == 0) (.brk p.g)
  | 3 => need (p.d == 0 && p.a == 0 && p.b == 0 && p.f == 0) (.exit p.g)
  | 4 => need (p.d == 0 && p.a == 0 && p.b == 0 && p.f == 0) (.eret p.g)
  | 5 => need (p.d == 0 && p.f == 0) (.trap p.g (p.a ++ p.b))
  | 7 =>
    match p.f.toNat with
    | 0 => need (p.d == 0) (.tlbinvPage p.g p.a p.b)
    | 1 => need (p.d == 0 && p.a == 0) (.tlbinvAsid p.g p.b)
    | 2 => need (p.d == 0 && p.a == 0 && p.b == 0) (.tlbinvAll p.g)
    | _ => none
  | _ => none

def decInt (p : Parts) : Option Instr :=
  match p.fn9.toNat with
  | 0 => some (.add p.g p.d p.a p.b)
  | 1 => some (.sub p.g p.d p.a p.b)
  | 2 => some (.mul p.g p.d p.a p.b)
  | 3 => some (.mulh p.g p.d p.a p.b)
  | 4 => some (.mulhu p.g p.d p.a p.b)
  | 5 => some (.div p.g p.d p.a p.b)
  | 6 => some (.divu p.g p.d p.a p.b)
  | 7 => some (.rem p.g p.d p.a p.b)
  | 8 => some (.remu p.g p.d p.a p.b)
  | 9 => some (.and p.g p.d p.a p.b)
  | 10 => some (.or p.g p.d p.a p.b)
  | 11 => some (.xor p.g p.d p.a p.b)
  | 12 => some (.shl p.g p.d p.a p.b)
  | 13 => some (.shr p.g p.d p.a p.b)
  | 14 => some (.sra p.g p.d p.a p.b)
  | 15 => some (.min p.g p.d p.a p.b)
  | 16 => some (.max p.g p.d p.a p.b)
  | 17 => some (.minu p.g p.d p.a p.b)
  | 18 => some (.maxu p.g p.d p.a p.b)
  | 19 => need (p.b == 0) (.clz p.g p.d p.a)
  | 20 => need (p.b == 0) (.ctz p.g p.d p.a)
  | 21 => need (p.b == 0) (.pcnt p.g p.d p.a)
  | 22 => (decElem (p.b.extractLsb' 0 3)).bind fun e => need (p.b.extractLsb' 3 1 == 0) (.sext p.g p.d p.a e)
  | 23 => need (p.b == 0) (.mov p.g p.d p.a)
  | 24 => some (.andn p.g p.d p.a p.b)
  | _ => none

def decShi (p : Parts) : Option Instr :=
  let n : BitVec 6 := p.c.extractLsb' 0 1 ++ p.f
  let z := p.b.extractLsb' 0 2 == 0 && p.c.extractLsb' 1 3 == 0
  match (p.b.extractLsb' 2 2).toNat with
  | 0 => need z (.shli p.g p.d p.a n)
  | 1 => need z (.shri p.g p.d p.a n)
  | 2 => need z (.srai p.g p.d p.a n)
  | _ => none

def decBf (p : Parts) : Option Instr :=
  let n : BitVec 5 := p.c.extractLsb' 0 2 ++ p.f.extractLsb' 2 3
  match p.scp.toNat with
  | 0 => some (.bfx p.g p.d p.a p.hi6 n)
  | 1 => some (.bfxs p.g p.d p.a p.hi6 n)
  | 2 => some (.bfi p.g p.d p.a p.hi6 n)
  | _ => none

def decPlog (p : Parts) : Option Instr :=
  let d := p.d.extractLsb' 0 3
  let a := p.a.extractLsb' 0 3
  let b := p.b.extractLsb' 0 3
  let d3 := p.d.extractLsb' 3 1 == 0
  let a3 := p.a.extractLsb' 3 1 == 0
  let b3 := p.b.extractLsb' 3 1 == 0
  match p.fn9.toNat with
  | 0 => need (d3 && a3 && b3) (.pand p.g d a b)
  | 1 => need (d3 && a3 && b3) (.por p.g d a b)
  | 2 => need (d3 && a3 && b3) (.pxor p.g d a b)
  | 3 => need (d3 && a3 && b3) (.pandn p.g d a b)
  | 4 => need (d3 && a3 && p.b == 0) (.pnot p.g d a)
  | 5 => need (p.a == 0 && p.b == 0) (.pword p.g p.d)
  | 6 => need (p.d == 0 && p.b == 0) (.pset p.g p.a)
  | _ => none

def decFenceMajor (p : Parts) : Option Instr :=
  let z := p.d == 0 && p.a == 0 && p.b == 0 && p.f.extractLsb' 2 1 == 0
  match p.c.toNat with
  | 0 => need z (.fence p.g (decFence (p.f.extractLsb' 3 2)) (decScope p.scp))
  | 1 => need (z && p.f.extractLsb' 3 2 == 0) (.fsamp p.g (decScope p.scp))
  | 2 => need (z && p.f.extractLsb' 3 2 == 0) (.sinv p.g (decScope p.scp))
  | _ => none

def decCtx (p : Parts) : Option Instr :=
  let hi := p.f.extractLsb' 1 4 == 0
  let x := bitOf (p.f.extractLsb' 0 1)
  match p.c.toNat with
  | 0 => need (p.d == 0 && p.b == 0 && p.f == 0) (.mig p.g p.a)
  | 1 => need (p.d == 0 && p.b == 0 && p.f == 0) (.migc p.g p.a)
  | 2 => need (p.d == 0 && p.a == 0 && p.b == 0 && p.f == 0) (.migb p.g)
  | 3 => need (p.b == 0 && p.f == 0) (.home p.g p.d p.a)
  | 4 => need (p.b == 0 && hi) (.isfull p.g p.d p.a x)
  | 5 => need (p.d == 0 && p.b == 0 && hi) (.mkempty p.g p.a x)
  | 6 => need (p.d == 0 && p.b == 0 && hi) (.mkfull p.g p.a x)
  | 7 => need (p.d == 0 && p.a == 0 && p.b == 0 && p.f.extractLsb' 2 3 == 0) (.fmode p.g (decRm p.scp))
  | _ => none

def decMsg (p : Parts) : Option Instr :=
  if p.f.extractLsb' 0 3 = 0 then
    match (p.c.extractLsb' 0 2 ++ p.f.extractLsb' 3 2 : BitVec 4).toNat with
    | 0 => need (p.d == 0) (.msg p.g p.a p.hi6)
    | 1 => need (p.a == 0 && p.hi6 == 0) (.mrecv p.g p.d)
    | 2 => need (p.d == 0 && p.a == 0) (.chbind p.g p.hi6)
    | 3 => need (p.d == 0) (.tbset p.g p.a p.hi6)
    | 4 => need (p.d == 0 && p.a == 0) (.tbclr p.g p.hi6)
    | 5 => need (p.a == 0 && p.b.extractLsb' 0 3 == 0) (.mbrd p.g p.d (bitOf (p.b.extractLsb' 3 1)) (p.c.extractLsb' 2 2))
    | _ => none
  else none

def decXfer (p : Parts) : Option Instr :=
  let n := bitOf p.bit9
  let r := bitOf p.bit8
  match p.c.toNat with
  | 0 => some (.xget p.g p.d p.a p.b n r p.low3)
  | 1 => some (.xput p.g p.d p.a p.b n r p.low3)
  | 2 => some (.xcopy p.g p.d p.a p.b n r p.low3)
  | 3 => some (.xtile p.g p.d p.a p.b n r p.low3)
  | 4 => some (.xgetv p.g p.d p.a p.b n r p.low3)
  | _ => none

def decCb (p : Parts) : Option Instr :=
  match p.c.toNat with
  | 0 => need (p.d == 0) (.cbinit p.g p.a p.b p.f)
  | 1 => need (p.f == 0) (.cbpush p.g p.d p.a p.b)
  | 2 => need (p.f == 0) (.cbpop p.g p.d p.a p.b)
  | 3 => need (p.f == 0) (.cbwait p.g p.d p.a p.b)
  | 4 => need (p.f == 0) (.cbspace p.g p.d p.a p.b)
  | _ => none

def decProm (p : Parts) : Option Instr :=
  match p.c.toNat with
  | 0 => need (p.d == 0 && p.b == 0 && p.f == 0) (.pinit p.g p.a)
  | 1 => need (p.d == 0 && p.f == 0) (.pfill p.g p.a p.b)
  | 2 => need (p.d == 0 && p.f == 0) (.peq p.g p.a p.b)
  | 3 => need (p.b == 0 && p.f == 0) (.pget p.g p.d p.a)
  | 4 => need (p.b == 0 && p.f == 0) (.ptry p.g p.d p.a)
  | 5 => need (p.b == 0 && p.f.extractLsb' 2 3 == 0) (.pstat p.g p.d p.a p.scp)
  | _ => none

def decNect (p : Parts) : Option Instr :=
  match p.c.toNat with
  | 0 => need (p.b == 0 && p.f == 0) (.ninst p.g p.d p.a)
  | 1 => need (p.b == 0 && p.f == 0) (.nwait p.g p.d p.a)
  | 2 => need (p.b == 0 && p.f.extractLsb' 2 3 == 0) (.nstat p.g p.d p.a p.scp)
  | 3 => need (p.d == 0 && p.b == 0 && p.f == 0) (.nretire p.g p.a)
  | _ => none

def decBs (p : Parts) : Option Instr :=
  let hi := p.f.extractLsb' 1 4 == 0
  let x := bitOf (p.f.extractLsb' 0 1)
  match p.c.toNat with
  | 0 => need (p.d == 0 && hi) (.bsinit p.g p.a p.b x)
  | 1 => need (p.a == 0 && p.b == 0) (.bsget p.g p.d p.f)
  | 2 => need (p.d == 0 && p.b == 0) (.bsput p.g p.a p.f)
  | 3 => need (p.a == 0 && p.b == 0) (.bspeek p.g p.d p.f)
  | 4 => need (p.d == 0 && p.a == 0 && p.f == 0) (.bsskip p.g p.b)
  | 5 => need (p.d == 0 && p.a == 0 && p.b == 0 && hi) (.bsalign p.g x)
  | 6 => need (p.a == 0 && p.b == 0 && p.f == 0) (.bsflush p.g p.d)
  | 7 => need (p.b == 0 && p.f == 0) (.fwait p.g p.d p.a)
  | _ => none

def decAmoMajor (p : Parts) : Option Instr :=
  (decAmo p.c).bind fun o => some (.amo p.g p.d p.a p.b o (bitOf p.bit9) (decOrd p.ord) (decScope p.scp))

def decAred (p : Parts) : Option Instr :=
  (decAmo p.c).bind fun o =>
    need (p.d == 0) (.ared p.g p.a p.b o (bitOf p.bit9) (decOrd p.ord) (decScope p.scp))

/-- The S majors whose forms accept no literal. -/
def decPlain (p : Parts) : Option Instr :=
  match p.maj.toNat with
  | 0x00 => decMisc p
  | 0x01 => decInt p
  | 0x06 => decShi p
  | 0x09 => decBf p
  | 0x0A => need (p.c == 0 && p.f.extractLsb' 2 3 == 0) (.lea p.g p.d p.a p.b p.scp)
  | 0x0C =>
    match p.f.toNat with
    | 0 => some (.setsp p.g p.d p.a (p.b ++ p.c))
    | 1 => need (p.a == 0 && p.b == 0 && p.c == 0) (.getsp p.g p.d)
    | _ => none
  | 0x0D =>
    (decCond p.low3).bind fun c =>
      need (p.d.extractLsb' 3 1 == 0 && p.c == 0 && p.f.extractLsb' 3 2 == 0)
        (.cmp p.g (p.d.extractLsb' 0 3) p.a p.b c)
  | 0x0F => decPlog p
  | 0x10 => need (p.c == 0 && p.f.extractLsb' 3 2 == 0) (.sel p.g p.d p.a p.b p.low3)
  | 0x13 =>
    match p.fn9.toNat with
    | 0 => need (p.d == 0 && p.b == 0) (.jr p.g p.a)
    | 1 => need (p.b == 0) (.jlr p.g p.d p.a)
    | _ => none
  | 0x14 => some (.loop p.g p.d p.len17)
  | 0x1C =>
    (decElem (p.c.extractLsb' 1 3)).bind fun e =>
      some (.gath p.g p.d p.a p.b e (p.c.extractLsb' 0 1 ++ p.bit9) (decOrd p.ord) (decScope p.scp))
  | 0x1D =>
    (decElem (p.c.extractLsb' 1 3)).bind fun e =>
      some (.scat p.g p.d p.a p.b e (p.c.extractLsb' 0 1 ++ p.bit9) (decOrd p.ord) (decScope p.scp))
  | 0x1E => decAmoMajor p
  | 0x1F => need (p.c == 0) (.cas p.g p.d p.a p.b (bitOf p.bit9) (decOrd p.ord) (decScope p.scp))
  | 0x20 => decAred p
  | 0x21 => decFenceMajor p
  | 0x22 =>
    match p.c.toNat with
    | 0 => need (p.d == 0 && p.b == 0 && p.f == 0) (.mwatch p.g p.a)
    | 1 => need (p.a == 0 && p.f == 0) (.mwait p.g p.d p.b)
    | 2 => need (p.d == 0 && p.a == 0 && p.b == 0 && p.f == 0) (.mclr p.g)
    | _ => none
  | 0x23 =>
    match p.c.toNat with
    | 0 => need (p.d == 0 && p.b == 0 && p.f == 0) (.cflush p.g p.a)
    | 1 => need (p.d == 0 && p.b == 0 && p.f == 0) (.cinval p.g p.a)
    | 2 => need (p.d == 0 && p.b == 0 && p.f == 0) (.prf p.g p.a)
    | _ => none
  | 0x24 => decCtx p
  | 0x25 =>
    let s : BitVec 12 := p.b ++ p.c ++ p.f.extractLsb' 1 4
    if p.f.extractLsb' 0 1 = 0 then need (p.a == 0) (.rdsr p.g p.d s) else need (p.d == 0) (.wrsr p.g p.a s)
  | 0x26 => decMsg p
  | 0x27 => need (p.c == 0 && p.f == 0) (.callat p.g p.d p.a p.b)
  | 0x28 => need (p.d == 0 && p.b == 0 && p.c == 0 && p.f == 0) (.ret p.g p.a)
  | 0x29 => need (p.c == 0 && p.f == 0) (.qput p.g p.d p.a p.b)
  | 0x2A =>
    match p.c.toNat with
    | 0 => need (p.d == 0 && p.a == 0 && p.b == 0 && p.f.extractLsb' 2 3 == 0) (.gang p.g p.scp)
    | 1 => need (p.d == 0 && p.a == 0 && p.b == 0 && p.f == 0) (.ungang p.g)
    | _ => none
  | 0x2B =>
    match p.c.toNat with
    | 0 => need (p.d == 0 && p.f == 0) (.barInit p.g p.a p.b)
    | 1 => need (p.d == 0 && p.b == 0 && p.f == 0) (.barArv p.g p.a)
    | 2 => need (p.d == 0 && p.f == 0) (.barWait p.g p.a p.b)
    | 3 => need (p.d == 0 && p.b == 0 && p.f == 0) (.barArw p.g p.a)
    | _ => none
  | 0x2C =>
    match p.c.toNat with
    | 0 => need (p.d == 0 && p.a == 0 && p.b == 0 && p.f == 0) (.trig p.g)
    | 1 => need (p.d == 0 && p.b == 0 && p.f == 0) (.cancel p.g p.a)
    | 2 => need (p.b == 0 && p.f.extractLsb' 2 3 == 0) (.cnt p.g p.d p.a p.scp)
    | _ => none
  | 0x2D => decXfer p
  | 0x2E =>
    match p.c.toNat with
    | 0 => need (p.b == 0 && p.f.extractLsb' 3 2 == 0) (.xwait p.g p.d p.a p.low3)
    | 1 => need (p.a == 0 && p.b == 0 && p.bit9 == 0) (.xstat p.g p.d (bitOf p.bit8) p.low3)
    | _ => none
  | 0x2F => decCb p
  | 0x30 => decProm p
  | 0x31 =>
    match p.c.toNat with
    | 0 => need (p.d == 0 && p.a == 0 && p.b == 0 && p.f.extractLsb' 1 4 == 0)
        (.licAcq p.g (bitOf (p.f.extractLsb' 0 1)))
    | 1 => need (p.d == 0 && p.a == 0 && p.b == 0 && p.f == 0) (.licRel p.g)
    | 2 => need (p.d == 0 && p.a == 0 && p.b == 0 && p.f == 0) (.licGive p.g)
    | _ => none
  | 0x32 =>
    match p.c.toNat with
    | 0 => need (p.d == 0 && p.f == 0) (.mcmd p.g p.a p.b)
    | 1 => need (p.b == 0 && p.f == 0) (.mfin p.g p.d p.a)
    | _ => none
  | 0x33 => decNect p
  | 0x34 => decBs p
  | _ => none

/-- The S majors whose forms accept a literal (R51). -/
def decLit (p : Parts) (lit : W32) : Option Instr :=
  match p.maj.toNat with
  | 0x02 => (immAt p.l p.imm13 lit).bind fun i => some (.addi p.g p.d p.a i)
  | 0x03 => (immAt p.l p.imm13 lit).bind fun i => some (.andi p.g p.d p.a i)
  | 0x04 => (immAt p.l p.imm13 lit).bind fun i => some (.ori p.g p.d p.a i)
  | 0x05 => (immAt p.l p.imm13 lit).bind fun i => some (.xori p.g p.d p.a i)
  | 0x07 => (immAt p.l p.imm13 lit).bind fun i => need (p.a == 0) (.movi p.g p.d i)
  | 0x08 => (immAt p.l p.imm13 lit).bind fun i => some (.orh p.g p.d p.a i)
  | 0x0B => (immAt p.l p.imm13 lit).bind fun i => some (.leai p.g p.d p.a i)
  | 0x0E =>
    (decCond (p.b.extractLsb' 1 3)).bind fun c =>
    (immAt p.l (p.b.extractLsb' 0 1 ++ p.c ++ p.f : BitVec 10) lit).bind fun i =>
      need (p.d.extractLsb' 3 1 == 0) (.cmpi p.g (p.d.extractLsb' 0 3) p.a c i)
  | 0x11 => (immAt p.l p.disp21 lit).bind fun i => some (.br p.g i)
  | 0x12 => (immAt p.l p.disp21 lit).bind fun i => some (.bl p.g i)
  | 0x15 => (immAt p.l p.d lit).bind fun i => some (.loopi p.g i p.len17)
  | 0x16 =>
    (decWidth p.wid).bind fun w => (immAt p.l p.hi6 lit).bind fun o =>
      some (.ld p.g p.d p.a o w (decOrd p.ord) (decScope p.scp))
  | 0x17 =>
    (decWidth p.wid).bind fun w => (immAt p.l p.hi6 lit).bind fun o =>
      some (.ldz p.g p.d p.a o w (decOrd p.ord) (decScope p.scp))
  | 0x18 =>
    (decWidth p.wid).bind fun w => (immAt p.l p.hi6 lit).bind fun o =>
      some (.st p.g p.d p.a o w (decOrd p.ord) (decScope p.scp))
  | 0x19 => (immAt p.l p.hi6 lit).bind fun o => need (p.wid == 5) (.ldv p.g p.d p.a o (decOrd p.ord) (decScope p.scp))
  | 0x1A => (immAt p.l p.hi6 lit).bind fun o => need (p.wid == 5) (.stv p.g p.d p.a o (decOrd p.ord) (decScope p.scp))
  | 0x1B =>
    (immAt p.l p.hi6 lit).bind fun o => need (p.wid == 5 && p.ord == 0 && p.scp == 0) (.ldsamp p.g p.d p.a o)
  | _ => none

/-- Whether an S major accepts a literal in its forms (R51). -/
def litMajor (m : BitVec 6) : Bool :=
  match m.toNat with
  | 0x02 | 0x03 | 0x04 | 0x05 | 0x07 | 0x08 | 0x0B | 0x0E | 0x11 | 0x12 | 0x15 | 0x16 | 0x17 | 0x18 | 0x19 | 0x1A
  | 0x1B => true
  | _ => false

/-- The operation of an S-word's fields before the last limits of `Instr.wf`; none is fate 0x02. -/
def decSParts (p : Parts) (lit : W32) : Option Instr :=
  if litMajor p.maj then decLit p lit else if p.l = 0 then decPlain p else none

/-- What becomes of a word that is no operation (R59). -/
inductive Fate where
  | major
  | guard
  | reserved
deriving DecidableEq, Repr

/-- The trap cause of a fate (R59). -/
def Fate.cause : Fate → Byte
  | .major => 0x01
  | .guard => 0x03
  | .reserved => 0x02

/-- Keeps a decoded operation that is well formed. -/
def accept (o : Option Instr) : Except Fate Instr :=
  match o with
  | none => .error .reserved
  | some i => if i.wf then .ok i else .error .reserved

/-- S majors 0x35-0x3F are unallocated (R53). -/
def decodeS (w lit : W32) : Except Fate Instr :=
  let p := splitWord w
  if 0x35 ≤ p.maj.toNat then .error .major
  else if p.g = 8 then .error .guard
  else accept (decSParts p lit)

/-! ### V-words -/

/-- The last register source, or the literal that replaces it (R57). -/
def vsrcAt (l : BitVec 1) (r : BitVec 4) (lit : W32) : Option VSrc :=
  if l = 0 then some (.reg r) else if r = 0 then some (.lit lit) else none

def decVfa (p : Parts) (lit : W32) : Option Instr :=
  let two (k : VSrc → Instr) : Option Instr := (vsrcAt p.l p.b lit).bind fun b => need (p.c == 0) (k b)
  let one (k : VSrc → Instr) : Option Instr := (vsrcAt p.l p.a lit).bind fun a => need (p.b == 0 && p.c == 0) (k a)
  match p.f.toNat with
  | 0 => two fun b => .vaddF32 p.g p.d p.a b
  | 1 => two fun b => .vsubF32 p.g p.d p.a b
  | 2 => two fun b => .vmulF32 p.g p.d p.a b
  | 3 => two fun b => .vminF32 p.g p.d p.a b
  | 4 => two fun b => .vmaxF32 p.g p.d p.a b
  | 5 => two fun b => .vminnum p.g p.d p.a b
  | 6 => two fun b => .vmaxnum p.g p.d p.a b
  | 7 => one fun a => .vabs p.g p.d a
  | 8 => one fun a => .vneg p.g p.d a
  | 9 => two fun b => .vcopysign p.g p.d p.a b
  | _ => none

def decVfma (p : Parts) (lit : W32) : Option Instr :=
  (vsrcAt p.l p.c lit).bind fun c =>
    match p.f.toNat with
    | 0 => some (.vfma p.g p.d p.a p.b c)
    | 1 => some (.vfms p.g p.d p.a p.b c)
    | 2 => some (.vfnma p.g p.d p.a p.b c)
    | 3 => some (.vfnms p.g p.d p.a p.b c)
    | _ => none

def decVh (p : Parts) (lit : W32) : Option Instr :=
  let t := bitOf p.bit9
  let two (k : VSrc → Instr) : Option Instr := (vsrcAt p.l p.b lit).bind fun b => need (p.c == 0) (k b)
  match (p.f.extractLsb' 0 4).toNat with
  | 0 => two fun b => .vhAdd p.g p.d p.a b t
  | 1 => two fun b => .vhMul p.g p.d p.a b t
  | 2 => (vsrcAt p.l p.c lit).bind fun c => some (.vhFma p.g p.d p.a p.b c t)
  | 3 => two fun b => .vhMin p.g p.d p.a b t
  | 4 => two fun b => .vhMax p.g p.d p.a b t
  | _ => none

def decVi (p : Parts) (lit : W32) : Option Instr :=
  let u := bitOf p.bit9
  let two (k : VSrc → Instr) : Option Instr := (vsrcAt p.l p.b lit).bind fun b => need (p.c == 0 && !u) (k b)
  let one (k : VSrc → Instr) : Option Instr :=
    (vsrcAt p.l p.a lit).bind fun a => need (p.b == 0 && p.c == 0 && !u) (k a)
  match (p.f.extractLsb' 0 4).toNat with
  | 0 => two fun b => .vaddI32 p.g p.d p.a b
  | 1 => two fun b => .vsubI32 p.g p.d p.a b
  | 2 => two fun b => .vmulI32 p.g p.d p.a b
  | 3 => (vsrcAt p.l p.b lit).bind fun b => need (p.c == 0) (.vmulh p.g p.d p.a b u)
  | 4 => two fun b => .vandI32 p.g p.d p.a b
  | 5 => two fun b => .vorI32 p.g p.d p.a b
  | 6 => two fun b => .vxorI32 p.g p.d p.a b
  | 7 => two fun b => .vshlI32 p.g p.d p.a b
  | 8 => two fun b => .vshrI32 p.g p.d p.a b
  | 9 => two fun b => .vsraI32 p.g p.d p.a b
  | 10 => two fun b => .vminI32 p.g p.d p.a b
  | 11 => two fun b => .vmaxI32 p.g p.d p.a b
  | 12 => two fun b => .vminN32 p.g p.d p.a b
  | 13 => two fun b => .vmaxN32 p.g p.d p.a b
  | 14 => one fun a => .vclzI32 p.g p.d a
  | 15 => one fun a => .vpcntI32 p.g p.d a
  | _ => none

def decVb8 (p : Parts) (lit : W32) : Option Instr :=
  match p.f.toNat with
  | 0 => (vsrcAt p.l p.b lit).bind fun b => need (p.c == 0) (.vadd8 p.g p.d p.a b)
  | 1 => (vsrcAt p.l p.b lit).bind fun b => need (p.c == 0) (.vadds8 p.g p.d p.a b)
  | 2 => (vsrcAt p.l p.c lit).bind fun c => some (.vdot4 p.g p.d p.a p.b c)
  | _ => none

def decVcmp (p : Parts) (lit : W32) : Option Instr :=
  (decCmpTy (p.f.extractLsb' 3 2)).bind fun t => (decVCond p.low3).bind fun c =>
  (vsrcAt p.l p.b lit).bind fun b =>
    need (p.d.extractLsb' 3 1 == 0 && p.c == 0) (.vcmp p.g (p.d.extractLsb' 0 3) p.a b t c)

def decVsel (p : Parts) (lit : W32) : Option Instr :=
  (vsrcAt p.l p.b lit).bind fun b =>
    need (p.c.extractLsb' 3 1 == 0 && p.f == 0) (.vsel p.g p.d p.a b (p.c.extractLsb' 0 3))

def decVcvt (p : Parts) (lit : W32) : Option Instr :=
  let r := bitOf p.bit9
  let two (k : VSrc → Instr) : Option Instr := (vsrcAt p.l p.b lit).bind fun b => need (p.c == 0 && !r) (k b)
  let one (z : Bool) (k : VSrc → Instr) : Option Instr :=
    (vsrcAt p.l p.a lit).bind fun a => need (p.b == 0 && p.c == 0 && z) (k a)
  match (p.f.extractLsb' 0 4).toNat with
  | 0 => one true fun a => .vcvtI32F32 p.g p.d a r
  | 1 => one (!r) fun a => .vcvtF32I32 p.g p.d a
  | 2 => one (!r) fun a => .vcvtF32N32 p.g p.d a
  | 3 => two fun b => .vcvtF16F32 p.g p.d p.a b
  | 4 => one (!r) fun a => .vcvtF32F16 p.g p.d a
  | 5 => two fun b => .vcvtBf16F32 p.g p.d p.a b
  | 6 => one (!r) fun a => .vcvtF32Bf16 p.g p.d a
  | 7 => one (!r) fun a => .vcvtI32I8 p.g p.d a
  | 8 => one (!r) fun a => .vcvtI8I32 p.g p.d a
  | 9 => one true fun a => .vcvtN32F32 p.g p.d a r
  | _ => none

def decVsf (p : Parts) (lit : W32) : Option Instr :=
  let one (k : VSrc → Instr) : Option Instr := (vsrcAt p.l p.a lit).bind fun a => need (p.b == 0 && p.c == 0) (k a)
  match p.f.toNat with
  | 0 => one fun a => .vrcp p.g p.d a
  | 1 => one fun a => .vrsqrt p.g p.d a
  | 2 => one fun a => .vsqrt p.g p.d a
  | 3 => (vsrcAt p.l p.b lit).bind fun b => need (p.c == 0) (.vdiv p.g p.d p.a b)
  | 4 => one fun a => .vexp2 p.g p.d a
  | 5 => one fun a => .vlog2 p.g p.d a
  | 6 => one fun a => .vsinpi p.g p.d a
  | 7 => one fun a => .vcospi p.g p.d a
  | _ => none

def decVperm (p : Parts) (lit : W32) : Option Instr :=
  match p.f.toNat with
  | 0 => (vsrcAt p.l p.b lit).bind fun b => need (p.c == 0) (.vperm p.g p.d p.a b)
  | 1 => (vsrcAt p.l p.a lit).bind fun a => need (p.b == 0) (.vrotl p.g p.d a p.c)
  | 2 => (vsrcAt p.l p.a lit).bind fun a => need (p.b == 0) (.vbcastl p.g p.d a p.c)
  | _ => none

def decVred (p : Parts) : Option Instr :=
  let z := p.l == 0 && p.b == 0 && p.c == 0
  match p.f.toNat with
  | 0 => need z (.vredaddF32 p.g p.d p.a)
  | 1 => need z (.vredaddI32 p.g p.d p.a)
  | 2 => need z (.vredminF32 p.g p.d p.a)
  | 3 => need z (.vredmaxF32 p.g p.d p.a)
  | _ => none

def decVmov (p : Parts) (lit : W32) : Option Instr :=
  let d3 := p.d.extractLsb' 3 1 == 0
  let a3 := p.a.extractLsb' 3 1 == 0
  let b3 := p.b.extractLsb' 3 1 == 0
  let l0 := p.l == 0
  match p.f.toNat with
  | 0 => (vsrcAt p.l p.a lit).bind fun a => need (p.b == 0 && p.c == 0) (.vmov p.g p.d a)
  | 1 => need (l0 && p.b == 0 && p.c == 0) (.vbcast p.g p.d p.a)
  | 2 => need (l0 && p.c == 0) (.vext p.g p.d p.a p.b)
  | 3 => need (l0 && p.c == 0) (.vins p.g p.d p.a p.b)
  | 4 => need (l0 && p.a == 0 && p.b == 0 && p.c == 0) (.vlane p.g p.d)
  | 5 => need (l0 && d3 && a3 && b3 && p.c.extractLsb' 2 2 == 0)
      (.mlog p.g (p.d.extractLsb' 0 3) (p.a.extractLsb' 0 3) (p.b.extractLsb' 0 3) (decMaskOp (p.c.extractLsb' 0 2)))
  | 6 => need (l0 && a3 && p.b == 0 && p.c == 0) (.mcnt p.g p.d (p.a.extractLsb' 0 3))
  | 7 => need (l0 && d3 && p.b == 0 && p.c == 0) (.mset p.g (p.d.extractLsb' 0 3) p.a)
  | _ => none

def decVbfp (p : Parts) : Option Instr :=
  let z := p.l == 0 && p.g == 0
  match p.f.toNat with
  | 0 => need (z && p.b == 0) (.vbfpk p.d p.a p.c)
  | 1 => need (z && p.b == 0) (.vbfunp p.d p.a p.c)
  | 2 => need (z && p.b == 0) (.vbfhdr p.d p.a p.c)
  | 3 => need (z && p.c == 0) (.vbfscale p.d p.a p.b)
  | _ => none

def decVk (p : Parts) : Option Instr :=
  match p.f.toNat with
  | 0 => need (p.l == 0) (.vfmak p.g p.d p.a (p.b ++ p.c))
  | 1 => need (p.l == 0) (.vaddk p.g p.d p.a (p.b ++ p.c))
  | 2 => need (p.l == 0) (.vmulk p.g p.d p.a (p.b ++ p.c))
  | _ => none

/-- The operation of a regular V-word's fields; none is fate 0x02 (R58). -/
def decVParts (p : Parts) (lit : W32) : Option Instr :=
  match p.maj.toNat with
  | 0x00 => need (p.d == 0 && p.a == 0 && p.b == 0 && p.c == 0 && p.f == 0 && p.g == 0 && p.l == 0) .vnop
  | 0x01 => decVfa p lit
  | 0x02 => decVfma p lit
  | 0x03 => decVh p lit
  | 0x04 => decVi p lit
  | 0x05 => decVb8 p lit
  | 0x06 => decVcmp p lit
  | 0x07 => decVsel p lit
  | 0x08 => decVcvt p lit
  | 0x09 => decVsf p lit
  | 0x0A => decVperm p lit
  | 0x0B => decVred p
  | 0x0C => decVmov p lit
  | 0x0D => decVbfp p
  | 0x0E => need (p.l == 0 && p.f == 0) (.vtopk p.g p.d p.a p.b p.c)
  | 0x0F => decVk p
  | _ => none

/-- The fields of a VF word: [31:30] = 0b11, op, d, a, imm20 (R56). -/
structure VfParts where
  op : BitVec 2
  d : BitVec 4
  a : BitVec 4
  i : BitVec 20
deriving DecidableEq, Repr

def splitVf (w : W32) : VfParts :=
  { op := w.extractLsb' 28 2, d := w.extractLsb' 24 4, a := w.extractLsb' 20 4, i := w.extractLsb' 0 20 }

def joinVf (p : VfParts) : W32 := (3 : BitVec 2) ++ p.op ++ p.d ++ p.a ++ p.i

/-- Whether a word in V position is a VF word. -/
def isVf (w : W32) : Bool := w.extractLsb' 30 2 == 3

def decVf (p : VfParts) : Option Instr :=
  match p.op.toNat with
  | 0 => some (.vaddi p.d p.a p.i)
  | 1 => some (.vmuli p.d p.a p.i)
  | 2 => some (.vfmai p.d p.a p.i)
  | _ => need (p.a == 0) (.vmovi p.d p.i)

/-- V majors 0x10-0x2F are unallocated (R58). -/
def decodeV (w lit : W32) : Except Fate Instr :=
  if isVf w then accept (decVf (splitVf w))
  else
    let p := splitWord w
    if 0x10 ≤ p.maj.toNat then .error .major
    else if p.g = 8 then .error .guard
    else accept (decVParts p lit)

/-! ### Fetch blocks and bundles (R43-R47) -/

/-- The kinds of R44. -/
inductive Kind where
  | start
  | fill
  | crosses
  | notStart
deriving DecidableEq, Repr

/-- The length of a bundle whose S- and V-word are s and v (R43). -/
def bundleLen (s v : W32) : Nat :=
  2 + (s.extractLsb' 0 1).toNat + (if isVf v then 0 else (v.extractLsb' 0 1).toNat)

/-- The walk of R44: skip is how many words are NotStart before the next bundle start. -/
def kindsFrom : Nat → List W32 → List Kind
  | _, [] => []
  | skip + 1, _ :: ws => .notStart :: kindsFrom skip ws
  | 0, w :: ws =>
    if w = 0 then .fill :: ws.map (fun _ => .notStart)
    else
      match ws with
      | [] => [.crosses]
      | v :: _ =>
        let n := bundleLen w v
        (if ws.length + 1 < n then .crosses else .start) :: kindsFrom (n - 1) ws

/-- The kinds of a block's words. -/
def blockKinds (ws : List W32) : List Kind := kindsFrom 0 ws

/-- The bundle length that a word of kind Crosses shows in `tval` (R47). -/
def crossLen : List W32 → Nat
  | [] => 2
  | [w] => 2 + (w.extractLsb' 0 1).toNat
  | w :: v :: _ => bundleLen w v

/-- A bundle's words, from its S-word on: the S-word, the V-word and the two literals (zero where absent). -/
structure Bundle where
  sw : W32
  vw : W32
  slit : W32
  vlit : W32
  len : Nat
deriving DecidableEq, Repr

/-- The bundle that starts a list of words (R43). -/
def bundleAt (ws : List W32) : Bundle :=
  let s := ws.getD 0 0
  let v := ws.getD 1 0
  let sl := s.extractLsb' 0 1 == 1
  { sw := s, vw := v, slit := if sl then ws.getD 2 0 else 0,
    vlit := if isVf v || v.extractLsb' 0 1 == 0 then 0 else ws.getD (if sl then 3 else 2) 0, len := bundleLen s v }

/-! ### The tile command word (R64-R66) -/

def tileOpcode (w : BitVec 256) : Byte := w.extractLsb' 248 8
def tileTag (w : BitVec 256) : W32 := w.extractLsb' 216 32
def tileChain (w : BitVec 256) : W16 := w.extractLsb' 200 16

/-- What R66 makes of a command's fields, its tag apart: an operation, or the cause of the rejection. The command names
the engine it stands at. Operand blocks that run past the scratchpad (step 3) are checked when the command is accepted,
where their size is known. -/
def decodeTile (e : Nat) (w : BitVec 256) : Except Byte Instr :=
  let tag := tileTag w
  let ch := tileChain w
  let aOff : BitVec 24 := w.extractLsb' 176 24
  let bOff : BitVec 24 := w.extractLsb' 152 24
  let n : BitVec 12 := w.extractLsb' 140 12
  let da : BitVec 4 := w.extractLsb' 136 4
  let db : BitVec 4 := w.extractLsb' 132 4
  let anchor : Byte := w.extractLsb' 124 8
  let dest : BitVec 12 := w.extractLsb' 112 12
  let dOff : BitVec 24 := w.extractLsb' 88 24
  let wake : BitVec 6 := w.extractLsb' 82 6
  let fmt : BitVec 4 := w.extractLsb' 78 4
  let low : BitVec 78 := w.extractLsb' 0 78
  let noStep := aOff == 0 && bOff == 0 && n == 0 && da == 0 && db == 0
  let noDrain := dest == 0 && dOff == 0 && wake == 0 && fmt == 0
  let fin (i : Instr) (c : Bool) : Except Byte Instr := if c && low == 0 && i.wf then .ok i else .error 0x02
  match (tileOpcode w).toNat with
  | 1 => fin (.mbegin e tag ch anchor) (noStep && noDrain)
  | 2 => fin (.mstep e tag ch aOff bOff n da db) (anchor == 0 && noDrain)
  | 3 => fin (.mend e tag ch) (noStep && anchor == 0 && noDrain)
  | 4 => fin (.mdrain e tag ch dest dOff wake fmt) (noStep && anchor == 0)
  | 5 => fin (.mzero e tag ch) (noStep && anchor == 0 && noDrain)
  | _ => .error 0x02

/-! ### The encoder -/

/-- The word of an SA, SX or VA form from its fields. -/
def mkP (maj : BitVec 6) (d a b c : BitVec 4) (f : BitVec 5) (g : BitVec 4) : Parts := ⟨maj, d, a, b, c, f, g, 0⟩

/-- INT: fn9 is below 32, so it is all in f. -/
def encInt (fn : BitVec 5) (g d a b : BitVec 4) : Parts := mkP 1 d a b 0 fn g

def hi1 (x : BitVec 3) : BitVec 4 := (0 : BitVec 1) ++ x

/-- SI: the immediate in [17:5], or the literal. -/
def encSI (maj : BitVec 6) (g d a : BitVec 4) (i : Imm 13) : Parts × W32 :=
  match i with
  | .fld v => (⟨maj, d, a, v.extractLsb' 9 4, v.extractLsb' 5 4, v.extractLsb' 0 5, g, 0⟩, 0)
  | .lit w => (⟨maj, d, a, 0, 0, 0, g, 1⟩, w)

/-- SJ: the displacement in [25:5], or the literal. -/
def encSJ (maj : BitVec 6) (g : BitVec 4) (i : Imm 21) : Parts × W32 :=
  match i with
  | .fld v => (⟨maj, v.extractLsb' 17 4, v.extractLsb' 13 4, v.extractLsb' 9 4, v.extractLsb' 5 4, v.extractLsb' 0 5, g, 0⟩, 0)
  | .lit w => (⟨maj, 0, 0, 0, 0, 0, g, 1⟩, w)

/-- [17:12] a six-bit field, [11:9] a width, [8:7] ord, [6:5] scp. -/
def encSMbits (o : BitVec 6) (w : BitVec 3) (r s : BitVec 2) : BitVec 4 × BitVec 4 × BitVec 5 :=
  (o.extractLsb' 2 4, o.extractLsb' 0 2 ++ w.extractLsb' 1 2, w.extractLsb' 0 1 ++ r ++ s)

/-- SM: the offset in [17:12], or the literal. -/
def encSM (maj : BitVec 6) (g d a : BitVec 4) (o : Imm 6) (w : BitVec 3) (r : Ord) (s : Scope) : Parts × W32 :=
  match o with
  | .fld v =>
    let t := encSMbits v w (encOrd r) (encScope s)
    (⟨maj, d, a, t.1, t.2.1, t.2.2, g, 0⟩, 0)
  | .lit x =>
    let t := encSMbits 0 w (encOrd r) (encScope s)
    (⟨maj, d, a, t.1, t.2.1, t.2.2, g, 1⟩, x)

def encSL (maj : BitVec 6) (g c : BitVec 4) (n : BitVec 17) : Parts :=
  mkP maj c (n.extractLsb' 13 4) (n.extractLsb' 9 4) (n.extractLsb' 5 4) (n.extractLsb' 0 5) g

def encBf (k : BitVec 2) (g d a : BitVec 4) (p : BitVec 6) (n : BitVec 5) : Parts :=
  mkP 9 d a (p.extractLsb' 2 4) (p.extractLsb' 0 2 ++ n.extractLsb' 3 2) (n.extractLsb' 0 3 ++ k) g

def encShi (k : BitVec 2) (g d a : BitVec 4) (n : BitVec 6) : Parts :=
  mkP 6 d a (k ++ (0 : BitVec 2)) ((0 : BitVec 3) ++ n.extractLsb' 5 1) (n.extractLsb' 0 5) g

def encMsg (sub : BitVec 4) (g d a : BitVec 4) (c : BitVec 6) : Parts :=
  mkP 0x26 d a (c.extractLsb' 2 4) (c.extractLsb' 0 2 ++ sub.extractLsb' 2 2) (sub.extractLsb' 0 2 ++ (0 : BitVec 3)) g

def encGath (maj : BitVec 6) (g v s i : BitVec 4) (e : Elem) (h : BitVec 2) (r : Ord) (c : Scope) : Parts :=
  mkP maj v s i (encElem e ++ h.extractLsb' 1 1) (h.extractLsb' 0 1 ++ encOrd r ++ encScope c) g

def encAtom (maj : BitVec 6) (g d a b op : BitVec 4) (w : Bool) (r : Ord) (s : Scope) : Parts :=
  mkP maj d a b op (ofBit w ++ encOrd r ++ encScope s) g

def encXfer (sub : BitVec 4) (g d a b : BitVec 4) (n r : Bool) (c : BitVec 3) : Parts :=
  mkP 0x2D d a b sub (ofBit n ++ ofBit r ++ c) g

/-- The fields and the literal of an S operation; none for the other constructors. -/
def encodeSParts : Instr → Option (Parts × W32)
  | .nop g => some (mkP 0 0 0 0 1 0 g, 0)
  | .brk g => some (mkP 0 0 0 0 2 0 g, 0)
  | .exit g => some (mkP 0 0 0 0 3 0 g, 0)
  | .eret g => some (mkP 0 0 0 0 4 0 g, 0)
  | .trap g i => some (mkP 0 0 (i.extractLsb' 4 4) (i.extractLsb' 0 4) 5 0 g, 0)
  | .tlbinvPage g a b => some (mkP 0 0 a b 7 0 g, 0)
  | .tlbinvAsid g b => some (mkP 0 0 0 b 7 1 g, 0)
  | .tlbinvAll g => some (mkP 0 0 0 0 7 2 g, 0)
  | .add g d a b => some (encInt 0 g d a b, 0)
  | .sub g d a b => some (encInt 1 g d a b, 0)
  | .mul g d a b => some (encInt 2 g d a b, 0)
  | .mulh g d a b => some (encInt 3 g d a b, 0)
  | .mulhu g d a b => some (encInt 4 g d a b, 0)
  | .div g d a b => some (encInt 5 g d a b, 0)
  | .divu g d a b => some (encInt 6 g d a b, 0)
  | .rem g d a b => some (encInt 7 g d a b, 0)
  | .remu g d a b => some (encInt 8 g d a b, 0)
  | .and g d a b => some (encInt 9 g d a b, 0)
  | .or g d a b => some (encInt 10 g d a b, 0)
  | .xor g d a b => some (encInt 11 g d a b, 0)
  | .shl g d a b => some (encInt 12 g d a b, 0)
  | .shr g d a b => some (encInt 13 g d a b, 0)
  | .sra g d a b => some (encInt 14 g d a b, 0)
  | .min g d a b => some (encInt 15 g d a b, 0)
  | .max g d a b => some (encInt 16 g d a b, 0)
  | .minu g d a b => some (encInt 17 g d a b, 0)
  | .maxu g d a b => some (encInt 18 g d a b, 0)
  | .clz g d a => some (encInt 19 g d a 0, 0)
  | .ctz g d a => some (encInt 20 g d a 0, 0)
  | .pcnt g d a => some (encInt 21 g d a 0, 0)
  | .sext g d a e => some (encInt 22 g d a ((0 : BitVec 1) ++ encElem e), 0)
  | .mov g d a => some (encInt 23 g d a 0, 0)
  | .andn g d a b => some (encInt 24 g d a b, 0)
  | .addi g d a i => some (encSI 2 g d a i)
  | .andi g d a i => some (encSI 3 g d a i)
  | .ori g d a i => some (encSI 4 g d a i)
  | .xori g d a i => some (encSI 5 g d a i)
  | .shli g d a n => some (encShi 0 g d a n, 0)
  | .shri g d a n => some (encShi 1 g d a n, 0)
  | .srai g d a n => some (encShi 2 g d a n, 0)
  | .movi g d i => some (encSI 7 g d 0 i)
  | .orh g d a i => some (encSI 8 g d a i)
  | .bfx g d a p n => some (encBf 0 g d a p n, 0)
  | .bfxs g d a p n => some (encBf 1 g d a p n, 0)
  | .bfi g d a p n => some (encBf 2 g d a p n, 0)
  | .lea g d a b n => some (mkP 0x0A d a b 0 ((0 : BitVec 3) ++ n) g, 0)
  | .leai g d a i => some (encSI 0x0B g d a i)
  | .setsp g d a s => some (mkP 0x0C d a (s.extractLsb' 4 4) (s.extractLsb' 0 4) 0 g, 0)
  | .getsp g d => some (mkP 0x0C d 0 0 0 1 g, 0)
  | .cmp g p a b c => some (mkP 0x0D (hi1 p) a b 0 ((0 : BitVec 2) ++ encCond c) g, 0)
  | .cmpi g p a c i =>
    match i with
    | .fld v => some (⟨0x0E, hi1 p, a, encCond c ++ v.extractLsb' 9 1, v.extractLsb' 5 4, v.extractLsb' 0 5, g, 0⟩, 0)
    | .lit w => some (⟨0x0E, hi1 p, a, encCond c ++ (0 : BitVec 1), 0, 0, g, 1⟩, w)
  | .pand g d a b => some (mkP 0x0F (hi1 d) (hi1 a) (hi1 b) 0 0 g, 0)
  | .por g d a b => some (mkP 0x0F (hi1 d) (hi1 a) (hi1 b) 0 1 g, 0)
  | .pxor g d a b => some (mkP 0x0F (hi1 d) (hi1 a) (hi1 b) 0 2 g, 0)
  | .pandn g d a b => some (mkP 0x0F (hi1 d) (hi1 a) (hi1 b) 0 3 g, 0)
  | .pnot g d a => some (mkP 0x0F (hi1 d) (hi1 a) 0 0 4 g, 0)
  | .pword g d => some (mkP 0x0F d 0 0 0 5 g, 0)
  | .pset g a => some (mkP 0x0F 0 a 0 0 6 g, 0)
  | .sel g d a b p => some (mkP 0x10 d a b 0 ((0 : BitVec 2) ++ p) g, 0)
  | .br g i => some (encSJ 0x11 g i)
  | .bl g i => some (encSJ 0x12 g i)
  | .jr g a => some (mkP 0x13 0 a 0 0 0 g, 0)
  | .jlr g d a => some (mkP 0x13 d a 0 0 1 g, 0)
  | .loop g c n => some (encSL 0x14 g c n, 0)
  | .loopi g c n =>
    match c with
    | .fld v => some (encSL 0x15 g v n, 0)
    | .lit w => some (⟨0x15, 0, n.extractLsb' 13 4, n.extractLsb' 9 4, n.extractLsb' 5 4, n.extractLsb' 0 5, g, 1⟩, w)
  | .ld g d a o w r s => some (encSM 0x16 g d a o (encWidth w) r s)
  | .ldz g d a o w r s => some (encSM 0x17 g d a o (encWidth w) r s)
  | .st g d a o w r s => some (encSM 0x18 g d a o (encWidth w) r s)
  | .ldv g d a o r s => some (encSM 0x19 g d a o 5 r s)
  | .stv g d a o r s => some (encSM 0x1A g d a o 5 r s)
  | .ldsamp g d a o => some (encSM 0x1B g d a o 5 .rlx .comb)
  | .gath g v s i e h r c => some (encGath 0x1C g v s i e h r c, 0)
  | .scat g v s i e h r c => some (encGath 0x1D g v s i e h r c, 0)
  | .amo g d a b o w r s => some (encAtom 0x1E g d a b (encAmo o) w r s, 0)
  | .cas g d a b w r s => some (encAtom 0x1F g d a b 0 w r s, 0)
  | .ared g a b o w r s => some (encAtom 0x20 g 0 a b (encAmo o) w r s, 0)
  | .fence g k s => some (mkP 0x21 0 0 0 0 (encFence k ++ (0 : BitVec 1) ++ encScope s) g, 0)
  | .fsamp g s => some (mkP 0x21 0 0 0 1 ((0 : BitVec 3) ++ encScope s) g, 0)
  | .sinv g s => some (mkP 0x21 0 0 0 2 ((0 : BitVec 3) ++ encScope s) g, 0)
  | .mwatch g a => some (mkP 0x22 0 a 0 0 0 g, 0)
  | .mwait g d b => some (mkP 0x22 d 0 b 1 0 g, 0)
  | .mclr g => some (mkP 0x22 0 0 0 2 0 g, 0)
  | .cflush g a => some (mkP 0x23 0 a 0 0 0 g, 0)
  | .cinval g a => some (mkP 0x23 0 a 0 1 0 g, 0)
  | .prf g a => some (mkP 0x23 0 a 0 2 0 g, 0)
  | .mig g a => some (mkP 0x24 0 a 0 0 0 g, 0)
  | .migc g a => some (mkP 0x24 0 a 0 1 0 g, 0)
  | .migb g => some (mkP 0x24 0 0 0 2 0 g, 0)
  | .home g d a => some (mkP 0x24 d a 0 3 0 g, 0)
  | .isfull g d a f => some (mkP 0x24 d a 0 4 ((0 : BitVec 4) ++ ofBit f) g, 0)
  | .mkempty g a f => some (mkP 0x24 0 a 0 5 ((0 : BitVec 4) ++ ofBit f) g, 0)
  | .mkfull g a f => some (mkP 0x24 0 a 0 6 ((0 : BitVec 4) ++ ofBit f) g, 0)
  | .fmode g r => some (mkP 0x24 0 0 0 7 ((0 : BitVec 3) ++ encRm r) g, 0)
  | .rdsr g d s => some (mkP 0x25 d 0 (s.extractLsb' 8 4) (s.extractLsb' 4 4) (s.extractLsb' 0 4 ++ (0 : BitVec 1)) g, 0)
  | .wrsr g a s => some (mkP 0x25 0 a (s.extractLsb' 8 4) (s.extractLsb' 4 4) (s.extractLsb' 0 4 ++ (1 : BitVec 1)) g, 0)
  | .msg g a c => some (encMsg 0 g 0 a c, 0)
  | .mrecv g d => some (encMsg 1 g d 0 0, 0)
  | .chbind g c => some (encMsg 2 g 0 0 c, 0)
  | .tbset g a c => some (encMsg 3 g 0 a c, 0)
  | .tbclr g c => some (encMsg 4 g 0 0 c, 0)
  | .mbrd g d p w => some (encMsg 5 g d 0 (ofBit p ++ (0 : BitVec 3) ++ w), 0)
  | .callat g d a b => some (mkP 0x27 d a b 0 0 g, 0)
  | .ret g a => some (mkP 0x28 0 a 0 0 0 g, 0)
  | .qput g d a b => some (mkP 0x29 d a b 0 0 g, 0)
  | .gang g w => some (mkP 0x2A 0 0 0 0 ((0 : BitVec 3) ++ w) g, 0)
  | .ungang g => some (mkP 0x2A 0 0 0 1 0 g, 0)
  | .barInit g a b => some (mkP 0x2B 0 a b 0 0 g, 0)
  | .barArv g a => some (mkP 0x2B 0 a 0 1 0 g, 0)
  | .barWait g a b => some (mkP 0x2B 0 a b 2 0 g, 0)
  | .barArw g a => some (mkP 0x2B 0 a 0 3 0 g, 0)
  | .trig g => some (mkP 0x2C 0 0 0 0 0 g, 0)
  | .cancel g a => some (mkP 0x2C 0 a 0 1 0 g, 0)
  | .cnt g d a f => some (mkP 0x2C d a 0 2 ((0 : BitVec 3) ++ f) g, 0)
  | .xget g d a b n r c => some (encXfer 0 g d a b n r c, 0)
  | .xput g d a b n r c => some (encXfer 1 g d a b n r c, 0)
  | .xcopy g d a b n r c => some (encXfer 2 g d a b n r c, 0)
  | .xtile g d a b n r c => some (encXfer 3 g d a b n r c, 0)
  | .xgetv g d a b n r c => some (encXfer 4 g d a b n r c, 0)
  | .xwait g d a c => some (mkP 0x2E d a 0 0 ((0 : BitVec 2) ++ c) g, 0)
  | .xstat g d k c => some (mkP 0x2E d 0 0 1 ((0 : BitVec 1) ++ ofBit k ++ c) g, 0)
  | .cbinit g a b n => some (mkP 0x2F 0 a b 0 n g, 0)
  | .cbpush g d a b => some (mkP 0x2F d a b 1 0 g, 0)
  | .cbpop g d a b => some (mkP 0x2F d a b 2 0 g, 0)
  | .cbwait g d a b => some (mkP 0x2F d a b 3 0 g, 0)
  | .cbspace g d a b => some (mkP 0x2F d a b 4 0 g, 0)
  | .pinit g a => some (mkP 0x30 0 a 0 0 0 g, 0)
  | .pfill g a b => some (mkP 0x30 0 a b 1 0 g, 0)
  | .peq g a b => some (mkP 0x30 0 a b 2 0 g, 0)
  | .pget g d a => some (mkP 0x30 d a 0 3 0 g, 0)
  | .ptry g d a => some (mkP 0x30 d a 0 4 0 g, 0)
  | .pstat g d a f => some (mkP 0x30 d a 0 5 ((0 : BitVec 3) ++ f) g, 0)
  | .licAcq g x => some (mkP 0x31 0 0 0 0 ((0 : BitVec 4) ++ ofBit x) g, 0)
  | .licRel g => some (mkP 0x31 0 0 0 1 0 g, 0)
  | .licGive g => some (mkP 0x31 0 0 0 2 0 g, 0)
  | .mcmd g a b => some (mkP 0x32 0 a b 0 0 g, 0)
  | .mfin g d a => some (mkP 0x32 d a 0 1 0 g, 0)
  | .ninst g d a => some (mkP 0x33 d a 0 0 0 g, 0)
  | .nwait g d a => some (mkP 0x33 d a 0 1 0 g, 0)
  | .nstat g d a f => some (mkP 0x33 d a 0 2 ((0 : BitVec 3) ++ f) g, 0)
  | .nretire g a => some (mkP 0x33 0 a 0 3 0 g, 0)
  | .bsinit g a b x => some (mkP 0x34 0 a b 0 ((0 : BitVec 4) ++ ofBit x) g, 0)
  | .bsget g d n => some (mkP 0x34 d 0 0 1 n g, 0)
  | .bsput g a n => some (mkP 0x34 0 a 0 2 n g, 0)
  | .bspeek g d n => some (mkP 0x34 d 0 0 3 n g, 0)
  | .bsskip g b => some (mkP 0x34 0 0 b 4 0 g, 0)
  | .bsalign g x => some (mkP 0x34 0 0 0 5 ((0 : BitVec 4) ++ ofBit x) g, 0)
  | .bsflush g d => some (mkP 0x34 d 0 0 6 0 g, 0)
  | .fwait g d a => some (mkP 0x34 d a 0 7 0 g, 0)
  | _ => none

/-- The S-word and its literal (zero where the word has none). -/
def encodeS (i : Instr) : Option (W32 × W32) := (encodeSParts i).map fun x => (joinWord x.1, x.2)

/-- A V form whose last source is in field a. -/
def encV1 (maj : BitVec 6) (g d : BitVec 4) (a : VSrc) (c : BitVec 4) (f : BitVec 5) : Parts × W32 :=
  match a with
  | .reg r => (⟨maj, d, r, 0, c, f, g, 0⟩, 0)
  | .lit w => (⟨maj, d, 0, 0, c, f, g, 1⟩, w)

/-- A V form whose last source is in field b. -/
def encV2 (maj : BitVec 6) (g d a : BitVec 4) (b : VSrc) (c : BitVec 4) (f : BitVec 5) : Parts × W32 :=
  match b with
  | .reg r => (⟨maj, d, a, r, c, f, g, 0⟩, 0)
  | .lit w => (⟨maj, d, a, 0, c, f, g, 1⟩, w)

/-- A V form whose last source is in field c. -/
def encV3 (maj : BitVec 6) (g d a b : BitVec 4) (c : VSrc) (f : BitVec 5) : Parts × W32 :=
  match c with
  | .reg r => (⟨maj, d, a, b, r, f, g, 0⟩, 0)
  | .lit w => (⟨maj, d, a, b, 0, f, g, 1⟩, w)

/-- The fields and the literal of a regular V operation. -/
def encodeVParts : Instr → Option (Parts × W32)
  | .vnop => some (mkP 0 0 0 0 0 0 0, 0)
  | .vaddF32 g d a b => some (encV2 1 g d a b 0 0)
  | .vsubF32 g d a b => some (encV2 1 g d a b 0 1)
  | .vmulF32 g d a b => some (encV2 1 g d a b 0 2)
  | .vminF32 g d a b => some (encV2 1 g d a b 0 3)
  | .vmaxF32 g d a b => some (encV2 1 g d a b 0 4)
  | .vminnum g d a b => some (encV2 1 g d a b 0 5)
  | .vmaxnum g d a b => some (encV2 1 g d a b 0 6)
  | .vabs g d a => some (encV1 1 g d a 0 7)
  | .vneg g d a => some (encV1 1 g d a 0 8)
  | .vcopysign g d a b => some (encV2 1 g d a b 0 9)
  | .vfma g d a b c => some (encV3 2 g d a b c 0)
  | .vfms g d a b c => some (encV3 2 g d a b c 1)
  | .vfnma g d a b c => some (encV3 2 g d a b c 2)
  | .vfnms g d a b c => some (encV3 2 g d a b c 3)
  | .vhAdd g d a b t => some (encV2 3 g d a b 0 (ofBit t ++ (0 : BitVec 4)))
  | .vhMul g d a b t => some (encV2 3 g d a b 0 (ofBit t ++ (1 : BitVec 4)))
  | .vhFma g d a b c t => some (encV3 3 g d a b c (ofBit t ++ (2 : BitVec 4)))
  | .vhMin g d a b t => some (encV2 3 g d a b 0 (ofBit t ++ (3 : BitVec 4)))
  | .vhMax g d a b t => some (encV2 3 g d a b 0 (ofBit t ++ (4 : BitVec 4)))
  | .vaddI32 g d a b => some (encV2 4 g d a b 0 0)
  | .vsubI32 g d a b => some (encV2 4 g d a b 0 1)
  | .vmulI32 g d a b => some (encV2 4 g d a b 0 2)
  | .vmulh g d a b u => some (encV2 4 g d a b 0 (ofBit u ++ (3 : BitVec 4)))
  | .vandI32 g d a b => some (encV2 4 g d a b 0 4)
  | .vorI32 g d a b => some (encV2 4 g d a b 0 5)
  | .vxorI32 g d a b => some (encV2 4 g d a b 0 6)
  | .vshlI32 g d a b => some (encV2 4 g d a b 0 7)
  | .vshrI32 g d a b => some (encV2 4 g d a b 0 8)
  | .vsraI32 g d a b => some (encV2 4 g d a b 0 9)
  | .vminI32 g d a b => some (encV2 4 g d a b 0 10)
  | .vmaxI32 g d a b => some (encV2 4 g d a b 0 11)
  | .vminN32 g d a b => some (encV2 4 g d a b 0 12)
  | .vmaxN32 g d a b => some (encV2 4 g d a b 0 13)
  | .vclzI32 g d a => some (encV1 4 g d a 0 14)
  | .vpcntI32 g d a => some (encV1 4 g d a 0 15)
  | .vadd8 g d a b => some (encV2 5 g d a b 0 0)
  | .vadds8 g d a b => some (encV2 5 g d a b 0 1)
  | .vdot4 g d a b c => some (encV3 5 g d a b c 2)
  | .vcmp g m a b t c => some (encV2 6 g (hi1 m) a b 0 (encCmpTy t ++ encVCond c))
  | .vsel g d a b m => some (encV2 7 g d a b (hi1 m) 0)
  | .vcvtI32F32 g d a r => some (encV1 8 g d a 0 (ofBit r ++ (0 : BitVec 4)))
  | .vcvtF32I32 g d a => some (encV1 8 g d a 0 1)
  | .vcvtF32N32 g d a => some (encV1 8 g d a 0 2)
  | .vcvtF16F32 g d a b => some (encV2 8 g d a b 0 3)
  | .vcvtF32F16 g d a => some (encV1 8 g d a 0 4)
  | .vcvtBf16F32 g d a b => some (encV2 8 g d a b 0 5)
  | .vcvtF32Bf16 g d a => some (encV1 8 g d a 0 6)
  | .vcvtI32I8 g d a => some (encV1 8 g d a 0 7)
  | .vcvtI8I32 g d a => some (encV1 8 g d a 0 8)
  | .vcvtN32F32 g d a r => some (encV1 8 g d a 0 (ofBit r ++ (9 : BitVec 4)))
  | .vrcp g d a => some (encV1 9 g d a 0 0)
  | .vrsqrt g d a => some (encV1 9 g d a 0 1)
  | .vsqrt g d a => some (encV1 9 g d a 0 2)
  | .vdiv g d a b => some (encV2 9 g d a b 0 3)
  | .vexp2 g d a => some (encV1 9 g d a 0 4)
  | .vlog2 g d a => some (encV1 9 g d a 0 5)
  | .vsinpi g d a => some (encV1 9 g d a 0 6)
  | .vcospi g d a => some (encV1 9 g d a 0 7)
  | .vperm g d a b => some (encV2 10 g d a b 0 0)
  | .vrotl g d a n => some (encV1 10 g d a n 1)
  | .vbcastl g d a n => some (encV1 10 g d a n 2)
  | .vredaddF32 g d a => some (mkP 11 d a 0 0 0 g, 0)
  | .vredaddI32 g d a => some (mkP 11 d a 0 0 1 g, 0)
  | .vredminF32 g d a => some (mkP 11 d a 0 0 2 g, 0)
  | .vredmaxF32 g d a => some (mkP 11 d a 0 0 3 g, 0)
  | .vmov g d a => some (encV1 12 g d a 0 0)
  | .vbcast g d a => some (mkP 12 d a 0 0 1 g, 0)
  | .vext g d a n => some (mkP 12 d a n 0 2 g, 0)
  | .vins g d a n => some (mkP 12 d a n 0 3 g, 0)
  | .vlane g d => some (mkP 12 d 0 0 0 4 g, 0)
  | .mlog g d a b o => some (mkP 12 (hi1 d) (hi1 a) (hi1 b) ((0 : BitVec 2) ++ encMaskOp o) 5 g, 0)
  | .mcnt g d a => some (mkP 12 d (hi1 a) 0 0 6 g, 0)
  | .mset g d a => some (mkP 12 (hi1 d) a 0 0 7 g, 0)
  | .vbfpk d a m => some (mkP 13 d a 0 m 0 0, 0)
  | .vbfunp d a n => some (mkP 13 d a 0 n 1 0, 0)
  | .vbfhdr d a m => some (mkP 13 d a 0 m 2 0, 0)
  | .vbfscale d a b => some (mkP 13 d a b 0 3 0, 0)
  | .vtopk g d a b k => some (mkP 14 d a b k 0 g, 0)
  | .vfmak g d a k => some (mkP 15 d a (k.extractLsb' 4 4) (k.extractLsb' 0 4) 0 g, 0)
  | .vaddk g d a k => some (mkP 15 d a (k.extractLsb' 4 4) (k.extractLsb' 0 4) 1 g, 0)
  | .vmulk g d a k => some (mkP 15 d a (k.extractLsb' 4 4) (k.extractLsb' 0 4) 2 g, 0)
  | _ => none

/-- The fields of a VF operation. -/
def encodeVfParts : Instr → Option VfParts
  | .vaddi d a i => some ⟨0, d, a, i⟩
  | .vmuli d a i => some ⟨1, d, a, i⟩
  | .vfmai d a i => some ⟨2, d, a, i⟩
  | .vmovi d i => some ⟨3, d, 0, i⟩
  | _ => none

/-- The V-word and its literal. -/
def encodeV (i : Instr) : Option (W32 × W32) :=
  match encodeVfParts i with
  | some p => some (joinVf p, 0)
  | none => (encodeVParts i).map fun x => (joinWord x.1, x.2)

/-- The tile command word of a tile command (R64). -/
def encodeTile : Instr → Option (BitVec 256)
  | .mbegin _ tag ch anchor =>
    some ((1 : Byte) ++ tag ++ ch ++ (0 : BitVec 68) ++ anchor ++ (0 : BitVec 124))
  | .mstep _ tag ch a b n da db =>
    some ((2 : Byte) ++ tag ++ ch ++ a ++ b ++ n ++ da ++ db ++ (0 : BitVec 132))
  | .mend _ tag ch => some ((3 : Byte) ++ tag ++ ch ++ (0 : BitVec 200))
  | .mdrain _ tag ch dest o w f =>
    some ((4 : Byte) ++ tag ++ ch ++ (0 : BitVec 76) ++ dest ++ o ++ w ++ f ++ (0 : BitVec 78))
  | .mzero _ tag ch => some ((5 : Byte) ++ tag ++ ch ++ (0 : BitVec 200))
  | _ => none

/-- The words of an operation that has an encoding: an S- or V-word with its literal (zero where it has none), or the
words of a tile command, lowest first. -/
def encode (i : Instr) : Option (List W32) :=
  match encodeS i with
  | some (w, l) => some [w, l]
  | none =>
    match encodeV i with
    | some (w, l) => some [w, l]
    | none => (encodeTile i).map fun t => (List.range 8).map fun k => t.extractLsb' (32 * k) 32

/-! ### The host's numbering of a row's bits -/

/-- The instruction of a table row: below 256 bits the word is read as an S-word, and as a V-word where it is no S-word
(two rows may have one pattern, since a slot tells the two kinds apart: log 20); 256 bits are a tile command of
engine 0. -/
def decodeTableWord (nbits w : Nat) : Option Instr :=
  if 256 ≤ nbits then
    match decodeTile 0 (BitVec.ofNat 256 w) with
    | .ok i => some i
    | .error _ => none
  else
    let x := BitVec.ofNat 32 w
    let lit := BitVec.ofNat 32 (w / 2 ^ 32)
    match decodeS x lit with
    | .ok i => some i
    | .error _ =>
      match decodeV x lit with
      | .ok i => some i
      | .error _ => none

end Sys2Proof
end

