-- ==== Sys2Proof/Machine/State.lean ====
section
/-! DEFINITION. The state of the machine as plain data, why a step can stop, and the state after reset. A list of keyed
records leaves out the keys whose record is as at reset. -/

namespace Sys2Proof.Machine

/-- Why the machine stops. -/
inductive Fault where
  /-- Raised by a page walk whose root register (`ptroot`, `sptroot`, or a root that an engine carries) names a physical
  address that R218 reserves: nothing answers there and the spec gives no cause. Safe: the model stops. -/
  | noSuchPhysical
deriving DecidableEq, Repr

/-- Why an instruction has no meaning. -/
inductive Refusal where
  /-- Raised by an arm of `exec` whose instruction has no meaning yet. Safe: the model stops. -/
  | notModelled (mnemonic : String)
deriving DecidableEq, Repr

/-- Records by key, keys rising. -/
abbrev Sparse (α : Type) := List (Nat × α)

/-! ### A context (spec/07_context.md R159) -/

/-- s0-s15: 72 bits, full/empty and poison. The value of a poisoned register is kept as zero (log 6). -/
structure SCell where
  val : W72 := 0
  full : Bool := true
  pois : Bool := false
deriving DecidableEq, Repr

/-- v0-v15. -/
structure VCell where
  val : W512 := 0
  full : Bool := true
  pois : Bool := false
deriving DecidableEq, Repr

/-- p1-p7 (R105); a poisoned predicate reads as false. -/
structure PCell where
  val : Bool := false
  pois : Bool := false
deriving DecidableEq, Repr

/-- m1-m7 (R133). -/
structure MCell where
  val : W16 := 0
  pois : Bool := false
deriving DecidableEq, Repr

/-- A hardware loop level (R110). -/
structure Loop where
  start : W72 := 0
  last : W72 := 0
  count : W32 := 0
  active : Bool := false
deriving DecidableEq, Repr

/-- A bit stream of the forager (R191): the output stream's unwritten word, the input stream's kept words with their
offsets (R193). -/
structure Stream where
  base : BitVec 18 := 0
  len : W32 := 0
  pos : W32 := 0
  word : W64 := 0
  kept : List (Nat × W64 × Bool) := []
deriving DecidableEq, Repr

/-- Where an access goes: a translated page or a local window (R217). -/
inductive Win where
  | glob
  | own
  | combScratch
  | combMem
  | twin
  | bank
deriving DecidableEq, Repr

/-- A resolved address: the memory key of its first byte and its VA; of a translated page also the leaf entry, its level
and the address space (R220, R224). -/
structure Loc where
  win : Win
  key : Nat
  va : W72
  leaf : BitVec 128
  level : Nat := 4
  asid : W16 := 0
deriving DecidableEq, Repr

/-- Who acts (R237). -/
inductive Agent where
  | thread (core cx : Nat)
  | streamer (t : Nat)
  | engine (core : Nat)
  | queue (hive : Nat)
  | promise (slice : Nat)
  | walker (hive : Nat)
  | installer
  | display
  | scheduler
  | host
deriving DecidableEq, Repr

/-- How a fill forms its register's value (R115-R119, R123, R192). -/
inductive RecOp where
  | ld (w : Width) (signed : Bool)
  | vec
  | samp
  | gath (e : Elem)
  | amo (o : AmoOp) (d : Bool) (b : W64)
  | cas (d : Bool) (cmp new : W64)
  /-- `callat` (true), `xgetv`, `pget` -/
  | remote (callat : Bool)
  /-- `bsget`, `bspeek`: the place of the first bit in its words, and the number of bits -/
  | bits (shift len : Nat)
deriving DecidableEq, Repr

/-- A pending access record (R179). `got` is a value already fixed where the access was performed. -/
structure Rec where
  seq : Nat
  isV : Bool
  reg : BitVec 4
  op : RecOp
  locs : List Loc
  ord : Ord := .rlx
  scope : Scope := .comb
  got : Option (W512 × Bool) := none
  /-- lanes of a `gath` that have been performed -/
  part : List (Nat × W32 × Bool) := []
  /-- an atomic that is accepted, which completes it for Release(comb), and the number from which accesses of its comb come
  after it (R120) -/
  accepted : Bool := false
  acc : Nat := 0
  /-- the thread's later loads are performed after it, and its performance leaves no untracked copy in L1: an atomic, and what
  an `sinv` at hive scope or wider has found under way (R245, R256) -/
  fence : Bool := false
deriving DecidableEq, Repr

/-- The life-cycle states of a context that its hardware slot can be in (R167); a Saved thread is in a comb image. -/
inductive CtxState where
  | free
  | reserved
  | clearing
  | ready
  | parked
  | follower
  | migrating
  | retired
deriving DecidableEq, Repr

/-- What a parked thread waits for (R169). -/
inductive Wait where
  | none
  /-- 1: the named registers are to be full -/
  | regs (ss vs : List (BitVec 4))
  /-- 1: a g register (false) or a w register (true) is to be full -/
  | shared (w : Bool) (n : BitVec 3)
  /-- 2 -/
  | record
  /-- 3: the walk of the key of a VA in a hive, for access kinds as in a fault record -/
  | walk (hive : Nat) (asid : W16) (va : W72) (kinds : Byte)
  /-- 3: the answer to fault record num of a hive, and the faulting VA -/
  | fault (hive num : Nat) (va : W64)
  /-- 3: a free slot of a hive's record ring (R228) -/
  | faultSlot (hive : Nat)
  /-- 4: Release(S) over the accesses before a sequence number (R120) -/
  | drain (s : Scope) (below : Nat)
  /-- 4: the thread's own access of that number completes -/
  | access (seq : Nat)
  /-- 4: the thread's own stores of a `scat`, numbered from the first bound to below the second, are acknowledged -/
  | accesses (first below : Nat)
  /-- 4: the core's writes to the line of a key before a sequence number are acknowledged (`cflush`) -/
  | line (key below : Nat)
  /-- 4: loads and atomics before a sequence number have their values -/
  | values (below : Nat)
  /-- 4: the comb's sampler fills that an `fsamp` of that number found outstanding return -/
  | sampler (below : Nat)
  /-- 4: the translations a `tlbinv` of that form (0 page, 1 asid, 2 all) dropped are no longer in use -/
  | tlbinv (form below : Nat) (asid : W16) (va : W72)
  /-- 3: a Nectar line is staged (R416) -/
  | staging (line : Nat)
  /-- 4: an answer that an agent puts into the context's stage -/
  | answer
  /-- 4: the home's turn, which a free choice brings -/
  | home
  /-- 5, with the cycle of the timeout -/
  | mwait (limit : Option Nat)
  /-- 6, with the number of the message that waits for its answer -/
  | inbound (id : Nat)
  /-- 7 -/
  | mrecv
  /-- 8 -/
  | barrier
  /-- 9: the channel's done-below passes the id -/
  | xfer (ch : BitVec 3) (id : BitVec 48)
  /-- 10 -/
  | licence
  /-- 11: a free entry in the queue of that core's engine -/
  | engineSpace (core : Nat)
  /-- 9, 4: the context's commands at engines are done (`mfin`) -/
  | engineDone
  /-- 4: the answer of an earlier PROM instruction of the thread (R369) -/
  | request
  /-- 12, with the register that the fill is for, and whether it was full before the bundle, or empty under a record -/
  | promise (reg : BitVec 4) (full under : Bool)
  /-- 13: the ring's filled count reaches n -/
  | ringFilled (ring n : Nat)
  /-- 13: the ring's free slots reach n -/
  | ringSpace (ring n : Nat)
  /-- 4: the install of an extent completes -/
  | install (ext : Nat)
  /-- 14 -/
  | exitDrain
  /-- 15 -/
  | stop
deriving DecidableEq, Repr

/-- How far the S operation of the bundle in hand has come when it parks in the middle. -/
inductive Stage where
  | fresh
  /-- its n-th step is done and it waits -/
  | acted (n : Nat)
  /-- an agent has answered with a value -/
  | answered (val : W512) (pois : Bool)
  /-- an agent has answered with a cause -/
  | refused (code : Byte) (val : W64)
deriving DecidableEq, Repr

/-- What a V operation writes when its bundle completes (R130-R134). -/
structure VEff where
  v : List (BitVec 4 × W512 × Bool) := []
  s : Option (BitVec 4 × W72 × Bool) := none
  m : Option (BitVec 3 × W16 × Bool) := none
  flags : BitVec 6 := 0
  normalise : Bool := false
deriving DecidableEq, Repr

/-- The result of the bundle's V operation, held until the bundle completes. -/
inductive VRes where
  | none
  | trap (code : Byte) (val : W64)
  | eff (e : VEff)
deriving DecidableEq, Repr

/-- Membership in a gang (R277): the leader's core, the width, the index; a member has left the gang at the boundary before a
bundle that the others are still to complete (R280, R450). -/
structure GangMember where
  leader : Nat
  width : Nat
  index : Nat
  ending : Bool := false
deriving DecidableEq, Repr

/-- What a context holds (R159, R197-R199, R222). -/
structure Ctx where
  st : CtxState := .free
  wait : Wait := .none
  s : Vector SCell 16 := Vector.replicate 16 {}
  v : Vector VCell 16 := Vector.replicate 16 {}
  /-- p1-p7 -/
  p : Vector PCell 7 := Vector.replicate 7 {}
  /-- m1-m7 -/
  m : Vector MCell 7 := Vector.replicate 7 {}
  k : Vector W72 4 := Vector.replicate 4 0
  /-- the Δ held with k0 (R332) -/
  delta : Byte := 4
  pc : W72 := 0
  loop0 : Loop := {}
  loop1 : Loop := {}
  fmode : BitVec 10 := 0
  fflags : BitVec 6 := 0
  origin : BitVec 11 := 0
  unitid : W64 := 0
  launchid : BitVec 58 := 0
  groupid : W64 := 0
  gangid : Byte := 0
  recs : List Rec := []
  bsIn : Stream := {}
  bsOut : Stream := {}
  /-- user trap record: 0x020-0x025 -/
  tcause : Byte := 0
  tval : W64 := 0
  tpc : W64 := 0
  tword : W64 := 0
  thand : W64 := 0
  tsave : W64 := 0
  /-- system trap record: 0x100, 0x101, 0x105-0x10C -/
  sstatus : BitVec 4 := 0
  shand : W64 := 0
  tdeleg0 : W64 := 0
  tdeleg1 : W64 := 0
  scause : Byte := 0
  sval : W64 := 0
  spc : W64 := 0
  sword : W64 := 0
  ssave : W64 := 0
  wdlim : W16 := 0
  /-- loop levels that SaveLoops keeps for each handler kind (R200) -/
  userLoops : Loop × Loop := ({}, {})
  systemLoops : Loop × Loop := ({}, {})
  ptroot : W64 := 0
  asid : W16 := 0
  generation : W16 := 0
  /-- the last generation that the hardware context has given out: that of a restored thread is older (R214) -/
  used : W16 := 0
  /-- asynchronous causes that wait for a boundary, with their values (R203) -/
  asyncs : List (Byte × W64) := []
  /-- the cycle at which the watchdog count started (R206) -/
  wdStart : Nat := 0
  /-- turns still forfeited to the normaliser (R86) -/
  forfeit : Nat := 0
  /-- the watched sector and its pending reason, 0 for empty (R293) -/
  watch : Option Nat := none
  watchPending : Nat := 0
  /-- the `chbind` binding (R317) -/
  chan : Option (BitVec 6) := none
  /-- the return record of a task (R320) -/
  retRec : Option FillTag := none
  /-- transfers of this thread that are not Done (R129, R184) -/
  xfers : Nat := 0
  /-- tile commands of this context that are not done (R397) -/
  tiles : Nat := 0
  gang : Option GangMember := none
  /-- a follower, or a former follower, of the unit (R281) -/
  follows : Bool := false
  /-- the core on whose reserved context the follower stands, until it migrates (R277; log 21) -/
  station : Option Nat := none
  /-- one more than the cycle in which it last issued in its leader's slot (R13, R278) -/
  issued : Nat := 0
  triggered : Bool := false
  /-- a former follower whose leader has been discarded from a comb image: the last of them counts the unit (R209, R281) -/
  orphan : Bool := false
  /-- the launch and the group the thread belongs to -/
  launch : Nat := 0
  group : Nat := 0
  /-- the bundle in hand, its stage, its V result, and whether its charge is paid (R177) -/
  cur : Option Bundle := none
  paid : Bool := false
  stage : Stage := .fresh
  vres : VRes := .none
  /-- places that the S operation in hand has resolved -/
  places : List Loc := []
  /-- the S-word address of the bundle that transferred control to `pc`; none for an entry, a handler, a migration -/
  via : Option W64 := none
  /-- `pc` was reached by a transfer of control (R46) -/
  landed : Bool := false
  /-- the cause of a walk or a declined fault, taken when the bundle replays -/
  replay : Option (Byte × W64) := none
  /-- where a migrating thread goes (R184) -/
  target : Nat := 0
  /-- accesses of the thread numbered below this are before its last `fence.ss` (R124) -/
  storeFence : Nat := 0
  /-- the same for `fence.ss.comb` -/
  storeFenceComb : Nat := 0
deriving DecidableEq, Repr

/-! ### A core -/

/-- g0-g7 and w0-w7: the value, full/empty, and recent writes, oldest first, with the cycle of issue and the writer's core
(R173, R174). -/
structure GCell where
  val : W64 := 0
  full : Bool := false
  late : List (Nat × Nat × W64) := []
deriving DecidableEq, Repr

/-- An L1 copy of a line of the other hive or of the host (R245, R246), with the sectors of it that have been filled: 0 the low
one, 1 the high one (R23). -/
structure L1Line where
  line : Nat
  data : W512
  has : List Nat := [0, 1]
  /-- bytes of the line that an error has poisoned (R208) -/
  pois : List Nat := []
deriving DecidableEq, Repr

/-- A TLB entry (R226): one valid leaf. -/
structure TlbEnt where
  asid : W16
  space : Byte
  /-- VA[63:0] of the page and the level of its leaf (R224) -/
  page : W64
  level : Nat
  leaf : BitVec 128
deriving DecidableEq, Repr

/-- A request at the clear engine (R166): the context, whether it is cleared in full, and the cycle it is done. -/
structure ClearReq where
  cx : Nat
  whole : Bool
  done : Option Nat := none
deriving DecidableEq, Repr

/-- A task-table entry (R312); the first of `groups` is the holder, an empty list an empty entry. -/
structure Task where
  pc : W72 := 0
  prio : BitVec 2 := 0
  blocked : Bool := false
  groups : List Nat := []
deriving DecidableEq, Repr

/-- A mailbox entry (R322). -/
abbrev MailEntry := Vector W64 4

/-- A transfer channel of a core (R345, R346): the next id, done-below, ids above it that are Done, and the first error's
cause. `inst` tells a channel apart from the same one in a comb image. -/
structure Chan where
  inst : Nat := 0
  next : BitVec 48 := 0
  doneBelow : BitVec 48 := 0
  finished : List (BitVec 48) := []
  err : Bool := false
  cause : BitVec 7 := 0
deriving DecidableEq, Repr

/-- A Ready ring of a core (R357). -/
structure Ring where
  base : W72
  lg : Nat
  rd : Nat := 0
  wr : Nat := 0
  filled : Nat := 0
  free : Nat
  reserved : Nat := 0
  group : Nat
deriving DecidableEq, Repr

/-! ### A matrix engine (spec/21_tile.md) -/

/-- The states of a chain (R389). -/
inductive ChainState where
  | idle
  | opened
  | closed
deriving DecidableEq, Repr

/-- An accumulator with its flags (R91, R93). -/
structure Acc where
  val : BitVec 128 := 0
  ovf : Bool := false
  nan : Bool := false
deriving DecidableEq, Repr

/-- A tile command on its way or in a queue: its word and its sender, the sender's launch and Δ (R389, R395); whether its
extents have been checked, whether it has begun, and the k-blocks or the drain writes that are left. -/
structure Cmd where
  word : BitVec 256
  core : Nat
  cx : Nat
  gen : W16
  launch : Nat
  delta : Byte
  checked : Bool := false
  begun : Bool := false
  left : List Nat := []
  /-- a drain: every write numbered from `first` on is its own -/
  first : Nat := 0
deriving DecidableEq, Repr

/-- A running k-step: whether its `mstep` is the second command of the queue (R390), the k-block, the cycle at which it ends,
and the words of the engine's scratchpad that have been written since it began, with what they held before (R388). -/
structure KRun where
  second : Bool := false
  /-- the engine has been reset since: the k-step ends without effect (R410) -/
  dead : Bool := false
  block : Nat
  till : Nat
  seen : List (Nat × W32) := []
deriving DecidableEq, Repr

/-- A matrix engine (R389-R399); an accumulator that is not listed is zero without flags. -/
structure Engine where
  chain : ChainState := .idle
  id : W16 := 0
  owner : Nat := 0
  delta : Byte := 4
  anchor : Byte := 0
  accs : Sparse Acc := []
  bad : Bool := false
  queue : List Cmd := []
  run : Option KRun := none
  /-- an `mend` has just completed (R403) -/
  ended : Bool := false
  /-- in a comb image: its core held the licence at the halt (R409) -/
  had : Bool := false
deriving DecidableEq, Repr

/-- A redirect entry (R214): the generation of a saved thread, its context, and the number of its comb. -/
structure Redirect where
  gen : W16
  cx : Nat
  comb : Nat
deriving DecidableEq, Repr

/-- The state of one core. -/
structure Core where
  ctxs : Vector Ctx 8 := Vector.replicate 8 {}
  g : Vector GCell 8 := Vector.replicate 8 {}
  ebal : BitVec 20 := 0
  erefill : BitVec 19 := 0
  mcapk : W32 := 0
  /-- the cycle of the last write of `mcapk`, and the key that the engine compares with until the next cycle (R400) -/
  oldKey : Option (Nat × W32) := none
  l1 : List L1Line := []
  tlb : List TlbEnt := []
  clears : List ClearReq := []
  tasks : Sparse Task := []
  inbound : List Msg := []
  mailbox : List MailEntry := []
  ovf : Bool := false
  /-- channels 0-7, rings by handle 0-15 that are Ready, redirect entries -/
  chans : Vector Chan 8 := Vector.replicate 8 {}
  rings : Sparse Ring := []
  redirects : List Redirect := []
  eng : Engine := {}
  /-- the core has failed, and the comb's spare takes its place when no group runs on the comb (R21) -/
  failed : Bool := false
deriving DecidableEq, Repr

/-! ### Combs, hives, groups, launches -/

/-- A sampler fill that has not returned: its line, the `ldsamp` that began it (core, context, number), and, after an `fsamp`,
the number below which accesses are served by it (it then installs nothing, R298, R299). -/
structure SampFill where
  loc : Loc
  core : Nat
  cx : Nat
  seq : Nat
  upto : Option Nat := none
deriving DecidableEq, Repr

/-- A line of a comb's sampler cache (R298). -/
structure SampLine where
  line : Nat
  data : W512
  pois : Bool
deriving DecidableEq, Repr

/-- A group admitted to a comb (R263-R269). -/
structure Group where
  launch : Nat
  comb : Nat
  /-- unit index of rank 0 -/
  first : Nat
  size : Nat
  cores : W16
  /-- contexts that hold a unit: unit index, core in the comb, context -/
  units : List (Nat × Nat × Nat)
  sbase : Nat
  ssize : Nat
  cbase : Nat
  csize : Nat
  share : Nat
  nbar : Nat
  gw : Nat
  /-- the cycle from which every participating core is zeroed (R268) -/
  zeroed : Nat
  /-- Running: the clearing of a first unit has completed, or the group has been restored (R266) -/
  started : Bool := false
deriving DecidableEq, Repr

/-- The state of one comb. -/
structure Comb where
  /-- the kernel index whose template the constant bank holds, and the groups that use it (R335) -/
  bank : Option Nat := none
  tlb : List TlbEnt := []
  samp : List SampLine := []
  /-- sampler fills that have not returned, oldest first -/
  sampWait : List SampFill := []
  /-- `fsamp`s of this cycle, by core, context and scope (R299) -/
  fsamps : List (Nat × Nat × Scope) := []
  /-- logical 256-byte blocks stored 1:1 (R221, R272) -/
  raw : List Nat := []
  /-- the spare is in use; a further core has failed (R21) -/
  spareUsed : Bool := false
  closed : Bool := false
deriving DecidableEq, Repr

/-- A walk in progress or in line for a walker (R227). -/
structure Walk where
  id : Nat
  asid : W16
  /-- space byte and VA[63:16] -/
  page : W72
  /-- the `ptroot` of the access that missed; the root is read when the walk begins (R223) -/
  ptroot : W64
  /-- the core whose access missed; none for an engine's -/
  core : Option Nat
  /-- an engine of the hive waits for it -/
  engine : Bool := false
deriving DecidableEq, Repr

/-- A `prf` whose fill has not come (R125): the core, its translation and the VA; whether its walk has been asked for. -/
structure Prefetch where
  id : Nat
  core : Nat
  ptroot : W64
  asid : W16
  user : Bool
  va : W72
  walked : Bool := false
deriving DecidableEq, Repr

/-- A fault record that has been filed and not answered (R228, R229). -/
structure FaultRec where
  num : Nat
  asid : W16
  page : W72
  cause : Byte
deriving DecidableEq, Repr

/-- The state of one hive. -/
structure Hive where
  fring : W64 := 0
  /-- fault records filed -/
  filed : Nat := 0
  faults : List FaultRec := []
  walks : List Walk := []
  /-- translations that the hive's engines hold, and keys of walks that have found no leaf for them (R227; log 13) -/
  etlb : List TlbEnt := []
  misses : List (W16 × W72) := []
  prefetches : List Prefetch := []
  /-- Nectar lines of 64 KiB in the staging cache, most recently used first, and lines being filled (R416) -/
  staged : List Nat := []
  staging : List Nat := []
  /-- the queue, of its 32, that its queue engine served last (R308) -/
  served : Nat := 31
deriving DecidableEq, Repr

/-- An access that has issued and is not yet complete at its home: a store, an `ared`, an engine's or the host's write
(R238, R249). -/
inductive FlightOp where
  | bytes (w : List Host.Cell) (pois : List Nat)
  | ared (o : AmoOp) (d : Bool) (b : W64)
deriving DecidableEq, Repr

/-- A driver notice (R325): kind, cause, source, context, and the words a and b; `stamp` is the cycle when posted. -/
structure Notice where
  kind : Byte
  cause : Byte := 0
  source : W16 := 0
  cx : Byte := 0xFF
  a : W64 := 0
  b : W64 := 0
  stamp : W64 := 0
deriving DecidableEq, Repr

structure Flight where
  id : Nat
  by_ : Agent
  loc : Loc
  len : Nat
  op : FlightOp
  /-- it has arrived at its home, which marks the sector (R249) -/
  arrived : Bool := false
  /-- it is accepted, which completes it for Release(comb) (R120) -/
  accepted : Bool := false
  /-- writes of the same agent numbered below these come first (`fence.ss`): performed, or accepted at least -/
  after : Nat := 0
  afterComb : Nat := 0
  /-- accesses of its comb numbered from this on come after it, once it is accepted (R120, R242) -/
  acc : Nat := 0
  /-- a transfer's write from a page with cmpr = 0, whose block of comb memory is stored 1:1 (R221, R272) -/
  raw : Bool := false
deriving DecidableEq, Repr

/-- A waiter that a home keeps for a barrier word (R285). -/
structure BarWaiter where
  core : Nat
  cx : Nat
  key : Nat
  phase : BitVec 6
deriving DecidableEq, Repr

/-- A watch that a home keeps for a sector (R293), oldest first. -/
structure WatchEnt where
  core : Nat
  cx : Nat
  sector : Nat
deriving DecidableEq, Repr

/-- A migrating thread in the arrival queue of a comb pair (R182, R185). -/
structure Packet where
  core : Nat
  thread : Ctx
deriving DecidableEq, Repr

/-- A translation through which an ephemeral page was accessed: its asid, the space and VA of the page, whether every asid has
it, the addresses of its leaf, and whether a store has reached one of them since (Stale; R230, R231). -/
structure EphMap where
  asid : W16
  page : W72
  every : Bool
  leaves : List Nat
  stale : Bool := false
deriving DecidableEq, Repr

/-- A written ephemeral page by its frame (R233-R236): the deadline, the deadline at the end of the cycle before the last
accepted write and the cycle of that write, whether it is Expired, and the sectors written since it was armed. -/
structure EphPage where
  deadline : Nat
  before : Nat
  wrote : Nat
  expired : Bool := false
  sectors : List Nat := []
  maps : List EphMap := []
deriving DecidableEq, Repr

/-- The states of an extent (R414). -/
inductive ExtState where
  | blank
  | installing
  | sealed
  | superseded
  | retired
deriving DecidableEq, Repr

/-- An extent of the installer's map (R412-R414): its range, last code, owner, accepted installs, and units programmed in
its current or last install, and digest bytes 0-31. -/
structure Extent where
  st : ExtState
  base : Nat
  len : Nat
  code : Byte := 0
  asid : W16 := 0
  installs : W32 := 0
  units : Nat := 0
  digest : BitVec 256 := 0
deriving DecidableEq, Repr

/-- A trap profile (R199). -/
structure Profile where
  shand : W64 := 0
  tdeleg0 : W64 := 0
  tdeleg1 : W64 := 0
  wdlim : W16 := 0
deriving DecidableEq, Repr

/-- A launch that the scheduler holds (R330-R339): the packet's fields, what the descriptor and the trap profile held at the
check, and how far it has come. -/
structure Launch where
  node : BitVec 58
  kernel : Nat
  /-- the unit entry, the entries by channel, the forager entry -/
  entry : W72
  entries : List (Nat × W72)
  forager : Option W72
  template : W72
  words : Nat
  ptroot : W64
  asid : W16
  profile : Profile
  k0 : W72
  k1 : W72
  k2 : W72
  delta : Byte
  count : Nat
  step : Nat
  gsize : Nat
  gw : Nat
  gangable : Bool
  matrix : Bool
  early : Bool
  dieMin : Nat
  dieMax : Nat
  nbar : Nat
  ssize : Nat
  sbase : Nat
  csize : Nat
  cbase : Nat
  share : Nat
  preds : List (BitVec 58)
  started : Bool := false
  /-- it has ended for its kernel: done has reached expect (R339) -/
  ended : Bool := false
  /-- units admitted or discarded so far, and the dies of the current step -/
  next : Nat := 0
  dies : List Nat := []
  cancelled : Bool := false
  /-- a fault record that the read of the template waits for -/
  stall : Option (Nat × Nat) := none
deriving DecidableEq, Repr

/-- What holds a queue's packet at its head (R303). -/
inductive QWait where
  | none
  /-- a FENCE, with the cycle of its last pass -/
  | fence (last : Nat)
  /-- a FENCE of which a condition never holds, since its fault has been declined (R306) -/
  | never
  /-- a MARKER whose invalidation is not complete -/
  | marker (form below : Nat) (asid : W16) (va : W72)
  /-- a packet whose action is complete while the engine's writes are not acknowledged -/
  | advance
deriving DecidableEq, Repr

/-- A registered queue (R302): its header, the cycle since which it waits to be served, whether it is ready (R308), what
holds it, whether the engine has taken the packet at its head, and a fault record that an access of that packet waits for. -/
structure Queue where
  hdr : W64
  since : Nat := 0
  ready : Bool := false
  wait : QWait := .none
  taken : Bool := false
  stall : Option (Nat × Nat) := .none
deriving DecidableEq, Repr

/-- A waiter of a promise root (R369). -/
structure PromWaiter where
  core : Nat
  cx : Nat
  cell : Nat
  tag : FillTag
deriving DecidableEq, Repr

/-- A request for a licence (R402): the core, the context that parks in `lic.acq` (8: the engine itself), exclusively or
not, and the cycle it was made. -/
structure LicReq where
  core : Nat
  cx : Nat
  excl : Bool
  since : Nat
deriving DecidableEq, Repr

/-- What happens to a held licence at the end of the holder's k-step: it stays, it passes to the twin (Passing, R401), or it
becomes Free. -/
inductive LicMove where
  | stay
  | pass
  | free
deriving DecidableEq, Repr

/-- The licence of a twin pair (R401): its holder, the mode, what the end of a k-step does, the last holder. -/
structure Lic where
  holder : Option Nat := none
  excl : Bool := false
  move : LicMove := .stay
  last : Option Nat := none
deriving DecidableEq, Repr

/-! ### Transfers (spec/17_transfer.md) -/

inductive XferKind where
  | get
  | put
  | copy
  | tile
  | getv
  /-- a COPY packet -/
  | queue
deriving DecidableEq, Repr

/-- States of a transfer (R344); a ring transfer waits for its ring between Issued and Moving. -/
inductive XferState where
  | issued
  | ring
  | moving
deriving DecidableEq, Repr

/-- A tile request that has been read, and its clipped box: low and high of each dimension (R351, R352). -/
structure TileBox where
  base : W72
  size : Nat
  ext : Vector Nat 3
  org : Vector Int 3
  stride : Vector W64 2
  lo : Vector Nat 3
  hi : Vector Nat 3
deriving DecidableEq, Repr

/-- A transfer that is not Done: who issued it on which channel instance, under which translation, what it moves. `place` is
the place of a local operand; `left` lists runs of 4-byte words, first and one past the last, that are to be moved. -/
structure Xfer where
  kind : XferKind
  st : XferState := .issued
  core : Nat
  cx : Nat
  gen : W16
  inst : Nat
  ch : BitVec 3
  id : BitVec 48
  ptroot : W64
  asid : W16
  user : Bool
  group : Nat
  src : W72
  dst : W72
  len : Nat
  place : Option Loc := none
  ring : Option Nat := none
  /-- the ring's size, and the write offset that it has given the transfer -/
  rsize : Nat := 0
  off : Nat := 0
  /-- the launch of the issuer; the bytes from the local destination to the end of the range that was checked at issue -/
  launch : Nat := 0
  room : Nat := 0
  notice : Bool := false
  /-- `xgetv`: vA, the number of its record, and the value that has been read -/
  reg : BitVec 4 := 0
  record : Nat := 0
  vec : Option (W512 × Bool) := none
  tile : Option TileBox := none
  left : List (Nat × Nat) := []
  /-- words that wait for a fault record: hive and number -/
  stalls : List (Nat × Nat × Nat) := []
  /-- the counter of a COPY packet, and its queue -/
  ctr : W72 := 0
  q : Nat := 0
  /-- a fault record, hive and number, that the read of a tile request or the write of a counter waits for, or that has
  stopped it -/
  stall : Option (Nat × Nat) := none
  /-- the cause and the VA of the error that has stopped it -/
  failed : Option (Byte × W64) := none
deriving DecidableEq, Repr

/-! ### Promise requests (spec/19_promise.md) -/

inductive PromOp where
  | pinit
  | pfill (v : W64)
  | peq
  | pget (reg : BitVec 4)
  | ptry (reg : BitVec 4)
  | pstat (reg : BitVec 4) (f : BitVec 2)
deriving DecidableEq, Repr

/-- A request at the promise agents that has no answer yet (R373): the cells as VA[63:0]. -/
structure PromReq where
  op : PromOp
  core : Nat
  cx : Nat
  gen : W16
  ptroot : W64
  asid : W16
  user : Bool
  a : W64
  b : W64 := 0
  /-- a get: the number of its record; a `pget`: sD was full, or empty under a record, before the bundle -/
  record : Nat := 0
  wasFull : Bool := false
  hadRec : Bool := false
  stall : Option (Nat × Nat) := none
  /-- the bundle's V operation has raised a cause: the request asks for its own cause alone, and changes nothing (R61) -/
  dry : Bool := false
deriving DecidableEq, Repr

/-! ### Nectar (spec/23_extent.md) -/

/-- A physical erase block (R421): its count, and whether it is retired. -/
structure NBlock where
  count : W32 := 0
  retired : Bool := false
deriving DecidableEq, Repr

/-- Who starts an install: a context of a core, or a queue with its done counter. -/
inductive Starter where
  | thread (core cx : Nat)
  | queue (q : Nat) (ctr : W72) (ptroot : W64) (asid : W16)
deriving DecidableEq, Repr

/-- An install in progress (R419): the request and the logical blocks still to erase. A finished one of a queue stays, under
a number above those of the extents, until its counter is incremented. -/
structure Install where
  by_ : Starter
  compare : Bool
  notice : Bool
  src : W72
  count : Nat
  digest : W72
  ptroot : W64
  asid : W16
  user : Bool
  erase : List Nat
  remapped : Bool := false
  cancelled : Bool := false
  stall : Option (Nat × Nat) := none
deriving DecidableEq, Repr

/-! ### Display outputs (spec/24_link.md R436-R443) -/

/-- A latched surface. -/
structure Surface where
  va : W72
  format : Byte
  stride : W32
  width : W16
  height : W16
  ptroot : W64
  asid : W16
deriving DecidableEq, Repr

/-- What the next frame of an output shows. -/
inductive View where
  | black
  | surface
  /-- the last latched surface under the H of nine words -/
  | reproject (h : Vector W32 9)
deriving DecidableEq, Repr

/-- A display output. `want` is an accepted command that takes effect at a later moment: 1 once genlock has held for a
frame. -/
structure Output where
  surf : Option Surface := none
  view : View := .black
  latched : W64 := 0
  blanks : W64 := 0
  /-- the highest homography seq that has been read, and its H (R438) -/
  hseq : Option W64 := none
  h : Vector W32 9 := Vector.replicate 9 0
  /-- a fault record, hive and number, that the engine's look at a published frame waits for -/
  stall : Option (Nat × Nat) := .none
  st : BitVec 2 := 0
  want : Bool := false
deriving DecidableEq, Repr

/-! ### Memory -/

/-- All bytes of the machine in one list: physical addresses below 2^52, then scratchpads, comb memory and constant banks
(log 2). Addresses rise strictly and no listed byte is zero, which is what an unlisted address reads as. `pois` lists
the addresses of poisoned bytes, rising. -/
structure Memory where
  cells : List Host.Cell := []
  pois : List Nat := []
deriving DecidableEq, Repr

/-- Strictly rising. -/
def rising : List Nat → Bool
  | a :: b :: l => a < b && rising (b :: l)
  | _ => true

/-- The canonical form of memory. -/
def Memory.wf (m : Memory) : Bool :=
  rising (m.cells.map Prod.fst) && m.cells.all (fun c => c.2 != 0) && rising m.pois

/-! ### Pre-emption -/

/-- A comb image (R212), by a serial number, which the bytes of its reserved parts follow (log 46): what those parts hold, the
physical address of its first byte as it was written, the slot headers by their offsets, the reserved parts as offset and
length, and the engines' writes that were pending (R408). -/
structure Image where
  at_ : Nat
  heads : List (Nat × Nat) := []
  parts : List (Nat × Nat) := []
  pending : List Flight := []
  comb : Nat
  cores : Sparse Core
  rest : Comb
  groups : Sparse Group
  mem : Memory
  /-- cores that are written whole; of the others only what R326 names -/
  whole : List Nat
  /-- watches that a restore registers again (R295) -/
  watches : List WatchEnt := []
deriving DecidableEq, Repr

/-! ### The machine -/

structure State where
  cycle : W64 := 0
  /-- whose slot comes next in this cycle: a global core number -/
  turn : Nat := 0
  /-- events that fall in this cycle, in order -/
  due : List Event := []
  /-- events that come at some later moment, in no fixed order -/
  agenda : List Event := []
  /-- the event that executes -/
  event : Event := .pctlGo
  /-- free choices made so far -/
  choices : Nat := 0
  /-- free choices drawn ahead of a run, the next one first: none after reset (log 1) -/
  drawn : List Nat := []
  /-- the thread whose operation executes: global core number, context -/
  sel : Nat × Nat := (0, 0)
  /-- sequence numbers given to accesses and other requests so far -/
  seq : Nat := 1
  mem : Memory := {}
  cores : Sparse Core := []
  /-- w0-w7 of the twin pairs, by pair number (R174) -/
  pairs : Sparse (Vector GCell 8) := []
  combs : Sparse Comb := []
  hive0 : Hive := {}
  hive1 : Hive := {}
  flights : List Flight := []
  waiters : List BarWaiter := []
  watches : List WatchEnt := []
  arrivals : Sparse (List Packet) := []
  /-- ephemeral pages that are not Unwritten, by frame number -/
  ephem : Sparse EphPage := []
  extents : Sparse Extent := []
  /-- home slices whose pseudo-channel is degraded (R448), those to which firmware brings a spare, slices whose data a
  take-over lost, with the sectors written since (R449), and DRAM stacks, hive × 3 + j, that repair replay stalls (R447) -/
  degraded : List Nat := []
  bringing : List Nat := []
  lost : List Nat := []
  relit : List Nat := []
  replaying : List Nat := [0, 1, 2, 3, 4, 5]
  /-- stacks whose spare channels have taken over, one entry for each (R15) -/
  sparesUsed : List Nat := []
  groups : Sparse Group := []
  /-- fault records, hive and number, that the driver has declined, with cause and page, for the engine accesses that
  wait for them -/
  declined : List (Nat × Nat × Byte × W72) := []
  /-- pages of system space, by hive, on which a device structure's access has had its fault declined (R228) -/
  sysBad : List (Nat × W72) := []
  sptroot : W64 := 0
  /-- the division of each hive's DRAM that firmware has made: Lint and S (R218; log 4) -/
  lint : Nat := 8 * 2 ^ 30
  lsize : Nat := 4 * 2 ^ 30
  /-- psave, pcomb0, pcomb1, pctl (R210), and the combs that a request halts -/
  psave : W64 := 0
  pcomb0 : W64 := 0
  pcomb1 : W64 := 0
  pctl : BitVec 4 := 0
  prest : W64 := 0
  halt : List Nat := []
  /-- `cycle` at the halt of the request (R212) -/
  haltAt : W64 := 0
  /-- ktab, etab, dtab, qhdr (R327, R412, R437, R302), the registered queues, the launches, messages that the network
  holds (R315) -/
  ktab : W64 := 0
  etab : W64 := 0
  dtab : W64 := 0
  qhdr : W64 := 0
  queues : Sparse Queue := []
  launches : Sparse Launch := []
  held : List Msg := []
  /-- increments of node counters, of done or of trig, that wait for the walk to a record (R250) -/
  adds : List (Bool × BitVec 58 × Nat) := []
  /-- waiters of promise roots (R369), requests for licences (R402) -/
  promises : List PromWaiter := []
  promReqs : Sparse PromReq := []
  licReqs : List LicReq := []
  /-- licences by pair, tile commands that travel to an engine -/
  licences : Sparse Lic := []
  cmds : List (Nat × Cmd) := []
  /-- transfers that are not Done, by number; installs by extent -/
  xfers : Sparse Xfer := []
  installs : Sparse Install := []
  /-- extents and outputs whose view in memory firmware is yet to write, at bring-up or after a move of their tables (R412,
  R439, R445) -/
  extShow : List Nat := []
  outShow : List Nat := []
  /-- erase blocks by physical id, and logical blocks that a spare holds (R411, R421) -/
  nblocks : Sparse NBlock := []
  remaps : Sparse Nat := []
  /-- display outputs, and whether the mux selects the Z72 (R442) -/
  outs : Vector Output 4 := Vector.replicate 4 {}
  mux : Bool := false
  /-- comb images that hold Saved state, those that have been restored, and the combs whose state the request in progress has
  not yet written -/
  images : Sparse Image := []
  oldImages : Sparse Image := []
  saving : List Nat := []
  /-- 0 booting, 1 running, 2 image refused (R445) -/
  boot : BitVec 2 := 0
  /-- fills delivered to saved threads (R214) -/
  savedFills : List (FillTag × W512 × Bool) := []
  /-- pgrant, preq, pmeas (R433), ticks without a grant, samples above and at or below the clamp's bounds (R435) -/
  grant : W16 := 1500
  grantSeq : W16 := 0
  preq : W16 := 1500
  /-- the requests sent to the platform, one at each tick, and the last of them (R433) -/
  asked : Nat := 0
  request : W16 := 0
  pmeas : W16 := 0
  clamp : Bool := false
  missed : Nat := 0
  above : Nat := 0
  below : Nat := 0
  /-- pwrctl (R444): kind of the last start, dref; whether main power is off (dormant) -/
  startKind : BitVec 2 := 0
  dref : Bool := false
  dormant : Bool := false
  /-- the leader's context before the bundle that a gang's followers now issue (R279) -/
  lead : Option Ctx := none
  /-- 0x114-0x116 and the notices that wait in their sources (R324) -/
  nring : W64 := 0
  nhead : W64 := 0
  ntail : W64 := 0
  notices : List Notice := []
  /-- 0x11A (R430), MSI-X messages sent by vector, and vector 0 held until the driver catches up (R432) -/
  hlink : W64 := 0x600
  msix : Vector Nat 5 := Vector.replicate 5 0
  msiHeld : Bool := false
deriving DecidableEq, Repr

/-- The machine right after reset: a cold start is due (R445). -/
def State.reset : State := { due := [.start 0] }

end Sys2Proof.Machine
end

