-- ==== Sys2Proof/Machine/Ops.lean ====
section
/-! DEFINITION. The named operations over the state: keyed records, memory, registers, traps, the end of a bundle,
translation, accesses and waits. -/

namespace Sys2Proof.Machine

abbrev Outcome := Host.Outcome State Fault Refusal

/-! ### Keyed records -/

/-- The record of a key. -/
def sget {α : Type} (k : Nat) : Sparse α → Option α
  | [] => none
  | (j, x) :: l => if j = k then some x else sget k l

/-- The records with that of one key set, keys rising. -/
def sset {α : Type} (k : Nat) (x : α) : Sparse α → Sparse α
  | [] => [(k, x)]
  | (j, y) :: l => if k < j then (k, x) :: (j, y) :: l else if k = j then (k, x) :: l else (j, y) :: sset k x l

/-- The records without that of one key. -/
def sdel {α : Type} (k : Nat) (l : Sparse α) : Sparse α := l.filter fun e => e.1 != k

def State.core (s : State) (n : Nat) : Core := (sget n s.cores).getD {}
def State.setCore (s : State) (n : Nat) (c : Core) : State := { s with cores := sset n c s.cores }
def State.modCore (s : State) (n : Nat) (f : Core → Core) : State := s.setCore n (f (s.core n))

/-- Context x of core n (x is taken modulo 8). -/
def State.ctx (s : State) (n x : Nat) : Ctx := (s.core n).ctxs[x % 8]'(Nat.mod_lt _ (by decide))
def State.setCtx (s : State) (n x : Nat) (c : Ctx) : State :=
  s.modCore n fun k => { k with ctxs := k.ctxs.set (x % 8) c (Nat.mod_lt _ (by decide)) }
def State.modCtx (s : State) (n x : Nat) (f : Ctx → Ctx) : State := s.setCtx n x (f (s.ctx n x))

/-- The context whose operation executes. -/
def State.here (s : State) : Ctx := s.ctx s.sel.1 s.sel.2
def State.modHere (s : State) (f : Ctx → Ctx) : State := s.modCtx s.sel.1 s.sel.2 f

def State.comb (s : State) (n : Nat) : Comb := (sget n s.combs).getD {}
def State.modComb (s : State) (n : Nat) (f : Comb → Comb) : State := { s with combs := sset n (f (s.comb n)) s.combs }
def State.hive (s : State) (h : Nat) : Hive := if h = 0 then s.hive0 else s.hive1
def State.modHive (s : State) (h : Nat) (f : Hive → Hive) : State :=
  if h = 0 then { s with hive0 := f s.hive0 } else { s with hive1 := f s.hive1 }
def State.pair (s : State) (p : Nat) : Vector GCell 8 := (sget p s.pairs).getD (Vector.replicate 8 {})

/-- A free choice among k possibilities: the next one drawn, else a value that nothing fixes. -/
def State.pick (s : State) (k : Nat) : Nat × State :=
  match s.drawn with
  | n :: l => (if k ≤ 1 then 0 else n % k, { s with drawn := l })
  | [] => (if k ≤ 1 then 0 else Config.choose s.choices % k, { s with choices := s.choices + 1 })

/-- Cycle as a number. -/
def State.now (s : State) : Nat := s.cycle.toNat

/-- Puts an event into the agenda. -/
def State.later (s : State) (e : Event) : State := { s with agenda := s.agenda ++ [e] }

/-- The event that executes comes again where something for it waits. -/
def State.unless (s : State) (waits : Bool) (k : Outcome) : Outcome := if waits then .next (s.later s.event) else k

/-- A fresh sequence number. -/
def State.fresh (s : State) : State := { s with seq := s.seq + 1 }

/-! ### Names of units (spec/01_machine.md R17-R18) -/

/-- Hive of a core. -/
def hiveOf (core : Nat) : Nat := core / 1024
/-- Comb 0-127 of a core: die × 32 + comb, die = hive × 2 + twin bit. -/
def combOf (core : Nat) : Nat := (core / 1024 * 2 + core / 512 % 2) * 32 + core / 16 % 32
/-- Core n of comb c. -/
def coreOfComb (c n : Nat) : Nat := c / 64 * 1024 + c / 32 % 2 * 512 + c % 32 * 16 + n
/-- The twin of a core. -/
def twinOf (core : Nat) : Nat := if core / 512 % 2 = 0 then core + 512 else core - 512
/-- The twin pair of a core, numbered by its lower core's place: hive × 512 + low nine bits. -/
def pairOf (core : Nat) : Nat := core / 1024 * 512 + core % 512
/-- The comb pair of a core (R18). -/
def combPairOf (core : Nat) : Nat := core / 1024 * 32 + core / 16 % 32

/-! ### Memory (log 2) -/

/-- Key of an offset in a core's scratchpad. -/
def scratchKey (core o : Nat) : Nat := 2 ^ 52 + core * 2 ^ 18 + o
/-- Key of an offset in a comb's memory window. -/
def combKey (comb o : Nat) : Nat := 2 ^ 53 + comb * 2 ^ 24 + o
/-- Key of a byte of the barrier slots of a group that has no comb memory (R284). -/
def slotKey (comb gid o : Nat) : Nat := 2 ^ 55 + comb * 2 ^ 40 + gid % 2 ^ 33 * 128 + o
/-- Key of an offset in a comb's constant bank. -/
def bankKey (comb o : Nat) : Nat := 2 ^ 54 + comb * 2 ^ 10 + o

def getCell (a : Nat) : List Host.Cell → Byte
  | [] => 0
  | c :: l => if c.1 = a then c.2 else getCell a l

def putCell (a : Nat) (b : Byte) : List Host.Cell → List Host.Cell
  | [] => if b = 0 then [] else [(a, b)]
  | c :: l =>
    if a < c.1 then (if b = 0 then c :: l else (a, b) :: c :: l)
    else if a = c.1 then (if b = 0 then l else (a, b) :: l)
    else c :: putCell a b l

/-- Adds an address to a rising list. -/
def addMark (a : Nat) : List Nat → List Nat
  | [] => [a]
  | x :: l => if a < x then a :: x :: l else if a = x then x :: l else x :: addMark a l

/-- Takes an address out of a list. -/
def dropMark (a : Nat) (l : List Nat) : List Nat := l.filter fun x => x != a

/-- The byte at an address. -/
def Memory.byte (m : Memory) (a : Nat) : Byte := getCell a m.cells

/-- n bytes from an address as a little-endian number (R2). -/
def Memory.read (m : Memory) (a : Nat) : Nat → Nat
  | 0 => 0
  | n + 1 => (m.byte a).toNat + 256 * Memory.read m (a + 1) n

/-- Whether one of n bytes from an address is poisoned. -/
def Memory.poisoned (m : Memory) (a n : Nat) : Bool := m.pois.any fun x => a ≤ x && x < a + n

/-- Writes a byte, which is no longer poisoned (R208). -/
def Memory.put (m : Memory) (a : Nat) (b : Byte) : Memory := { cells := putCell a b m.cells, pois := dropMark a m.pois }

/-- Poisons a byte; its value is kept as zero (log 6). -/
def Memory.spoil (m : Memory) (a : Nat) : Memory := { cells := putCell a 0 m.cells, pois := addMark a m.pois }

def Memory.putAll (m : Memory) : List Host.Cell → Memory
  | [] => m
  | c :: l => Memory.putAll (m.put c.1 c.2) l

def Memory.spoilAll (m : Memory) : List Nat → Memory
  | [] => m
  | a :: l => Memory.spoilAll (m.spoil a) l

/-- The n bytes of a number from an address on, little-endian. -/
def cellsOf (a v : Nat) : Nat → List Host.Cell
  | 0 => []
  | n + 1 => (a, BitVec.ofNat 8 v) :: cellsOf (a + 1) (v / 256) n

/-- n zero bytes from an address on: nothing is listed there any more. -/
def Memory.clear (m : Memory) (a n : Nat) : Memory :=
  { cells := m.cells.filter fun c => c.1 < a || a + n ≤ c.1, pois := m.pois.filter fun x => x < a || a + n ≤ x }

def Memory.write (m : Memory) (a n v : Nat) : Memory := m.putAll (cellsOf a v n)

def State.rd (s : State) (a n : Nat) : Nat := s.mem.read a n
def State.wr (s : State) (a n v : Nat) : State := { s with mem := s.mem.write a n v }

/-! ### Registers (R95-R98, R133, R162) -/

/-- The sign extension of bit 63 into the space byte (R98). -/
def sx72 (x : W64) : W72 := x.signExtend 72
/-- Bits [63:0]. -/
def lo64 (x : W72) : W64 := x.extractLsb' 0 64
/-- The space byte. -/
def spaceOf (x : W72) : Byte := x.extractLsb' 64 8
/-- A space byte over 64 bits. -/
def mkVA (sp : Byte) (x : W64) : W72 := sp ++ x

/-- A scalar register of a context. -/
def Ctx.sreg (c : Ctx) (r : BitVec 4) : SCell := c.s[r.toNat]'r.isLt
def Ctx.vreg (c : Ctx) (r : BitVec 4) : VCell := c.v[r.toNat]'r.isLt
/-- A predicate; p0 is true (R105). -/
def Ctx.preg (c : Ctx) (r : BitVec 3) : PCell := if r = 0 then ⟨true, false⟩ else c.p.getD (r.toNat - 1) {}
/-- A lane mask; m0 is all ones (R133). -/
def Ctx.mreg (c : Ctx) (r : BitVec 3) : MCell := if r = 0 then ⟨0xFFFF, false⟩ else c.m.getD (r.toNat - 1) {}

/-- Writes a scalar register's value and poison; full or empty stays. -/
def Ctx.setS (c : Ctx) (r : BitVec 4) (x : W72) (pois : Bool) : Ctx :=
  { c with s := c.s.set r.toNat { c.sreg r with val := if pois then 0 else x, pois := pois } r.isLt }
def Ctx.setV (c : Ctx) (r : BitVec 4) (x : W512) (pois : Bool) : Ctx :=
  { c with v := c.v.set r.toNat { c.vreg r with val := if pois then 0 else x, pois := pois } r.isLt }
/-- Marks a scalar register full or empty. -/
def Ctx.markS (c : Ctx) (r : BitVec 4) (full : Bool) : Ctx :=
  { c with s := c.s.set r.toNat { c.sreg r with full := full } r.isLt }
def Ctx.markV (c : Ctx) (r : BitVec 4) (full : Bool) : Ctx :=
  { c with v := c.v.set r.toNat { c.vreg r with full := full } r.isLt }
def Ctx.setP (c : Ctx) (r : BitVec 3) (x pois : Bool) : Ctx :=
  if r = 0 then c else { c with p := c.p.setIfInBounds (r.toNat - 1) ⟨x && !pois, pois⟩ }
def Ctx.setM (c : Ctx) (r : BitVec 3) (x : W16) (pois : Bool) : Ctx :=
  if r = 0 then c else { c with m := c.m.setIfInBounds (r.toNat - 1) ⟨if pois then 0 else x, pois⟩ }

/-- Privileged mode (R198). -/
def Ctx.priv (c : Ctx) : Bool := c.sstatus.extractLsb' 0 1 == 1
/-- The user handler is running. -/
def Ctx.uht (c : Ctx) : Bool := c.sstatus.extractLsb' 1 1 == 1
/-- Away from the origin core: a thread that has migrated (R186). A follower has its leader's origin (R277) and is not
away while it stands on the core that was reserved for it (log 21). -/
def awayAt (core : Nat) (c : Ctx) : Bool := c.origin.toNat != core && c.station != some core

/-- The guard of an S operation: the predicate's poison, and whether the operation takes effect (R48). -/
def Ctx.guard (c : Ctx) (g : BitVec 4) : PCell :=
  let p := c.preg (g.extractLsb' 0 3)
  if g.extractLsb' 3 1 = 0 then p else ⟨!p.val, p.pois⟩

/-! ### Notices (spec/15_queue.md R324) -/

/-- Slots of the notice ring. -/
def ringSlots (nring : W64) : Nat := 64 * 2 ^ (nring.extractLsb' 8 4).toNat

/-! ### Homes (R181, R218, R219) -/

/-- PA[51:48]. -/
def paTop (pa : Nat) : Nat := pa / 2 ^ 48

/-- The home slice, as its global number, of a physical address: host and Nectar as R181 says. R219's n passes 31 at an
offset at or above the page limit, which a 1 TiB leaf can reach; the model takes n mod 32 there (log 67). -/
def State.homeOf (s : State) (pa : Nat) : Nat :=
  let top := paTop pa
  let o := pa % 2 ^ 48
  let inHive (h o : Nat) : Nat :=
    h * 1152 + (if o < s.lint then o / 256 % 1152
      else 36 * ((o - s.lint) / s.lsize % 32) + o / 256 % 36)
  if top ≤ 1 then inHive top o
  else if top = 2 then
    -- the slice of the line's place in the staging cache of the stack's hive (R416; log 11)
    let line := o / 2 ^ 16
    let b := o / 2 ^ 24
    let h := b % 4 / 2
    h * 1152 + line % 1152
  else 0

/-! ### Marks (R249, R447) -/

/-- The DRAM stack, hive × 3 + j, of a slice (R15). -/
def stackOfSlice (slice : Nat) : Nat := slice / 1152 * 3 + slice % 1152 / 384

/-- Two byte ranges share a 32-byte sector. -/
def meets (a na b nb : Nat) : Bool := a / 32 ≤ (b + nb - 1) / 32 && b / 32 ≤ (a + na - 1) / 32

/-- The sectors of a place that an arrived write of another agent marks (R249). -/
def State.marked (s : State) (me : Agent) (l : Loc) (n : Nat) : Bool :=
  (l.win == .glob || l.win == .combMem) &&
    s.flights.any fun f => f.arrived && f.by_ != me && (match f.op with | .bytes .. => true | .ared .. => false) &&
      meets f.loc.key f.len l.key n

/-- An access of a home slice stalls behind repair replay (R447), or while firmware brings in a spare for it (R449). -/
def State.stalled (s : State) (l : Loc) : Bool :=
  l.win == .glob && paTop l.key ≤ 1 &&
    (s.replaying.contains (stackOfSlice (s.homeOf l.key)) || s.bringing.contains (s.homeOf l.key))

/-- A page of a leaf kind at a place is behind a degraded pseudo-channel to which no spare is being brought (R448, R449). -/
def State.behindDegraded (s : State) (kind key : Nat) : Bool :=
  (kind = 0 || kind = 3) && s.degraded.contains (s.homeOf key) && !s.bringing.contains (s.homeOf key)

/-! ### Translation tables (spec/10_page.md R220-R225) -/

def leafFrame (e : BitVec 128) : Nat := (e.extractLsb' 64 36).toNat * 2 ^ 16
def leafBit (e : BitVec 128) (n : Nat) : Bool := e.getLsbD n
/-- [11:10]: 0 DRAM, 1 Nectar, 2 host, 3 ephemeral. -/
def leafKind (e : BitVec 128) : Nat := (e.extractLsb' 10 2).toNat
def leafClev (e : BitVec 128) : Nat := (e.extractLsb' 12 2).toNat
def leafWpol (e : BitVec 128) : Nat := (e.extractLsb' 14 2).toNat
/-- 2^(16 + 12 × (4 − level)) bytes. -/
def pageSize (level : Nat) : Nat := 2 ^ (16 + 12 * (4 - level))

/-- One past the highest DRAM offset of a hive that pages may use (R218). -/
def State.pageLimit (s : State) : Nat := s.lint + 32 * s.lsize

/-- A frame that no page may have: a reserved range, or DRAM at or above the page limit (R218). -/
def State.badFrame (s : State) (pa : Nat) : Bool :=
  let top := pa / 2 ^ 48
  if top ≤ 1 then s.pageLimit ≤ pa % 2 ^ 48 else !(top == 2 || (4 ≤ top && top ≤ 7))

/-- Malformed(e, level) of R224. -/
def State.malformedEntry (s : State) (e : BitVec 128) (level : Nat) : Bool :=
  let frame := leafFrame e
  let top := frame / 2 ^ 48
  let off := frame % 2 ^ 48
  let kind := leafKind e
  let place := leafBit e 20
  let pair := (e.extractLsb' 21 5).toNat
  let life := (e.extractLsb' 28 4).toNat
  e.extractLsb' 100 28 != 0 || s.badFrame frame ||
  if leafBit e 1 then
    level < 2 || e.extractLsb' 6 4 != 0 || leafClev e == 3 || leafWpol e == 3 ||
    frame % pageSize level != 0 ||
    (if kind == 0 || kind == 3 then !(top ≤ 1) else if kind == 1 then top != 2 else !(4 ≤ top && top ≤ 7)) ||
    (if kind == 0 || kind == 3 then
      (if place then off < s.lint || s.lsize == 0 || (off - s.lint) / s.lsize != pair else s.lint ≤ off || pair != 0)
     else place || pair != 0) ||
    (leafBit e 26 && kind != 0) || (leafBit e 27 && kind == 3) ||
    (if kind == 3 then 13 ≤ life || level != 4 else life != 0)
  else level == 4 || e.extractLsb' 2 30 != 0

/-- What a walk finds (R224). -/
inductive WalkRes where
  | leaf (level : Nat) (e : BitVec 128)
  | invalid (level : Nat)
  | malformed
  | noPhys
deriving DecidableEq, Repr

/-- The levels of a walk that are left, the node's base and the VA. The spec names no outcome of a poisoned entry: its
bytes are kept as zero (log 6), so it reads as an invalid one (log 66). -/
def State.walkFrom (s : State) (va : W72) (base : Nat) : Nat → WalkRes
  | 0 => .malformed
  | fuel + 1 =>
    let level := 4 - fuel
    let idx := if level = 0 then (spaceOf va).toNat else (lo64 va).toNat / 2 ^ (64 - 12 * level) % 4096
    let top := base / 2 ^ 48
    if top = 3 || 8 ≤ top then .noPhys
    else
      let e := BitVec.ofNat 128 (s.rd (base + idx * 16) 16)
      if !leafBit e 0 then .invalid level
      else if s.malformedEntry e level then .malformed
      else if leafBit e 1 then .leaf level e
      else State.walkFrom s va (leafFrame e) fuel

/-- The root that translates a space byte (R222, R223). -/
def State.rootFor (s : State) (ptroot : W64) (sp : Byte) : Nat :=
  ((if sp.toNat < 0x80 then ptroot else s.sptroot).extractLsb' 12 40).toNat * 4096

def State.walkPage (s : State) (ptroot : W64) (va : W72) : WalkRes := s.walkFrom va (s.rootFor ptroot (spaceOf va)) 5

/-- The physical address of a VA under a leaf. -/
def leafAddr (level : Nat) (e : BitVec 128) (va : W72) : Nat := leafFrame e + (lo64 va).toNat % pageSize level

/-- The first byte of the page that holds a VA. -/
def pageBase (level : Nat) (va : W64) : W64 := BitVec.ofNat 64 (va.toNat / pageSize level * pageSize level)

/-- The kinds of access that R225 tells apart. -/
inductive Access where
  | load
  | store
  | atomic
  | fetch
deriving DecidableEq, Repr

/-- The cause of a permission that a leaf does not give (R225). -/
def denied (user : Bool) (sp : Byte) (e : BitVec 128) (k : Access) : Option Byte :=
  let u := user && (!leafBit e 5 || 0x80 ≤ sp.toNat)
  -- a write to a Nectar-kind page traps with 0x27 whatever W holds (R221)
  let nectar := leafKind e == 1
  match k with
  | .load => if u || !leafBit e 2 then some 0x21 else none
  | .store => if u || !(leafBit e 3 || nectar) then some 0x22 else none
  | .atomic => if u || !(leafBit e 3 || nectar) then some 0x22 else if !leafBit e 2 then some 0x21 else none
  | .fetch => if u || !leafBit e 4 then some 0x23 else none

/-- The addresses of the entries that a walk reads. -/
def State.walkPath (s : State) (va : W72) (base : Nat) : Nat → List Nat
  | 0 => []
  | fuel + 1 =>
    let level := 4 - fuel
    let idx := if level = 0 then (spaceOf va).toNat else (lo64 va).toNat / 2 ^ (64 - 12 * level) % 4096
    let a := base + idx * 16
    let e := BitVec.ofNat 128 (s.rd a 16)
    a :: (if leafBit e 0 && !leafBit e 1 then State.walkPath s va (leafFrame e) fuel else [])

/-- An entry that a walk reads is being written at its home, or its home stalls: the walker waits (R250). -/
def State.walkWaits (s : State) (va : W72) (base : Nat) : Bool :=
  (s.walkPath va base 5).any fun a =>
    let l : Loc := ⟨.glob, a, 0, 0, 4, 0⟩
    s.marked .installer l 16 || s.stalled l

/-! ### TLBs (R226) -/

def TlbEnt.hits (t : TlbEnt) (asid : W16) (va : W72) : Bool :=
  (t.asid == asid || leafBit t.leaf 16 || 0x80 ≤ t.space.toNat) && t.space == spaceOf va &&
    t.page == pageBase t.level (lo64 va)

/-- The translation an entry list holds. -/
def tlbFind (l : List TlbEnt) (asid : W16) (va : W72) : Option TlbEnt := l.find? fun t => t.hits asid va

/-! ### Structures of the device in system space (R223, R227) -/

/-- The page of a VA as a key: space byte and VA[63:16]. -/
def pageKey (va : W72) : W72 := mkVA (spaceOf va) (lo64 va &&& ~~~(0xFFFF : W64))

/-- A miss joins the walk of its key in a hive, or starts one. -/
def State.joinWalk (s : State) (h : Nat) (core : Option Nat) (engine : Bool) (ptroot : W64) (asid : W16) (va : W72) : State :=
  let key := pageKey va
  if (s.hive h).walks.any (fun w => w.asid == asid && w.page == key) then
    s.modHive h fun v => { v with walks := v.walks.map fun w =>
      if w.asid == asid && w.page == key then { w with engine := w.engine || engine } else w }
  else
    let w : Walk := { id := s.seq, asid := asid, page := key, ptroot := ptroot, core := core,
                      engine := engine }
    ((s.fresh.modHive h fun v => { v with walks := v.walks ++ [w] }).later (.pageWalk h s.seq))

/-- The translation that a hive's engines hold for a structure of the device. -/
def State.sysLook (s : State) (h : Nat) (va : W64) : Option TlbEnt := tlbFind (s.hive h).etlb 0 (mkVA 0x80 va)

/-- An access to a structure waits: for the walk, or for the driver's answer to its fault (R227, R228). -/
def State.sysWaits (s : State) (h : Nat) (va : W64) : Bool :=
  (s.sysLook h va).isNone && !s.sysBad.contains (h, pageKey (mkVA 0x80 va))

/-- The address of an object the device reads or writes itself, where the engines of the hive hold its translation (R223). -/
def State.sysAddr (s : State) (h : Nat) (va : W64) : Option Nat :=
  (s.sysLook h va).map fun t => leafAddr t.level t.leaf (mkVA 0x80 va)

/-- The walk of a structure's page is asked for (R227). -/
def State.sysWalk (s : State) (h : Nat) (va : W64) : State := s.joinWalk h none true 0 0 (mkVA 0x80 va)

/-! ### Writes of the device (R295, R383, R449) -/

/-- Bytes that the spec leaves undefined, as a number. -/
def State.junkBytes (s : State) (n : Nat) : Nat × State :=
  ((List.range n).foldl (fun v i => v + 256 ^ i * (Config.junk (64 * s.choices + i)).toNat) 0,
   { s with choices := s.choices + 1 })

/-- Watches on a sector are told of a write (R295). -/
def State.wakeWatch (s : State) (w : WatchEnt) (code : Nat) : State :=
  s.modCtx w.core w.cx fun c =>
    if c.st = .parked ∧ (match c.wait with | .mwait _ => true | _ => false) = true then
      -- the first cause of a cycle counts
      (if c.stage = .acted 1 then { c with stage := .answered (BitVec.ofNat 512 code) false } else c)
    else if c.watchPending = 0 then { c with watchPending := code } else c

def State.wakeSectors (s : State) (key n : Nat) : State :=
  (s.watches.filter fun w => meets (32 * w.sector) 32 key n).foldl (fun s w => s.wakeWatch w 1) s

/-- A write other than a promise agent's that reaches a root with waiters fills them with poison (R383). -/
def State.spoilWaiters (s : State) (key n : Nat) : State :=
  let hit (w : PromWaiter) : Bool := w.cell < key + n && key < w.cell + 16
  (s.promises.filter hit).foldl (fun s w => s.later (.remoteFill w.tag 0 true))
    { s with promises := s.promises.filter fun w => !hit w }

/-- What a write of bytes sets off. -/
def State.wakeWatches (s : State) (key n : Nat) : State := (s.wakeSectors key n).spoilWaiters key n

/-- A sector whose contents are lost takes undefined bytes before its first write. -/
def State.freshSector (s : State) (sector : Nat) : State :=
  let j := s.junkBytes 32
  j.2.wr (32 * sector) 32 j.1

/-- The sectors of a byte range. -/
def sectorsOf (key n : Nat) : List Nat := (List.range ((key + n - 1) / 32 - key / 32 + 1)).map fun i => key / 32 + i

/-- A write brings back the sectors that it reaches of a slice whose data a take-over lost (R449). -/
def State.relight (s : State) (key n : Nat) : State :=
  if paTop key ≤ 1 && s.lost.contains (s.homeOf key) then
    let new := (sectorsOf key n).filter fun x => !s.relit.contains x
    let s := new.foldl (fun s x => s.freshSector x) s
    { s with relit := new ++ s.relit }
  else s

/-- A sector of a slice whose data a take-over lost, not written since (R449). -/
def State.lostSector (s : State) (key : Nat) : Bool :=
  paTop key ≤ 1 && s.lost.contains (s.homeOf key) && !s.relit.contains (key / 32)

/-- A write of a device structure at its home, at once. -/
def State.poke (s : State) (a n v : Nat) : State := ((s.relight a n).wr a n v).wakeWatches a n

/-- The 32 bytes of a notice (R325). -/
def Notice.bits (n : Notice) : Nat :=
  n.kind.toNat + 2 ^ 8 * n.cause.toNat + 2 ^ 16 * n.source.toNat + 2 ^ 32 * n.cx.toNat + 2 ^ 64 * n.a.toNat +
    2 ^ 128 * n.b.toNat + 2 ^ 192 * n.stamp.toNat

/-- The slot of the ring that the next notice goes into. -/
def State.noticeSlot (s : State) : W64 :=
  s.nring &&& ~~~(0xFFF : W64) + BitVec.ofNat 64 (32 * (s.ntail.toNat % ringSlots s.nring))

/-- Writes waiting notices while the ring is enabled and has room (R324). -/
def State.flushNotices (s : State) : Nat → State
  | 0 => s
  | fuel + 1 =>
    match s.notices with
    | [] => s
    | n :: l =>
      if !s.nring.getLsbD 0 || ringSlots s.nring ≤ (s.ntail - s.nhead).toNat then s
      else
        match s.sysAddr 0 s.noticeSlot with
        | none => s
        | some a =>
          if s.stalled ⟨.glob, a, 0, 0, 4, 0⟩ then s else
          -- MSI-X vector 0 (R432)
          let send := s.ntail == s.nhead && !s.msiHeld
          State.flushNotices
            { s.poke a 32 n.bits with
              ntail := s.ntail + 1, notices := l, msiHeld := s.msiHeld || send,
              msix := if send then s.msix.set 0 (s.msix[0] + 1) else s.msix } fuel

/-- Posts a notice to the driver. -/
def State.notify (s : State) (n : Notice) : State :=
  { s with notices := s.notices ++ [{ n with stamp := s.cycle }] }.flushNotices (s.notices.length + 1)

/-! ### Traps (spec/08_traps.md R196-R208) -/

/-- Causes but those that R202 marks as not delegable. -/
def delegable (c : Byte) : Bool :=
  let n := c.toNat
  !(n == 6 || (0x20 ≤ n && n ≤ 0x23) || n == 0x2D || n == 0x30 || (0x60 ≤ n && n ≤ 0x63) || (0x70 ≤ n && n ≤ 0x74))

/-- The bits of `tdeleg0` and `tdeleg1` that are not read-only (R197). -/
def delegMask (base : Nat) : W64 :=
  BitVec.ofNat 64 ((List.range 64).foldl (fun a i => if delegable (BitVec.ofNat 8 (base + i)) then a + 2 ^ i else a) 0)

/-- Whether a context's profile delegates a cause. -/
def Ctx.delegates (c : Ctx) (code : Byte) : Bool :=
  delegable code && (if code.toNat < 64 then c.tdeleg0.getLsbD code.toNat else c.tdeleg1.getLsbD (code.toNat - 64))

/-- A context at a bundle boundary, with nothing in hand. -/
def Ctx.boundary (c : Ctx) : Ctx :=
  { c with cur := none, paid := false, stage := .fresh, vres := .none, places := [], replay := none }

/-- TAKING A TRAP: delivery of a cause with its value, the trap point and the word there (R200). In a gang the member
leaves it (R280). A cause raised synchronously in privileged mode is a double trap: the thread stops for good and the
driver hears of it (R207). -/
def Ctx.deliver (c : Ctx) (async : Bool) (code : Byte) (val : W64) (p : W72) (word : W64) : Ctx :=
  let c := { c.boundary with gang := none, gangid := 0 }
  let tag : Byte := (if async then 0x80 else 0) + code
  if c.priv && !async then { c with st := .parked, wait := .stop }
  else if c.delegates code && c.thand.getLsbD 0 && !c.uht && !c.priv then
    { c with
      tcause := tag, tval := val, tpc := lo64 p, tword := word, userLoops := (c.loop0, c.loop1),
      loop0 := { c.loop0 with active := false }, loop1 := { c.loop1 with active := false },
      sstatus := c.sstatus ||| 2, pc := mkVA (spaceOf c.pc) (c.thand &&& ~~~(3 : W64)), via := none, landed := true,
      st := .ready, wait := .none }
  else
    { c with
      scause := tag, sval := val, spc := lo64 p, sword := word, systemLoops := (c.loop0, c.loop1),
      loop0 := { c.loop0 with active := false }, loop1 := { c.loop1 with active := false },
      sstatus := (c.sstatus.extractLsb' 1 1) ++ (c.sstatus.extractLsb' 0 1) ++ (1 : BitVec 2),
      pc := mkVA (spaceOf c.pc) (c.shand &&& ~~~(3 : W64)), via := none, landed := true, st := .ready, wait := .none }

/-- Delivery at a context of the machine; a double trap posts the notice of R207. -/
def State.deliver (s : State) (core cx : Nat) (async : Bool) (code : Byte) (val : W64) (p : W72) (word : W64) : State :=
  let c := s.ctx core cx
  let t := s.setCtx core cx (c.deliver async code val p word)
  if c.priv && !async then
    t.notify { kind := 3, cause := 0x63, source := BitVec.ofNat 16 core, cx := BitVec.ofNat 8 cx, a := c.scause.setWidth 64,
               b := c.spc }
  else t

/-- A synchronous cause of the bundle in hand: the bundle has no effect (R196). -/
def State.raise (s : State) (code : Byte) (val : W64) : State :=
  let c := s.here
  s.deliver s.sel.1 s.sel.2 false code val c.pc (match c.cur with | some b => b.sw.setWidth 64 | none => 0)

/-- The value of the poison causes: the register's file (0 s, 1 v, 2 p, 3 m) and number (R202). -/
def poisVal (file : Nat) (r : Nat) : W64 := BitVec.ofNat 64 (file * 16 + r)

/-- Loop levels after a return or a taken transfer: a level whose body does not hold the target ends, and level 1 with
it (R111). -/
def popLoops (l0 l1 : Loop) (target : W72) : Loop × Loop :=
  let out (l : Loop) : Bool := l.active && (target.toNat < l.start.toNat || l.last.toNat < target.toNat)
  if out l0 then ({ l0 with active := false }, { l1 with active := false })
  else if out l1 then (l0, { l1 with active := false })
  else (l0, l1)

/-- RETURNING FROM A TRAP (R205): the state with the levels and the status restored and control at the resume address;
none where no handler runs. -/
def Ctx.eret (c : Ctx) : Option Ctx :=
  if c.priv then
    let t := mkVA (spaceOf c.pc) (c.spc &&& ~~~(3 : W64))
    let l := popLoops c.systemLoops.1 c.systemLoops.2 t
    some { c with loop0 := l.1, loop1 := l.2, pc := t,
                  sstatus := c.sstatus.extractLsb' 2 2 ++ c.sstatus.extractLsb' 3 1 ++ c.sstatus.extractLsb' 2 1 }
  else if c.uht then
    let t := mkVA (spaceOf c.pc) (c.tpc &&& ~~~(3 : W64))
    let l := popLoops c.userLoops.1 c.userLoops.2 t
    some { c with loop0 := l.1, loop1 := l.2, pc := t, sstatus := c.sstatus &&& 0xD }
  else none

/-! ### The end of a bundle (R110-R111, R132) -/

/-- Writes the result of the V operation. -/
def Ctx.applyV (c : Ctx) : Ctx :=
  match c.vres with
  | .eff e =>
    let c := e.v.foldl (fun c x => c.setV x.1 x.2.1 x.2.2) c
    let c := match e.s with
      | some x => c.setS x.1 x.2.1 x.2.2
      | none => c
    let c := match e.m with
      | some x => c.setM x.1 x.2.1 x.2.2
      | none => c
    { c with fflags := c.fflags ||| e.flags, forfeit := if e.normalise then 2 else c.forfeit }
  | _ => c

/-- The address after n words. -/
def vaPlus (va : W72) (n : Nat) : W72 := mkVA (spaceOf va) (lo64 va + BitVec.ofNat 64 (4 * n))

/-- The next address after a bundle that transfers control nowhere, and the loop levels (R111). -/
def loopBack (l0 l1 : Loop) (pc seqn : W72) : W72 × Bool × Loop × Loop :=
  let at1 := l1.active && pc == l1.last
  let c1 := l1.count - 1
  if at1 && c1 != 0 then (l1.start, true, l0, { l1 with count := c1 })
  else
    let l1' := if at1 then { l1 with count := c1, active := false } else l1
    let at0 := l0.active && pc == l0.last
    let c0 := l0.count - 1
    if at0 && c0 != 0 then (l0.start, true, { l0 with count := c0 }, l1')
    else (seqn, false, if at0 then { l0 with count := c0, active := false } else l0, l1')

/-- The state of a context that runs: Follower in a gang that it does not lead, else Ready. -/
def Ctx.running (c : Ctx) : CtxState :=
  match c.gang with
  | some m => if m.index = 0 then .ready else .follower
  | none => .ready

/-- The bundle completes: its V result is written, and control goes to the target or on in sequence. -/
def Ctx.complete (c : Ctx) (target : Option W72) : Ctx :=
  let n := match c.cur with
    | some b => b.len
    | none => 2
  let c := c.applyV
  let c := match target with
    | some t =>
      let l := popLoops c.loop0 c.loop1 t
      { c with loop0 := l.1, loop1 := l.2, via := some (lo64 c.pc), pc := t, landed := true }
    | none =>
      let r := loopBack c.loop0 c.loop1 c.pc (vaPlus c.pc n)
      { c with loop0 := r.2.2.1, loop1 := r.2.2.2, via := if r.2.1 then some (lo64 c.pc) else none, pc := r.1,
               landed := r.2.1 }
  { c.boundary with st := c.running, wait := .none }

/-- The bundle of the executing context completes in sequence. -/
def State.finish (s : State) : State := s.modHere fun c => c.complete none
/-- The bundle completes and control goes to a target. -/
def State.finishTo (s : State) (t : W72) : State := s.modHere fun c => c.complete (some t)

/-- The bundle's V operation has raised a cause: an S operation whose cause an agent finds goes there for its cause alone, since
that comes before the V operation's (R61 steps 8 and 9). -/
def VRes.trapped : VRes → Bool
  | .trap _ _ => true
  | _ => false

/-- The S operation takes effect and its bundle completes, unless the V operation has raised a cause: then neither has
an effect (R61 steps 8 and 9). -/
def State.commit (s : State) (eff : State → State) : Outcome :=
  match s.here.vres with
  | .trap code val => .next (s.raise code val)
  | _ => .next (eff s).finish

/-- As `commit`, for an S operation that goes on in the effect itself (a transfer of control, a park). -/
def State.commitTo (s : State) (eff : State → State) : Outcome :=
  match s.here.vres with
  | .trap code val => .next (s.raise code val)
  | _ => .next (eff s)

/-- The guard of an S operation: a poisoned guard traps with 0x12, a false one completes the bundle with no effect of the
S operation (R95, R96). -/
def State.guarded (s : State) (g : BitVec 4) (k : State → Outcome) : Outcome :=
  let p := s.here.guard g
  if p.pois then .next (s.raise 0x12 (poisVal 2 (g.extractLsb' 0 3).toNat))
  else if p.val then k s
  else s.commit id

/-- Parks the executing thread; the bundle issues again from its start when it wakes (R163, R169). -/
def State.parkReplay (s : State) (w : Wait) : State :=
  s.modHere fun c => { c with st := .parked, wait := w, stage := .fresh, vres := .none }

/-- Parks the executing thread in the middle of its S operation. -/
def State.parkStage (s : State) (st : Stage) (w : Wait) : State :=
  s.modHere fun c => { c with st := .parked, wait := w, stage := st }

/-! ### Windows (R217, R270) -/

def State.group (s : State) (n : Nat) : Option Group := sget n s.groups

/-- A resolved address or what stops the access. -/
inductive Resolved where
  | ok (l : Loc)
  | trap (code : Byte) (val : W64)
  | park (w : Wait)
deriving DecidableEq, Repr

/-- Whether an offset lies in a group's scratchpad range. -/
def Group.inScratch (g : Group) (o n : Nat) : Bool := g.sbase * 4096 ≤ o && o + n ≤ (g.sbase + g.ssize) * 4096
/-- Whether an offset lies in a group's comb memory allocation. -/
def Group.inComb (g : Group) (o n : Nat) : Bool := g.cbase * 65536 ≤ o && o + n ≤ (g.cbase + g.csize) * 65536

/-- The window of a local address for a thread of a group on a core; `away` threads have none (R186). -/
def State.window (s : State) (core : Nat) (launch group : Nat) (away : Bool) (va : W72) (n : Nat) (write : Bool) :
    Resolved :=
  let a := lo64 va
  let o := a.toNat
  let bad : Resolved := .trap 0x26 a
  if away then bad
  else
    match s.group group with
    | none => bad
    | some gr =>
      match (spaceOf va).toNat with
      | 0xF0 => if o < 2 ^ 18 && gr.inScratch o n then .ok ⟨.own, scratchKey core o, va, 0, 4, 0⟩ else bad
      | 0xF1 =>
        let k := o / 2 ^ 18
        if o < 2 ^ 22 && gr.cores.getLsbD k && gr.inScratch (o % 2 ^ 18) n then
          .ok ⟨if coreOfComb gr.comb k = core then .own else .combScratch, scratchKey (coreOfComb gr.comb k) (o % 2 ^ 18), va, 0, 4, 0⟩
        else bad
      | 0xF2 => if o < 2 ^ 24 && gr.inComb o n then .ok ⟨.combMem, combKey gr.comb o, va, 0, 4, 0⟩ else bad
      | 0xF3 =>
        let t := twinOf core
        let mine (e : Nat × Group) : Bool :=
          e.2.launch == launch && e.2.comb == combOf t && e.2.cores.getLsbD (t % 16) && e.2.inScratch o n
        if o < 2 ^ 18 && s.groups.any mine then .ok ⟨.twin, scratchKey t o, va, 0, 4, 0⟩ else bad
      | _ =>
        if 2 ^ 10 ≤ o then bad else if write then .trap 0x22 a else .ok ⟨.bank, bankKey gr.comb o, va, 0, 4, 0⟩

/-- A list with an entry added; a full list loses the entry that a free choice names (log 9). -/
def tlbAdd (l : List TlbEnt) (cap victim : Nat) (e : TlbEnt) : List TlbEnt :=
  e :: (if l.length < cap then l else l.eraseIdx (victim % cap))

/-- Puts a translation into a core's L1 TLB and its comb's TLB. -/
def State.tlbFill (s : State) (core : Nat) (e : TlbEnt) : State :=
  let r := s.pick 1024
  let s := r.2.modCore core fun c => { c with tlb := tlbAdd c.tlb 32 r.1 e }
  if (s.comb (combOf core)).tlb.any (fun t => t == e) then s
  else s.modComb (combOf core) fun c => { c with tlb := tlbAdd c.tlb 1024 r.1 e }

/-- The translation that the TLBs of a core and its comb hold for a VA. -/
def State.tlbLook (s : State) (core : Nat) (asid : W16) (va : W72) : Option TlbEnt :=
  match tlbFind (s.core core).tlb asid va with
  | some e => some e
  | none => tlbFind (s.comb (combOf core)).tlb asid va

/-! ### Faults and walks (R227-R229) -/

/-- A core's miss. -/
def State.startWalk (s : State) (core : Nat) (ptroot : W64) (asid : W16) (va : W72) : State :=
  s.joinWalk (hiveOf core) (some core) false ptroot asid va

/-- The bits of a fault record (R229). -/
def faultBits (key : W72) (cause kinds : Byte) (level : Nat) (asid : W16) (count : Nat) (stamp : W64) : Nat :=
  (lo64 key).toNat + 2 ^ 64 * (spaceOf key).toNat + 2 ^ 72 * cause.toNat + 2 ^ 80 * kinds.toNat + 2 ^ 88 * level +
    2 ^ 96 * asid.toNat + 2 ^ 112 * count + 2 ^ 128 * stamp.toNat

/-- The VA of the slot of the num-th record of a hive, and its address, unless its home stalls. -/
def State.faultVA (s : State) (h num : Nat) : W64 :=
  ((s.hive h).fring &&& ~~~(0x3FFF : W64)) + BitVec.ofNat 64 (64 * (num % 256))
def State.faultSlot (s : State) (h num : Nat) : Option Nat :=
  (s.sysAddr h (s.faultVA h num)).filter fun a => !s.stalled ⟨.glob, a, 0, 0, 4, 0⟩

/-- What becomes of a replayable fault in a hive: delivered at once while `fring`.en = 0, joined to a pending record, a
new record, or held while the slot due is pending. -/
inductive Filed where
  | now
  | record (num : Nat)
  | held
deriving DecidableEq, Repr

/-- A replayable fault reaches a hive's fault ring. Word a of the notice of a new record holds the slot in its low byte and the hive
from bit 8 on; how it packs the two, the spec does not say (log 87). -/
def State.fileFault (s : State) (h : Nat) (asid : W16) (va : W72) (cause kinds : Byte) (level : Nat) : Filed × State :=
  let v := s.hive h
  let key := pageKey va
  if !v.fring.getLsbD 0 then (.now, s)
  else
    -- a record that the driver has answered is joined no more
    let pending (f : FaultRec) : Bool :=
      match s.faultSlot h f.num with
      | some a => s.rd (a + 0x18) 4 == 0
      | none => true
    match v.faults.find? (fun f => f.asid == asid && f.page == key && f.cause == cause && pending f) with
    | some f =>
      match s.faultSlot h f.num with
      | some a =>
        let k := s.rd (a + 0x0A) 1
        let n := s.rd (a + 0x0E) 2
        (.record f.num, (s.poke (a + 0x0A) 1 ((BitVec.ofNat 8 k ||| kinds).toNat)).poke (a + 0x0E) 2 (min 65535 (n + 1)))
      | none => (.held, s.sysWalk h (s.faultVA h f.num))
    | none =>
      match s.faultSlot h v.filed with
      | none => (.held, s.sysWalk h (s.faultVA h v.filed))
      | some a =>
        if v.faults.any (fun f => f.num + 256 == v.filed) then (.held, s)
        else
          let num := v.filed
          let r : FaultRec := { num := num, asid := asid, page := key, cause := cause }
          let s := (s.modHive h fun v => { v with filed := num + 1, faults := v.faults ++ [r] }).poke a 64
            (faultBits key cause kinds level asid 1 s.cycle)
          let s := (s.later (.faultRetry h (num % 256))).later (.faultDecline h (num % 256))
          (.record num, s.notify { kind := 1, cause := cause, source := BitVec.ofNat 16 (h * 1152),
                                   a := BitVec.ofNat 64 (num % 256 + h * 256) })

/-- A structure's access meets a fault that the driver has declined, or that no record takes; and it has been told so. -/
def State.sysRefuse (s : State) (h : Nat) (page : W72) : State := { s with sysBad := (h, page) :: s.sysBad.erase (h, page) }
def State.sysTold (s : State) (h : Nat) (va : W64) : State := { s with sysBad := s.sysBad.erase (h, pageKey (mkVA 0x80 va)) }

/-- An access to a structure that waits asks for its walk; where the walk has found no leaf, as the tables still say, its fault
is filed (R227, R228). -/
def State.sysAsk (s : State) (h : Nat) (va : W64) : State :=
  let key := pageKey (mkVA 0x80 va)
  if (s.hive h).faults.any fun f => f.page == key && f.asid == 0 then s
  else if (s.hive h).misses.contains (0, key) then
    let t := s.modHive h fun v => { v with misses := v.misses.erase (0, key) }
    match s.walkPage 0 (mkVA 0x80 va) with
    | .invalid level =>
      match t.fileFault h 0 (mkVA 0x80 va) 0x20 0x11 level with
      | (.now, t) => t.sysRefuse h key
      | (_, t) => t
    | .malformed => t.sysRefuse h key
    | _ => t.sysWalk h va
  else s.sysWalk h va

/-- An event that needs structures goes on once all are reached or refused, and else comes again. -/
def State.withSys (s : State) (needs : List (Nat × W64)) (k : State → Outcome) : Outcome :=
  match needs.find? fun n => s.sysWaits n.1 n.2 with
  | some n => .next ((s.sysAsk n.1 n.2).later s.event)
  | none => k (needs.foldl (fun s n => s.sysTold n.1 n.2) s)

/-- The access kinds of a record: [0] read, [1] write, [2] execute, [3] atomic, [4] engine. -/
def accessBits : Access → Byte
  | .load => 1
  | .store => 2
  | .fetch => 4
  | .atomic => 8

/-- A replayable fault of a thread's own access: the cause is delivered at once or the thread waits for the driver. -/
def State.threadFault (s : State) (core cx : Nat) (va : W72) (cause kinds : Byte) (level : Nat) : Resolved × State :=
  match s.fileFault (hiveOf core) (s.ctx core cx).asid va cause kinds level with
  | (.now, s) => (.trap cause (lo64 va), s)
  | (.record n, s) => (.park (.fault (hiveOf core) n (lo64 va)), s)
  | (.held, s) => (.park (.faultSlot (hiveOf core)), s)

/-- The cause that a walk or the driver has left for an access of the bundle that replays: of the same VA, and of a fetch
or not (R228, R229). -/
def Ctx.leftCause (c : Ctx) (va : W72) (k : Access) : Option Byte :=
  match c.replay with
  | some (code, v) =>
    if v == lo64 va && (code == 0x30 || (0x20 ≤ code.toNat && code.toNat ≤ 0x22 && (code == 0x20 || k != .fetch)) ||
        (code == 0x23 && k == .fetch)) then some code else none
  | none => none

/-- Translation of a global address for a thread, with user or privileged permissions: the TLBs, else a walk (R114,
R224-R228). A cause that a walk or the driver has left for the bundle's replay is taken, whatever the tables say by then. -/
def State.translateAs (s : State) (user : Bool) (core cx : Nat) (va : W72) (k : Access) : Resolved × State :=
  let c := s.ctx core cx
  match c.leftCause va k with
  | some code => (.trap code (lo64 va), s)
  | none =>
    match s.tlbLook core c.asid va with
    | some e =>
      let s := if (tlbFind (s.core core).tlb c.asid va).isSome then s else s.tlbFill core e
      match denied user (spaceOf va) e.leaf k with
      | some cause => s.threadFault core cx va cause (accessBits k) e.level
      | none => (.ok ⟨.glob, leafAddr e.level e.leaf va, va, e.leaf, e.level, c.asid⟩, s)
    | none => (.park (.walk (hiveOf core) c.asid va (accessBits k)), s.startWalk core c.ptroot c.asid va)

/-- Translation in the mode of the thread. -/
def State.translate (s : State) (core cx : Nat) (va : W72) (k : Access) : Resolved × State :=
  s.translateAs (!(s.ctx core cx).priv) core cx va k

/-! ### Fetch (R43-R47, R225) -/

/-- The host link carries device traffic (R430). -/
def State.hostUp (s : State) : Bool := s.hlink.getLsbD 0

/-- The notice of an access that takes 0x72: its unit and its VA (R208, R325). -/
def State.noticeDegraded (s : State) (core cx : Nat) (va : W64) : State :=
  s.notify { kind := 2, cause := 0x72, source := BitVec.ofNat 16 core, cx := BitVec.ofNat 8 cx, a := va }

/-- The address from which a thread fetches, or what stops the fetch: any window and any Nectar-kind page has 0x23. -/
def State.fetchLoc (s : State) (core cx : Nat) (va : W72) : Resolved × State :=
  let sp := (spaceOf va).toNat
  if 0xF5 ≤ sp then (.trap 0x25 (lo64 va), s)
  else if 0xF0 ≤ sp then (.trap 0x23 (lo64 va), s)
  else
    match s.translate core cx va .fetch with
    | (.ok l, s) =>
      if leafKind l.leaf = 1 then (.trap 0x23 (lo64 va), s)
      else if leafKind l.leaf = 2 && !s.hostUp then (.trap 0x2D (lo64 va), s)
      -- a page behind a degraded pseudo-channel (R208)
      else if s.behindDegraded (leafKind l.leaf) l.key then (.trap 0x72 (lo64 va), s.noticeDegraded core cx (lo64 va))
      else (.ok l, s)
    | r => r

/-- A sector of a page has contents: not where the page is an ephemeral one that is Unwritten or Expired, or whose sector has not
been written (R236), nor where a take-over has lost it (R449). -/
def State.holdsCode (s : State) (kind key : Nat) : Bool :=
  !s.lostSector key && (kind != 3 || (match sget (key / 2 ^ 16) s.ephem with
    | some e => !e.expired && decide (s.now < e.deadline) && e.sectors.contains (key / 32)
    | none => false))

/-- The word of code at a key, of a page of that kind; undefined where the page holds none. -/
def State.codeWord (s : State) (kind key : Nat) : W32 :=
  if s.holdsCode kind key then BitVec.ofNat 32 (s.rd key 4)
  else (List.range 4).foldl (fun w i => w ||| (Config.junk (64 * s.choices + key % 32 + i)).setWidth 32 <<< (8 * i)) 0

/-- The words of the fetch block of 32 bytes that holds a memory key. -/
def State.blockAt (s : State) (kind key : Nat) : List W32 :=
  (List.range 8).map fun i => s.codeWord kind (key / 32 * 32 + 4 * i)

/-- The number of a word in its block. -/
def wordIndex (key : Nat) : Nat := key % 32 / 4

/-- The kind of the page and the place of an address if it can be read as code (R197). -/
def State.peekPlace (s : State) (core cx : Nat) (va : W72) : Option (Nat × Nat) :=
  let c := s.ctx core cx
  if 0xF0 ≤ (spaceOf va).toNat then none
  else
    let look : Option (Nat × BitVec 128) :=
      match s.tlbLook core c.asid va with
      | some e => some (e.level, e.leaf)
      | none =>
        match s.walkPage c.ptroot va with
        | .leaf l e => some (l, e)
        | _ => none
    match look with
    | none => none
    | some (l, e) =>
      if (denied (!c.priv) (spaceOf va) e .fetch).isSome || leafKind e == 1 then none else some (leafKind e, leafAddr l e va)

/-- The word at an address if it can be read as code, else zero (R197). -/
def State.peekCode (s : State) (core cx : Nat) (va : W72) : W64 :=
  match s.peekPlace core cx va with
  | some a => (s.codeWord a.1 (a.2 / 4 * 4)).setWidth 64
  | none => 0

/-- As many fetch blocks as a space holds, and one more: fetch passes every fill word on its way (R45). -/
def fetchBlocks : Nat := 2 ^ 59 + 1

/-- The block after that of an address. -/
def nextBlock (va : W72) : W72 := mkVA (spaceOf va) ((lo64 va &&& ~~~(31 : W64)) + 32)

/-- The address of the next bundle from an address on: fill words are passed as far as they can be read (R45, R196). -/
def State.nextBundle (s : State) (core cx : Nat) : Nat → W72 → W72
  | 0, va => va
  | fuel + 1, va =>
    match s.peekPlace core cx va with
    | some a =>
      if (blockKinds (s.blockAt a.1 a.2)).getD (wordIndex a.2) .notStart = .fill then State.nextBundle s core cx fuel (nextBlock va)
      else va
    | none => va

/-- The context from which control is taken: the leader's before the bundle, for a follower of a gang (R279). -/
def State.ctl (s : State) : Ctx :=
  match s.lead with
  | some c => c
  | none => s.here

end Sys2Proof.Machine
end

