-- ==== Sys2Proof/Machine/Operands.lean ====
section
/-! DEFINITION. Operand forms: immediates, lanes, the registers that an operation reads, assigns and marks empty
(R62, R131), and the charges of R99 and R136. -/

namespace Sys2Proof.Machine

/-! ### Immediates (R51) -/

/-- An immediate sign-extended to 64 bits. -/
def immOf {n : Nat} : Imm n → W64
  | .fld v => v.signExtend 64
  | .lit w => w.signExtend 64

/-- The offset of an SM form in bytes: off6 times the width, or the literal unscaled (R51, R104). -/
def offsetOf (o : Imm 6) (scale : Nat) : W64 :=
  match o with
  | .fld v => v.signExtend 64 * BitVec.ofNat 64 scale
  | .lit w => w.signExtend 64

/-- Bytes of an access (R52, R115). -/
def widthBytes : Width → Nat
  | .b => 1 | .h => 2 | .w => 4 | .d => 8 | .x => 16 | .v => 64

def elemBytes : Elem → Nat
  | .b => 1 | .h => 2 | .w => 4

/-- The low n bytes of a number, sign-extended (R115). -/
def sext64 (n v : Nat) : W64 :=
  match n with
  | 1 => (BitVec.ofNat 8 v).signExtend 64
  | 2 => (BitVec.ofNat 16 v).signExtend 64
  | 4 => (BitVec.ofNat 32 v).signExtend 64
  | _ => BitVec.ofNat 64 v

/-! ### Lanes -/

/-- Lane i of a vector register. -/
def lane (v : W512) (i : Nat) : W32 := v.extractLsb' (32 * i) 32

/-- The register whose lane i is f i. -/
def pack16 (f : Nat → W32) : W512 :=
  f 15 ++ f 14 ++ f 13 ++ f 12 ++ f 11 ++ f 10 ++ f 9 ++ f 8 ++ f 7 ++ f 6 ++ f 5 ++ f 4 ++ f 3 ++ f 2 ++ f 1 ++ f 0

/-- A word in every lane (R57). -/
def splat (w : W32) : W512 := pack16 fun _ => w

/-- A V source: a register, or the literal in every lane. -/
def Ctx.vsrc (c : Ctx) : VSrc → VCell
  | .reg r => c.vreg r
  | .lit w => ⟨splat w, true, false⟩

def vsrcRegs : VSrc → List (BitVec 4)
  | .reg r => [r]
  | .lit _ => []

/-! ### Registers of an operation -/

/-- The registers of an operation: scalar and vector sources, scalar and vector destinations assigned in the bundle, and
destinations marked empty for a later fill. -/
structure Regs where
  rs : List (BitVec 4) := []
  rv : List (BitVec 4) := []
  ws : List (BitVec 4) := []
  wv : List (BitVec 4) := []
  es : List (BitVec 4) := []
  ev : List (BitVec 4) := []
deriving DecidableEq, Repr

/-- The registers of an S operation (R62, R97, R131). `n` is the number of vector registers that a `qput` reads. -/
def sRegs (n : Nat) : Instr → Regs
  | .tlbinvPage _ a b => { rs := [a, b] }
  | .tlbinvAsid _ b => { rs := [b] }
  | .add _ d a b | .sub _ d a b | .mul _ d a b | .mulh _ d a b | .mulhu _ d a b | .div _ d a b | .divu _ d a b
  | .rem _ d a b | .remu _ d a b | .and _ d a b | .or _ d a b | .xor _ d a b | .shl _ d a b | .shr _ d a b
  | .sra _ d a b | .min _ d a b | .max _ d a b | .minu _ d a b | .maxu _ d a b | .andn _ d a b =>
    { rs := [a, b], ws := [d] }
  | .clz _ d a | .ctz _ d a | .pcnt _ d a | .sext _ d a _ | .mov _ d a => { rs := [a], ws := [d] }
  | .addi _ d a _ | .andi _ d a _ | .ori _ d a _ | .xori _ d a _ | .shli _ d a _ | .shri _ d a _ | .srai _ d a _
  | .orh _ d a _ | .bfx _ d a _ _ | .bfxs _ d a _ _ | .leai _ d a _ | .setsp _ d a _ => { rs := [a], ws := [d] }
  | .movi _ d _ => { ws := [d] }
  | .bfi _ d a _ _ => { rs := [a, d], ws := [d] }
  | .lea _ d a b _ => { rs := [a, b], ws := [d] }
  | .getsp _ d => { rs := [d], ws := [d] }
  | .cmp _ _ a b _ => { rs := [a, b] }
  | .cmpi _ _ a _ _ => { rs := [a] }
  | .pword _ d => { ws := [d] }
  | .pset _ a => { rs := [a] }
  | .sel _ d a b _ => { rs := [a, b], ws := [d] }
  | .bl _ _ => { ws := [15] }
  | .jr _ a => { rs := [a] }
  | .jlr _ d a => { rs := [a], ws := [d] }
  | .loop _ c _ => { rs := [c] }
  | .ld _ d a _ _ _ _ | .ldz _ d a _ _ _ _ => { rs := [a], es := [d] }
  | .st _ d a _ _ _ _ => { rs := [a, d] }
  | .ldv _ d a _ _ _ | .ldsamp _ d a _ => { rs := [a], ev := [d] }
  | .stv _ d a _ _ _ => { rs := [a], rv := [d] }
  | .gath _ v s i _ _ _ _ => { rs := [s], rv := [i], ev := [v] }
  | .scat _ v s i _ _ _ _ => { rs := [s], rv := [i, v] }
  | .amo _ d a b _ _ _ _ => { rs := [a, b], es := [d] }
  | .cas _ d a b _ _ _ => { rs := [a, b, d], es := [d] }
  | .ared _ a b _ _ _ _ => { rs := [a, b] }
  | .mwatch _ a | .cflush _ a | .cinval _ a | .prf _ a | .mig _ a | .migc _ a => { rs := [a] }
  | .mwait _ d b => { rs := [b], ws := [d] }
  | .home _ d a => { rs := [a], ws := [d] }
  | .isfull _ d _ _ => { ws := [d] }
  | .mkempty _ a f | .mkfull _ a f => if f then { ev := [a] } else { es := [a] }
  | .rdsr _ d _ => { ws := [d] }
  | .wrsr _ a _ => { rs := [a] }
  | .msg _ a _ => { rs := [a, 4, 5, 6, 7, 8, 9] }
  | .mrecv _ d => { ws := [d, 4, 5, 6, 7, 8, 9] }
  | .tbset _ a _ => { rs := [a] }
  | .mbrd _ d _ _ => { ws := [d] }
  | .callat _ d a b => { rs := [a, b, 4, 5, 6, 7], es := [d] }
  | .ret _ a => { rs := [a] }
  | .qput _ d a b => { rs := [a], rv := (List.range n).map fun k => b + BitVec.ofNat 4 k, ws := [d] }
  | .barInit _ a b | .barWait _ a b => { rs := [a, b] }
  | .barArv _ a | .barArw _ a | .cancel _ a => { rs := [a] }
  | .cnt _ d a _ => { rs := [a], ws := [d] }
  | .xget _ d a b _ _ _ | .xput _ d a b _ _ _ | .xcopy _ d a b _ _ _ | .xtile _ d a b _ _ _ =>
    { rs := [a, b], ws := [d] }
  -- sD takes the id, vector vA is for the fill (R347, R349)
  | .xgetv _ d a b _ _ _ => { rs := [b], ws := [d], ev := [a] }
  | .xwait _ d a _ => { rs := [a], ws := [d] }
  | .xstat _ d _ _ => { ws := [d] }
  | .cbinit _ a b _ => { rs := [a, b] }
  | .cbpush _ d a b | .cbpop _ d a b | .cbwait _ d a b | .cbspace _ d a b => { rs := [a, b], ws := [d] }
  | .pinit _ a => { rs := [a] }
  | .pfill _ a b | .peq _ a b => { rs := [a, b] }
  | .pget _ d a | .ptry _ d a | .pstat _ d a _ => { rs := [a], es := [d] }
  | .mcmd _ a b => { rs := [a], rv := [b] }
  | .mfin _ d a => { rs := [a], ws := [d] }
  | .ninst _ d a | .nwait _ d a | .nstat _ d a _ => { rs := [a], ws := [d] }
  | .nretire _ a => { rs := [a] }
  | .bsinit _ a b _ => { rs := [a, b] }
  | .bsget _ d _ | .bspeek _ d _ => { es := [d] }
  | .bsput _ a _ => { rs := [a] }
  | .bsskip _ b => { rs := [b] }
  | .bsflush _ d => { ws := [d] }
  | .fwait _ d a => { rs := [a], ws := [d] }
  | _ => {}

/-- The guard of an S operation, bits [4:1] of its word (R48). -/
def guardOf : Instr → BitVec 4
  | .nop g | .brk g | .exit g | .eret g | .trap g _ | .tlbinvPage g _ _ | .tlbinvAsid g _ | .tlbinvAll g
  | .add g _ _ _ | .sub g _ _ _ | .mul g _ _ _ | .mulh g _ _ _ | .mulhu g _ _ _ | .div g _ _ _ | .divu g _ _ _
  | .rem g _ _ _ | .remu g _ _ _ | .and g _ _ _ | .or g _ _ _ | .xor g _ _ _ | .shl g _ _ _ | .shr g _ _ _
  | .sra g _ _ _ | .min g _ _ _ | .max g _ _ _ | .minu g _ _ _ | .maxu g _ _ _ | .andn g _ _ _
  | .clz g _ _ | .ctz g _ _ | .pcnt g _ _ | .sext g _ _ _ | .mov g _ _
  | .addi g _ _ _ | .andi g _ _ _ | .ori g _ _ _ | .xori g _ _ _ | .shli g _ _ _ | .shri g _ _ _ | .srai g _ _ _
  | .movi g _ _ | .orh g _ _ _ | .bfx g _ _ _ _ | .bfxs g _ _ _ _ | .bfi g _ _ _ _ | .lea g _ _ _ _
  | .leai g _ _ _ | .setsp g _ _ _ | .getsp g _ | .cmp g _ _ _ _ | .cmpi g _ _ _ _ | .pand g _ _ _ | .por g _ _ _
  | .pxor g _ _ _ | .pandn g _ _ _ | .pnot g _ _ | .pword g _ | .pset g _ | .sel g _ _ _ _ | .br g _ | .bl g _
  | .jr g _ | .jlr g _ _ | .loop g _ _ | .loopi g _ _ | .ld g _ _ _ _ _ _ | .ldz g _ _ _ _ _ _ | .st g _ _ _ _ _ _
  | .ldv g _ _ _ _ _ | .stv g _ _ _ _ _ | .ldsamp g _ _ _ | .gath g _ _ _ _ _ _ _ | .scat g _ _ _ _ _ _ _
  | .amo g _ _ _ _ _ _ _ | .cas g _ _ _ _ _ _ | .ared g _ _ _ _ _ _ | .fence g _ _ | .fsamp g _ | .sinv g _
  | .mwatch g _ | .mwait g _ _ | .mclr g | .cflush g _ | .cinval g _ | .prf g _ | .mig g _ | .migc g _ | .migb g
  | .home g _ _ | .isfull g _ _ _ | .mkempty g _ _ | .mkfull g _ _ | .fmode g _ | .rdsr g _ _ | .wrsr g _ _
  | .msg g _ _ | .mrecv g _ | .chbind g _ | .tbset g _ _ | .tbclr g _ | .mbrd g _ _ _ | .callat g _ _ _ | .ret g _
  | .qput g _ _ _ | .gang g _ | .ungang g | .barInit g _ _ | .barArv g _ | .barWait g _ _ | .barArw g _ | .trig g
  | .cancel g _ | .cnt g _ _ _ | .xget g _ _ _ _ _ _ | .xput g _ _ _ _ _ _ | .xcopy g _ _ _ _ _ _
  | .xtile g _ _ _ _ _ _ | .xgetv g _ _ _ _ _ _ | .xwait g _ _ _ | .xstat g _ _ _ | .cbinit g _ _ _
  | .cbpush g _ _ _ | .cbpop g _ _ _ | .cbwait g _ _ _ | .cbspace g _ _ _ | .pinit g _ | .pfill g _ _ | .peq g _ _
  | .pget g _ _ | .ptry g _ _ | .pstat g _ _ _ | .licAcq g _ | .licRel g | .licGive g | .mcmd g _ _ | .mfin g _ _
  | .ninst g _ _ | .nwait g _ _ | .nstat g _ _ _ | .nretire g _ | .bsinit g _ _ _ | .bsget g _ _ | .bsput g _ _
  | .bspeek g _ _ | .bsskip g _ | .bsalign g _ | .bsflush g _ | .fwait g _ _ => g
  | _ => 0

/-- Registers of a V form with the mask guard g: vD is read too unless the guard is m0 (R131). -/
def vForm (g d : BitVec 4) (src : List (BitVec 4)) : Regs := { rv := if g = 0 then src else d :: src, wv := [d] }

/-- The registers of a V operation. -/
def vRegs : Instr → Regs
  | .vaddF32 g d a b | .vsubF32 g d a b | .vmulF32 g d a b | .vminF32 g d a b | .vmaxF32 g d a b | .vminnum g d a b
  | .vmaxnum g d a b | .vcopysign g d a b | .vhAdd g d a b _ | .vhMul g d a b _ | .vhMin g d a b _ | .vhMax g d a b _
  | .vaddI32 g d a b | .vsubI32 g d a b | .vmulI32 g d a b | .vmulh g d a b _ | .vandI32 g d a b | .vorI32 g d a b
  | .vxorI32 g d a b | .vshlI32 g d a b | .vshrI32 g d a b | .vsraI32 g d a b | .vminI32 g d a b | .vmaxI32 g d a b
  | .vminN32 g d a b | .vmaxN32 g d a b | .vadd8 g d a b | .vadds8 g d a b | .vsel g d a b _ | .vcvtF16F32 g d a b
  | .vcvtBf16F32 g d a b | .vdiv g d a b | .vperm g d a b => vForm g d (a :: vsrcRegs b)
  | .vfma g d a b c | .vfms g d a b c | .vfnma g d a b c | .vfnms g d a b c | .vhFma g d a b c _ | .vdot4 g d a b c =>
    vForm g d (a :: b :: vsrcRegs c)
  | .vabs g d a | .vneg g d a | .vclzI32 g d a | .vpcntI32 g d a | .vcvtI32F32 g d a _ | .vcvtF32I32 g d a
  | .vcvtF32N32 g d a | .vcvtF32F16 g d a | .vcvtF32Bf16 g d a | .vcvtI32I8 g d a | .vcvtI8I32 g d a
  | .vcvtN32F32 g d a _ | .vrcp g d a | .vrsqrt g d a | .vsqrt g d a | .vexp2 g d a | .vlog2 g d a | .vsinpi g d a
  | .vcospi g d a | .vrotl g d a _ | .vbcastl g d a _ | .vmov g d a => vForm g d (vsrcRegs a)
  | .vcmp _ _ a b _ _ => { rv := a :: vsrcRegs b }
  | .vredaddF32 _ d a | .vredaddI32 _ d a | .vredminF32 _ d a | .vredmaxF32 _ d a | .vext _ d a _ =>
    { rv := [a], ws := [d] }
  | .vbcast g d a => { rs := [a], rv := if g = 0 then [] else [d], wv := [d] }
  | .vins _ d a _ => { rs := [a], rv := [d], wv := [d] }
  | .vlane g d => vForm g d []
  | .mcnt _ d _ => { ws := [d] }
  | .mset _ _ a => { rs := [a] }
  | .vbfpk d a _ => { rv := [a, a + 1], wv := [d] }
  | .vbfunp d a _ => { rv := [a], wv := [d, d + 1] }
  | .vbfhdr d a _ => { rv := [a, a + 1], ws := [d] }
  | .vbfscale d a b => { rs := [b], rv := [a], wv := [d] }
  | .vtopk g d a b _ => vForm g d [a, b]
  | .vfmak _ d a _ => { rv := [d, a], wv := [d] }
  | .vaddk g d a _ | .vmulk g d a _ => vForm g d [a]
  | .vaddi d a _ | .vmuli d a _ => { rv := [a], wv := [d] }
  | .vfmai d a _ => { rv := [d, a], wv := [d] }
  | .vmovi d _ => { wv := [d] }
  | _ => {}

/-- The registers that both slots of a bundle write: the register of the 0x04 value, lowest scalar first (R62, R63). -/
def conflict (s v : Regs) : Option W64 :=
  let both (x y : List (BitVec 4)) : List Nat := (List.range 16).filter fun r =>
    x.any (fun k => k.toNat == r) && y.any (fun k => k.toNat == r)
  match both (s.ws ++ s.es) v.ws with
  | r :: _ => some (BitVec.ofNat 64 r)
  | [] =>
    match both (s.wv ++ s.ev) v.wv with
    | r :: _ => some (BitVec.ofNat 64 (16 + r))
    | [] => none

/-- The charge of an S operation (R99). -/
def sCharge : Instr → Nat
  | .ldv _ _ _ _ _ _ | .stv _ _ _ _ _ _ | .ldsamp _ _ _ _ => 10
  | .gath _ _ _ _ _ _ _ _ | .scat _ _ _ _ _ _ _ _ => 16
  | _ => 0

/-- The charge of a V operation (R136). -/
def vCharge : Instr → Nat
  | .vaddF32 _ _ _ _ | .vsubF32 _ _ _ _ | .vmulF32 _ _ _ _ | .vminF32 _ _ _ _ | .vmaxF32 _ _ _ _ | .vminnum _ _ _ _
  | .vmaxnum _ _ _ _ | .vaddk _ _ _ _ | .vmulk _ _ _ _ | .vaddi _ _ _ | .vmuli _ _ _ => 6
  | .vabs _ _ _ | .vneg _ _ _ | .vcopysign _ _ _ _ | .vaddI32 _ _ _ _ | .vsubI32 _ _ _ _ | .vmulI32 _ _ _ _
  | .vmulh _ _ _ _ _ | .vandI32 _ _ _ _ | .vorI32 _ _ _ _ | .vxorI32 _ _ _ _ | .vshlI32 _ _ _ _ | .vshrI32 _ _ _ _
  | .vsraI32 _ _ _ _ | .vminI32 _ _ _ _ | .vmaxI32 _ _ _ _ | .vminN32 _ _ _ _ | .vmaxN32 _ _ _ _ | .vclzI32 _ _ _
  | .vpcntI32 _ _ _ | .vadd8 _ _ _ _ | .vadds8 _ _ _ _ | .vcmp _ _ _ _ _ _ | .vsel _ _ _ _ _ | .vmov _ _ _
  | .vbcast _ _ _ | .vext _ _ _ _ | .vins _ _ _ _ | .vlane _ _ | .vmovi _ _ => 4
  | .vfma _ _ _ _ _ | .vfms _ _ _ _ _ | .vfnma _ _ _ _ _ | .vfnms _ _ _ _ _ | .vfmak _ _ _ _ | .vfmai _ _ _ => 9
  | .vhAdd _ _ _ _ _ | .vhMul _ _ _ _ _ | .vhFma _ _ _ _ _ _ | .vhMin _ _ _ _ _ | .vhMax _ _ _ _ _ => 7
  | .vdot4 _ _ _ _ _ | .vredaddF32 _ _ _ | .vredaddI32 _ _ _ | .vredminF32 _ _ _ | .vredmaxF32 _ _ _ => 8
  | .vcvtI32F32 _ _ _ _ | .vcvtF32I32 _ _ _ | .vcvtF32N32 _ _ _ | .vcvtF16F32 _ _ _ _ | .vcvtF32F16 _ _ _
  | .vcvtBf16F32 _ _ _ _ | .vcvtF32Bf16 _ _ _ | .vcvtI32I8 _ _ _ | .vcvtI8I32 _ _ _ | .vcvtN32F32 _ _ _ _
  | .vperm _ _ _ _ | .vrotl _ _ _ _ | .vbcastl _ _ _ _ | .vbfscale _ _ _ => 5
  | .vrcp _ _ _ | .vrsqrt _ _ _ | .vsqrt _ _ _ | .vdiv _ _ _ _ | .vexp2 _ _ _ | .vlog2 _ _ _ | .vsinpi _ _ _
  | .vcospi _ _ _ => 24
  | .mlog _ _ _ _ _ | .mcnt _ _ _ | .mset _ _ _ => 2
  | .vbfpk _ _ _ | .vbfunp _ _ _ | .vtopk _ _ _ _ _ => 12
  | .vbfhdr _ _ _ => 6
  | _ => 0

/-- Whether an S operation takes a pending access record (R179). -/
def takesRecord : Instr → Bool
  | .ld .. | .ldz .. | .ldv .. | .ldsamp .. | .gath .. | .amo .. | .cas .. | .callat .. | .xgetv .. | .pget .. | .ptry ..
  | .pstat .. | .bsget .. | .bspeek .. => true
  | _ => false

/-- The forms that user mode may not issue at decode: `tlbinv` (R231), and `rdsr` and `wrsr` of 0x100-0x1FF (R54). -/
def privileged : Instr → Bool
  | .tlbinvPage .. | .tlbinvAsid .. | .tlbinvAll .. => true
  | .rdsr _ _ n | .wrsr _ _ n => sregPriv n
  | _ => false

/-- The forms of major 0x34, which only c7 issues (R190). -/
def foragerOnly : Instr → Bool
  | .bsinit .. | .bsget .. | .bsput .. | .bspeek .. | .bsskip .. | .bsalign .. | .bsflush .. | .fwait .. => true
  | _ => false

/-- The two operations of the bundle in hand. -/
def Ctx.ops (c : Ctx) : Instr × Instr :=
  match c.cur with
  | none => (.nop 0, .vnop)
  | some b =>
    (match decodeS b.sw b.slit with | .ok i => i | .error _ => .nop 0,
     match decodeV b.vw b.vlit with | .ok i => i | .error _ => .vnop)

end Sys2Proof.Machine
end

