-- ==== Sys2Proof/Machine/Access.lean ====
section
/-! DEFINITION. Accesses to memory: where they may go, what orders them, how they are performed, what they leave to wait
for (spec/05_scalar.md R114-R124, spec/10_page.md R217-R236, spec/11_memory_model.md, spec/12_group.md R272-R274). -/

namespace Sys2Proof.Machine

/-! ### Homes (R14, R15, R181) -/

/-- HomeCore of a slice (R181). -/
def coreOfSlice (slice : Nat) : Nat :=
  let h := slice / 1152
  let i := slice % 1152
  let o := i % 36
  h * 1024 + o % 32 / 16 * 512 + i / 36 * 16 + o % 16

/-- A line whose L1 copies the home does not track: homed in the other hive, or in host memory (R245, R246). -/
def foreign (core : Nat) (l : Loc) : Bool :=
  l.win == .glob && (4 ≤ paTop l.key || (paTop l.key ≤ 1 && paTop l.key != hiveOf core))

/-! ### Extents and staging (R415, R416) -/

/-- An extent covers a Nectar offset. -/
def Extent.covers (e : Extent) (o : Nat) : Bool := e.base ≤ o && o < e.base + e.len

/-- Whether reads of a Nectar address are accepted. -/
def State.sealedAt (s : State) (pa : Nat) : Bool :=
  s.extents.any fun e => e.2.st == .sealed && e.2.covers (pa % 2 ^ 48)

/-- The hive in which a Nectar line of 64 KiB is staged. -/
def stagingHive (line : Nat) : Nat := line / 256 % 4 / 2

/-- Sets of the staging cache of a hive, from the half of the staging size that the page limit leaves (R16, R218). -/
def State.stagingSets (s : State) : Nat := (144 * 2 ^ 30 - s.pageLimit) / 2 ^ 20

/-! ### The group's comb memory (R272-R275) -/

/-- The 256 bytes of a block of comb memory as a number, words of barrier slots as zero. -/
def State.blockBits (s : State) (g : Group) (o : Nat) : BitVec 2048 :=
  let slots := g.cbase * 65536 + 8 * g.nbar
  BitVec.ofNat 2048 ((List.range 256).foldl
    (fun n i => if o + i < slots && g.cbase * 65536 ≤ o + i then n
      else n + 256 ^ i * (s.mem.byte (combKey g.comb (o + i))).toNat) 0)

/-- Granules of the block at an offset. -/
def State.blockSize (s : State) (g : Group) (o : Nat) : Nat :=
  let o := o / 256 * 256
  if (s.comb g.comb).raw.contains (o / 256) then 8
  else
    let b := s.blockBits g o
    if b = 0 then 1 else max 1 (min 8 (Config.granules b))

/-- Blocks of a group that hold a byte other than zero or are stored 1:1, each once. -/
def State.liveBlocks (s : State) (g : Group) : List Nat :=
  let lo := combKey g.comb (g.cbase * 65536)
  let hi := combKey g.comb ((g.cbase + g.csize) * 65536)
  let seen := (s.mem.cells.filter fun c => lo ≤ c.1 && c.1 < hi).map fun c => (c.1 - combKey g.comb 0) / 256
  let raw := (s.comb g.comb).raw.filter fun b => g.cbase * 256 ≤ b && b < (g.cbase + g.csize) * 256
  (seen ++ raw).eraseDups

/-- Granules that the group's blocks occupy. -/
def State.granulesUsed (s : State) (g : Group) : Nat :=
  (s.liveBlocks g).foldl (fun n b => n + (s.blockSize g (256 * b) - 1)) (g.csize * 256)

/-- Whether an offset is that of a barrier slot of a group (R275). -/
def Group.inSlots (g : Group) (o : Nat) : Bool := g.cbase * 65536 ≤ o && o < g.cbase * 65536 + 8 * g.nbar

/-- Blocks of a group to which writes have issued that are not performed, each once: their granules are reserved (R274). -/
def State.openBlocks (s : State) (g : Group) : List Nat :=
  let lo := combKey g.comb (g.cbase * 65536)
  let hi := combKey g.comb ((g.cbase + g.csize) * 65536)
  let fs := s.flights.map fun f => f.loc.key
  let rs := s.cores.flatMap fun c => c.2.ctxs.toList.flatMap fun x => x.recs.flatMap fun r =>
    match r.op with
    | .amo .. | .cas .. => if r.got.isNone then r.locs.map (·.key) else []
    | _ => []
  (((fs ++ rs).filter fun k => lo ≤ k && k < hi && !g.inSlots (k - combKey g.comb 0)).map
    fun k => (k - combKey g.comb 0) / 256).eraseDups

/-- Granules reserved by writes of a group that have issued and are not performed: a block can grow to eight. -/
def State.granulesReserved (s : State) (g : Group) : Nat :=
  (s.openBlocks g).foldl (fun n b => n + (8 - s.blockSize g (256 * b))) 0

/-- What a group holds of the physical store, reservations included, and its share, in granules. -/
def State.demand (s : State) (g : Group) : Nat := s.granulesUsed g + s.granulesReserved g

/-- Granules that no share covers and no group has borrowed: comb free net of reservations (R273). -/
def State.combFree (s : State) (comb : Nat) : Nat :=
  2 ^ 18 - ((s.groups.filter fun e => e.2.comb == comb).foldl (fun n e => n + max e.2.share (s.demand e.2)) 0)

/-- Whether the group can provide what a write to the block at an offset must reserve: nothing more where a write that is
not performed has reserved the block already (R274). -/
def State.reserve (s : State) (g : Group) (o : Nat) : Bool :=
  let r := 8 - s.blockSize g o
  let d := s.demand g
  g.inSlots o || (s.openBlocks g).contains (o / 256) || decide (max g.share (d + r) - max g.share d ≤ s.combFree g.comb)

/-! ### Resolving the address of an access (R114, R217-R225) -/

/-- What an access is, for the checks of R217-R225: as `Access`, an `ared`, a sampler load, a barrier
word or a watch. -/
inductive Use where
  | load
  | store
  | atomic
  /-- `ared`: as an atomic, but it needs W alone -/
  | red
  | samp
  | bar (read : Bool)
  | watch
deriving DecidableEq, Repr

def Use.access : Use → Access
  | .load | .samp | .watch | .bar true => .load
  | .store | .red => .store
  | .atomic | .bar false => .atomic

/-- Whether an ephemeral page is known Expired. -/
def State.expiredAt (s : State) (pa : Nat) : Bool :=
  match sget (pa / 2 ^ 16) s.ephem with
  | some e => e.expired
  | none => false

/-- The kind and attribute causes of a translated page, and the waits for staging (R221, R235, R415, R448). -/
def State.pageChecks (s : State) (l : Loc) (u : Use) : Resolved × State :=
  let va := lo64 l.va
  let kind := leafKind l.leaf
  let write : Bool := match u with | .store | .atomic | .red => true | _ => false
  let meet : Bool := match u with | .bar _ | .watch => true | _ => false
  if u == .samp && !leafBit l.leaf 27 then (.trap 0x2B va, s)
  else if kind = 1 && (write || meet) then (.trap 0x27 va, s)
  else if (kind = 2 || kind = 3) && meet then (.trap 0x2A va, s)
  else if kind = 3 && (u == .atomic || u == .red) then (.trap 0x2A va, s)
  else if kind = 2 && !s.hostUp then (.trap 0x2D va, s)
  else if kind = 3 && u == .store && s.expiredAt l.key then (.trap 0x28 va, s)
  else if s.behindDegraded kind l.key then (.trap 0x72 va, s)
  else if kind = 1 then
    let line := l.key % 2 ^ 48 / 2 ^ 16
    let h := stagingHive line
    if !s.sealedAt l.key then (.trap 0x2E va, s)
    else if (s.hive h).staged.contains line then
      (.ok l, s.modHive h fun v => { v with staged := line :: v.staged.erase line })
    else if (s.hive h).staging.contains line then (.park (.staging line), s)
    else (.park (.staging line), (s.modHive h fun v => { v with staging := v.staging ++ [line] }).later (.stagingFill line))
  else (.ok l, s)

/-- The place that an access of a thread reaches, or its cause, or what it waits for (R114 step 4). -/
def State.resolve (s : State) (core cx : Nat) (va : W72) (n : Nat) (u : Use) : Resolved × State :=
  let c := s.ctx core cx
  let sp := (spaceOf va).toNat
  let a := lo64 va
  if 0xF5 ≤ sp then (.trap 0x25 a, s)
  else if 0xF0 ≤ sp then
    let away := awayAt core c
    let write : Bool := match u with | .load | .samp => false | _ => true
    if u == .samp then (.trap 0x2B a, s)
    else if away then (.trap 0x26 a, s)
    else if u != .load && u != .store && (sp == 0xF0 || sp == 0xF1 || sp == 0xF3) then (.trap 0x2A a, s)
    else
      match u, sp, s.group c.group with
      -- a barrier word in comb memory is a slot of the group, whatever the group's allocation; any other offset of the window has
      -- 0x46, and the model counts every address of space 0xF2 among its offsets (R284; log 79); the bank takes no write
      | .bar _, 0xF2, some g =>
        let key := if g.csize = 0 then slotKey g.comb c.group (a.toNat - g.cbase * 65536) else combKey g.comb a.toNat
        if g.inSlots a.toNat then (.ok ⟨.combMem, key, va, 0, 4, 0⟩, s) else (.trap 0x46 a, s)
      | .watch, 0xF2, some g =>
        if g.inSlots a.toNat && g.csize = 0 then (.ok ⟨.combMem, slotKey g.comb c.group (a.toNat - g.cbase * 65536), va, 0, 4, 0⟩, s)
        else
          match s.window core c.launch c.group away va n write with
          | .trap 0x26 a => (.trap 0x46 a, s)
          | r => (r, s)
      | .bar _, 0xF4, _ => (.trap 0x22 a, s)
      | .watch, 0xF4, _ => (.trap 0x22 a, s)
      | _, _, _ => (s.window core c.launch c.group away va n write, s)
  else
    match s.translate core cx va u.access with
    | (.ok l, s) =>
      -- the staging fill that the bundle has waited for met an uncorrectable error (R208)
      if leafKind l.leaf = 1 && c.replay == some (0x73, BitVec.ofNat 64 (l.key % 2 ^ 48 / 2 ^ 16)) then (.trap 0x73 a, s)
      else
        match s.pageChecks l u with
        | (.trap 0x72 a, s) => (.trap 0x72 a, s.noticeDegraded core cx a)
        | r => r
    | r => r

/-- As `resolve`, for every address of a list, the first cause deciding. -/
def State.resolveAll (s : State) (core cx : Nat) (n : Nat) (u : Use) : List W72 → (Except Resolved (List Loc)) × State
  | [] => (.ok [], s)
  | va :: l =>
    match s.resolve core cx va n u with
    | (.ok x, s) =>
      match State.resolveAll s core cx n u l with
      | (.ok xs, s) => (.ok (x :: xs), s)
      | r => r
    | (r, s) => (.error r, s)

/-- Whether a write of a thread's group at a resolved place gets its reservation; else it traps with 0x2C. -/
def State.reserveAt (s : State) (c : Ctx) (l : Loc) : Bool :=
  l.win != .combMem ||
    (match s.group c.group with
     | some g => s.reserve g (l.key - combKey g.comb 0)
     | none => true)

/-! ### What orders accesses (R121, R124, R240, R247, R249) -/

/-- Two places are served by one window port. -/
def samePort (a b : Loc) : Bool :=
  match a.win, b.win with
  | .glob, _ | _, .glob | .bank, _ | _, .bank => false
  | .combMem, .combMem => a.key / 2 ^ 24 == b.key / 2 ^ 24
  | .combMem, _ | _, .combMem => false
  | _, _ => a.key / 2 ^ 18 == b.key / 2 ^ 18

/-- Two places that one thread reaches through one window, or that one port serves (R247). -/
def sameWindow (a b : Loc) : Bool :=
  samePort a b || (a.win != .glob && b.win != .glob && 0xF0 ≤ (spaceOf a.va).toNat && spaceOf a.va == spaceOf b.va)

/-- Bytes that a record reads at each place: `ld.x` ignores its bytes 9-15 (R115). -/
def RecOp.bytes : RecOp → Nat
  | .ld .x _ => 9
  | .ld w _ => widthBytes w
  | .vec | .samp => 64
  | .gath e => elemBytes e
  | .amo _ d _ | .cas d _ _ => if d then 8 else 4
  | .remote _ => 0
  | .bits _ _ => 8

/-- Bytes that an access addresses at each place, by which it is aligned. -/
def RecOp.span : RecOp → Nat
  | .ld w _ => widthBytes w
  | o => o.bytes

/-- A record that another agent fills. -/
def RecOp.isRemote : RecOp → Bool
  | .remote _ => true
  | _ => false

/-- A record of an atomic. -/
def RecOp.atomic : RecOp → Bool
  | .amo .. | .cas .. => true
  | _ => false

/-- A record whose access is a load or an atomic that is not yet performed. -/
def Rec.open_ (r : Rec) : Bool := r.got.isNone && !r.op.isRemote && r.op != .samp
/-- A record whose value is fixed and has not yet filled its register. A save lets its access be made again (R180), so that a
later access of the thread to its sectors comes after the fill (R240). -/
def Rec.fixed (r : Rec) : Bool := r.got.isSome && !r.op.isRemote && r.op != .samp

/-- An access of some context of a core in the core's own scratchpad, to a sector of a place in it (R241). -/
def ownMeets (k : Loc) (m : Nat) (l : Loc) (n : Nat) : Bool := k.win == .own && l.win == .own && meets k.key m l.key n

/-- An earlier access that comes first is not performed: of the thread, to the same sector or port, or of another context of
the core, to the same sector of the core's own scratchpad (R240, R241, R247). -/
def State.behind (s : State) (core cx seq : Nat) (l : Loc) (n : Nat) : Bool :=
  let first (x : Nat) (k : Loc) (m : Nat) : Bool :=
    if x = cx then meets k.key m l.key n || sameWindow k l else ownMeets k m l n
  s.flights.any (fun f => match f.by_ with
    | .thread k x => k == core && f.id < seq && first x f.loc f.len
    | _ => false) ||
  (List.range 8).any fun x => (s.ctx core x).recs.any fun r =>
    r.seq < seq && (r.open_ || (r.fixed && x == cx)) &&
      r.locs.any fun k => if r.fixed then meets k.key r.op.bytes l.key n else first x k r.op.bytes

/-- An `ldsamp` of the thread, issued before a write or an atomic, whose line the write reaches and whose value has not come
(R240). -/
def State.sampBehind (s : State) (core cx seq : Nat) (l : Loc) (n : Nat) : Bool :=
  (s.ctx core cx).recs.any fun r => r.seq < seq && r.op == .samp && r.got.isNone && r.locs.any fun k => meets k.key 64 l.key n

/-- An earlier atomic of the thread, or a load that an `sinv` has found under way, which the thread's later loads follow
(R245, R256). -/
def State.fenced (s : State) (core cx seq : Nat) : Bool :=
  (s.ctx core cx).recs.any fun r => r.seq < seq && r.fence && r.open_

/-- Another access that the port of a local window has accepted is not performed: a port performs in acceptance order (R247). -/
def State.portTaken (s : State) (self : Nat) (l : Loc) : Bool :=
  s.flights.any (fun f => f.accepted && f.id != self && samePort f.loc l) ||
    s.cores.any fun e => e.2.ctxs.toList.any fun c => c.recs.any fun r =>
      r.accepted && r.got.isNone && r.seq != self && r.locs.any fun k => samePort k l

/-- The comb of an agent's threads; none for other agents. -/
def combOfAgent : Agent → Option Nat
  | .thread core _ | .engine core => some (combOf core)
  | _ => none

/-- A write or an atomic of a comb that was accepted, and so complete for Release(comb), before an access of that number
issued, and is not performed: the access comes after it (R120, R242). -/
def State.acceptedBefore (s : State) (comb seq : Nat) (l : Loc) (n : Nat) : Bool :=
  s.flights.any (fun f => f.accepted && f.acc ≤ seq && combOfAgent f.by_ == some comb && meets f.loc.key f.len l.key n) ||
  s.cores.any fun e => combOf e.1 == comb && e.2.ctxs.toList.any fun c => c.recs.any fun r =>
    r.accepted && r.acc ≤ seq && r.got.isNone && r.locs.any fun k => meets k.key r.op.bytes l.key n

/-- A store whose line the issuing core's L1 may hold only as the home has it: written through (R221). -/
def throughL1 (core : Nat) (l : Loc) : Bool :=
  l.win == .glob && leafClev l.leaf == 1 && leafKind l.leaf != 3 && (foreign core l || leafWpol l.leaf == 1)

/-- Writes, issued before a load, whose end the load waits for: a write-through store of a context of the core (R221), or a
write accepted for comb scope by a comb-mate. -/
def State.shadowed (s : State) (core seq : Nat) (l : Loc) (n : Nat) : Bool :=
  s.acceptedBefore (combOf core) seq l n || s.portTaken seq l ||
  s.flights.any fun f => f.id < seq && meets f.loc.key f.len l.key n &&
    (match f.by_ with
     | .thread k _ => k == core && throughL1 core f.loc
     | _ => false)

/-! ### Performing accesses -/

/-- Roots under which an address space is translated: those of threads, launches and what engines do for them. -/
def State.rootsOf (s : State) (asid : W16) : List W64 :=
  ((s.cores.flatMap fun e => (e.2.ctxs.toList.filter fun c => c.st != .free && c.asid == asid).map (·.ptroot)) ++
    (s.launches.filter fun e => e.2.asid == asid).map (·.2.ptroot) ++
    (s.xfers.filter fun e => e.2.asid == asid).map (·.2.ptroot)).eraseDups

/-- The roots for a page of an address space: the system's for space bytes from 0x80 on. -/
def State.rootsFor (s : State) (asid : W16) (va : W72) : List W64 := if 0x80 ≤ (spaceOf va).toNat then [0] else s.rootsOf asid

/-- An ephemeral page with the translation of an access on record, and the leaves that give it (R230, R231). -/
def State.seen (s : State) (e : EphPage) (l : Loc) : EphPage :=
  let page := mkVA (spaceOf l.va) (pageBase l.level (lo64 l.va))
  if e.maps.any fun m => m.asid == l.asid && m.page == page && !m.stale then e
  else
    let rs := (s.rootsFor l.asid l.va).filter fun r => s.walkPage r l.va == .leaf l.level l.leaf
    let m : EphMap := { asid := l.asid, page := page, every := leafBit l.leaf 16 || 0x80 ≤ (spaceOf l.va).toNat,
                        leaves := rs.filterMap fun r => (s.walkPath l.va (s.rootFor r (spaceOf l.va)) 5).getLast?,
                        stale := rs.isEmpty }
    { e with maps := m :: e.maps.filter fun k => !(k.asid == l.asid && k.page == page) }

/-- A store to the leaf of an ephemeral page makes its translation Stale (R230). -/
def State.staleLeaves (s : State) (key n : Nat) : State :=
  let hit (m : EphMap) : Bool := m.leaves.any fun a => a < key + n && key < a + 16
  if s.ephem.any fun e => e.2.maps.any hit then
    { s with ephem := s.ephem.map fun e =>
        (e.1, { e.2 with maps := e.2.maps.map fun m => if hit m then { m with stale := true } else m }) }
  else s

/-- Reads bytes of a place at its home: the value and its poison (R234, R236, R250, R449). -/
def State.readHome (s : State) (me : Agent) (l : Loc) (n : Nat) : Nat × Bool × State :=
  let plain : Nat × Bool × State := (s.rd l.key n, s.mem.poisoned l.key n, s)
  if s.marked me l n then (0, true, s)
  else if l.win == .glob && leafKind l.leaf = 3 then
    match sget (l.key / 2 ^ 16) s.ephem with
    | none => (0, true, s)
    | some e =>
      let plain := (plain.1, plain.2.1, { s with ephem := sset (l.key / 2 ^ 16) (s.seen e l) s.ephem })
      let s := plain.2.2
      let before := if e.wrote = s.now then e.before else e.deadline
      if e.expired || e.deadline ≤ s.now || before ≤ s.now || s.lostSector l.key then (0, true, s)
      else if e.sectors.contains (l.key / 32) then plain
      else
        let j := s.junkBytes n
        (j.1, false, j.2)
  else if l.win == .glob && s.lostSector l.key then (0, true, s)
  else plain

/-- The words of a core's scratchpad that a write reaches are kept for the running k-step of its engine, which may read them as
they were (R388). -/
def State.keepOperands (s : State) (key n : Nat) : State :=
  if key < 2 ^ 52 || 2 ^ 53 ≤ key then s
  else
    let core := (key - 2 ^ 52) / 2 ^ 18
    match (s.core core).eng.run with
    | none => s
    | some r =>
      let old := (List.range ((key + n - 1) / 4 - key / 4 + 1)).map fun i =>
        let a := (key / 4 + i) * 4
        (a, BitVec.ofNat 32 (s.rd a 4))
      s.modCore core fun k => { k with eng := { k.eng with run := some { r with seen := old ++ r.seen } } }

/-- Bytes take new values; watches and translations of ephemeral pages are told (R230, R295). -/
def State.putBytes (s : State) (key n : Nat) (w : List Host.Cell) (pois : List Nat) : State :=
  ({ s with mem := (s.mem.putAll w).spoilAll pois }.wakeWatches key n).staleLeaves key n

/-- Writes bytes at their place: ephemeral pages accept or discard (R234, R235), lost sectors come back (R449), blocks of
comb memory stored 1:1 are compressed again (R272), a running k-step sees its operands change (R388), watches are told
(R295). -/
def State.writeHome (s : State) (l : Loc) (n : Nat) (w : List Host.Cell) (pois : List Nat) : State :=
  let put (s : State) : State := s.putBytes l.key n w pois
  if l.win == .glob && leafKind l.leaf = 3 then
    let frame := l.key / 2 ^ 16
    let life := (l.leaf.extractLsb' 28 4).toNat
    let dl := s.now + 36800 * 2 ^ life
    let go (e : EphPage) : State :=
      let new := (sectorsOf l.key n).filter fun x => !e.sectors.contains x
      let s := new.foldl (fun s x => s.freshSector x) s
      let s := s.relight l.key n
      put { s with ephem := sset frame { s.seen e l with sectors := new ++ e.sectors } s.ephem }
    match sget frame s.ephem with
    | none => go { deadline := dl, before := 0, wrote := s.now }
    | some e =>
      if e.expired || e.deadline ≤ s.now then s
      else go { e with deadline := max e.deadline dl, before := if e.wrote = s.now then e.before else e.deadline,
                       wrote := s.now }
  else if l.win == .glob then put (s.relight l.key n)
  else if l.win == .combMem then
    let comb := (l.key - 2 ^ 53) / 2 ^ 24
    let lo := (l.key - combKey comb 0) / 256
    put (if (s.comb comb).raw.contains lo then s.modComb comb fun c => { c with raw := c.raw.erase lo } else s)
  else put (s.keepOperands l.key n)

/-- The result of an atomic operation on a word of d ? 8 : 4 bytes (R123); the FP32 ones keep subnormals and raise no
flag. -/
def amoResult (o : AmoOp) (d : Bool) (old b : W64) : W64 :=
  let n := if d then 64 else 32
  let sx (x : W64) : Int := (BitVec.ofNat n x.toNat).toInt
  let ux (x : W64) : Nat := (BitVec.ofNat n x.toNat).toNat
  match o with
  | .add => old + b
  | .and => old &&& b
  | .or => old ||| b
  | .xor => old ^^^ b
  | .min => if sx old ≤ sx b then old else b
  | .max => if sx old ≤ sx b then b else old
  | .minu => if ux old ≤ ux b then old else b
  | .maxu => if ux old ≤ ux b then b else old
  | .swap => b
  | .fadd => fp (fp32.add amoMode)
  | .fmin => fp (fp32.minMaxNum amoMode false)
  | .fmax => fp (fp32.minMaxNum amoMode true)
where
  /-- RNE, subnormals kept -/
  amoMode : FMode := { rm := .rne, daz := false, ftz := false }
  fp (f : Nat → Nat → FRes) : W64 := BitVec.ofNat 64 (f (old.toNat % 2 ^ 32) (b.toNat % 2 ^ 32)).bits

/-- Reads up to a line of 64 bytes at its home, sector by sector. -/
def State.readAt (s : State) (me : Agent) (l : Loc) (n : Nat) : Nat × Bool × State :=
  if n ≤ 32 then s.readHome me l n
  else
    let a := s.readHome me l 32
    let b := a.2.2.readHome me { l with key := l.key + 32 } (n - 32)
    (a.1 + 2 ^ 256 * b.1, a.2.1 || b.2.1, b.2.2)

/-- Lines of a core's L1 of 64 KiB (R12). -/
def l1Lines : Nat := 1024

/-- A 512-bit value with its low (0) or high (1) sector set. -/
def putSector (d : W512) (x v : Nat) : W512 :=
  BitVec.ofNat 512 (if x = 0 then v % 2 ^ 256 + 2 ^ 256 * (d.toNat / 2 ^ 256) else d.toNat % 2 ^ 256 + 2 ^ 256 * v)

/-- A copy with a sector filled. -/
def L1Line.fill (c : L1Line) (x v : Nat) : L1Line :=
  { c with data := putSector c.data x v, has := x :: c.has.erase x, pois := c.pois.filter fun i => i / 32 != x }

/-- Fills the sectors of a place that a core's L1 has no copy of, where the page allows it and they read without poison (R23,
R221); a full L1 loses a line that a free choice names. -/
def State.l1Fill (s : State) (core : Nat) (l : Loc) (n : Nat) : State :=
  let line := l.key / 64
  if leafClev l.leaf = 1 && leafKind l.leaf != 3 && foreign core l then
    let c : L1Line := ((s.core core).l1.find? fun c => c.line == line).getD { line := line, data := 0, has := [] }
    let at_ (x : Nat) : Loc := { l with key := 64 * line + 32 * x }
    let new := ((sectorsOf l.key n).map (· % 2)).filter fun x =>
      !c.has.contains x && !s.marked .installer (at_ x) 32 && !(s.readHome .installer (at_ x) 32).2.1
    let c' := new.foldl (fun c x => c.fill x (s.rd (64 * line + 32 * x) 32)) c
    if new = [] then s
    else if (s.core core).l1.any (fun c => c.line == line) then
      s.modCore core fun k => { k with l1 := k.l1.map fun e => if e.line = line then c' else e }
    else if (s.core core).l1.length < l1Lines then s.modCore core fun k => { k with l1 := c' :: k.l1 }
    else
      let p := s.pick l1Lines
      p.2.modCore core fun k => { k with l1 := c' :: k.l1.eraseIdx p.1 }
  else s

/-- A 512-bit value with byte i set. -/
def putByte (d : W512) (i : Nat) (b : Byte) : W512 := (d &&& ~~~((0xFF : W512) <<< (8 * i))) ||| (b.setWidth 512 <<< (8 * i))

/-- An L1 copy with the bytes of a store (R221). -/
def L1Line.store (c : L1Line) (w : List Host.Cell) (pois : List Nat) : L1Line :=
  let c := w.foldl (fun c x =>
    if x.1 / 64 = c.line then { c with data := putByte c.data (x.1 % 64) x.2, pois := c.pois.erase (x.1 % 64) } else c) c
  pois.foldl (fun c a => if a / 64 = c.line then { c with pois := a % 64 :: c.pois.erase (a % 64) } else c) c

/-- Takes the copy of a line out of a core's L1. -/
def State.l1Drop (s : State) (core line : Nat) : State :=
  s.modCore core fun c => { c with l1 := c.l1.filter fun x => x.line != line }

/-- A thread's load of bytes of one sector is performed: from an L1 copy of a sector that the home does not track, which a free
choice may have evicted, or at the home (R238, R243, R245). -/
def State.loadSector (s : State) (core cx : Nat) (l : Loc) (n : Nat) (atHome : Bool) : Nat × Bool × State :=
  let home (s : State) : Nat × Bool × State :=
    let r := s.readHome (.thread core cx) l n
    (r.1, r.2.1, if atHome || r.2.1 then r.2.2 else r.2.2.l1Fill core l n)
  if atHome || !foreign core l then home s
  else
    match (s.core core).l1.find? fun c => c.line == l.key / 64 && c.has.contains (l.key / 32 % 2) with
    | none => home s
    | some c =>
      let p := s.pick 2
      let o := l.key % 64
      if p.1 = 0 then
        if c.pois.any fun i => o ≤ i && i < o + n then (0, true, p.2)
        else (c.data.toNat / 256 ^ o % 256 ^ n, false, p.2)
      else home (p.2.l1Drop core (l.key / 64))

/-- A thread's load of up to a line of 64 bytes, sector by sector. -/
def State.loadAt (s : State) (core cx : Nat) (l : Loc) (n : Nat) (atHome : Bool) : W512 × Bool × State :=
  if n ≤ 32 then
    let a := s.loadSector core cx l n atHome
    (BitVec.ofNat 512 a.1, a.2.1, a.2.2)
  else
    let a := s.loadSector core cx l 32 atHome
    let b := a.2.2.loadSector core cx { l with key := l.key + 32 } (n - 32) atHome
    (BitVec.ofNat 512 (a.1 + 2 ^ 256 * b.1), a.2.1 || b.2.1, b.2.2)

/-- Acquire(S) at a core (R120). -/
def State.acquire (s : State) (core : Nat) (sc : Scope) : State :=
  if sc = .comb then s else s.modCore core fun c => { c with l1 := [] }

/-- Release(S) over a thread's accesses numbered below a bound is complete (R120). -/
def State.released (s : State) (core cx : Nat) (sc : Scope) (below : Nat) : Bool :=
  !(s.flights.any fun f => f.by_ == .thread core cx && f.id < below && (sc != .comb || !f.accepted)) &&
    !((s.ctx core cx).recs.any fun r => r.seq < below && !r.op.isRemote && (sc != .comb || !r.accepted))

/-- The loads and atomics of a thread numbered below a bound have their values. -/
def State.valued (s : State) (core cx below : Nat) : Bool :=
  !((s.ctx core cx).recs.any fun r => r.seq < below && !r.op.isRemote)

/-! ### Fills (R116, R164) -/

/-- What a fill writes into a scalar register. -/
def RecOp.scalar (o : RecOp) (raw : W512) : W72 :=
  let x := raw.extractLsb' 0 64
  match o with
  | .ld .x _ => raw.extractLsb' 0 72
  | .ld w true => sx72 (sext64 (widthBytes w) x.toNat)
  | .amo _ d _ | .cas d _ _ => sx72 (sext64 (if d then 8 else 4) x.toNat)
  -- a remote fill carries all 72 bits
  | .remote _ => raw.extractLsb' 0 72
  | _ => sx72 x

/-- A fill: the register is written, and full unless another record names it. -/
def Ctx.fillReg (c : Ctx) (r : Rec) (raw : W512) (pois : Bool) : Ctx :=
  let recs := c.recs.filter fun k => k.seq != r.seq
  let more := recs.any fun k => k.isV == r.isV && k.reg == r.reg
  let c := { c with recs := recs }
  if r.isV then (c.setV r.reg raw pois).markV r.reg (!more || (c.vreg r.reg).full)
  else (c.setS r.reg (r.op.scalar raw) pois).markS r.reg (!more || (c.sreg r.reg).full)

/-- What becomes of a record whose access is tried. -/
inductive Tried where
  | wait
  | more (r : Rec)
  | done (raw : W512) (pois : Bool)
deriving DecidableEq, Repr

/-- The bits of a field in words of 8 bytes (R191). -/
def bitsOf (words : List Nat) (shift len : Nat) : Nat := words.foldr (fun w n => w + 2 ^ 64 * n) 0 / 2 ^ shift % 2 ^ len

/-- What an access does whose channel has become degraded before it is performed: its value is poisoned or its write discarded,
and a thread has cause 0x72, as late as that (R448; log 80). -/
def State.degradedAt (s : State) (l : Loc) : Bool := l.win == .glob && s.behindDegraded (leafKind l.leaf) l.key
def State.takeDegraded (s : State) (me : Agent) (va : W72) : State :=
  match me with
  | .thread core cx =>
    (s.modCtx core cx fun c => { c with asyncs := c.asyncs ++ [(0x72, lo64 va)] }).noticeDegraded core cx (lo64 va)
  | _ => s

/-- The access of a record, at its moment (R238, R250). -/
def State.tryRec (s : State) (core cx : Nat) (r : Rec) : Tried × State :=
  let n := r.op.bytes
  let sync := r.ord = .acq || r.ord = .sc
  let me : Agent := .thread core cx
  match r.got with
  | some (raw, pois) => (.done raw pois, s)
  | none =>
    if r.op = .samp || s.fenced core cx r.seq || r.locs.any (fun l => s.behind core cx r.seq l n || s.shadowed core r.seq l n ||
        s.stalled l || (r.op.atomic && s.sampBehind core cx r.seq l n) || ((sync || r.op.atomic) && s.marked me l n)) then (.wait, s)
    else
      match r.locs.find? s.degradedAt with
      | some l => (.done 0 true, s.takeDegraded me l.va)
      | none =>
      match r.op, r.locs with
      | .gath e, ls =>
        let left := (List.range 16).filter fun i => !r.part.any fun p => p.1 == i
        let p := s.pick left.length
        let i := left.getD p.1 0
        match ls[i]? with
        | none => (.done 0 true, s)
        | some l =>
          let v := p.2.loadAt core cx l n (sync && r.scope != .comb)
          let w : W32 := match e with
            | .b => (v.1.extractLsb' 0 8).signExtend 32
            | .h => (v.1.extractLsb' 0 16).signExtend 32
            | .w => v.1.extractLsb' 0 32
          let part := r.part ++ [(i, w, v.2.1)]
          if part.length < 16 then (.more { r with part := part }, v.2.2)
          else
            (.done (pack16 fun i => match part.find? (fun p => p.1 == i) with | some p => p.2.1 | none => 0)
              (part.any fun p => p.2.2), v.2.2)
      | .bits sh k, ls =>
        (.done (BitVec.ofNat 512 (bitsOf (ls.map fun l => s.rd l.key 8) sh k)) (ls.any fun l => s.mem.poisoned l.key 8), s)
      | .amo o d b, l :: _ =>
        let v := (s.l1Drop core (l.key / 64)).readAt me l n
        if v.2.1 then (.done 0 true, v.2.2)
        else
          (.done (BitVec.ofNat 512 v.1) false,
           v.2.2.writeHome l n (cellsOf l.key (amoResult o d (BitVec.ofNat 64 v.1) b).toNat n) [])
      | .cas d cmp new, l :: _ =>
        let v := (s.l1Drop core (l.key / 64)).readAt me l n
        if v.2.1 then (.done 0 true, v.2.2)
        else if v.1 = cmp.toNat % (if d then 2 ^ 64 else 2 ^ 32) then
          (.done (BitVec.ofNat 512 v.1) false, v.2.2.writeHome l n (cellsOf l.key new.toNat n) [])
        else (.done (BitVec.ofNat 512 v.1) false, v.2.2)
      | _, l :: _ =>
        let v := s.loadAt core cx l n (sync && r.scope != .comb)
        (.done v.1 v.2.1, v.2.2)
      | _, [] => (.done 0 true, s)

/-! ### Issue of loads and stores -/

/-- The value of a load in the core's own scratchpad, which serves accesses as they issue (R241). -/
def State.ownValue (s : State) (op : RecOp) (locs : List Loc) : Option (W512 × Bool) :=
  let n := op.bytes
  if locs.all fun l => l.win == .own then
    match op, locs with
    | .gath e, ls =>
      let el (i : Nat) : W32 :=
        let x := BitVec.ofNat 32 (s.rd ((ls.map (·.key)).getD i 0) n)
        match e with
        | .b => (x.extractLsb' 0 8).signExtend 32
        | .h => (x.extractLsb' 0 16).signExtend 32
        | .w => x
      some (pack16 el, ls.any fun l => s.mem.poisoned l.key n)
    | .ld _ _, l :: _ | .vec, l :: _ =>
      some (BitVec.ofNat 512 (s.rd l.key n), s.mem.poisoned l.key n)
    | _, _ => none
  else none

/-- A new record of the executing thread: its register is marked empty (R116). -/
def State.issueRec (s : State) (isV : Bool) (reg : BitVec 4) (op : RecOp) (locs : List Loc) (r : Ord) (sc : Scope) : State :=
  let core := s.sel.1
  let cx := s.sel.2
  let waits := s.fenced core cx s.seq || locs.any fun l => s.behind core cx s.seq l op.bytes || s.portTaken s.seq l
  let got := if waits then none else s.ownValue op locs
  let rec_ : Rec :=
    { seq := s.seq, isV := isV, reg := reg, op := op, locs := locs, ord := r, scope := sc, got := got, fence := op.atomic }
  let s := s.fresh.modHere fun c =>
    let c := { c with recs := c.recs ++ [rec_] }
    if isV then c.markV reg false else c.markS reg false
  if op.isRemote then s else s.later (.fill core cx isV reg)

/-- A store of a thread that `fence.ss` holds back: an earlier store is not yet visible at the fence's scope (R124). -/
def State.storesHeld (s : State) (core cx : Nat) : Bool :=
  let c := s.ctx core cx
  s.flights.any fun f => f.by_ == .thread core cx && (f.id < c.storeFence || (f.id < c.storeFenceComb && !f.accepted))

/-- A write of the executing thread: performed at once in its own core's scratchpad, unless an earlier access comes first,
else on its way (R238, R241). -/
def State.issueWrite (s : State) (l : Loc) (n : Nat) (op : FlightOp) : State :=
  let core := s.sel.1
  let cx := s.sel.2
  let sent : State :=
    let c := s.here
    let f : Flight := { id := s.seq, by_ := .thread core cx, loc := l, len := n, op := op, after := c.storeFence,
                        afterComb := c.storeFenceComb }
    ({ s.fresh with flights := s.flights ++ [f] }).later (.storeAcknowledgement s.seq)
  match l.win, op with
  | .own, .bytes w pois =>
    if s.behind core cx s.seq l n || s.portTaken s.seq l || s.storesHeld core cx then sent else s.writeHome l n w pois
  | _, _ => sent

/-- A write in flight may take its next step: what comes first is performed, or accepted where that is enough. -/
def State.flightReady (s : State) (f : Flight) : Bool :=
  !(s.flights.any fun e => e.by_ == f.by_ && e.id < f.id &&
      (f.by_ == .host || meets e.loc.key e.len f.loc.key f.len || sameWindow e.loc f.loc || e.id < f.after ||
        (e.id < f.afterComb && !e.accepted))) &&
    (match f.by_ with
     | .thread core cx => !s.behind core cx f.id f.loc f.len && !s.sampBehind core cx f.id f.loc f.len
     | _ => true) &&
    !((combOfAgent f.by_).any fun comb => s.acceptedBefore comb f.id f.loc f.len) && !s.portTaken f.id f.loc &&
    !s.stalled f.loc &&
    (match f.op with | .ared .. => !s.marked f.by_ f.loc f.len | .bytes .. => true)

/-- The L1 copies of a writer's core change: of a thread's alone. -/
def State.modL1 (s : State) (me : Agent) (f : List L1Line → List L1Line) : State :=
  match me with
  | .thread core _ => s.modCore core fun c => { c with l1 := f c.l1 }
  | _ => s

/-- The block at a place of comb memory is stored 1:1 from now on (R272). -/
def State.keepRaw (s : State) (raw : Bool) (l : Loc) : State :=
  if raw && l.win == .combMem then
    let comb := (l.key - 2 ^ 53) / 2 ^ 24
    s.modComb comb fun c => { c with raw := addMark ((l.key - combKey comb 0) / 256) c.raw }
  else s

/-- The write of a flight is performed and acknowledged: an L1 copy of the writer's core takes the bytes of a store, and an
`ared` drops it (R122, R221); a block that is stored 1:1 is so from now on. -/
def State.performFlight (s : State) (f : Flight) : State :=
  let s := { s with flights := s.flights.filter fun e => e.id != f.id }
  if s.degradedAt f.loc then s.takeDegraded f.by_ f.loc.va
  else
  match f.op with
  | .bytes w pois => ((s.writeHome f.loc f.len w pois).keepRaw f.raw f.loc).modL1 f.by_ (·.map (·.store w pois))
  | .ared o d b =>
    let s := s.modL1 f.by_ (·.filter fun x => x.line != f.loc.key / 64)
    let v := s.readAt f.by_ f.loc f.len
    if v.2.1 then v.2.2
    else v.2.2.writeHome f.loc f.len (cellsOf f.loc.key (amoResult o d (BitVec.ofNat 64 v.1) b).toNat f.len) []

/-- An engine's or the host's write on its way; one of a transfer may store its block of comb memory 1:1 (R221). -/
def State.engineWrite (s : State) (me : Agent) (l : Loc) (n : Nat) (w : List Host.Cell) (pois : List Nat)
    (raw : Bool := false) : State :=
  let f : Flight := { id := s.seq, by_ := me, loc := l, len := n, op := .bytes w pois, raw := raw }
  ({ s.fresh with flights := s.flights ++ [f] }).later (.storeAcknowledgement s.seq)

end Sys2Proof.Machine
end

