-- ==== Sys2Proof/Machine/Scalar.lean ====
section
/-! DEFINITION. Integer arithmetic, immediates, bit fields, addresses, predicates and select (spec/05_scalar.md
R95-R108). -/

namespace Sys2Proof.Machine

/-- The executing thread's context changes and its bundle completes. -/
def State.commitHere (s : State) (f : Ctx → Ctx) : Outcome := s.commit fun s => s.modHere f

/-- A scalar result under R98: bits [63:0] with the sign extension of bit 63; a poisoned source poisons it (R96). -/
def Ctx.result (c : Ctx) (d : BitVec 4) (x : W64) (pois : Bool) : Ctx := c.setS d (sx72 x) pois

/-- Bits [63:0] of a scalar register. -/
def Ctx.sval64 (c : Ctx) (r : BitVec 4) : W64 := lo64 (c.sreg r).val

/-- sD from sA and sB. -/
def State.alu2 (s : State) (g d a b : BitVec 4) (f : W64 → W64 → W64) : Outcome :=
  s.guarded g fun s => s.commitHere fun c =>
    c.result d (f (c.sval64 a) (c.sval64 b)) ((c.sreg a).pois || (c.sreg b).pois)

/-- sD from sA. -/
def State.alu1 (s : State) (g d a : BitVec 4) (f : W64 → W64) : Outcome :=
  s.guarded g fun s => s.commitHere fun c => c.result d (f (c.sval64 a)) (c.sreg a).pois

def smin64 (x y : W64) : W64 := if x.toInt ≤ y.toInt then x else y
def smax64 (x y : W64) : W64 := if x.toInt ≤ y.toInt then y else x
def umin64 (x y : W64) : W64 := if x.toNat ≤ y.toNat then x else y
def umax64 (x y : W64) : W64 := if x.toNat ≤ y.toNat then y else x

/-- Leading zeros of 64 bits. -/
def clz64 (x : W64) : W64 := if x = 0 then 64 else BitVec.ofNat 64 (63 - x.toNat.log2)

/-- Trailing zeros among n bits. -/
def ctzFrom (x : Nat) : Nat → Nat
  | 0 => 0
  | n + 1 => if x % 2 = 1 then 0 else 1 + ctzFrom (x / 2) n

/-- Ones among n bits. -/
def popFrom (x : Nat) : Nat → Nat
  | 0 => 0
  | n + 1 => x % 2 + popFrom (x / 2) n

/-- The element of `sext`, sign-extended (R100). -/
def sextOf (e : Elem) (x : W64) : W64 :=
  match e with
  | .b => (x.extractLsb' 0 8).signExtend 64
  | .h => (x.extractLsb' 0 16).signExtend 64
  | .w => (x.extractLsb' 0 32).signExtend 64

/-- `add` (R100). -/
def execAdd (g d a b : BitVec 4) (s : State) : Outcome := s.alu2 g d a b fun x y => x + y
/-- `sub`. -/
def execSub (g d a b : BitVec 4) (s : State) : Outcome := s.alu2 g d a b fun x y => x - y
/-- `mul`: low 64 bits. -/
def execMul (g d a b : BitVec 4) (s : State) : Outcome := s.alu2 g d a b fun x y => x * y
/-- `mulh`: high 64 bits of the signed product. -/
def execMulh (g d a b : BitVec 4) (s : State) : Outcome :=
  s.alu2 g d a b fun x y => BitVec.ofInt 64 (x.toInt * y.toInt / 2 ^ 64)
/-- `mulhu`: high 64 bits of the unsigned product. -/
def execMulhu (g d a b : BitVec 4) (s : State) : Outcome :=
  s.alu2 g d a b fun x y => BitVec.ofNat 64 (x.toNat * y.toNat / 2 ^ 64)

/-- A division or remainder: a zero divisor traps with 0x19 or sets `fflags`[5] (R69). -/
def State.divOp (s : State) (g d a b : BitVec 4) (zero : W64 → W64) (f : W64 → W64 → W64) : Outcome :=
  s.guarded g fun s =>
    let c := s.here
    let x := c.sval64 a
    let y := c.sval64 b
    if (c.sreg a).pois || (c.sreg b).pois then s.commitHere fun c => c.result d 0 true
    else if y = 0 then
      if c.fmode.getLsbD 9 then .next (s.raise 0x19 0)
      else s.commitHere fun c => { c.result d (zero x) false with fflags := c.fflags ||| 0x20 }
    else s.commitHere fun c => c.result d (f x y) false

/-- `div`: truncates toward zero; MIN ÷ −1 is MIN (R69). -/
def execDiv (g d a b : BitVec 4) (s : State) : Outcome :=
  s.divOp g d a b (fun _ => BitVec.allOnes 64) fun x y => BitVec.ofInt 64 (x.toInt.tdiv y.toInt)
/-- `divu`. -/
def execDivu (g d a b : BitVec 4) (s : State) : Outcome :=
  s.divOp g d a b (fun _ => BitVec.allOnes 64) fun x y => BitVec.ofNat 64 (x.toNat / y.toNat)
/-- `rem`: the sign of the dividend. -/
def execRem (g d a b : BitVec 4) (s : State) : Outcome :=
  s.divOp g d a b id fun x y => BitVec.ofInt 64 (x.toInt.tmod y.toInt)
/-- `remu`. -/
def execRemu (g d a b : BitVec 4) (s : State) : Outcome :=
  s.divOp g d a b id fun x y => BitVec.ofNat 64 (x.toNat % y.toNat)

/-- `and`. -/
def execAnd (g d a b : BitVec 4) (s : State) : Outcome := s.alu2 g d a b fun x y => x &&& y
/-- `or`. -/
def execOr (g d a b : BitVec 4) (s : State) : Outcome := s.alu2 g d a b fun x y => x ||| y
/-- `xor`. -/
def execXor (g d a b : BitVec 4) (s : State) : Outcome := s.alu2 g d a b fun x y => x ^^^ y
/-- `andn`: a and not b. -/
def execAndn (g d a b : BitVec 4) (s : State) : Outcome := s.alu2 g d a b fun x y => x &&& ~~~y
/-- `shl` by b[5:0]. -/
def execShl (g d a b : BitVec 4) (s : State) : Outcome := s.alu2 g d a b fun x y => x <<< (y.toNat % 64)
/-- `shr` by b[5:0]. -/
def execShr (g d a b : BitVec 4) (s : State) : Outcome := s.alu2 g d a b fun x y => x >>> (y.toNat % 64)
/-- `sra` by b[5:0]. -/
def execSra (g d a b : BitVec 4) (s : State) : Outcome := s.alu2 g d a b fun x y => x.sshiftRight (y.toNat % 64)
/-- `min`, signed. -/
def execMin (g d a b : BitVec 4) (s : State) : Outcome := s.alu2 g d a b smin64
/-- `max`, signed. -/
def execMax (g d a b : BitVec 4) (s : State) : Outcome := s.alu2 g d a b smax64
/-- `minu`. -/
def execMinu (g d a b : BitVec 4) (s : State) : Outcome := s.alu2 g d a b umin64
/-- `maxu`. -/
def execMaxu (g d a b : BitVec 4) (s : State) : Outcome := s.alu2 g d a b umax64
/-- `clz`. -/
def execClz (g d a : BitVec 4) (s : State) : Outcome := s.alu1 g d a clz64
/-- `ctz`. -/
def execCtz (g d a : BitVec 4) (s : State) : Outcome := s.alu1 g d a fun x => BitVec.ofNat 64 (ctzFrom x.toNat 64)
/-- `pcnt`. -/
def execPcnt (g d a : BitVec 4) (s : State) : Outcome := s.alu1 g d a fun x => BitVec.ofNat 64 (popFrom x.toNat 64)
/-- `sext.b`, `sext.h`, `sext.w`. -/
def execSext (g d a : BitVec 4) (e : Elem) (s : State) : Outcome := s.alu1 g d a (sextOf e)
/-- `mov`: all 72 bits (R98). -/
def execMov (g d a : BitVec 4) (s : State) : Outcome :=
  s.guarded g fun s => s.commitHere fun c => c.setS d (c.sreg a).val (c.sreg a).pois

/-! ### Immediates and bit fields (R101, R102) -/

/-- `addi`. -/
def execAddi (g d a : BitVec 4) (i : Imm 13) (s : State) : Outcome := s.alu1 g d a fun x => x + immOf i
/-- `andi`. -/
def execAndi (g d a : BitVec 4) (i : Imm 13) (s : State) : Outcome := s.alu1 g d a fun x => x &&& immOf i
/-- `ori`. -/
def execOri (g d a : BitVec 4) (i : Imm 13) (s : State) : Outcome := s.alu1 g d a fun x => x ||| immOf i
/-- `xori`. -/
def execXori (g d a : BitVec 4) (i : Imm 13) (s : State) : Outcome := s.alu1 g d a fun x => x ^^^ immOf i
/-- `shli`. -/
def execShli (g d a : BitVec 4) (n : BitVec 6) (s : State) : Outcome := s.alu1 g d a fun x => x <<< n.toNat
/-- `shri`. -/
def execShri (g d a : BitVec 4) (n : BitVec 6) (s : State) : Outcome := s.alu1 g d a fun x => x >>> n.toNat
/-- `srai`. -/
def execSrai (g d a : BitVec 4) (n : BitVec 6) (s : State) : Outcome := s.alu1 g d a fun x => x.sshiftRight n.toNat
/-- `movi`. -/
def execMovi (g d : BitVec 4) (i : Imm 13) (s : State) : Outcome :=
  s.guarded g fun s => s.commitHere fun c => c.result d (immOf i) false
/-- `orh`: the immediate's 32 bits into bits [63:32]. -/
def execOrh (g d a : BitVec 4) (i : Imm 13) (s : State) : Outcome := s.alu1 g d a fun x => x ||| (immOf i <<< 32)

/-- The field of R102, zero-extended; n is its length less one. -/
def field64 (p : BitVec 6) (n : BitVec 5) (x : W64) : W64 := (x >>> p.toNat) &&& BitVec.ofNat 64 (2 ^ (n.toNat + 1) - 1)

/-- `bfx`. -/
def execBfx (g d a : BitVec 4) (p : BitVec 6) (n : BitVec 5) (s : State) : Outcome := s.alu1 g d a (field64 p n)
/-- `bfxs`: sign-extended from the field's top bit. -/
def execBfxs (g d a : BitVec 4) (p : BitVec 6) (n : BitVec 5) (s : State) : Outcome :=
  s.alu1 g d a fun x => ((field64 p n x) <<< (63 - n.toNat)).sshiftRight (63 - n.toNat)
/-- `bfi`: reads sD as well (R102). -/
def execBfi (g d a : BitVec 4) (p : BitVec 6) (n : BitVec 5) (s : State) : Outcome :=
  s.guarded g fun s => s.commitHere fun c =>
    let mask : W64 := BitVec.ofNat 64 (2 ^ (n.toNat + 1) - 1) <<< p.toNat
    c.result d ((c.sval64 d &&& ~~~mask) ||| ((c.sval64 a <<< p.toNat) &&& mask)) ((c.sreg a).pois || (c.sreg d).pois)

/-! ### Addresses (R103) -/

/-- `lea`: the base keeps its space byte. -/
def execLea (g d a b : BitVec 4) (n : BitVec 2) (s : State) : Outcome :=
  s.guarded g fun s => s.commitHere fun c =>
    c.setS d (mkVA (spaceOf (c.sreg a).val) (c.sval64 a + (c.sval64 b <<< n.toNat))) ((c.sreg a).pois || (c.sreg b).pois)
/-- `leai`. -/
def execLeai (g d a : BitVec 4) (i : Imm 13) (s : State) : Outcome :=
  s.guarded g fun s => s.commitHere fun c =>
    c.setS d (mkVA (spaceOf (c.sreg a).val) (c.sval64 a + immOf i)) (c.sreg a).pois
/-- `setsp`. -/
def execSetsp (g d a : BitVec 4) (sp : BitVec 8) (s : State) : Outcome :=
  s.guarded g fun s => s.commitHere fun c => c.setS d (mkVA sp (c.sval64 a)) (c.sreg a).pois
/-- `getsp`: sD's own space byte, zero-extended. -/
def execGetsp (g d : BitVec 4) (s : State) : Outcome :=
  s.guarded g fun s => s.commitHere fun c => c.setS d ((spaceOf (c.sreg d).val).setWidth 72) (c.sreg d).pois

/-! ### Predicates and select (R105-R108) -/

/-- The conditions of R106. -/
def condHolds (c : Cond) (x y : W64) : Bool :=
  match c with
  | .eq => x == y
  | .ne => x != y
  | .lt => x.toInt < y.toInt
  | .ge => y.toInt ≤ x.toInt
  | .ltu => x.toNat < y.toNat
  | .geu => y.toNat ≤ x.toNat
  | .tst => x &&& y != 0

/-- `cmp.cond`. -/
def execCmp (g : BitVec 4) (p : BitVec 3) (a b : BitVec 4) (k : Cond) (s : State) : Outcome :=
  s.guarded g fun s => s.commitHere fun c =>
    c.setP p (condHolds k (c.sval64 a) (c.sval64 b)) ((c.sreg a).pois || (c.sreg b).pois)
/-- `cmpi.cond`. -/
def execCmpi (g : BitVec 4) (p : BitVec 3) (a : BitVec 4) (k : Cond) (i : Imm 10) (s : State) : Outcome :=
  s.guarded g fun s => s.commitHere fun c => c.setP p (condHolds k (c.sval64 a) (immOf i)) (c.sreg a).pois

/-- Predicate logic: the result takes the poison of any source (R107). -/
def State.plog (s : State) (g : BitVec 4) (d a b : BitVec 3) (f : Bool → Bool → Bool) : Outcome :=
  s.guarded g fun s => s.commitHere fun c =>
    c.setP d (f (c.preg a).val (c.preg b).val) ((c.preg a).pois || (c.preg b).pois)

/-- `pand`. -/
def execPand (g : BitVec 4) (d a b : BitVec 3) (s : State) : Outcome := s.plog g d a b fun x y => x && y
/-- `por`. -/
def execPor (g : BitVec 4) (d a b : BitVec 3) (s : State) : Outcome := s.plog g d a b fun x y => x || y
/-- `pxor`. -/
def execPxor (g : BitVec 4) (d a b : BitVec 3) (s : State) : Outcome := s.plog g d a b fun x y => x != y
/-- `pandn`. -/
def execPandn (g : BitVec 4) (d a b : BitVec 3) (s : State) : Outcome := s.plog g d a b fun x y => x && !y
/-- `pnot`. -/
def execPnot (g : BitVec 4) (d a : BitVec 3) (s : State) : Outcome := s.plog g d a a fun x _ => !x

/-- The word of `pword`: bit 0 set, bit N from pN. -/
def predWord (c : Ctx) : W64 :=
  BitVec.ofNat 64 ([1, 2, 3, 4, 5, 6, 7].foldl (fun a n => if (c.preg (BitVec.ofNat 3 n)).val then a + 2 ^ n else a) 1)

/-- `pword`. -/
def execPword (g d : BitVec 4) (s : State) : Outcome :=
  s.guarded g fun s => s.commitHere fun c =>
    c.result d (predWord c) ([1, 2, 3, 4, 5, 6, 7].any fun n => (c.preg (BitVec.ofNat 3 n)).pois)
/-- `pset`. -/
def execPset (g a : BitVec 4) (s : State) : Outcome :=
  s.guarded g fun s => s.commitHere fun c =>
    [1, 2, 3, 4, 5, 6, 7].foldl
      (fun k n => k.setP (BitVec.ofNat 3 n) ((c.sval64 a).getLsbD n) (c.sreg a).pois) c

/-- `sel`: all 72 bits and the poison of the chosen source; a poisoned predicate poisons sD (R108). -/
def execSel (g d a b : BitVec 4) (p : BitVec 3) (s : State) : Outcome :=
  s.guarded g fun s => s.commitHere fun c =>
    let x := if (c.preg p).val then c.sreg a else c.sreg b
    c.setS d x.val ((c.preg p).pois || x.pois)

end Sys2Proof.Machine
end

