-- ==== Sys2Proof/Machine/Mem.lean ====
section
/-! DEFINITION. Loads, stores, gathers, scatters, atomics, fences, cache control and the events that perform them
(spec/05_scalar.md R104, R114-R125, spec/14_problem_sampler.md R298-R299). -/

namespace Sys2Proof.Machine

/-- EA: the base keeps its space byte (R104). -/
def effAddr (base : W72) (off : W64) : W72 := mkVA (spaceOf base) (lo64 base + off)

/-- A byte address that is not a multiple of n. -/
def misaligned (va : W72) (n : Nat) : Bool := (lo64 va).toNat % n != 0

/-- The places of a form's addresses, or the state in which the bundle has trapped or waits (R114 steps 3 and 4). -/
def State.place (s : State) (vas : List W72) (n : Nat) (u : Use) : Option (List Loc) × State :=
  match vas.find? fun va => misaligned va n with
  | some va => (none, s.raise 0x24 (lo64 va))
  | none =>
    match s.resolveAll s.sel.1 s.sel.2 n u vas with
    | (.ok ls, s) => (some ls, s)
    | (.error (.trap code v), s) => (none, s.raise code v)
    | (.error (.park w), s) => (none, s.parkReplay w)
    | (.error (.ok _), s) => (none, s)

/-- Release(S) before an action: the bundle replays when it is complete. -/
def State.afterRelease (s : State) (need : Bool) (sc : Scope) (k : State → Outcome) : Outcome :=
  if need && !s.released s.sel.1 s.sel.2 sc s.seq then .next (s.parkReplay (.drain sc s.seq)) else k s

/-- An ord that has Release before its access (R121). -/
def relOf (r : Ord) : Bool := r == .rel || r == .sc
/-- An ord that has Acquire after its access. -/
def acqOf (r : Ord) : Bool := r == .acq || r == .sc

/-- After the access of that number: the thread goes on, or waits to acquire. -/
def State.finishAccess (s : State) (r : Ord) (seq : Nat) : State :=
  if acqOf r then s.parkStage (.acted 1) (.access seq) else s.finish

/-- The access of an acquiring form is complete: Acquire(S), and the bundle completes. -/
def State.acquired (s : State) (sc : Scope) : Outcome := .next (s.acquire s.sel.1 sc).finish

/-- A load of n bytes into a register. -/
def State.loadForm (s : State) (g : BitVec 4) (isV : Bool) (d a : BitVec 4) (off : W64) (op : RecOp) (r : Ord)
    (sc : Scope) : Outcome :=
  s.guarded g fun s =>
    match s.here.stage with
    | .acted _ => s.acquired sc
    | _ =>
      let b := s.here.sreg a
      if b.pois then .next (s.raise 0x10 (poisVal 0 a.toNat))
      else
        match s.place [effAddr b.val off] op.span .load with
        | (none, s) => .next s
        | (some ls, s) =>
          s.afterRelease (relOf r) sc fun s => s.commitTo fun s =>
            (s.issueRec isV d op ls r sc).finishAccess r s.seq

/-- `ld` (R115, R116). -/
def execLd (g d a : BitVec 4) (o : Imm 6) (wd : Width) (r : Ord) (sc : Scope) (s : State) : Outcome :=
  s.loadForm g false d a (offsetOf o (widthBytes wd)) (.ld wd true) r sc
/-- `ldz`. -/
def execLdz (g d a : BitVec 4) (o : Imm 6) (wd : Width) (r : Ord) (sc : Scope) (s : State) : Outcome :=
  s.loadForm g false d a (offsetOf o (widthBytes wd)) (.ld wd false) r sc
/-- `ldv` (R117). -/
def execLdv (g d a : BitVec 4) (o : Imm 6) (r : Ord) (sc : Scope) (s : State) : Outcome :=
  s.loadForm g true d a (offsetOf o 64) .vec r sc

/-- Whether the writes that a form makes at its places get the reservations that comb memory needs (R274). -/
def State.reserveAll (s : State) : List Loc → Bool
  | [] => true
  | l :: ls =>
    s.reserveAt s.here l &&
      -- earlier reservations of the same form count
      (let f : Flight := { id := s.seq, by_ := .thread s.sel.1 s.sel.2, loc := l, len := 1, op := .bytes [] [] }
       State.reserveAll { s with flights := s.flights ++ [f] } ls)

/-- A store of a value's n low bytes (R115-R117). -/
def State.storeForm (s : State) (g : BitVec 4) (a : BitVec 4) (off : W64) (n : Nat) (file : Nat) (d : BitVec 4)
    (val : Ctx → Nat × Bool) (r : Ord) (sc : Scope) : Outcome :=
  s.guarded g fun s =>
    match s.here.stage with
    | .acted _ => s.acquired sc
    | _ =>
      let b := s.here.sreg a
      let v := val s.here
      if b.pois then .next (s.raise 0x10 (poisVal 0 a.toNat))
      else if v.2 then .next (s.raise 0x11 (poisVal file d.toNat))
      else
        let va := effAddr b.val off
        match s.place [va] n .store with
        | (none, s) => .next s
        | (some ls, s) =>
          match ls, s.reserveAll ls with
          | l :: _, true =>
            s.afterRelease (relOf r) sc fun s => s.commitTo fun s =>
              (s.issueWrite l n (.bytes (cellsOf l.key v.1 n) [])).finishAccess r s.seq
          | _, _ => .next (s.raise 0x2C (lo64 va))

/-- `st`: an `.x` store writes bytes 9 to 15 as zero. -/
def execSt (g d a : BitVec 4) (o : Imm 6) (wd : Width) (r : Ord) (sc : Scope) (s : State) : Outcome :=
  s.storeForm g a (offsetOf o (widthBytes wd)) (widthBytes wd) 0 d
    (fun c => ((c.sreg d).val.toNat, (c.sreg d).pois)) r sc
/-- `stv`. -/
def execStv (g d a : BitVec 4) (o : Imm 6) (r : Ord) (sc : Scope) (s : State) : Outcome :=
  s.storeForm g a (offsetOf o 64) 64 1 d (fun c => ((c.vreg d).val.toNat, (c.vreg d).pois)) r sc

/-! ### The sampler path (R118, R298, R299) -/

/-- Set of a sampler line: PA[12:6]. -/
def sampSet (line : Nat) : Nat := line % 128

/-- Installs a line, which becomes the one served last; a full set loses the one served least recently. -/
def installSamp (l : List SampLine) (x : SampLine) : List SampLine :=
  let same := l.filter fun y => sampSet y.line == sampSet x.line
  let l := match decide (16 ≤ same.length), same.getLast? with
    | true, some y => l.erase y
    | _, _ => l
  x :: l.filter fun y => y.line != x.line

/-- A sampler load of a context, with the number of its record: it hits, or it joins the fill of its line or begins one
(R298). -/
def State.sampleLoad (s : State) (core cx seq : Nat) (l : Loc) : State :=
  let comb := combOf core
  match (s.comb comb).samp.find? fun x => x.line == l.key / 64 with
  | some x =>
    (s.modComb comb fun c => { c with samp := x :: c.samp.erase x }).modCtx core cx fun c =>
      { c with recs := c.recs.map fun r => if r.seq = seq then { r with got := some (x.data, x.pois) } else r }
  | none =>
    if (s.comb comb).sampWait.any fun w => w.loc.key == l.key && w.upto.isNone then s
    else
      let w : SampFill := { loc := l, core := core, cx := cx, seq := seq }
      (s.modComb comb fun c => { c with sampWait := c.sampWait ++ [w] }).later (.samplerFill comb (l.key / 64))

/-- `ldsamp`. -/
def execLdsamp (g d a : BitVec 4) (o : Imm 6) (s : State) : Outcome :=
  s.guarded g fun s =>
    let b := s.here.sreg a
    if b.pois then .next (s.raise 0x10 (poisVal 0 a.toNat))
    else
      match s.place [effAddr b.val (offsetOf o 64)] 64 .samp with
      | (none, s) => .next s
      | (some ls, s) =>
        s.commit fun s =>
          match ls with
          | [] => s
          | l :: _ => (s.issueRec true d .samp ls .rlx .comb).sampleLoad s.sel.1 s.sel.2 s.seq l

/-- The threads of a comb's cores, as core and context. -/
def combThreads (comb : Nat) : List (Nat × Nat) :=
  (List.range 16).flatMap fun k => (List.range 8).map fun x => (coreOfComb comb k, x)

/-- A value reaches the records of a thread that a test names: a record that is the oldest of its register fills it. -/
def Ctx.sampled (c : Ctx) (serves : Rec → Bool) (data : W512) (pois : Bool) : Ctx :=
  let c : Ctx := { c with recs := c.recs.map fun r => if serves r then { r with got := some (data, pois) } else r }
  c.recs.foldl (fun c r =>
    match r.op == .samp && r.got == some (data, pois), c.recs.find? fun k => k.isV == r.isV && k.reg == r.reg with
    | true, some k => if k.seq = r.seq then c.fillReg r data pois else c
    | _, _ => c) c

/-- SAMPLER_FILL: the oldest outstanding fill of the line reads at the home, as the `ldsamp` that began it, and returns to
every access it serves. -/
def execSamplerFill (s : State) : Outcome :=
  match s.event with
  | .samplerFill comb line =>
    match (s.comb comb).sampWait.find? fun w => w.loc.key / 64 == line with
    | none => .next s
    | some w =>
      let l := w.loc
      let serves (r : Rec) : Bool :=
        r.op == .samp && r.got.isNone && (r.locs.any fun k => k.key == l.key) && w.upto.all fun b => decide (r.seq < b)
      if s.stalled l || s.behind w.core w.cx w.seq l 64 || s.shadowed w.core w.seq l 64 then
        .next (s.later (.samplerFill comb line))
      else
        let late := s.degradedAt l
        let v := if late then (0, true, s.takeDegraded (.thread w.core w.cx) l.va) else s.readAt (.thread w.core w.cx) l 64
        let data := BitVec.ofNat 512 v.1
        let s := (combThreads comb).foldl
          (fun s t => if (s.ctx t.1 t.2).recs.any serves then s.modCtx t.1 t.2 fun c => c.sampled serves data v.2.1 else s) v.2.2
        .next (s.modComb comb fun c =>
          { c with
            sampWait := c.sampWait.erase w,
            samp := if w.upto.isNone && !late then installSamp c.samp { line := line, data := data, pois := v.2.1 } else c.samp })
  | _ => .next s

/-! ### Gather and scatter (R119) -/

/-- The address of lane i. -/
def laneAddr (base : W72) (idx : W512) (h : BitVec 2) (i : Nat) : W72 :=
  effAddr base ((lane idx i).signExtend 64 <<< h.toNat)

/-- `gath`: where sB and vI are both poisoned, `tval` names sB (log 68). -/
def execGath (g v b i : BitVec 4) (e : Elem) (h : BitVec 2) (r : Ord) (c : Scope) (s : State) : Outcome :=
  s.guarded g fun s =>
    match s.here.stage with
    | .acted _ => s.acquired c
    | _ =>
      let x := s.here.sreg b
      let idx := s.here.vreg i
      if x.pois then .next (s.raise 0x10 (poisVal 0 b.toNat))
      else if idx.pois then .next (s.raise 0x10 (poisVal 1 i.toNat))
      else
        match s.place ((List.range 16).map (laneAddr x.val idx.val h)) (elemBytes e) .load with
        | (none, s) => .next s
        | (some ls, s) =>
          s.afterRelease (relOf r) c fun s => s.commitTo fun s =>
            (s.issueRec true v (.gath e) ls r c).finishAccess r s.seq

/-- The writes of a scatter, lane by lane; a lane whose element a higher lane overwrites writes first. -/
def State.scatter (s : State) (data : W512) (n : Nat) : List (Nat × Loc) → State
  | [] => s
  | (i, l) :: rest =>
    State.scatter (s.issueWrite l n (.bytes (cellsOf l.key (lane data i).toNat n) [])) data n rest

/-- `scat`. -/
def execScat (g v b i : BitVec 4) (e : Elem) (h : BitVec 2) (r : Ord) (c : Scope) (s : State) : Outcome :=
  s.guarded g fun s =>
    match s.here.stage with
    | .acted _ => s.acquired c
    | _ =>
      let x := s.here.sreg b
      let idx := s.here.vreg i
      let data := s.here.vreg v
      if x.pois then .next (s.raise 0x10 (poisVal 0 b.toNat))
      else if idx.pois then .next (s.raise 0x10 (poisVal 1 i.toNat))
      else if data.pois then .next (s.raise 0x11 (poisVal 1 v.toNat))
      else
        match s.place ((List.range 16).map (laneAddr x.val idx.val h)) (elemBytes e) .store with
        | (none, s) => .next s
        | (some ls, s) =>
          if s.reserveAll ls then
            s.afterRelease (relOf r) c fun s => s.commitTo fun s =>
              let t := s.scatter data.val (elemBytes e) ((List.range 16).zip ls)
              if acqOf r then t.parkStage (.acted 1) (.accesses s.seq t.seq) else t.finish
          else
            let bad := (List.range 16).find? fun k => !s.reserveAll (ls.take (k + 1))
            .next (s.raise 0x2C (lo64 (laneAddr x.val idx.val h (bad.getD 0))))

/-! ### Atomics (R122, R123) -/

/-- An AMO or `cas`. -/
def State.atomicForm (s : State) (g d a b : BitVec 4) (dbl : Bool) (data : List (BitVec 4)) (op : Ctx → RecOp) (r : Ord)
    (sc : Scope) : Outcome :=
  s.guarded g fun s =>
    match s.here.stage with
    | .acted _ => s.acquired sc
    | _ =>
      let x := s.here.sreg a
      if x.pois then .next (s.raise 0x10 (poisVal 0 a.toNat))
      else
        match data.find? fun k => (s.here.sreg k).pois with
        | some k => .next (s.raise 0x11 (poisVal 0 k.toNat))
        | none =>
          match s.place [x.val] (if dbl then 8 else 4) .atomic with
          | (none, s) => .next s
          | (some ls, s) =>
            match ls, s.reserveAll ls with
            | l :: _, true =>
              s.afterRelease (relOf r) sc fun s => s.commitTo fun s =>
                ((s.l1Drop s.sel.1 (l.key / 64)).issueRec false d (op s.here) ls r sc).finishAccess r s.seq
            | _, _ => .next (s.raise 0x2C (lo64 x.val))

/-- `amo`. -/
def execAmo (g d a b : BitVec 4) (o : AmoOp) (w : Bool) (r : Ord) (sc : Scope) (s : State) : Outcome :=
  s.atomicForm g d a b w [b] (fun c => .amo o w (c.sval64 b)) r sc
/-- `cas`: sB is compared, sD is the new value; where both are poisoned, `tval` names sB (log 68). -/
def execCas (g d a b : BitVec 4) (w : Bool) (r : Ord) (sc : Scope) (s : State) : Outcome :=
  s.atomicForm g d a b w [b, d] (fun c => .cas w (c.sval64 b) (c.sval64 d)) r sc
/-- `ared`: posted, no result; it needs W alone (R225). -/
def execAred (g a b : BitVec 4) (o : AmoOp) (w : Bool) (r : Ord) (sc : Scope) (s : State) : Outcome :=
  s.guarded g fun s =>
    match s.here.stage with
    | .acted _ => s.acquired sc
    | _ =>
      let x := s.here.sreg a
      let n := if w then 8 else 4
      if x.pois then .next (s.raise 0x10 (poisVal 0 a.toNat))
      else if (s.here.sreg b).pois then .next (s.raise 0x11 (poisVal 0 b.toNat))
      else
        match s.place [x.val] n .red with
        | (none, s) => .next s
        | (some ls, s) =>
          match ls, s.reserveAll ls with
          | l :: _, true =>
            s.afterRelease (relOf r) sc fun s => s.commitTo fun s =>
              ((s.l1Drop s.sel.1 (l.key / 64)).issueWrite l n (.ared o w (s.here.sval64 b))).finishAccess r s.seq
          | _, _ => .next (s.raise 0x2C (lo64 x.val))

/-! ### Fences (R124, R299) -/

/-- `fence`. -/
def execFence (g : BitVec 4) (k : FenceKind) (sc : Scope) (s : State) : Outcome :=
  s.guarded g fun s =>
    match k with
    | .full => s.afterRelease true sc fun s => s.commit fun s => s.acquire s.sel.1 sc
    | .rel => s.afterRelease true sc fun s => s.commit id
    | .acq =>
      if s.valued s.sel.1 s.sel.2 s.seq then s.commit fun s => s.acquire s.sel.1 sc
      else .next (s.parkReplay (.values s.seq))
    | .ss =>
      s.commit fun s => s.modHere fun c =>
        if sc = .comb then { c with storeFenceComb := s.seq } else { c with storeFence := s.seq }

/-- `fsamp`: from the next cycle on the comb's sampler cache is empty and fills that are outstanding install nothing. Its bundle
is complete at its thread's next slot, once every fill that was outstanding in its cycle has returned (R299). -/
def execFsamp (g : BitVec 4) (sc : Scope) (s : State) : Outcome :=
  s.guarded g fun s =>
    match s.here.stage with
    | .acted _ => .next s.finish
    | _ => s.commitTo fun s =>
      (s.modComb (combOf s.sel.1) fun c => { c with fsamps := c.fsamps ++ [(s.sel.1, s.sel.2, sc)] }).parkStage (.acted 1)
        (.sampler s.seq)

/-- The end of a cycle in which a comb's cores have issued `fsamp`: fills that are outstanding by then were so in the cycle. -/
def State.clearSampler (s : State) (comb : Nat) : State :=
  let s := (s.comb comb).fsamps.foldl
    (fun s f => (s.acquire f.1 f.2.2).modCtx f.1 f.2.1 fun c =>
      match c.wait with
      | .sampler _ => { c with wait := .sampler s.seq }
      | _ => c) s
  s.modComb comb fun c =>
    { c with fsamps := [], samp := [], sampWait := c.sampWait.map fun w => { w with upto := some (w.upto.getD s.seq) } }

/-- `sinv`: it does not wait for earlier loads, but later ones come after them, and find no older copy (R124, R245, R256). -/
def execSinv (g : BitVec 4) (sc : Scope) (s : State) : Outcome :=
  s.guarded g fun s => s.commit fun s =>
    let s := s.acquire s.sel.1 sc
    if sc = .comb then s
    else s.modHere fun c => { c with recs := c.recs.map fun r => { r with fence := r.fence || r.open_ } }

/-! ### Cache control (R125) -/

/-- A line address for `cflush` and `cinval`: nothing happens in a local window. -/
def State.cacheForm (s : State) (g a : BitVec 4) (k : State → Loc → Outcome) : Outcome :=
  s.guarded g fun s =>
    match s.here.stage with
    | .acted _ => .next s.finish
    | _ =>
      let x := s.here.sreg a
      let sp := (spaceOf x.val).toNat
      if x.pois then .next (s.raise 0x10 (poisVal 0 a.toNat))
      else if 0xF0 ≤ sp && sp ≤ 0xF4 then s.commit id
      else
        match s.place [x.val] 1 .load with
        | (none, s) => .next s
        | (some (l :: _), s) => k s l
        | (some [], s) => s.commit id

/-- `cflush`. -/
def execCflush (g a : BitVec 4) (s : State) : Outcome :=
  s.cacheForm g a fun s l => s.commitTo fun s =>
    (s.l1Drop s.sel.1 (l.key / 64)).parkStage (.acted 1) (.line (l.key / 64) s.seq)
/-- `cinval`: copies of lines that the home does not track are clean. -/
def execCinval (g a : BitVec 4) (s : State) : Outcome :=
  s.cacheForm g a fun s l => s.commit fun s => s.l1Drop s.sel.1 (l.key / 64)
/-- `prf`: the fill is served at a later moment, and dropped where its access would fault. A poisoned sA traps with 0x10, as
every poisoned address register does (log 69). -/
def execPrf (g a : BitVec 4) (s : State) : Outcome :=
  s.guarded g fun s =>
    let x := s.here.sreg a
    if x.pois then .next (s.raise 0x10 (poisVal 0 a.toNat))
    else s.commit fun s =>
      if 0xF0 ≤ (spaceOf x.val).toNat then s
      else
        let c := s.here
        let h := hiveOf s.sel.1
        let p : Prefetch := { id := s.seq, core := s.sel.1, ptroot := c.ptroot, asid := c.asid, user := !c.priv, va := x.val }
        (s.fresh.modHive h fun v => { v with prefetches := v.prefetches ++ [p] }).later (.pageWalk h s.seq)

/-- The fill of a `prf` in its turn: after its walk, where the TLBs do not hold its page; a free choice decides whether the
line goes into L1. -/
def State.prefetch (s : State) (h : Nat) (p : Prefetch) : State :=
  let gone := s.modHive h fun v => { v with prefetches := v.prefetches.erase p }
  match s.tlbLook p.core p.asid p.va with
  | none =>
    if (s.hive h).walks.any fun w => w.asid == p.asid && w.page == pageKey p.va then s.later (.pageWalk h p.id)
    else if p.walked then gone
    else
      ((s.startWalk p.core p.ptroot p.asid p.va).modHive h fun v => { v with
        prefetches := v.prefetches.map fun q => if q.id = p.id then { q with walked := true } else q }).later (.pageWalk h p.id)
  | some e =>
    let l : Loc := ⟨.glob, leafAddr e.level e.leaf p.va, p.va, e.leaf, e.level, p.asid⟩
    if (denied p.user (spaceOf p.va) e.leaf .load).isSome then gone
    else if s.stalled l then s.later (.pageWalk h p.id)
    else
      match gone.pageChecks l .load with
      | (.ok l, t) =>
        let q := t.pick 2
        if q.1 = 0 then q.2 else q.2.l1Fill p.core { l with key := 64 * (l.key / 64) } 64
      | (.park _, t) => t
      | (.trap _ _, _) => gone

/-! ### Events -/

/-- FILL: the oldest record of the register is tried; its value is written when it arrives (R116). -/
def execFill (s : State) : Outcome :=
  match s.event with
  | .fill core cx isV reg =>
    let mine := (s.ctx core cx).recs.filter fun r => r.isV == isV && r.reg == reg
    match mine with
    | [] => .next s
    | r :: rest =>
      if r.op.isRemote && r.got.isNone then
        .next (if rest.any fun k => !k.op.isRemote || k.got.isSome then s.later (.fill core cx isV reg) else s)
      else
        let put (s : State) (k : Rec) : State := (s.modCtx core cx fun c =>
          { c with recs := c.recs.map fun x => if x.seq = r.seq then k else x }).later (.fill core cx isV reg)
        -- an atomic may be accepted before it is performed (R120)
        let p := if r.op.atomic && !r.accepted then s.pick 2 else (0, s)
        if p.1 = 1 then .next (put p.2 { r with accepted := true, acc := s.seq })
        else
        match p.2.tryRec core cx r with
        | (.wait, s) => .next (s.later (.fill core cx isV reg))
        | (.more k, s) => .next (put s k)
        | (.done raw pois, s) =>
          let s := s.modCtx core cx fun c => c.fillReg r raw pois
          let s := if r.op.isRemote || r.fence then s.acquire core .dev else s
          .next (if rest.any fun k => k.got.isSome then s.later (.fill core cx isV reg) else s)
  | _ => .next s

/-- STORE_ACKNOWLEDGEMENT: a write arrives at its home, is accepted, or is performed and acknowledged, as its moment
comes. -/
def execStoreAcknowledgement (s : State) : Outcome :=
  match s.event with
  | .storeAcknowledgement w =>
    match s.flights.find? fun f => f.id == w with
    | none => .next s
    | some f =>
      if !s.flightReady f then .next (s.later (.storeAcknowledgement w))
      else
        let p := s.pick 3
        let s := p.2
        let put (g : Flight) : Outcome :=
          .next ({ s with flights := s.flights.map fun (e : Flight) => if e.id = w then g else e }.later (.storeAcknowledgement w))
        if p.1 = 0 && !f.arrived then put { f with arrived := true }
        else if p.1 = 1 && !f.accepted then put { f with accepted := true, acc := s.seq }
        else .next (s.performFlight f)
  | _ => .next s

end Sys2Proof.Machine
end

