-- ==== Sys2Proof/Machine/Licence.lean ====
section
/-! DEFINITION. The licence of a twin pair and the parts of a matrix engine that other units touch (spec/21_tile.md
R401-R404, R410). -/

namespace Sys2Proof.Machine

def State.lic (s : State) (p : Nat) : Lic := (sget p s.licences).getD {}
def State.setLic (s : State) (p : Nat) (l : Lic) : State := { s with licences := sset p l s.licences }

/-- The lower core of a twin pair. -/
def lowerOf (p : Nat) : Nat := p / 512 * 1024 + p % 512

/-- A core requests its pair's licence (R401). -/
def State.requests (s : State) (core : Nat) : Bool := s.licReqs.any fun r => r.core == core

/-- The engine of a core, and a change of it. -/
def State.eng (s : State) (core : Nat) : Engine := (s.core core).eng
def State.modEng (s : State) (core : Nat) (f : Engine → Engine) : State := s.modCore core fun k => { k with eng := f k.eng }

/-- The engine of a core that holds the licence may execute: it is not on its way to the twin, nor to be released. -/
def State.licensed (s : State) (core : Nat) : Bool :=
  (s.lic (pairOf core)).holder == some core && (s.lic (pairOf core)).move == .stay

/-- The licence is Held by a core: until a release takes place, and not while it is Passing (R401, R404). -/
def State.holds (s : State) (core : Nat) : Bool :=
  (s.lic (pairOf core)).holder == some core && (s.lic (pairOf core)).move != .pass

/-- The command is an `mdrain`. -/
def Cmd.drain (c : Cmd) : Bool := match decodeTile 0 c.word with | .ok (.mdrain ..) => true | _ => false

/-- A grant: the mode is that of the oldest pending `lic.acq`, else coop; every parked `lic.acq` of the core wakes. -/
def State.grantTo (s : State) (p core : Nat) (last : Option Nat) : State :=
  let mine := s.licReqs.filter fun r => r.core == core
  let excl := match mine.find? fun r => r.cx < 8 with | some r => r.excl | none => false
  let s := { s with licReqs := s.licReqs.filter fun r => r.core != core }.setLic p
    { holder := some core, excl := excl, move := .stay, last := last }
  (mine.filter fun r => r.cx < 8).foldl
    (fun s r => s.modCtx r.core r.cx fun c =>
      if c.st == .parked && c.wait == .licence then { c with stage := .answered 0 false } else c) s

/-- An engine in whose current `mstep` k-blocks are left counts as one request of its core (R396). -/
def State.engineAsks (s : State) (core : Nat) : State :=
  let waits : Bool := match (s.eng core).queue with | c :: _ => c.begun && c.left != [] | [] => false
  if waits && !(s.licReqs.any fun r => r.core == core && r.cx == 8) then
    { s with licReqs := s.licReqs ++ [{ core := core, cx := 8, excl := false, since := s.now }] }
  else s

/-- The licence leaves its holder: to the twin, or Free. An engine that its comb's halt stops requests nothing until the restore
(R408, R409). -/
def State.leaveLic (s : State) (core : Nat) (mv : LicMove) : State :=
  let p := pairOf core
  let s := if s.halt.contains (combOf core) then s else s.engineAsks core
  match mv with
  | .pass => s.grantTo p (twinOf core) (some core)
  | _ => s.setLic p { holder := none, excl := false, move := .stay, last := some core }

/-- The drain at the head of an engine's queue has begun. -/
def Engine.draining (e : Engine) : Bool := match e.queue with | c :: _ => c.begun && c.drain | [] => false

/-- An engine executes: a k-step runs, or the drain at its head has begun, which always finishes (R24, R396). -/
def Engine.executing (e : Engine) : Bool := e.run.isSome || e.draining

/-- An engine whose comb halts executes: of its drains, those whose writes have left (R393, R408). -/
def Engine.finishing (e : Engine) : Bool :=
  e.run.isSome || (match e.queue with | c :: _ => c.begun && c.drain && c.first != 0 | [] => false)

/-- The licence leaves a holder when what it executes has ended, at once when it executes nothing. -/
def State.moveLic (s : State) (core : Nat) (mv : LicMove) : State :=
  if (s.eng core).executing then s.setLic (pairOf core) { s.lic (pairOf core) with move := mv } else s.leaveLic core mv

/-- What an engine executed has ended: the licence leaves where it is to. -/
def State.settleLic (s : State) (e : Nat) : State :=
  match (s.lic (pairOf e)).move with
  | .stay => s
  | m => if (s.lic (pairOf e)).holder == some e then s.leaveLic e m else s

/-- Arbitration of a Free licence (R402). -/
def State.arbitrate (s : State) (p : Nat) : State :=
  let l := s.lic p
  let lo := lowerOf p
  let hi := twinOf lo
  if l.holder.isSome then s
  else
    match s.requests lo, s.requests hi with
    | true, true => if l.last = some lo then s.grantTo p hi l.last else s.grantTo p lo l.last
    | true, false => s.grantTo p lo l.last
    | false, true => s.grantTo p hi l.last
    | false, false => s

/-- A coop holder may hand over (R403): its engine has just completed an `mend`, or is idle. -/
def State.canHandOver (s : State) (p : Nat) : Option Nat :=
  let l := s.lic p
  match l.holder with
  | none => none
  | some x =>
    let e := s.eng x
    if !l.excl && l.move == .stay && s.requests (twinOf x) && (e.ended || (e.queue == [] && e.chain != .opened)) then some x
    else none

/-- A command is complete or discarded: the sender's count falls by one while the sender is there (R397). -/
def State.cmdDone (s : State) (c : Cmd) : State :=
  s.modCtx c.core c.cx fun x => if x.generation = c.gen then { x with tiles := x.tiles - 1 } else x

/-- The launch uses the matrix engines (R335). -/
def State.usesMatrix (s : State) (lid : Nat) : Bool := ((sget lid s.launches).map (·.matrix)).getD false

/-- An engine that is reset (R410): a k-step that runs finishes, without effect. -/
def Engine.reset (e : Engine) : Engine :=
  { e with chain := .idle, queue := [], run := e.run.map fun r => { r with dead := true }, accs := [], ended := false }

/-- The end of a launch's matrix work on a core: the engine is reset if the launch owns its chain, and the licence is released
as `lic.rel` does, whatever other launches are on the core (R410). -/
def State.resetEngine (s : State) (core lid : Nat) : State :=
  if !s.usesMatrix lid then s
  else
    let e := s.eng core
    let s := if e.chain != .idle && e.owner = lid then
        e.queue.foldl (fun s c => s.cmdDone c)
          ({ s with licReqs := s.licReqs.filter fun r => !(r.core == core && r.cx == 8) }.modEng core Engine.reset)
      else s
    if s.holds core then s.moveLic core .free
    else if (s.lic (pairOf core)).holder = some core && !(s.eng core).executing then s.leaveLic core .pass
    else s

end Sys2Proof.Machine
end

