-- ==== Sys2Proof/Machine/Life.lean ====
section
/-! DEFINITION. The life of a context and of its unit: allocation, clearing, `exit`, retirement, cancel, the watchdog,
asynchronous causes, fills from other agents, the node counters, the task table and the end of groups and launches
(spec/07_context.md R166-R169, R214, spec/08_traps.md R203-R209, spec/12_group.md R263-R269, spec/15_queue.md R312-R321,
spec/16_kernel.md R336-R339). -/

namespace Sys2Proof.Machine

/-! ### Gangs (R280) -/

/-- The cores of a gang, leader first. -/
def gangCores (m : GangMember) : List Nat := (List.range m.width).map fun i => m.leader + i

/-- A member that is in no gang any more. -/
def Ctx.leave (c : Ctx) : Ctx := { c with gang := none, gangid := 0, st := if c.st = .follower then .ready else c.st }

/-- A core has its member of a gang. -/
def State.inGang (s : State) (cx : Nat) (m : GangMember) (k : Nat) : Bool :=
  (s.ctx k cx).gang.any fun g => g.leader == m.leader && g.width == m.width && g.index == k - m.leader

/-- Dissolves a gang. -/
def State.dissolve (s : State) (cx : Nat) (m : GangMember) : State :=
  (gangCores m).foldl (fun s k => if s.inGang cx m k then s.modCtx k cx Ctx.leave else s) s

/-- The members of a gang end it with the bundle that they are still to complete (R280). -/
def State.endsSoon (s : State) (cx : Nat) (m : GangMember) : State :=
  (gangCores m).foldl (fun s k =>
    if s.inGang cx m k then s.modCtx k cx fun c => { c with gang := c.gang.map fun g => { g with ending := true } } else s) s

/-! ### Pre-emption and asynchronous causes -/

/-- The comb of a core is being halted or is halted for pre-emption (R211). -/
def State.halts (s : State) (core : Nat) : Bool := s.halt.contains (combOf core)

/-- For a launch, a comb is saved or is being halted: its state is in a comb image, unless other groups have been admitted
since and either one of them is the launch's or the image has no group of it (R326, R393). -/
def State.combSaved (s : State) (comb launch : Nat) : Bool :=
  let here := s.groups.filter fun g => g.2.comb == comb
  s.halt.contains comb || s.images.any fun e => e.2.comb == comb &&
    (here.isEmpty || (!(here.any fun g => g.2.launch == launch) && e.2.groups.any fun g => g.2.launch == launch))

/-- The asynchronous cause that a context takes at a boundary (R200, R203). -/
def Ctx.pending (c : Ctx) : Option (Byte × W64) :=
  let of (p : Byte → Bool) : Option (Byte × W64) := c.asyncs.find? fun a => p a.1
  match of (· == 0x61) with
  | some a => some a
  | none =>
    if c.priv then none
    else
      let codes : List Byte := [0x70, 0x71, 0x72, 0x73, 0x50, 0x51, 0x52, 0x53, 0x54, 0x55, 0x56, 0x57, 0x02, 0x62]
      codes.findSome? fun k => of (· == k)

/-- An asynchronous cause reaches a context. -/
def State.raiseAsync (s : State) (core cx : Nat) (code : Byte) (val : W64) : State :=
  s.modCtx core cx fun c => { c with asyncs := c.asyncs ++ [(code, val)] }

/-! ### Nodes (R336, R337) -/

/-- The address of a node's record, as the engines of hive 0 reach it (log 13). -/
def State.nodeAddr (s : State) (node : BitVec 58) : Option Nat := s.sysAddr 0 (node ++ (0 : BitVec 6))

/-- An atomic or an acquire load of a node's record waits at its home: for a write that marks it, or for a replay (R250, R447). -/
def State.recordWaits (s : State) (a : Nat) : Bool :=
  let l : Loc := ⟨.glob, a, 0, 0, 4, 0⟩
  s.marked .scheduler l 64 || s.stalled l

/-- An access to a node's record waits, or one to a record of its ancestors. -/
def State.nodeWaits (s : State) (node : BitVec 58) : Nat → Bool
  | 0 => false
  | fuel + 1 =>
    s.sysWaits 0 (node ++ (0 : BitVec 6)) ||
      (match s.nodeAddr node with
       | none => false
       | some a =>
         let up := BitVec.ofNat 58 (s.rd (a + 0x18) 8)
         s.recordWaits a || (up != 0 && State.nodeWaits s up fuel))

/-- The walk is asked for that an access to a node's record, or to one of its ancestors', waits for. -/
def State.nodeAsk (s : State) (node : BitVec 58) : Nat → State
  | 0 => s
  | fuel + 1 =>
    if s.sysWaits 0 (node ++ (0 : BitVec 6)) then s.sysAsk 0 (node ++ (0 : BitVec 6))
    else
      match s.nodeAddr node with
      | none => s
      | some a =>
        let up := BitVec.ofNat 58 (s.rd (a + 0x18) 8)
        if up = 0 then s else State.nodeAsk s up fuel

/-- Adds to done of a node, and 1 to done of its parent where done becomes equal to expect and the parent's kind is above. At a
poisoned word, of which the spec does not say, the add counts from the zero that stands under the mark (log 88). -/
def State.addDoneNow (s : State) (node : BitVec 58) (n : Nat) : Nat → State
  | 0 => s
  | fuel + 1 =>
    match s.nodeAddr node with
    | none => s.sysTold 0 (node ++ (0 : BitVec 6))
    | some a =>
      let new := (s.rd a 8 + n) % 2 ^ 64
      let s := s.poke a 8 new
      let up := BitVec.ofNat 58 (s.rd (a + 0x18) 8)
      if new = s.rd (a + 0x10) 8 && up != 0 then
        match s.nodeAddr up with
        | some b => if s.rd (a + 0x22) 1 < s.rd (b + 0x22) 1 then State.addDoneNow s up 1 fuel else s
        | none => s
      else s

/-- Kinds of nodes (R336), and one more. -/
def nodeKinds : Nat := 5

/-- Adds to done of a node and of its ancestors (R337), once no access to their records waits. -/
def State.addDone (s : State) (node : BitVec 58) (n : Nat) : State :=
  if s.nodeWaits node nodeKinds then { s with adds := s.adds ++ [(true, node, n)] }.nodeAsk node nodeKinds
  else s.addDoneNow node n nodeKinds

/-- An access to the record of a node alone waits. -/
def State.ownWaits (s : State) (node : BitVec 58) : Bool :=
  s.sysWaits 0 (node ++ (0 : BitVec 6)) || (s.nodeAddr node).any s.recordWaits

/-- Adds to trig of a node; at a poisoned word as `addDoneNow` (log 88). -/
def State.addTrig (s : State) (node : BitVec 58) (n : Nat) : State :=
  if s.ownWaits node then { s with adds := s.adds ++ [(false, node, n)] }.nodeAsk node 1
  else
    match s.nodeAddr node with
    | none => s.sysTold 0 (node ++ (0 : BitVec 6))
    | some a => s.poke (a + 8) 8 ((s.rd (a + 8) 8 + n) % 2 ^ 64)

/-- A unit of a launch is discarded, or has ended: trig, unless it has triggered, and done. -/
def State.countUnit (s : State) (node : BitVec 58) (triggered : Bool) : State :=
  (if triggered then s else s.addTrig node 1).addDone node 1

/-- The increments that wait are tried again. -/
def State.flushAdds (s : State) : State :=
  s.adds.foldl (fun s a => if a.1 then s.addDone a.2.1 a.2.2 else s.addTrig a.2.1 a.2.2) { s with adds := [] }

/-! ### Groups and launches -/

/-- `groupid` of a group with a rank (R265). -/
def Group.id (g : Group) (rank : Nat) : W64 :=
  BitVec.ofNat 64 (g.cores.toNat * 2 ^ 48 + g.sbase * 2 ^ 42 + g.cbase * 2 ^ 34 + g.comb * 2 ^ 27 + rank * 2 ^ 7 + g.size)

/-- What a thread of a launch starts with (R159, R199, R222, R332). -/
def startCtx (l : Launch) (launch group : Nat) (gid : W64) (unit : W64) (core : Nat) (gen : W16) (pc : W72) : Ctx :=
  { st := .clearing, k := #v[l.k0, l.k1, l.k2, l.template], delta := l.delta, pc := pc, landed := true,
    origin := BitVec.ofNat 11 core, unitid := unit, launchid := l.node, groupid := gid, ptroot := l.ptroot,
    asid := l.asid, shand := l.profile.shand, tdeleg0 := l.profile.tdeleg0, tdeleg1 := l.profile.tdeleg1,
    wdlim := l.profile.wdlim, generation := gen, used := gen, launch := launch, group := group }

/-- Allocates a context: the clear engine works on it before its first issue (R166). -/
def State.allocate (s : State) (core cx : Nat) (c : Ctx) (whole : Bool) : State :=
  (s.setCtx core cx c).modCore core fun k => { k with clears := k.clears ++ [{ cx := cx, whole := whole }] }

/-- The clear engine starts on the request at its head. -/
def Core.startClear (k : Core) (now : Nat) : Core :=
  match k.clears with
  | r :: l => if r.done.isNone then { k with clears := { r with done := some (now + if r.whole then 36 else 32) } :: l } else k
  | [] => k

/-- Free compute contexts of a core, lowest first. -/
def State.freeCtxs (s : State) (core : Nat) : List Nat := (List.range 7).filter fun x => (s.ctx core x).st = .free

/-- Arrival entries that wait for a core. -/
def State.arrivalsFor (s : State) (core : Nat) : List Packet :=
  ((sget (combPairOf core) s.arrivals).getD []).filter fun p => p.core == core

/-! ### Messages at their core (R312-R315) -/

/-- A fill that another agent sends: its event comes at some moment. -/
def State.sendFill (s : State) (t : FillTag) (val : W512) (pois : Bool) : State := s.later (.remoteFill t val pois)

/-- The channel that a message is for: a call's is that of the entry whose PC it names; where several have that PC, of which the
spec does not say, that of the lowest channel (log 84). -/
def State.msgChan (s : State) (m : Msg) : Option Nat :=
  match m.kind with
  | .call entry _ => ((s.core m.core).tasks.find? fun e => e.2.groups != [] && e.2.pc == entry).map (·.1)
  | _ => some m.chan.toNat

/-- The context of a core that is bound to a channel. -/
def State.bound (s : State) (core chan : Nat) : Option Nat :=
  (List.range 8).find? fun x => (s.ctx core x).chan == some (BitVec.ofNat 6 chan)

/-- The value of `mrecv`'s sD for a sender (R317). -/
def senderId : Sender → W64
  | .thread core cx => BitVec.ofNat 64 (core + cx * 2 ^ 11)
  | .engine core => BitVec.ofNat 64 (core + 2 ^ 14)

/-- A message goes to a context that is parked in `mrecv`: its payload and sender are the answer. -/
def State.giveMsg (s : State) (core cx : Nat) (m : Msg) : State :=
  s.modCtx core cx fun c => { c with stage := .answered (BitVec.ofNat 512
    ((senderId m.sender).toNat + (List.range 6).foldl (fun n i => n + (m.pay.getD i 0).toNat * 2 ^ (64 + 64 * i)) 0)) false }

/-- A message starts a task in a Free context (R313). -/
def State.startTask (s : State) (cx : Nat) (m : Msg) (t : Task) : State :=
  let gid := t.groups.headD 0
  match s.group gid with
  | none => s
  | some g =>
    match sget g.launch s.launches with
    | none => s
    | some l =>
      let old := s.ctx m.core cx
      let c := startCtx l g.launch gid (g.id 127) (BitVec.allOnes 64) m.core old.generation t.pc
      let c := (List.range 6).foldl (fun c i => c.setS (BitVec.ofNat 4 (4 + i)) (sx72 (m.pay.getD i 0)) false) c
      let c := match m.kind with
        | .call _ ret => { c with retRec := some ret }
        | _ => c
      (s.acquire m.core .dev).allocate m.core cx c true

/-- A message goes before another one: it has the same sender, core and channel, and was sent earlier (R319). -/
def State.goesBefore (s : State) (n m : Msg) : Bool :=
  n.core == m.core && n.sender == m.sender && s.msgChan n == s.msgChan m && n.id < m.id

/-- Whether a message can be taken now: by a bound context in `mrecv`, or by a task; its priority. An earlier one of its sender
and channel that waits is taken first (R319). -/
def State.takable (s : State) (m : Msg) : Option (Nat × Bool × Nat) :=
  match if (s.core m.core).inbound.any (fun n => s.goesBefore n m) then none else s.msgChan m with
  | none => none
  | some ch =>
    let call : Bool := match m.kind with | .call .. => true | _ => false
    match if call then none else s.bound m.core ch with
    | some x => if (s.ctx m.core x).wait = .mrecv && (s.ctx m.core x).stage = .acted 1 then some (x, true, 3) else none
    | none =>
      match sget ch (s.core m.core).tasks with
      | none => none
      | some t =>
        if t.groups = [] || t.blocked then none
        else
          -- arrival entries take Free contexts first (R185)
          match (s.freeCtxs m.core).drop (s.arrivalsFor m.core).length with
          | x :: _ => some (x, false, t.prio.toNat)
          | [] => none

def State.takeMsg (s : State) (m : Msg) (x : Nat) (bound : Bool) : State :=
  if bound then s.giveMsg m.core x m
  else
    match s.msgChan m with
    | none => s
    | some ch => s.startTask x m ((sget ch (s.core m.core).tasks).getD {})

/-- Serves the inbound queue of a core: the highest priority that can be taken, the oldest among equals (R314). -/
def State.serve (s : State) (core : Nat) : Nat → State
  | 0 => s
  | fuel + 1 =>
    let can := (s.core core).inbound.filterMap fun m => (s.takable m).map fun t => (m, t)
    let best := can.foldl (fun (b : Option (Msg × Nat × Bool × Nat)) e =>
      match b with
      | none => some e
      | some x => if x.2.2.2 < e.2.2.2 then some e else b) none
    match best with
    | none => s
    | some (m, x, bd, _) =>
      State.serve ((s.modCore core fun k => { k with inbound := k.inbound.erase m }).takeMsg m x bd) core fuel

/-- Posts a mailbox entry; a full mailbox discards it and sets ovf (R322). -/
def Core.post (k : Core) (e : MailEntry) : Core :=
  if k.mailbox.length < 32 then { k with mailbox := k.mailbox ++ [e] } else { k with ovf := true }
def State.post (s : State) (core : Nat) (e : MailEntry) : State := s.modCore core fun k => k.post e

/-- The mailbox entry of a refused drain wake (R392, R398): the context, the engine's core, the cause, the command. -/
def wakeRefused (m : Msg) (cx : Nat) (bits : BitVec 128) : MailEntry :=
  let e : Nat := match m.sender with | .engine e => e | .thread core _ => core
  #v[BitVec.ofNat 64 (3 + cx * 2 ^ 8 + e * 2 ^ 11), 0x45, bits.extractLsb' 64 64, bits.extractLsb' 0 64]

/-- Messages for an entry that has become empty are discarded, but for those a bound context can take (R312). -/
def State.dropMsgs (s : State) (core chan : Nat) (pc : W72) : State :=
  let gone (m : Msg) : Bool := match m.kind with
    | .call entry _ => entry == pc
    | _ => m.chan.toNat == chan && (s.bound core chan).isNone
  let l := (s.core core).inbound.filter gone
  l.foldl
    (fun s m =>
      let s := s.modCore core fun k => { k with inbound := k.inbound.erase m }
      match m.kind with
      | .call _ ret => s.sendFill ret 0 true
      | .wake bc bx w => s.post bc (wakeRefused m bx w)
      | .plain => s) s

/-! ### The end of groups and launches (R266, R269, R312, R335, R339) -/

/-- The threads in a comb image: core, context, what it holds. -/
def Image.threads (e : Image) : List (Nat × Nat × Ctx) :=
  e.cores.flatMap fun k => (List.range 8).map fun x => (k.1, x, k.2.ctxs[x % 8]'(Nat.mod_lt _ (by decide)))

/-- Some thread of the machine satisfies a test: in a context, in an arrival queue, in a comb image. -/
def State.someThread (s : State) (p : Nat → Ctx → Bool) : Bool :=
  let on (x : Nat) (c : Ctx) : Bool := c.st != .free && c.st != .reserved && p x c
  s.cores.any (fun e => (List.range 8).any fun x => on x (s.ctx e.1 x)) || s.arrivals.any (fun e => e.2.any fun k => p 0 k.thread) ||
    s.images.any fun e => e.2.threads.any fun t => on t.2.1 t.2.2

/-- Whether a thread of a group other than a forager still lives. -/
def State.groupLive (s : State) (gid : Nat) : Bool := s.someThread fun x c => x != 7 && c.group == gid

/-- done of a node has reached expect. Of a poisoned word, of which the spec does not say, the zero counts that stands under the
mark (log 88). -/
def State.reached (s : State) (node : BitVec 58) : Bool :=
  match s.nodeAddr node with
  | some a => !s.recordWaits a && s.rd (a + 0x10) 8 ≤ s.rd a 8
  | none => false

/-- A launch ends when its done has reached expect and no task or forager of it runs (R339): its kernel has one live launch
less. The scheduler holds its record while units of it are left. -/
def State.endLaunch (s : State) (lid : Nat) : State :=
  match sget lid s.launches with
  | none => s
  | some l =>
    let tasks := s.someThread fun _ c => c.launch == lid && c.unitid == BitVec.allOnes 64
    let desc := s.ktab + BitVec.ofNat 64 (64 * l.kernel)
    let s :=
      if l.ended || tasks then s
      else if s.ownWaits l.node then s.nodeAsk l.node 1
      else if !s.reached l.node then s
      else if s.sysWaits 0 desc then s.sysAsk 0 desc
      else if (s.sysAddr 0 desc).any s.recordWaits then s
      else
        let s := { s with launches := sset lid { l with ended := true } s.launches }
        match s.sysAddr 0 desc with
        | none => s.sysTold 0 desc
        | some a =>
          let n := s.rd (a + 0x30) 8 - 1
          let s := s.poke (a + 0x30) 8 n
          if n = 0 && s.rd (a + 0x1B) 1 = 2 then s.poke (a + 0x1B) 1 3 else s
    let left := l.next < l.count || tasks || s.groups.any (fun e => e.2.launch == lid) ||
      s.images.any (fun e => e.2.groups.any fun g => g.2.launch == lid) || s.someThread fun _ c => c.launch == lid
    if left || !((sget lid s.launches).map (·.ended)).getD true then s else { s with launches := sdel lid s.launches }

/-- A context becomes Free; at the end of the cycle its core serves what waits for one (R318). -/
def State.free (s : State) (core cx : Nat) : State :=
  let c := s.ctx core cx
  s.setCtx core cx { generation := c.used + 1, used := c.used + 1 }

/-- A unit of some group runs on a comb, one that has migrated to it among them (R21). -/
def State.unitsOn (s : State) (comb : Nat) : Bool :=
  s.groups.any (fun g => g.2.comb == comb) || (List.range 16).any fun k => (List.range 7).any fun x =>
    let c := s.ctx (coreOfComb comb k) x
    c.st != .free && c.st != .reserved && c.unitid != BitVec.allOnes 64

/-- The spare of a comb takes the place of a failed core once no unit of any group runs on the comb (R21). The spec does not say what the
spare holds then: the model lets it hold what the failed core held, g0-g7, `ebal`, `erefill`, `mcapk`, the mailbox, the
scratchpad and the TLB (log 70). -/
def State.spareJoins (s : State) (comb : Nat) : State :=
  if s.unitsOn comb then s
  else { s with cores := s.cores.map fun e => (e.1, if combOf e.1 == comb then { e.2 with failed := false } else e.2) }

/-- A group whose last thread has gone ends: its contexts, ranges and slots return, its task-table entries pass on, and its
launch may end. -/
def State.endGroup (s : State) (gid : Nat) : State :=
  match s.group gid with
  | none => s
  | some g =>
    if s.groupLive gid then s
    else
      let cores := ((List.range 16).filter fun k => g.cores.getLsbD k).map fun k => coreOfComb g.comb k
      let s := { s with groups := sdel gid s.groups }.spareJoins g.comb
      -- reserved contexts
      let s := cores.foldl (fun s k => (List.range 7).foldl (fun s x =>
        if (s.ctx k x).st = .reserved && (s.ctx k x).group = gid then s.free k x else s) s) s
      -- rings of the group, task-table entries
      let s := cores.foldl (fun s k =>
        let s := s.modCore k fun c => { c with rings := c.rings.filter fun r => r.2.group != gid }
        (s.core k).tasks.foldl (fun s e =>
          if e.2.groups.contains gid then
            let rest := e.2.groups.erase gid
            let s := s.modCore k fun c =>
              { c with tasks := if rest = [] then sdel e.1 c.tasks else sset e.1 { e.2 with groups := rest } c.tasks }
            if rest = [] then s.dropMsgs k e.1 e.2.pc else s
          else s) s) s
      -- the constant bank, and foragers whose launch has no group left on their core
      let bankLeft := s.groups.any fun e => e.2.comb == g.comb &&
        (sget e.2.launch s.launches).map (·.kernel) == (sget g.launch s.launches).map (·.kernel)
      let s := if bankLeft then s else s.modComb g.comb fun c => { c with bank := none }
      let s := cores.foldl (fun s k =>
        if s.groups.any fun e => e.2.launch == g.launch && e.2.comb == g.comb && e.2.cores.getLsbD (k % 16) then s
        else
          let s := s.resetEngine k g.launch
          let c := s.ctx k 7
          if c.st != .free && c.launch = g.launch then (s.raiseAsync k 7 0x61 0).later (.cancelDelivery k 7) else s) s
      s.endLaunch g.launch

/-! ### Leaving a context (R129, R168, R209, R281) -/

/-- Withdraws the waits of a thread at its park: at a barrier, for a licence (R450). -/
def State.unwait (s : State) (core cx : Nat) : State :=
  { s with waiters := s.waiters.filter fun w => !(w.core == core && w.cx == cx),
           licReqs := s.licReqs.filter fun r => r.core != core || r.cx != cx }

/-- Withdraws a waiter at a promise root, with the record that its fill was for: the register is as before the bundle
(R196, R450). A request that no agent has acted on, or a fill on its way, stays under way with its record. -/
def State.unpromise (s : State) (core cx : Nat) : State :=
  match (s.ctx core cx).wait with
  | .promise reg full under =>
    let mine (w : PromWaiter) : Bool :=
      w.core == core && w.cx == cx && w.tag.reg == reg && w.tag.gen == (s.ctx core cx).generation
    if s.promises.any mine then
      { s with promises := s.promises.filter fun w => !mine w }.modCtx core cx fun (c : Ctx) =>
        let recs : List Rec := c.recs.filter fun r => !(r.op == RecOp.remote false && !r.isV && r.reg == reg)
        let more := recs.any fun r => !r.isV && r.reg == reg
        { c with recs := recs }.markS reg (full || (under && !more))
    else s
  | _ => s

/-- Releases what a leaving thread holds at its core: its binding and its watch. -/
def State.letGo (s : State) (core cx : Nat) : State :=
  { s with watches := s.watches.filter fun w => !(w.core == core && w.cx == cx) }.modCtx core cx fun c =>
    { c with chan := none, watch := none, watchPending := 0 }

/-- The unit's other contexts: those reserved for it (R264). -/
def State.followersOf (s : State) (c : Ctx) : List (Nat × Nat) :=
  match s.group c.group with
  | none => []
  | some g =>
    match g.units.find? fun u => BitVec.ofNat 64 u.1 == c.unitid with
    | none => []
    | some u => (List.range (g.gw - 1)).map fun i => (coreOfComb g.comb (u.2.1 + 1 + i), u.2.2)

/-- The context that a thread leaves: Reserved again where it is reserved for the thread's unit, else Free. -/
def State.vacate (s : State) (core cx : Nat) : State :=
  let c := s.ctx core cx
  if c.follows && (s.followersOf c).contains (core, cx) then
    s.setCtx core cx { c.boundary with st := .reserved, wait := .none, recs := [], tiles := 0, generation := c.used + 1,
                                       used := c.used + 1 }
  else s.free core cx

/-- A former follower of a unit is Ready or Parked, on its way to another core, or saved. -/
def State.followersRun (s : State) (c : Ctx) : Bool :=
  s.someThread fun _ d => d.follows && d.group == c.group && d.unitid == c.unitid

/-- A retired thread's Release(dev) is complete: no store and no atomic of its is on its way (R120, R337). -/
def State.stored (s : State) (core cx : Nat) : Bool :=
  !(s.flights.any fun f => f.by_ == .thread core cx) && !(s.ctx core cx).recs.any fun r => r.op.atomic && r.got.isNone

/-- A retired thread is gone: a task's return record fills its caller with a poisoned value, a unit counts, and the context
is Reserved again for its unit, or Free. Its group and its launch may end. -/
def State.depart (s : State) (core cx : Nat) : State :=
  let c := s.ctx core cx
  let s := match c.retRec with
    | some t => (s.modCtx core cx fun c => { c with retRec := none }).sendFill t 0 true
    | none => s
  let s :=
    if c.follows then
      let t := s.vacate core cx
      if c.orphan && !t.followersRun c then t.countUnit c.launchid c.triggered else t
    else if c.unitid = BitVec.allOnes 64 then s.free core cx
    else (s.countUnit c.launchid c.triggered).free core cx
  (s.endGroup c.group).endLaunch c.launch

/-- A thread leaves its context for good. It is Retired until its stores and atomics are acknowledged (R337), and a unit's thread
until its counter is; its loads are abandoned (R209). -/
def State.retire (s : State) (core cx : Nat) : State :=
  let s := (s.letGo core cx).unwait core cx
  let c := s.ctx core cx
  let s := s.setCtx core cx { c.boundary with st := .retired, recs := c.recs.filter fun r => r.op.atomic && r.got.isNone, asyncs := [], wait := .none, gang := none, gangid := 0 }
  if (c.follows || c.unitid = BitVec.allOnes 64) && s.stored core cx then s.depart core cx
  else s.later (.counterAcknowledged core cx)

/-- COUNTER_ACKNOWLEDGED: the stores of a retired thread are acknowledged, and a unit's increments are performed, once no
former follower of the unit runs (R281): its context becomes Free. -/
def execCounterAcknowledged (s : State) : Outcome :=
  match s.event with
  | .counterAcknowledged core cx =>
    let c := s.ctx core cx
    let leads := !c.follows && c.unitid != BitVec.allOnes 64
    if c.st != .retired then .next s
    else if !s.stored core cx || (leads && s.followersRun c) then .next (s.later (.counterAcknowledged core cx))
    else if leads && s.nodeWaits c.launchid nodeKinds then
      .next ((s.nodeAsk c.launchid nodeKinds).later (.counterAcknowledged core cx))
    else .next (s.depart core cx)
  | _ => .next s

/-- `exit` may go on: Release(dev) is complete, the thread's transfers are Done, and no former follower of the unit that it
leads is Ready or Parked. -/
def State.exitReady (s : State) (core cx : Nat) : Bool :=
  let c := s.ctx core cx
  s.released core cx .dev s.seq && c.xfers = 0 &&
    (c.follows || c.unitid = BitVec.allOnes 64 || !s.followersRun c)

/-- `exit` (R129): the V operation completes first. A gang ends with the bundle (R280). -/
def execExit (g : BitVec 4) (s : State) : Outcome :=
  s.guarded g fun s =>
    match s.here.stage with
    | .acted _ =>
      if s.exitReady s.sel.1 s.sel.2 then .next (s.retire s.sel.1 s.sel.2)
      else .next (s.parkStage (.acted 1) .exitDrain)
    | _ => s.commitTo fun s =>
      (s.modHere fun c => { c.applyV with vres := .none, gang := none, gangid := 0 }).parkStage (.acted 1) .exitDrain

/-! ### Events of contexts -/

/-- CLEAR_DONE: the clear engine finishes the request at its head; contexts it has cleared become Ready once the ranges of
their group are zeroed (R166, R268). -/
def execClearDone (s : State) : Outcome :=
  match s.event with
  | .clearDone core =>
    let k := s.core core
    let k := match k.clears with
      | r :: l => if r.done.any (fun t => decide (t ≤ s.now)) then { k with clears := l } else k
      | [] => k
    let s := s.setCore core (k.startClear s.now)
    .next ((List.range 8).foldl (fun s x =>
      let c := s.ctx core x
      let zeroed := match s.group c.group with | some g => g.zeroed ≤ s.now | none => true
      if c.st = .clearing && zeroed && !(s.core core).clears.any (fun r => r.cx == x) then
        { s.setCtx core x { c with st := .ready, wdStart := s.now } with
          groups := s.groups.map fun g => if g.1 = c.group then (g.1, { g.2 with started := true }) else g }
      else s) s)
  | _ => .next s

/-- TRAP_DELIVERY: a context at a bundle boundary takes its first pending asynchronous cause (R200, R203). -/
def execTrapDelivery (s : State) : Outcome :=
  match s.event with
  | .trapDelivery core cx =>
    let c := s.ctx core cx
    match c.pending with
    | some (code, val) =>
      if code = 0x61 || (c.st != .ready && c.st != .follower) || c.stage != .fresh then .next s
      else
        let s := s.modCtx core cx fun c => { c with asyncs := c.asyncs.erase (code, val) }
        let p := s.nextBundle core cx fetchBlocks c.pc
        .next (s.deliver core cx true code val p (s.peekCode core cx p))
    | none => .next s
  | _ => .next s

/-- The place of a barrier word. -/
def barLoc (key : Nat) : Loc := ⟨if key < 2 ^ 52 then .glob else .combMem, key, 0, 0, 4, 0⟩

/-- A barrier word is written at its home; slot words take no part in the compressed store (R284, R289). -/
def State.barPut (s : State) (key v : Nat) : State :=
  if key < 2 ^ 52 then s.writeHome (barLoc key) 8 (cellsOf key v 8) [] else (s.wr key 8 v).wakeWatches key 8

/-- A barrier word on which a cancelled context waits breaks, if it is a device barrier (R287). -/
def State.breakFor (s : State) (core cx : Nat) : State :=
  (s.waiters.filter fun w => w.core == core && w.cx == cx && w.key < 2 ^ 52).foldl
    (fun s w =>
      let s := { s with waiters := s.waiters.filter fun v => !(v.core == core && v.cx == cx) }
      let others := s.waiters.filter fun v => v.key == w.key
      let s := { s with waiters := s.waiters.filter fun v => v.key != w.key }
      let s := s.barPut w.key (s.rd w.key 8 % 2 ^ 63 + 2 ^ 63)
      others.foldl (fun s v => s.modCtx v.core v.cx fun c => { c with stage := .refused 0x41 0 }) s) s

/-- CANCEL_DELIVERY: a cancelled context retires without a handler, at its next boundary, or at once while it is Parked,
Follower or Migrating (R209); members of a gang each have their own delivery. -/
def execCancelDelivery (s : State) : Outcome :=
  match s.event with
  | .cancelDelivery core cx =>
    let c := s.ctx core cx
    if !c.asyncs.any fun a => a.1 == 0x61 then .next s
    else if c.st = .ready && c.stage != .fresh then .next (s.later (.cancelDelivery core cx))
    else if c.st = .clearing then .next (s.later (.cancelDelivery core cx))
    else if c.st = .ready || c.st = .parked || c.st = .follower || c.st = .migrating then
      let s := s.breakFor core cx
      let s := match c.gang with
        | some m => s.dissolve cx m
        | none => s
      .next (s.retire core cx)
    else .next s
  | _ => .next s

/-- An agent has answered: the thread is about to wake. -/
def Stage.given : Stage → Bool
  | .answered _ _ | .refused _ _ => true
  | _ => false

/-- A Parked thread leaves its park for cause 0x62 (R450). A gang of which it is a member ends with the bundle: that which the
others have begun, or, where it leaves before the bundle has issued, the next that they complete (R280; log 90). -/
def State.leavePark (s : State) (core cx : Nat) (val : W64) : State :=
  let c := s.ctx core cx
  let s := (s.unwait core cx).unpromise core cx
  let p := s.nextBundle core cx fetchBlocks c.pc
  let t := s.deliver core cx true 0x62 val p (s.peekCode core cx p)
  match c.gang with
  | some m => if m.index = 0 || c.cur.isSome then t.dissolve cx m else t.endsSoon cx m
  | none => t

/-- WATCHDOG: the count of a unit's cycles reaches its limit: cause 0x62, for which a Parked thread leaves its park at once
(R206, R450). -/
def execWatchdog (s : State) : Outcome :=
  match s.event with
  | .watchdog core cx =>
    let c := s.ctx core cx
    if c.wdlim = 0 || s.now - c.wdStart < c.wdlim.toNat * 2 ^ 16 || c.st = .free || c.st = .reserved || c.st = .clearing ||
        c.st = .retired then .next s
    else
      let s := s.modCtx core cx fun c => { c with wdStart := s.now }
      if c.st = .parked && !c.priv && !c.stage.given then .next (s.leavePark core cx s.cycle)
      else .next (s.raiseAsync core cx 0x62 s.cycle)
  | _ => .next s

/-- Refill k comes in cycle 1,024 k + (k mod 7). -/
def refillCycle (t : Nat) : Bool := t % 1024 == t / 1024 % 7

/-- ENERGY_REFILL (R178, R435). -/
def execEnergyRefill (s : State) : Outcome :=
  match s.event with
  | .energyRefill core =>
    .next (s.modCore core fun k =>
      let r := k.erefill.toNat
      { k with ebal := BitVec.ofNat 20 (min (k.ebal.toNat + (if s.clamp then r / 2 else r)) (2 * r)) })
  | _ => .next s

/-- The records of the register that a fill is for, while its thread is in its context. -/
def State.fillRecs (s : State) (t : FillTag) : List Rec :=
  let c := s.ctx t.core t.cx
  if c.generation = t.gen && c.st != .free then c.recs.filter fun r => r.isV == t.isV && r.reg == t.reg else []

/-- A fill whose register an earlier record is still to fill (R163). -/
def State.fillWaits (s : State) (t : FillTag) : Bool :=
  match s.fillRecs t with
  | r :: l => r.seq != t.seq && l.any fun k => k.seq == t.seq
  | [] => false

/-- A fill from another agent reaches the record it is for, the slot of a saved thread, or nobody (R214). A register is filled
in the order in which its records were taken (R163); the fill is an acquire at dev scope (R255). -/
def State.remoteFill (s : State) (t : FillTag) (val : W512) (pois : Bool) : State :=
  let mine := s.fillRecs t
  match mine.find? fun r => r.seq == t.seq && r.op.isRemote with
  | some r =>
    if mine.head? = some r then
      let s := (s.modCtx t.core t.cx fun c => c.fillReg r val pois).acquire t.core .dev
      if mine.tail.any fun k => k.got.isSome then s.later (.fill t.core t.cx t.isV t.reg) else s
    else
      (s.modCtx t.core t.cx fun c => { c with recs := c.recs.map fun k =>
        if k.seq = r.seq then { k with got := some (val, pois) } else k }).later (.fill t.core t.cx t.isV t.reg)
  | none =>
    if (s.core t.core).redirects.any fun r => r.gen == t.gen && r.cx == t.cx then
      { s with savedFills := s.savedFills ++ [(t, val, pois)] }
    else s

/-- REMOTE_FILL. -/
def execRemoteFill (s : State) : Outcome :=
  match s.event with
  | .remoteFill t val pois => .next (s.remoteFill t val pois)
  | _ => .next s

end Sys2Proof.Machine
end

