-- ==== Sys2Proof/Machine/Barrier.lean ====
section
/-! DEFINITION. Gangs, barriers and monitored sectors (spec/12_group.md R276-R281, spec/13_barrier.md R282-R297). -/

namespace Sys2Proof.Machine

/-! ### Gangs -/

/-- Width of a gang by its code 1, 2, 3 (R276). -/
def gangWidth (w : BitVec 2) : Nat := 2 ^ w.toNat

/-- The reason for which `gang` traps with 0x0C (R277): 4 too where a former follower still runs, on whatever core (R281). -/
def State.gangCheck (s : State) (core cx w : Nat) : Option Nat :=
  let c := s.ctx core cx
  let l := sget c.launch s.launches
  if !(l.map (·.gangable)).getD false then some 1
  else if c.gang.isSome then some 3
  else if (l.map (·.gw)).getD 1 < w || core % 16 % w != 0 then some 2
  else if (c.follows || !s.followersRun c) && (List.range (w - 1)).all (fun i =>
      let f := (core + 1 + i, cx)
      (s.ctx f.1 f.2).st = .reserved && (s.followersOf c).contains f) then none
  else some 4

/-- `gang`: the reserved contexts follow the issuer from the next bundle on. The watchdog count of a follower starts here
(log 71). -/
def execGang (g : BitVec 4) (w : BitVec 2) (s : State) : Outcome :=
  s.guarded g fun s =>
    let core := s.sel.1
    let cx := s.sel.2
    let n := gangWidth w
    match s.gangCheck core cx n with
    | some r => .next (s.raise 0x0C (BitVec.ofNat 64 r))
    | none =>
      s.commitTo fun s =>
        let s := s.finish
        let s := s.modCtx core cx fun c =>
          { c with gang := some { leader := core, width := n, index := 0 }, gangid := BitVec.ofNat 8 (n * 16) }
        let c := s.ctx core cx
        (List.range (n - 1)).foldl
          (fun s i => s.modCtx (core + 1 + i) cx fun f =>
            { f with
              st := .follower, gang := some { leader := core, width := n, index := i + 1 },
              gangid := BitVec.ofNat 8 (n * 16 + i + 1), k := c.k, delta := c.delta, unitid := c.unitid,
              launchid := c.launchid, groupid := c.groupid, origin := c.origin, fmode := c.fmode, pc := c.pc, via := c.via,
              landed := c.landed, loop0 := c.loop0, loop1 := c.loop1, follows := true, launch := c.launch,
              group := c.group, triggered := c.triggered, wdStart := s.now, station := some (core + 1 + i),
              tiles := 0 }) s

/-- `ungang`: the member leaves its gang, which ends with the bundle (R280); outside a gang it does nothing (log 24). -/
def execUngang (g : BitVec 4) (s : State) : Outcome :=
  s.guarded g fun s => s.commitTo fun s => s.finish.modHere Ctx.leave

/-! ### The barrier word (R282, R283) -/

def barBrk (w : Nat) : Bool := w / 2 ^ 63 % 2 == 1
def barPhase (w : Nat) : Nat := w / 2 ^ 56 % 64
def barArrivals (w : Nat) : Nat := w / 2 ^ 32 % 2 ^ 24
def barCount (w : Nat) : Nat := w % 2 ^ 24

def barMalformed (w : Nat) : Bool :=
  w / 2 ^ 24 % 256 != 0 || (barCount w != 0 && barCount w ≤ barArrivals w) ||
    (barCount w == 0 && w / 2 ^ 32 % 2 ^ 31 != 0)

/-- The word after an arrival, and whether it completes the phase (R287). -/
def barArrive (w : Nat) : Nat × Bool :=
  if barArrivals w + 1 = barCount w then (2 ^ 62 + (barPhase w + 1) % 64 * 2 ^ 56 + barCount w, true)
  else (barPhase w * 2 ^ 56 + (barArrivals w + 1) * 2 ^ 32 + barCount w, false)

/-- The forms of BAR. -/
inductive BarForm where
  | init (count : Nat)
  | arv
  | wait (phase : Nat)
  | arw
deriving DecidableEq, Repr

/-- The cause for which a BAR instruction traps at the home: 0x41 on a Broken word, 0x46 on a malformed or Idle one. Of a word
that is both Broken and malformed R287 has 0x41 and R283 has 0x46; the spec states no order, and the model takes 0x41
(log 82). -/
def BarForm.check (f : BarForm) (w : Nat) (pois : Bool) : Option Byte :=
  match f with
  | .init _ => none
  | _ =>
    if pois then some 0x46
    else if barBrk w then some 0x41
    else if barMalformed w || barCount w = 0 then some 0x46
    else none

/-- The answer to a waiter. -/
def State.wakeWaiters (s : State) (key : Nat) (stage : Stage) (which : BarWaiter → Bool) : State :=
  let l := s.waiters.filter fun w => w.key == key && which w
  let s := { s with waiters := s.waiters.filter fun w => !(w.key == key && which w) }
  l.foldl (fun s w => s.modCtx w.core w.cx fun c => { c with stage := stage }) s

/-- The home's turn for the executing thread: a free choice, once earlier accesses to the place are performed and no write marks
it. A place whose channel has become degraded meanwhile has cause 0x72 (R448). -/
def State.atHome (s : State) (l : Loc) (n : Nat) (stage : Stage) (act : State → Outcome) : Outcome :=
  let core := s.sel.1
  let cx := s.sel.2
  if s.degradedAt l then .next ((s.noticeDegraded core cx (lo64 l.va)).raise 0x72 (lo64 l.va))
  else if s.behind core cx s.seq l n || s.marked (.thread core cx) l n || s.stalled l then .next (s.parkStage stage .home)
  else
    let p := s.pick 2
    if p.1 = 0 then act p.2 else .next (p.2.parkStage stage .home)

/-- The scope of a barrier (R284). -/
def barScope (l : Loc) : Scope := if l.win == .combMem then .comb else .dev

/-- The home's action for a BAR instruction, and what the thread does then (R287, R289). -/
def State.barAct (s : State) (f : BarForm) (l : Loc) : Outcome :=
  let v := s.readHome (.thread s.sel.1 s.sel.2) (barLoc l.key) 8
  let w := v.1
  match f.check w v.2.1 with
  | some code => .next (s.raise code (lo64 l.va))
  | none =>
    s.commitTo fun s =>
      let put (s : State) (x : Nat) : State := (s.l1Drop s.sel.1 (l.key / 64)).barPut l.key x
      let register (s : State) (phase : Nat) : State :=
        let e : BarWaiter := { core := s.sel.1, cx := s.sel.2, key := l.key, phase := BitVec.ofNat 6 phase }
        { s with waiters := s.waiters ++ [e] }.parkStage (.acted 2) .barrier
      match f with
      | .init count => (put (s.wakeWaiters l.key (.refused 0x41 (lo64 l.va)) fun _ => true) count).finish
      | .wait phase =>
        if barPhase w = phase then register s phase
        else (s.acquire s.sel.1 (barScope l)).finish
      | .arv | .arw =>
        let a := barArrive w
        let s := put s a.1
        let s := if a.2 then s.wakeWaiters l.key (.answered 0 false) fun v => v.phase.toNat == barPhase w else s
        if f = .arv then s.finish
        else if a.2 then (s.acquire s.sel.1 (barScope l)).finish
        else register s (barPhase w)

/-- The common course of BAR instructions: resolve the word, Release(S) where the form has it, the home's action, the
wake. -/
def State.bar (s : State) (a : BitVec 4) (f : BarForm) : Outcome :=
  let isWait : Bool := match f with | .wait _ => true | _ => false
  match s.here.stage, s.here.places with
  | .acted 1, l :: _ =>
    s.atHome l 8 (.acted 1) fun s => s.barAct f l
  | .acted n, _ =>
    if n < 4 then .next (s.parkStage (.acted 2) .barrier)
    else
      -- a restored thread performs its wait for phase n - 4 again (R292)
      match s.resolve s.sel.1 s.sel.2 (s.here.sreg a).val 8 (.bar true) with
      | (.trap code v, s) => .next (s.raise code v)
      | (.park w, s) => .next (s.parkStage (.acted n) w)
      | (.ok l, s) =>
        s.atHome l 8 (.acted n) fun s => (s.modHere fun c => { c with places := [l] }).barAct (.wait (n - 4)) l
  | .answered _ _, l :: _ => .next (s.acquire s.sel.1 (barScope l)).finish
  | .refused code _, l :: _ => .next (s.raise code (lo64 l.va))
  | _, _ =>
    let x := s.here.sreg a
    if x.pois then .next (s.raise 0x10 (poisVal 0 a.toNat))
    else
      match s.place [x.val] 8 (.bar isWait) with
      | (none, s) => .next s
      | (some ls, s) =>
        let sc : Scope := match ls with | l :: _ => barScope l | [] => .dev
        s.afterRelease (!isWait) sc fun s =>
          .next ((s.modHere fun c => { c with places := ls }).parkStage (.acted 1) .home)

/-- `bar.init`. -/
def execBarInit (g a b : BitVec 4) (s : State) : Outcome :=
  s.guarded g fun s =>
    let n := s.here.sreg b
    let x := s.here.sreg a
    if x.pois then .next (s.raise 0x10 (poisVal 0 a.toNat))
    else if n.pois then .next (s.raise 0x11 (poisVal 0 b.toNat))
    else
      let count := (lo64 n.val).toNat
      if s.here.stage = .fresh && 2 ^ 24 ≤ count then
        match s.place [x.val] 8 (.bar false) with
        | (none, s) => .next s
        | (some _, s) => .next (s.raise 0x46 (lo64 x.val))
      else s.bar a (.init count)
/-- `bar.arv`. -/
def execBarArv (g a : BitVec 4) (s : State) : Outcome := s.guarded g fun s => s.bar a .arv
/-- `bar.wait`: a poisoned phase decides whether the thread goes on. -/
def execBarWait (g a b : BitVec 4) (s : State) : Outcome :=
  s.guarded g fun s =>
    let x := s.here.sreg a
    let n := s.here.sreg b
    if x.pois then .next (s.raise 0x10 (poisVal 0 a.toNat))
    else if s.here.stage = .fresh && n.pois then
      match s.place [x.val] 8 (.bar true) with
      | (none, s) => .next s
      | (some _, s) => .next (s.raise 0x12 (poisVal 0 b.toNat))
    else s.bar a (.wait ((lo64 n.val).toNat % 64))
/-- `bar.arw`. -/
def execBarArw (g a : BitVec 4) (s : State) : Outcome := s.guarded g fun s => s.bar a .arw

/-! ### Monitored sectors (R293-R296) -/

/-- The home that keeps a watch of a sector: a home slice, or a comb memory port. -/
def State.watchHome (s : State) (sector : Nat) : Nat :=
  let key := 32 * sector
  if key < 2 ^ 52 then s.homeOf key else 4096 + (key - 2 ^ 53) / 2 ^ 24

/-- Takes a context's watch away. -/
def State.unwatch (s : State) (core cx : Nat) : State :=
  { s with watches := s.watches.filter fun w => !(w.core == core && w.cx == cx) }.modCtx core cx
    fun c => { c with watch := none, watchPending := 0 }

/-- A home registers a watch; a home that holds 64 evicts its oldest, whose context receives reason 2. -/
def State.arm (s : State) (core cx sector : Nat) : State :=
  let s := s.unwatch core cx
  let home := s.watchHome sector
  let same := s.watches.filter fun w => s.watchHome w.sector == home
  let s := match decide (64 ≤ same.length), same with
    | true, o :: _ => { s with watches := s.watches.erase o }.wakeWatch o 2
    | _, _ => s
  let e : WatchEnt := { core := core, cx := cx, sector := sector }
  { s with watches := s.watches ++ [e] }.modCtx core cx fun c => { c with watch := some sector }

/-- `mwatch`: the thread waits for the home. -/
def execMwatch (g a : BitVec 4) (s : State) : Outcome :=
  s.guarded g fun s =>
    match s.here.stage, s.here.places with
    | .acted 1, l :: _ =>
      s.atHome l 1 (.acted 1) fun s => s.commit fun s => s.arm s.sel.1 s.sel.2 (l.key / 32)
    | _, _ =>
      let x := s.here.sreg a
      if x.pois then .next (s.raise 0x10 (poisVal 0 a.toNat))
      else
        match s.place [x.val] 1 .watch with
        | (none, s) => .next s
        | (some ls, s) => .next ((s.modHere fun c => { c with places := ls }).parkStage (.acted 1) .home)

/-- Takes a reason into sD; after reason 2, or another one that an eviction has followed, the watch is gone (R295). -/
def State.mwaitDone (s : State) (d : BitVec 4) (code : Nat) (pending : Bool) : Outcome :=
  let armed := s.watches.any fun w => w.core == s.sel.1 && w.cx == s.sel.2
  s.commitHere fun c =>
    let c := c.result d (BitVec.ofNat 64 code) false
    let c := if pending then { c with watchPending := 0 } else c
    if code = 2 || !armed then { c with watch := none } else c

/-- `mwait`. -/
def execMwait (g d b : BitVec 4) (s : State) : Outcome :=
  s.guarded g fun s =>
    let c := s.here
    match c.stage with
    | .answered v _ => s.mwaitDone d v.toNat false
    | .acted _ => .next (s.parkStage (.acted 1) c.wait)
    | _ =>
      if c.watch.isNone then .next (s.raise 0x42 0)
      else if (c.sreg b).pois then .next (s.raise 0x12 (poisVal 0 b.toNat))
      else if c.watchPending != 0 then s.mwaitDone d c.watchPending true
      else
        match c.vres with
        | .trap code v => .next (s.raise code v)
        | _ =>
          let n := (c.sval64 b).toNat % 2 ^ 32
          .next (s.parkStage (.acted 1) (.mwait (if n = 0 then none else some (s.now + n))))

/-- `mclr`. -/
def execMclr (g : BitVec 4) (s : State) : Outcome :=
  s.guarded g fun s => s.commit fun s => s.unwatch s.sel.1 s.sel.2

/-- MWAIT_TIMEOUT: the cycles of an `mwait` have passed. -/
def execMwaitTimeout (s : State) : Outcome :=
  match s.event with
  | .mwaitTimeout core cx =>
    let c := s.ctx core cx
    match c.wait with
    | .mwait (some t) =>
      .next (if c.st = .parked && t ≤ s.now then s.wakeWatch { core := core, cx := cx, sector := 0 } 3 else s)
    | _ => .next s
  | _ => .next s

end Sys2Proof.Machine
end

