-- ==== Sys2Proof/Machine/Flags.lean ====
section
/-! DEFINITION. Flags and arithmetic traps of vector forms (R72-R76), and the forms that all V operations share
(R130-R133). -/

namespace Sys2Proof.Machine

/-- The mode in force for a bundle's V operation (R74). -/
def Ctx.mode (c : Ctx) : FMode :=
  { rm := decRm (c.fmode.extractLsb' 0 2), daz := c.fmode.getLsbD 2, ftz := c.fmode.getLsbD 3 }

/-- What one lane gives: its bits, the flags raised, a normaliser request. -/
structure LaneOut where
  bits : W32
  flags : BitVec 6 := 0
  norm : Bool := false
deriving DecidableEq, Repr

/-- The lanes that raise flag j. -/
def raisers (l : List (Nat × BitVec 6)) (j : Nat) : Nat :=
  l.foldl (fun a x => if x.2.getLsbD j then a + 2 ^ x.1 else a) 0

/-- The arithmetic trap of R76: the lowest cause among the enabled flags raised, with its lanes. -/
def fpTrap (fmode : BitVec 10) (l : List (Nat × BitVec 6)) : Option (Byte × W64) :=
  ([0, 1, 2, 3, 4].find? fun j => fmode.getLsbD (4 + j) && raisers l j != 0).map fun j =>
    (BitVec.ofNat 8 (0x14 + j), BitVec.ofNat 64 (raisers l j))

def orFlags (l : List (Nat × BitVec 6)) : BitVec 6 := l.foldl (fun a x => a ||| x.2) 0

/-- The lane mask of a V guard (R55, R130). -/
def Ctx.maskGuard (c : Ctx) (g : BitVec 4) : MCell :=
  let m := c.mreg (g.extractLsb' 0 3)
  if g.extractLsb' 3 1 = 0 then m else ⟨~~~m.val, m.pois⟩

/-- The V operation's result is put in hand until the bundle completes (R132). -/
def State.hold (s : State) (k : Ctx → VRes) : Outcome := .next (s.modHere fun c => { c with vres := k c })

/-- A V operation under its guard: a poisoned mask traps with 0x12 (R133). -/
def Ctx.masked (c : Ctx) (g : BitVec 4) (k : W16 → VRes) : VRes :=
  let m := c.maskGuard g
  if m.pois then .trap 0x12 (poisVal 3 (g.extractLsb' 0 3).toNat) else k m.val

def activeLanes (m : W16) : List Nat := (List.range 16).filter fun i => m.getLsbD i

/-- Active lanes take the new bits; the others keep the old (R130). -/
def mergeLanes (m : W16) (old : W512) (outs : List (Nat × LaneOut)) : W512 :=
  pack16 fun i => if m.getLsbD i then (((outs.find? fun x => x.1 == i).map fun x => x.2.bits).getD 0) else lane old i

/-- The result of a form that writes the active lanes of vD (R76, R130, R133). -/
def Ctx.vecForm (c : Ctx) (g d : BitVec 4) (pois : Bool) (f : Nat → LaneOut) : VRes :=
  c.masked g fun m =>
    if pois || (g != 0 && (c.vreg d).pois) then .eff { v := [(d, 0, true)] }
    else
      let outs := (activeLanes m).map fun i => (i, f i)
      let fl := outs.map fun x => (x.1, x.2.flags)
      match fpTrap c.fmode fl with
      | some (code, val) => .trap code val
      | none =>
        .eff { v := [(d, mergeLanes m (c.vreg d).val outs, false)], flags := orFlags fl,
               normalise := outs.any fun x => x.2.norm }

/-- A form that moves or computes bits: no flag, no normaliser (R135). -/
def Ctx.bitForm (c : Ctx) (g d : BitVec 4) (pois : Bool) (f : Nat → W32) : VRes :=
  c.vecForm g d pois fun i => { bits := f i }

def Ctx.bits1 (c : Ctx) (g d : BitVec 4) (a : VSrc) (f : W32 → W32) : VRes :=
  c.bitForm g d (c.vsrc a).pois fun i => f (lane (c.vsrc a).val i)

def Ctx.bits2 (c : Ctx) (g d a : BitVec 4) (b : VSrc) (f : W32 → W32 → W32) : VRes :=
  c.bitForm g d ((c.vreg a).pois || (c.vsrc b).pois) fun i => f (lane (c.vreg a).val i) (lane (c.vsrc b).val i)

/-- An FP32 result as a lane. -/
def FRes.lane (r : FRes) : LaneOut := ⟨BitVec.ofNat 32 r.bits, r.flags, r.norm⟩

def Ctx.fp1 (c : Ctx) (g d : BitVec 4) (a : VSrc) (f : FMode → Nat → FRes) : VRes :=
  c.vecForm g d (c.vsrc a).pois fun i => (f c.mode (lane (c.vsrc a).val i).toNat).lane

def Ctx.fp2 (c : Ctx) (g d a : BitVec 4) (b : VSrc) (f : FMode → Nat → Nat → FRes) : VRes :=
  c.vecForm g d ((c.vreg a).pois || (c.vsrc b).pois) fun i =>
    (f c.mode (lane (c.vreg a).val i).toNat (lane (c.vsrc b).val i).toNat).lane

def Ctx.fp3 (c : Ctx) (g d a b : BitVec 4) (k : VSrc) (f : FMode → Nat → Nat → Nat → FRes) : VRes :=
  c.vecForm g d ((c.vreg a).pois || (c.vreg b).pois || (c.vsrc k).pois) fun i =>
    (f c.mode (lane (c.vreg a).val i).toNat (lane (c.vreg b).val i).toNat (lane (c.vsrc k).val i).toNat).lane

/-- Element 0 or 1 of a lane (R71). -/
def half (w : W32) (j : Nat) : Nat := w.toNat / 2 ^ (16 * j) % 2 ^ 16

/-- Two half-precision results as a lane (R139). -/
def halves (x y : FRes) : LaneOut := ⟨BitVec.ofNat 32 (x.bits + 2 ^ 16 * y.bits), x.flags ||| y.flags, x.norm || y.norm⟩

/-- The element format of VH: .f16 or .bf16. -/
def halfFmt (t : Bool) : Fmt := if t then bf16 else fp16

def Ctx.half2 (c : Ctx) (g d a : BitVec 4) (b : VSrc) (f : FMode → Nat → Nat → FRes) : VRes :=
  c.vecForm g d ((c.vreg a).pois || (c.vsrc b).pois) fun i =>
    let x := lane (c.vreg a).val i
    let y := lane (c.vsrc b).val i
    halves (f c.mode (half x 0) (half y 0)) (f c.mode (half x 1) (half y 1))

/-- A form that writes a scalar register. -/
def Ctx.scalarForm (c : Ctx) (d : BitVec 4) (pois : Bool) (x : W64) : VRes :=
  .eff { s := some (d, if pois then 0 else sx72 x, pois) }

/-- A form that writes a mask register: inactive bits are cleared (R130). -/
def maskForm (d : BitVec 3) (m : W16) (pois : Bool) (x : W16) : VRes :=
  .eff { m := some (d, if pois then 0 else x &&& m, pois) }

end Sys2Proof.Machine
end

