-- ==== Sys2Proof/Machine/Vector.lean ====
section
/-! DEFINITION. The V operations on FP32, half-precision and integer lanes, masks, permutes, moves and reductions
(spec/06_vector.md R137-R149, R155-R158). Each puts its result in hand; the bundle's end writes it (R132). -/

namespace Sys2Proof.Machine


/-- `vadd.f32` (R137). -/
def execVaddF32 (g d a : BitVec 4) (b : VSrc) (s : State) : Outcome :=
  s.hold fun c => c.fp2 g d a b fp32.add

/-- `vsub.f32` (R137). -/
def execVsubF32 (g d a : BitVec 4) (b : VSrc) (s : State) : Outcome :=
  s.hold fun c => c.fp2 g d a b fp32.sub

/-- `vmul.f32` (R137). -/
def execVmulF32 (g d a : BitVec 4) (b : VSrc) (s : State) : Outcome :=
  s.hold fun c => c.fp2 g d a b fp32.mul

/-- `vmin.f32` (R137, R82). -/
def execVminF32 (g d a : BitVec 4) (b : VSrc) (s : State) : Outcome :=
  s.hold fun c => c.fp2 g d a b fun md => fp32.minMax md false

/-- `vmax.f32` (R137, R82). -/
def execVmaxF32 (g d a : BitVec 4) (b : VSrc) (s : State) : Outcome :=
  s.hold fun c => c.fp2 g d a b fun md => fp32.minMax md true

/-- `vminnum.f32` (R137, R82). -/
def execVminnum (g d a : BitVec 4) (b : VSrc) (s : State) : Outcome :=
  s.hold fun c => c.fp2 g d a b fun md => fp32.minMaxNum md false

/-- `vmaxnum.f32` (R137, R82). -/
def execVmaxnum (g d a : BitVec 4) (b : VSrc) (s : State) : Outcome :=
  s.hold fun c => c.fp2 g d a b fun md => fp32.minMaxNum md true

/-- `vabs.f32`: the sign bit cleared (R80). -/
def execVabs (g d : BitVec 4) (a : VSrc) (s : State) : Outcome :=
  s.hold fun c => c.bits1 g d a fun x => x &&& 0x7FFFFFFF

/-- `vneg.f32`: the sign bit inverted (R80). -/
def execVneg (g d : BitVec 4) (a : VSrc) (s : State) : Outcome :=
  s.hold fun c => c.bits1 g d a fun x => x ^^^ 0x80000000

/-- `vcopysign.f32` (R80). -/
def execVcopysign (g d a : BitVec 4) (b : VSrc) (s : State) : Outcome :=
  s.hold fun c => c.bits2 g d a b fun x y => (x &&& 0x7FFFFFFF) ||| (y &&& 0x80000000)

/-- `vfma.f32`: a × b + c with one rounding (R138). -/
def execVfma (g d a b : BitVec 4) (k : VSrc) (s : State) : Outcome :=
  s.hold fun c => c.fp3 g d a b k fun md => fp32.fma md false false

/-- `vfms.f32`: a × b − c with one rounding (R138). -/
def execVfms (g d a b : BitVec 4) (k : VSrc) (s : State) : Outcome :=
  s.hold fun c => c.fp3 g d a b k fun md => fp32.fma md false true

/-- `vfnma.f32`: −(a × b) + c with one rounding (R138). -/
def execVfnma (g d a b : BitVec 4) (k : VSrc) (s : State) : Outcome :=
  s.hold fun c => c.fp3 g d a b k fun md => fp32.fma md true false

/-- `vfnms.f32`: −(a × b) − c with one rounding (R138). -/
def execVfnms (g d a b : BitVec 4) (k : VSrc) (s : State) : Outcome :=
  s.hold fun c => c.fp3 g d a b k fun md => fp32.fma md true true

/-- VH `vadd` on both elements of each lane (R139). -/
def execVhAdd (g d a : BitVec 4) (b : VSrc) (t : Bool) (s : State) : Outcome :=
  s.hold fun c => c.half2 g d a b fun md => (halfFmt t).add md

/-- VH `vmul` on both elements of each lane (R139). -/
def execVhMul (g d a : BitVec 4) (b : VSrc) (t : Bool) (s : State) : Outcome :=
  s.hold fun c => c.half2 g d a b fun md => (halfFmt t).mul md

/-- VH `vmin` on both elements of each lane (R139). -/
def execVhMin (g d a : BitVec 4) (b : VSrc) (t : Bool) (s : State) : Outcome :=
  s.hold fun c => c.half2 g d a b fun md => (halfFmt t).minMax md false

/-- VH `vmax` on both elements of each lane (R139). -/
def execVhMax (g d a : BitVec 4) (b : VSrc) (t : Bool) (s : State) : Outcome :=
  s.hold fun c => c.half2 g d a b fun md => (halfFmt t).minMax md true

/-- VH `vfma` on both elements of each lane (R139). -/
def execVhFma (g d a b : BitVec 4) (k : VSrc) (t : Bool) (s : State) : Outcome :=
  s.hold fun c =>
    c.vecForm g d ((c.vreg a).pois || (c.vreg b).pois || (c.vsrc k).pois) fun i =>
      let x := lane (c.vreg a).val i
      let y := lane (c.vreg b).val i
      let z := lane (c.vsrc k).val i
      let f (j : Nat) : FRes := (halfFmt t).fma c.mode false false (half x j) (half y j) (half z j)
      halves (f 0) (f 1)

/-! ### Integer lanes (R140, R141) -/

/-- Leading zeros of a lane. -/
def clz32 (x : W32) : W32 := if x = 0 then 32 else BitVec.ofNat 32 (31 - x.toNat.log2)

/-- Ones among the low n bits. -/
def onesIn (x : Nat) : Nat → Nat
  | 0 => 0
  | n + 1 => x % 2 + onesIn (x / 2) n

def smin32 (x y : W32) : W32 := if x.toInt ≤ y.toInt then x else y
def smax32 (x y : W32) : W32 := if x.toInt ≤ y.toInt then y else x
def umin32 (x y : W32) : W32 := if x.toNat ≤ y.toNat then x else y
def umax32 (x y : W32) : W32 := if x.toNat ≤ y.toNat then y else x

/-- The high half of the 64-bit product. -/
def mulHigh32 (u : Bool) (x y : W32) : W32 :=
  if u then BitVec.ofNat 32 (x.toNat * y.toNat / 2 ^ 32) else BitVec.ofInt 32 (x.toInt * y.toInt / 2 ^ 32)

/-- A function of the four byte pairs of two lanes. -/
def bytewise (f : Byte → Byte → Byte) (x y : W32) : W32 :=
  let q (i : Nat) : Byte := f (x.extractLsb' (8 * i) 8) (y.extractLsb' (8 * i) 8)
  q 3 ++ q 2 ++ q 1 ++ q 0

/-- A sum of i8 saturated to −128 … 127. -/
def satAdd8 (x y : Byte) : Byte := BitVec.ofInt 8 (max (-128) (min 127 (x.toInt + y.toInt)))

/-- c + Σ a_q × b_q over the four signed bytes (R141). -/
def dot4 (x y z : W32) : W32 :=
  let q (i : Nat) : Int := (x.extractLsb' (8 * i) 8).toInt * (y.extractLsb' (8 * i) 8).toInt
  z + BitVec.ofInt 32 (q 0 + q 1 + q 2 + q 3)

/-- `vadd.i32` (R140). -/
def execVaddI32 (g d a : BitVec 4) (b : VSrc) (s : State) : Outcome :=
  s.hold fun c => c.bits2 g d a b fun x y => x + y

/-- `vsub.i32` (R140). -/
def execVsubI32 (g d a : BitVec 4) (b : VSrc) (s : State) : Outcome :=
  s.hold fun c => c.bits2 g d a b fun x y => x - y

/-- `vmul.i32` (R140). -/
def execVmulI32 (g d a : BitVec 4) (b : VSrc) (s : State) : Outcome :=
  s.hold fun c => c.bits2 g d a b fun x y => x * y

/-- `vand.i32` (R140). -/
def execVandI32 (g d a : BitVec 4) (b : VSrc) (s : State) : Outcome :=
  s.hold fun c => c.bits2 g d a b fun x y => x &&& y

/-- `vor.i32` (R140). -/
def execVorI32 (g d a : BitVec 4) (b : VSrc) (s : State) : Outcome :=
  s.hold fun c => c.bits2 g d a b fun x y => x ||| y

/-- `vxor.i32` (R140). -/
def execVxorI32 (g d a : BitVec 4) (b : VSrc) (s : State) : Outcome :=
  s.hold fun c => c.bits2 g d a b fun x y => x ^^^ y

/-- `vshl.i32` (R140). -/
def execVshlI32 (g d a : BitVec 4) (b : VSrc) (s : State) : Outcome :=
  s.hold fun c => c.bits2 g d a b fun x y => x <<< (y.toNat % 32)

/-- `vshr.i32` (R140). -/
def execVshrI32 (g d a : BitVec 4) (b : VSrc) (s : State) : Outcome :=
  s.hold fun c => c.bits2 g d a b fun x y => x >>> (y.toNat % 32)

/-- `vsra.i32` (R140). -/
def execVsraI32 (g d a : BitVec 4) (b : VSrc) (s : State) : Outcome :=
  s.hold fun c => c.bits2 g d a b fun x y => x.sshiftRight (y.toNat % 32)

/-- `vmin.i32` (R140). -/
def execVminI32 (g d a : BitVec 4) (b : VSrc) (s : State) : Outcome :=
  s.hold fun c => c.bits2 g d a b smin32

/-- `vmax.i32` (R140). -/
def execVmaxI32 (g d a : BitVec 4) (b : VSrc) (s : State) : Outcome :=
  s.hold fun c => c.bits2 g d a b smax32

/-- `vmin.n32` (R140). -/
def execVminN32 (g d a : BitVec 4) (b : VSrc) (s : State) : Outcome :=
  s.hold fun c => c.bits2 g d a b umin32

/-- `vmax.n32` (R140). -/
def execVmaxN32 (g d a : BitVec 4) (b : VSrc) (s : State) : Outcome :=
  s.hold fun c => c.bits2 g d a b umax32

/-- `vmulh.i32` and `vmulh.n32` (R140). -/
def execVmulh (g d a : BitVec 4) (b : VSrc) (u : Bool) (s : State) : Outcome :=
  s.hold fun c => c.bits2 g d a b (mulHigh32 u)

/-- `vclz.i32` (R140). -/
def execVclzI32 (g d : BitVec 4) (a : VSrc) (s : State) : Outcome :=
  s.hold fun c => c.bits1 g d a clz32

/-- `vpcnt.i32` (R140). -/
def execVpcntI32 (g d : BitVec 4) (a : VSrc) (s : State) : Outcome :=
  s.hold fun c => c.bits1 g d a fun x => BitVec.ofNat 32 (onesIn x.toNat 32)

/-- `vadd8` (R141). -/
def execVadd8 (g d a : BitVec 4) (b : VSrc) (s : State) : Outcome :=
  s.hold fun c => c.bits2 g d a b (bytewise fun x y => x + y)

/-- `vadds8` (R141). -/
def execVadds8 (g d a : BitVec 4) (b : VSrc) (s : State) : Outcome :=
  s.hold fun c => c.bits2 g d a b (bytewise satAdd8)

/-- `vdot4` (R141). -/
def execVdot4 (g d a b : BitVec 4) (k : VSrc) (s : State) : Outcome :=
  s.hold fun c =>
    c.bitForm g d ((c.vreg a).pois || (c.vreg b).pois || (c.vsrc k).pois) fun i =>
      dot4 (lane (c.vreg a).val i) (lane (c.vreg b).val i) (lane (c.vsrc k).val i)

/-! ### Compares, select, masks (R142-R144) -/

/-- An ordered comparison by a condition. -/
def orderCond (c : VCond) (x y : Int) : Bool :=
  match c with
  | .eq => x == y
  | .ne => x != y
  | .lt => x < y
  | .ge => y ≤ x
  | .le => x ≤ y
  | .gt => y < x
  | .unord => false

/-- A number as an integer multiple of the smallest FP32 subnormal: the order of FP32 values, −0 = +0. -/
def fpOrder (x : Nat) : Int := if x / 2 ^ 31 % 2 = 1 then -((x % 2 ^ 31 : Nat) : Int) else ((x % 2 ^ 31 : Nat) : Int)

/-- An FP32 comparison: the condition, the flags, a normaliser request (R142). -/
def fpCond (md : FMode) (c : VCond) (x y : Nat) : Bool × BitVec 6 × Bool :=
  let nan := (fp32.propagate [x, y]).isSome
  let sig := fp32.isSig x || fp32.isSig y
  let quietCond := c == .eq || c == .ne || c == .unord
  let r := if nan then c == .ne || c == .unord else orderCond c (fpOrder (fp32.dazBits md x)) (fpOrder (fp32.dazBits md y))
  (r, if sig || (nan && !quietCond) then nvFlag else 0, fp32.asks md x || fp32.asks md y)

/-- One lane of `vcmp`. -/
def cmpLane (md : FMode) (t : CmpTy) (c : VCond) (x y : W32) : Bool × BitVec 6 × Bool :=
  match t with
  | .f32 => fpCond md c x.toNat y.toNat
  | .i32 => (orderCond c x.toInt y.toInt, 0, false)
  | .n32 => (orderCond c x.toNat y.toNat, 0, false)

/-- The mask whose bits are the lanes that hold. -/
def maskOf (l : List Nat) : W16 := BitVec.ofNat 16 (l.foldl (fun a i => a + 2 ^ i) 0)

/-- `vcmp` (R142). -/
def execVcmp (g : BitVec 4) (m : BitVec 3) (a : BitVec 4) (b : VSrc) (t : CmpTy) (k : VCond) (s : State) : Outcome :=
  s.hold fun c =>
    c.masked g fun act =>
      if (c.vreg a).pois || (c.vsrc b).pois then maskForm m act true 0
      else
        let outs := (activeLanes act).map fun i => (i, cmpLane c.mode t k (lane (c.vreg a).val i) (lane (c.vsrc b).val i))
        let fl := outs.map fun x => (x.1, x.2.2.1)
        match fpTrap c.fmode fl with
        | some (code, val) => .trap code val
        | none =>
          .eff { m := some (m, maskOf ((outs.filter fun x => x.2.1).map fun x => x.1), false), flags := orFlags fl,
                 normalise := outs.any fun x => x.2.2.2 }

/-- `vsel` (R143); a poisoned mask operand poisons the result (R133). -/
def execVsel (g d a : BitVec 4) (b : VSrc) (m : BitVec 3) (s : State) : Outcome :=
  s.hold fun c =>
    c.bitForm g d ((c.vreg a).pois || (c.vsrc b).pois || (c.mreg m).pois) fun i =>
      if (c.mreg m).val.getLsbD i then lane (c.vreg a).val i else lane (c.vsrc b).val i

/-- `mlog` (R144). -/
def execMlog (g : BitVec 4) (d a b : BitVec 3) (o : MaskOp) (s : State) : Outcome :=
  s.hold fun c =>
    let x := c.mreg a
    let y := c.mreg b
    c.masked g fun act =>
      match o with
      | .and => maskForm d act (x.pois || y.pois) (x.val &&& y.val)
      | .or => maskForm d act (x.pois || y.pois) (x.val ||| y.val)
      | .xor => maskForm d act (x.pois || y.pois) (x.val ^^^ y.val)
      | .not => maskForm d act x.pois (~~~x.val)

/-- `mcnt`: lanes set in mA and active (R144). -/
def execMcnt (g d : BitVec 4) (a : BitVec 3) (s : State) : Outcome :=
  s.hold fun c =>
    c.masked g fun act => c.scalarForm d (c.mreg a).pois (BitVec.ofNat 64 (onesIn ((c.mreg a).val &&& act).toNat 16))

/-- `mset` (R144). -/
def execMset (g : BitVec 4) (d : BitVec 3) (a : BitVec 4) (s : State) : Outcome :=
  s.hold fun c => c.masked g fun act => maskForm d act (c.sreg a).pois ((c.sreg a).val.extractLsb' 0 16)

/-! ### Conversions (R145) -/

/-- The rounding of a conversion to integer. -/
def cvtRm (md : FMode) (rtz : Bool) : Rm := if rtz then .rtz else md.rm

def intLane (r : Int × BitVec 6 × Bool) : LaneOut := ⟨BitVec.ofInt 32 r.1, r.2.1, r.2.2⟩

/-- `vcvt.i32.f32`. -/
def execVcvtI32F32 (g d : BitVec 4) (a : VSrc) (r : Bool) (s : State) : Outcome :=
  s.hold fun c =>
    c.vecForm g d (c.vsrc a).pois fun i =>
      intLane (fp32.toInt c.mode (cvtRm c.mode r) (-(2 ^ 31)) (2 ^ 31 - 1) (lane (c.vsrc a).val i).toNat)

/-- `vcvt.n32.f32`. -/
def execVcvtN32F32 (g d : BitVec 4) (a : VSrc) (r : Bool) (s : State) : Outcome :=
  s.hold fun c =>
    c.vecForm g d (c.vsrc a).pois fun i =>
      intLane (fp32.toInt c.mode (cvtRm c.mode r) 0 (2 ^ 32 - 1) (lane (c.vsrc a).val i).toNat)

/-- `vcvt.f32.i32`. -/
def execVcvtF32I32 (g d : BitVec 4) (a : VSrc) (s : State) : Outcome :=
  s.hold fun c => c.vecForm g d (c.vsrc a).pois fun i => (fp32.ofInt c.mode (lane (c.vsrc a).val i).toInt).lane

/-- `vcvt.f32.n32`. -/
def execVcvtF32N32 (g d : BitVec 4) (a : VSrc) (s : State) : Outcome :=
  s.hold fun c => c.vecForm g d (c.vsrc a).pois fun i => (fp32.ofInt c.mode (lane (c.vsrc a).val i).toNat).lane

/-- vA to element 0 and vB to element 1 of each lane (R71). -/
def Ctx.narrow (c : Ctx) (g d a : BitVec 4) (b : VSrc) (f : Fmt) : VRes :=
  c.vecForm g d ((c.vreg a).pois || (c.vsrc b).pois) fun i =>
    halves (fp32.convert f c.mode (lane (c.vreg a).val i).toNat) (fp32.convert f c.mode (lane (c.vsrc b).val i).toNat)

/-- Element 0 of each lane to FP32 (R71). -/
def Ctx.widen (c : Ctx) (g d : BitVec 4) (a : VSrc) (f : Fmt) : VRes :=
  c.vecForm g d (c.vsrc a).pois fun i => (f.convert fp32 c.mode (half (lane (c.vsrc a).val i) 0)).lane

/-- `vcvt.f16.f32`. -/
def execVcvtF16F32 (g d a : BitVec 4) (b : VSrc) (s : State) : Outcome := s.hold fun c => c.narrow g d a b fp16

/-- `vcvt.bf16.f32`. -/
def execVcvtBf16F32 (g d a : BitVec 4) (b : VSrc) (s : State) : Outcome := s.hold fun c => c.narrow g d a b bf16

/-- `vcvt.f32.f16`. -/
def execVcvtF32F16 (g d : BitVec 4) (a : VSrc) (s : State) : Outcome := s.hold fun c => c.widen g d a fp16

/-- `vcvt.f32.bf16`. -/
def execVcvtF32Bf16 (g d : BitVec 4) (a : VSrc) (s : State) : Outcome := s.hold fun c => c.widen g d a bf16

/-- `vcvt.i32.i8`. -/
def execVcvtI32I8 (g d : BitVec 4) (a : VSrc) (s : State) : Outcome :=
  s.hold fun c => c.bits1 g d a fun x => (x.extractLsb' 0 8).signExtend 32

/-- `vcvt.i8.i32`: saturated to −128 … 127. -/
def execVcvtI8I32 (g d : BitVec 4) (a : VSrc) (s : State) : Outcome :=
  s.hold fun c => c.bits1 g d a fun x => BitVec.ofInt 32 (max (-128) (min 127 x.toInt))

/-! ### Special functions (R146) -/

/-- `vrcp.f32`: 1/a (R83, R146). -/
def execVrcp (g d : BitVec 4) (a : VSrc) (s : State) : Outcome :=
  s.hold fun c => c.fp1 g d a fp32.rcp

/-- `vrsqrt.f32`: 1/√a (R83, R146). -/
def execVrsqrt (g d : BitVec 4) (a : VSrc) (s : State) : Outcome :=
  s.hold fun c => c.fp1 g d a fp32.rsqrt

/-- `vsqrt.f32`: √a (R83, R146). -/
def execVsqrt (g d : BitVec 4) (a : VSrc) (s : State) : Outcome :=
  s.hold fun c => c.fp1 g d a fp32.sqrt

/-- `vexp2.f32`: 2^a (R83, R146). -/
def execVexp2 (g d : BitVec 4) (a : VSrc) (s : State) : Outcome :=
  s.hold fun c => c.fp1 g d a fp32.exp2

/-- `vlog2.f32`: log₂ a (R83, R146). -/
def execVlog2 (g d : BitVec 4) (a : VSrc) (s : State) : Outcome :=
  s.hold fun c => c.fp1 g d a fp32.log2v

/-- `vsinpi.f32`: sin(πa) (R83, R146). -/
def execVsinpi (g d : BitVec 4) (a : VSrc) (s : State) : Outcome :=
  s.hold fun c => c.fp1 g d a fp32.sinpi

/-- `vcospi.f32`: cos(πa) (R83, R146). -/
def execVcospi (g d : BitVec 4) (a : VSrc) (s : State) : Outcome :=
  s.hold fun c => c.fp1 g d a fp32.cospi

/-- `vdiv.f32` (R83, R146). -/
def execVdiv (g d a : BitVec 4) (b : VSrc) (s : State) : Outcome :=
  s.hold fun c => c.fp2 g d a b fp32.div

/-! ### Permutes and moves (R147, R148) -/

/-- `vperm`. -/
def execVperm (g d a : BitVec 4) (b : VSrc) (s : State) : Outcome :=
  s.hold fun c =>
    c.bitForm g d ((c.vreg a).pois || (c.vsrc b).pois) fun i =>
      lane (c.vreg a).val ((lane (c.vsrc b).val i).toNat % 16)

/-- `vrotl`. -/
def execVrotl (g d : BitVec 4) (a : VSrc) (n : BitVec 4) (s : State) : Outcome :=
  s.hold fun c => c.bitForm g d (c.vsrc a).pois fun i => lane (c.vsrc a).val ((i + n.toNat) % 16)

/-- `vbcastl`. -/
def execVbcastl (g d : BitVec 4) (a : VSrc) (n : BitVec 4) (s : State) : Outcome :=
  s.hold fun c => c.bitForm g d (c.vsrc a).pois fun _ => lane (c.vsrc a).val n.toNat

/-- `vmov`. -/
def execVmov (g d : BitVec 4) (a : VSrc) (s : State) : Outcome := s.hold fun c => c.bits1 g d a id

/-- `vbcast`. -/
def execVbcast (g d a : BitVec 4) (s : State) : Outcome :=
  s.hold fun c => c.bitForm g d (c.sreg a).pois fun _ => (c.sreg a).val.extractLsb' 0 32

/-- `vext`: nothing is written when lane n is inactive, whatever the poison of the source (log 73). -/
def execVext (g d a n : BitVec 4) (s : State) : Outcome :=
  s.hold fun c =>
    c.masked g fun act =>
      if act.getLsbD n.toNat then c.scalarForm d (c.vreg a).pois ((lane (c.vreg a).val n.toNat).signExtend 64)
      else .eff {}

/-- `vins`: nothing is written when lane n is inactive, whatever the poison of the source (log 73). -/
def execVins (g d a n : BitVec 4) (s : State) : Outcome :=
  s.hold fun c =>
    c.masked g fun act =>
      if act.getLsbD n.toNat then
        let old := c.vreg d
        let x := c.sreg a
        if x.pois || old.pois then .eff { v := [(d, 0, true)] }
        else
          .eff { v := [(d, pack16 fun i => if i = n.toNat then x.val.extractLsb' 0 32 else lane old.val i, false)] }
      else .eff {}

/-- `vlane`. -/
def execVlane (g d : BitVec 4) (s : State) : Outcome :=
  s.hold fun c => c.bitForm g d false fun i => BitVec.ofNat 32 i

/-! ### Reductions (R87, R149) -/

/-- One level of the pairwise tree over present and absent operands, with what its nodes raise. -/
def redLevel {α : Type} (node : α → α → α) : List (Option α) → List (Option α)
  | x :: y :: l =>
    (match x, y with
      | some u, some v => some (node u v)
      | some u, none => some u
      | none, y => y) :: redLevel node l
  | l => l

/-- The four levels over sixteen lanes. -/
def redTree {α : Type} (node : α → α → α) (l : List (Option α)) : Option α :=
  (redLevel node (redLevel node (redLevel node (redLevel node l)))).headD none

/-- A node on FP32 results: flags and requests add up. -/
def fpNode (f : Nat → Nat → FRes) (x y : FRes) : FRes :=
  let r := f x.bits y.bits
  ⟨r.bits, x.flags ||| y.flags ||| r.flags, x.norm || y.norm || r.norm⟩

/-- The request of a reduction with one active lane: no node works, and a subnormal passes unchanged (R87), under `daz` and
`ftz` too (log 72), so that neither removes it and it asks for the normaliser (R86). -/
def loneAsks (act : W16) (bits : Nat) : Bool := (activeLanes act).length == 1 && fp32.isSub bits

/-- An FP32 reduction; a trap names the active lanes. -/
def Ctx.fpReduce (c : Ctx) (g d a : BitVec 4) (f : FMode → Nat → Nat → FRes) : VRes :=
  c.masked g fun act =>
    if (c.vreg a).pois then .eff { s := some (d, 0, true) }
    else
      let ls := (List.range 16).map fun i =>
        if act.getLsbD i then some (⟨(lane (c.vreg a).val i).toNat, 0, false⟩ : FRes) else none
      let r := (redTree (fpNode (f c.mode)) ls).getD ⟨0, 0, false⟩
      match fpTrap c.fmode [(0, r.flags)] with
      | some (code, _) => .trap code (act.setWidth 64)
      | none => .eff { s := some (d, BitVec.ofNat 72 r.bits, false), flags := r.flags,
                       normalise := r.norm || loneAsks act r.bits }

/-- `vredadd.f32`. -/
def execVredaddF32 (g d a : BitVec 4) (s : State) : Outcome := s.hold fun c => c.fpReduce g d a fp32.add

/-- `vredmin.f32`. -/
def execVredminF32 (g d a : BitVec 4) (s : State) : Outcome :=
  s.hold fun c => c.fpReduce g d a fun md => fp32.minMax md false

/-- `vredmax.f32`. -/
def execVredmaxF32 (g d a : BitVec 4) (s : State) : Outcome :=
  s.hold fun c => c.fpReduce g d a fun md => fp32.minMax md true

/-- `vredadd.i32`. -/
def execVredaddI32 (g d a : BitVec 4) (s : State) : Outcome :=
  s.hold fun c =>
    c.masked g fun act =>
      let ls := (List.range 16).map fun i => if act.getLsbD i then some (lane (c.vreg a).val i) else none
      c.scalarForm d (c.vreg a).pois (((redTree (fun x y => x + y) ls).getD 0).signExtend 64)

/-! ### Top-k (R155) -/

/-- Magnitude: bits [30:0]. -/
def magnitude (x : W32) : Nat := x.toNat % 2 ^ 31

/-- How many active lanes rank before lane i. -/
def rankOf (act : W16) (v : W512) (i : Nat) : Nat :=
  ((activeLanes act).filter fun j =>
    magnitude (lane v i) < magnitude (lane v j) || (magnitude (lane v j) == magnitude (lane v i) && j < i)).length

/-- `vtopk`, with k − 1 in the field. -/
def execVtopk (g d a b k : BitVec 4) (s : State) : Outcome :=
  s.hold fun c =>
    let act := (c.maskGuard g).val
    c.bitForm g d ((c.vreg a).pois || (c.vreg b).pois) fun i =>
      if rankOf act (c.vreg a).val i < k.toNat + 1 then lane (c.vreg a).val i else lane (c.vreg b).val i

/-! ### Constant-bank and float-immediate forms (R156, R157) -/

/-- A VK form of the thread in hand: away from its origin core it traps with 0x26 (R186). -/
def State.bankForm (s : State) (k : BitVec 8) (f : Ctx → Nat → Bool → VRes) : Outcome :=
  let key := bankKey (combOf s.sel.1) (4 * k.toNat)
  s.hold fun c =>
    if awayAt s.sel.1 c then .trap 0x26 (BitVec.ofNat 64 (4 * k.toNat)) else f c (s.rd key 4) (s.mem.poisoned key 4)

/-- `vfmak`: d × a + kb. -/
def execVfmak (g d a : BitVec 4) (k : BitVec 8) (s : State) : Outcome :=
  s.bankForm k fun c kb p =>
    c.vecForm g d (p || (c.vreg a).pois || (c.vreg d).pois) fun i =>
      (fp32.fma c.mode false false (lane (c.vreg d).val i).toNat (lane (c.vreg a).val i).toNat kb).lane

/-- `vaddk`: a + kb. -/
def execVaddk (g d a : BitVec 4) (k : BitVec 8) (s : State) : Outcome :=
  s.bankForm k fun c kb p =>
    c.vecForm g d (p || (c.vreg a).pois) fun i => (fp32.add c.mode (lane (c.vreg a).val i).toNat kb).lane

/-- `vmulk`: a × kb. -/
def execVmulk (g d a : BitVec 4) (k : BitVec 8) (s : State) : Outcome :=
  s.bankForm k fun c kb p =>
    c.vecForm g d (p || (c.vreg a).pois) fun i => (fp32.mul c.mode (lane (c.vreg a).val i).toNat kb).lane

/-- The FP32 immediate of a VF word (R56). -/
def vfImm (i : BitVec 20) : W32 := i ++ (0 : BitVec 12)

/-- `vaddi`. -/
def execVaddi (d a : BitVec 4) (i : BitVec 20) (s : State) : Outcome :=
  s.hold fun c => c.fp2 0 d a (.lit (vfImm i)) fp32.add

/-- `vmuli`. -/
def execVmuli (d a : BitVec 4) (i : BitVec 20) (s : State) : Outcome :=
  s.hold fun c => c.fp2 0 d a (.lit (vfImm i)) fp32.mul

/-- `vfmai`: d × a + imm. -/
def execVfmai (d a : BitVec 4) (i : BitVec 20) (s : State) : Outcome :=
  s.hold fun c => c.fp3 0 d d a (.lit (vfImm i)) fun md => fp32.fma md false false

/-- `vmovi`. -/
def execVmovi (d : BitVec 4) (i : BitVec 20) (s : State) : Outcome :=
  s.hold fun c => c.bitForm 0 d false fun _ => vfImm i

/-- `vnop` (R158). -/
def execVnop (s : State) : Outcome := s.hold fun _ => .eff {}

end Sys2Proof.Machine
end

