-- ==== Sys2Proof/Machine/Bfp.lean ====
section
/-! DEFINITION. Block floating point (spec/04_numbers.md R88-R90) and the VBFP forms (spec/06_vector.md R150-R154). -/

namespace Sys2Proof.Machine

/-- A header is malformed when bits [11:0] are not zero or bits [15:12] hold 15 (R88). -/
def badHeader (h : W32) : Bool := h.extractLsb' 0 12 != 0 || h.extractLsb' 12 4 == 15

/-- A block's words by number. -/
abbrev Block := Nat → W32

/-- m of a block. -/
def blockM (b : Block) : Nat := ((b 0).extractLsb' 12 4).toNat + 1

/-- The scale that element j selects. -/
def blockE (b : Block) (j : Nat) : Nat := (if (b 1).getLsbD j then (b 0).extractLsb' 24 8 else (b 0).extractLsb' 16 8).toNat

/-- The magnitude of element j in its top d planes (R88, R89). -/
def blockMag (b : Block) (j : Nat) : Nat → Nat
  | 0 => 0
  | d + 1 => 2 * blockMag b j d + (if (b (3 + d)).getLsbD j then 1 else 0)

def blockSign (b : Block) (j : Nat) : Bool := (b 2).getLsbD j

/-- The value of element j read at declared precision d (R89). -/
def blockVal (b : Block) (d j : Nat) : FVal :=
  let e := blockE b j
  if e = 255 then (if blockMag b j (blockM b) = 0 then .inf (blockSign b j) else .nan false 0)
  else .num (blockSign b j) (blockMag b j d) (e - 127 - (d - 1 : Nat))

/-- A value to pack and its element exponent e(x) (R90 step 1, R94). -/
structure PackIn where
  val : FVal
  ex : Nat
deriving DecidableEq, Repr

/-- A finite value that is not zero. -/
def PackIn.finite (p : PackIn) : Bool :=
  match p.val with
  | .num _ m _ => m != 0
  | _ => false

/-- ±∞ or NaN. -/
def PackIn.special (p : PackIn) : Bool :=
  match p.val with
  | .num _ _ _ => false
  | _ => true

/-- RoundRNE(|x| × 2^(127 + (m − 1) − E)). -/
def scaledMag (v : FVal) (m e : Nat) : Nat :=
  match v with
  | .num _ n x =>
    let k : Int := x + 127 + (m - 1 : Nat) - e
    if 0 ≤ k then n * 2 ^ k.toNat else (roundInt .rne false n (-k).toNat false).1
  | _ => 0

/-- An element's selector, sign and magnitude. -/
structure Packed where
  sel : Bool
  sign : Bool
  mag : Nat
deriving DecidableEq, Repr

/-- E1 and E0 of a block (R90 steps 2 and 3). -/
def packScales (delta : Nat) (l : List PackIn) : Nat × Nat :=
  let top := ((l.filter PackIn.finite).map fun p => p.ex).foldl max 0
  if l.any PackIn.special then (255, top) else (top, top - delta)

/-- One element (R90 steps 2, 4, 5, 6). -/
def packOne (m e1 e0 : Nat) (p : PackIn) : Packed :=
  match p.val with
  | .nan _ _ => ⟨true, false, 1⟩
  | .inf s => ⟨true, s, 0⟩
  | .num s n _ =>
    if n = 0 then ⟨false, s, 0⟩
    else
      let m0 := scaledMag p.val m e0
      if m0 < 2 ^ m then ⟨false, s, m0⟩
      else if e1 = 255 then ⟨false, s, 2 ^ m - 1⟩
      else ⟨true, s, min (scaledMag p.val m e1) (2 ^ m - 1)⟩

/-- The header word. -/
def packHeader (m e1 e0 : Nat) : W32 := BitVec.ofNat 32 (e1 * 2 ^ 24 + e0 * 2 ^ 16 + (m - 1) * 2 ^ 12)

/-- A plane: bit j from element j. -/
def plane (f : Packed → Bool) (l : List Packed) : W32 :=
  BitVec.ofNat 32 (l.foldr (fun p a => 2 * a + (if f p then 1 else 0)) 0)

/-- PackBlock: the m + 3 words of a block (R90). -/
def packBlock (m delta : Nat) (l : List PackIn) : List W32 :=
  let e := packScales delta l
  let ps := l.map (packOne m e.1 e.2)
  packHeader m e.1 e.2 :: plane Packed.sel ps :: plane Packed.sign ps ::
    (List.range m).map fun q => plane (fun p => p.mag.testBit (m - 1 - q)) ps

/-- An FP32 word as PackBlock takes it; under `daz` a subnormal counts as zero. -/
def packFp32 (daz : Bool) (x : Nat) : PackIn :=
  ⟨if daz && fp32.isSub x then .num (x / 2 ^ 31 % 2 == 1) 0 0 else fp32.unpack x, max 1 (x / 2 ^ 23 % 256)⟩

/-- The 32 values of two vector registers. -/
def blockInputs (daz : Bool) (a b : W512) : List PackIn :=
  (List.range 32).map fun j => packFp32 daz (if j < 16 then lane a j else lane b (j - 16)).toNat

/-- `vbfpk`, with m − 1 in the field (R151). -/
def execVbfpk (d a m : BitVec 4) (s : State) : Outcome :=
  s.hold fun c =>
    let x := c.vreg a
    let y := c.vreg (a + 1)
    if x.pois || y.pois then .eff { v := [(d, 0, true)] }
    else
      let ws := packBlock (m.toNat + 1) c.delta.toNat (blockInputs c.mode.daz x.val y.val)
      .eff { v := [(d, pack16 fun i => ws.getD i 0, false)] }

/-- FP32 bits of an element, rounded RNE with subnormals kept (R152). -/
def elemFp32 (v : FVal) : W32 :=
  match v with
  | .nan _ _ => 0x7FC00000
  | v => BitVec.ofNat 32 (fp32.roundVal ⟨.rne, false, false⟩ v).bits

/-- Invalid raised in every lane, under R76. -/
def allLanesInvalid (c : Ctx) (e : VEff) : VRes :=
  match fpTrap c.fmode ((List.range 16).map fun i => (i, nvFlag)) with
  | some (code, val) => .trap code val
  | none => .eff { e with flags := nvFlag }

/-- `vbfunp`, with d − 1 in the field n (R152). -/
def execVbfunp (d a n : BitVec 4) (s : State) : Outcome :=
  s.hold fun c =>
    let x := c.vreg a
    let b : Block := lane x.val
    let dp := n.toNat + 1
    if x.pois then .eff { v := [(d, 0, true), (d + 1, 0, true)] }
    else if badHeader (b 0) || 13 < blockM b || blockM b < dp then
      allLanesInvalid c { v := [(d, splat 0x7FC00000, false), (d + 1, splat 0x7FC00000, false)] }
    else
      .eff { v := [(d, pack16 fun i => elemFp32 (blockVal b dp i), false),
                   (d + 1, pack16 fun i => elemFp32 (blockVal b dp (i + 16)), false)] }

/-- `vbfhdr`: the header that `vbfpk` would write (R153). -/
def execVbfhdr (d a m : BitVec 4) (s : State) : Outcome :=
  s.hold fun c =>
    let x := c.vreg a
    let y := c.vreg (a + 1)
    let e := packScales c.delta.toNat (blockInputs c.mode.daz x.val y.val)
    c.scalarForm d (x.pois || y.pois) ((packHeader (m.toNat + 1) e.1 e.2).setWidth 64)

/-- One scale of `vbfscale`: the new value and the flags (R154). -/
def scaleExp (t : Int) (e : Nat) : Nat × BitVec 6 :=
  if e = 255 then (255, 0)
  else if 254 < e + t then (254, ofFlag ||| nxFlag)
  else if e + t < 0 then (0, ufFlag ||| nxFlag)
  else ((e + t).toNat, 0)

/-- `vbfscale` (R154); what it raises counts as raised by lane 0. -/
def execVbfscale (d a b : BitVec 4) (s : State) : Outcome :=
  s.hold fun c =>
    let x := c.vreg a
    let t := ((c.sreg b).val.extractLsb' 0 8).toInt
    if x.pois || (c.sreg b).pois then .eff { v := [(d, 0, true)] }
    else
      let h := lane x.val 0
      let e1 := scaleExp t (h.extractLsb' 24 8).toNat
      let e0 := scaleExp t (h.extractLsb' 16 8).toNat
      let r : W32 × BitVec 6 :=
        if badHeader h then (h, nvFlag)
        else (BitVec.ofNat 8 e1.1 ++ BitVec.ofNat 8 e0.1 ++ h.extractLsb' 0 16, e1.2 ||| e0.2)
      match fpTrap c.fmode [(0, r.2)] with
      | some (code, val) => .trap code val
      | none => .eff { v := [(d, pack16 fun i => if i = 0 then r.1 else lane x.val i, false)], flags := r.2 }

end Sys2Proof.Machine
end

