-- ==== Sys2Proof/Machine/Paging.lean ====
section
/-! DEFINITION. Page walks, fault records, invalidation of translations, ephemeral deadlines and staging fills
(spec/10_page.md R227-R236, spec/23_extent.md R416). -/

namespace Sys2Proof.Machine

/-! ### Walks (R224, R227, R228) -/

/-- Threads of a hive that wait for the walk of a key: core, context, VA and the kinds of their accesses. -/
def State.walkWaiters (s : State) (h : Nat) (asid : W16) (page : W72) : List (Nat × Nat × W72 × Byte) :=
  s.cores.flatMap fun e => (List.range 8).filterMap fun x =>
    match (s.ctx e.1 x).wait with
    | .walk h' a va k =>
      if (s.ctx e.1 x).st = .parked ∧ h' = h ∧ a = asid ∧ pageKey va = page then some (e.1, x, va, k) else none
    | _ => none

/-- The threads that waited for a walk meet cause 0x20: each takes it when its bundle replays, or waits for the driver. -/
def State.walkFaults (s : State) (h : Nat) (asid : W16) (level : Nat) : List (Nat × Nat × W72 × Byte) → State
  | [] => s
  | (core, cx, va, k) :: l =>
    let r := s.fileFault h asid va 0x20 k level
    let s := r.2.modCtx core cx fun c =>
      match r.1 with
      | .now => { c with replay := some (0x20, lo64 va) }
      | .record n => { c with wait := .fault h n (lo64 va) }
      | .held => { c with wait := .faultSlot h }
    State.walkFaults s h asid level l

/-- A hive's engines hold a translation; a free choice may name one that they drop for it (log 13). -/
def State.engFill (s : State) (h : Nat) (e : TlbEnt) : State :=
  let p := s.pick ((s.hive h).etlb.length + 1)
  p.2.modHive h fun v => { v with etlb := e :: v.etlb.eraseIdx p.1 }

/-- PAGE_WALK: one of the first 64 walks of a hive is done, or the fill of a `prf` is served. -/
def execPageWalk (s : State) : Outcome :=
  match s.event with
  | .pageWalk h id =>
    match (s.hive h).prefetches.find? fun p => p.id == id with
    | some p => .next (s.prefetch h p)
    | none =>
    let ws := (s.hive h).walks
    match ws.findIdx? fun w => w.id == id with
    | none => .next s
    | some i =>
      match ws[i]? with
      | none => .next s
      | some w =>
        let root := s.rootFor w.ptroot (spaceOf w.page)
        if 64 ≤ i || s.walkWaits w.page root then .next (s.later (.pageWalk h id))
        else
          let who := s.walkWaiters h w.asid w.page
          let t := s.modHive h fun v => { v with walks := v.walks.eraseIdx i }
          -- an engine of the hive looks again when it hears that the walk has found no leaf
          let told := if w.engine then t.modHive h fun v => { v with misses := (w.asid, w.page) :: v.misses } else t
          match s.walkFrom w.page root 5 with
          | .noPhys => .fault .noSuchPhysical
          | .leaf level e =>
            let ent : TlbEnt := { asid := w.asid, space := spaceOf w.page, page := pageBase level (lo64 w.page),
                                  level := level, leaf := e }
            let t := if w.engine then t.engFill h ent else t
            .next ((w.core.toList ++ who.map (·.1)).eraseDups.foldl (fun s k => s.tlbFill k ent) t)
          | .invalid level => .next (told.walkFaults h w.asid level who)
          | .malformed =>
            .next (who.foldl (fun s x => s.modCtx x.1 x.2.1 fun c => { c with replay := some (0x30, lo64 x.2.2.1) }) told)
  | _ => .next s

/-! ### Answers of the driver (R229) -/

/-- The status word of a pending record of a hive's slot. -/
def State.faultStatus (s : State) (h slot : Nat) : Option (FaultRec × Nat) :=
  match (s.hive h).faults.find? fun f => f.num % 256 == slot with
  | none => none
  | some f => (s.faultSlot h f.num).map fun a => (f, s.rd (a + 0x18) 4)

def State.dropFault (s : State) (h num : Nat) : State :=
  s.modHive h fun v => { v with faults := v.faults.filter fun f => f.num != num }

/-- FAULT_RETRY: at status 1 the waiting accesses are tried again. -/
def execFaultRetry (s : State) : Outcome :=
  match s.event with
  | .faultRetry h slot =>
    match s.faultStatus h slot with
    | none => .next s
    | some (f, st) =>
      if st = 1 then .next (s.dropFault h f.num)
      else if st = 2 then .next s
      else .next (s.later (.faultRetry h slot))
  | _ => .next s

/-- FAULT_DECLINE: at status 2 each waiting thread takes the cause, and an engine's access to a structure of the device, of
whose page the record says that an engine faulted, is refused. -/
def execFaultDecline (s : State) : Outcome :=
  match s.event with
  | .faultDecline h slot =>
    match s.faultStatus h slot with
    | none => .next s
    | some (f, st) =>
      if st = 2 then
        let s := s.cores.foldl
          (fun s e => (List.range 8).foldl
            (fun s x =>
              match (s.ctx e.1 x).wait with
              | .fault h' n va =>
                if h' = h ∧ n = f.num then s.modCtx e.1 x fun c => { c with replay := some (f.cause, va) } else s
              | _ => s) s) s
        let engine := (s.faultSlot h f.num).any fun a => s.rd (a + 0x0A) 1 / 16 % 2 == 1
        let s := if engine && f.asid == 0 && 0x80 ≤ (spaceOf f.page).toNat then s.sysRefuse h f.page else s
        .next ({ s with declined := (h, f.num, f.cause, f.page) :: s.declined }.dropFault h f.num)
      else if st = 1 then .next s
      else .next (s.later (.faultDecline h slot))
  | _ => .next s

/-! ### `tlbinv` (R231, R232) -/

/-- A translation that a form drops: 0 of a page, 1 of an address space, 2 all. -/
def tlbCovers (form : Nat) (asid : W16) (va : W72) (a : W16) (glob : Bool) (sp : Byte) (page : W64) (level : Nat) : Bool :=
  let every := glob || 0x80 ≤ sp.toNat
  match form with
  | 0 => (every || a == asid) && sp == spaceOf va && pageBase level page == pageBase level (lo64 va)
  | 1 => !every && a == asid
  | _ => true

def TlbEnt.covered (t : TlbEnt) (form : Nat) (asid : W16) (va : W72) : Bool :=
  tlbCovers form asid va t.asid (leafBit t.leaf 16) t.space t.page t.level

def Loc.covered (l : Loc) (form : Nat) (asid : W16) (va : W72) : Bool :=
  l.win == .glob && tlbCovers form asid va l.asid (leafBit l.leaf 16) (spaceOf l.va) (lo64 l.va) l.level

/-- Drops translations from every TLB of both hives, and the walks in progress: who waits for one looks again (R231, R232). -/
def State.dropTlb (s : State) (form : Nat) (asid : W16) (va : W72) : State :=
  let keep (l : List TlbEnt) : List TlbEnt := l.filter fun t => !t.covered form asid va
  let hive (v : Hive) : Hive :=
    { v with etlb := keep v.etlb, walks := [], misses := [], prefetches := v.prefetches.map fun p => { p with walked := false } }
  { s with
    cores := s.cores.map fun e => (e.1, { e.2 with tlb := keep e.2.tlb }),
    combs := s.combs.map fun e => (e.1, { e.2 with tlb := keep e.2.tlb }),
    hive0 := hive s.hive0, hive1 := hive s.hive1 }

/-- No access numbered below a bound uses a dropped translation any more. -/
def State.tlbQuiet (s : State) (form below : Nat) (asid : W16) (va : W72) : Bool :=
  !(s.flights.any fun f => f.id < below && f.loc.covered form asid va) &&
    !(s.cores.any fun e => e.2.ctxs.toList.any fun c => (c.st == .parked && c.stage != .fresh &&
          c.wait != .tlbinv form below asid va && c.places.any fun l => l.covered form asid va) || c.recs.any fun r =>
        r.seq < below && !r.op.isRemote && r.locs.any fun l => l.covered form asid va)

def EphMap.covered (m : EphMap) (form : Nat) (asid : W16) (va : W72) : Bool :=
  tlbCovers form asid va m.asid m.every (spaceOf m.page) (lo64 m.page) 4

/-- A node's tree, of that many levels, holds an ephemeral leaf of a frame that not every asid has. -/
def State.treeMaps (s : State) (frame base : Nat) : Nat → Bool
  | 0 => false
  | fuel + 1 =>
    (List.range (if fuel = 4 then 128 else 4096)).any fun i =>
      let e := BitVec.ofNat 128 (s.rd (base + 16 * i) 16)
      leafBit e 0 && !s.malformedEntry e (4 - fuel) &&
        (if leafBit e 1 then leafKind e == 3 && leafFrame e == frame * 2 ^ 16 && !leafBit e 16
         else State.treeMaps s frame (leafFrame e) fuel)

/-- A form covers a VA page that is mapped to an ephemeral frame now (R231). -/
def State.mapsNow (s : State) (form : Nat) (asid : W16) (va : W72) (frame : Nat) : Bool :=
  match form with
  | 0 => (s.rootsFor asid va).any fun r =>
      match s.walkPage r va with
      | .leaf _ e => leafKind e == 3 && leafFrame e == frame * 2 ^ 16
      | _ => false
  | 1 => (s.rootsOf asid).any fun r => s.treeMaps frame (s.rootFor r 0) 5
  | _ => true

/-- The end of an invalidation for an ephemeral frame: an Expired page that it covers is Unwritten (R236), and a covered page
whose leaf has changed settles by the new one (R230); none: the frame holds nothing any more. -/
def State.settleEph (s : State) (form : Nat) (asid : W16) (va : W72) (frame : Nat) (e : EphPage) : Option EphPage :=
  let cov := e.maps.filter fun m => m.covered form asid va
  let old := cov.filter (·.stale)
  let e' := { e with maps := e.maps.filter fun m => !old.contains m }
  if (e.expired || e.deadline ≤ s.now) && (cov.any (fun m => !m.stale) || s.mapsNow form asid va frame) then none
  else if !old.isEmpty && e'.maps.isEmpty then none
  else some e'

/-- What an invalidation does to ephemeral pages when it completes: what a page held that is Unwritten again cannot be read by
any path (R236). -/
def State.rearm (s : State) (form : Nat) (asid : W16) (va : W72) : State :=
  let gone := s.ephem.filter fun e => (s.settleEph form asid va e.1 e.2).isNone
  (gone.flatMap (·.2.sectors)).foldl State.freshSector
    { s with ephem := s.ephem.filterMap fun e => (s.settleEph form asid va e.1 e.2).map fun p => (e.1, p) }

/-- The effect of every form of `tlbinv`. -/
def State.tlbinv (s : State) (form : Nat) (asid : W16) (va : W72) : Outcome :=
  match s.here.stage with
  | .acted _ => .next (s.rearm form asid va).finish
  | _ =>
    s.afterRelease true .sys fun s => s.commitTo fun s =>
      (s.dropTlb form asid va).parkStage (.acted 1) (.tlbinv form s.seq asid va)

/-- `tlbinv.page`. -/
def execTlbinvPage (g a b : BitVec 4) (s : State) : Outcome :=
  s.guarded g fun s =>
    let c := s.here
    if (c.sreg a).pois then .next (s.raise 0x10 (poisVal 0 a.toNat))
    else if (c.sreg b).pois then .next (s.raise 0x10 (poisVal 0 b.toNat))
    else s.tlbinv 0 ((c.sval64 b).extractLsb' 0 16) (c.sreg a).val
/-- `tlbinv.asid`. -/
def execTlbinvAsid (g b : BitVec 4) (s : State) : Outcome :=
  s.guarded g fun s =>
    let c := s.here
    if (c.sreg b).pois then .next (s.raise 0x10 (poisVal 0 b.toNat))
    else s.tlbinv 1 ((c.sval64 b).extractLsb' 0 16) 0
/-- `tlbinv.all`. -/
def execTlbinvAll (g : BitVec 4) (s : State) : Outcome := s.guarded g fun s => s.tlbinv 2 0 0

/-! ### Ephemeral pages and staging -/

/-- EPHEMERAL_EXPIRE: a page whose deadline has come is Expired in every TLB (R235). The spec gives each TLB 2,000 cycles, in
which a store still passes and is discarded at the home; it does not say that all TLBs hear of it at once, which is the model's
choice (log 81). -/
def execEphemeralExpire (s : State) : Outcome :=
  match s.event with
  | .ephemeralExpire frame =>
    match sget frame s.ephem with
    | some e =>
      .next (if e.deadline ≤ s.now then { s with ephem := sset frame { e with expired := true } s.ephem } else s)
    | none => .next s
  | _ => .next s

/-- The lines of a set of the staging cache, most recently used first. -/
def stagingSet (sets line : Nat) (l : List Nat) : List Nat := l.filter fun x => x % sets == line % sets

/-- STAGING_FILL: a line of 64 KiB is staged in place of the one of its set that was used least recently (R416). A fill of
a line whose extent is no longer Sealed installs nothing. -/
def execStagingFill (s : State) : Outcome :=
  match s.event with
  | .stagingFill line =>
    let h := stagingHive line
    if !(s.hive h).staging.contains line then .next s
    else
      let same := stagingSet s.stagingSets line (s.hive h).staged
      .next (s.modHive h fun v =>
        let kept := match decide (16 ≤ same.length), same.getLast? with
          | true, some y => v.staged.erase y
          | _, _ => v.staged
        { v with
          staging := v.staging.erase line,
          staged := if s.sealedAt (2 ^ 49 + line * 2 ^ 16) then line :: kept.erase line else v.staged })
  | _ => .next s

end Sys2Proof.Machine
end

