-- ==== Sys2Proof/Machine/Agent.lean ====
section
/-! DEFINITION. How the device's engines reach memory: translation under the root that a request carries, faults, reads and
writes (spec/10_page.md R223, R225, R228, R229, spec/11_memory_model.md R237, R248). -/

namespace Sys2Proof.Machine

/-- Under which translation an engine acts: the hive whose fault ring it uses, the root and asid for space bytes 0x00-0x7F,
user permissions, and the fault record that its access waits for. -/
structure Under where
  hive : Nat
  ptroot : W64
  asid : W16
  user : Bool
  stall : Option (Nat × Nat)
deriving DecidableEq, Repr

/-- What an engine's translation gives: a place, a wait (with the record that it waits for), or a cause. -/
inductive EngRes where
  | ok (l : Loc)
  | wait (stall : Option (Nat × Nat))
  | bad (cause : Byte)
deriving DecidableEq, Repr

/-- A replayable cause of an engine's access (R228). -/
def State.engineFault (s : State) (u : Under) (va : W72) (cause kinds : Byte) (level : Nat) : EngRes × State :=
  match s.fileFault u.hive u.asid va cause (kinds ||| 0x10) level with
  | (.now, s) => (.bad cause, s)
  | (.record n, s) => (.wait (some (u.hive, n)), s)
  | (.held, s) => (.wait none, s)

/-- An engine's miss: its walk is asked for, or has found no leaf, as the tables still say. -/
def State.engineMiss (s : State) (u : Under) (va : W72) (k : Use) : EngRes × State :=
  let key := (u.asid, pageKey va)
  let t := s.modHive u.hive fun v => { v with misses := v.misses.erase key }
  let ask (s : State) : EngRes × State := (.wait none, s.joinWalk u.hive none true u.ptroot u.asid va)
  if (s.hive u.hive).misses.contains key then
    match s.walkPage u.ptroot va with
    | .malformed => (.bad 0x30, t)
    | .invalid level => t.engineFault u va 0x20 (accessBits k.access) level
    | _ => ask t
  else ask s

/-- Translation of an engine's access: what its hive's engines hold, else a walk (R227). -/
def State.engineAddr (s : State) (u : Under) (va : W72) (k : Use) : EngRes × State :=
  let go : EngRes × State :=
    if 0xF0 ≤ (spaceOf va).toNat then (.bad 0x25, s)
    else
      match tlbFind (s.hive u.hive).etlb u.asid va with
      | none => s.engineMiss u va k
      | some t =>
        match denied u.user (spaceOf va) t.leaf k.access with
        | some cause => s.engineFault u va cause (accessBits k.access) t.level
        | none =>
          let l : Loc := ⟨.glob, leafAddr t.level t.leaf va, va, t.leaf, t.level, u.asid⟩
          match s.pageChecks l k with
          | (.ok l, s) => (.ok l, s)
          -- a write to an Expired page is discarded at its home (R235)
          | (.trap code _, s) => if code = 0x28 then (.ok l, s) else (.bad code, s)
          | (.park _, s) => (.wait none, s)
  match u.stall with
  | none => go
  | some (h, n) =>
    if (s.hive h).faults.any fun f => f.num == n then (.wait u.stall, s)
    else
      match s.declined.find? fun d => d.1 == h && d.2.1 == n && d.2.2.2 == pageKey va with
      | some d => (.bad d.2.2.1, s)
      | none => go

/-- An engine's read of bytes. -/
inductive EngVal where
  | val (x : Nat) (pois : Bool)
  | wait (stall : Option (Nat × Nat))
  | bad (cause : Byte)
deriving DecidableEq, Repr

/-- A read of up to 64 bytes by an engine; an acquire read waits where another agent's write marks the sector (R250). -/
def State.engineRead (s : State) (me : Agent) (u : Under) (va : W72) (n : Nat) (acq : Bool) : EngVal × State :=
  match s.engineAddr u va .load with
  | (.ok l, s) =>
    if s.stalled l || (acq && s.marked me l n) then (.wait none, s)
    else
      let r := s.readAt me l n
      (.val r.1 r.2.1, r.2.2)
  | (.wait st, s) => (.wait st, s)
  | (.bad c, s) => (.bad c, s)

/-- The hive of the streamer or the agent that serves an address: that of the home slice (R19, R237), where the tables name
one, else a hive that the model names (log 75). -/
def State.hiveAt (s : State) (ptroot : W64) (va : W72) (other : Nat) : Nat :=
  match s.walkPage ptroot va with
  | .leaf level e => s.homeOf (leafAddr level e va) / 1152
  | _ => other

/-- A read of n words of 8 bytes, each in a page of its own. -/
def State.engineWords (s : State) (me : Agent) (u : Under) (va : W72) : Nat → EngVal × State
  | 0 => (.val 0 false, s)
  | n + 1 =>
    match s.engineRead me u va 8 false with
    | (.val x p, s) =>
      match State.engineWords s me u (vaPlus va 2) n with
      | (.val y q, s) => (.val (x + 2 ^ 64 * y) (p || q), s)
      | r => r
    | r => r

/-- A read of n lines of 64 bytes, in order. -/
def State.engineLines (s : State) (me : Agent) (u : Under) (acq : Bool) (va : W72) : Nat → EngVal × State
  | 0 => (.val 0 false, s)
  | n + 1 =>
    match s.engineRead me u va 64 acq with
    | (.val x p, s) =>
      match State.engineLines s me u acq (vaPlus va 16) n with
      | (.val y q, s) => (.val (x + 2 ^ 512 * y) (p || q), s)
      | r => r
    | r => r

/-- n bytes from a byte on of a little-endian number. -/
def field (w off n : Nat) : Nat := w / 256 ^ off % 256 ^ n

/-- A 72-bit address or value in 9 bytes, the space byte last. -/
def field72 (w off : Nat) : W72 := BitVec.ofNat 72 (field w off 9)

/-- Every byte of a number below a length is zero but for those of the listed fields. -/
def onlyFields (w : Nat) (fs : List (Nat × Nat)) : Bool :=
  fs.foldl (fun w f => w - field w f.1 f.2 * 256 ^ f.1) w == 0

end Sys2Proof.Machine
end

