-- ==== Sys2Proof/Machine/Display.lean ====
section
/-! DEFINITION. The display outputs (spec/24_link.md R436-R443). -/

namespace Sys2Proof.Machine

/-- One of four outputs. -/
def State.out (s : State) (n : Nat) : Output := s.outs[n % 4]'(Nat.mod_lt _ (by decide))
def State.setOut (s : State) (n : Nat) (o : Output) : State := { s with outs := s.outs.set (n % 4) o (Nat.mod_lt _ (by decide)) }

/-- The address of an output's block. -/
def State.outVA (s : State) (n : Nat) : W64 := s.dtab + BitVec.ofNat 64 (128 * (n % 4))

/-- The place of an output's block; the display engine belongs to hive 1 (R10, R436). -/
def State.outBlock (s : State) (n : Nat) : Option Nat := s.sysAddr 1 (s.outVA n)

/-! ### Latching (R437-R439) -/

/-- The surface that a block describes, if its fields are well formed. -/
def State.readSurface (s : State) (a : Nat) : Option Surface :=
  let f (o n : Nat) : Nat := s.rd (a + o) n
  let x : Surface := { va := BitVec.ofNat 72 (f 0 9), format := BitVec.ofNat 8 (f 9 1), stride := BitVec.ofNat 32 (f 0xC 4),
                       width := BitVec.ofNat 16 (f 0x10 2), height := BitVec.ofNat 16 (f 0x12 2),
                       ptroot := BitVec.ofNat 64 (f 0x70 8), asid := BitVec.ofNat 16 (f 0x78 2) }
  if f 0 8 % 64 = 0 && f 8 1 ≤ 0xEF && f 9 1 ≤ 1 && f 0xA 2 = 0 && f 0xC 4 % 64 = 0 && 1 ≤ f 0x10 2 && f 0x10 2 ≤ 8192 &&
      1 ≤ f 0x12 2 && f 0x12 2 ≤ 8192 && f 0x14 4 = 0 && !s.mem.poisoned a 0x20 then some x else none

/-- The translation under which the display engine reads a surface: through hive 1's walkers and fault ring (R227, R228). -/
def Surface.under (x : Surface) (stall : Option (Nat × Nat)) : Under :=
  { hive := 1, ptroot := x.ptroot, asid := x.asid, user := false, stall := stall }

/-- The place of a surface that an output takes: while output 0 follows or releases, a frame on another page than a host-kind one
counts as malformed (R439). -/
def State.fitsOutput (s : State) (n : Nat) (x : Surface) : EngRes × State :=
  let st := (s.out n).st
  if n % 4 != 0 || (st != 1 && st != 3) then (.ok ⟨.glob, 0, x.va, 0, 4, 0⟩, s)
  else
    match s.engineAddr (x.under (s.out n).stall) x.va .load with
    | (.ok l, s) => (if leafKind l.leaf = 2 then .ok l else .bad 0x21, s)
    | r => r

/-- The pages of a surface are reached as it is scanned; what its pixels are, no state shows. -/
def State.scanPages (s : State) (u : Under) (va : W72) : Nat → State
  | 0 => s
  | n + 1 => State.scanPages (s.engineAddr u va .load).2 u (vaPlus va 16384) n

/-- The next frame of an output is scanned. -/
def State.scan (s : State) (n : Nat) : State :=
  match (s.out n).view, (s.out n).surf with
  | .black, _ | _, none => s
  | _, some x => s.scanPages (x.under none) x.va ((x.stride.toNat * x.height.toNat + 2 ^ 16 - 1) / 2 ^ 16)

/-- The H of the highest homography seq that has been read at L. -/
def State.readHomography (s : State) (a : Nat) (o : Output) : Output :=
  let seq := BitVec.ofNat 64 (s.rd (a + 0x48) 8)
  if o.hseq.any fun q => seq ≤ q then o
  else { o with hseq := some seq, h := Vector.ofFn fun i => BitVec.ofNat 32 (s.rd (a + 0x20 + 4 * i.val) 4) }

/-- FRAME_LATCH: at L an output takes a new frame, or the next frame re-projects the last one. -/
def execFrameLatch (s : State) : Outcome :=
  match s.event with
  | .frameLatch n =>
    s.withSys [(1, s.outVA n)] fun s => match s.outBlock n with
    | none => .next s
    | some a =>
      let l : Loc := { win := .glob, key := a, va := 0, leaf := 0 }
      if s.marked .display l 128 || s.stalled l then .next (s.later (.frameLatch n))
      else
        let o := s.readHomography a (s.out n)
        let seq := BitVec.ofNat 64 (s.rd (a + 0x18) 8)
        let view : View := if o.surf.isSome then .reproject o.h else .black
        let again (s : State) : Outcome := .next ((s.setOut n { o with view := view, stall := none }).scan n)
        if seq = o.latched then again s
        else
          match s.readSurface a with
          | none => again s
          | some x =>
            match s.fitsOutput n x with
            | (.wait st, s) => .next ((s.setOut n { s.out n with stall := st }).later (.frameLatch n))
            | (.bad _, s) => again s
            | (.ok _, s) =>
              let o := { o with surf := some x, view := .surface, latched := seq, stall := none }
              .next (((s.setOut n o).poke (a + 0x50) 8 seq.toNat).scan n)
  | _ => .next s

/-! ### Commands (R442, R443) -/

/-- Sets the state byte of output 0. -/
def State.setSurfaceState (s : State) (st : BitVec 2) : State :=
  let s := s.setOut 0 { s.out 0 with st := st }
  match s.outBlock 0 with
  | some a => s.poke (a + 0x60) 1 st.toNat
  | none => s

/-- The command byte is read and answered. -/
def State.command (s : State) (n a : Nat) : State :=
  let c := s.rd (a + 0x61) 1
  let o := s.out n
  let done (s : State) : State := s.poke (a + 0x61) 1 0
  if c = 0 then s
  else if n % 4 != 0 then s.poke (a + 0x61) 1 0xFF
  else if c = 1 && o.st = 0 then (done s).setOut n { o with want := true }
  else if c = 2 && o.st = 1 then { done s with mux := true }.setSurfaceState 2
  else if c = 3 && o.st = 2 then (done s).setSurfaceState 3
  else s.poke (a + 0x61) 1 0xFF

/-- VERTICAL_BLANK: an output starts a vertical blank: its count, its MSI-X message, its command. -/
def execVerticalBlank (s : State) : Outcome :=
  match s.event with
  | .verticalBlank n =>
    s.withSys [(1, s.outVA n), (1, s.outVA 0)] fun s =>
    let o := s.out n
    -- the command byte is read with an acquire: it waits where a write marks it or its home stalls (R250, R443)
    let waits (a : Nat) : Bool :=
      let l : Loc := { win := .glob, key := a + 0x60, va := 0, leaf := 0 }
      s.marked .display l 4 || s.stalled l
    if (s.outBlock n).any waits then .next (s.later (.verticalBlank n))
    else
    let s := s.setOut n { o with blanks := o.blanks + 1 }
    match s.outBlock n with
    | none => .next s
    | some a =>
      let s := s.poke (a + 0x58) 8 (o.blanks + 1).toNat
      let v := n % 4 + 1
      let s := if s.rd (a + 0x62) 1 % 2 = 1 then
          { s with msix := s.msix.set v (s.msix[v]'(by omega) + 1) (by omega) } else s
      .next (s.command n a)
  | _ => .next s

/-- GENLOCK_HELD: genlock has held for one full frame after command 1: output 0 follows. -/
def execGenlockHeld (s : State) : Outcome :=
  match s.event with
  | .genlockHeld =>
    let o := s.out 0
    s.withSys [(1, s.outVA 0)] fun s =>
      .next (if o.want && o.st = 0 then (s.setOut 0 { o with want := false }).setSurfaceState 1 else s)
  | _ => .next s

/-- LOCK_LOST: the sideband loses the integrated graphics' timing; in Driving the output keeps its own. -/
def execLockLost (s : State) : Outcome :=
  match s.event with
  | .lockLost => s.withSys [(1, s.outVA 0)] fun s => .next (if (s.out 0).st = 1 then s.setSurfaceState 0 else s)
  | _ => .next s

/-- MUX_RETURN: the mux switches back. -/
def execMuxReturn (s : State) : Outcome :=
  match s.event with
  | .muxReturn => s.withSys [(1, s.outVA 0)] fun s => .next (if (s.out 0).st = 3 then { s with mux := false }.setSurfaceState 0 else s)
  | _ => .next s

/-! ### Scan-out (R440) -/

/-- A row of H applied to a pixel centre, in FP32 with RNE; in which order the terms are summed, and whether a product is
rounded, is open (k). -/
def dotRow (k : Nat) (a b c x y : Nat) : Nat :=
  let md : FMode := { rm := .rne, daz := false, ftz := false }
  let add (p q : Nat) : Nat := (fp32.add md p q).bits
  let mul (p q : Nat) : Nat := (fp32.mul md p q).bits
  let fma (p q r : Nat) : Nat := (fp32.fma md false false p q r).bits
  match k % 4 with
  | 0 => add (add (mul a x) (mul b y)) c
  | 1 => add (mul a x) (add (mul b y) c)
  | 2 => fma a x (fma b y c)
  | _ => add (fma a x (mul b y)) c

/-- The source pixel of an output pixel under H, if it lies in a surface of a width and a height. -/
def sourcePixel (k : Nat) (h : Vector W32 9) (x y width height : Nat) : Option (Nat × Nat) :=
  let md : FMode := { rm := .rne, daz := false, ftz := false }
  let centre (n : Nat) : Nat := (fp32.roundVal md (.num false (2 * n + 1) (-1))).bits
  let row (i : Fin 3) : Nat :=
    dotRow k (h[3 * i.val]).toNat (h[3 * i.val + 1]).toNat (h[3 * i.val + 2]).toNat (centre x) (centre y)
  let w := row 2
  let nan (v : Nat) : Bool := match fp32.unpack v with | .nan _ _ => true | _ => false
  let u := (fp32.div md (row 0) w).bits
  let v := (fp32.div md (row 1) w).bits
  let floor (z : Nat) : Int := (fp32.toInt md .rdn (-(2 ^ 31)) (2 ^ 31 - 1) z).1
  if nan w || fp32.key w ≤ 0 || nan u || nan v then none
  else if 0 ≤ floor u && floor u < width && 0 ≤ floor v && floor v < height then some ((floor u).toNat, (floor v).toNat)
  else none

end Sys2Proof.Machine
end

