-- ==== Sys2Proof/Machine/Transfer.lean ====
section
/-! DEFINITION. Transfers and rings (spec/17_transfer.md). -/

namespace Sys2Proof.Machine

/-! ### Channels (R345, R346) -/

/-- One of the eight channels of a core. -/
def Core.chan (k : Core) (ch : BitVec 3) : Chan := k.chans[ch.toNat]'ch.isLt
def Core.setChan (k : Core) (ch : BitVec 3) (c : Chan) : Core := { k with chans := k.chans.set ch.toNat c ch.isLt }

/-- An id is below done-below. -/
def belowDone (done id : BitVec 48) : Bool := 1 ≤ (done - id).toNat && (done - id).toNat ≤ 2 ^ 47

/-- Done-below moves past a contiguous run of Done ids. -/
def Chan.advance (c : Chan) : Nat → Chan
  | 0 => c
  | fuel + 1 =>
    if c.finished.contains c.doneBelow then
      Chan.advance { c with doneBelow := c.doneBelow + 1, finished := c.finished.erase c.doneBelow } fuel
    else c

/-- An id is Done. -/
def Chan.finish (c : Chan) (id : BitVec 48) : Chan := { c with finished := id :: c.finished }.advance 65

/-- An error: cause is that of the first since the last clear. -/
def Chan.fail (c : Chan) (cause : Byte) : Chan :=
  if c.err then c else { c with err := true, cause := cause.extractLsb' 0 7 }

/-! ### Where a transfer's core stands: live, or in a comb image (R356) -/

def State.xferLive (s : State) (x : Xfer) : Bool := ((s.core x.core).chan x.ch).inst == x.inst

/-- The comb image that holds the channel of a transfer. -/
def State.xferImage (s : State) (x : Xfer) : Option (Nat × Image × Core) :=
  s.images.findSome? fun e =>
    match sget x.core e.2.cores with
    | some k => if (k.chan x.ch).inst == x.inst then some (e.1, e.2, k) else none
    | none => none

def State.modXferCore (s : State) (x : Xfer) (f : Core → Core) : State :=
  if s.xferLive x then s.modCore x.core f
  else
    match s.xferImage x with
    | some (key, img, k) => { s with images := sset key { img with cores := sset x.core (f k) img.cores } s.images }
    | none => s

/-- The issuing thread, while it is there. -/
def Core.modThread (k : Core) (cx : Nat) (gen : W16) (f : Ctx → Ctx) : Core :=
  let c := k.ctxs[cx % 8]'(Nat.mod_lt _ (by decide))
  if c.generation = gen then { k with ctxs := k.ctxs.set (cx % 8) (f c) (Nat.mod_lt _ (by decide)) } else k

def State.setXfer (s : State) (t : Nat) (x : Xfer) : State := { s with xfers := sset t x s.xfers }

/-! ### Rings (R357, R358) -/

/-- A ring-flag transfer into a ring of a core is not Done. -/
def State.ringBusy (s : State) (core h : Nat) : Bool :=
  s.xfers.any fun e => e.2.core == core && e.2.ring == some h && s.xferLive e.2

def Core.setRing (k : Core) (h : Nat) (r : Ring) : Core := { k with rings := sset h r k.rings }

/-- `tval` of ring misuse. -/
def ringVal (x : W64) (reason : Nat) : W64 := BitVec.ofNat 64 (x.toNat % 16 + 256 * reason)

/-- The Ready ring of the executing thread's group that a handle operand names. -/
def State.ringOf (s : State) (x : W64) : Option Ring :=
  if 16 ≤ x.toNat then none
  else
    match sget x.toNat (s.core s.sel.1).rings with
    | some r => if r.group = s.here.group then some r else none
    | none => none

/-! ### The XFER instructions (R347-R350) -/

/-- Spaces of a local operand. -/
def localSpace (sp : Nat) : Bool := 0xF0 ≤ sp && sp ≤ 0xF3

/-- The operands of a form: the addresses that are checked, with whether each is local; those of 72 bits. -/
structure XferOps where
  /-- the local operand; none for a ring handle and for `xcopy`, `xgetv` -/
  near : Option W72
  /-- the global operands -/
  far : List W72
  /-- bytes of the local range that are checked at issue -/
  span : Nat
deriving DecidableEq, Repr

/-- The checks of R348 after those on poison: the cause and its value. -/
def State.xferCheck (s : State) (kind : XferKind) (o : XferOps) (notice ring : Bool) (n : Nat) (h : W64) :
    Option (Byte × W64) :=
  let all := o.near.toList ++ o.far
  match all.find? fun va => 0xF5 ≤ (spaceOf va).toNat with
  | some va => some (0x25, lo64 va)
  | none =>
    let flags : Bool := match kind with
      | .get | .queue => true
      | .put | .copy | .tile => !ring
      | .getv => !ring && !notice
    let spaces := o.far.all (fun va => (spaceOf va).toNat < 0xF0) && (o.near.toList.all fun va => localSpace (spaceOf va).toNat)
    if !flags || !spaces then some (0x54, 1)
    else
      let sized : Bool := match kind with
        | .tile | .getv => true
        | _ => n != 0 && n ≤ 2 ^ 36 && n % 4 == 0
      let line : Bool := kind != .getv || o.far.all fun va => (lo64 va).toNat % 64 == 0
      if !sized || !(all.all fun va => (lo64 va).toNat % 4 == 0) || !line then some (0x54, 2)
      else
        let c := s.here
        let away := awayAt s.sel.1 c
        let out (va : W72) : Bool :=
          match s.window s.sel.1 c.launch c.group away va o.span true with
          | .ok _ => false
          | _ => true
        -- a thread away from its origin fails in every form; one without a local operand names its global one (log 57)
        let near : Option (Byte × W64) := (all.find? fun va => away || (o.near == some va && out va)).map fun va => (0x26, lo64 va)
        match near with
        | some e => some e
        | none =>
          if !ring then none
          else
            match s.ringOf h with
            | none => some (0x55, ringVal h 1)
            | some r => if 2 ^ r.lg < n then some (0x55, ringVal h 4) else none

/-- The first poisoned register among those that a form reads. -/
def Ctx.xferPoison (c : Ctx) (l : List (BitVec 4)) : Option (BitVec 4) := l.find? fun r => (c.sreg r).pois

/-- The place of a local operand. -/
def State.nearPlace (s : State) (o : XferOps) : Option Loc :=
  o.near.bind fun va =>
    let c := s.here
    match s.window s.sel.1 c.launch c.group (awayAt s.sel.1 c) va o.span true with
    | .ok l => some l
    | _ => none

/-- Bytes from a local address to the end of the range of a group in its window. -/
def Group.room (g : Group) (va : W72) : Nat :=
  let o := (lo64 va).toNat
  if spaceOf va = 0xF2 then (g.cbase + g.csize) * 65536 - o else (g.sbase + g.ssize) * 4096 - o % 2 ^ 18

/-- The effect of every form (R349). -/
def State.xferForm (s : State) (g d : BitVec 4) (reads : List (BitVec 4)) (kind : XferKind) (ops : Ctx → XferOps)
    (src dst : Ctx → W72) (len : Ctx → Nat) (notice ring : Bool) (h : BitVec 4) (v : BitVec 4) (ch : BitVec 3) : Outcome :=
  s.guarded g fun s =>
    let c := s.here
    match c.xferPoison reads with
    | some r => .next (s.raise 0x10 (poisVal 0 r.toNat))
    | none =>
      let o := ops c
      match s.xferCheck kind o notice ring (len c) (c.sval64 h) with
      | some (code, val) => .next (s.raise code val)
      | none =>
        s.afterRelease true .dev fun s =>
          let k := (s.core s.sel.1).chan ch
          if (k.next - k.doneBelow).toNat = 64 then .next (s.parkReplay (.xfer ch k.doneBelow))
          else s.commit fun s =>
            let core := s.sel.1
            let t := s.seq
            let rg := if ring then some ((c.sval64 h).toNat % 16) else none
            let x : Xfer :=
              { kind := kind, core := core, cx := s.sel.2, gen := c.generation, inst := k.inst, ch := ch, id := k.next,
                ptroot := c.ptroot, asid := c.asid, user := !c.priv, group := c.group, launch := c.launch, src := src c,
                dst := dst c, len := len c, place := s.nearPlace o, ring := rg, notice := notice, reg := v, record := t + 1,
                room := ((s.group c.group).map fun g => g.room (dst c)).getD 0 }
            let s := s.fresh.modCore core fun q => q.setChan ch { k with next := k.next + 1 }
            let s := s.modHere fun c => { c.result d (k.next.setWidth 64) false with xfers := c.xfers + 1 }
            let s := if kind = .getv then s.issueRec true v (.remote false) [] .rlx .comb else s
            (s.setXfer t x).later (.transferArrive t)

/-- sD[39:0]. -/
def Ctx.xferLen (c : Ctx) (d : BitVec 4) : Nat := ((c.sval64 d).extractLsb' 0 40).toNat
def Ctx.sfull (c : Ctx) (r : BitVec 4) : W72 := (c.sreg r).val

/-- `xget`: sA is a local destination, or a ring's handle under the ring flag. -/
def execXget (g d a b : BitVec 4) (n r : Bool) (ch : BitVec 3) (s : State) : Outcome :=
  s.xferForm g d [a, b, d] .get
    (fun c => { near := if r then none else some (c.sfull a), far := [c.sfull b], span := c.xferLen d })
    (·.sfull b) (·.sfull a) (·.xferLen d) n r a 0 ch
/-- `xput`. -/
def execXput (g d a b : BitVec 4) (n r : Bool) (ch : BitVec 3) (s : State) : Outcome :=
  s.xferForm g d [a, b, d] .put (fun c => { near := some (c.sfull b), far := [c.sfull a], span := c.xferLen d })
    (·.sfull b) (·.sfull a) (·.xferLen d) n r a 0 ch
/-- `xcopy`. -/
def execXcopy (g d a b : BitVec 4) (n r : Bool) (ch : BitVec 3) (s : State) : Outcome :=
  s.xferForm g d [a, b, d] .copy (fun c => { near := none, far := [c.sfull a, c.sfull b], span := 0 })
    (·.sfull b) (·.sfull a) (·.xferLen d) n r a 0 ch
/-- `xtile`: the issue check covers the first byte of the destination (R351). -/
def execXtile (g d a b : BitVec 4) (n r : Bool) (ch : BitVec 3) (s : State) : Outcome :=
  s.xferForm g d [a, b] .tile (fun c => { near := some (c.sfull a), far := [c.sfull b], span := 1 })
    (·.sfull b) (·.sfull a) (fun _ => 0) n r a 0 ch
/-- `xgetv`. -/
def execXgetv (g d a b : BitVec 4) (n r : Bool) (ch : BitVec 3) (s : State) : Outcome :=
  s.xferForm g d [b] .getv (fun c => { near := none, far := [c.sfull b], span := 0 })
    (·.sfull b) (fun _ => 0) (fun _ => 64) n r a a ch

/-! ### Tile copies (R351, R352) -/

/-- The request of a tile copy from its 64 bytes, and its clipped box; none where it breaks the limits. -/
def parseTile (w : Nat) : Option TileBox :=
  let size := 2 ^ field w 9 1
  let dims := field w 0xA 1
  let e (i : Nat) : Nat := field w (0xC + 2 * i) 2
  let t (i : Nat) : Nat := field w (0x14 + 4 * i) 4
  let o (i : Nat) : Int := (BitVec.ofNat 32 (field w (0x20 + 4 * i) 4)).toInt
  let base := field72 w 0
  let st (i : Nat) : W64 := BitVec.ofNat 64 (field w (0x30 + 8 * i) 8)
  let flat := dims = 2
  let ok (i : Nat) : Bool := 1 ≤ e i && 1 ≤ t i && t i < 2 ^ 31
  let good := onlyFields w [(0, 9), (9, 1), (0xA, 1), (0xC, 6), (0x14, 12), (0x20, 12), (0x30, 16)] &&
    (spaceOf base).toNat < 0xF0 && field w 9 1 ≤ 3 && (dims = 2 || dims = 3) && ok 0 && ok 1 &&
    (if flat then e 2 = 0 && t 2 = 0 && o 2 = 0 && st 1 = 0 else ok 2) &&
    (lo64 base).toNat % size = 0 && (st 0).toNat % size = 0 && (st 1).toNat % size = 0
  if !good then none
  else
    let e' (i : Nat) : Nat := if i = 2 && flat then 1 else e i
    let t' (i : Nat) : Nat := if i = 2 && flat then 1 else t i
    let lo (i : Nat) : Nat := min (e' i) (-(o i)).toNat
    let hi (i : Nat) : Nat := max (lo i) (min (e' i) (t' i - o i).toNat)
    let empty := lo 0 = hi 0 || lo 1 = hi 1 || lo 2 = hi 2
    let z (f : Nat → Nat) (i : Nat) : Nat := if empty then 0 else f i
    some { base := base, size := size, ext := #v[e' 0, e' 1, e' 2], org := #v[o 0, o 1, o 2], stride := #v[st 0, st 1],
           lo := #v[z lo 0, z lo 1, z lo 2], hi := #v[z hi 0, z hi 1, z hi 2] }

/-- Bytes of the box. -/
def TileBox.bytes (b : TileBox) : Nat := b.ext[0] * b.ext[1] * b.ext[2] * b.size

/-- The tensor address of a byte of the box; none outside the clipped box. -/
def TileBox.addr (b : TileBox) (byte : Nat) : Option W72 :=
  if b.bytes ≤ byte then none
  else
    let i := byte / b.size
    let x := i % b.ext[0]
    let y := i / b.ext[0] % b.ext[1]
    let z := i / b.ext[0] / b.ext[1]
    if b.lo[0] ≤ x && x < b.hi[0] && b.lo[1] ≤ y && y < b.hi[1] && b.lo[2] ≤ z && z < b.hi[2] then
      let off : Int := (b.org[0] + x) * b.size + (b.org[1] + y) * b.stride[0].toNat + (b.org[2] + z) * b.stride[1].toNat +
        (byte % b.size : Nat)
      some (mkVA (spaceOf b.base) (lo64 b.base + BitVec.ofInt 64 off))
    else none

/-! ### The streamers (R353, R354) -/

/-- The bytes between the aligned word that holds a transfer's first destination byte and that byte: only a COPY packet's
addresses (R305) and a ring's write offset (R359) need not lie at a word. -/
def Xfer.skew (x : Xfer) : Nat :=
  if x.kind = .queue then (lo64 x.dst).toNat % 4 else if x.rsize = 0 then 0 else x.off % 4

/-- The destination words that a transfer of its length writes, each whole (R354). -/
def Xfer.words (x : Xfer) : Nat := (x.len + x.skew + 3) / 4

/-- The bytes of the transfer that the k-th destination word takes: the place in the word, and the offset in the transfer. -/
def Xfer.bytesOf (x : Xfer) (k : Nat) : List (Nat × Nat) :=
  (List.range 4).filterMap fun i =>
    let o := 4 * k + i
    if x.skew ≤ o && o < x.len + x.skew then some (i, o - x.skew) else none

/-- An address some bytes on, as 64-bit arithmetic has it. -/
def bytePlus (va : W72) (n : Nat) : W72 := mkVA (spaceOf va) (lo64 va + BitVec.ofNat 64 n)

/-- An address of the global operand in a piece that holds the k-th destination word (R343); of a tile copy the tensor's. -/
def Xfer.globalVA (x : Xfer) (k : Nat) : W72 :=
  match x.kind, x.tile with
  | .put, _ => vaPlus x.dst k
  | .tile, some b => ((List.range 4).findSome? fun i => b.addr (4 * k + i)).getD x.src
  | _, _ => bytePlus x.src (4 * k - x.skew)

/-- The fault record that the k-th word waits for. -/
def Xfer.stallOf (x : Xfer) (k : Nat) : Option (Nat × Nat) := (x.stalls.find? fun e => e.1 == k).map (·.2)
def Xfer.setStall (x : Xfer) (k : Nat) (st : Option (Nat × Nat)) : Xfer :=
  { x with stalls := (st.toList.map fun r => (k, r)) ++ x.stalls.filter fun e => e.1 != k }

/-- The translation under which the streamer at an address acts, in the hive whose base die holds it (R237). -/
def State.streamUnder (s : State) (x : Xfer) (va : W72) (stall : Option (Nat × Nat)) : Under :=
  { hive := s.hiveAt x.ptroot va (hiveOf x.core), ptroot := x.ptroot, asid := x.asid, user := x.user, stall := stall }

/-- An error stops a transfer: what is written stays, and it is Done when its writes are acknowledged. -/
def State.stopXfer (s : State) (t : Nat) (x : Xfer) (cause : Byte) (va : W64) : State :=
  (s.setXfer t { x with left := [], stalls := [], st := .moving, failed := some (cause, va) }).later (.transferFinish t)

/-- The place of an address in space 0xF0 or 0xF2 for a core. -/
def localLoc (core : Nat) (va : W72) : Loc :=
  let o := (lo64 va).toNat
  if spaceOf va = 0xF2 then ⟨.combMem, combKey (combOf core) o, va, 0, 4, 0⟩ else ⟨.own, scratchKey core o, va, 0, 4, 0⟩

/-- The comb whose local memory holds a key. -/
def combOfKey (key : Nat) : Nat := if key < 2 ^ 53 then combOf ((key - 2 ^ 52) / 2 ^ 18) else (key - 2 ^ 53) / 2 ^ 24

/-- The group whose range holds a transfer's local operand is in a comb image: that of the issuer, or of its launch on the
twin core. -/
def State.rangeSaved (s : State) (x : Xfer) (l : Loc) : Bool :=
  s.images.any fun e => e.2.comb == combOfKey l.key && e.2.groups.any fun g =>
    if l.win == .twin then g.2.launch == x.launch && g.2.cores.getLsbD ((l.key - 2 ^ 52) / 2 ^ 18 % 16) &&
      g.2.inScratch (l.key % 2 ^ 18) 1
    else g.1 == x.group

/-- A transfer is suspended: into a comb that is being halted, or at a range that a comb image holds (R212, R356). -/
def State.suspended (s : State) (x : Xfer) : Bool :=
  match x.place with
  | none => false
  | some l => (x.kind != .put && s.halt.contains (combOfKey l.key)) || s.rangeSaved x l

/-- TRANSFER_ARRIVE: the first streamer accepts the request; a tile request is read, a ring transfer takes its place in the
ring's queue. -/
def execTransferArrive (s : State) : Outcome :=
  match s.event with
  | .transferArrive t =>
    match sget t s.xfers with
    | none => .next s
    | some x =>
      if x.st != .issued then .next s
      else
        match x.kind, x.ring with
        | .tile, _ =>
          if (lo64 x.src).toNat % 8 != 0 then .next (s.stopXfer t x 0x54 (lo64 x.src))
          else
            match s.engineWords (.streamer t) (s.streamUnder x x.src x.stall) x.src 8 with
            | (.wait st, s) => .next ((s.setXfer t { x with stall := st }).later (.transferArrive t))
            | (.bad c, s) => .next (s.stopXfer t x c (lo64 x.src))
            | (.val w pois, s) =>
              match if pois then none else parseTile w with
              | none => .next (s.stopXfer t x 0x54 (lo64 x.src))
              | some b =>
                if x.room < b.bytes then .next (s.stopXfer t x 0x54 (lo64 x.src))
                else .next ((s.setXfer t { x with st := .moving, stall := none, tile := some b,
                                                  left := [(0, (b.bytes + 3) / 4)] }).later (.streamerPiece t))
        | _, some h => .next ((s.setXfer t { x with st := .ring }).later (.ringReserve x.core h))
        | .getv, _ => .next ((s.setXfer t { x with st := .moving, left := [(0, 1)] }).later (.streamerPiece t))
        | _, _ => .next ((s.setXfer t { x with st := .moving, left := [(0, x.words)] }).later (.streamerPiece t))
  | _ => .next s

/-- RING_RESERVE: the oldest transfer in a ring's queue takes its bytes at the write offset once they are free (R361). Its
event comes again with a restored core. -/
def execRingReserve (s : State) : Outcome :=
  match s.event with
  | .ringReserve core h =>
    match s.xfers.find? fun e => e.2.st == .ring && e.2.core == core && e.2.ring == some h && s.xferLive e.2 with
    | none => .next s
    | some (t, x) =>
      -- after the slot of its core in this cycle, it comes before that in the next one (R360)
      if core < s.turn then .next (s.later (.ringReserve core h))
      else
      match sget h (s.core core).rings with
      | none => .next (s.stopXfer t x 0x55 (ringVal (BitVec.ofNat 64 h) 1))
      | some r =>
        if r.free < x.len || s.halts core then .next (s.later (.ringReserve core h))
        else
          let size := 2 ^ r.lg
          let s := s.modCore core fun k =>
            k.setRing h { r with free := r.free - x.len, reserved := r.reserved + x.len, wr := (r.wr + x.len) % size }
          let x := { x with st := .moving, off := r.wr, rsize := size, place := some (localLoc core r.base) }
          let s := (s.setXfer t { x with left := [(0, x.words)] }).later (.streamerPiece t)
          .next (if s.xfers.any fun e => e.2.st == .ring && e.2.core == core && e.2.ring == some h then
              s.later (.ringReserve core h) else s)
  | _ => .next s

/-- Words in a list of runs, whether one is among them, and the n-th of them. -/
def runLength (l : List (Nat × Nat)) : Nat := l.foldl (fun n r => n + (r.2 - r.1)) 0
def inRuns (l : List (Nat × Nat)) (k : Nat) : Bool := l.any fun r => r.1 ≤ k && k < r.2
def runAt : List (Nat × Nat) → Nat → Nat
  | [], _ => 0
  | (a, b) :: l, n => if n < b - a then a + n else runAt l (n - (b - a))
/-- The runs without a word. -/
def dropRun (l : List (Nat × Nat)) (k : Nat) : List (Nat × Nat) :=
  l.flatMap fun r =>
    if r.1 ≤ k && k < r.2 then (if r.1 < k then [(r.1, k)] else []) ++ (if k + 1 < r.2 then [(k + 1, r.2)] else []) else [r]

/-- What a streamer does for a word: the bytes it has read, with their place in the word and their poison, and whether a page
stores them 1:1 (cmpr = 0, R221). -/
inductive Piece where
  | data (l : List (Nat × Byte × Bool)) (raw : Bool)
  | wait (stall : Option (Nat × Nat))
  | bad (cause : Byte) (va : W64)
deriving DecidableEq, Repr

/-- The bytes of a value of four. -/
def wordBytes (w : Nat) (pois : Bool) : List (Nat × Byte × Bool) :=
  (List.range 4).map fun i => (i, BitVec.ofNat 8 (w / 256 ^ i), pois)

/-- The page of an address that an engine has just read has cmpr = 0. -/
def State.rawPage (s : State) (u : Under) (va : W72) : Bool :=
  (tlbFind (s.hive u.hive).etlb u.asid va).any fun t => !leafBit t.leaf 17

/-- Bytes of a word, each at an address of its own. -/
def State.byteReads (s : State) (me : Agent) (u : Under) : List (Nat × W72) → Piece × State
  | [] => (.data [] false, s)
  | (i, va) :: l =>
    match s.engineRead me u va 1 false with
    | (.val w pois, s) =>
      let raw := s.rawPage u va
      match State.byteReads s me u l with
      | (.data r raw', s) => (.data ((i, BitVec.ofNat 8 w, pois) :: r) (raw || raw'), s)
      | r => r
    | (.wait st, s) => (.wait st, s)
    | (.bad c, s) => (.bad c (lo64 va), s)

/-- Reads what the k-th destination word takes. -/
def State.pieceRead (s : State) (t : Nat) (x : Xfer) (k : Nat) : Piece × State :=
  let me : Agent := .streamer t
  let u := s.streamUnder x (x.globalVA k) (x.stallOf k)
  match x.kind, x.tile with
  | .tile, some b => s.byteReads me u ((List.range 4).filterMap fun i => (b.addr (4 * k + i)).map fun va => (i, va))
  | .put, _ =>
    match x.place with
    | some l =>
      let r := s.readAt me { l with key := l.key + 4 * k } 4
      (.data (wordBytes r.1 r.2.1) false, r.2.2)
    | none => (.data [] false, s)
  | _, _ =>
    let va := bytePlus x.src (4 * k - x.skew)
    if x.skew != 0 || (lo64 va).toNat % 4 != 0 then
      s.byteReads me u ((x.bytesOf k).map fun e => (e.1, bytePlus x.src e.2))
    else
      match s.engineRead me u va 4 false with
      | (.val w pois, s) => (.data (wordBytes w pois) (s.rawPage u va), s)
      | (.wait st, s) => (.wait st, s)
      | (.bad c, s) => (.bad c (lo64 va), s)

/-- The local place of a transfer's k-th word; a ring's words go on at its base (R359). -/
def Xfer.placeOf (x : Xfer) (l : Loc) (k : Nat) : Loc :=
  let off := if x.rsize = 0 then 4 * k else (x.off - x.skew + 4 * k) % x.rsize
  { l with key := l.key + off, va := bytePlus l.va off }

/-- The group that holds a transfer's local range has not ended. -/
def State.rangeHeld (s : State) (x : Xfer) (l : Loc) : Bool :=
  if l.win == .twin then s.groups.any fun g => g.2.launch == x.launch && g.2.comb == combOfKey l.key &&
    g.2.cores.getLsbD ((l.key - 2 ^ 52) / 2 ^ 18 % 16) && g.2.inScratch (l.key % 2 ^ 18) 1
  else (s.group x.group).isSome

/-- Writes the bytes of the k-th word at the destination; what a cancelled unit's transfer moves into a range that has been
returned is discarded (R271; log 89). -/
def State.pieceWrite (s : State) (t : Nat) (x : Xfer) (k : Nat) (l : List (Nat × Byte × Bool)) (raw : Bool) : Piece × State :=
  let send (s : State) (p : Loc) : Piece × State :=
    (.data [] false, s.engineWrite (.streamer t) p 4 (l.map fun e => (p.key + e.1, e.2.1))
      ((l.filter fun e => e.2.2).map fun e => p.key + e.1) raw)
  if l = [] then (.data [] false, s)
  else
    match x.kind, x.place with
    | .put, _ | .copy, _ | .queue, _ =>
      let va := mkVA (spaceOf x.dst) (lo64 x.dst - BitVec.ofNat 64 x.skew + BitVec.ofNat 64 (4 * k))
      match s.engineAddr (s.streamUnder x (x.globalVA k) (x.stallOf k)) va .store with
      | (.ok p, s) => send s p
      | (.wait st, s) => (.wait st, s)
      | (.bad c, s) => (.bad c (lo64 va), s)
    | _, none => (.data [] false, s)
    | _, some l =>
      let p := x.placeOf l k
      if !s.rangeHeld x l then (.data [] false, s) else
      match p.win, s.group x.group with
      | .combMem, some g =>
        if s.reserve g (p.key - combKey g.comb 0) then send s p else (.bad 0x2C (lo64 p.va), s)
      | _, _ => send s p

/-- A word of a destination line of 64 bytes of which other words have been moved: a suspended transfer moves it yet, and so
stops at a boundary of 64 bytes (R356). -/
def Xfer.lineOpen (x : Xfer) (l : Loc) (k : Nat) : Bool :=
  let line (j : Nat) : Nat := (x.placeOf l j).key / 64
  let total := match x.tile with
    | some b => (b.bytes + 3) / 4
    | none => x.words
  (List.range 31).any fun i => 15 ≤ k + i && k + i - 15 < total && line (k + i - 15) == line k && !inRuns x.left (k + i - 15)

/-- The words that a transfer may move now, as runs. -/
def State.movable (s : State) (x : Xfer) : List (Nat × Nat) :=
  match x.place with
  | some l =>
    if !s.suspended x then x.left
    else if x.kind = .put || s.rangeSaved x l then []
    else x.left.flatMap fun r =>
      -- only words near an end of a run have a neighbour that has been moved
      let n := r.2 - r.1
      let near := (List.range (min n 15)).map (r.1 + ·) ++ (List.range (min (n - 15) 15)).map fun i => r.2 - 1 - i
      (near.filter fun k => x.lineOpen l k).map fun k => (k, k + 1)
  | none => x.left

/-- The 64 bytes of `xgetv` are read; the fill comes with the end of the transfer. -/
def State.pieceVector (s : State) (t : Nat) (x : Xfer) : Outcome :=
  match s.engineRead (.streamer t) (s.streamUnder x x.src (x.stallOf 0)) x.src 64 false with
  | (.wait st, s) => .next ((s.setXfer t (x.setStall 0 st)).later (.streamerPiece t))
  | (.bad c, s) => .next (s.stopXfer t { x with stall := x.stallOf 0 } c (lo64 x.src))
  | (.val w pois, s) =>
    .next ((s.setXfer t { x with left := [], stalls := [], vec := some (BitVec.ofNat 512 w, pois) }).later (.transferFinish t))

/-- STREAMER_PIECE: a word of a transfer, one that a free choice names, is read and written. While the range is in a comb image
nothing happens; the restore brings the event again. -/
def execStreamerPiece (s : State) : Outcome :=
  match s.event with
  | .streamerPiece t =>
    match sget t s.xfers with
    | none => .next s
    | some x =>
      let can := s.movable x
      if x.st != .moving || x.failed.isSome || x.place.any (s.rangeSaved x) then .next s
      else if runLength x.left = 0 then .next (s.later (.transferFinish t))
      else if runLength can = 0 then .next (s.later (.streamerPiece t))
      else if x.kind = .getv then s.pieceVector t x
      else
        let p := s.pick (runLength can)
        let k := runAt can p.1
        let again (s : State) (st : Option (Nat × Nat)) : Outcome :=
          .next ((s.setXfer t (x.setStall k st)).later (.streamerPiece t))
        let stop (s : State) (c : Byte) (va : W64) : Outcome := .next (s.stopXfer t { x with stall := x.stallOf k } c va)
        match p.2.pieceRead t x k with
        | (.wait st, s) => again s st
        | (.bad c va, s) => stop s c va
        | (.data l raw, s) =>
          match s.pieceWrite t x k l raw with
          | (.wait st, s) => again s st
          | (.bad c va, s) => stop s c va
          | (.data _ _, s) =>
            .next ((s.setXfer t { x.setStall k none with left := dropRun x.left k }).later (.streamerPiece t))
  | _ => .next s

/-- Word 0 of a transfer's mailbox entry. -/
def Xfer.word0 (x : Xfer) (kind : Nat) : W64 :=
  BitVec.ofNat 64 (kind + x.cx * 2 ^ 8 + x.ch.toNat * 2 ^ 11 + x.id.toNat * 2 ^ 16)

/-- The clip notice (R352). -/
def Xfer.clip (x : Xfer) (b : TileBox) : MailEntry :=
  #v[x.word0 1, BitVec.ofNat 64 (b.lo[0] + b.hi[0] * 2 ^ 16 + b.lo[1] * 2 ^ 32 + b.hi[1] * 2 ^ 48),
     BitVec.ofNat 64 (b.lo[2] + b.hi[2] * 2 ^ 16), 0]

/-- The fill of an `xgetv`. -/
def Xfer.fillTag (x : Xfer) : FillTag := { core := x.core, cx := x.cx, isV := true, reg := x.reg, gen := x.gen, seq := x.record }

/-- The end of a transfer on its channel: its notice, the fill of an `xgetv`, its channel, its thread, its ring. -/
def State.doneXfer (s : State) (t : Nat) (x : Xfer) : State :=
  let s := { s with xfers := sdel t s.xfers }
  let s := if x.kind != .getv then s
    else
      match x.failed, x.vec with
      | none, some (w, pois) => s.remoteFill x.fillTag w pois
      | _, _ => s.remoteFill x.fillTag 0 true
  s.modXferCore x fun k =>
    let k := match x.failed, x.tile with
      | some (cause, va), _ => k.post #v[x.word0 3, cause.setWidth 64, va, 0]
      | none, some b => k.post (x.clip b)
      | none, none => if x.notice then k.post #v[x.word0 1, 0, 0, 0] else k
    let c := k.chan x.ch
    let c := match x.failed with | some (cause, _) => c.fail cause | none => c
    let k := k.setChan x.ch (c.finish x.id)
    let k := k.modThread x.cx x.gen fun c =>
      { c with
        xfers := c.xfers - 1,
        asyncs := match x.failed with
          | some (0x54, va) => c.asyncs ++ [(0x54, va)]
          | _ => c.asyncs }
    match x.failed, x.ring with
    | none, some h =>
      match sget h k.rings with
      | some r => if r.group = x.group then k.setRing h { r with reserved := r.reserved - x.len, filled := r.filled + x.len } else k
      | none => k
    | _, _ => k

/-- The end of a COPY packet: its counter, or a fault notice (R307). -/
def State.doneCopy (s : State) (t : Nat) (x : Xfer) : Outcome :=
  let gone (s : State) : State := { s with xfers := sdel t s.xfers }
  match x.failed with
  | some (cause, _) =>
    let slot := match x.stall with | some (h, n) => n % 256 + h * 256 | none => 0
    .next ((gone s).notify { kind := 1, cause := cause, source := BitVec.ofNat 16 (x.q / 32 * 1152), a := BitVec.ofNat 64 slot })
  | none =>
    if x.ctr = 0 then .next (gone s)
    else
      match s.engineAddr { s.streamUnder x x.ctr x.stall with hive := x.q / 32 } x.ctr .red with
      | (.wait st, s) => .next ((s.setXfer t { x with stall := st }).later (.transferFinish t))
      | (.bad c, s) => .next (s.stopXfer t x c (lo64 x.ctr))
      | (.ok l, s) =>
        if s.marked (.streamer t) l 8 || s.stalled l then .next (s.later (.transferFinish t))
        else
          let v := s.readAt (.streamer t) l 8
          .next (gone (if v.2.1 then v.2.2 else v.2.2.writeHome l 8 (cellsOf l.key ((v.1 + 1) % 2 ^ 64) 8) []))

/-- TRANSFER_FINISH: every write is acknowledged; the fill of an `xgetv` comes after those of earlier records (R163). -/
def execTransferFinish (s : State) : Outcome :=
  match s.event with
  | .transferFinish t =>
    match sget t s.xfers with
    | none => .next s
    | some x =>
      if x.st != .moving || runLength x.left != 0 then .next s
      -- a ring's update after the slot of its core in this cycle comes before that in the next one (R360)
      else if x.ring.isSome && x.core < s.turn then .next (s.later (.transferFinish t))
      else if s.flights.any fun f => f.by_ == .streamer t then .next (s.later (.transferFinish t))
      else if x.kind = .queue then s.doneCopy t x
      else if x.kind = .getv && s.fillWaits x.fillTag then .next (s.later (.transferFinish t))
      else .next (s.doneXfer t x)
  | _ => .next s

/-! ### Waiting and status (R355) -/

/-- `xdoneN`. -/
def Chan.xdone (c : Chan) : W64 := ((0 : BitVec 8) ++ c.cause) ++ BitVec.ofBool c.err ++ c.doneBelow

/-- `xwait`. -/
def execXwait (g d a : BitVec 4) (ch : BitVec 3) (s : State) : Outcome :=
  s.guarded g fun s =>
    let x := s.here.sreg a
    let k := (s.core s.sel.1).chan ch
    if x.pois then .next (s.raise 0x12 (poisVal 0 a.toNat))
    else if belowDone k.doneBelow (x.val.extractLsb' 0 48) then
      s.commit fun s => (s.modHere fun c => c.result d k.xdone false).acquire s.sel.1 .dev
    else .next (s.parkReplay (.xfer ch (x.val.extractLsb' 0 48)))

/-- `xstat`, `xstat.clr`. -/
def execXstat (g d : BitVec 4) (clr : Bool) (ch : BitVec 3) (s : State) : Outcome :=
  s.guarded g fun s => s.commit fun s =>
    let k := (s.core s.sel.1).chan ch
    let s := (s.modHere fun c => c.result d k.xdone false).acquire s.sel.1 .dev
    if clr then s.modCore s.sel.1 fun q => q.setChan ch { k with err := false, cause := 0 } else s

/-! ### The CB instructions (R359, R360) -/

/-- A Ready ring by its handle operand: poison 0x10, misuse 0x55 with reason 1. -/
def State.withRing (s : State) (a : BitVec 4) (k : Nat → Ring → Outcome) : Outcome :=
  let x := s.here.sreg a
  if x.pois then .next (s.raise 0x10 (poisVal 0 a.toNat))
  else
    match s.ringOf (lo64 x.val) with
    | none => .next (s.raise 0x55 (ringVal (lo64 x.val) 1))
    | some r => k (lo64 x.val).toNat r

/-- The count operand, whose poison has a cause. -/
def State.withCount (s : State) (b : BitVec 4) (code : Byte) (k : Nat → Outcome) : Outcome :=
  let x := s.here.sreg b
  if x.pois then .next (s.raise code (poisVal 0 b.toNat)) else k (x.val.extractLsb' 0 32).toNat

/-- Ring misuse. -/
def State.misuse (s : State) (h reason : Nat) : Outcome := .next (s.raise 0x55 (ringVal (BitVec.ofNat 64 h) reason))

/-- `cbinit`. -/
def execCbinit (g a b : BitVec 4) (n : BitVec 5) (s : State) : Outcome :=
  s.guarded g fun s =>
    let core := s.sel.1
    let c := s.here
    let x := c.sreg a
    let y := c.sreg b
    let h := (lo64 x.val).toNat
    let other : Bool := match sget h (s.core core).rings with | some r => r.group != c.group | none => false
    if x.pois then .next (s.raise 0x10 (poisVal 0 a.toNat))
    else if y.pois then .next (s.raise 0x11 (poisVal 0 b.toNat))
    else if 16 ≤ h || other then s.misuse h 1
    else if ((spaceOf y.val).toNat != 0xF0 && (spaceOf y.val).toNat != 0xF2) || (lo64 y.val).toNat % 2 ^ n.toNat != 0 then
      s.misuse h 5
    else if s.ringBusy core h then s.misuse h 6
    else
      match s.window core c.launch c.group (awayAt core c) y.val (2 ^ n.toNat) true with
      | .ok _ => s.commit fun s => s.modCore core fun k =>
          k.setRing h { base := y.val, lg := n.toNat, free := 2 ^ n.toNat, group := c.group }
      | _ => .next (s.raise 0x26 (lo64 y.val))

/-- `cbpush`: a release at comb scope. -/
def execCbpush (g d a b : BitVec 4) (s : State) : Outcome :=
  s.guarded g fun s => s.withRing a fun h r => s.withCount b 0x11 fun n =>
    if r.free < n then s.misuse h 2
    else if s.ringBusy s.sel.1 h then s.misuse h 6
    else
      s.afterRelease true .comb fun s => s.commit fun s =>
        let q := { r with filled := r.filled + n, free := r.free - n, wr := (r.wr + n) % 2 ^ r.lg }
        (s.modCore s.sel.1 fun k => k.setRing h q).modHere fun c => c.result d (BitVec.ofNat 64 q.free) false

/-- `cbpop`. -/
def execCbpop (g d a b : BitVec 4) (s : State) : Outcome :=
  s.guarded g fun s => s.withRing a fun h r => s.withCount b 0x11 fun n =>
    if r.filled < n then s.misuse h 3
    else s.commit fun s =>
      let q := { r with filled := r.filled - n, free := r.free + n, rd := (r.rd + n) % 2 ^ r.lg }
      (s.modCore s.sel.1 fun k => k.setRing h q).modHere fun c => c.result d (BitVec.ofNat 64 q.filled) false

/-- base + an offset, with the base's space byte. -/
def Ring.at_ (r : Ring) (o : Nat) : W72 := mkVA (spaceOf r.base) (lo64 r.base + BitVec.ofNat 64 o)

/-- `cbwait`: an acquire at comb scope. -/
def execCbwait (g d a b : BitVec 4) (s : State) : Outcome :=
  s.guarded g fun s => s.withRing a fun h r => s.withCount b 0x12 fun n =>
    if 2 ^ r.lg < n then s.misuse h 4
    else if r.filled < n then .next (s.parkReplay (.ringFilled h n))
    else s.commit fun s => (s.modHere fun c => c.setS d (r.at_ r.rd) false).acquire s.sel.1 .comb

/-- `cbspace`. -/
def execCbspace (g d a b : BitVec 4) (s : State) : Outcome :=
  s.guarded g fun s => s.withRing a fun h r => s.withCount b 0x12 fun n =>
    if 2 ^ r.lg < n then s.misuse h 4
    else if s.ringBusy s.sel.1 h then s.misuse h 6
    else if r.free < n then .next (s.parkReplay (.ringSpace h n))
    else s.commit fun s => s.modHere fun c => c.setS d (r.at_ r.wr) false

end Sys2Proof.Machine
end

