-- ==== Sys2Proof/Machine/Nectar.lean ====
section
/-! DEFINITION. Extents, the installer and the NECT instructions (spec/23_extent.md). -/

namespace Sys2Proof.Machine

/-! ### Descriptors (R412-R414) -/

def ExtState.code : ExtState → Nat
  | .blank => 0
  | .installing => 1
  | .sealed => 2
  | .superseded => 3
  | .retired => 4

/-- The address of a descriptor, which the installer reaches through the walkers of hive 0 (log 13). -/
def State.extVA (s : State) (i : Nat) : W64 := s.etab + BitVec.ofNat 64 (64 * i)

/-- The place of a descriptor. -/
def State.extAddr (s : State) (i : Nat) : Option Nat := s.sysAddr 0 (s.extVA i)

/-- The walk to a descriptor waits. -/
def State.extWaits (s : State) (i : Nat) : Bool := s.sysWaits 0 (s.extVA i)

/-- The extent of an index: the map's entry; where there is none, or a Retired one, a state byte of 0 makes the driver's
descriptor a Blank one (R413). -/
def State.extent (s : State) (i : Nat) : Extent :=
  let old : Extent := (sget i s.extents).getD { st := .retired, base := 0, len := 0 }
  if old.st != .retired then old
  else
    match s.extAddr i with
    | none => old
    | some a =>
      if s.rd (a + 0x10) 1 = 0 then
        { old with st := .blank, base := s.rd a 8, len := s.rd (a + 8) 8, asid := BitVec.ofNat 16 (s.rd (a + 0x12) 2) }
      else old

/-- The 64 bytes of a descriptor; the digest of an extent that is not Sealed is the last that the map has taken (log 33). -/
def Extent.bits (e : Extent) : Nat :=
  e.base + 2 ^ 64 * e.len + 2 ^ 128 * e.st.code + 2 ^ 136 * e.code.toNat + 2 ^ 144 * e.asid.toNat +
    2 ^ 160 * e.installs.toNat + 2 ^ 256 * e.digest.toNat

/-- The view in memory of a map's entry is written: what else a driver has stored there is overwritten (R413). -/
def State.showExtent (s : State) (i : Nat) (e : Extent) : State :=
  match s.extAddr i with
  | none => s
  | some a => s.poke a 64 e.bits

/-- The map takes an entry. -/
def State.setExtent (s : State) (i : Nat) (e : Extent) : State := { s with extents := sset i e s.extents }.showExtent i e

/-- A descriptor that keeps to R413. -/
def Extent.wellFormed (e : Extent) : Bool :=
  e.base % 2 ^ 24 == 0 && e.base < 2 ^ 41 && e.len % 2 ^ 16 == 0 && e.len != 0 && e.base + e.len ≤ 2 ^ 41

/-! ### Erase blocks (R411, R421) -/

/-- The physical id that holds a logical block. -/
def State.physOf (s : State) (b : Nat) : Nat := (sget b s.remaps).getD (b % 4 * 2 ^ 16 + b / 4)
def State.nblock (s : State) (p : Nat) : NBlock := (sget p s.nblocks).getD {}

/-- A physical block holds a logical one. -/
def State.holdsBlock (s : State) (p : Nat) : Bool :=
  let i := p % 2 ^ 16
  s.remaps.any (fun r => r.2 == p) || (i < 32768 && (sget (i * 4 + p / 2 ^ 16) s.remaps).isNone)

/-- The free spares of a stack, lowest first. -/
def State.spares (s : State) (stack : Nat) : List Nat :=
  ((List.range 983).map fun k => stack * 2 ^ 16 + 32768 + k).filter fun p =>
    !(s.nblock p).retired && !(s.remaps.any fun r => r.2 == p)

/-- The block that holds a logical block is retired, and the lowest free spare of its stack takes its place; none where
there is no spare. -/
def State.remap (s : State) (b : Nat) : Option State :=
  let p := s.physOf b
  let s := { s with nblocks := sset p { s.nblock p with retired := true } s.nblocks }
  match s.spares (b % 4) with
  | [] => none
  | q :: _ => some { s with remaps := sset b q s.remaps }

/-! ### The course of an install (R419, R420) -/

def Install.under (x : Install) : Under :=
  { hive := (match x.by_ with | .thread core _ => hiveOf core | .queue q _ _ _ => q / 32), ptroot := x.ptroot, asid := x.asid,
    user := x.user, stall := x.stall }

/-- The number above those of the extents under which a queue's finished install waits for its counter. -/
def State.counterWait (s : State) (x : Install) : State :=
  match x.by_ with
  | .queue _ ctr _ _ =>
    if ctr = 0 then s
    else
      let n := 4096 + s.seq
      { s.fresh with installs := sset n { x with stall := none } s.installs }.later (.installComplete n)
  | .thread _ _ => s

/-- Complete: the code and the state, the mailbox entry, the counter. -/
def State.endInstall (s : State) (i : Nat) (x : Install) (code : Byte) : State :=
  let e := s.extent i
  let e := { e with st := if code = 0 || code = 4 then .sealed else .blank, code := code }
  let s := { s with installs := sdel i s.installs }.setExtent i e
  let s := match x.by_, x.notice with
    | .thread core cx, true =>
      s.post core #v[BitVec.ofNat 64 (2 + cx * 2 ^ 8 + i * 2 ^ 11), code.setWidth 64, BitVec.ofNat 64 e.units, 0]
    | _, _ => s
  s.counterWait x

/-- A stack has no free spare: code 5, and the driver hears of it. -/
def State.noSpares (s : State) (i : Nat) (x : Install) (b : Nat) : State :=
  let stack := b % 4
  let s := { s with nblocks := sset (s.physOf b) { s.nblock (s.physOf b) with retired := true } s.nblocks }
  (s.endInstall i x 5).notify
    { kind := 2, cause := 0x74, source := BitVec.ofNat 16 (stack / 2 * 1152), a := BitVec.ofNat 64 stack }

def State.setInstall (s : State) (i : Nat) (x : Install) : State := { s with installs := sset i x s.installs }

/-- BLOCK_ERASE: a block of an extent is erased, in any order among the stacks. A worn block gives way before its erase, as does
one that has been retired for want of a spare; an erase fails as a free choice has it. -/
def execBlockErase (s : State) : Outcome :=
  match s.event with
  | .blockErase i =>
    s.withSys [(0, s.extVA i)] fun s => match sget i s.installs with
    | none => .next s
    | some x =>
      if x.cancelled then .next (s.endInstall i x 8)
      else
        let heads := x.erase.filter fun b => !(x.erase.any fun c => c % 4 == b % 4 && c < b)
        let p := s.pick heads.length
        match heads[p.1]? with
        | none => .next (s.later (.unitProgram i))
        | some b =>
          let s := p.2
          let go (s : State) (x : Install) : Outcome :=
            .next ((s.setInstall i x).later (if x.erase = [] then .unitProgram i else .blockErase i))
          let phys := s.physOf b
          let k := s.nblock phys
          if k.retired || 10000 ≤ k.count.toNat then
            match s.remap b with
            | none => .next (s.noSpares i x b)
            | some s => go s { x with remapped := true }
          else
            let s := { s with nblocks := sset phys { k with count := k.count + 1 } s.nblocks }
            let f := s.pick 2
            if f.1 = 0 then go f.2 { x with erase := x.erase.erase b }
            else
              match f.2.remap b with
              | none => .next (f.2.noSpares i x b)
              | some s => go s { x with erase := x.erase.erase b, remapped := true }
  | _ => .next s

/-- The pages of addresses are DRAM-kind or host-kind ones. -/
def State.sourceKinds (s : State) (u : Under) : List W72 → EngRes × State
  | [] => (.ok ⟨.glob, 0, 0, 0, 4, 0⟩, s)
  | va :: l =>
    match s.engineAddr u va .load with
    | (.ok p, s) => if leafKind p.leaf = 1 || leafKind p.leaf = 3 then (.bad 0x21, s) else State.sourceKinds s u l
    | r => r

/-- UNIT_PROGRAM: the next 64 KiB are read and programmed; a program fails as a free choice has it, and the block is then
remapped and programmed again. -/
def execUnitProgram (s : State) : Outcome :=
  match s.event with
  | .unitProgram i =>
    s.withSys [(0, s.extVA i)] fun s => match sget i s.installs with
    | none => .next s
    | some x =>
      let e := s.extent i
      let u := e.units
      if x.cancelled then .next (s.endInstall i x 8)
      else if e.len ≤ u * 2 ^ 16 then .next (s.later (.installComplete i))
      else
        let key := 2 ^ 49 + e.base + u * 2 ^ 16
        let put (s : State) (data : Nat) : Outcome :=
          let f := s.pick 2
          if f.1 = 1 then
            let b := (e.base + u * 2 ^ 16) / 2 ^ 24
            match f.2.remap b with
            | none => .next (f.2.noSpares i x b)
            | some s => .next ((s.setInstall i { x with remapped := true, stall := none }).later (.unitProgram i))
          else
            let cells := (cellsOf key data (2 ^ 16)).filter fun c => c.2 != 0
            let s : State := { f.2 with mem := (f.2.mem.clear key (2 ^ 16)).putAll cells }
            let s := { s with extents := sset i { e with units := u + 1 } s.extents }
            .next ((s.setInstall i { x with stall := none }).later
              (if e.len ≤ (u + 1) * 2 ^ 16 then .installComplete i else .unitProgram i))
        if x.count ≤ u * 2 ^ 16 then put s 0
        else
          let va := mkVA (spaceOf x.src) (lo64 x.src + BitVec.ofNat 64 (u * 2 ^ 16))
          -- a page of the source that is of another kind by now (R417; log 34)
          match s.sourceKinds x.under [va, vaPlus va 16368] with
          | (.wait st, s) => .next ((s.setInstall i { x with stall := st }).later (.unitProgram i))
          | (.bad _, s) => .next (s.endInstall i x 2)
          | (.ok _, s) =>
              match s.engineLines .installer x.under false va 1024 with
              | (.wait st, s) => .next ((s.setInstall i { x with stall := st }).later (.unitProgram i))
              | (.bad _, s) => .next (s.endInstall i x 2)
              | (.val w pois, s) => if pois then .next (s.endInstall i x 2) else put s w
  | _ => .next s

/-- Bytes of memory, in address order. -/
def Memory.bytes (m : Memory) (a n : Nat) : List Byte := (List.range n).map fun k => m.byte (a + k)

/-- Bytes as a little-endian number. -/
def ofBytes (l : List Byte) : Nat := l.foldr (fun b n => b.toNat + 256 * n) 0

/-- The counter of a queue's finished install (R418). -/
def State.installCounter (s : State) (n : Nat) (x : Install) (ctr : W72) : Outcome :=
  let gone (s : State) : State := { s with installs := sdel n s.installs }
  match s.engineAddr x.under ctr .red with
  | (.wait st, s) => .next ((s.setInstall n { x with stall := st }).later (.installComplete n))
  | (.bad _, s) => .next (gone s)
  | (.ok l, s) =>
    if s.marked .installer l 8 || s.stalled l then .next (s.later (.installComplete n))
    else
      let v := s.readAt .installer l 8
      .next (gone (if v.2.1 then v.2.2 else v.2.2.writeHome l 8 (cellsOf l.key ((v.1 + 1) % 2 ^ 64) 8) []))

/-- INSTALL_COMPLETE: the contents are read back, their digest is compared, and the extent is sealed. -/
def execInstallComplete (s : State) : Outcome :=
  match s.event with
  | .installComplete i =>
    s.withSys (if i < 4096 then [(0, s.extVA i)] else []) fun s => match sget i s.installs with
    | none => .next s
    | some x =>
      if 4096 ≤ i then
        match x.by_ with
        | .queue _ ctr _ _ => s.installCounter i x ctr
        | .thread _ _ => .next s
      else
        let e := s.extent i
        if x.cancelled then .next (s.endInstall i x 8)
        else if e.units * 2 ^ 16 < e.len then .next s
        else
          let f := s.pick 2
          let s := f.2
          let h := ofBytes (sha512 (s.mem.bytes (2 ^ 49 + e.base) e.len))
          let done (s : State) : Outcome :=
            let s : State := { s with extents := sset i { e with digest := BitVec.ofNat 256 h } s.extents }
            .next (s.endInstall i x (if x.remapped then 4 else 0))
          if f.1 = 1 then .next (s.endInstall i x 6)
          else if !x.compare then done s
          else
            match s.engineLines .installer x.under false x.digest 1 with
            | (.wait st, s) => .next ((s.setInstall i { x with stall := st }).later (.installComplete i))
            | (.bad _, s) => .next (s.endInstall i x 2)
            | (.val w pois, s) =>
              if pois then .next (s.endInstall i x 2) else if w = h then done s else .next (s.endInstall i x 6)
  | _ => .next s

/-- A read of an extent's range that a home has accepted is not complete: a load's, that of an S operation in hand, of a thread
in its context or in a comb image, or a sampler's. -/
def State.openReads (s : State) (e : Extent) : Bool :=
  let mine (l : Loc) : Bool := l.win == .glob && paTop l.key == 2 && e.covers (l.key % 2 ^ 48)
  let reads (c : Ctx) : Bool := (c.recs.any fun r => !r.op.isRemote && r.got.isNone && r.locs.any mine) ||
    (c.stage != .fresh && c.places.any mine)
  s.cores.any (fun k => k.2.ctxs.toList.any reads) || (s.images.any fun i => i.2.threads.any fun t => reads t.2.2) ||
    s.combs.any fun c => c.2.sampWait.any fun w => mine w.loc

/-- SUPERSEDE_DRAIN: once every accepted read is complete, the staging lines of the range are dropped, and the extent is
Retired. -/
def execSupersedeDrain (s : State) : Outcome :=
  match s.event with
  | .supersedeDrain i =>
    s.withSys [(0, s.extVA i)] fun s =>
    let e := s.extent i
    if e.st != .superseded then .next s
    else if s.openReads e then .next (s.later (.supersedeDrain i))
    else
      let keep (l : List Nat) : List Nat := l.filter fun line => !e.covers (line * 2 ^ 16)
      let s := (s.modHive 0 fun h => { h with staged := keep h.staged }).modHive 1 fun h => { h with staged := keep h.staged }
      .next (s.setExtent i { e with st := .retired })
  | _ => .next s

/-! ### Offers (R417, R420, R423) -/

/-- An install request as it is read: the index and the install, or none where a must-be-zero byte is not zero or the index
is out of range. -/
def parseInstall (w : Nat) (by_ : Starter) (ptroot : W64) (asid : W16) (user : Bool) : Option (Nat × Install) :=
  let flags := field w 2 1
  if !onlyFields w [(0, 2), (2, 1), (3, 1), (8, 8), (0x10, 8), (0x18, 8), (0x20, 1)] || 4 ≤ flags || 4096 ≤ field w 0 2 then none
  else
    some (field w 0 2,
      { by_ := by_, compare := flags % 2 == 1, notice := flags / 2 == 1,
        src := mkVA (BitVec.ofNat 8 (field w 3 1)) (BitVec.ofNat 64 (field w 8 8)), count := field w 0x10 8,
        digest := mkVA (BitVec.ofNat 8 (field w 0x20 1)) (BitVec.ofNat 64 (field w 0x18 8)), ptroot := ptroot, asid := asid,
        user := user, erase := [] })

/-- One of so many pages from an address on is, as the tables say, neither a DRAM-kind nor a host-kind one (R417; log 33). -/
def State.strangePage (s : State) (ptroot : W64) (va : W72) : Nat → Bool
  | 0 => false
  | n + 1 =>
    (match s.walkPage ptroot va with
     | .leaf _ e => leafKind e = 1 || leafKind e = 3
     | _ => false) || State.strangePage s ptroot (vaPlus va 16384) n

/-- The code that an offer is answered with, one of those that apply. -/
def State.offerCode (s : State) (i : Nat) (x : Install) : Byte × State :=
  let e := s.extent i
  let crosses (f : Extent) : Bool := f.st != .blank && f.st != .retired && e.base < f.base + f.len && f.base < e.base + e.len
  let busy : Bool := e.st != .blank || !e.wellFormed || s.extents.any fun f => f.1 != i && crosses f.2
  let skew : Bool := 0xF0 ≤ (spaceOf x.src).toNat || (lo64 x.src).toNat % 64 != 0 || x.count % 2 ^ 16 != 0 || x.count == 0 ||
    (lo64 x.digest).toNat % 64 != 0 ||
    s.strangePage x.ptroot (pageKey x.src) (((lo64 x.src).toNat % 2 ^ 16 + x.count + 2 ^ 16 - 1) / 2 ^ 16)
  let codes : List Byte :=
    (if e.st == .sealed then [9] else if busy then [3] else []) ++ (if e.len < x.count then [10] else []) ++
      (if skew then [11] else [])
  let p := s.pick codes.length
  match codes[p.1]? with
  | some c => (c, p.2)
  | none => (1, s)

/-- Byte 0x11 of a descriptor. -/
def State.lastCode (s : State) (i : Nat) : Byte :=
  match sget i s.extents, s.extAddr i with
  | some e, _ => e.code
  | none, some a => BitVec.ofNat 8 (s.rd (a + 0x11) 1)
  | none, none => 0

/-- An install is offered: code 1 where it is accepted. -/
def State.offerInstall (s : State) (i : Nat) (x : Install) : Byte × State :=
  match s.offerCode i x with
  | (1, s) =>
    let e := s.extent i
    let blocks := (List.range ((e.len + 2 ^ 24 - 1) / 2 ^ 24)).map fun k => e.base / 2 ^ 24 + k
    let s := s.setExtent i { e with st := .installing, code := s.lastCode i, installs := e.installs + 1, units := 0 }
    (1, (s.setInstall i { x with erase := blocks }).later (.blockErase i))
  | r => r

/-! ### The NECT instructions (R422-R426) -/

/-- Misuse of Nectar: cause 0x56 with its code. -/
def State.nectFault (s : State) (code : Nat) : Outcome := .next (s.raise 0x56 (BitVec.ofNat 64 code))

/-- `ninst`: the request is read at its home, and the installer answers. -/
def execNinst (g d a : BitVec 4) (s : State) : Outcome :=
  s.guarded g fun s =>
    match s.here.stage, s.here.places with
    | .acted 1, l :: _ =>
      s.atHome l 64 (.acted 1) fun s =>
        let r := s.readAt (.thread s.sel.1 s.sel.2) l 64
        let s := r.2.2
        let c := s.here
        match if r.2.1 then none else parseInstall r.1 (.thread s.sel.1 s.sel.2) c.ptroot c.asid (!c.priv) with
        | none => s.nectFault 1
        | some (i, x) =>
          if s.extWaits i then .next ((s.sysAsk 0 (s.extVA i)).parkStage (.acted 1) .home)
          else if !c.priv && (s.extent i).asid != c.asid then s.nectFault 2
          else s.commit fun s =>
            let o := (s.sysTold 0 (s.extVA i)).offerInstall i x
            o.2.modHere fun c => c.result d (o.1.setWidth 64) false
    | _, _ =>
      let x := s.here.sreg a
      if x.pois then .next (s.raise 0x10 (poisVal 0 a.toNat))
      else
        match s.place [x.val] 64 .load with
        | (none, s) => .next s
        | (some ls, s) =>
          s.afterRelease true .sys fun s =>
            .next ((s.modHere fun c => { c with places := ls }).parkStage (.acted 1) .home)

/-- The extent index that sA names. -/
def State.withExtent (s : State) (a : BitVec 4) (k : State → Nat → Outcome) : Outcome :=
  let x := s.here.sreg a
  if x.pois then .next (s.raise 0x10 (poisVal 0 a.toNat))
  else if 4096 ≤ (lo64 x.val).toNat then s.nectFault 1
  else if s.extWaits (lo64 x.val).toNat then .next ((s.sysAsk 0 (s.extVA (lo64 x.val).toNat)).parkReplay .home)
  else k (s.sysTold 0 (s.extVA (lo64 x.val).toNat)) (lo64 x.val).toNat

/-- `nwait`: an acquire at sys scope. -/
def execNwait (g d a : BitVec 4) (s : State) : Outcome :=
  s.guarded g fun s => s.withExtent a fun s i =>
    if (s.extent i).st == .installing then .next (s.parkReplay (.install i))
    else s.commit fun s => (s.modHere fun c => c.result d ((s.lastCode i).setWidth 64) false).acquire s.sel.1 .sys

/-- The value of `nstat`. -/
def State.nstatVal (s : State) (x : W64) (f : BitVec 2) : Nat :=
  let b (c : Bool) (n : Nat) : Nat := if c then 2 ^ n else 0
  match f.toNat with
  | 0 =>
    let p := x.toNat % 2 ^ 18
    if 33750 < p % 2 ^ 16 then 0
    else (s.nblock p).count.toNat + b (s.nblock p).retired 32 + b (32768 ≤ p % 2 ^ 16) 33 + b (s.holdsBlock p) 34
  | 1 => (s.spares (x.toNat % 4)).length
  | 2 =>
    let i := x.toNat % 4096
    (s.extent i).st.code + 2 ^ 8 * (s.lastCode i).toNat + 2 ^ 16 * (s.extent i).units
  | _ => if 131071 < x.toNat then 2 ^ 64 - 1 else s.physOf x.toNat

/-- `nstat`. -/
def execNstat (g d a : BitVec 4) (f : BitVec 2) (s : State) : Outcome :=
  s.guarded g fun s =>
    let x := s.here.sreg a
    if x.pois then .next (s.raise 0x10 (poisVal 0 a.toNat))
    else if f = 2 && s.extWaits ((lo64 x.val).toNat % 4096) then
      .next ((s.sysAsk 0 (s.extVA ((lo64 x.val).toNat % 4096))).parkReplay .home)
    else s.commit fun s =>
      (s.modHere fun c => c.result d (BitVec.ofNat 64 (s.nstatVal (lo64 x.val) f)) false).acquire s.sel.1 .sys

/-- `nretire`: the homes refuse new reads from this step on. -/
def execNretire (g a : BitVec 4) (s : State) : Outcome :=
  s.guarded g fun s => s.withExtent a fun s i =>
    let e := s.extent i
    if !s.here.priv && e.asid != s.here.asid then s.nectFault 2
    else s.commit fun s =>
      match e.st with
      | .sealed => (s.setExtent i { e with st := .superseded }).later (.supersedeDrain i)
      | .installing =>
        match sget i s.installs with
        | some x => s.setInstall i { x with cancelled := true }
        | none => s
      | .blank => s.setExtent i { e with st := .retired }
      | .superseded | .retired => s

end Sys2Proof.Machine
end

