-- ==== Sys2Proof/Machine/Node.lean ====
section
/-! DEFINITION. The node tree: `trig`, `cancel`, `cnt`, and the cancel of a node (spec/16_kernel.md R336-R342,
spec/08_traps.md R209). -/

namespace Sys2Proof.Machine

/-! ### Cancel (R340) -/

/-- More links than node ids: a chain of parents that is longer comes back to itself. -/
def nodeLinks : Nat := 2 ^ 58

/-- A node is a target or has it as an ancestor. -/
def State.under (s : State) (node target : BitVec 58) : Nat → Bool
  | 0 => false
  | fuel + 1 =>
    node == target ||
      (match s.nodeAddr node with
       | none => false
       | some a =>
         let up := BitVec.ofNat 58 (s.rd (a + 0x18) 8)
         up != 0 && State.under s up target fuel)

/-- Admitting groups of a launch: no unit of theirs has started (R266). -/
def State.admitting (s : State) (lid : Nat) : List (Nat × Group) := s.groups.filter fun e => e.2.launch == lid && !e.2.started

/-- An Admitting group ends; its units count as discarded. -/
def State.dropGroup (s : State) (node : BitVec 58) (gid : Nat) (g : Group) : State :=
  let s := g.units.foldl
    (fun s u =>
      let core := coreOfComb g.comb u.2.1
      let s := s.modCore core fun k => { k with clears := k.clears.filter fun r => r.cx != u.2.2 }
      (s.countUnit node false).free core u.2.2) s
  s.endGroup gid

/-- A core of a comb image without a launch: its threads are gone, its engine is reset if the launch owns the chain (R410), its
task-table entries pass on. -/
def Core.dropLaunch (k : Core) (lid : Nat) (groups : List Nat) : Core :=
  { k with
    ctxs := k.ctxs.map fun c => if c.launch == lid then { generation := c.generation } else c,
    eng := if k.eng.chain != .idle && k.eng.owner == lid then {} else k.eng,
    tasks := (k.tasks.map fun e => (e.1, { e.2 with groups := e.2.groups.filter fun g => !groups.contains g })).filter
      fun e => e.2.groups != [] }

/-- A comb image without a launch; the constant bank is empty where no group of its kernel is left (R335). -/
def State.imageWithout (s : State) (lid : Nat) (e : Image) : Image :=
  let gone := (e.groups.filter fun g => g.2.launch == lid).map (·.1)
  let left := e.groups.filter fun g => g.2.launch != lid
  let kernel (l : Nat) : Option Nat := (sget l s.launches).map (·.kernel)
  let used := gone.isEmpty || left.any fun g => kernel g.2.launch == kernel lid
  let reset (k : Nat) : Bool := (sget k e.cores).any fun c => c.eng.chain != .idle && c.eng.owner == lid
  { e with cores := e.cores.map fun k => (k.1, k.2.dropLaunch lid gone), groups := left,
           pending := e.pending.filter fun f => match f.by_ with | .engine k => !reset k | _ => true,
           rest := if used then e.rest else { e.rest with bank := none } }

/-- The threads of a launch that comb images hold. -/
def State.savedOf (s : State) (lid : Nat) : List (Nat × Nat × Ctx) :=
  s.images.flatMap fun e => e.2.threads.filter fun t => t.2.2.launch == lid && t.2.2.st != .free && t.2.2.st != .reserved

/-- The former followers of a unit whose leader has been discarded. -/
def State.orphans (s : State) (c : Ctx) : State :=
  let mark (d : Ctx) : Ctx :=
    if d.follows && d.group == c.group && d.unitid == c.unitid then { d with orphan := true, triggered := d.triggered || c.triggered } else d
  { s with
    cores := s.cores.map fun e => (e.1, { e.2 with ctxs := e.2.ctxs.map mark }),
    arrivals := s.arrivals.map fun e => (e.1, e.2.map fun p => { p with thread := mark p.thread }) }

/-- Saved threads of a launch in comb images are discarded with their redirect entries (R209); a unit counts, at once or with
the last of its former followers that runs (R281). The commands of the engines that are reset count as complete (R410). -/
def State.dropSaved (s : State) (lid : Nat) (node : BitVec 58) : State :=
  let gone := s.savedOf lid
  let cmds := s.images.flatMap fun e => e.2.cores.flatMap fun k => if k.2.eng.owner == lid then k.2.eng.queue else []
  let s := cmds.foldl (fun s c => s.cmdDone c) { s with images := s.images.map fun e => (e.1, s.imageWithout lid e.2) }
  gone.foldl
    (fun s t =>
      let c := t.2.2
      let s := s.modCore t.1 fun k => { k with redirects := k.redirects.filter fun r => !(r.gen == c.generation && r.cx == t.2.1) }
      let s := match c.retRec with | some r => s.sendFill r 0 true | none => s
      if c.unitid = BitVec.allOnes 64 then s
      else if c.follows then (if c.orphan && !s.followersRun c then s.countUnit node c.triggered else s)
      else if s.followersRun c then s.orphans c
      else s.countUnit node c.triggered) s

/-- Cancel of one launch. -/
def State.cancelLaunch (s : State) (lid : Nat) : State :=
  match sget lid s.launches with
  | none => s
  | some l =>
    let n := l.count - l.next
    let gids := (s.groups.filter fun e => e.2.launch == lid).map (·.1)
    let s := { s with launches := sset lid { l with next := l.count, cancelled := true } s.launches }
    let s := if n = 0 then s else (s.addTrig l.node n).addDone l.node n
    let s := (s.admitting lid).foldl (fun s e => s.dropGroup l.node e.1 e.2) s
    let s := s.dropSaved lid l.node
    -- running threads take 0x61; so do threads in arrival queues when they arrive
    let s := s.cores.foldl
      (fun s k => (List.range 7).foldl
        (fun s x =>
          let c := s.ctx k.1 x
          if c.launch == lid && c.st != .free && c.st != .reserved && c.st != .retired &&
              !(c.asyncs.any fun a => a.1 == 0x61) then
            (s.raiseAsync k.1 x 0x61 0).later (.cancelDelivery k.1 x)
          else s) s) s
    let mark (p : Packet) : Packet :=
      if p.thread.launch == lid then { p with thread := { p.thread with asyncs := (0x61, 0) :: p.thread.asyncs } } else p
    let s : State := { s with arrivals := s.arrivals.map fun e => (e.1, e.2.map mark) }
    -- engines whose chain the launch owns
    let s := s.cores.foldl (fun s k => if (s.eng k.1).owner = lid && (s.eng k.1).chain != .idle then s.resetEngine k.1 lid else s) s
    -- a group of which no thread is left ends
    (gids.foldl State.endGroup s).endLaunch lid

/-- A cancel waits: the walk to the record of some launch's node, or of an ancestor, does. -/
def State.cancelWaits (s : State) : Bool := s.launches.any fun e => s.nodeWaits e.2.node nodeLinks

/-- The walk is asked for that a cancel waits for. -/
def State.cancelAsk (s : State) : State :=
  match s.launches.find? fun e => s.nodeWaits e.2.node nodeLinks with
  | some e => s.nodeAsk e.2.node nodeLinks
  | none => s

/-- Cancel of a node whose record is at an address. -/
def State.cancelNode (s : State) (node : BitVec 58) (a : Nat) : State :=
  if s.rd (a + 0x23) 1 = 1 then s
  else
    let s := s.poke (a + 0x23) 1 1
    s.launches.foldl (fun s e => if s.under e.2.node node nodeLinks then s.cancelLaunch e.1 else s) s

/-! ### The KRN instructions (R341, R342) -/

/-- The place of the node record that sA names, read on the thread's behalf with privilege: none where the bundle has
trapped or waits. `bad` is the cause of an operand that names no record. -/
def State.nodePlace (s : State) (a : BitVec 4) (bad : Byte) : Option Loc × State :=
  let x := s.here.sreg a
  let va : W64 := lo64 x.val <<< 6
  if x.pois then (none, s.raise 0x10 (poisVal 0 a.toNat))
  else if (lo64 x.val).extractLsb' 58 6 != 0 then (none, s.raise bad va)
  else
    match s.translateAs false s.sel.1 s.sel.2 (mkVA 0x80 va) .load with
    | (.ok l, s) =>
      match s.pageChecks l .load with
      | (.ok l, s) => (some l, s)
      | (.trap code v, s) => (none, s.raise code v)
      | (.park w, s) => (none, s.parkReplay w)
    | (.trap code v, s) => (none, s.raise code v)
    | (.park w, s) => (none, s.parkReplay w)

/-- The common course of `cancel` and `cnt`: Release(dev) where the form writes, then the record's home acts when its turn
comes; an operand that names no record, or another address space's in user mode, has the cause. -/
def State.nodeForm (s : State) (rel : Bool) (a : BitVec 4) (bad : Byte) (k : State → Loc → Outcome) : Outcome :=
  match s.here.stage, s.here.places with
  | .acted 1, l :: _ =>
    s.atHome l 64 (.acted 1) fun s =>
      let kind := s.rd (l.key + 0x22) 1
      if kind = 0 || 4 < kind then .next (s.raise bad (lo64 l.va))
      else if !s.here.priv && BitVec.ofNat 16 (s.rd (l.key + 0x20) 2) != s.here.asid then .next (s.raise bad (lo64 l.va))
      else k s l
  | _, _ =>
    match s.nodePlace a bad with
    | (none, s) => .next s
    | (some l, s) => s.afterRelease rel .dev fun s => .next ((s.modHere fun c => { c with places := [l] }).parkStage (.acted 1) .home)

/-- `cancel`: a release at dev scope (R340); what the schedulers mark is marked in the step. -/
def execCancel (g a : BitVec 4) (s : State) : Outcome :=
  s.guarded g fun s => s.nodeForm true a 0x22 fun s l =>
    if s.cancelWaits then .next (s.cancelAsk.parkStage (.acted 1) .home)
    else s.commit fun s =>
      let sel := s.sel
      let s := s.cancelNode ((lo64 l.va).extractLsb' 6 58) l.key
      { s with sel := sel }

/-- The offset and the bytes of a field of a node's record (R341). -/
def cntField (f : BitVec 2) : Nat × Nat :=
  match f.toNat with
  | 0 => (0, 8)
  | 1 => (8, 8)
  | 2 => (0x10, 8)
  | _ => (0x23, 1)

/-- `cnt`: the field, poisoned where its bytes read so (R208, R449), then Acquire(dev). -/
def execCnt (g d a : BitVec 4) (f : BitVec 2) (s : State) : Outcome :=
  s.guarded g fun s => s.nodeForm false a 0x21 fun s l =>
    let k := cntField f
    let v := s.readHome (.thread s.sel.1 s.sel.2) { l with key := l.key + k.1 } k.2
    v.2.2.commit fun s => (s.modHere fun c => c.result d (BitVec.ofNat 64 v.1) v.2.1).acquire s.sel.1 .dev

/-- A thread of the same unit. -/
def Ctx.sameUnit (c d : Ctx) : Bool :=
  d.launch == c.launch && d.unitid == c.unitid && d.group == c.group

/-- Whether the unit of a thread has triggered. -/
def State.hasTriggered (s : State) (c : Ctx) : Bool := c.triggered || s.someThread fun _ d => c.sameUnit d && d.triggered

/-- Marks the unit as triggered in each of its threads, wherever it stands. -/
def State.markTriggered (s : State) (c : Ctx) : State :=
  let mark (d : Ctx) : Ctx := if c.sameUnit d then { d with triggered := true } else d
  let core (e : Nat × Core) : Nat × Core := (e.1, { e.2 with ctxs := e.2.ctxs.map mark })
  { s with
    cores := s.cores.map core,
    arrivals := s.arrivals.map fun e => (e.1, e.2.map fun p => { p with thread := mark p.thread }),
    images := s.images.map fun e => (e.1, { e.2 with cores := e.2.cores.map core }) }

/-- `trig`: once for a unit; its add is posted (R341). -/
def execTrig (g : BitVec 4) (s : State) : Outcome :=
  s.guarded g fun s =>
    let c := s.here
    if c.unitid = BitVec.allOnes 64 || s.hasTriggered c then s.commit id
    else if s.sysWaits 0 (c.launchid ++ (0 : BitVec 6)) then .next ((s.nodeAsk c.launchid 1).parkReplay .home)
    else
      s.afterRelease true .dev fun s => s.commit fun s =>
        let s := s.markTriggered c
        match s.nodeAddr c.launchid with
        | none => s.sysTold 0 (c.launchid ++ (0 : BitVec 6))
        | some a =>
          s.issueWrite { win := .glob, key := a + 8, va := mkVA 0x80 (c.launchid ++ (8 : BitVec 6)), leaf := 0 } 8
            (.ared .add true 1)

end Sys2Proof.Machine
end

