-- ==== Sys2Proof/Machine/Queue.lean ====
section
/-! DEFINITION. Work queues: registration, the queue engines and their packets, `qput`, the notice ring's head
(spec/15_queue.md R300-R311, R324, spec/16_kernel.md R327-R332). -/

namespace Sys2Proof.Machine

/-! ### Headers (R301-R303) -/

/-- What a header holds. -/
structure QHead where
  at_ : Nat
  base : W72
  lg : Nat
  prio : Nat
  state : Nat
  head : Nat
  tail : Nat
  ptroot : W64
  asid : W16
deriving DecidableEq, Repr

def State.readHeader (s : State) (a : Nat) : QHead :=
  { at_ := a, base := BitVec.ofNat 72 (s.rd a 9), lg := s.rd (a + 9) 1, prio := s.rd (a + 0xB) 1,
    state := s.rd (a + 0xC) 1, head := s.rd (a + 0x10) 8, tail := s.rd (a + 0x18) 8, ptroot := BitVec.ofNat 64 (s.rd (a + 0x20) 8),
    asid := BitVec.ofNat 16 (s.rd (a + 0x28) 2) }

/-- The header of a registered queue. -/
def State.qhead (s : State) (q : Nat) : Option (Queue × QHead) :=
  match sget q s.queues with
  | none => none
  | some k => (s.sysAddr (q / 32) k.hdr).map fun a => (k, s.readHeader a)

/-- The walk to the header of a registered queue waits. -/
def State.queueWaits (s : State) (q : Nat) : Bool := (sget q s.queues).any fun k => s.sysWaits (q / 32) k.hdr

/-- The walks are asked for that registered queues wait for. -/
def State.askQueues (s : State) : State :=
  s.queues.foldl (fun s e => if s.sysWaits (e.1 / 32) e.2.hdr then s.sysAsk (e.1 / 32) e.2.hdr else s) s

def State.setQueue (s : State) (q : Nat) (k : Queue) : State := { s with queues := sset q k s.queues }

/-- A queue-error notice. -/
def State.queueError (s : State) (q seq : Nat) : State :=
  s.notify { kind := 5, source := BitVec.ofNat 16 (q / 32 * 1152), a := BitVec.ofNat 64 q, b := BitVec.ofNat 64 seq }

/-- QHDR: a write of `qhdr` registers a header, or sets its state to Error (R302). A header with a poisoned byte, which R302 does
not name, fails the checks (log 86). -/
def execQhdr (s : State) : Outcome :=
  match s.event with
  | .qhdr v =>
    let q := v.toNat % 64
    let hdr := v &&& ~~~(0x3F : W64)
    s.withSys [(q / 32, hdr)] fun s => match s.sysAddr (q / 32) hdr with
    | none => .next (s.queueError q 0)
    | some a =>
      let s := s.poke (a + 0x10) 16 0
      let bad := s.mem.poisoned a 64 || s.rd (a + 0xA) 1 != q || s.rd (a + 9) 1 < 4 || 16 < s.rd (a + 9) 1 ||
        s.rd (a + 0xD) 3 != 0 || s.rd (a + 0x2A) 22 != 0
      if bad then .next ((s.poke (a + 0xC) 1 2).queueError q 0)
      else .next ((s.poke (a + 0xC) 1 1).setQueue q { hdr := hdr, since := s.now })
  | _ => .next s

/-- QUEUE_STATE_STORE: the driver stores to a state byte (R303). -/
def execQueueStateStore (s : State) : Outcome :=
  match s.event with
  | .queueStateStore q v =>
    s.withSys ((sget q s.queues).toList.map fun k => (q / 32, k.hdr)) fun s => match s.qhead q with
    | none => .next s
    | some h => .next (s.poke (h.2.at_ + 0xC) 1 v.toNat)
  | _ => .next s

/-- NHEAD_WRITE: the driver has consumed notices; more may follow (R324, R432). -/
def execNheadWrite (s : State) : Outcome :=
  match s.event with
  | .nheadWrite v =>
    let s := { s with nhead := v, msiHeld := s.msiHeld && v != s.ntail }
    .next ((s.sysTold 0 s.noticeSlot).flushNotices (s.notices.length + 1))
  | _ => .next s

/-! ### Which queue is served (R308) -/

/-- State Parsing, and not held by the packet at its head. -/
def State.queueReady (s : State) (q : Nat) : Bool :=
  match s.qhead q with
  | some (k, h) => h.state == 1 && h.head < h.tail && k.wait == .none
  | none => false

/-- Effective priority. -/
def State.queuePrio (s : State) (q : Nat) : Nat :=
  match s.qhead q with
  | some (k, h) => min 7 (h.prio + (s.now - k.since) / 2 ^ 20)
  | none => 0

/-- A packet that the engine has in hand, an access of which waits: it goes on whatever its queue's turn and state are by then,
since the packet at head completes first (R303, R308). -/
def Queue.inHand (k : Queue) : Bool := k.wait == .none && k.taken

/-- The engine of a hive is in the middle of a packet of another queue. -/
def State.engineBusy (s : State) (q : Nat) : Bool :=
  s.queues.any fun e => e.1 != q && e.1 / 32 == q / 32 &&
    (e.2.wait == .advance || e.2.inHand)

/-- The queue that the engine of a hive takes next. -/
def State.bestQueue (s : State) (h : Nat) : Option Nat :=
  let order := (List.range 32).map fun i => h * 32 + ((s.hive h).served % 32 + 1 + i) % 32
  (order.filter s.queueReady).foldl
    (fun b q => match b with
      | none => some q
      | some p => if s.queuePrio p < s.queuePrio q then some q else some p) none

/-! ### Acting on a packet (R304, R307, R309) -/

/-- The engine's translation for a packet's addresses. -/
def QHead.under (h : QHead) (q : Nat) (k : Queue) : Under :=
  { hive := q / 32, ptroot := h.ptroot, asid := h.asid, user := false, stall := k.stall }
/-- The engine's translation for structures of the device. -/
def sysUnder (q : Nat) (k : Queue) : Under := { hive := q / 32, ptroot := 0, asid := 0, user := false, stall := k.stall }

/-- A packet at the head of a queue. -/
structure Pkt where
  q : Nat
  k : Queue
  h : QHead
  /-- the bytes of its slots, and how many there are -/
  w : Nat
  slots : Nat
deriving DecidableEq, Repr

def Pkt.ty (p : Pkt) : Nat := field p.w 0 1
def Pkt.args (p : Pkt) : Nat := field p.w 2 2
def Pkt.tag (p : Pkt) : Nat := field p.w 4 4
def Pkt.notify (p : Pkt) : Bool := field p.w 1 1 / 4 % 2 == 1
def Pkt.me (p : Pkt) : Agent := .queue (p.q / 32)
def Pkt.under (p : Pkt) : Under := p.h.under p.q p.k
/-- Every byte other than those of the header and of the listed fields is zero. -/
def Pkt.only (p : Pkt) (fs : List (Nat × Nat)) : Bool := onlyFields p.w ((0, 8) :: fs)

/-- A queue's packet is taken: it is the one that its engine has served last (R308). -/
def State.serveQueue (s : State) (q : Nat) : State := s.modHive (q / 32) fun v => { v with served := q % 32 }

/-- A malformed packet: the queue goes to Error. -/
def State.badPacket (s : State) (q : Nat) (h : QHead) : Outcome :=
  let s := match sget q s.queues with
    | some k => (if k.wait == QWait.none then s.serveQueue q else s).setQueue q { k with wait := .none, taken := false, stall := none }
    | none => s
  .next ((s.poke (h.at_ + 0xC) 1 2).queueError q h.head)

/-- An access of the packet waits, for a fault record perhaps. -/
def State.stallQueue (s : State) (q : Nat) (k : Queue) (st : Option (Nat × Nat)) : Outcome :=
  .next ((s.serveQueue q).setQueue q { k with taken := true, stall := st })

/-- A read for a packet: a cause or poison makes it malformed. -/
def State.packetRead (s : State) (p : Pkt) (u : Under) (va : W72) (n : Nat) (go : State → Nat → Outcome) : Outcome :=
  match s.engineRead p.me u va n true with
  | (.wait st, s) => s.stallQueue p.q p.k st
  | (.bad _, s) => s.badPacket p.q p.h
  | (.val x pois, s) => if pois then s.badPacket p.q p.h else go s x

/-- The address of a slot after the head. -/
def QHead.slot (h : QHead) (n : Nat) : W72 := mkVA (spaceOf h.base) (lo64 h.base + BitVec.ofNat 64 (64 * (n % 2 ^ h.lg)))

/-- The packet at head is complete: its notice, then head. -/
def State.advance (s : State) (p : Pkt) : State :=
  let s := if p.notify then
      s.notify { kind := 4, source := BitVec.ofNat 16 (p.q / 32 * 1152), a := BitVec.ofNat 64 p.q, b := BitVec.ofNat 64 p.tag }
    else s
  let s := s.poke (p.h.at_ + 0x10) 8 ((p.h.head + p.slots) % 2 ^ 64)
  s.setQueue p.q { p.k with since := s.now, wait := .none, taken := false, stall := none }

/-- The slots from the n-th on, little-endian. -/
def State.slotsRead (s : State) (p : Pkt) (n : Nat) (acc : Nat) (go : State → Nat → Outcome) : Nat → Outcome
  | 0 => go s acc
  | left + 1 =>
    s.packetRead p p.under (p.h.slot (p.h.head + n)) 64 fun s x =>
      State.slotsRead s p (n + 1) (acc + x * 2 ^ (512 * n)) go left

/-- The slots of the packet at the head of a queue. -/
def State.packet (s : State) (q : Nat) (k : Queue) (h : QHead) (go : State → Pkt → Outcome) : Outcome :=
  let p : Pkt := { q := q, k := k, h := h, w := 0, slots := 1 }
  s.packetRead p p.under (h.slot h.head) 64 fun s x =>
    let n := field x 1 1 % 4
    s.slotsRead p 1 x (fun s w => go s { p with w := w, slots := n + 1 }) n

/-- The common course of a packet's first step: its queue's turn, its slots, its type and its header. A packet of an
invalid type is malformed whichever event meets it. -/
def State.packetForm (s : State) (q ty : Nat) (good : Pkt → Bool) (go : State → Pkt → Outcome) : Outcome :=
  match s.qhead q with
  | none => .next s
  | some (k, h) =>
    if !k.inHand && (!s.queueReady q || s.bestQueue (q / 32) != some q || s.engineBusy q) then .next s
    else
      s.packet q k h fun s p =>
        if p.ty = 0 || 7 < p.ty || 8 ≤ field p.w 1 1 then s.badPacket q h
        else if p.ty != ty then .next s
        else if !good p then s.badPacket q h
        else go (s.serveQueue q) p

/-- The packet at head of a queue that it holds. -/
def State.heldPacket (s : State) (q : Nat) (is : QWait → Bool) (go : State → Pkt → Outcome) : Outcome :=
  match s.qhead q with
  | none => .next s
  | some (k, h) => if !is k.wait then .next s else s.packet q k h go

/-! ### FENCE (R305, R306) -/

/-- The conditions of a FENCE: op, address, value. -/
def Pkt.conds (p : Pkt) : List (Nat × W72 × Nat) :=
  (List.range (p.args % 16)).map fun j =>
    (field p.w 8 3 / 4 ^ j % 4, field72 p.w (64 + 16 * j), field p.w (64 + 16 * j + 9) 7)

/-- Bits that the body table leaves unnamed in a field that it lists, here those of conditions that the packet does not have, are
to be zero, of which the spec does not say (log 83). -/
def Pkt.fenceGood (p : Pkt) : Bool :=
  let n := p.args
  1 ≤ n && n ≤ 12 && p.slots == 1 + (n + 3) / 4 && p.conds.all (fun c => c.1 != 3) && field p.w 8 3 / 4 ^ n == 0 &&
    p.only ((8, 3) :: (List.range n).map fun j => (64 + 16 * j, 16))

/-- What a pass ends with. -/
inductive Pass where
  | done (all : Bool)
  | wait (stall : Option (Nat × Nat))
  | never
deriving DecidableEq, Repr

/-- One pass over the conditions, in order. A condition whose counter is poisoned, of which the spec does not say, does not hold
(log 85). -/
def State.fencePass (s : State) (p : Pkt) (all : Bool) : List (Nat × W72 × Nat) → Pass × State
  | [] => (.done all, s)
  | (op, va, v) :: l =>
    match s.engineRead p.me p.under va 8 true with
    | (.wait st, s) => (.wait st, s)
    | (.bad _, s) => (.never, s)
    | (.val x pois, s) =>
      let holds := !pois && (match op with | 0 => v ≤ x | 1 => x == v | _ => x != v)
      State.fencePass s p (all && holds) l

/-- What a pass does to the queue. -/
def State.afterPass (s : State) (p : Pkt) : Outcome :=
  match s.fencePass p true p.conds with
  | (.done true, s) => .next (s.advance p)
  | (.done false, s) => .next (s.setQueue p.q { p.k with wait := .fence s.now, taken := false, stall := none })
  | (.wait st, s) => .next (s.setQueue p.q { p.k with wait := .fence s.now, taken := false, stall := st })
  | (.never, s) => .next (s.setQueue p.q { p.k with wait := .never, taken := false, stall := none })

/-- FENCE_PACKET: the first pass. -/
def execFencePacket (s : State) : Outcome :=
  match s.event with
  | .fencePacket q => s.packetForm q 2 Pkt.fenceGood fun s p => s.afterPass p
  | _ => .next s

/-- FENCE_PASS: a later pass. -/
def execFencePass (s : State) : Outcome :=
  match s.event with
  | .fencePass q =>
    s.heldPacket q (fun w => match w with | .fence _ => true | _ => false) fun s p =>
      if p.ty = 2 && p.fenceGood then s.afterPass p else s.badPacket q p.h
  | _ => .next s

/-! ### SIGNAL, COPY, INSTALL, MARKER, CANCEL (R305, R307) -/

def Pkt.signalGood (p : Pkt) : Bool :=
  p.slots == 1 && p.args < 2 && (lo64 (field72 p.w 8)).toNat % 8 == 0 && p.only [(8, 9), (24, 8)]

/-- SIGNAL_PACKET: the write is issued; head advances once it is acknowledged. -/
def execSignalPacket (s : State) : Outcome :=
  match s.event with
  | .signalPacket q =>
    match s.qhead q with
    | none => .next s
    | some (k, h) =>
      if k.wait == .advance then
        if s.flights.any fun f => f.by_ == .queue (q / 32) then .next s
        else s.packet q k h fun s p => .next (s.advance p)
      else
        s.packetForm q 3 Pkt.signalGood fun s p =>
          let add := p.args = 1
          let va := field72 p.w 8
          let v := field p.w 24 8
          match s.engineAddr p.under va (if add then .red else .store) with
          | (.wait st, s) => s.stallQueue q p.k st
          | (.bad _, s) => s.badPacket q p.h
          | (.ok l, s) =>
            let op : FlightOp := if add then .ared .add true (BitVec.ofNat 64 v) else .bytes (cellsOf l.key v 8) []
            let f : Flight := { id := s.seq, by_ := p.me, loc := l, len := 8, op := op }
            .next (({ s.fresh with flights := s.flights ++ [f] }.later (.storeAcknowledgement s.seq)).setQueue q
              { p.k with wait := .advance, taken := false, stall := none })
  | _ => .next s

def Pkt.copyGood (p : Pkt) : Bool :=
  let n := field p.w 40 8
  p.slots == 1 && p.args == 0 && n % 32 == 0 && 32 ≤ n && n ≤ 2 ^ 40 && p.only [(8, 9), (24, 9), (40, 8), (48, 9)]

/-- COPY_PACKET: the copy starts on the streamers. -/
def execCopyPacket (s : State) : Outcome :=
  match s.event with
  | .copyPacket q =>
    s.packetForm q 4 Pkt.copyGood fun s p =>
      let x : Xfer :=
        { kind := .queue, core := q / 32 * 1024, cx := 0, gen := 0, inst := 0, ch := 0, id := 0, ptroot := p.h.ptroot,
          asid := p.h.asid, user := false, group := 0, src := field72 p.w 24, dst := field72 p.w 8, len := field p.w 40 8,
          ctr := field72 p.w 48, q := q }
      .next (((s.fresh.setXfer s.seq x).later (.transferArrive s.seq)).advance p)
  | _ => .next s

def Pkt.installGood (p : Pkt) : Bool :=
  p.slots == 2 && p.args == 0 && onlyFields (p.w % 2 ^ 512) [(0, 8), (8, 9)] &&
    (parseInstall (p.w / 2 ^ 512) (.queue p.q 0 0 0) 0 0 false).isSome

/-- INSTALL_PACKET: the install is offered with the engine's authority; one that is refused has completed with its code
(R418). -/
def execInstallPacket (s : State) : Outcome :=
  match s.event with
  | .installPacket q =>
    s.packetForm q 5 Pkt.installGood fun s p =>
      match parseInstall (p.w / 2 ^ 512) (.queue q (field72 p.w 8) p.h.ptroot p.h.asid) p.h.ptroot p.h.asid false with
      | none => s.badPacket q p.h
      | some (i, x) =>
        if s.extWaits i then (s.sysAsk 0 (s.extVA i)).stallQueue q p.k none
        else
        let r := (s.sysTold 0 (s.extVA i)).offerInstall i x
        .next ((if r.1 = 1 then r.2 else r.2.counterWait x).advance p)
  | _ => .next s

def Pkt.markerGood (p : Pkt) : Bool :=
  p.slots == 1 && p.args < 8 && p.args / 2 != 3 && p.only [(8, 9), (24, 2)]

/-- MARKER_PACKET: an invalidation starts; head advances when it is complete (R231). -/
def execMarkerPacket (s : State) : Outcome :=
  match s.event with
  | .markerPacket q =>
    match s.qhead q with
    | none => .next s
    | some (k, h) =>
      match k.wait with
      | .marker form below asid va =>
        if s.tlbQuiet form below asid va then s.packet q k h fun s p => .next ((s.rearm form asid va).advance p)
        else .next s
      | _ =>
        s.packetForm q 6 Pkt.markerGood fun s p =>
          let form := p.args / 2
          let asid := BitVec.ofNat 16 (field p.w 24 2)
          let va := field72 p.w 8
          if p.args % 2 = 0 then .next (s.advance p)
          else .next ((s.dropTlb form asid va).setQueue q
            { p.k with wait := .marker form s.seq asid va, taken := false, stall := none })
  | _ => .next s

def Pkt.cancelGood (p : Pkt) : Bool := p.slots == 1 && p.args == 0 && field p.w 8 8 < 2 ^ 58 && p.only [(8, 8)]

/-- CANCEL_PACKET (R340). -/
def execCancelPacket (s : State) : Outcome :=
  match s.event with
  | .cancelPacket q =>
    s.packetForm q 7 Pkt.cancelGood fun s p =>
      let node := BitVec.ofNat 58 (field p.w 8 8)
      s.packetRead p (sysUnder q p.k) (mkVA 0x80 (node ++ (0 : BitVec 6))) 64 fun s x =>
        if field x 0x22 1 = 0 || 4 < field x 0x22 1 then s.badPacket q p.h
        else
          if s.cancelWaits then s.cancelAsk.stallQueue q p.k none
          else if s.ownWaits node then (s.nodeAsk node 1).stallQueue q p.k none
          else
            match s.nodeAddr node with
            | none => (s.sysTold 0 (node ++ (0 : BitVec 6))).badPacket q p.h
            | some a => .next ((s.cancelNode node a).advance p)
  | _ => .next s

/-! ### LAUNCH (R327-R332) -/

/-- The fields of a LAUNCH packet within their limits (R330). -/
def Pkt.launchGood (p : Pkt) : Bool :=
  let f (o n : Nat) : Nat := field p.w o n
  let gw := 2 ^ f 10 1
  p.slots == 2 && p.args < 4096 && f 9 1 < 8 && f 10 1 < 4 && (f 9 1 % 2 == 1 || f 10 1 == 0) && 1 ≤ f 11 1 &&
    f 11 1 ≤ 112 / gw && f 12 1 < 16 && f 12 1 % 4 ≤ f 12 1 / 4 && f 13 1 ≤ 16 && f 15 1 ≤ 63 && f 15 1 + f 14 1 ≤ 64 &&
    1 ≤ f 16 8 && f 16 8 ≤ 2 ^ 40 && f 11 1 ≤ f 24 8 && f 24 8 ≤ 2 ^ 40 && f 34 2 ≤ 255 && f 34 2 + f 32 2 ≤ 256 &&
    f 32 2 ≤ 8 * f 36 2 && f 36 2 ≤ 128 && f 40 8 < 2 ^ 58 && (List.range 4).all (fun j => f (96 + 8 * j) 8 < 2 ^ 58) &&
    p.only [(8, 8), (16, 8), (24, 8), (32, 2), (34, 2), (36, 2), (40, 8), (64, 9), (73, 9), (82, 9), (96, 32)]

/-- The predecessors of a LAUNCH packet. -/
def Pkt.preds (p : Pkt) : List (BitVec 58) :=
  ((List.range 4).map fun j => BitVec.ofNat 58 (field p.w (96 + 8 * j) 8)).filter fun n => n != 0

/-- Reads the records of nodes, each of which must be a launch node of an address space. -/
def State.predsOk (s : State) (p : Pkt) (asid : Nat) (go : State → Outcome) : List (BitVec 58) → Outcome
  | [] => go s
  | n :: l =>
    s.packetRead p (sysUnder p.q p.k) (mkVA 0x80 (n ++ (0 : BitVec 6))) 64 fun s x =>
      if field x 0x22 1 != 1 || field x 0x20 2 != asid then s.badPacket p.q p.h else State.predsOk s p asid go l

/-- Reads the entries of an entry table (R328): the channel and the offset of each. -/
def State.entriesOf (s : State) (p : Pkt) (u : Under) (va : W72) (acc : List (Nat × Nat))
    (go : State → List (Nat × Nat) → Outcome) : Nat → Outcome
  | 0 => go s acc
  | n + 1 =>
    s.packetRead p u (bytePlus va (8 * acc.length)) 8 fun s x =>
      State.entriesOf s p u va (acc ++ [(field x 4 1 % 64, field x 0 4)]) go n

/-- What the check reads: the kernel descriptor, Δ, the trap profile, the entries. -/
structure LaunchInfo where
  desc : Nat
  delta : Byte
  profile : Nat
  entries : List (Nat × Nat)
deriving DecidableEq, Repr

/-- The launch that a packet describes. -/
def Pkt.launch (p : Pkt) (i : LaunchInfo) : Launch :=
  let f (o n : Nat) : Nat := field p.w o n
  let d (o n : Nat) : Nat := field i.desc o n
  let code : W72 := mkVA (BitVec.ofNat 8 (d 0x18 1)) (BitVec.ofNat 64 (d 0 8))
  let entries := i.entries.map fun e => (e.1, bytePlus code e.2)
  let pf (o : Nat) : W64 := BitVec.ofNat 64 (field i.profile o 8)
  { node := BitVec.ofNat 58 (f 40 8), kernel := p.args, entry := (entries.map (·.2)).getD (f 8 1) code, entries := entries,
    forager := if d 0x24 4 = 0xFFFFFFFF then none else some (bytePlus code (d 0x24 4)),
    template := mkVA (BitVec.ofNat 8 (d 0x1A 1)) (BitVec.ofNat 64 (d 0x10 8)), words := d 0x1D 1 + 1,
    ptroot := BitVec.ofNat 64 (d 0x28 8) &&& 0x000FFFFFFFFFF000, asid := BitVec.ofNat 16 (d 0x20 2),
    profile := { shand := pf 0 &&& ~~~(3 : W64), tdeleg0 := pf 8 &&& delegMask 0, tdeleg1 := pf 16 &&& delegMask 64,
                 wdlim := BitVec.ofNat 16 (field i.profile 0x18 2) },
    k0 := field72 p.w 64, k1 := field72 p.w 73, k2 := field72 p.w 82, delta := i.delta, count := f 16 8, step := f 24 8,
    gsize := f 11 1, gw := 2 ^ f 10 1, gangable := f 9 1 % 2 == 1, matrix := f 9 1 / 2 % 2 == 1, early := f 9 1 / 4 % 2 == 1,
    dieMin := f 12 1 % 4, dieMax := f 12 1 / 4, nbar := f 13 1, ssize := f 14 1, sbase := f 15 1, csize := f 32 2,
    cbase := f 34 2, share := f 36 2 * 2048, preds := p.preds }

/-- Handing over: the kernel's live launches, and the launch at the scheduler. -/
def State.handOver (s : State) (p : Pkt) (i : LaunchInfo) : Outcome :=
  let desc := s.ktab + BitVec.ofNat 64 (64 * p.args)
  let h := p.q / 32
  if s.sysWaits h desc then (s.sysAsk h desc).stallQueue p.q p.k none
  else if (s.sysAddr h desc).any s.recordWaits then s.stallQueue p.q p.k none
  else
  let s := match s.sysAddr h desc with
    | some a => s.poke (a + 0x30) 8 ((s.rd (a + 0x30) 8 + 1) % 2 ^ 64)
    | none => s.sysTold h desc
  let lid := s.seq
  .next (({ s.fresh with launches := sset lid (p.launch i) s.launches }.later (.launchStart lid)).advance p)

/-- The launch node and its parent (R331). -/
def State.launchNode (s : State) (p : Pkt) (asid : Nat) (go : State → Outcome) : Outcome :=
  let u := sysUnder p.q p.k
  let at_ (n : Nat) : W72 := mkVA 0x80 (BitVec.ofNat 64 (64 * n))
  s.packetRead p u (at_ (field p.w 40 8)) 64 fun s x =>
    if field x 0x22 1 != 1 || field x 0 16 != 0 || field x 0x10 8 != field p.w 16 8 || field x 0x20 2 != asid then
      s.badPacket p.q p.h
    else
      let up := field x 0x18 8
      if up = 0 then go s
      else if 2 ^ 58 ≤ up then s.badPacket p.q p.h
      else s.packetRead p u (at_ up) 64 fun s y => if field y 0x22 1 ≤ 1 then s.badPacket p.q p.h else go s

/-- Δ from the format descriptor at k0 (R332). -/
def State.formatDelta (s : State) (p : Pkt) (u : Under) (go : State → Byte → Outcome) : Outcome :=
  let k0 := field72 p.w 64
  if k0 = 0 then go s 4
  else if (lo64 k0).toNat % 8 != 0 then s.badPacket p.q p.h
  else
    s.packetRead p u k0 8 fun s x =>
      if 256 ≤ x then s.badPacket p.q p.h else go s (if x = 0 then 4 else BitVec.ofNat 8 x)

/-- LAUNCH_PACKET: the checks of R331, then the handover. -/
def execLaunchPacket (s : State) : Outcome :=
  match s.event with
  | .launchPacket q =>
    s.packetForm q 1 Pkt.launchGood fun s p =>
      let u := sysUnder q p.k
      s.packetRead p u (mkVA 0x80 (s.ktab + BitVec.ofNat 64 (64 * p.args))) 64 fun s d =>
        let asid := field d 0x20 2
        let prof := field d 0x38 8
        let ku : Under :=
          { u with ptroot := BitVec.ofNat 64 (field d 0x28 8), asid := BitVec.ofNat 16 asid }
        if field d 0x1B 1 != 1 || field d 0x1C 1 ≤ field p.w 8 1 || prof = 0 || prof % 32 != 0 then s.badPacket q p.h
        else
          let table : W72 := mkVA (BitVec.ofNat 8 (field d 0x19 1)) (BitVec.ofNat 64 (field d 8 8))
          let rest (s : State) : Outcome :=
            s.packetRead p u (mkVA 0x80 (BitVec.ofNat 64 prof)) 32 fun s pf =>
              if field pf 0x1A 6 != 0 then s.badPacket q p.h
              else
                s.formatDelta p ku fun s delta =>
                  State.entriesOf s p ku table []
                    (fun s es => s.handOver p { desc := d, delta := delta, profile := pf, entries := es })
                    (min 64 (field d 0x1C 1))
          s.launchNode p asid fun s => State.predsOk s p asid rest p.preds
  | _ => .next s

/-! ### `qput` (R310, R311) -/

/-- The queue whose registered header lies at a place. -/
def State.registered (s : State) (l : Loc) : Option (Queue × QHead) :=
  if l.win != .glob then none
  else
    match s.qhead (s.rd (l.key + 0xA) 1) with
    | some (k, h) => if h.at_ = l.key then some (k, h) else none
    | none => none

/-- The places of the ring slots of a packet, or what stops the first that has none. -/
def State.slotPlaces (s : State) (q : Nat) (h : QHead) (u : Under) (first : Nat) : Nat → Except (EngRes × W72) (List Loc) × State
  | 0 => (.ok [], s)
  | n + 1 =>
    let va := h.slot first
    match s.engineAddr u va .store with
    | (.ok l, s) =>
      match State.slotPlaces s q h u (first + 1) n with
      | (.ok ls, s) => (.ok (l :: ls), s)
      | r => r
    | (r, s) => (.error (r, va), s)

/-- The slots of a packet are written. -/
def State.putSlots (s : State) (c : Ctx) (b : Nat) : List Loc → State
  | [] => s
  | l :: ls =>
    let v := (c.vreg (BitVec.ofNat 4 b)).val.toNat
    State.putSlots (s.writeHome l 64 (cellsOf l.key v 64) []) c (b + 1) ls

/-- The home's action. -/
def State.qputAct (s : State) (d b : BitVec 4) (n : Nat) (l : Loc) : Outcome :=
  let c := s.here
  let w := (c.vreg b).val.toNat
  let answer (v : Nat) : Outcome := s.commit fun s => s.modHere fun c => c.result d (BitVec.ofNat 64 v) false
  match s.registered l with
  | none => .next (s.raise 0x57 (lo64 l.va))
  | some (_, h) =>
    if 15 < b.toNat + n - 1 then .next (s.raise 0x02 (match c.cur with | some x => x.sw.setWidth 64 | none => 0))
    else if h.state != 1 then answer 2
    else if w % 256 = 0 || 7 < w % 256 || w / 2 ^ 11 % 32 != 0 then answer 3
    else if 2 ^ h.lg < h.tail + n - h.head then answer 1
    else
      match c.replay with
      | some (code, v) => .next (s.raise code v)
      | none =>
        let q := s.rd (l.key + 0xA) 1
        let u : Under := { hive := q / 32, ptroot := h.ptroot, asid := h.asid, user := false, stall := none }
        match s.slotPlaces q h u h.tail n with
        | (.error (.bad code, va), s) => .next (s.raise code (lo64 va))
        | (.error (.wait (some (hv, num)), va), s) => .next (s.parkStage (.acted 1) (.fault hv num (lo64 va)))
        | (.error (_, _), s) => .next (s.parkStage (.acted 1) .home)
        | (.ok ls, s) => s.commit fun s =>
            let s := (s.putSlots c b.toNat ls).poke (l.key + 0x18) 8 ((h.tail + n) % 2 ^ 64)
            -- the update of tail is an atomic of the thread: its core keeps no older copy (R252, R310)
            (s.l1Drop s.sel.1 (l.key / 64)).modHere fun c => c.result d (BitVec.ofNat 64 (h.tail % 2 ^ 56 * 256)) false

/-- `qput`. -/
def execQput (g d a b : BitVec 4) (s : State) : Outcome :=
  s.guarded g fun s =>
    let c := s.here
    let x := c.sreg a
    let n := (c.vreg b).val.toNat / 256 % 4 + 1
    match c.stage, c.places with
    | .acted 1, l :: _ =>
      s.atHome l 64 (.acted 1) fun s => s.qputAct d b n l
    | _, _ =>
      if x.pois then .next (s.raise 0x10 (poisVal 0 a.toNat))
      else
        match ((List.range n).map fun j => BitVec.ofNat 4 (b.toNat + j)).find?
            fun r => b.toNat ≤ r.toNat && (c.vreg r).pois with
        | some r => .next (s.raise 0x11 (poisVal 1 r.toNat))
        | none =>
          if (lo64 x.val).toNat % 64 != 0 then .next (s.raise 0x57 (lo64 x.val))
          else
            match s.place [x.val] 64 .load with
            | (none, s) => .next s
            | (some ls, s) =>
              s.afterRelease true .sys fun s =>
                .next ((s.modHere fun c => { c with places := ls }).parkStage (.acted 1) .home)

end Sys2Proof.Machine
end

