-- ==== Sys2Proof/Machine/Kernel.lean ====
section
/-! DEFINITION. The comb images that stand in memory, and the scheduler: the start of a launch and the admission of its groups
(spec/08_traps.md R212, R215, spec/16_kernel.md R334, R335, R338, spec/12_group.md R263-R268, spec/15_queue.md R312). -/

namespace Sys2Proof.Machine

/-! ### Comb images in memory (R212, R215; log 46) -/

/-- The address of an offset of an image. -/
def State.imageAddr (s : State) (base : W64) (o : Nat) : Option Nat := s.sysAddr 0 (base + BitVec.ofNat 64 o)

/-- The bytes of a part, which lies in one page, at an address. -/
def partCells (serial a : Nat) (p : Nat × Nat) : List Host.Cell :=
  (List.range p.2).map fun i => (a + i, Config.imageByte serial (p.1 + i))

/-- A part stands in memory at the image of a base address. -/
def State.partStands (s : State) (base : W64) (serial : Nat) (p : Nat × Nat) : Bool :=
  match s.imageAddr base p.1 with
  | some a => (partCells serial a p).all fun c => s.mem.byte c.1 == c.2
  | none => false

/-- The offset at which an image has its comb number and its groups. -/
def blockOffset : Nat := 2 ^ 24

/-- The images whose 16 MiB block stands at a base address: one that was written there first, and those that hold Saved state
before those that have been restored. -/
def State.namedImages (s : State) (base : W64) : List (Nat × Image) :=
  let stands (e : Nat × Image) : Bool := (e.2.parts.filter fun p => blockOffset ≤ p.1).all (s.partStands base e.1)
  let here (e : Nat × Image) : Bool := s.imageAddr base 0 == some e.2.at_
  let l := (s.images ++ s.oldImages).filter stands
  l.filter here ++ l.filter fun e => !here e

/-- The image of a comb that stands at a base address, none where what stands there is malformed (R215). -/
def State.imageAt (s : State) (base : W64) : Option (Nat × Image) :=
  (s.namedImages base).find? fun e => e.2.parts.all (s.partStands base e.1) &&
    e.2.heads.all fun h => (s.imageAddr base h.1).any fun a => s.rd a 64 == h.2

/-! ### The start of a launch (R338) -/

/-- What the record of a predecessor says: its count has been reached, and it is cancelled; none where no record is
there. Of poisoned counters, of which the spec does not say, the zeros count that stand under the marks (log 88). -/
def State.predReady (s : State) (early : Bool) (n : BitVec 58) : Option (Bool × Bool) :=
  (s.nodeAddr n).map fun a =>
    (s.rd (a + 0x10) 8 ≤ s.rd (if early then a + 8 else a) 8, s.rd (a + 0x23) 1 == 1)

/-- Puts a request for admission to some comb into the agenda. -/
def State.offerGroup (s : State) (lid : Nat) : State :=
  let p := s.pick 128
  p.2.later (.groupAdmit lid p.1)

/-- LAUNCH_START: the conditions on the predecessors hold; a cancelled predecessor cancels the launch. -/
def execLaunchStart (s : State) : Outcome :=
  match s.event with
  | .launchStart lid =>
    match sget lid s.launches with
    | none => .next s
    | some l =>
      if l.started then .next s
      else
        s.withSys (l.preds.map fun n => (0, n ++ (0 : BitVec 6))) fun s =>
        let rs := l.preds.map (s.predReady l.early)
        -- the acquire loads wait at the records (R250)
        if l.preds.any s.ownWaits then .next (s.later (.launchStart lid))
        else if rs.all fun r => match r with | some (d, _) => d | none => false then
          if rs.any fun r => match r with | some (_, c) => c | none => false then
            -- the launch is cancelled as R340 gives: through its node
            if s.cancelWaits then .next (s.cancelAsk.later (.launchStart lid)) else
            let t := match s.nodeAddr l.node with | some a => s.cancelNode l.node a | none => s
            .next (if (sget lid t.launches).any fun l => !l.cancelled then t.cancelLaunch lid else t)
          else .next ({ s with launches := sset lid { l with started := true } s.launches }.offerGroup lid)
        else .next (s.later (.launchStart lid))
  | _ => .next s

/-! ### Admission (R263-R268, R334, R335) -/

/-- Two ranges of a given start and length overlap. -/
def overlaps (a n b m : Nat) : Bool := n != 0 && m != 0 && a < b + m && b < a + n

/-- A write is on its way into a range that an admission is to zero: one of a unit that was cancelled (R271; log 89). -/
def State.writesInto (s : State) (key n : Nat) : Bool := s.flights.any fun f => overlaps key n f.loc.key f.len

/-- The groups of a comb. -/
def State.groupsOf (s : State) (comb : Nat) : List Group := (s.groups.filter fun e => e.2.comb == comb).map (·.2)

/-- A core of a comb whose resources a launch may take. -/
def State.coreFree (s : State) (lid : Nat) (l : Launch) (comb k : Nat) : Bool :=
  let core := coreOfComb comb k
  let q := s.core core
  !q.failed && !s.writesInto (scratchKey core (l.sbase * 4096)) (l.ssize * 4096) &&
  (s.groupsOf comb).all (fun g => !g.cores.getLsbD k || !overlaps l.sbase l.ssize g.sbase g.ssize) &&
    l.entries.all (fun e =>
      match sget e.1 q.tasks with
      | some t => t.groups.all fun g => (s.group g).map (·.launch) == some lid
      | none => true) &&
    (l.forager.isNone || (s.ctx core 7).st == .free || (s.ctx core 7).launch == lid) &&
    (!l.matrix || q.eng.chain == .idle || q.eng.owner == lid)

/-- Places for units: the base core in the comb and the context, with the followers' contexts free too. -/
def State.unitSlots (s : State) (lid : Nat) (l : Launch) (comb : Nat) : List (Nat × Nat) :=
  ((List.range 16).filter fun k => k % l.gw == 0).flatMap fun k =>
    ((List.range 7).filter fun x => (List.range l.gw).all fun i =>
      s.coreFree lid l comb (k + i) && (s.ctx (coreOfComb comb (k + i)) x).st == .free).map fun x => (k, x)

/-- n of the places, by free choice. -/
def State.choosePlaces (s : State) (l : List (Nat × Nat)) : Nat → List (Nat × Nat) × State
  | 0 => ([], s)
  | n + 1 =>
    let p := s.pick l.length
    match l[p.1]? with
    | none => ([], p.2)
    | some x =>
      let r := State.choosePlaces p.2 (l.eraseIdx p.1) n
      (x :: r.1, r.2)

/-- The restore of a comb is in progress: its image has been named and is not read yet. -/
def State.restoring (s : State) (comb : Nat) : Bool :=
  (s.due ++ s.agenda).any fun e => match e with
    | .prest image => (s.namedImages image).any fun g => g.2.comb == comb
    | _ => false

/-- What a comb has for a group of a launch, apart from its cores. -/
def State.combHas (s : State) (l : Launch) (comb : Nat) : Bool :=
  let gs := s.groupsOf comb
  gs.all (fun g => !overlaps l.cbase l.csize g.cbase g.csize) && l.share ≤ s.combFree comb &&
    gs.foldl (fun n g => n + g.nbar) l.nbar ≤ 64 &&
    (match (s.comb comb).bank with | none => true | some k => k == l.kernel) && !(s.comb comb).closed && !s.halt.contains comb &&
    !s.writesInto (combKey comb (l.cbase * 65536)) (l.csize * 65536) && !s.restoring comb

/-- The words of the template, each with its poison: a word that cannot be read is poisoned. -/
inductive Bank where
  | words (l : List (Nat × Bool))
  | wait (stall : Option (Nat × Nat))
deriving DecidableEq, Repr

def State.templateWords (s : State) (u : Under) (va : W72) : Nat → Bank × State
  | 0 => (.words [], s)
  | n + 1 =>
    match s.engineRead .scheduler u va 4 false with
    | (.wait st, s) => (.wait st, s)
    | (.bad _, s) =>
      match State.templateWords s u (vaPlus va 1) n with
      | (.words l, s) => (.words ((0, true) :: l), s)
      | r => r
    | (.val x p, s) =>
      match State.templateWords s u (vaPlus va 1) n with
      | (.words l, s) => (.words ((x, p) :: l), s)
      | r => r

/-- The words that the constant bank takes: none where it holds them already. -/
def State.bankWords (s : State) (l : Launch) (comb : Nat) : Bank × State :=
  if (s.comb comb).bank.isSome || lo64 l.template = 0 then (.words [], s)
  else s.templateWords { hive := comb / 64, ptroot := l.ptroot, asid := l.asid, user := false, stall := l.stall } l.template l.words

/-- Writes words into a constant bank. -/
def State.putBank (s : State) (key : Nat) : List (Nat × Bool) → State
  | [] => s
  | (x, p) :: l =>
    let s : State := { s with mem := if p then s.mem.spoilAll [key, key + 1, key + 2, key + 3] else s.mem.write key 4 x }
    State.putBank s (key + 4) l

/-- The bank of a comb for a kernel. -/
def State.fillBank (s : State) (l : Launch) (comb : Nat) (ws : List (Nat × Bool)) : State :=
  if (s.comb comb).bank.isSome then s
  else
    let s : State := { s with mem := s.mem.clear (bankKey comb 0) 1024 }
    (s.putBank (bankKey comb 0) ws).modComb comb fun c => { c with bank := some l.kernel }

/-- The ranges of a group are zeroed. -/
def State.zeroGroup (s : State) (g : Group) : State :=
  let m := (List.range 16).foldl
    (fun (m : Memory) k => if g.cores.getLsbD k then m.clear (scratchKey (coreOfComb g.comb k) (g.sbase * 4096)) (g.ssize * 4096) else m)
    s.mem
  { s with mem := m.clear (combKey g.comb (g.cbase * 65536)) (g.csize * 65536) }.modComb g.comb fun c =>
    { c with raw := c.raw.filter fun b => b < g.cbase * 256 || (g.cbase + g.csize) * 256 ≤ b }

/-- A unit and its followers take their contexts. -/
def State.startUnit (s : State) (lid gid : Nat) (l : Launch) (g : Group) (u : Nat × Nat × Nat) : State :=
  let rank := u.1 - g.first
  let ctx (s : State) (core : Nat) : Ctx :=
    startCtx l lid gid (g.id rank) (BitVec.ofNat 64 u.1) core (s.ctx core u.2.2).generation l.entry
  let core := coreOfComb g.comb u.2.1
  let s := s.allocate core u.2.2 (ctx s core) true
  (List.range (l.gw - 1)).foldl
    (fun s i =>
      let k := coreOfComb g.comb (u.2.1 + 1 + i)
      s.allocate k u.2.2 { ctx s k with st := .reserved } true) s

/-- A participating core: its copies are dropped, its entries and its forager start. -/
def State.joinCore (s : State) (lid gid : Nat) (l : Launch) (g : Group) (core : Nat) : State :=
  let enter (ts : Sparse Task) (e : Nat × W72) : Sparse Task :=
    match sget e.1 ts with
    | some t => sset e.1 { t with groups := t.groups ++ [gid] } ts
    | none => sset e.1 { pc := e.2, groups := [gid] } ts
  let s := (s.acquire core .dev).modCore core fun k =>
    { k with tasks := l.entries.foldl enter k.tasks }
  match l.forager with
  | none => s
  | some pc =>
    if (s.ctx core 7).st != .free then s
    else
      s.allocate core 7 (startCtx l lid gid (g.id 127) (BitVec.allOnes 64) core (s.ctx core 7).generation pc) true

/-- The group that takes the next units of a launch at given places. -/
def groupAt (lid : Nat) (l : Launch) (comb size now : Nat) (ps : List (Nat × Nat)) : Group :=
  let cores := ps.flatMap fun p => (List.range l.gw).map fun i => p.1 + i
  { launch := lid, comb := comb, first := l.next, size := size,
    cores := BitVec.ofNat 16 ((List.range 16).foldl (fun n k => if cores.contains k then n + 2 ^ k else n) 0),
    units := ((List.range size).zip ps).map (fun e => (l.next + e.1, e.2.1, e.2.2)),
    sbase := l.sbase, ssize := l.ssize, cbase := l.cbase, csize := l.csize, share := l.share, nbar := l.nbar, gw := l.gw,
    zeroed := now + l.ssize * 64 }

/-- A group takes every resource in one step (R267). -/
def State.enrol (s : State) (lid : Nat) (l : Launch) (g : Group) (ws : List (Nat × Bool)) : State :=
  let gid := s.seq
  let s := { s.fresh with groups := sset gid g s.groups }
  let s := (s.zeroGroup g).fillBank l g.comb ws
  let s := g.units.foldl (fun s u => s.startUnit lid gid l g u) s
  ((List.range 16).filter fun k => g.cores.getLsbD k).foldl (fun s k => s.joinCore lid gid l g (coreOfComb g.comb k)) s

/-- Units of the next group of a launch. -/
def Launch.groupSize (l : Launch) : Nat := min l.gsize (min l.count ((l.next / l.step + 1) * l.step) - l.next)

/-- A non-empty set of the dies that a launch may use. -/
def Launch.dieSet (l : Launch) (pick die : Nat) : List Nat :=
  match ((List.range 4).filter fun d => l.dieMin ≤ d && d ≤ l.dieMax && (pick / 2 ^ d % 2 == 1 || d == die)) with
  | [] => [l.dieMin]
  | ds => ds

/-- GROUP_ADMIT: a comb admits the next group of a launch, or refuses it. -/
def execGroupAdmit (s : State) : Outcome :=
  match s.event with
  | .groupAdmit lid comb =>
    match sget lid s.launches with
    | none => .next s
    | some l =>
      if !l.started || l.count ≤ l.next then .next s
      else
        let p := s.pick 16
        let dies := if l.next % l.step = 0 then l.dieSet p.1 (comb / 32) else l.dies
        let size := l.groupSize
        let slots := p.2.unitSlots lid l comb
        if !dies.contains (comb / 32) || slots.length < size || !p.2.combHas l comb then .next (p.2.offerGroup lid)
        else
          match p.2.bankWords l comb with
          | (.wait st, s) =>
            .next ({ s with launches := sset lid { l with stall := st } s.launches }.later (.groupAdmit lid comb))
          | (.words ws, s) =>
            let r := s.choosePlaces slots size
            let g := groupAt lid l comb size s.now r.1
            let l' := { l with next := l.next + size, dies := dies, stall := none }
            let s := { r.2 with launches := sset lid l' r.2.launches }.enrol lid l g ws
            .next (if l'.next < l'.count then s.offerGroup lid else s)
  | _ => .next s

end Sys2Proof.Machine
end

