-- ==== Sys2Proof/Machine/Msg.lean ====
section
/-! DEFINITION. Messages between cores, calls, and the mailbox (spec/15_queue.md R312-R323). -/

namespace Sys2Proof.Machine

/-! ### The way of a message (R314, R315, R317, R320) -/

/-- The sender, if it still waits for the acceptance of its message, has the answer. -/
def State.tellSender (s : State) (m : Msg) (st : Stage) : State :=
  match m.sender with
  | .engine _ => s
  | .thread core cx =>
    let c := s.ctx core cx
    if c.generation = m.gen && c.st == .parked && c.wait == .inbound m.id && c.stage == .acted 1 then
      s.modCtx core cx fun c => { c with stage := st }
    else s

/-- A message is accepted: its sender goes on; a caller's register is marked empty under a remote-fill record (R320), which
the call then names. -/
def State.acceptMsg (s : State) (m : Msg) : Msg × State :=
  let t := s.tellSender m (.answered 0 false)
  match m.kind with
  | .call entry ret =>
    let c := t.ctx ret.core ret.cx
    if c.generation = ret.gen && c.wait == .inbound m.id then
      ({ m with kind := .call entry { ret with seq := t.seq } },
       { { t with sel := (ret.core, ret.cx) }.issueRec false ret.reg (.remote true) [] .rlx .comb with sel := t.sel })
    else (m, t)
  | _ => (m, t)

/-- A message is refused: its sender takes 0x45 with the value; the engine of a drain wake posts an entry (R392). -/
def State.refuseMsg (s : State) (m : Msg) (val : Nat) : State :=
  match m.kind with
  | .wake bc bx w => s.post bc (wakeRefused m bx w)
  | _ => s.tellSender m (.refused 0x45 (BitVec.ofNat 64 val))

/-- Whether an arriving message is for the target at all: a bound context, or an entry that is held. -/
def State.hasPlace (s : State) (m : Msg) : Bool :=
  match s.msgChan m with
  | none => false
  | some ch =>
    let call : Bool := match m.kind with | .call .. => true | _ => false
    (!call && (s.bound m.core ch).isSome) ||
      (match sget ch (s.core m.core).tasks with | some t => t.groups != [] | none => false)

/-- The network holds a message for a comb that is being halted or whose state is in a comb image (R326): where its launch is
there and not on the comb, or no group that is on the comb now has a place for it. -/
def State.heldFor (s : State) (m : Msg) : Bool :=
  s.combSaved (combOf m.core) m.launch || (!s.hasPlace m && s.images.any fun e => e.2.comb == combOf m.core)

/-- Where a message goes that reaches its core; none while its inbound queue is full, or its comb is saved for it. A message
that asks for a cause alone has its answer and goes nowhere. -/
def State.placeMsg (s : State) (m : Msg) : Option State :=
  if s.heldFor m then none
  else if !s.hasPlace m then
    some (s.refuseMsg m (match m.kind with | .call .. => 64 | _ => m.chan.toNat))
  else if m.dry then some (s.tellSender m (.answered 0 false))
  else
    match s.takable m with
    | some (x, bd, _) =>
      let a := s.acceptMsg m
      some (a.2.takeMsg a.1 x bd)
    | none =>
      if 64 ≤ (s.core m.core).inbound.length then none
      else
        let a := s.acceptMsg m
        some (a.2.modCore m.core fun k => { k with inbound := k.inbound ++ [a.1] })

/-- A message that the network has and that goes before another one. -/
def State.overtakes (s : State) (m : Msg) : Bool :=
  s.held.any (fun n => s.goesBefore n m) || s.agenda.any fun e => match e with
    | .messageArrival n => s.goesBefore n m
    | _ => false

/-- MESSAGE_ARRIVAL: in a cycle in which its core has had its slot (R318), and behind the messages that go before it. A
message that its core cannot take in is held by the network. -/
def execMessageArrival (s : State) : Outcome :=
  match s.event with
  | .messageArrival m =>
    if s.turn ≤ m.core || s.overtakes m then .next (s.later (.messageArrival m))
    else
      match s.placeMsg m with
      | some t => .next t
      | none => .next ({ s with held := s.held ++ [m] }.later (.messageRetry m.core))
  | _ => .next s

/-- MESSAGE_RETRY: the network offers one of the messages that it holds for a core again (R315). -/
def execMessageRetry (s : State) : Outcome :=
  match s.event with
  | .messageRetry core =>
    let can := s.held.filter fun m => m.core == core && !s.overtakes m
    let p := s.pick can.length
    match can[p.1]? with
    | none => .next (if s.held.any fun m => m.core == core then p.2.later (.messageRetry core) else s)
    | some m =>
      let s := p.2
      if s.turn ≤ core then .next (s.later (.messageRetry core))
      else
        match s.placeMsg m with
        | some t => .next { t with held := t.held.erase m }
        | none => .next (s.later (.messageRetry core))
  | _ => .next s

/-! ### Sending and receiving -/

/-- The first poisoned register of a list. -/
def Ctx.poisonedOf (c : Ctx) (l : List (BitVec 4)) : Option (BitVec 4) := l.find? fun r => (c.sreg r).pois

/-- The sending half of `msg` and `callat`: Release(dev), the message leaves, the thread waits until the target accepts or
refuses. -/
def State.send (s : State) (m : Msg) : Outcome :=
  match s.here.stage with
  | .answered _ _ => s.commit id
  | .refused code v => .next (s.raise code v)
  | .acted _ => .next (s.parkStage (.acted 1) s.here.wait)
  | .fresh => s.afterRelease true .dev fun s =>
      .next ((s.fresh.later (.messageArrival { m with id := s.seq, dry := s.here.vres.trapped })).parkStage (.acted 1) (.inbound s.seq))

/-- The registers of a payload: bits [63:0] of each (R362). -/
def Ctx.payload (c : Ctx) (l : List (BitVec 4)) : Vector W64 6 := Vector.ofFn fun i =>
  match l[i.toNat]? with
  | some r => c.sval64 r
  | none => 0

/-- `msg`. -/
def execMsg (g a : BitVec 4) (ch : BitVec 6) (s : State) : Outcome :=
  s.guarded g fun s =>
    let c := s.here
    match c.poisonedOf [a, 4, 5, 6, 7, 8, 9] with
    | some r => .next (s.raise 0x13 (poisVal 0 r.toNat))
    | none => s.send { id := 0, launch := c.launch, core := ((c.sval64 a).extractLsb' 0 11).toNat, chan := ch, sender := .thread s.sel.1 s.sel.2,
                       gen := c.generation, pay := c.payload [4, 5, 6, 7, 8, 9], kind := .plain }

/-- `callat`. -/
def execCallat (g d a b : BitVec 4) (s : State) : Outcome :=
  s.guarded g fun s =>
    let c := s.here
    match c.poisonedOf [a, b, 4, 5, 6, 7] with
    | some r => .next (s.raise 0x13 (poisVal 0 r.toNat))
    | none =>
      s.send { id := 0, launch := c.launch, core := ((c.sval64 a).extractLsb' 0 11).toNat, chan := 0, sender := .thread s.sel.1 s.sel.2,
               gen := c.generation, pay := c.payload [4, 5, 6, 7],
               kind := .call (c.sreg b).val
                 { core := s.sel.1, cx := s.sel.2, isV := false, reg := d, gen := c.generation } }

/-- `ret`: all 72 bits go to the caller's register. -/
def execRet (g a : BitVec 4) (s : State) : Outcome :=
  s.guarded g fun s =>
    let x := s.here.sreg a
    if x.pois then .next (s.raise 0x13 (poisVal 0 a.toNat))
    else
      match s.here.retRec with
      | none => .next (s.raise 0x45 64)
      | some t =>
        s.afterRelease true .dev fun s => s.commit fun s =>
          (s.modHere fun c => { c with retRec := none }).sendFill t (x.val.setWidth 512) false

/-- The registers that `mrecv` writes from an answer: sD the sender, s4-s9 the payload, each with the space byte of its sign
(R317, R362). -/
def Ctx.receive (c : Ctx) (d : BitVec 4) (v : W512) : Ctx :=
  (List.range 6).foldl (fun c i => c.setS (BitVec.ofNat 4 (4 + i)) (sx72 (v.extractLsb' (64 + 64 * i) 64)) false)
    (c.result d (v.extractLsb' 0 64) false)

/-- `mrecv`. -/
def execMrecv (g d : BitVec 4) (s : State) : Outcome :=
  s.guarded g fun s =>
    let core := s.sel.1
    match s.here.stage, s.here.chan with
    | .answered v _, _ => .next ((s.modHere fun c => c.receive d v).acquire core .dev).finish
    | .acted _, _ => .next (s.parkStage (.acted 1) .mrecv)
    | _, none => .next (s.raise 0x45 64)
    | _, some ch =>
      s.commitTo fun s =>
        let mine (m : Msg) : Bool := m.chan == ch && (match m.kind with | .call .. => false | _ => true)
        match (s.core core).inbound.find? mine with
        | none => s.parkStage (.acted 1) .mrecv
        | some m =>
          let s := s.modCore core fun k => { k with inbound := k.inbound.erase m }
          -- the answer stands in the stage until the bundle completes in this step
          let s := s.giveMsg core s.sel.2 m
          match s.here.stage with
          | .answered v _ => ((s.modHere fun c => c.receive d v).acquire core .dev).finish
          | _ => s.finish

/-- `chbind`. -/
def execChbind (g : BitVec 4) (ch : BitVec 6) (s : State) : Outcome :=
  s.guarded g fun s =>
    let held := (List.range 8).any fun x => x != s.sel.2 && (s.ctx s.sel.1 x).chan == some ch
    if s.sel.2 = 7 || held then .next (s.raise 0x45 (ch.setWidth 64))
    else s.commitHere fun c => { c with chan := some ch }

/-- The entry of a channel, if a group of the executor's launch holds it. -/
def State.entryOf (s : State) (ch : BitVec 6) : Option Task :=
  match sget ch.toNat (s.core s.sel.1).tasks with
  | none => none
  | some t => if t.groups.any fun g => (s.group g).map (·.launch) == some s.here.launch then some t else none

/-- Sets the priority and the blocked bit of an entry; the inbound queue is served at the end of the cycle. -/
def State.setEntry (s : State) (ch : BitVec 6) (t : Task) : State :=
  s.modCore s.sel.1 fun k => { k with tasks := sset ch.toNat t k.tasks }

/-- `tbset`. -/
def execTbset (g a : BitVec 4) (ch : BitVec 6) (s : State) : Outcome :=
  s.guarded g fun s =>
    let x := s.here.sreg a
    if x.pois then .next (s.raise 0x11 (poisVal 0 a.toNat))
    else
      match s.entryOf ch with
      | none => .next (s.raise 0x45 (ch.setWidth 64))
      | some t => s.commit fun s =>
          s.setEntry ch { t with prio := x.val.extractLsb' 0 2, blocked := x.val.getLsbD 2 }

/-- `tbclr`. -/
def execTbclr (g : BitVec 4) (ch : BitVec 6) (s : State) : Outcome :=
  s.guarded g fun s =>
    match s.entryOf ch with
    | none => .next (s.raise 0x45 (ch.setWidth 64))
    | some t => s.commit fun s => s.setEntry ch { t with blocked := false }

/-- `mbrd`, `mbrd.pop` (R322, R323): an acquire at dev scope. -/
def execMbrd (g d : BitVec 4) (p : Bool) (w : BitVec 2) (s : State) : Outcome :=
  s.guarded g fun s => s.commit fun s =>
    let core := s.sel.1
    let v : W64 := match (s.core core).mailbox with | e :: _ => e.getD w.toNat 0 | [] => 0
    let s := (s.modHere fun c => c.result d v false).acquire core .dev
    if p then
      s.modCore core fun k =>
        match k.mailbox with
        | [] => k
        | _ :: l => { k with mailbox := l, ovf := k.ovf && l != [] }
    else s

end Sys2Proof.Machine
end

