-- ==== Sys2Proof/Machine/Promise.lean ====
section
/-! DEFINITION. Promise cells: the agents' walk and actions, the PROM instructions (spec/19_promise.md). -/

namespace Sys2Proof.Machine

/-! ### Control words (R364, R365) -/

/-- State of a control word: 0 empty root, 1 full root, 2 linked, 3 reserved. -/
def ctlState (w : Nat) : Nat := w / 2 ^ 62 % 4
def ctlRank (w : Nat) : Nat := w / 2 ^ 56 % 64
def ctlLink (w : Nat) : Nat := w % 2 ^ 56
def ctlOf (st rank link : Nat) : Nat := st * 2 ^ 62 + rank * 2 ^ 56 + link

/-- The VA of the parent that a linked word names. -/
def ctlParent (w : Nat) : W64 := BitVec.ofNat 64 (ctlLink w * 16)

/-- A word that is malformed by itself. -/
def ctlBad (w : Nat) : Bool := ctlState w == 3 || (ctlState w ≤ 1 && ctlLink w != 0)

/-- A page that may hold cells (R363). -/
def cellPage (leaf : BitVec 128) : Bool := leafKind leaf == 0 && leafBit leaf 26

/-- What the permissions of an operation are on its cells (R376). -/
def PromOp.use : PromOp → Use
  | .pinit | .pfill _ | .peq => .atomic
  | .pget _ | .ptry _ | .pstat _ _ => .load

/-- The translation of a request's walk at an agent of a hive, whose walkers and fault ring serve it (R237, R365). -/
def PromReq.under (r : PromReq) (h : Nat) : Under :=
  { hive := h, ptroot := r.ptroot, asid := r.asid, user := r.user, stall := r.stall }

def PromReq.tag (r : PromReq) (reg : BitVec 4) : FillTag := { core := r.core, cx := r.cx, isV := false, reg := reg, gen := r.gen, seq := r.record }

/-! ### The walk (R371, R373) -/

/-- The place of a cell. -/
inductive CellAt where
  | ok (key : Nat)
  | bad
  | wait (stall : Option (Nat × Nat))
deriving DecidableEq, Repr

/-- A cell as an agent of a hive finds it, its control word unpoisoned. -/
def State.cellAt (s : State) (r : PromReq) (h : Nat) (va : W64) : CellAt × State :=
  match s.engineAddr (r.under h) (mkVA 0 va) r.op.use with
  | (.ok l, s) =>
    if !cellPage l.leaf then (.bad, s)
    else if s.stalled l || s.marked (.promise 0) l 16 then (.wait none, s)
    else if (s.readHome (.promise 0) { l with key := l.key + 8 } 8).2.1 then (.bad, s)
    else (.ok l.key, s)
  | (.bad _, s) => (.bad, s)
  | (.wait st, s) => (.wait st, s)

/-- The hive of the agent that keeps a cell. -/
def State.agentHive (s : State) (key : Nat) : Nat := s.homeOf key / 1152

/-- What a walk ends with: the root, its place and the links followed; or the malformed cell. -/
inductive Walked where
  | found (va : W64) (key len : Nat)
  | fail (va : W64)
  | wait (stall : Option (Nat × Nat))
deriving DecidableEq, Repr

/-- The control word at a place, over the compressions that the walk has made so far. -/
def State.ctlAt (s : State) (done : List (Nat × Nat)) (key : Nat) : Nat :=
  match done.find? fun d => d.1 == key with
  | some d => d.2
  | none => s.rd (key + 8) 8

/-- Walk from a cell whose place is known; the compressions are collected. -/
def State.walkCell (s : State) (r : PromReq) (va : W64) (key len : Nat) (done : List (Nat × Nat)) :
    Nat → Walked × List (Nat × Nat) × State
  | 0 => (.fail va, done, s)
  | fuel + 1 =>
    let w := s.ctlAt done key
    if ctlBad w then (.fail va, done, s)
    else if ctlState w != 2 then (.found va key len, done, s)
    else
      let p := ctlParent w
      match s.cellAt r (s.agentHive key) p with
      | (.bad, s) => (.fail va, done, s)
      | (.wait st, s) => (.wait st, done, s)
      | (.ok pk, s) =>
        if len = 4096 then (.fail va, done, s)
        else
          let wp := s.ctlAt done pk
          if ctlBad wp then (.fail p, done, s)
          else if ctlState wp != 2 then State.walkCell s r p pk (len + 1) done fuel
          else
            match s.cellAt r (s.agentHive pk) (ctlParent wp) with
            | (.bad, s) => (.fail p, done, s)
            | (.wait st, s) => (.wait st, done, s)
            | (.ok qk, s) =>
              if len = 4095 then (.fail p, done, s)
              else
                State.walkCell s r (ctlParent wp) qk (len + 2)
                  ((key, w - ctlLink w + ctlLink wp) :: done.filter (fun d => d.1 != key)) fuel

/-- Walk from the VA of a cell, which the issuing core's hive has translated. -/
def State.walkFromCell (s : State) (r : PromReq) (va : W64) (done : List (Nat × Nat)) : Walked × List (Nat × Nat) × State :=
  match s.cellAt r (hiveOf r.core) va with
  | (.ok key, s) => s.walkCell r va key 0 done 4098
  | (.bad, s) => (.fail va, done, s)
  | (.wait st, s) => (.wait st, done, s)

/-- An agent's write of a word: monitors hear of it (R295), and a sector of a taken-over slice comes back (R449). -/
def State.agentPut (s : State) (key v : Nat) : State := ((s.relight key 8).wr key 8 v).wakeSectors key 8

/-- The compressions of a walk are written. -/
def State.compress (s : State) (done : List (Nat × Nat)) : State := done.foldl (fun s d => s.agentPut (d.1 + 8) d.2) s

/-! ### Answers -/

/-- An answer to a thread that waits in its bundle. -/
def State.promAnswer (s : State) (r : PromReq) (st : Stage) : State :=
  let c := s.ctx r.core r.cx
  let waits : Bool := match c.wait with | .answer | .promise _ _ _ => true | _ => false
  if c.generation = r.gen && c.st == .parked && waits && c.stage == .acted 1 then
    s.modCtx r.core r.cx fun c => { c with stage := st }
  else s

/-- A 64-bit value as a remote fill carries it (R98). -/
def fillOf (x : Nat) : W512 := (sx72 (BitVec.ofNat 64 x)).setWidth 512

/-- Wakes the waiters of a root with a value (R372). -/
def State.wakeRoot (s : State) (key v : Nat) (pois : Bool) : State :=
  (s.promises.filter fun w => w.cell == key).foldl (fun s w => s.sendFill w.tag (fillOf v) pois)
    { s with promises := s.promises.filter fun w => w.cell != key }

/-- The thread of a `pget` that fails: its record is withdrawn, and it wakes with the cause. -/
def PromReq.failGet (r : PromReq) (reg : BitVec 4) (code : Byte) (va : W64) (c : Ctx) : Ctx :=
  if c.generation = r.gen && c.st == .parked then
    let recs := c.recs.filter fun k => k.seq != r.record
    let more := recs.any fun k => !k.isV && k.reg == reg
    { c with recs := recs, stage := .refused code va }.markS reg (r.wasFull || (r.hadRec && !more))
  else c

/-- A thread that a comb image holds changes. -/
def State.modSaved (s : State) (core cx : Nat) (f : Ctx → Ctx) : State :=
  let on (k : Nat × Core) : Nat × Core :=
    if k.1 = core then (k.1, { k.2 with ctxs := k.2.ctxs.set (cx % 8) (f (k.2.ctxs[cx % 8]'(Nat.mod_lt _ (by decide)))) (Nat.mod_lt _ (by decide)) })
    else k
  { s with images := s.images.map fun e => (e.1, { e.2 with cores := e.2.cores.map on }) }

/-- A request that fails with a cause (R376); a thread that has been saved meanwhile has it when it is back. -/
def State.promFail (s : State) (r : PromReq) (code : Byte) (va : W64) : State :=
  match r.op with
  | .ptry reg | .pstat reg _ => s.sendFill (r.tag reg) 0 true
  | .pget reg =>
    if r.dry then s.promAnswer r (.refused code va)
    else (s.modCtx r.core r.cx (r.failGet reg code va)).modSaved r.core r.cx (r.failGet reg code va)
  | _ => s.promAnswer r (.refused code va)

/-! ### Actions (R370, R374, R377, R381) -/

/-- A root becomes full with a value; its waiters wake. -/
def State.fillRoot (s : State) (key v : Nat) (pois : Bool) : State :=
  let w := s.rd (key + 8) 8
  let s := (s.agentPut key v).agentPut (key + 8) (ctlOf 1 (ctlRank w) 0)
  (if pois then { s with mem := s.mem.spoilAll ((List.range 8).map fun i => key + i) } else s).wakeRoot key v pois

/-- The cause of a `peq` at two roots: both are full, of different values. -/
def State.rootsDiffer (s : State) (ka kb : Nat) : Bool :=
  ctlState (s.rd (ka + 8) 8) = 1 && ctlState (s.rd (kb + 8) 8) = 1 && s.rd ka 8 != s.rd kb 8

/-- The cause of a `pfill` at a root: it is full, of another value. -/
def State.rootHolds (s : State) (key : Nat) (v : W64) : Bool :=
  ctlState (s.rd (key + 8) 8) = 1 && !(s.rd key 8 = v.toNat && !s.mem.poisoned key 8)

/-- The answer to a request that asks for its own cause alone, at its root. -/
def State.promTest (s : State) (r : PromReq) (bad : Bool) : State :=
  s.promAnswer r (if bad then .refused 0x40 r.a else .answered 0 false)

/-- The root that becomes linked (R370): whether it is the first. -/
def firstLoses (ra rb : Nat) (va vb : W64) : Bool :=
  if ra < rb then true else if rb < ra then false else vb.toNat < va.toNat

/-- `peq` at two distinct roots. -/
def State.linkRoots (s : State) (r : PromReq) (va : W64) (ka : Nat) (vb : W64) (kb : Nat) : State :=
  let wa := s.rd (ka + 8) 8
  let wb := s.rd (kb + 8) 8
  let xa := s.rd ka 8
  let xb := s.rd kb 8
  let pa := s.mem.poisoned ka 8
  let pb := s.mem.poisoned kb 8
  if s.rootsDiffer ka kb then s.promFail r 0x40 r.a
  else
    let fa := firstLoses (ctlRank wa) (ctlRank wb) va vb
    let lose := if fa then (ka, wa) else (kb, wb)
    let win := if fa then (kb, wb, vb) else (ka, wa, va)
    let rank := if ctlRank wa = ctlRank wb then min 63 (ctlRank wa + 1) else ctlRank win.2.1
    let s := s.agentPut (lose.1 + 8) (ctlOf 2 (ctlRank lose.2) (win.2.2.toNat / 16))
    let s := s.agentPut (win.1 + 8) (ctlOf (ctlState win.2.1) rank 0)
    let s : State := { s with promises := s.promises.map fun (w : PromWaiter) => if w.cell = lose.1 then { w with cell := win.1 } else w }
    let s :=
      if ctlState wa = 1 && ctlState wb = 0 then s.fillRoot win.1 xa pa
      else if ctlState wb = 1 && ctlState wa = 0 then s.fillRoot win.1 xb pb
      else s
    s.promAnswer r (.answered 0 false)

/-- The action of a request at its root. -/
def State.promAct (s : State) (r : PromReq) (va : W64) (key len : Nat) : State :=
  let w := s.rd (key + 8) 8
  let full := ctlState w = 1
  match r.op with
  | .pinit | .peq => s
  | .pfill v =>
    if !full then (s.fillRoot key v.toNat false).promAnswer r (.answered 0 false)
    else if s.rootHolds key v then s.promFail r 0x40 r.a
    else s.promAnswer r (.answered 0 false)
  | .pget reg =>
    if full then s.sendFill (r.tag reg) (fillOf (s.rd key 8)) (s.mem.poisoned key 8)
    else { s with promises := s.promises ++ [{ core := r.core, cx := r.cx, cell := key, tag := r.tag reg }] }
  | .ptry reg => s.sendFill (r.tag reg) (fillOf (if full then 1 else 0)) false
  | .pstat reg f =>
    let x := match f.toNat with
      | 0 => 0
      | 1 => va.toNat
      | 2 => ctlState w * 2 ^ 62 + ctlRank w * 2 ^ 56 + min (2 ^ 32 - 1) (s.promises.filter fun p => p.cell == key).length
      | _ => len
    s.sendFill (r.tag reg) (fillOf x) false

/-- PROMISE_REQUEST: an agent acts on a request, as one action, or the walk waits. -/
def execPromiseRequest (s : State) : Outcome :=
  match s.event with
  | .promiseRequest q =>
    match sget q s.promReqs with
    | none => .next s
    | some r =>
      let gone (s : State) : State := { s with promReqs := sdel q s.promReqs }
      let again (s : State) (st : Option (Nat × Nat)) : Outcome :=
        .next ({ s with promReqs := sset q { r with stall := st } s.promReqs }.later (.promiseRequest q))
      match r.op with
      | .pinit =>
        match s.engineAddr (r.under (hiveOf r.core)) (mkVA 0 r.a) .atomic with
        | (.wait st, s) => again s st
        | (.bad _, s) => .next (gone (s.promFail r 0x47 r.a))
        | (.ok l, s) =>
          if s.stalled l || s.marked (.promise 0) l 16 then again s none
          else if r.dry then .next (gone (s.promTest r false))
          else .next (gone ((((s.agentPut l.key 0).agentPut (l.key + 8) 0).wakeRoot l.key 0 true).promAnswer r (.answered 0 false)))
      | _ =>
        match s.walkFromCell r r.a [] with
        | (.wait st, _, s) => again s st
        | (.fail va, done, s) => .next (gone ((if r.dry then s else s.compress done).promFail r 0x47 va))
        | (.found va ka len, done, s) =>
          match r.op with
          | .peq =>
            match s.walkFromCell r r.b done with
            | (.wait st, _, s) => again s st
            | (.fail vb, done, s) => .next (gone ((if r.dry then s else s.compress done).promFail r 0x47 vb))
            | (.found vb kb _, done, s) =>
              if r.dry then .next (gone (s.promTest r (ka != kb && s.rootsDiffer ka kb)))
              else
              let s := s.compress done
              .next (gone (if ka = kb then s.promAnswer r (.answered 0 false) else s.linkRoots r va ka vb kb))
          | .pstat reg 0 =>
            match s.cellAt r (hiveOf r.core) r.a with
            | (.ok key, t) => .next (gone ((t.compress done).sendFill (r.tag reg) (fillOf (t.ctlAt done key)) false))
            | (_, t) => again t none
          | op =>
            if r.dry then
              .next (gone (s.promTest r (match op with | .pfill v => s.rootHolds ka v | _ => false)))
            else .next (gone ((s.compress done).promAct r va ka len))
  | _ => .next s

/-! ### The PROM instructions (R375, R376) -/

/-- The checks of R363 on a cell operand of an access of a kind: its leaf, or the state in which the bundle has trapped or
waits. -/
def State.cellCheck (s : State) (k : Access) (va : W72) : Option (BitVec 128) × State :=
  let core := s.sel.1
  let cx := s.sel.2
  if misaligned va 16 then (none, s.raise 0x24 (lo64 va))
  else if spaceOf va != 0 || 2 ^ 60 ≤ (lo64 va).toNat then (none, s.raise 0x29 (lo64 va))
  else
    match s.tlbLook core (s.here.asid) va with
    | some e => if cellPage e.leaf then (some e.leaf, s) else (none, s.raise 0x29 (lo64 va))
    | none =>
      match s.translate core cx va k with
      | (.trap code v, s) => (none, s.raise code v)
      | (.park w, s) => (none, s.parkReplay w)
      | (.ok _, s) => (none, s)

/-- All cells pass R363 and then the permissions; none where the bundle has trapped or waits. -/
def State.cellsOk (s : State) (k : Access) : List W72 → Bool → Bool × State
  | [], _ => (true, s)
  | va :: l, false =>
    match s.cellCheck k va with
    | (none, s) => (false, s)
    | (some _, s) => State.cellsOk s k l false
  | va :: l, true =>
    match s.translate s.sel.1 s.sel.2 va k with
    | (.trap code v, s) => (false, s.raise code v)
    | (.park w, s) => (false, s.parkReplay w)
    | (.ok p, s) =>
      match s.pageChecks p .load with
      | (.trap code v, s) => (false, s.raise code v)
      | (.park w, s) => (false, s.parkReplay w)
      | (.ok _, s) => State.cellsOk s k l true

/-- An earlier PROM instruction of a thread has no answer yet: a request, or a fill that is its answer (R369, R374). -/
def State.unanswered (s : State) (core cx : Nat) (c : Ctx) : Bool :=
  (s.promReqs.any fun q => q.2.core == core && q.2.cx == cx && q.2.gen == c.generation) ||
    c.recs.any fun r => r.op == RecOp.remote false && !r.isV

/-- The issue of a PROM form up to its request: the answer of an earlier one, before which it does not issue (R369), poison,
checks, Release(dev). -/
def State.promForm (s : State) (g : BitVec 4) (cells : List (BitVec 4)) (extra : Option (BitVec 4)) (rel : Bool) (k : Access)
    (go : State → PromReq → Outcome) (op : Ctx → PromOp) (acq : Bool) : Outcome :=
  s.guarded g fun s =>
    let c := s.here
    match c.stage with
    | .answered _ _ => s.commit fun s => if acq then s.acquire s.sel.1 .dev else s
    | .refused code v => .next (s.raise code v)
    | .acted _ =>
      -- a `pget` whose fill has come, or a wait that goes on
      match c.wait with
      | .promise reg full under =>
        if c.recs.any fun k => k.op == RecOp.remote false && !k.isV && k.reg == reg then
          .next (s.parkStage (.acted 1) (.promise reg full under))
        else .next (s.acquire s.sel.1 .dev).finish
      | w => .next (s.parkStage (.acted 1) w)
    | .fresh =>
      if s.unanswered s.sel.1 s.sel.2 c then .next (s.parkReplay .request)
      else
      match cells.find? fun r => (c.sreg r).pois with
      | some r => .next (s.raise 0x10 (poisVal 0 r.toNat))
      | none =>
        match extra.bind fun r => if (c.sreg r).pois then some r else none with
        | some r => .next (s.raise 0x11 (poisVal 0 r.toNat))
        | none =>
          let vas := cells.map fun r => (c.sreg r).val
          match s.cellsOk k vas false with
          | (false, s) => .next s
          | (true, s) =>
            match s.cellsOk k vas true with
            | (false, s) => .next s
            | (true, s) =>
              s.afterRelease rel .dev fun s =>
                let va (i : Nat) : W64 := lo64 (vas.getD i 0)
                go s { op := op c, core := s.sel.1, cx := s.sel.2, gen := c.generation, ptroot := c.ptroot, asid := c.asid,
                       user := !c.priv, a := va 0, b := va 1, dry := c.vres.trapped }

/-- A request goes to the agents. -/
def State.promSend (s : State) (r : PromReq) : State :=
  { s.fresh with promReqs := sset s.seq r s.promReqs }.later (.promiseRequest s.seq)

/-- A form whose bundle waits for the answer. -/
def promWait (s : State) (r : PromReq) : Outcome := .next ((s.promSend r).parkStage (.acted 1) .answer)

/-- `pinit`. -/
def execPinit (g a : BitVec 4) (s : State) : Outcome :=
  s.promForm g [a] none true .atomic promWait (fun _ => .pinit) false
/-- `pfill`. -/
def execPfill (g a b : BitVec 4) (s : State) : Outcome :=
  s.promForm g [a] (some b) true .atomic promWait (fun c => .pfill (c.sval64 b)) false
/-- `peq`. -/
def execPeq (g a b : BitVec 4) (s : State) : Outcome :=
  s.promForm g [a, b] none true .atomic promWait (fun _ => .peq) true
/-- `pget`: the record of its fill is taken as it leaves. -/
def execPget (g d a : BitVec 4) (s : State) : Outcome :=
  s.promForm g [a] none false .load
    (fun s r =>
      if r.dry then promWait s r
      else
      s.commitTo fun s =>
      let c := s.here
      let r := { r with record := s.seq, wasFull := (c.sreg d).full, hadRec := c.recs.any fun k => !k.isV && k.reg == d }
      ((s.issueRec false d (.remote false) [] .rlx .comb).promSend r).parkStage (.acted 1)
        (.promise d r.wasFull r.hadRec))
    (fun _ => .pget d) false
/-- A get that goes on. -/
def State.promTry (s : State) (g d a : BitVec 4) (op : PromOp) : Outcome :=
  s.promForm g [a] none false .load
    (fun s r => s.commit fun s => (s.issueRec false d (.remote false) [] .rlx .comb).promSend { r with record := s.seq })
    (fun _ => op) false
/-- `ptry`. -/
def execPtry (g d a : BitVec 4) (s : State) : Outcome := s.promTry g d a (.ptry d)
/-- `pstat`. -/
def execPstat (g d a : BitVec 4) (f : BitVec 2) (s : State) : Outcome := s.promTry g d a (.pstat d f)

end Sys2Proof.Machine
end

