-- ==== Sys2Proof/Machine/Tile.lean ====
section
/-! DEFINITION. The matrix engine, its commands, its drains and the licence instructions (spec/21_tile.md,
spec/04_numbers.md R91-R94, spec/03_encoding.md R64-R67). -/

namespace Sys2Proof.Machine

/-! ### Arithmetic of a k-block (R88-R93, R385-R387) -/

/-- The words of a block at a memory key. -/
def State.blockWords (s : State) (key : Nat) : Block := fun i => BitVec.ofNat 32 (s.rd (key + 4 * i) 4)

/-- The words that a k-step reads as they were before a write, by free choice (R388). -/
def State.chooseOld (s : State) (seen : List (Nat × W32)) : List Nat → List (Nat × W32) × State
  | [] => ([], s)
  | a :: l =>
    let vs := (seen.filter fun e => e.1 == a).map (·.2)
    let p := s.pick (vs.length + 1)
    let r := State.chooseOld p.2 seen l
    match vs[p.1]? with
    | some v => ((a, v) :: r.1, r.2)
    | none => r

/-- The words of a block of which some are read as they were. -/
def State.oldWords (s : State) (old : List (Nat × W32)) (key : Nat) : Block := fun i =>
  match old.find? fun e => e.1 == key + 4 * i with
  | some e => e.2
  | none => s.blockWords key i

/-- A block that the engine treats as bad at declared planes m and precision d. -/
def badBlock (b : Block) (m d : Nat) : Bool := badHeader (b 0) || blockM b != m || blockM b < d

/-- The NaN flag of an element: one that is read has E = 255. -/
def blockSpecial (b : Block) : Bool := (List.range 32).any fun k => blockE b k == 255

/-- The signed sum of products over the elements of two blocks with given selectors. -/
def blockSum (a b : Block) (da db : Nat) (sa sb : Bool) : Int :=
  (List.range 32).foldl
    (fun n k =>
      if (a 1).getLsbD k = sa ∧ (b 1).getLsbD k = sb then
        let p : Int := blockMag a k da * blockMag b k db
        if blockSign a k != blockSign b k then n - p else n + p
      else n) 0

/-- n × 2^x rounded to an integer, ties to even. -/
def roundScaled (n : Int) (x : Int) : Int :=
  if 0 ≤ x then n * 2 ^ x.toNat
  else
    let r := (roundInt .rne (decide (n < 0)) n.natAbs (-x).toNat false).1
    if n < 0 then -(r : Int) else r

/-- The contribution of a pair of blocks in units of the accumulator (R92). -/
def contribution (a b : Block) (da db : Nat) (anchor : Byte) : Int :=
  let e (w : Block) (s : Bool) : Int := ((if s then (w 0).extractLsb' 24 8 else (w 0).extractLsb' 16 8).toNat : Nat)
  let grid : Int := (anchor.toNat : Int) - 127 - 96
  let part (sa sb : Bool) : Int × Int :=
    (blockSum a b da db sa sb, e a sa + e b sb - 254 - (da - 1 : Nat) - (db - 1 : Nat) - grid)
  let ps := [part false false, part false true, part true false, part true true]
  let low := ps.foldl (fun m p => min m p.2) (part false false).2
  roundScaled (ps.foldl (fun n p => n + p.1 * 2 ^ (p.2 - low).toNat) 0) low

/-- An accumulator after a contribution (R92, R93). -/
def Acc.add (x : Acc) (c : Int) : Acc :=
  let t := x.val.toInt + c
  { x with val := BitVec.ofInt 128 t, ovf := x.ovf || t < -(2 ^ 127) || 2 ^ 127 ≤ t }

/-- The accumulators that are not zero without flags, by 64 i + j. -/
def packAccs (f : Nat → Acc) : Sparse Acc :=
  (List.range 4096).filterMap fun n => if f n = {} then none else some (n, f n)

/-- One k-block applied to all outputs, with some operand words as they were: the sum of a pair takes its contribution
whatever flags it sets (R92, R93); one with a bad block has none (log 31). -/
def State.applyBlock (s : State) (old : List (Nat × W32)) (e : Nat) (a b : Nat) (da db q : Nat) : State :=
  let g := s.eng e
  let at_ (o : Nat) : Block := s.oldWords old (scratchKey e o)
  let ma := blockM (at_ a)
  let mb := blockM (at_ b)
  let rowBlock (i : Nat) : Block := at_ (a + (64 * q + i) * (4 * (ma + 3)))
  let colBlock (j : Nat) : Block := at_ (b + (64 * q + j) * (4 * (mb + 3)))
  let badA (i : Nat) : Bool := badBlock (rowBlock i) ma da
  let badB (j : Nat) : Bool := badBlock (colBlock j) mb db
  let one (n : Nat) : Acc :=
    let i := n / 64
    let j := n % 64
    let x := (sget n g.accs).getD {}
    if badA i || badB j then { x with nan := true }
    else
      let y := x.add (contribution (rowBlock i) (colBlock j) da db g.anchor)
      { y with nan := y.nan || blockSpecial (rowBlock i) || blockSpecial (colBlock j) }
  s.modEng e fun g =>
    { g with accs := packAccs one, bad := g.bad || (List.range 64).any badA || (List.range 64).any badB }

/-! ### Drains (R94, R391) -/

/-- The value of an accumulator as it drains. -/
def Acc.value (x : Acc) (anchor : Byte) : FVal :=
  let neg := x.val.toInt < 0
  if x.nan then .nan false 0
  else if x.ovf then .inf (decide neg)
  else .num (decide neg) x.val.toInt.natAbs ((anchor.toNat : Int) - 127 - 96)

/-- The element of a drain in a floating-point format. -/
def drainBits (f : Fmt) (v : FVal) : Nat :=
  match v with
  | .nan _ _ => f.infBits + f.quietBit
  | .num _ 0 _ => 0
  | v => (f.roundVal ⟨.rne, false, false⟩ v).bits

/-- The element of a drain as PackBlock takes it (R94). -/
def drainPack (v : FVal) : PackIn :=
  match v with
  | .num _ m e =>
    let x : Int := (m.log2 : Nat) + e + 127
    ⟨v, if x < 1 then 1 else if 254 < x then 254 else x.toNat⟩
  | _ => ⟨v, 255⟩

/-- The 4-byte words of a drain in address order, by format code. -/
def Engine.drainWords (g : Engine) (fmt : Nat) : List W32 :=
  let v (n : Nat) : FVal := ((sget n g.accs).getD {}).value g.anchor
  let half (f : Fmt) : List W32 := (List.range 2048).map fun k =>
    BitVec.ofNat 32 (drainBits f (v (2 * k)) + 2 ^ 16 * drainBits f (v (2 * k + 1)))
  let blocks (m : Nat) : List W32 := (List.range 128).flatMap fun b =>
    packBlock m g.delta.toNat ((List.range 32).map fun k => drainPack (v (32 * b + k)))
  match fmt with
  | 0 => (List.range 4096).map fun n => BitVec.ofNat 32 (drainBits fp32 (v n))
  | 1 => half fp16
  | 2 => half bf16
  | 3 => blocks 8
  | 4 => blocks 4
  | _ => blocks 2

/-- Bytes of a drain. -/
def drainSize (fmt : Nat) : Nat :=
  match fmt with
  | 0 => 16384
  | 1 | 2 => 8192
  | 3 => 5632
  | 4 => 3584
  | _ => 2560

/-! ### Commands on their way (R395, R398) -/

/-- A rejected command: its sender's mailbox entry, and the cause in the sender's context while it is there. -/
def State.rejectCmd (s : State) (e : Nat) (c : Cmd) (cause : Byte) : State :=
  let s := s.cmdDone c
  let s := s.post c.core
    #v[BitVec.ofNat 64 (3 + c.cx * 2 ^ 8 + e * 2 ^ 11), cause.setWidth 64, c.word.extractLsb' 192 64, c.word.extractLsb' 128 64]
  if (s.ctx c.core c.cx).generation = c.gen && (s.ctx c.core c.cx).st != .free then
    s.raiseAsync c.core c.cx cause
      (BitVec.ofNat 64 (e + (c.word.extractLsb' 248 8).toNat * 2 ^ 16 + (c.word.extractLsb' 200 16).toNat * 2 ^ 24))
  else s

/-- The key that an engine compares with: a write of `mcapk` counts from the next cycle on (R400). -/
def State.keyNow (s : State) (e : Nat) : W32 :=
  match (s.core e).oldKey with
  | some (t, k) => if t = s.now then k else (s.core e).mcapk
  | none => (s.core e).mcapk

/-- COMMAND_ACCEPT: the oldest command on its way to an engine is checked and queued, or rejected (R66). -/
def execCommandAccept (s : State) : Outcome :=
  match s.event with
  | .commandAccept e =>
    match s.cmds.find? fun c => c.1 == e with
    | none => .next s
    | some (_, c) =>
      if s.combSaved (combOf e) c.launch || 2 ≤ (s.eng e).queue.length then .next (s.later (.commandAccept e))
      else
        let s := { s with cmds := s.cmds.erase (e, c) }
        if tileTag c.word != s.keyNow e then .next (s.rejectCmd e c 0x51)
        else
          match decodeTile e c.word with
          | .error cause => .next (s.rejectCmd e c cause)
          | .ok _ => .next (s.modEng e fun g => { g with queue := g.queue ++ [c] })
  | _ => .next s

/-- `mcmd`. -/
def execMcmd (g a b : BitVec 4) (s : State) : Outcome :=
  s.guarded g fun s =>
    let c := s.here
    let x := c.sreg a
    let v := c.vreg b
    let e := ((lo64 x.val).extractLsb' 0 11).toNat
    if x.pois then .next (s.raise 0x13 (poisVal 0 a.toNat))
    else if v.pois then .next (s.raise 0x13 (poisVal 1 b.toNat))
    else if !s.usesMatrix c.launch then .next (s.raise 0x50 0)
    else
      s.afterRelease true .dev fun s =>
        let full := 2 ≤ (s.eng e).queue.length + (s.cmds.filter fun c => c.1 == e).length
        if c.tiles = 255 || full || s.combSaved (combOf e) c.launch then .next (s.parkReplay (.engineSpace e))
        else s.commit fun s =>
          let m : Cmd := { word := v.val.extractLsb' 0 256, core := s.sel.1, cx := s.sel.2, gen := c.generation,
                           launch := c.launch, delta := c.delta }
          ({ s with cmds := s.cmds ++ [(e, m)] }.modHere fun c => { c with tiles := c.tiles + 1 }).later (.commandAccept e)

/-- The status word of an engine (R399). -/
def State.engineStatus (s : State) (e : Nat) : W64 :=
  let g := s.eng e
  let l := s.lic (pairOf e)
  let b (x : Bool) (n : Nat) : Nat := if x then 2 ^ n else 0
  let st := match g.chain with | .idle => 0 | .opened => 1 | .closed => 2
  BitVec.ofNat 64 (g.id.toNat * 2 ^ 48 + st * 2 ^ 46 + b (g.accs.any fun x => x.2.ovf) 45 + b (g.accs.any fun x => x.2.nan) 44 +
    b g.bad 43 + g.queue.length % 4 * 2 ^ 41 + b (l.holder == some e) 40 + b (l.holder == some (twinOf e)) 39 +
    b (l.holder.isSome && l.excl) 38 + b (s.requests e) 37 + b (s.requests (twinOf e)) 36)

/-- `mfin`. -/
def execMfin (g d a : BitVec 4) (s : State) : Outcome :=
  s.guarded g fun s =>
    let x := s.here.sreg a
    if x.pois then .next (s.raise 0x13 (poisVal 0 a.toNat))
    else if s.here.tiles != 0 then .next (s.parkReplay .engineDone)
    else s.commit fun s =>
      let v := s.engineStatus ((lo64 x.val).extractLsb' 0 11).toNat
      (s.modHere fun c => c.result d v false).acquire s.sel.1 .dev

/-! ### Commands at the head of the queue (R389, R396, R407) -/

/-- The command at the head is complete. -/
def State.popCmd (s : State) (e : Nat) (c : Cmd) : State :=
  (s.modEng e fun g => { g with queue := g.queue.tail }).cmdDone c

/-- The command at the head is rejected. -/
def State.rejectHead (s : State) (e : Nat) (c : Cmd) (cause : Byte) : State :=
  ((s.modEng e fun g => { g with queue := g.queue.tail }).rejectCmd e c cause)

/-- The common course of a command at the head of an engine's queue: its extents, which are checked once (R395), the licence,
the chain. A command that is not at the head, or that has begun, is left alone, and so is one behind a k-step that an engine still
finishes after its reset (R410). -/
def State.tileForm (s : State) (e : Nat) (i : Instr) (fits : Bool) (allowed : Engine → Bool) (k : State → Cmd → State) :
    Outcome :=
  match (s.eng e).queue with
  | [] => .next s
  | c :: _ =>
    match decodeTile e c.word with
    | .error _ => .next s
    | .ok j =>
      if j != i || c.begun || s.halts e || (s.eng e).run.any (·.dead) then .next s
      else if !c.checked && !fits then .next (s.rejectHead e c 0x53)
      else if !s.licensed e then
        .next (if s.requests e then s.modEng e fun g => { g with queue := { c with checked := true } :: g.queue.tail }
          else s.rejectHead e c 0x50)
      else if !allowed (s.eng e) then .next (s.rejectHead e c 0x52)
      else .next (k (s.modEng e fun g => { g with ended := false }) c)

/-- The chain of that id is Open. -/
def Engine.isOpen (g : Engine) (chain : W16) : Bool := g.chain == .opened && g.id == chain

/-- `mbegin`. -/
def execMbegin (e : Nat) (tag : W32) (chain : W16) (anchor : Byte) (s : State) : Outcome :=
  s.tileForm e (.mbegin e tag chain anchor) true (fun g => g.chain != .opened) fun s c =>
    (s.modEng e fun g => { g with chain := .opened, id := chain, owner := c.launch, delta := c.delta, anchor := anchor,
                                  accs := [], bad := false }).popCmd e c

/-- `mzero`. -/
def execMzero (e : Nat) (tag : W32) (chain : W16) (s : State) : Outcome :=
  s.tileForm e (.mzero e tag chain) true (·.isOpen chain) fun s c => (s.modEng e fun g => { g with accs := [] }).popCmd e c

/-- `mend`: a hand-over may follow at once (R403). -/
def execMend (e : Nat) (tag : W32) (chain : W16) (s : State) : Outcome :=
  s.tileForm e (.mend e tag chain) true (·.isOpen chain) fun s c =>
    let s := (s.modEng e fun g => { g with chain := .closed, ended := true }).popCmd e c
    { s with due := s.due ++ [.coopHandover (pairOf e)] }

/-- The operands of an `mstep` lie in the scratchpad (R395). -/
def State.stepFits (s : State) (e a b n : Nat) : Bool :=
  let span (o : Nat) : Nat := o + 64 * n * (4 * (blockM (s.blockWords (scratchKey e o)) + 3))
  a < 2 ^ 18 && b < 2 ^ 18 && span a ≤ 2 ^ 18 && span b ≤ 2 ^ 18

/-- `mstep`: its k-steps begin. -/
def execMstep (e : Nat) (tag : W32) (chain : W16) (a b : BitVec 24) (n : BitVec 12) (da db : BitVec 4) (s : State) :
    Outcome :=
  s.tileForm e (.mstep e tag chain a b n da db) (s.stepFits e a.toNat b.toNat n.toNat) (·.isOpen chain) fun s c =>
    s.modEng e fun g => { g with queue := { c with begun := true, left := List.range n.toNat } :: g.queue.tail }

/-- `mdrain`: the conversion and its writes begin. -/
def execMdrain (e : Nat) (tag : W32) (chain : W16) (dest : BitVec 12) (o : BitVec 24) (w : BitVec 6) (f : BitVec 4)
    (s : State) : Outcome :=
  s.tileForm e (.mdrain e tag chain dest o w f) (o.toNat + drainSize f.toNat ≤ 2 ^ 18)
    (fun g => g.chain != .idle && g.id == chain) fun s c =>
      (s.modEng e fun g => { g with queue := { c with begun := true } :: g.queue.tail }).later (.drainComplete e)

/-- The writes of a drain leave. -/
def State.drainWrites (s : State) (e dest o : Nat) : List W32 → State
  | [] => s
  | w :: l =>
    let key := scratchKey dest o
    let loc : Loc := { win := .combScratch, key := key, va := mkVA 0xF0 (BitVec.ofNat 64 o), leaf := 0 }
    State.drainWrites (s.engineWrite (.engine e) loc 4 (cellsOf key w.toNat 4) []) e dest (o + 4) l

/-- DRAIN_COMPLETE: a drain whose core holds the licence and whose destination comb is there writes; once every write is
acknowledged, its wake leaves, the command is complete, and the licence may leave (R24, R392, R393). -/
def execDrainComplete (s : State) : Outcome :=
  match s.event with
  | .drainComplete e =>
    match (s.eng e).queue with
    | [] => .next s
    | c :: _ =>
      match decodeTile e c.word with
      | .ok (.mdrain _ _ chain dest o w f) =>
        let g := s.eng e
        if !c.begun then .next s
        else if c.first = 0 then
          if s.combSaved (combOf dest.toNat) c.launch || s.halts e || (s.lic (pairOf e)).holder != some e then
            .next (s.later (.drainComplete e))
          else
            let t := s.modEng e fun g => { g with queue := { c with first := s.seq } :: g.queue.tail }
            .next ((t.drainWrites e dest.toNat o.toNat (g.drainWords f.toNat)).later (.drainComplete e))
        -- a drain that its comb's halt has stopped goes on when the licence is back (R24, R409)
        else if (s.lic (pairOf e)).holder != some e || s.flights.any fun x => x.by_ == .engine e then
          .next (s.later (.drainComplete e))
        else
          let counts := (g.accs.filter fun x => x.2.ovf).length + 2 ^ 16 * (g.accs.filter fun x => x.2.nan).length
          let m : Msg := { id := s.seq, launch := c.launch, core := dest.toNat, chan := w, sender := .engine e, gen := 0,
                           pay := #v[chain.setWidth 64, BitVec.ofNat 64 e, o.setWidth 64, f.setWidth 64, BitVec.ofNat 64 counts, 0],
                           kind := .wake c.core c.cx (c.word.extractLsb' 128 128) }
          .next (((s.fresh.popCmd e c).settleLic e).later (.messageArrival m))
      | _ => .next s
  | _ => .next s

/-- An `mstep`'s operands: A, B, da, db. -/
def Cmd.stepArgs (c : Cmd) : Option (Nat × Nat × Nat × Nat) :=
  match decodeTile 0 c.word with
  | .ok (.mstep _ _ _ a b _ da db) => some (a.toNat, b.toNat, da.toNat, db.toNat)
  | _ => none

/-- The place in the queue of the command that a k-step belongs to. -/
def KRun.place (r : KRun) : Nat := if r.second then 1 else 0

/-- The end of a running k-step: its block is applied, the last k-block completes its command, and the licence may leave. That of
an engine that has been reset ends without effect (R410). -/
def State.endStep (s : State) (e : Nat) (r : KRun) : State :=
  let idle : State := (s.modEng e fun g => { g with run := none }).settleLic e
  match if r.dead then none else (s.eng e).queue[r.place]? with
  | none => idle
  | some c =>
    match c.stepArgs with
    | none => idle
    | some (a, b, da, db) =>
      let o := s.chooseOld r.seen (r.seen.map (·.1)).eraseDups
      let s := o.2.applyBlock o.1 e a b da db r.block
      let c := { c with left := c.left.erase r.block }
      let s := s.modEng e fun g =>
        { g with run := none, queue := if c.left = [] then g.queue.eraseIdx r.place else g.queue.set r.place c }
      (if c.left = [] then s.cmdDone c else s).settleLic e

/-- The second command is an `mstep` of the open chain whose operands fit: its k-steps may come among those of the first, as no
marker stands between them (R390). -/
def State.nextStep (s : State) (e : Nat) : Option Cmd :=
  match (s.eng e).queue with
  | [_, d] =>
    match decodeTile e d.word with
    | .ok (.mstep _ _ chain a b n _ _) =>
      if d.begun then some d
      else if (s.eng e).isOpen chain && s.stepFits e a.toNat b.toNat n.toNat then
        some { d with begun := true, checked := true, left := List.range n.toNat }
      else none
    | _ => none
  | _ => none

/-- A k-step of a command in the queue begins when the energy is there (R406). -/
def State.beginAt (s : State) (e : Nat) (second : Bool) (c : Cmd) : State :=
  match c.stepArgs with
  | none => s
  | some (_, _, da, db) =>
    let cost := 272 * da * db
    if !s.licensed e || s.halts e || c.left = [] || (s.core e).ebal.toNat < cost then s
    else
      let p := s.pick c.left.length
      let r : KRun := { second := second, block := c.left.getD p.1 0, till := s.now + 2 * da * db }
      (p.2.modCore e fun k => { k with ebal := k.ebal - BitVec.ofNat 20 cost }).modEng e fun g =>
        { g with run := some r, ended := false, queue := g.queue.set r.place c }

/-- The next k-step of an engine begins: of the command at the head, or, by free choice, of the one behind it. -/
def State.beginStep (s : State) (e : Nat) : State :=
  match (s.eng e).queue with
  | [] => s
  | c :: _ =>
    if !c.begun then s
    else
      match s.nextStep e with
      | none => s.beginAt e false c
      | some d =>
        let p := s.pick 2
        if p.1 = 1 && d.left != [] then p.2.beginAt e true d else p.2.beginAt e false c

/-- K_STEP: at the start of a cycle the running k-step of an engine may end, and the next may begin. -/
def execKStep (s : State) : Outcome :=
  match s.event with
  | .kStep e =>
    match (s.eng e).run with
    | none => .next (s.beginStep e)
    | some r => .next (if s.now < r.till then s else (s.endStep e r).beginStep e)
  | _ => .next s

/-! ### The licence (R401-R404) -/

/-- LICENCE_GRANT: arbitration of a Free licence. -/
def execLicenceGrant (s : State) : Outcome :=
  match s.event with
  | .licenceGrant p => .next (s.arbitrate p)
  | _ => .next s

/-- COOP_HANDOVER (R403). -/
def execCoopHandover (s : State) : Outcome :=
  match s.event with
  | .coopHandover p =>
    match s.canHandOver p with
    | some x => .next ((s.modEng x fun g => { g with ended := false }).moveLic x .pass)
    | none => .next (((s.modEng (lowerOf p) fun g => { g with ended := false }).modEng (twinOf (lowerOf p))
        fun g => { g with ended := false }))
  | _ => .next s

/-- The check that a LIC form makes: a launch that does not use the matrix has cause 0x50 (R404). -/
def State.licForm (s : State) (g : BitVec 4) (k : State → Outcome) : Outcome :=
  s.guarded g fun s => if !s.usesMatrix s.here.launch then .next (s.raise 0x50 0) else k s

/-- `lic.acq`. -/
def execLicAcq (g : BitVec 4) (x : Bool) (s : State) : Outcome :=
  s.licForm g fun s =>
    let core := s.sel.1
    match s.here.stage with
    | .answered _ _ => .next s.finish
    | .acted _ => .next (s.parkStage (.acted 1) .licence)
    | _ =>
      if s.holds core then s.commit fun s => s.setLic (pairOf core) { s.lic (pairOf core) with excl := x }
      else s.commitTo fun s =>
        let r : LicReq := { core := core, cx := s.sel.2, excl := x, since := s.now }
        { s with licReqs := s.licReqs ++ [r] }.parkStage (.acted 1) .licence

/-- `lic.rel`. -/
def execLicRel (g : BitVec 4) (s : State) : Outcome :=
  s.licForm g fun s => s.commit fun s => if s.holds s.sel.1 then s.moveLic s.sel.1 .free else s

/-- `lic.give`. -/
def execLicGive (g : BitVec 4) (s : State) : Outcome :=
  s.licForm g fun s => s.commit fun s => if s.holds s.sel.1 then s.moveLic s.sel.1 .pass else s

end Sys2Proof.Machine
end

