-- ==== Sys2Proof/Machine/Preempt.lean ====
section
/-! DEFINITION. Pre-emption: halt, save and restore of combs (spec/08_traps.md R210-R215, spec/13_barrier.md R292, R296,
spec/15_queue.md R326, spec/17_transfer.md R356, spec/21_tile.md R405, R408, R409). -/

namespace Sys2Proof.Machine

/-! ### The request (R210) -/

/-- The licence leaves the engine of a core whose comb halts (R408). -/
def State.haltMove (s : State) (core : Nat) : LicMove :=
  if s.requests (twinOf core) && !s.halts (twinOf core) then .pass else .free

/-- A comb begins to halt: the licence leaves its engine at once where that executes nothing, else at the end of its k-step, or
of a drain whose writes have left (R401, R408). -/
def State.beginHalt (s : State) (core : Nat) : State :=
  if (s.lic (pairOf core)).holder != some core then s.modEng core fun e => { e with had := false }
  else
    let l := s.lic (pairOf core)
    let mv := s.haltMove core
    let s := s.modEng core fun e => { e with had := true }
    if !(s.eng core).finishing then s.leaveLic core mv
    else if l.move == .stay then s.setLic (pairOf core) { l with move := mv }
    else s

/-- The cores of a comb. -/
def combCores (comb : Nat) : List Nat := (List.range 16).map fun k => coreOfComb comb k

/-- PCTL_GO: a request starts for the combs that `pcomb0` and `pcomb1` name, unless one is in progress. -/
def execPctlGo (s : State) : Outcome :=
  match s.event with
  | .pctlGo =>
    if s.pctl.getLsbD 0 then .next s
    else
      let combs := (List.range 128).filter fun c => if c < 64 then s.pcomb0.getLsbD c else s.pcomb1.getLsbD (c - 64)
      let s : State := { s with pctl := s.pctl &&& 8 ||| 1, halt := combs, saving := combs }
      .next (((combs.flatMap combCores).foldl State.beginHalt s).later .preemptHalt)
  | _ => .next s

/-! ### The halt (R211) -/

/-- A context stands where it can be saved: it is at a bundle boundary, or parked where no agent owes it an answer. -/
def Ctx.still (c : Ctx) : Bool :=
  match c.st with
  | .ready | .follower => c.stage == .fresh || c.cur.isNone
  | .parked => !c.stage.given && (match c.wait with | .home | .answer | .install _ => false | _ => true)
  | .retired => false
  | _ => true

/-- A promise request that counts among the stores of step 2 (R384). -/
def PromOp.stores : PromOp → Bool
  | .pinit | .pfill _ | .peq => true
  | _ => false

/-- Atomic records have retired, and stores and `ared` of a context are acknowledged. -/
def State.settled (s : State) (core cx : Nat) : Bool :=
  !((s.ctx core cx).recs.any fun r => r.op.atomic) && !(s.flights.any fun f => f.by_ == .thread core cx) &&
    !(s.promReqs.any fun q => q.2.core == core && q.2.cx == cx && q.2.op.stores)

/-- A core has halted. -/
def State.coreHalted (s : State) (core : Nat) : Bool :=
  (s.eng core).run.isNone &&
    (List.range 8).all fun x => ((s.ctx core x).still || (s.ctx core x).st == .retired) && s.settled core x

/-- A licence that a core which has halted still holds, or that it has been granted since, leaves it (R408). -/
def State.haltLic (s : State) (core : Nat) : State :=
  if (s.lic (pairOf core)).holder != some core then s
  else (s.leaveLic core (s.haltMove core)).modEng core fun e => { e with had := true }

/-- PREEMPT_HALT: every named core has halted. -/
def execPreemptHalt (s : State) : Outcome :=
  match s.event with
  | .preemptHalt =>
    if s.pctl.getLsbD 1 || !s.pctl.getLsbD 0 then .next s
    else if s.halt.all fun c => (combCores c).all s.coreHalted then
      let s := (s.halt.flatMap combCores).foldl State.haltLic s
      .next ({ s with pctl := s.pctl ||| 2, haltAt := s.cycle }.later .preemptSave)
    else .next (s.later .preemptHalt)
  | _ => .next s

/-! ### The save (R212-R214) -/

/-- The code of a park reason (R169). -/
def Wait.reason : Wait → Nat
  | .none => 0
  | .regs _ _ | .shared _ _ => 1
  | .record => 2
  | .walk _ _ _ _ | .fault _ _ _ | .faultSlot _ | .staging _ => 3
  | .drain _ _ | .access _ | .accesses _ _ | .line _ _ | .values _ | .sampler _ | .tlbinv _ _ _ _ | .answer | .home | .engineDone
  | .request | .install _ => 4
  | .mwait _ => 5
  | .inbound _ => 6
  | .mrecv => 7
  | .barrier => 8
  | .xfer _ _ => 9
  | .licence => 10
  | .engineSpace _ => 11
  | .promise _ _ _ => 12
  | .ringFilled _ _ | .ringSpace _ _ => 13
  | .exitDrain => 14
  | .stop => 15

/-- The state byte of a context slot (R212). -/
def CtxState.code : CtxState → Nat
  | .free | .reserved | .retired => 0
  | .ready | .clearing => 1
  | .parked => 2
  | .follower => 3
  | .migrating => 4

/-- The 64-byte header of a context slot. -/
def Ctx.header (c : Ctx) (cycle : W64) : Nat :=
  c.st.code + 2 ^ 8 * (if c.st = .parked then c.wait.reason else 0) + 2 ^ 16 * c.recs.length + 2 ^ 64 * (lo64 c.pc).toNat +
    2 ^ 128 * c.launchid.toNat + 2 ^ 192 * c.unitid.toNat + 2 ^ 256 * cycle.toNat + 2 ^ 320 * c.generation.toNat

/-- A record that is issued again, so that its value is that of a later access (R180): of a bit stream where the stream keeps
its words, which a restore brings back unchanged (R194), the value stays. A remote fill stays as it is. -/
def Rec.again (kept : List Nat) (r : Rec) : Rec :=
  match r.op with
  | .remote _ => r
  | .bits _ _ => if r.locs.all fun l => kept.contains l.key then r else { r with got := none }
  | _ => { r with part := [], got := none }

/-- The keys of the words that a context's input stream keeps. -/
def Ctx.keptKeys (c : Ctx) (core : Nat) : List Nat := c.bsIn.kept.map fun k => scratchKey core (c.bsIn.base.toNat + 8 * k.1)

/-- A thread as the image holds it: its watchdog count as the cycles it has counted, none while it has not started. -/
def State.savedCtx (s : State) (core cx : Nat) : Ctx :=
  let c := s.ctx core cx
  let c : Ctx :=
    { c with
      wdStart := if c.st = .clearing then 0 else s.now - c.wdStart, recs := c.recs.map (Rec.again (c.keptKeys core)),
      gang := none, gangid := 0, replay := none }
  let again (c : Ctx) : Ctx := { c with stage := .fresh, vres := .none, places := [] }
  match c.st with
  | .clearing | .follower => { c with st := .ready }
  | .parked =>
    match c.wait with
    | .barrier =>
      match s.waiters.find? fun w => w.core == core && w.cx == cx with
      | some w => { c with stage := .acted (4 + w.phase.toNat), places := [] }
      | none => c
    | .tlbinv _ _ _ _ | .walk _ _ _ _ | .fault _ _ _ | .faultSlot _ | .staging _ | .inbound _ | .mrecv =>
      match c.stage with
      | .acted n => if 4 ≤ n then c else again c
      | _ => again c
    | _ => c
  | _ => c

/-- A thread whose remote-fill records need a redirect entry. -/
def Ctx.redirects (c : Ctx) : Bool := c.st != .free && c.st != .reserved && c.recs.any fun r => r.op.isRemote

/-- A core that is written whole. -/
def State.writtenWhole (s : State) (core : Nat) : Bool :=
  let k := s.core core
  k.ctxs.toList.any (fun c => c.st != .free) || k.eng.chain != .idle || k.eng.queue != [] ||
    s.groups.any fun g => g.2.comb == combOf core && g.2.cores.getLsbD (core % 16)

/-- What a core writes. -/
def State.savedCore (s : State) (core : Nat) : Core :=
  let k := s.core core
  let base : Core := { tasks := k.tasks, inbound := k.inbound, mailbox := k.mailbox, ovf := k.ovf }
  if s.writtenWhole core then
    { base with ctxs := Vector.ofFn fun i => s.savedCtx core i.val, chans := k.chans, rings := k.rings, eng := k.eng }
  else base

/-- Channels without history. -/
def freshChans (first : Nat) : Vector Chan 8 := Vector.ofFn fun i => { inst := first + i.val }

/-- The core that is left behind: every context Free under a new generation. -/
def State.leftCore (s : State) (core : Nat) : State :=
  let k := s.core core
  let saved := (List.range 8).filterMap fun x =>
    if (s.ctx core x).redirects then some { gen := (s.ctx core x).generation, cx := x, comb := combOf core } else none
  let gone (c : Ctx) : Ctx := if c.st == .free then c else { generation := c.used + 1, used := c.used + 1 }
  let k := { k with tasks := [], inbound := [], mailbox := [], ovf := false, clears := [], redirects := k.redirects ++ saved }
  if s.writtenWhole core then
    { s with seq := s.seq + 8 }.setCore core
      { k with ctxs := k.ctxs.map gone, chans := freshChans s.seq, rings := [], eng := {} }
  else s.setCore core k

/-- Everything that other units hold for the threads of a comb is withdrawn: waiters at barriers, watches, licence requests,
messages that are not accepted; commands that they have sent, to engines of comb images too, count for nobody any more
(R397). -/
def State.withdraw (s : State) (comb : Nat) : State :=
  let mine (core : Nat) : Bool := combOf core == comb
  let sent (m : Msg) : Bool := match m.sender with | .thread core _ => mine core | .engine _ => false
  let mark (c : Cmd) : Cmd := if mine c.core then { c with gen := c.gen - 1 } else c
  let core (e : Nat × Core) : Nat × Core := (e.1, { e.2 with eng := { e.2.eng with queue := e.2.eng.queue.map mark } })
  { s with
    waiters := s.waiters.filter fun w => !mine w.core,
    watches := s.watches.filter fun w => !mine w.core,
    licReqs := s.licReqs.filter fun r => !mine r.core,
    held := s.held.filter fun m => !sent m,
    agenda := s.agenda.filter fun e => match e with | .messageArrival m => !sent m | _ => true,
    cmds := s.cmds.map fun c => (c.1, mark c.2),
    images := s.images.map fun e => (e.1, { e.2 with cores := e.2.cores.map core }),
    cores := s.cores.map core }

/-- An address lies in the local memories of a comb. -/
def inCombMem (comb key : Nat) : Bool :=
  (scratchKey (coreOfComb comb 0) 0 ≤ key && key < scratchKey (coreOfComb comb 0) 0 + 16 * 2 ^ 18) ||
    (combKey comb 0 ≤ key && key < combKey comb 0 + 2 ^ 24) || (bankKey comb 0 ≤ key && key < bankKey comb 0 + 2 ^ 10) ||
    (slotKey comb 0 0 ≤ key && key < slotKey comb 0 0 + 2 ^ 40)

/-- The offsets in an image of a core's slots and of the pages of its scratchpad (R212). -/
def slotsAt (core : Nat) : Nat := core % 16 * 2 ^ 19
def scratchAt (core page : Nat) : Nat := core % 16 * 2 ^ 19 + 2 ^ 18 + page * 2 ^ 16

/-- The reserved parts of an image, as offset and length, each in one page: what a context slot holds beyond its header, the
engine of each core, comb memory and the 16 MiB block (R212). -/
def imageParts (cores : List Nat) : List (Nat × Nat) :=
  cores.flatMap (fun k =>
    (List.range 8).map (fun x => (slotsAt k + x * 2048 + 64, 1984)) ++
      [(slotsAt k + 2 ^ 14, 3 * 2 ^ 14), (slotsAt k + 2 ^ 16, 2 ^ 15)]) ++
    (List.range 132).map fun i => (2 ^ 23 + i * 2 ^ 16, 2 ^ 16)

/-- The offsets of the pages of an image, all of which memory must have: its first, those of the cores that are written whole, and
of what all cores share. -/
def imagePages (cores : List Nat) : List Nat :=
  0 :: cores.flatMap (fun k => [slotsAt k, slotsAt k + 2 ^ 16] ++ (List.range 4).map fun p => scratchAt k p) ++
    (List.range 132).map fun i => 2 ^ 23 + i * 2 ^ 16

def imageNeeds (base : W64) (cores : List Nat) : List (Nat × W64) :=
  (imagePages cores).map fun o => (0, base + BitVec.ofNat 64 o)

/-- The pages by which a restore knows an image. -/
def blockNeeds (base : W64) : List (Nat × W64) :=
  (0 :: (List.range 4).map fun i => blockOffset + i * 2 ^ 16).map fun o => (0, base + BitVec.ofNat 64 o)

def State.imageMapped (s : State) (base : W64) (cores : List Nat) : Bool :=
  (imagePages cores).all fun o => (s.imageAddr base o).isSome

/-- Copies a range of one memory to a range of another. -/
def Memory.copy (m from_ : Memory) (src dst n : Nat) : Memory :=
  let m := m.clear dst n
  let cells := from_.cells.filter fun c => src ≤ c.1 && c.1 < src + n
  let pois := from_.pois.filter fun a => src ≤ a && a < src + n
  (m.putAll (cells.map fun c => (c.1 - src + dst, c.2))).spoilAll (pois.map fun a => a - src + dst)

/-- The pages of the scratchpads of cores: their keys, and their addresses in an image. -/
def State.scratchPages (s : State) (base : W64) (cores : List Nat) : List (Nat × Nat) :=
  cores.flatMap fun k => (List.range 4).filterMap fun p =>
    (s.imageAddr base (scratchAt k p)).map fun a => (scratchKey k (p * 2 ^ 16), a)

/-- Pages of scratchpads are written to an image (R212). -/
def State.writeScratch (s : State) (from_ : Memory) (pages : List (Nat × Nat)) : State :=
  pages.foldl (fun s e =>
    let s := s.relight e.2 (2 ^ 16)
    { s with mem := s.mem.copy from_ e.1 e.2 (2 ^ 16) }.wakeWatches e.2 (2 ^ 16)) s

/-- The reserved parts of an image are written: bytes that the spec does not define (R212; log 46). -/
def State.writeParts (s : State) (base : W64) (serial : Nat) (parts : List (Nat × Nat)) : State :=
  parts.foldl (fun s p =>
    match s.imageAddr base p.1 with
    | none => s
    | some a =>
      let s := s.relight a p.2
      { s with mem := s.mem.putAll (partCells serial a p) }.wakeWatches a p.2) s

/-- A memory whose scratchpad pages are as an image holds them. -/
def Memory.readScratch (m : Memory) (pages : List (Nat × Nat)) : Memory :=
  pages.foldl (fun m e => m.copy m e.2 e.1 (2 ^ 16)) m

/-- A write of an engine of a comb, which is saved with it while it is pending (R408). -/
def Flight.ofComb (f : Flight) (comb : Nat) : Bool := match f.by_ with | .engine k => combOf k == comb | _ => false

/-- A comb may be written: nothing but its own engines' writes is on its way into its local memories, transfers into them stand at
a boundary of 64 bytes, and no context waits for a counter. -/
def State.canSave (s : State) (comb : Nat) : Bool :=
  !(s.xfers.any fun e => e.2.kind != .put && e.2.place.any (fun l => combOfKey l.key == comb) && runLength (s.movable e.2) != 0) &&
  !(s.flights.any fun f => inCombMem comb f.loc.key && !f.ofComb comb) && (combCores comb).all fun k =>
    (List.range 8).all fun x => (s.ctx k x).still && s.settled k x

/-- The memory of a comb, and what is left. -/
def Memory.split (m : Memory) (comb : Nat) : Memory × Memory :=
  ({ cells := m.cells.filter fun c => inCombMem comb c.1, pois := m.pois.filter fun a => inCombMem comb a },
   { cells := m.cells.filter fun c => !inCombMem comb c.1, pois := m.pois.filter fun a => !inCombMem comb a })

/-- The slot headers of an image, by offset. -/
def State.headers (s : State) (cores : List Nat) : List (Nat × Nat) :=
  cores.flatMap fun k => (List.range 8).map fun x => (slotsAt k + x * 2048, (s.ctx k x).header s.haltAt)

/-- Writes the slot headers of an image. -/
def State.writeHeaders (s : State) (base : W64) (heads : List (Nat × Nat)) : State :=
  heads.foldl (fun s h =>
    match s.imageAddr base h.1 with
    | some a => s.poke a 64 h.2
    | none => s) s

/-- A memory without the scratchpads of cores. -/
def Memory.dropScratch (m : Memory) (cores : List Nat) : Memory :=
  cores.foldl (fun m k => m.clear (scratchKey k 0) (2 ^ 18)) m

/-- Writes the image of a comb whose first byte has an address: all of it stands in memory; what the bytes of the reserved parts
mean is kept beside them (log 46). -/
def State.saveComb (s : State) (comb : Nat) (base : W64) (at_ : Nat) : State :=
  let cores := combCores comb
  let s := cores.foldl State.haltLic s
  let whole := cores.filter s.writtenWhole
  let heads := s.headers whole
  let pages := s.scratchPages base whole
  let serial := s.seq
  let s := (s.fresh.writeHeaders base heads).writeParts base serial (imageParts whole)
  let parts := s.mem.split comb
  let img : Image :=
    { at_ := at_, heads := heads, parts := imageParts whole, pending := s.flights.filter fun f => f.ofComb comb,
      comb := comb, cores := cores.map fun k => (k, s.savedCore k),
      rest := { bank := (s.comb comb).bank, raw := (s.comb comb).raw },
      groups := s.groups.filter fun g => g.2.comb == comb, mem := parts.1.dropScratch whole, whole := whole,
      watches := s.watches.filter fun w => combOf w.core == comb }
  let s := { s with images := sset serial img s.images, flights := s.flights.filter fun f => !f.ofComb comb }.withdraw comb
  let s := { cores.foldl State.leftCore s with mem := parts.2, saving := s.saving.erase comb }.writeScratch parts.1 pages
  ({ s with groups := s.groups.filter fun g => g.2.comb != comb }.modComb comb fun c => { c with bank := none, raw := [] }).spareJoins comb

/-- Threads of a comb for which no redirect entry is free: each is retired as by cancel (R214). -/
def State.unsaved (s : State) (comb : Nat) : List (Nat × Nat) :=
  (combCores comb).flatMap fun k =>
    (((List.range 8).filter fun x => (s.ctx k x).redirects).drop (64 - (s.core k).redirects.length)).map fun x => (k, x)

/-- PREEMPT_SAVE: the next named comb is written; the last sets saved. -/
def execPreemptSave (s : State) : Outcome :=
  match s.event with
  | .preemptSave =>
    match s.saving with
    | [] => .next (if s.pctl.getLsbD 1 then { s with pctl := s.pctl &&& 8 ||| 6, halt := [] } else s)
    | comb :: _ =>
      let base := s.psave + BitVec.ofNat 64 (comb * 2 ^ 25)
      let whole := (combCores comb).filter s.writtenWhole
      s.withSys (imageNeeds base whole) fun s =>
      match s.canSave comb && s.imageMapped base whole, s.imageAddr base 0, s.unsaved comb with
      | true, some a, [] => .next ((s.saveComb comb base a).later .preemptSave)
      | true, some _, t :: _ => .next (((s.breakFor t.1 t.2).retire t.1 t.2).later .preemptSave)
      | _, _, _ => .next (s.later .preemptSave)
  | _ => .next s

/-! ### The restore (R215) -/

/-- A load of a Nectar page whose extent has been retired since an image was first restored can have no value: it is poisoned when
the image is restored again (log 46). -/
def State.regain (s : State) (r : Rec) : Rec :=
  let gone (l : Loc) : Bool := l.win == .glob && paTop l.key == 2 && !(s.extents.any fun e =>
    (e.2.st == .sealed || e.2.st == .superseded) && e.2.covers (l.key % 2 ^ 48))
  if !r.op.isRemote && r.locs.any gone then { r with got := some (0, true) } else r

/-- A saved thread returns to its context, whose hardware has given out other generations since. -/
def State.restoreCtx (s : State) (armed : List WatchEnt) (core cx : Nat) (t : Ctx) : State :=
  if t.st == .free then s
  else
    let l := sget t.launch s.launches
    let t := { t with used := (s.ctx core cx).used, tiles := 0, wdStart := s.now - t.wdStart, recs := t.recs.map s.regain }
    -- what a restore loads from the launch (R199, R222)
    let t := match l with
      | some l => { t with ptroot := l.ptroot, asid := l.asid, shand := l.profile.shand, tdeleg0 := l.profile.tdeleg0,
                           tdeleg1 := l.profile.tdeleg1, wdlim := l.profile.wdlim }
      | none => t
    let t : Ctx :=
      match t.st, t.wait with
      | .parked, .mwait _ => { t with stage := .answered 4 false }
      | .parked, .barrier | .parked, .tlbinv _ _ _ _ | .parked, .walk _ _ _ _ | .parked, .fault _ _ _
      | .parked, .faultSlot _ | .parked, .staging _ | .parked, .inbound _ | .parked, .mrecv => { t with st := .ready, wait := .none }
      | _, _ => t
    let s := s.setCtx core cx t
    let s := s.modCore core fun k => { k with redirects := k.redirects.filter fun r => !(r.gen == t.generation && r.cx == cx) }
    -- a watch that was armed is registered again with pending reason 4 (R295)
    let s := match armed.find? fun w => w.core == core && w.cx == cx with
      | some w => (s.arm core cx w.sector).modCtx core cx fun c =>
          { c with watchPending := match t.wait with | .mwait _ => 0 | _ => 4 }
      | none => s
    let s := match t.st, t.wait, t.ops.1 with
      | .parked, .licence, .licAcq _ x =>
        let r : LicReq := { core := core, cx := cx, excl := x, since := s.now }
        { s with licReqs := s.licReqs ++ [r] }
      | _, _, _ => s
    -- records whose access is made again
    let s := t.recs.foldl
      (fun s r =>
        if r.op.isRemote then s
        else
          let s := match r.op, r.locs with
            | .samp, l :: _ => if r.got.isSome then s else s.sampleLoad core cx r.seq l
            | _, _ => s
          s.later (.fill core cx r.isV r.reg)) s
    let s := if t.st == .migrating then s.later (.migrationDepart core cx) else s
    if t.asyncs.any fun a => a.1 == 0x61 then s.later (.cancelDelivery core cx) else s

/-- The engine of a restored core: its licence comes back, or is requested (R409); an `mstep` that a hand-over stopped before
the save counts as a request again (R396). -/
def State.restoreLic (s : State) (core : Nat) : State :=
  if !(s.eng core).had then s.engineAsks core
  else
    let s := s.modEng core fun e => { e with had := false }
    let p := pairOf core
    match (s.lic p).holder with
    | none => s.grantTo p core (s.lic p).last
    | some x =>
      if x = core then s
      else
        let r : LicReq := { core := core, cx := 8, excl := false, since := s.now }
        { s with licReqs := s.licReqs ++ [r] }

/-- Puts an event into the agenda that may stand there yet. -/
def State.laterOnce (s : State) (e : Event) : State := if s.agenda.contains e then s else s.later e

/-- A drain that has begun goes on once its core is back and holds the licence (R408, R409). -/
def State.restoreDrain (s : State) (core : Nat) : State :=
  if (s.eng core).executing then s.laterOnce (.drainComplete core) else s

/-- Transfers at local ranges of a restored comb go on (R356). -/
def State.restoreXfers (s : State) (comb : Nat) : State :=
  s.xfers.foldl (fun s e =>
    if e.2.st == .moving && e.2.failed.isNone && e.2.place.any fun l => combOfKey l.key == comb then s.laterOnce (.streamerPiece e.1)
    else s) s

/-- Transfers in the queues of a core's rings go on when the core is back (R356, R361). -/
def State.restoreRings (s : State) (core : Nat) (k : Core) : State :=
  k.rings.foldl (fun s e =>
    if s.xfers.any fun x => x.2.st == .ring && x.2.core == core && x.2.ring == some e.1 then s.laterOnce (.ringReserve core e.1) else s) s

/-- A core of a comb image comes back. -/
def State.restoreCore (s : State) (armed : List WatchEnt) (whole : Bool) (core : Nat) (k : Core) : State :=
  let s := s.modCore core fun q =>
    let q := { q with tasks := k.tasks, inbound := k.inbound ++ q.inbound, mailbox := (k.mailbox ++ q.mailbox).take 32,
                      ovf := k.ovf || q.ovf || 32 < (k.mailbox ++ q.mailbox).length }
    if whole then { q with chans := k.chans, rings := k.rings, eng := k.eng } else q
  let s := (s.acquire core .dev)
  if !whole then s
  else
    let s := (List.range 8).foldl (fun s x => s.restoreCtx armed core x (k.ctxs[x % 8]'(Nat.mod_lt _ (by decide)))) s
    ((s.restoreLic core).restoreDrain core).restoreRings core k

/-- Writes of engines that were pending at the save are on their way again (R408). -/
def State.restoreFlights (s : State) (l : List Flight) : State :=
  l.foldl (fun s f => { s with flights := s.flights ++ [f] }.laterOnce (.storeAcknowledgement f.id)) s

/-- Memory laid over memory that lists nothing there. -/
def Memory.join (m n : Memory) : Memory := { cells := (m.putAll n.cells).cells, pois := n.pois.foldl (fun l a => addMark a l) m.pois }

/-- The pages that a restore reads: those by which it knows an image, and those of the images that stand there. -/
def State.restoreNeeds (s : State) (image : W64) : List (Nat × W64) :=
  blockNeeds image ++ (s.namedImages image).flatMap fun e => imageNeeds image e.2.whole

/-- A restore is refused: `pctl`[3]. -/
def State.refuseImage (s : State) : State := { s with pctl := s.pctl ||| 8 }

/-- PREST: the comb of the image that stands at an address is restored; a malformed one is refused. A restore waits until the
contexts that it needs are Free. -/
def execPrest (s : State) : Outcome :=
  match s.event with
  | .prest image =>
    s.withSys (s.restoreNeeds image) fun s =>
      match s.imageAt image with
      | none => .next s.refuseImage
      | some (n, img) =>
        if s.groups.any (fun g => g.2.comb == img.comb) || s.halt.contains img.comb then .next s.refuseImage
        else if img.cores.any fun k => (List.range 8).any fun x =>
            (k.2.ctxs[x % 8]'(Nat.mod_lt _ (by decide))).st != .free && (s.ctx k.1 x).st != .free then
          .next (s.later (.prest image))
        else if !s.imageMapped image img.whole then .next s.refuseImage
        else
          let mem := (s.mem.split img.comb).2.readScratch (s.scratchPages image img.whole)
          let s : State := { s with pctl := s.pctl &&& 7, images := sdel n s.images, oldImages := sset n img s.oldImages,
                                    mem := mem.join img.mem,
                                    groups := img.groups.foldl (fun l g => sset g.1 { g.2 with started := true } l) s.groups }
          let s := s.restoreFlights img.pending
          let s := s.modComb img.comb fun c => { c with bank := img.rest.bank, raw := img.rest.raw }
          let s := img.cores.foldl (fun s k => s.restoreCore img.watches (img.whole.contains k.1) k.1 k.2) s
          -- delivered fills are applied before the threads' first bundles
          let mine (f : FillTag × W512 × Bool) : Bool :=
            combOf f.1.core == img.comb && (s.ctx f.1.core f.1.cx).generation == f.1.gen
          let fills := (s.savedFills.filter mine).map fun (f : FillTag × W512 × Bool) => Event.remoteFill f.1 f.2.1 f.2.2
          let s := { s with due := s.due ++ fills, savedFills := s.savedFills.filter fun f => !mine f }
          -- a group whose last thread has left meanwhile ends
          .next (img.groups.foldl (fun s g => (s.endGroup g.1).endLaunch g.2.launch) (s.restoreXfers img.comb))
  | _ => .next s

end Sys2Proof.Machine
end

