-- ==== Sys2Proof/Machine/Bringup.lean ====
section
/-! DEFINITION. Starts, the host link, dormant, repair and machine checks (spec/25_bringup.md, spec/24_link.md R430, R439,
spec/08_traps.md R208, spec/01_machine.md R21). -/

namespace Sys2Proof.Machine

/-! ### Starts (R439, R445, R447) -/

/-- The memory that a start keeps: Nectar and the host's, and DRAM after a warm reset or dormant. -/
def Memory.kept (m : Memory) (dram : Bool) : Memory :=
  let keep (a : Nat) : Bool := a < 2 ^ 52 && (dram || 2 ≤ paTop a)
  { cells := m.cells.filter fun c => keep c.1, pois := m.pois.filter keep }

/-- A transfer that is suspended into a comb image (R356, R446). -/
def State.intoImage (s : State) (x : Xfer) : Bool :=
  (x.st == .ring && !s.xferLive x) || (x.st == .moving && runLength x.left != 0 && x.place.any (s.rangeSaved x))

/-- The frames of the ephemeral leaves in a node's tree of that many levels. -/
def State.ephFrames (s : State) (base : Nat) : Nat → List Nat
  | 0 => []
  | fuel + 1 =>
    (List.range (if fuel = 4 then 256 else 4096)).flatMap fun i =>
      let e := BitVec.ofNat 128 (s.rd (base + 16 * i) 16)
      if !leafBit e 0 || s.malformedEntry e (4 - fuel) then []
      else if leafBit e 1 then (if leafKind e == 3 then [leafFrame e / 2 ^ 16] else [])
      else State.ephFrames s (leafFrame e) fuel

/-- The ephemeral pages after a resume: each is Expired, one that was Unwritten too (R446). -/
def State.allExpired (s : State) : Sparse EphPage :=
  let roots := (0 :: s.launches.map (·.2.ptroot) ++ s.images.flatMap fun e => e.2.threads.map (·.2.2.ptroot)).eraseDups
  (roots.flatMap fun r => s.ephFrames (s.rootFor r 0) 5 ++ s.ephFrames (s.rootFor 0 0x80) 5).eraseDups.foldl
    (fun l f => match sget f l with | some _ => l | none => sset f { deadline := 0, before := 0, wrote := 0, expired := true } l)
    (s.ephem.map fun e => (e.1, { e.2 with expired := true }))

/-- The machine as a start of a kind finds it (log 40): what Nectar and the installer's map hold stays, and counters that finished
installs are yet to increment; a warm reset and a resume keep DRAM, the comb images, the launches that they need and the
transfers that are suspended into them. -/
def State.restart (s : State) (kind : BitVec 2) : State :=
  let warm : Bool := kind == 1 || kind == 2
  let base : State :=
    { mem := s.mem.kept warm, extents := s.extents, nblocks := s.nblocks, remaps := s.remaps, installs := s.installs, choices := s.choices,
      drawn := s.drawn, seq := s.seq, lint := s.lint, lsize := s.lsize, msix := s.msix, startKind := kind, held := [],
      sparesUsed := s.sparesUsed }
  if warm then
    { base with
      cycle := s.cycle, images := s.images, oldImages := s.oldImages, launches := s.launches, savedFills := s.savedFills, promises := s.promises,
      xfers := s.xfers.filter fun e => s.intoImage e.2,
      degraded := s.degraded, lost := s.lost, relit := s.relit,
      ephem := if kind == 2 then s.allExpired else s.ephem,
      cores := (s.cores.filter fun e => e.2.redirects != []).map fun e =>
        let k : Core := { redirects := e.2.redirects, ctxs := e.2.ctxs.map fun c => { generation := c.used + 1, used := c.used + 1 },
                          chans := freshChans s.seq }
        (e.1, k),
      seq := s.seq + 8 }
  else base

/-- START: the boot sequence begins: the image is accepted or refused, the stacks replay their repair maps, and then the links
retrain (R445). -/
def execStart (s : State) : Outcome :=
  match s.event with
  | .start kind =>
    let s := s.restart kind
    let p := s.pick 2
    let refused : Bool := p.1 != 0
    let s : State := { p.2 with boot := if refused then 2 else 0 }.later .linkRetrain
    if refused then .next s
    else .next ((List.range 6).foldl (fun s st => s.later (.repairReplayEnd st [])) s)
  | _ => .next s

/-- Firmware writes `erefill` of a core: what, is its policy (R434). -/
def State.setRefill (s : State) (core : Nat) : State :=
  let p := s.pick (2 ^ 19)
  p.2.modCore core fun k => { k with erefill := BitVec.ofNat 19 p.1 }

/-- The last step of the boot sequence: firmware shows the installer's map and the outputs in memory, once their tables are there,
and writes `erefill` of every core; what the installer has begun goes on (R412, R439, R445). -/
def State.bringUp (s : State) : State :=
  let s := (List.range 2048).foldl State.setRefill { s with boot := 1, extShow := s.extents.map (·.1), outShow := List.range 4 }
  let s := (s.extents.filter fun e => e.2.st == .superseded).foldl (fun s e => s.later (.supersedeDrain e.1)) s
  s.installs.foldl (fun s e => s.later (.installComplete e.1)) s

/-- LINK_RETRAIN: the link carries device traffic again; with a refused image CXL.io alone is trained. At a start it comes after
the replays, and firmware's step follows (R445). -/
def execLinkRetrain (s : State) : Outcome :=
  match s.event with
  | .linkRetrain =>
    s.unless (s.boot = 0 && s.replaying != []) <|
    let t : State := { s with hlink := (s.hlink &&& 0xF00) ||| (if s.boot = 2 then 4 else 7) }
    .next (if s.boot = 0 then t.bringUp else t)
  | _ => .next s

/-- The view of an output's block that the engine writes: latched seq, blanks, state (R437, R439). -/
def State.showOut (s : State) (n a : Nat) : State :=
  let o := s.out n
  ((s.poke (a + 0x50) 8 o.latched.toNat).poke (a + 0x58) 8 o.blanks.toNat).poke (a + 0x60) 1 o.st.toNat

/-- Descriptors and blocks that firmware is yet to write: each once its page is reached. -/
def State.showTables (s : State) : State :=
  let s := s.extShow.foldl
    (fun (s : State) i =>
      let t : State := { s with extShow := s.extShow ++ [i] }
      if s.extWaits i then t.sysAsk 0 (s.extVA i)
      else
        match s.extAddr i, sget i s.extents with
        | some _, some e => s.showExtent i e
        | _, _ => t) { s with extShow := [] }
  s.outShow.foldl
    (fun (s : State) n =>
      let t : State := { s with outShow := s.outShow ++ [n] }
      if s.sysWaits 1 (s.outVA n) then t.sysAsk 1 (s.outVA n)
      else
        match s.outBlock n with
        | some a => s.showOut n a
        | none => t) { s with outShow := [] }

/-- An install cut short leaves its extent Blank with code 7, which completes it (R418, R428). -/
def State.cutInstalls (s : State) : State :=
  let t : State := { s with extents := s.extents.map fun e =>
    (e.1, if e.2.st == .installing then { e.2 with st := .blank, code := 7 } else e.2) }
  s.installs.foldl (fun (s : State) e => if e.1 < 4096 then { s with installs := sdel e.1 s.installs }.counterWait e.2 else s) t

/-- MAIN_POWER_LOSS: everything in flight is gone; a start follows. -/
def execMainPowerLoss (s : State) : Outcome :=
  match s.event with
  | .mainPowerLoss => .next { s.cutInstalls with agenda := [], due := [.start 3] }
  | _ => .next s

/-- WARM_RESET: DRAM keeps its data; a start follows. -/
def execWarmReset (s : State) : Outcome :=
  match s.event with
  | .warmReset => .next { s.cutInstalls with agenda := [], due := [.start 1] }
  | _ => .next s

/-! ### Dormant (R446) -/

/-- Every comb is saved, but for the context whose write this is; nothing else stands in the way. -/
def State.mayDorm (s : State) : Bool :=
  -- no restore is in progress
  !((s.due ++ s.agenda).any fun e => match e with | .prest _ => true | _ => false) &&
  s.groups == [] && s.saving == [] && s.halt == [] &&
    s.cores.all (fun e => (List.range 8).all fun x => (e.1, x) == s.sel || (s.ctx e.1 x).st == .free) &&
    s.arrivals.all (fun e => e.2 == []) &&
    s.queues.all (fun e => match s.qhead e.1 with | some (k, h) => k.wait == .none && !(h.state == 1 && h.head < h.tail) | none => !s.queueWaits e.1) &&
    s.installs.all (fun e => 4096 ≤ e.1) && s.xfers.all (fun e => s.intoImage e.2) && s.cmds == [] &&
    s.cores.all (fun e => e.2.eng.queue == []) && s.notices == [] &&
    [0, 1].all fun h => (s.hive h).faults.all fun f => match s.faultStatus h (f.num % 256) with | some (_, st) => st != 0 | none => true

/-- DORM: firmware enters dormant, or the write is discarded. -/
def execDorm (s : State) : Outcome :=
  match s.event with
  | .dorm =>
    if s.mayDorm then .next { s with dormant := true, agenda := [.start 2], due := [] }
    else .next { s with dref := true }
  | _ => .next s

/-! ### Repair (R447-R449) -/

/-- A notice of kind 2. -/
def State.checkNotice (s : State) (cause : Byte) (source a b : Nat) : State :=
  s.notify { kind := 2, cause := cause, source := BitVec.ofNat 16 source, a := BitVec.ofNat 64 a, b := BitVec.ofNat 64 b }

/-- The stack of a slice has a spare channel left, of its 16 (R15). -/
def State.spareLeft (s : State) (slice : Nat) : Bool := (s.sparesUsed.filter fun x => x == stackOfSlice slice).length < 16

/-- Slices become degraded: the driver hears of it, and of a stack that has no spare left (R208, R449). -/
def State.degrade (s : State) (slices : List Nat) : State :=
  slices.foldl
    (fun s x =>
      let s := s.checkNotice 0x72 x x 0
      if s.spareLeft x then s else s.checkNotice 0x74 x x 0) { s with degraded := s.degraded ++ slices }

/-- REPAIR_REPLAY_END: the replay of a stack ends; a pseudo-channel of it may have become degraded. -/
def execRepairReplayEnd (s : State) : Outcome :=
  match s.event with
  | .repairReplayEnd stack bad =>
    let p := s.pick 385
    let new : List Nat := if p.1 = 0 then [] else [stack / 3 * 1152 + stack % 3 * 384 + (p.1 - 1)]
    let bad := (bad ++ new).filter fun x => stackOfSlice x == stack && !p.2.degraded.contains x
    .next ({ p.2 with replaying := p.2.replaying.filter fun x => x != stack }.degrade bad.eraseDups)
  | _ => .next s

/-- SPARE_TAKEOVER: firmware assigns a spare of the stack, while one is left, to a degraded slice, and the slice's accesses stall at
its home; when the event comes again, the spare serves the slice, whose sectors read as poison until they are written
(R449). -/
def execSpareTakeover (s : State) : Outcome :=
  match s.event with
  | .spareTakeover slice =>
    if !s.degraded.contains slice then .next s
    else if !s.bringing.contains slice then
      if !s.spareLeft slice then .next s
      else .next ({ s with sparesUsed := stackOfSlice slice :: s.sparesUsed, bringing := slice :: s.bringing }.later (.spareTakeover slice))
    else
      let s := { s with degraded := s.degraded.filter fun x => x != slice, bringing := s.bringing.filter fun x => x != slice,
                        lost := slice :: s.lost.filter fun x => x != slice, relit := s.relit.filter fun x => s.homeOf (32 * x) != slice }
      .next (s.checkNotice 0x72 slice slice 1)
  | _ => .next s

/-! ### Machine checks (R208) -/

/-- The unit that holds a word of SRAM: a core, or a home slice. -/
def State.sramUnit (s : State) (key : Nat) : Nat :=
  if key < 2 ^ 52 then s.homeOf key
  else if key < 2 ^ 53 then (key - 2 ^ 52) / 2 ^ 18
  else coreOfComb ((if key < 2 ^ 54 then (key - 2 ^ 53) / 2 ^ 24 else (key - 2 ^ 54) / 2 ^ 10)) 0

/-- Poisons bytes. -/
def State.spoilRange (s : State) (key n : Nat) : State :=
  { s with mem := s.mem.spoilAll ((List.range n).map fun i => key + i) }

/-- Cause 0x70 for contexts of a core. -/
def State.checkContexts (s : State) (core : Nat) (which : Ctx → Bool) : State :=
  (List.range 8).foldl
    (fun s x =>
      let c := s.ctx core x
      if c.st != .free && c.st != .reserved && which c then s.raiseAsync core x 0x70 0 else s) s

/-- MACHINE_CHECK. -/
def execMachineCheck (s : State) : Outcome :=
  match s.event with
  | .machineCheck k =>
    match k with
    | .sramData key =>
      let key := key / 4 * 4
      .next ((s.spoilRange key 4).checkNotice 0x70 (s.sramUnit key) (s.sramUnit key) 0)
    | .l1Data core line o =>
      let word := o % 64 / 4 * 4
      let hit (c : L1Line) : L1Line := if c.line = line then { c with pois := (List.range 4).map (word + ·) ++ c.pois } else c
      .next ((s.modCore core fun k => { k with l1 := k.l1.map hit }).checkNotice 0x70 core core 0)
    | .samplerData comb line =>
      let unit := coreOfComb comb 0
      .next ((s.modComb comb fun c => { c with samp := c.samp.map fun x => if x.line = line then { x with pois := true } else x }).checkNotice
        0x70 unit unit 0)
    | .context core cx =>
      let c := s.ctx core cx
      let s := if c.st != .free && c.st != .reserved then s.raiseAsync core cx 0x70 0 else s
      .next (s.checkNotice 0x70 core core 0)
    | .control core =>
      let s := (s.checkContexts core fun _ => true).checkNotice 0x70 core core 0
      .next { s with due := s.due ++ [.coreFailure core] }
    | .dramData pa =>
      if 2 ≤ paTop pa then .next s
      else .next ((s.spoilRange (pa / 32 * 32) 32).checkNotice 0x71 (s.homeOf pa) (s.homeOf pa) 0)
    | .channel slice =>
      if s.degraded.contains slice || 2304 ≤ slice then .next s
      else .next (s.degrade [slice])
    | .nectar line =>
      let h := stagingHive line
      if !(s.hive h).staging.contains line then .next s
      else
        let s := s.modHive h fun v => { v with staging := v.staging.erase line }
        let s := s.cores.foldl
          (fun s e => (List.range 8).foldl
            (fun s x =>
              if (s.ctx e.1 x).st = .parked && (s.ctx e.1 x).wait == .staging line then
                s.modCtx e.1 x fun c => { c with replay := some (0x73, BitVec.ofNat 64 line) }
              else s) s) s
        .next (s.checkNotice 0x73 (s.homeOf (2 ^ 49 + line * 2 ^ 16))
          (s.homeOf (2 ^ 49 + line * 2 ^ 16)) 0)
    | .noSpare unit => .next (s.checkNotice 0x74 unit unit 0)
  | _ => .next s

/-- CORE_FAILURE: the groups that run on the core take the machine check; the comb's spare stands in once no group runs on the
comb, or no further group is admitted (R21). -/
def execCoreFailure (s : State) : Outcome :=
  match s.event with
  | .coreFailure core =>
    let comb := combOf core
    let hit : List Nat := (s.groups.filter fun g => g.2.comb == comb && g.2.cores.getLsbD (core % 16)).map (·.1)
    let s := (combCores comb).foldl
      (fun s k => s.checkContexts k fun c => hit.contains c.group && !(c.asyncs.any fun a => a.1 == 0x70)) s
    if (s.comb comb).spareUsed then
      .next ((s.modComb comb fun c => { c with closed := true }).checkNotice 0x74 core core 0)
    else
      .next (((s.modComb comb fun c => { c with spareUsed := true }).modCore core fun k => { k with failed := true }).spareJoins comb)
  | _ => .next s

end Sys2Proof.Machine
end

