-- ==== Sys2Proof/Machine/Context.lean ====
section
/-! DEFINITION. The context instructions and migration (spec/07_context.md R181-R189). -/

namespace Sys2Proof.Machine

/-- HomeCore of an address, or what stops its translation (R181). -/
def State.homeCore (s : State) (core cx : Nat) (va : W72) : Except Resolved Nat × State :=
  let o := (lo64 va).toNat
  match (spaceOf va).toNat with
  | 0xF0 | 0xF2 | 0xF4 => (.ok core, s)
  | 0xF1 => (.ok (coreOfComb (combOf core) (o / 2 ^ 18 % 16)), s)
  | 0xF3 => (.ok (twinOf core), s)
  | sp =>
    if 0xF5 ≤ sp then (.error (.trap 0x25 (lo64 va)), s)
    else
      match s.translate core cx va .load with
      | (.ok l, s) => (.ok (coreOfSlice (s.homeOf l.key)), s)
      | (r, s) => (.error r, s)

/-- The address operand of `mig` and `home` and its home core. -/
def State.withHome (s : State) (a : BitVec 4) (k : State → Nat → Outcome) : Outcome :=
  let x := s.here.sreg a
  if x.pois then .next (s.raise 0x10 (poisVal 0 a.toNat))
  else
    match s.homeCore s.sel.1 s.sel.2 x.val with
    | (.ok t, s) => k s t
    | (.error (.trap code v), s) => .next (s.raise code v)
    | (.error (.park w), s) => .next (s.parkReplay w)
    | (.error (.ok _), s) => .next s

/-- The checks of R184 on the thread that wants to leave: the cause with its value. -/
def State.leaveCheck (s : State) (core cx : Nat) : Option (Byte × W64) :=
  let c := s.ctx core cx
  if c.gang.isSome then some (0x44, 0)
  else if cx = 7 then some (0x43, 3)
  else if c.priv || c.uht then some (0x43, 4)
  else if c.recs.any (fun r => r.op == .remote true) then some (0x43, 1)
  else if c.xfers != 0 then some (0x43, 2)
  else none

/-- The common part of the `mig` family (R184): after its bundle the thread is Migrating and waits to depart. -/
def State.leaveFor (s : State) (target : Nat) : Outcome :=
  match s.leaveCheck s.sel.1 s.sel.2 with
  | some (code, v) => .next (s.raise code v)
  | none =>
    if target = s.sel.1 then s.commit id
    else s.commitTo fun s =>
      let core := s.sel.1
      let cx := s.sel.2
      (s.finish.modHere fun c => { c with st := .migrating, target := target }).later (.migrationDepart core cx)

/-- `mig`. -/
def execMig (g a : BitVec 4) (s : State) : Outcome := s.guarded g fun s => s.withHome a fun s t => s.leaveFor t
/-- `migc`. -/
def execMigc (g a : BitVec 4) (s : State) : Outcome :=
  s.guarded g fun s =>
    let x := s.here.sreg a
    if x.pois then .next (s.raise 0x12 (poisVal 0 a.toNat))
    else s.leaveFor (x.val.extractLsb' 0 11).toNat
/-- `migb`. -/
def execMigb (g : BitVec 4) (s : State) : Outcome := s.guarded g fun s => s.leaveFor s.here.origin.toNat
/-- `home`. -/
def execHome (g d a : BitVec 4) (s : State) : Outcome :=
  s.guarded g fun s => s.withHome a fun s t => s.commitHere fun c => c.result d (BitVec.ofNat 64 t) false

/-- `isfull` (R188). -/
def execIsfull (g d a : BitVec 4) (f : Bool) (s : State) : Outcome :=
  s.guarded g fun s => s.commitHere fun c =>
    let full := if f then (c.vreg a).full else (c.sreg a).full
    let pois := if f then (c.vreg a).pois else (c.sreg a).pois
    let rec_ := c.recs.any fun r => r.isV == f && r.reg == a
    c.result d (BitVec.ofNat 64 ((if full then 1 else 0) + (if pois then 2 else 0) + (if rec_ then 4 else 0))) false

/-- `mkempty` (R189). -/
def execMkempty (g a : BitVec 4) (f : Bool) (s : State) : Outcome :=
  s.guarded g fun s => s.commitHere fun c => if f then c.markV a false else c.markS a false
/-- `mkfull` (R189). -/
def execMkfull (g a : BitVec 4) (f : Bool) (s : State) : Outcome :=
  s.guarded g fun s => s.commitHere fun c => if f then c.markV a true else c.markS a true

/-! ### Departure and arrival (R182, R184, R185) -/

/-- What a packet carries; everything else is as at an arrival. A watch is gone with reason 2, which the next `mwait` finds
unless an earlier reason is pending (R295; log 25). -/
def Ctx.packet (c : Ctx) : Ctx :=
  { s := c.s, p := c.p, k := c.k, delta := c.delta, pc := c.pc, fmode := c.fmode, fflags := c.fflags, origin := c.origin,
    unitid := c.unitid, launchid := c.launchid, groupid := c.groupid, retRec := c.retRec, launch := c.launch,
    group := c.group, triggered := c.triggered, follows := c.follows, asyncs := c.asyncs, landed := true,
    orphan := c.orphan, watch := c.watch, watchPending := if c.watch.isSome && c.watchPending = 0 then 2 else c.watchPending }

/-- A thread that is to be sent releases its binding, and its watch, which is gone with reason 2 (R184, R295). -/
def State.unbind (s : State) (core cx : Nat) : State :=
  { s with watches := s.watches.filter fun w => !(w.core == core && w.cx == cx) }.modCtx core cx fun c =>
    { c with chan := none, watchPending := if c.watch.isSome && c.watchPending = 0 then 2 else c.watchPending }

/-- MIGRATION_DEPART: once its records have retired and Release(dev) is complete, the thread releases what it holds at its core;
its packet is accepted by the arrival queue of the target's comb pair when that has room, and the context becomes Free. -/
def execMigrationDepart (s : State) : Outcome :=
  match s.event with
  | .migrationDepart core cx =>
    let c := s.ctx core cx
    if c.st != .migrating then .next s
    else
      let q := (sget (combPairOf c.target) s.arrivals).getD []
      if c.recs != [] || !s.released core cx .dev s.seq || s.halts core then .next (s.later (.migrationDepart core cx))
      else if 64 ≤ q.length then .next ((s.unbind core cx).later (.migrationDepart core cx))
      else
        let s := s.unbind core cx
        let p : Packet := { core := c.target, thread := (s.ctx core cx).packet }
        let s := { s with arrivals := sset (combPairOf c.target) (q ++ [p]) s.arrivals }
        .next ((s.vacate core cx).later (.migrationArrival c.target))
  | _ => .next s

/-- MIGRATION_ARRIVAL: the oldest entry for a core takes its lowest Free compute context, which the clear engine clears of
vectors and masks; the arrival is an Acquire(dev) (R240). -/
def execMigrationArrival (s : State) : Outcome :=
  match s.event with
  | .migrationArrival core =>
    match s.arrivalsFor core with
    | [] => .next s
    | p :: _ =>
      match s.freeCtxs core with
      | [] => .next (s.later (.migrationArrival core))
      | x :: _ =>
        let q := (sget (combPairOf core) s.arrivals).getD []
        let l := sget p.thread.launch s.launches
        let t := { p.thread with
          st := .clearing, generation := (s.ctx core x).used, used := (s.ctx core x).used,
          ptroot := (l.map (·.ptroot)).getD 0, asid := (l.map (·.asid)).getD 0,
          shand := (l.map (·.profile.shand)).getD 0, tdeleg0 := (l.map (·.profile.tdeleg0)).getD 0,
          tdeleg1 := (l.map (·.profile.tdeleg1)).getD 0, wdlim := (l.map (·.profile.wdlim)).getD 0 }
        let s := { s with arrivals := sset (combPairOf core) (q.erase p) s.arrivals }
        let s := (s.acquire core .dev).allocate core x t false
        .next (if t.asyncs.any fun a => a.1 == 0x61 then s.later (.cancelDelivery core x) else s)
  | _ => .next s

end Sys2Proof.Machine
end

