-- ==== Sys2Proof/Machine/Control.lean ====
section
/-! DEFINITION. Branches, jumps, hardware loops and the MISC forms that raise or return (spec/05_scalar.md R109-R111, R129,
spec/08_traps.md R204-R205). In a gang, guards, targets and counts are the leader's (spec/12_group.md R279). -/

namespace Sys2Proof.Machine

/-- As `guarded`, under the guard of the context from which control is taken. -/
def State.guardedCtl (s : State) (g : BitVec 4) (k : State → Outcome) : Outcome :=
  let p := s.ctl.guard g
  if p.pois then .next (s.raise 0x12 (poisVal 2 (g.extractLsb' 0 3).toNat))
  else if p.val then k s
  else s.commit id

/-- The address of the bundle in hand, moved by words (R109). -/
def branchTarget (pc : W72) (i : Imm 21) : W72 := mkVA (spaceOf pc) (lo64 pc + immOf i * 4)

/-- The address of the word after the bundle in hand. -/
def Ctx.afterBundle (c : Ctx) : W72 :=
  vaPlus c.pc (match c.cur with | some b => b.len | none => 2)

/-- `nop`. -/
def execNop (g : BitVec 4) (s : State) : Outcome := s.guarded g fun s => s.commit id

/-- `brk` raises 0x0A (R204). -/
def execBrk (g : BitVec 4) (s : State) : Outcome := s.guarded g fun s => .next (s.raise 0x0A 0)

/-- `trap` raises 0x0B with its immediate (R204). -/
def execTrap (g : BitVec 4) (i : BitVec 8) (s : State) : Outcome :=
  s.guarded g fun s => .next (s.raise 0x0B (i.setWidth 64))

/-- `eret` (R205): the bundle completes, and the thread resumes where the handler's record says. A follower of a gang goes
where its leader goes. -/
def execEret (g : BitVec 4) (s : State) : Outcome :=
  s.guardedCtl g fun s =>
    if s.lead.isSome then s.commit id
    else
      match s.here.eret with
      | none => .next (s.raise 0x06 (match s.here.cur with | some b => b.sw.setWidth 64 | none => 0))
      | some _ =>
        s.commitTo fun s => s.modHere fun c =>
          let c := c.applyV
          match c.eret with
          | some e => { e.boundary with via := some (lo64 c.pc), landed := true, st := .ready, wait := .none }
          | none => c

/-- `br`. -/
def execBr (g : BitVec 4) (i : Imm 21) (s : State) : Outcome :=
  s.guardedCtl g fun s => s.commitTo fun s => s.finishTo (branchTarget s.here.pc i)

/-- `bl`: the link goes to s15. -/
def execBl (g : BitVec 4) (i : Imm 21) (s : State) : Outcome :=
  s.guardedCtl g fun s => s.commitTo fun s =>
    let t := branchTarget s.here.pc i
    (s.modHere fun c => c.setS 15 c.afterBundle false).finishTo t

/-- A jump to the register's address: poison 0x12, misalignment 0x24 (R46, R96, R109). -/
def State.jump (s : State) (a : BitVec 4) (link : Ctx → Ctx) : Outcome :=
  let t := s.ctl.sreg a
  if t.pois then .next (s.raise 0x12 (poisVal 0 a.toNat))
  else if (lo64 t.val).extractLsb' 0 2 != 0 then .next (s.raise 0x24 (lo64 t.val))
  else s.commitTo fun s => (s.modHere link).finishTo t.val

/-- `jr`. -/
def execJr (g a : BitVec 4) (s : State) : Outcome := s.guardedCtl g fun s => s.jump a id

/-- `jlr`. -/
def execJlr (g d a : BitVec 4) (s : State) : Outcome :=
  s.guardedCtl g fun s => s.jump a fun c => c.setS d c.afterBundle false

/-- A loop level is pushed, or the body is passed over (R110). The spec does not say how the block that holds Last is read:
the model reads it as a fetch does, so that a miss parks the bundle and a page without the permission traps with the cause of a
fetch, at the loop (log 76). -/
def State.pushLoop (s : State) (n : W32) (len : BitVec 17) : Outcome :=
  let c := s.here
  let last := vaPlus c.pc len.toNat
  -- a follower takes the leader's levels when the bundle completes
  if s.lead.isSome then s.commit id
  else if (c.loop0.active && c.loop1.active) || (c.loop0.active && c.loop0.last.toNat < last.toNat) then
    .next (s.raise 0x09 (lo64 c.pc))
  else
    match s.fetchLoc s.sel.1 s.sel.2 last with
    | (.trap code val, s) => .next (s.raise code val)
    | (.park w, s) => .next (s.parkReplay w)
    | (.ok l, s) =>
      let ws := s.blockAt (leafKind l.leaf) l.key
      if (blockKinds ws).getD (wordIndex l.key) .notStart != .start then .next (s.raise 0x05 (lo64 last))
      else if n = 0 then
        let b := bundleAt (ws.drop (wordIndex l.key))
        s.commitTo fun s => s.modHere fun c => { c.complete none with pc := vaPlus last b.len }
      else
        s.commit fun s => s.modHere fun c =>
          let lv : Loop := ⟨c.afterBundle, last, n, true⟩
          if c.loop0.active then { c with loop1 := lv } else { c with loop0 := lv }

/-- `loop`: the count is sC[31:0]. -/
def execLoop (g k : BitVec 4) (n : BitVec 17) (s : State) : Outcome :=
  s.guardedCtl g fun s =>
    let x := s.ctl.sreg k
    if x.pois then .next (s.raise 0x12 (poisVal 0 k.toNat)) else s.pushLoop (x.val.extractLsb' 0 32) n

/-- `loopi`. -/
def execLoopi (g : BitVec 4) (k : Imm 4) (n : BitVec 17) (s : State) : Outcome :=
  s.guardedCtl g fun s =>
    s.pushLoop (match k with | .fld v => v.setWidth 32 | .lit w => w) n

end Sys2Proof.Machine
end

