-- ==== Sys2Proof/Machine/Forager.lean ====
section
/-! DEFINITION. The forager's bit streams and `fwait` (spec/07_context.md R190-R195). -/

namespace Sys2Proof.Machine

/-- Bit-stream misuse: cause 0x0D with its code (R192). -/
def State.bsFault (s : State) (code : Nat) : Outcome := .next (s.raise 0x0D (BitVec.ofNat 64 code))

/-- The place of the w-th word of a stream in the forager's own scratchpad; none outside its group's range. -/
def State.streamLoc (s : State) (b : Stream) (w : Nat) : Except W64 Loc :=
  let c := s.here
  let va : W72 := mkVA 0xF0 (BitVec.ofNat 64 (b.base.toNat + 8 * w))
  match s.window s.sel.1 c.launch c.group false va 8 true with
  | .ok l => .ok l
  | _ => .error (lo64 va)

/-- The stream with a word in hand that it keeps, the last two read (R193). -/
def State.readWord (s : State) (b : Stream) (w : Nat) : Except W64 (W64 × Bool × Stream) :=
  match b.kept.find? fun k => k.1 == w with
  | some k => .ok (k.2.1, k.2.2, b)
  | none =>
    match s.streamLoc b w with
    | .error va => .error va
    | .ok l =>
      let x : W64 := BitVec.ofNat 64 (s.rd l.key 8)
      let p := s.mem.poisoned l.key 8
      .ok (x, p, { b with kept := ((w, x, p) :: b.kept).take 2 })

/-- The words that a field of n bits at a position lies in. -/
def fieldWords (pos n : Nat) : List Nat := if pos % 64 + n ≤ 64 then [pos / 64] else [pos / 64, pos / 64 + 1]

/-- Words of an input stream, in order. -/
def State.readWords (s : State) (b : Stream) : List Nat → Except W64 (List (W64 × Bool) × Stream)
  | [] => .ok ([], b)
  | w :: l =>
    match s.readWord b w with
    | .error va => .error va
    | .ok (x, p, b) =>
      match State.readWords s b l with
      | .ok (r, b) => .ok ((x, p) :: r, b)
      | .error va => .error va

/-- The places of words of a stream, those that can be reached. -/
def State.wordLocs (s : State) (b : Stream) (ws : List Nat) : List Loc :=
  ws.filterMap fun w => match s.streamLoc b w with | .ok l => some l | .error _ => none

/-- A word that the stream does not keep and that an earlier access of the core, or one that its port has accepted, is still to
write. -/
def State.streamHeld (s : State) (b : Stream) (ws : List Nat) : Bool :=
  (s.wordLocs b (ws.filter fun w => !b.kept.any fun k => k.1 == w)).any fun l => s.behind s.sel.1 s.sel.2 s.seq l 8 || s.portTaken s.seq l

/-- `bsget` and `bspeek`: the value is fixed as the word access is made, and the register is filled (R179). -/
def State.bitsForm (s : State) (g d : BitVec 4) (n : BitVec 5) (step : Bool) : Outcome :=
  s.guarded g fun s =>
    let b := s.here.bsIn
    let k := n.toNat + 1
    let q := b.pos.toNat
    let ws := fieldWords q k
    if b.len.toNat < q + k then s.bsFault 2
    else
      match s.readWords b ws with
      | .error va => .next (s.raise 0x26 va)
      | .ok (xs, b) =>
        if s.streamHeld s.here.bsIn ws then .next (s.parkReplay .home)
        else s.commit fun s =>
          let seq := s.seq
          let x := BitVec.ofNat 512 (bitsOf (xs.map (·.1.toNat)) (q % 64) k)
          (s.issueRec false d (.bits (q % 64) k) (s.wordLocs b ws) .rlx .comb).modHere fun c =>
            { c with
              recs := c.recs.map fun r => if r.seq = seq then { r with got := some (x, xs.any (·.2)) } else r,
              bsIn := if step then { b with pos := b.pos + BitVec.ofNat 32 k } else b }

/-- `bsget`. -/
def execBsget (g d : BitVec 4) (n : BitVec 5) (s : State) : Outcome := s.bitsForm g d n true
/-- `bspeek`. -/
def execBspeek (g d : BitVec 4) (n : BitVec 5) (s : State) : Outcome := s.bitsForm g d n false

/-- `bsinit`. -/
def execBsinit (g a b : BitVec 4) (x : Bool) (s : State) : Outcome :=
  s.guarded g fun s =>
    let u := s.here.sreg a
    let v := s.here.sreg b
    let base := (lo64 u.val).toNat
    let len : W32 := v.val.extractLsb' 0 32
    if u.pois then .next (s.raise 0x10 (poisVal 0 a.toNat))
    else if v.pois then .next (s.raise 0x10 (poisVal 0 b.toNat))
    else if spaceOf u.val != 0xF0 || base % 8 != 0 || 2097152 < len.toNat || 262144 < base + (len.toNat + 7) / 8 then s.bsFault 1
    else
      s.commitHere fun c =>
        let t : Stream := { base := BitVec.ofNat 18 base, len := len }
        if x then { c with bsOut := t } else { c with bsIn := t }

/-- `bsskip`. -/
def execBsskip (g b : BitVec 4) (s : State) : Outcome :=
  s.guarded g fun s =>
    let v := s.here.sreg b
    let t := s.here.bsIn
    let pos := t.pos.toNat + (v.val.extractLsb' 0 32).toNat
    if v.pois then .next (s.raise 0x10 (poisVal 0 b.toNat))
    else if t.len.toNat < pos then s.bsFault 2
    else s.commitHere fun c => { c with bsIn := { t with pos := BitVec.ofNat 32 pos } }

/-- Appends n bits to the output stream; a word whose last bit is placed is stored (R193). -/
def State.appendBits (s : State) (x n : Nat) : Outcome :=
  let b := s.here.bsOut
  let q := b.pos.toNat
  if b.len.toNat < q + n then s.bsFault 3
  else
    let w := b.word.toNat % 2 ^ (q % 64) + x % 2 ^ n * 2 ^ (q % 64)
    let go (s : State) (word : Nat) : State :=
      s.modHere fun c => { c with bsOut := { b with pos := BitVec.ofNat 32 (q + n), word := BitVec.ofNat 64 word } }
    if q % 64 + n < 64 then s.commit fun s => go s w
    else
      match s.streamLoc b (q / 64) with
      | .error va => .next (s.raise 0x26 va)
      | .ok l => s.commit fun s => go (s.issueWrite l 8 (.bytes (cellsOf l.key (w % 2 ^ 64) 8) [])) (w / 2 ^ 64)

/-- `bsput`. -/
def execBsput (g a : BitVec 4) (n : BitVec 5) (s : State) : Outcome :=
  s.guarded g fun s =>
    let x := s.here.sreg a
    if x.pois then .next (s.raise 0x11 (poisVal 0 a.toNat)) else s.appendBits (lo64 x.val).toNat (n.toNat + 1)

/-- `bsalign`. -/
def execBsalign (g : BitVec 4) (x : Bool) (s : State) : Outcome :=
  s.guarded g fun s =>
    if x then s.appendBits 0 ((8 - s.here.bsOut.pos.toNat % 8) % 8)
    else
      let t := s.here.bsIn
      let pos := (t.pos.toNat + 7) / 8 * 8
      if t.len.toNat < pos then s.bsFault 2 else s.commitHere fun c => { c with bsIn := { t with pos := BitVec.ofNat 32 pos } }

/-- `bsflush`. -/
def execBsflush (g d : BitVec 4) (s : State) : Outcome :=
  s.guarded g fun s =>
    let b := s.here.bsOut
    let q := b.pos.toNat
    let done (s : State) : State := s.modHere fun c => c.result d (BitVec.ofNat 64 q) false
    if q % 64 = 0 then s.commit done
    else
      match s.streamLoc b (q / 64) with
      | .error va => .next (s.raise 0x26 va)
      | .ok l => s.commit fun s =>
          done (s.issueWrite l 8 (.bytes (cellsOf l.key (b.word.toNat % 2 ^ (q % 64)) 8) []))

/-- `fwait`: an acquire at comb scope (R195, R359). -/
def execFwait (g d a : BitVec 4) (s : State) : Outcome :=
  s.guarded g fun s => s.withRing a fun h r =>
    if r.filled = 0 then .next (s.parkReplay (.ringFilled h 1))
    else s.commit fun s => (s.modHere fun c => c.result d (BitVec.ofNat 64 r.filled) false).acquire s.sel.1 .comb

end Sys2Proof.Machine
end

