-- ==== Sys2Proof/Machine/Link.lean ====
section
/-! DEFINITION. Accesses to the host and the platform power link (spec/24_link.md R431-R435). -/

namespace Sys2Proof.Machine

/-! ### The host (R429-R431) -/

/-- An access reaches host memory. -/
def Loc.atHost (l : Loc) : Bool := l.win == .glob && 4 ≤ paTop l.key && paTop l.key ≤ 7

/-- The addresses that the host may write: its own memory, and DRAM below the page limit while the link is up. -/
def State.hostReaches (s : State) (pa n : Nat) : Bool :=
  let top := paTop pa
  paTop (pa + n - 1) == top &&
    ((4 ≤ top && top ≤ 7) || (top ≤ 1 && s.hostUp && pa % 2 ^ 48 + n ≤ s.pageLimit))

/-- HOST_WRITE: the host writes bytes; the write is performed at its home in its turn. -/
def execHostWrite (s : State) : Outcome :=
  match s.event with
  | .hostWrite pa bytes =>
    if bytes = [] || !s.hostReaches pa bytes.length then .next s
    else
      let l : Loc := { win := .glob, key := pa, va := 0, leaf := 0 }
      .next (s.engineWrite .host l bytes.length (bytes.zipIdx.map fun b => (pa + b.2, b.1)) [])
  | _ => .next s

/-- An access to host memory that has had no completion: a record of a context, a sampler fill, a write of a thread or an
engine. -/
inductive Late where
  | load (r : Rec)
  | sample (w : SampFill)
  | flight (f : Flight)
deriving DecidableEq, Repr

/-- The accesses of a context and of the device's engines that may time out. -/
def State.lateOnes (s : State) (core cx : Nat) : List Late :=
  let out (f : Flight) : Bool := (match f.by_ with | .thread k x => k == core && x == cx | .host => false | _ => true) && f.loc.atHost
  ((s.ctx core cx).recs.filter fun r => r.open_ && r.locs.any Loc.atHost).map .load ++
    ((s.comb (combOf core)).sampWait.filter fun w => w.core == core && w.cx == cx && w.loc.atHost).map .sample ++
    (s.flights.filter out).map .flight

/-- What an access that has timed out ends as: a load or an atomic with poison, a write discarded (R431). -/
def State.timeOut (s : State) (core cx : Nat) : Late → State
  | .load r =>
    (s.modCtx core cx fun c => { c with recs := c.recs.map fun k => if k.seq = r.seq then { k with got := some (0, true) } else k }).later
      (.fill core cx r.isV r.reg)
  | .sample w =>
    let serves (r : Rec) : Bool :=
      r.op == .samp && r.got.isNone && (r.locs.any fun k => k.key == w.loc.key) && w.upto.all fun b => decide (r.seq < b)
    let s := (combThreads (combOf core)).foldl
      (fun s t => if (s.ctx t.1 t.2).recs.any serves then s.modCtx t.1 t.2 fun c => c.sampled serves 0 true else s) s
    s.modComb (combOf core) fun c => { c with sampWait := c.sampWait.erase w }
  | .flight f => { s with flights := s.flights.filter fun e => e.id != f.id }

/-- HOST_COMPLETION_TIMEOUT: an access of a context or of an engine to host memory, one that a free choice names, has had no
completion, and the link is down. -/
def execHostCompletionTimeout (s : State) : Outcome :=
  match s.event with
  | .hostCompletionTimeout core cx =>
    let l := s.lateOnes core cx
    let p := s.pick l.length
    match l[p.1]? with
    | none => .next s
    | some x => .next { p.2.timeOut core cx x with hlink := s.hlink &&& ~~~(1 : W64) }
  | _ => .next s

/-! ### Power (R433-R435) -/

/-- The request of a tick is sent. -/
def State.sendRequest (s : State) : State := { s with asked := s.asked + 1, request := s.preq }

/-- POWER_TICK: a tick sends the request, and brings a grant or none. -/
def execPowerTick (s : State) : Outcome :=
  match s.event with
  | .powerTick (some g) => .next { s.sendRequest with grant := g, grantSeq := s.grantSeq + 1, missed := 0 }
  | .powerTick none =>
    let s := { s.sendRequest with missed := s.missed + 1 }
    .next (if 3 ≤ s.missed then { s with due := s.due ++ [.grantLoss] } else s)
  | _ => .next s

/-- GRANT_LOSS: three ticks in a row have brought no grant. -/
def execGrantLoss (s : State) : Outcome :=
  match s.event with
  | .grantLoss => .next (if 3 ≤ s.missed then { s with grant := 1500 } else s)
  | _ => .next s

/-- A sample of the board power: the runs of samples above 1.1 × grant and at or below the grant. -/
def State.sample (s : State) (x : W16) : State :=
  { s with pmeas := x, above := if 11 * s.grant.toNat < 10 * x.toNat then s.above + 1 else 0,
           below := if x.toNat ≤ s.grant.toNat then s.below + 1 else 0 }

/-- Takes samples in order; whether one of the runs reaches its length. -/
def State.samples (s : State) (run : State → Bool) : List W16 → Bool × State
  | [] => (run s, s)
  | x :: l =>
    let t := s.sample x
    let r := State.samples t run l
    (run t || r.1, r.2)

/-- CLAMP_ENGAGE: after 100 consecutive samples above 1.1 × grant the clamp engages, in a cycle without a refill, which would have to
use the new setting (R435). -/
def execClampEngage (s : State) : Outcome :=
  match s.event with
  | .clampEngage l =>
    s.unless (refillCycle s.now) <|
    let r := s.samples (fun t => 100 ≤ t.above) l
    .next (if r.1 then { r.2 with clamp := true } else r.2)
  | _ => .next s

/-- CLAMP_RELEASE: after 1,000 consecutive samples at or below the grant it releases, as `execClampEngage`. -/
def execClampRelease (s : State) : Outcome :=
  match s.event with
  | .clampRelease l =>
    s.unless (refillCycle s.now) <|
    let r := s.samples (fun t => 1000 ≤ t.below) l
    .next (if r.1 then { r.2 with clamp := false } else r.2)
  | _ => .next s

end Sys2Proof.Machine
end

