-- ==== Sys2Proof/Machine/Sreg.lean ====
section
/-! DEFINITION. The special registers: `rdsr`, `wrsr`, `fmode` (spec/05_scalar.md R127-R128, spec/03_encoding.md R54,
spec/07_context.md R173-R176). -/

namespace Sys2Proof.Machine

/-! ### g and w registers (R173, R174) -/

/-- Whether a write issued in a cycle by a core is in effect for a reader. -/
def inEffect (w : Bool) (reader now : Nat) (x : Nat × Nat × W64) : Bool :=
  if w && x.2.1 != reader then x.1 + 1 ≤ now else x.1 + 3 ≤ now

/-- What a reader finds in a shared register: its value, none while it is empty. Of the writes that are in effect for it the
later issue wins; for writes of the twins in different cycles less than three apart the spec does not say which remains
(log 77). -/
def GCell.view (c : GCell) (w : Bool) (reader now : Nat) : Option W64 :=
  match (c.late.filter (inEffect w reader now)).getLast? with
  | some x => some x.2.2
  | none => if c.full then some c.val else none

/-- A write; earlier writes that are in effect for every reader become the held value. -/
def GCell.put (c : GCell) (now core : Nat) (x : W64) : GCell :=
  let old := c.late.filter fun y => y.1 + 3 ≤ now
  let c := match old.getLast? with
    | some y => { c with val := y.2.2, full := true, late := c.late.filter fun y => now < y.1 + 3 }
    | none => c
  { c with late := c.late ++ [(now, core, x)] }

/-- One of eight shared registers. -/
def gcell (v : Vector GCell 8) (n : BitVec 3) : GCell := v[n.toNat]'n.isLt

def State.gview (s : State) (core : Nat) (n : BitVec 3) : Option W64 := (gcell (s.core core).g n).view false core s.now
def State.wview (s : State) (core : Nat) (n : BitVec 3) : Option W64 := (gcell (s.pair (pairOf core)) n).view true core s.now

/-- A write of a shared register, which fills it. -/
def State.gput (s : State) (core : Nat) (n : BitVec 3) (x : W64) : State :=
  s.modCore core fun k =>
    let v := k.g.set n.toNat ((gcell k.g n).put s.now core x) n.isLt
    { k with g := v }
def State.wput (s : State) (core : Nat) (n : BitVec 3) (x : W64) : State :=
  let p := s.pair (pairOf core)
  let v := p.set n.toNat ((gcell p n).put s.now core x) n.isLt
  { s with pairs := sset (pairOf core) v s.pairs }

/-! ### Reading -/

/-- `lstat` (R113). -/
def Ctx.lstat (c : Ctx) : W64 :=
  let n (l : Loop) : W32 := if l.active then l.count else 0
  n c.loop0 ++ n c.loop1

/-- `cmstat` (R275). -/
def State.cmstat (s : State) (core : Nat) (c : Ctx) : W64 :=
  let free := match s.group c.group with
    | some g => (g.share - s.demand g) * 32
    | none => 0
  BitVec.ofNat 64 (free % 2 ^ 24 * 2 ^ 32 + s.combFree (combOf core) * 32 % 2 ^ 24)

/-- `mbcnt` (R323). -/
def Core.mbcnt (k : Core) : W64 := BitVec.ofNat 64 ((if k.ovf then 256 else 0) + k.mailbox.length)

/-- `pwrctl` (R444). -/
def State.pwrctl (s : State) : W64 :=
  BitVec.ofNat 64 (16 * s.startKind.toNat + (if s.replaying = [] then 8 else 0) + (if s.dref then 2 else 0) +
    (if s.dormant then 1 else 0))

/-- The 64 bits that a read of an assigned register other than a shared one gives. -/
def State.sregVal (s : State) (core cx : Nat) (n : Nat) : W64 :=
  let c := s.ctx core cx
  let k := s.core core
  if 0x0C ≤ n ∧ n ≤ 0x13 then 
    let ch := (k.chans[n - 0x0C]?).getD {}
    (((0 : BitVec 8) ++ ch.cause) ++ (BitVec.ofBool ch.err)) ++ ch.doneBelow
  else if 0x30 ≤ n ∧ n ≤ 0x33 then lo64 (c.k.getD (n - 0x30) 0)
  else
    match n with
    | 0x00 => BitVec.ofNat 64 core
    | 0x01 => BitVec.ofNat 64 cx
    | 0x02 => c.unitid
    | 0x03 => c.launchid.setWidth 64
    | 0x04 => c.groupid
    | 0x05 => c.gangid.setWidth 64
    | 0x06 => s.cycle
    | 0x07 => k.ebal.setWidth 64
    | 0x08 => k.erefill.setWidth 64
    | 0x09 => c.fmode.setWidth 64
    | 0x0A => c.fflags.setWidth 64
    | 0x0B => c.lstat
    | 0x14 => k.mbcnt
    | 0x15 => c.origin.setWidth 64
    | 0x20 => c.tcause.setWidth 64
    | 0x21 => c.tval
    | 0x22 => c.tpc
    | 0x23 => c.tword
    | 0x24 => c.thand
    | 0x25 => c.tsave
    | 0x100 => c.sstatus.setWidth 64
    | 0x101 => c.shand
    | 0x102 => c.ptroot
    | 0x103 => c.asid.setWidth 64
    | 0x104 => k.mcapk.setWidth 64
    | 0x105 => c.tdeleg0
    | 0x106 => c.tdeleg1
    | 0x107 => c.scause.setWidth 64
    | 0x108 => c.sval
    | 0x109 => c.spc
    | 0x10A => c.sword
    | 0x10B => c.ssave
    | 0x10C => c.wdlim.setWidth 64
    | 0x10D => s.psave
    | 0x10E => s.pcomb0
    | 0x10F => s.pcomb1
    | 0x110 => s.pctl.setWidth 64
    | 0x111 => s.prest
    | 0x112 => (s.hive (hiveOf core)).fring
    | 0x113 => s.cmstat core c
    | 0x114 => s.nring
    | 0x115 => s.nhead
    | 0x116 => s.ntail
    | 0x117 => s.qhdr
    | 0x118 => s.ktab
    | 0x119 => s.etab
    | 0x11A => s.hlink
    | 0x11B => s.grantSeq.setWidth 64 <<< 16 ||| s.grant.setWidth 64
    | 0x11C => s.preq.setWidth 64
    | 0x11D => (if s.clamp then 0x10000 else 0) ||| s.pmeas.setWidth 64
    | 0x11E => s.dtab
    | 0x11F => s.pwrctl
    | 0x120 => s.sptroot
    | _ => 0

/-- `rdsr`: k0-k3 are 72 bits wide, the other registers follow R98; an empty shared register parks the thread (R127). -/
def execRdsr (g d : BitVec 4) (n : BitVec 12) (s : State) : Outcome :=
  s.guarded g fun s =>
    let core := s.sel.1
    let num := n.toNat
    let shared (w : Bool) (v : Option W64) : Outcome :=
      match v with
      | some x => s.commitHere fun c => c.result d x false
      | none => .next (s.parkReplay (.shared w (n.extractLsb' 0 3)))
    if 0x40 ≤ num ∧ num ≤ 0x47 then shared true (s.wview core (n.extractLsb' 0 3))
    else if 0x50 ≤ num ∧ num ≤ 0x57 then shared false (s.gview core (n.extractLsb' 0 3))
    else
      let v := s.sregVal core s.sel.2 num
      s.commitHere fun c =>
        if 0x30 ≤ num ∧ num ≤ 0x33 then c.setS d (c.k.getD (num - 0x30) 0) false else c.result d v false

/-! ### Writing -/

/-- The writes of special registers that only change the context; none for the other numbers. -/
def Ctx.writeSreg (c : Ctx) (n : Nat) (x : W64) : Option Ctx :=
  match n with
  | 0x09 => some { c with fmode := x.extractLsb' 0 10 }
  | 0x0A => some { c with fflags := x.extractLsb' 0 6 }
  | 0x20 => some { c with tcause := x.extractLsb' 0 8 }
  | 0x21 => some { c with tval := x }
  | 0x22 => some { c with tpc := x }
  | 0x23 => some { c with tword := x }
  | 0x24 => some { c with thand := x &&& ~~~(2 : W64) }
  | 0x25 => some { c with tsave := x }
  | 0x100 => some { c with sstatus := x.extractLsb' 0 4 }
  | 0x101 => some { c with shand := x &&& ~~~(3 : W64) }
  | 0x102 => some { c with ptroot := x &&& 0x000FFFFFFFFFF000 }
  | 0x103 => some { c with asid := x.extractLsb' 0 16 }
  | 0x105 => some { c with tdeleg0 := x &&& delegMask 0 }
  | 0x106 => some { c with tdeleg1 := x &&& delegMask 64 }
  | 0x107 => some { c with scause := x.extractLsb' 0 8 }
  | 0x108 => some { c with sval := x }
  | 0x109 => some { c with spc := x }
  | 0x10A => some { c with sword := x }
  | 0x10B => some { c with ssave := x }
  | 0x10C => some { c with wdlim := x.extractLsb' 0 16 }
  | _ => none

/-- The effect of a write to any register; a read-only one keeps its value (R4, R54). The events that a write starts
follow at once. -/
def State.writeSreg (s : State) (core cx n : Nat) (x : W64) : State :=
  match (s.ctx core cx).writeSreg n x with
  | some c => s.setCtx core cx c
  | none =>
    if 0x40 ≤ n ∧ n ≤ 0x47 then s.wput core (BitVec.ofNat 3 n) x
    else if 0x50 ≤ n ∧ n ≤ 0x57 then s.gput core (BitVec.ofNat 3 n) x
    else
      let soon (e : Event) (s : State) : State := { s with due := s.due ++ [e] }
      match n with
      | 0x08 => s.modCore core fun k => { k with erefill := x.extractLsb' 0 19 }
      | 0x104 => s.modCore core fun k => { k with mcapk := x.extractLsb' 0 32, oldKey := some (s.now, k.mcapk) }
      | 0x10D => { s with psave := x &&& ~~~(0x1FFFFFF : W64) }
      | 0x10E => { s with pcomb0 := x }
      | 0x10F => { s with pcomb1 := x }
      | 0x110 => if x.getLsbD 0 then soon .pctlGo s else s
      | 0x111 => soon (.prest x) { s with prest := x }
      | 0x112 => s.modHive (hiveOf core) fun h => { h with fring := x &&& ~~~(0x3FFE : W64) }
      | 0x114 =>
        let s := { s with nring := x &&& ~~~(0xFE : W64) }
        (s.sysTold 0 s.noticeSlot).flushNotices (s.notices.length + 1)
      | 0x115 => soon (.nheadWrite x) s
      | 0x117 => soon (.qhdr x) { s with qhdr := x }
      | 0x118 => { s with ktab := x &&& ~~~(0x3FFFF : W64) }
      -- the tables that firmware keeps in memory are written where they stand now (R412, R439; log 40)
      | 0x119 => { s with etab := x &&& ~~~(0x3FFFF : W64), extShow := s.extents.map (·.1) }
      | 0x11A =>
        let cto : W64 := if x.extractLsb' 8 4 = 0 then 1 else (x.extractLsb' 8 4).setWidth 64
        { s with hlink := (s.hlink &&& ~~~(0xF00 : W64)) ||| (cto <<< 8) }
      | 0x11C => { s with preq := x.extractLsb' 0 16 }
      | 0x11E => { s with dtab := x &&& ~~~(0x1FF : W64), outShow := List.range 4 }
      | 0x11F => if x.getLsbD 0 then soon .dorm { s with dref := false } else { s with dref := false }
      | 0x120 => { s with sptroot := x &&& 0x000FFFFFFFFFF000, sysBad := [] }
      | _ => s

/-- `wrsr`: `erefill` may be written in privileged mode only, and traps with 0x06 when the write executes; a poisoned source
traps with 0x11 (R96). -/
def execWrsr (g a : BitVec 4) (n : BitVec 12) (s : State) : Outcome :=
  s.guarded g fun s =>
    let x := s.here.sreg a
    if n = 0x008 && !s.here.priv then .next (s.raise 0x06 (match s.here.cur with | some b => b.sw.setWidth 64 | none => 0))
    else if x.pois then .next (s.raise 0x11 (poisVal 0 a.toNat))
    else s.commit fun s => s.writeSreg s.sel.1 s.sel.2 n.toNat (lo64 x.val)

/-- `fmode #rm` (R187): in force from the next bundle. -/
def execFmode (g : BitVec 4) (r : Rm) (s : State) : Outcome :=
  s.guarded g fun s => s.commitHere fun c =>
    { c with fmode := c.fmode.extractLsb' 2 8 ++ encRm r }

end Sys2Proof.Machine
end

