-- ==== Sys2Proof/Machine/Dispatch.lean ====
section
/-! DEFINITION. What each operation does: one arm per row of the opcode table. -/

namespace Sys2Proof.Machine

def exec (i : Instr) (s : State) : Host.Outcome State Fault Refusal :=
  match i with
  | .nop g => Sys2Proof.Machine.execNop g s
  | .brk g => Sys2Proof.Machine.execBrk g s
  | .exit g => Sys2Proof.Machine.execExit g s
  | .eret g => Sys2Proof.Machine.execEret g s
  | .trap g n => Sys2Proof.Machine.execTrap g n s
  | .tlbinvPage g a b => Sys2Proof.Machine.execTlbinvPage g a b s
  | .tlbinvAsid g b => Sys2Proof.Machine.execTlbinvAsid g b s
  | .tlbinvAll g => Sys2Proof.Machine.execTlbinvAll g s
  | .add g d a b => Sys2Proof.Machine.execAdd g d a b s
  | .sub g d a b => Sys2Proof.Machine.execSub g d a b s
  | .mul g d a b => Sys2Proof.Machine.execMul g d a b s
  | .mulh g d a b => Sys2Proof.Machine.execMulh g d a b s
  | .mulhu g d a b => Sys2Proof.Machine.execMulhu g d a b s
  | .div g d a b => Sys2Proof.Machine.execDiv g d a b s
  | .divu g d a b => Sys2Proof.Machine.execDivu g d a b s
  | .rem g d a b => Sys2Proof.Machine.execRem g d a b s
  | .remu g d a b => Sys2Proof.Machine.execRemu g d a b s
  | .and g d a b => Sys2Proof.Machine.execAnd g d a b s
  | .or g d a b => Sys2Proof.Machine.execOr g d a b s
  | .xor g d a b => Sys2Proof.Machine.execXor g d a b s
  | .shl g d a b => Sys2Proof.Machine.execShl g d a b s
  | .shr g d a b => Sys2Proof.Machine.execShr g d a b s
  | .sra g d a b => Sys2Proof.Machine.execSra g d a b s
  | .min g d a b => Sys2Proof.Machine.execMin g d a b s
  | .max g d a b => Sys2Proof.Machine.execMax g d a b s
  | .minu g d a b => Sys2Proof.Machine.execMinu g d a b s
  | .maxu g d a b => Sys2Proof.Machine.execMaxu g d a b s
  | .clz g d a => Sys2Proof.Machine.execClz g d a s
  | .ctz g d a => Sys2Proof.Machine.execCtz g d a s
  | .pcnt g d a => Sys2Proof.Machine.execPcnt g d a s
  | .sext g d a e => Sys2Proof.Machine.execSext g d a e s
  | .mov g d a => Sys2Proof.Machine.execMov g d a s
  | .andn g d a b => Sys2Proof.Machine.execAndn g d a b s
  | .addi g d a n => Sys2Proof.Machine.execAddi g d a n s
  | .andi g d a n => Sys2Proof.Machine.execAndi g d a n s
  | .ori g d a n => Sys2Proof.Machine.execOri g d a n s
  | .xori g d a n => Sys2Proof.Machine.execXori g d a n s
  | .shli g d a n => Sys2Proof.Machine.execShli g d a n s
  | .shri g d a n => Sys2Proof.Machine.execShri g d a n s
  | .srai g d a n => Sys2Proof.Machine.execSrai g d a n s
  | .movi g d n => Sys2Proof.Machine.execMovi g d n s
  | .orh g d a n => Sys2Proof.Machine.execOrh g d a n s
  | .bfx g d a p n => Sys2Proof.Machine.execBfx g d a p n s
  | .bfxs g d a p n => Sys2Proof.Machine.execBfxs g d a p n s
  | .bfi g d a p n => Sys2Proof.Machine.execBfi g d a p n s
  | .lea g d a b n => Sys2Proof.Machine.execLea g d a b n s
  | .leai g d a n => Sys2Proof.Machine.execLeai g d a n s
  | .setsp g d a s1 => Sys2Proof.Machine.execSetsp g d a s1 s
  | .getsp g d => Sys2Proof.Machine.execGetsp g d s
  | .cmp g p a b c => Sys2Proof.Machine.execCmp g p a b c s
  | .cmpi g p a c n => Sys2Proof.Machine.execCmpi g p a c n s
  | .pand g d a b => Sys2Proof.Machine.execPand g d a b s
  | .por g d a b => Sys2Proof.Machine.execPor g d a b s
  | .pxor g d a b => Sys2Proof.Machine.execPxor g d a b s
  | .pandn g d a b => Sys2Proof.Machine.execPandn g d a b s
  | .pnot g d a => Sys2Proof.Machine.execPnot g d a s
  | .pword g d => Sys2Proof.Machine.execPword g d s
  | .pset g a => Sys2Proof.Machine.execPset g a s
  | .sel g d a b p => Sys2Proof.Machine.execSel g d a b p s
  | .br g n => Sys2Proof.Machine.execBr g n s
  | .bl g n => Sys2Proof.Machine.execBl g n s
  | .jr g a => Sys2Proof.Machine.execJr g a s
  | .jlr g d a => Sys2Proof.Machine.execJlr g d a s
  | .loop g c n => Sys2Proof.Machine.execLoop g c n s
  | .loopi g c n => Sys2Proof.Machine.execLoopi g c n s
  | .ld g d a o wd r s1 => Sys2Proof.Machine.execLd g d a o wd r s1 s
  | .ldz g d a o wd r s1 => Sys2Proof.Machine.execLdz g d a o wd r s1 s
  | .st g d a o wd r s1 => Sys2Proof.Machine.execSt g d a o wd r s1 s
  | .ldv g d a o r s1 => Sys2Proof.Machine.execLdv g d a o r s1 s
  | .stv g d a o r s1 => Sys2Proof.Machine.execStv g d a o r s1 s
  | .ldsamp g d a o => Sys2Proof.Machine.execLdsamp g d a o s
  | .gath g v s1 n e h r c => Sys2Proof.Machine.execGath g v s1 n e h r c s
  | .scat g v s1 n e h r c => Sys2Proof.Machine.execScat g v s1 n e h r c s
  | .amo g d a b o w r s1 => Sys2Proof.Machine.execAmo g d a b o w r s1 s
  | .cas g d a b w r s1 => Sys2Proof.Machine.execCas g d a b w r s1 s
  | .ared g a b o w r s1 => Sys2Proof.Machine.execAred g a b o w r s1 s
  | .fence g k s1 => Sys2Proof.Machine.execFence g k s1 s
  | .fsamp g s1 => Sys2Proof.Machine.execFsamp g s1 s
  | .sinv g s1 => Sys2Proof.Machine.execSinv g s1 s
  | .mwatch g a => Sys2Proof.Machine.execMwatch g a s
  | .mwait g d b => Sys2Proof.Machine.execMwait g d b s
  | .mclr g => Sys2Proof.Machine.execMclr g s
  | .cflush g a => Sys2Proof.Machine.execCflush g a s
  | .cinval g a => Sys2Proof.Machine.execCinval g a s
  | .prf g a => Sys2Proof.Machine.execPrf g a s
  | .mig g a => Sys2Proof.Machine.execMig g a s
  | .migc g a => Sys2Proof.Machine.execMigc g a s
  | .migb g => Sys2Proof.Machine.execMigb g s
  | .home g d a => Sys2Proof.Machine.execHome g d a s
  | .isfull g d a f => Sys2Proof.Machine.execIsfull g d a f s
  | .mkempty g a f => Sys2Proof.Machine.execMkempty g a f s
  | .mkfull g a f => Sys2Proof.Machine.execMkfull g a f s
  | .fmode g r => Sys2Proof.Machine.execFmode g r s
  | .rdsr g d s1 => Sys2Proof.Machine.execRdsr g d s1 s
  | .wrsr g a s1 => Sys2Proof.Machine.execWrsr g a s1 s
  | .msg g a c => Sys2Proof.Machine.execMsg g a c s
  | .mrecv g d => Sys2Proof.Machine.execMrecv g d s
  | .chbind g c => Sys2Proof.Machine.execChbind g c s
  | .tbset g a c => Sys2Proof.Machine.execTbset g a c s
  | .tbclr g c => Sys2Proof.Machine.execTbclr g c s
  | .mbrd g d p w => Sys2Proof.Machine.execMbrd g d p w s
  | .callat g d a b => Sys2Proof.Machine.execCallat g d a b s
  | .ret g a => Sys2Proof.Machine.execRet g a s
  | .qput g d a b => Sys2Proof.Machine.execQput g d a b s
  | .gang g w => Sys2Proof.Machine.execGang g w s
  | .ungang g => Sys2Proof.Machine.execUngang g s
  | .barInit g a b => Sys2Proof.Machine.execBarInit g a b s
  | .barArv g a => Sys2Proof.Machine.execBarArv g a s
  | .barWait g a b => Sys2Proof.Machine.execBarWait g a b s
  | .barArw g a => Sys2Proof.Machine.execBarArw g a s
  | .trig g => Sys2Proof.Machine.execTrig g s
  | .cancel g a => Sys2Proof.Machine.execCancel g a s
  | .cnt g d a f => Sys2Proof.Machine.execCnt g d a f s
  | .xget g d a b n r c => Sys2Proof.Machine.execXget g d a b n r c s
  | .xput g d a b n r c => Sys2Proof.Machine.execXput g d a b n r c s
  | .xcopy g d a b n r c => Sys2Proof.Machine.execXcopy g d a b n r c s
  | .xtile g d a b n r c => Sys2Proof.Machine.execXtile g d a b n r c s
  | .xgetv g d a b n r c => Sys2Proof.Machine.execXgetv g d a b n r c s
  | .xwait g d a c => Sys2Proof.Machine.execXwait g d a c s
  | .xstat g d k c => Sys2Proof.Machine.execXstat g d k c s
  | .cbinit g a b n => Sys2Proof.Machine.execCbinit g a b n s
  | .cbpush g d a b => Sys2Proof.Machine.execCbpush g d a b s
  | .cbpop g d a b => Sys2Proof.Machine.execCbpop g d a b s
  | .cbwait g d a b => Sys2Proof.Machine.execCbwait g d a b s
  | .cbspace g d a b => Sys2Proof.Machine.execCbspace g d a b s
  | .pinit g a => Sys2Proof.Machine.execPinit g a s
  | .pfill g a b => Sys2Proof.Machine.execPfill g a b s
  | .peq g a b => Sys2Proof.Machine.execPeq g a b s
  | .pget g d a => Sys2Proof.Machine.execPget g d a s
  | .ptry g d a => Sys2Proof.Machine.execPtry g d a s
  | .pstat g d a f => Sys2Proof.Machine.execPstat g d a f s
  | .licAcq g x => Sys2Proof.Machine.execLicAcq g x s
  | .licRel g => Sys2Proof.Machine.execLicRel g s
  | .licGive g => Sys2Proof.Machine.execLicGive g s
  | .mcmd g a b => Sys2Proof.Machine.execMcmd g a b s
  | .mfin g d a => Sys2Proof.Machine.execMfin g d a s
  | .ninst g d a => Sys2Proof.Machine.execNinst g d a s
  | .nwait g d a => Sys2Proof.Machine.execNwait g d a s
  | .nstat g d a f => Sys2Proof.Machine.execNstat g d a f s
  | .nretire g a => Sys2Proof.Machine.execNretire g a s
  | .bsinit g a b x => Sys2Proof.Machine.execBsinit g a b x s
  | .bsget g d n => Sys2Proof.Machine.execBsget g d n s
  | .bsput g a n => Sys2Proof.Machine.execBsput g a n s
  | .bspeek g d n => Sys2Proof.Machine.execBspeek g d n s
  | .bsskip g b => Sys2Proof.Machine.execBsskip g b s
  | .bsalign g x => Sys2Proof.Machine.execBsalign g x s
  | .bsflush g d => Sys2Proof.Machine.execBsflush g d s
  | .fwait g d a => Sys2Proof.Machine.execFwait g d a s
  | .vnop => Sys2Proof.Machine.execVnop s
  | .vaddF32 g d a b => Sys2Proof.Machine.execVaddF32 g d a b s
  | .vsubF32 g d a b => Sys2Proof.Machine.execVsubF32 g d a b s
  | .vmulF32 g d a b => Sys2Proof.Machine.execVmulF32 g d a b s
  | .vminF32 g d a b => Sys2Proof.Machine.execVminF32 g d a b s
  | .vmaxF32 g d a b => Sys2Proof.Machine.execVmaxF32 g d a b s
  | .vminnum g d a b => Sys2Proof.Machine.execVminnum g d a b s
  | .vmaxnum g d a b => Sys2Proof.Machine.execVmaxnum g d a b s
  | .vabs g d a => Sys2Proof.Machine.execVabs g d a s
  | .vneg g d a => Sys2Proof.Machine.execVneg g d a s
  | .vcopysign g d a b => Sys2Proof.Machine.execVcopysign g d a b s
  | .vfma g d a b c => Sys2Proof.Machine.execVfma g d a b c s
  | .vfms g d a b c => Sys2Proof.Machine.execVfms g d a b c s
  | .vfnma g d a b c => Sys2Proof.Machine.execVfnma g d a b c s
  | .vfnms g d a b c => Sys2Proof.Machine.execVfnms g d a b c s
  | .vhAdd g d a b t => Sys2Proof.Machine.execVhAdd g d a b t s
  | .vhMul g d a b t => Sys2Proof.Machine.execVhMul g d a b t s
  | .vhFma g d a b c t => Sys2Proof.Machine.execVhFma g d a b c t s
  | .vhMin g d a b t => Sys2Proof.Machine.execVhMin g d a b t s
  | .vhMax g d a b t => Sys2Proof.Machine.execVhMax g d a b t s
  | .vaddI32 g d a b => Sys2Proof.Machine.execVaddI32 g d a b s
  | .vsubI32 g d a b => Sys2Proof.Machine.execVsubI32 g d a b s
  | .vmulI32 g d a b => Sys2Proof.Machine.execVmulI32 g d a b s
  | .vmulh g d a b u => Sys2Proof.Machine.execVmulh g d a b u s
  | .vandI32 g d a b => Sys2Proof.Machine.execVandI32 g d a b s
  | .vorI32 g d a b => Sys2Proof.Machine.execVorI32 g d a b s
  | .vxorI32 g d a b => Sys2Proof.Machine.execVxorI32 g d a b s
  | .vshlI32 g d a b => Sys2Proof.Machine.execVshlI32 g d a b s
  | .vshrI32 g d a b => Sys2Proof.Machine.execVshrI32 g d a b s
  | .vsraI32 g d a b => Sys2Proof.Machine.execVsraI32 g d a b s
  | .vminI32 g d a b => Sys2Proof.Machine.execVminI32 g d a b s
  | .vmaxI32 g d a b => Sys2Proof.Machine.execVmaxI32 g d a b s
  | .vminN32 g d a b => Sys2Proof.Machine.execVminN32 g d a b s
  | .vmaxN32 g d a b => Sys2Proof.Machine.execVmaxN32 g d a b s
  | .vclzI32 g d a => Sys2Proof.Machine.execVclzI32 g d a s
  | .vpcntI32 g d a => Sys2Proof.Machine.execVpcntI32 g d a s
  | .vadd8 g d a b => Sys2Proof.Machine.execVadd8 g d a b s
  | .vadds8 g d a b => Sys2Proof.Machine.execVadds8 g d a b s
  | .vdot4 g d a b c => Sys2Proof.Machine.execVdot4 g d a b c s
  | .vcmp g m a b t c => Sys2Proof.Machine.execVcmp g m a b t c s
  | .vsel g d a b m => Sys2Proof.Machine.execVsel g d a b m s
  | .vcvtI32F32 g d a r => Sys2Proof.Machine.execVcvtI32F32 g d a r s
  | .vcvtF32I32 g d a => Sys2Proof.Machine.execVcvtF32I32 g d a s
  | .vcvtF32N32 g d a => Sys2Proof.Machine.execVcvtF32N32 g d a s
  | .vcvtF16F32 g d a b => Sys2Proof.Machine.execVcvtF16F32 g d a b s
  | .vcvtF32F16 g d a => Sys2Proof.Machine.execVcvtF32F16 g d a s
  | .vcvtBf16F32 g d a b => Sys2Proof.Machine.execVcvtBf16F32 g d a b s
  | .vcvtF32Bf16 g d a => Sys2Proof.Machine.execVcvtF32Bf16 g d a s
  | .vcvtI32I8 g d a => Sys2Proof.Machine.execVcvtI32I8 g d a s
  | .vcvtI8I32 g d a => Sys2Proof.Machine.execVcvtI8I32 g d a s
  | .vcvtN32F32 g d a r => Sys2Proof.Machine.execVcvtN32F32 g d a r s
  | .vrcp g d a => Sys2Proof.Machine.execVrcp g d a s
  | .vrsqrt g d a => Sys2Proof.Machine.execVrsqrt g d a s
  | .vsqrt g d a => Sys2Proof.Machine.execVsqrt g d a s
  | .vdiv g d a b => Sys2Proof.Machine.execVdiv g d a b s
  | .vexp2 g d a => Sys2Proof.Machine.execVexp2 g d a s
  | .vlog2 g d a => Sys2Proof.Machine.execVlog2 g d a s
  | .vsinpi g d a => Sys2Proof.Machine.execVsinpi g d a s
  | .vcospi g d a => Sys2Proof.Machine.execVcospi g d a s
  | .vperm g d a b => Sys2Proof.Machine.execVperm g d a b s
  | .vrotl g d a n => Sys2Proof.Machine.execVrotl g d a n s
  | .vbcastl g d a n => Sys2Proof.Machine.execVbcastl g d a n s
  | .vredaddF32 g d a => Sys2Proof.Machine.execVredaddF32 g d a s
  | .vredaddI32 g d a => Sys2Proof.Machine.execVredaddI32 g d a s
  | .vredminF32 g d a => Sys2Proof.Machine.execVredminF32 g d a s
  | .vredmaxF32 g d a => Sys2Proof.Machine.execVredmaxF32 g d a s
  | .vmov g d a => Sys2Proof.Machine.execVmov g d a s
  | .vbcast g d a => Sys2Proof.Machine.execVbcast g d a s
  | .vext g d a n => Sys2Proof.Machine.execVext g d a n s
  | .vins g d a n => Sys2Proof.Machine.execVins g d a n s
  | .vlane g d => Sys2Proof.Machine.execVlane g d s
  | .mlog g d a b o => Sys2Proof.Machine.execMlog g d a b o s
  | .mcnt g d a => Sys2Proof.Machine.execMcnt g d a s
  | .mset g d a => Sys2Proof.Machine.execMset g d a s
  | .vbfpk d a m => Sys2Proof.Machine.execVbfpk d a m s
  | .vbfunp d a n => Sys2Proof.Machine.execVbfunp d a n s
  | .vbfhdr d a m => Sys2Proof.Machine.execVbfhdr d a m s
  | .vbfscale d a b => Sys2Proof.Machine.execVbfscale d a b s
  | .vtopk g d a b k => Sys2Proof.Machine.execVtopk g d a b k s
  | .vfmak g d a k => Sys2Proof.Machine.execVfmak g d a k s
  | .vaddk g d a k => Sys2Proof.Machine.execVaddk g d a k s
  | .vmulk g d a k => Sys2Proof.Machine.execVmulk g d a k s
  | .vaddi d a n => Sys2Proof.Machine.execVaddi d a n s
  | .vmuli d a n => Sys2Proof.Machine.execVmuli d a n s
  | .vfmai d a n => Sys2Proof.Machine.execVfmai d a n s
  | .vmovi d n => Sys2Proof.Machine.execVmovi d n s
  | .mbegin e tag chain anchor => Sys2Proof.Machine.execMbegin e tag chain anchor s
  | .mstep e tag chain a b n da db => Sys2Proof.Machine.execMstep e tag chain a b n da db s
  | .mend e tag chain => Sys2Proof.Machine.execMend e tag chain s
  | .mdrain e tag chain dest o w f => Sys2Proof.Machine.execMdrain e tag chain dest o w f s
  | .mzero e tag chain => Sys2Proof.Machine.execMzero e tag chain s
  | .commandAccept => Sys2Proof.Machine.execCommandAccept s
  | .kStep => Sys2Proof.Machine.execKStep s
  | .drainComplete => Sys2Proof.Machine.execDrainComplete s
  | .licenceGrant => Sys2Proof.Machine.execLicenceGrant s
  | .coopHandover => Sys2Proof.Machine.execCoopHandover s
  | .fill => Sys2Proof.Machine.execFill s
  | .remoteFill => Sys2Proof.Machine.execRemoteFill s
  | .clearDone => Sys2Proof.Machine.execClearDone s
  | .trapDelivery => Sys2Proof.Machine.execTrapDelivery s
  | .cancelDelivery => Sys2Proof.Machine.execCancelDelivery s
  | .watchdog => Sys2Proof.Machine.execWatchdog s
  | .energyRefill => Sys2Proof.Machine.execEnergyRefill s
  | .migrationDepart => Sys2Proof.Machine.execMigrationDepart s
  | .migrationArrival => Sys2Proof.Machine.execMigrationArrival s
  | .messageArrival => Sys2Proof.Machine.execMessageArrival s
  | .messageRetry => Sys2Proof.Machine.execMessageRetry s
  | .counterAcknowledged => Sys2Proof.Machine.execCounterAcknowledged s
  | .groupAdmit => Sys2Proof.Machine.execGroupAdmit s
  | .launchStart => Sys2Proof.Machine.execLaunchStart s
  | .pctlGo => Sys2Proof.Machine.execPctlGo s
  | .preemptHalt => Sys2Proof.Machine.execPreemptHalt s
  | .preemptSave => Sys2Proof.Machine.execPreemptSave s
  | .prest => Sys2Proof.Machine.execPrest s
  | .pageWalk => Sys2Proof.Machine.execPageWalk s
  | .faultRetry => Sys2Proof.Machine.execFaultRetry s
  | .faultDecline => Sys2Proof.Machine.execFaultDecline s
  | .ephemeralExpire => Sys2Proof.Machine.execEphemeralExpire s
  | .samplerFill => Sys2Proof.Machine.execSamplerFill s
  | .mwaitTimeout => Sys2Proof.Machine.execMwaitTimeout s
  | .qhdr => Sys2Proof.Machine.execQhdr s
  | .queueStateStore => Sys2Proof.Machine.execQueueStateStore s
  | .launchPacket => Sys2Proof.Machine.execLaunchPacket s
  | .fencePacket => Sys2Proof.Machine.execFencePacket s
  | .fencePass => Sys2Proof.Machine.execFencePass s
  | .signalPacket => Sys2Proof.Machine.execSignalPacket s
  | .copyPacket => Sys2Proof.Machine.execCopyPacket s
  | .installPacket => Sys2Proof.Machine.execInstallPacket s
  | .markerPacket => Sys2Proof.Machine.execMarkerPacket s
  | .cancelPacket => Sys2Proof.Machine.execCancelPacket s
  | .nheadWrite => Sys2Proof.Machine.execNheadWrite s
  | .transferArrive => Sys2Proof.Machine.execTransferArrive s
  | .streamerPiece => Sys2Proof.Machine.execStreamerPiece s
  | .transferFinish => Sys2Proof.Machine.execTransferFinish s
  | .ringReserve => Sys2Proof.Machine.execRingReserve s
  | .promiseRequest => Sys2Proof.Machine.execPromiseRequest s
  | .blockErase => Sys2Proof.Machine.execBlockErase s
  | .unitProgram => Sys2Proof.Machine.execUnitProgram s
  | .installComplete => Sys2Proof.Machine.execInstallComplete s
  | .supersedeDrain => Sys2Proof.Machine.execSupersedeDrain s
  | .stagingFill => Sys2Proof.Machine.execStagingFill s
  | .hostWrite => Sys2Proof.Machine.execHostWrite s
  | .hostCompletionTimeout => Sys2Proof.Machine.execHostCompletionTimeout s
  | .linkRetrain => Sys2Proof.Machine.execLinkRetrain s
  | .powerTick => Sys2Proof.Machine.execPowerTick s
  | .grantLoss => Sys2Proof.Machine.execGrantLoss s
  | .clampEngage => Sys2Proof.Machine.execClampEngage s
  | .clampRelease => Sys2Proof.Machine.execClampRelease s
  | .frameLatch => Sys2Proof.Machine.execFrameLatch s
  | .verticalBlank => Sys2Proof.Machine.execVerticalBlank s
  | .genlockHeld => Sys2Proof.Machine.execGenlockHeld s
  | .lockLost => Sys2Proof.Machine.execLockLost s
  | .muxReturn => Sys2Proof.Machine.execMuxReturn s
  | .start => Sys2Proof.Machine.execStart s
  | .mainPowerLoss => Sys2Proof.Machine.execMainPowerLoss s
  | .dorm => Sys2Proof.Machine.execDorm s
  | .warmReset => Sys2Proof.Machine.execWarmReset s
  | .repairReplayEnd => Sys2Proof.Machine.execRepairReplayEnd s
  | .spareTakeover => Sys2Proof.Machine.execSpareTakeover s
  | .machineCheck => Sys2Proof.Machine.execMachineCheck s
  | .coreFailure => Sys2Proof.Machine.execCoreFailure s
  | .storeAcknowledgement => Sys2Proof.Machine.execStoreAcknowledgement s

end Sys2Proof.Machine
end

