-- ==== Sys2Proof/Machine/Issue.lean ====
section
/-! DEFINITION. The issue of bundles: fetch at the program counter, decode fates, the full test, the energy test, gangs
(spec/03_encoding.md R43-R47, R59-R63, spec/07_context.md R170-R180, spec/12_group.md R278-R280). -/

namespace Sys2Proof.Machine

/-! ### Fetch (R44-R47) -/

/-- What fetch finds for a thread. -/
inductive Fetched where
  | bundle (b : Bundle)
  | trap (code : Byte) (val : W64) (word : W64)
  | park (w : Wait)
deriving DecidableEq, Repr

/-- Fetch at the pc of a context; fill words carry it on to the next block (R45). A space of nothing but fill words never
issues. Where a cause stops the fetch itself, 0x2D and 0x72 among them, no word has been read and the trap record holds zero
(log 14). -/
def State.fetch (s : State) (core cx : Nat) : Nat → Fetched × State
  | 0 => (.park .none, s)
  | fuel + 1 =>
    let c := s.ctx core cx
    match s.fetchLoc core cx c.pc with
    | (.trap code val, s) => (.trap code val 0, s)
    | (.park w, s) => (.park w, s)
    | (.ok l, s) =>
      let ws := s.blockAt (leafKind l.leaf) l.key
      let i := wordIndex l.key
      match (blockKinds ws).getD i .notStart with
      | .start => (.bundle (bundleAt (ws.drop i)), s)
      | .fill =>
        State.fetch
          (s.modCtx core cx fun c => { c with pc := nextBlock c.pc, via := none, landed := false }) core cx fuel
      | .notStart =>
        (.trap 0x05 (match c.via with | some a => a | none => lo64 c.pc) ((ws.getD i 0).setWidth 64), s)
      | .crosses => (.trap 0x08 (BitVec.ofNat 64 (crossLen (ws.drop i))) ((ws.getD i 0).setWidth 64), s)

/-! ### Decode (R59-R63) -/

/-- The fates of a bundle at decode, steps 2 to 7 of R61: its operations, or the cause and its value. -/
def decodeBundle (priv : Bool) (cx n : Nat) (b : Bundle) : Except (Byte × W64) (Instr × Instr) :=
  let sWord : W64 := b.sw.setWidth 64
  let vWord : W64 := b.vw.setWidth 64 ||| 0x100000000
  let s := decodeS b.sw b.slit
  let v := decodeV b.vw b.vlit
  let sf : Option Fate := match s with | .error f => some f | .ok _ => none
  let vf : Option Fate := match v with | .error f => some f | .ok _ => none
  -- a number of the privileged range that names no register is a reserved value in privileged mode only (R54)
  let noReg : Bool := match s with
    | .ok (.rdsr _ _ n) | .ok (.wrsr _ _ n) => priv && sregPriv n && !sregAssigned n
    | _ => false
  if sf = some .major then .error (0x01, sWord)
  else if vf = some .major then .error (0x01, vWord)
  else if sf = some .guard then .error (0x03, sWord)
  else if vf = some .guard then .error (0x03, vWord)
  else if sf = some .reserved || noReg then .error (0x02, sWord)
  else if vf = some .reserved then .error (0x02, vWord)
  else
    match s, v with
    | .ok s, .ok v =>
      if !priv && privileged s then .error (0x06, sWord)
      else if cx != 7 && foragerOnly s then .error (0x07, sWord)
      else
        match conflict (sRegs n s) (vRegs v) with
        | some r => .error (0x04, r)
        | none => .ok (s, v)
    | _, _ => .error (0x02, sWord)

/-! ### The tests before issue (R131, R171, R177, R180) -/

/-- The registers of the full test that are empty: sources and destinations of both slots; a falsely guarded S operation
is not tested. -/
def emptyRegs (c : Ctx) (guard : PCell) (s v : Regs) : List (BitVec 4) × List (BitVec 4) :=
  let on := guard.val || guard.pois
  let ss := (if on then s.rs ++ s.ws else []) ++ v.rs ++ v.ws
  let vs := (if on then s.rv ++ s.wv else []) ++ v.rv ++ v.wv
  (ss.filter fun r => !(c.sreg r).full, vs.filter fun r => !(c.vreg r).full)

/-- The lane mask that guards a V operation, bits [4:1] of its word (R55); m0 for the forms without a guard. -/
def maskOfV : Instr → BitVec 4
  | .vaddF32 g _ _ _ | .vsubF32 g _ _ _ | .vmulF32 g _ _ _ | .vminF32 g _ _ _ | .vmaxF32 g _ _ _ | .vminnum g _ _ _
  | .vmaxnum g _ _ _ | .vcopysign g _ _ _ | .vhAdd g _ _ _ _ | .vhMul g _ _ _ _ | .vhMin g _ _ _ _ | .vhMax g _ _ _ _
  | .vaddI32 g _ _ _ | .vsubI32 g _ _ _ | .vmulI32 g _ _ _ | .vmulh g _ _ _ _ | .vandI32 g _ _ _ | .vorI32 g _ _ _
  | .vxorI32 g _ _ _ | .vshlI32 g _ _ _ | .vshrI32 g _ _ _ | .vsraI32 g _ _ _ | .vminI32 g _ _ _ | .vmaxI32 g _ _ _
  | .vminN32 g _ _ _ | .vmaxN32 g _ _ _ | .vadd8 g _ _ _ | .vadds8 g _ _ _ | .vsel g _ _ _ _ | .vcvtF16F32 g _ _ _
  | .vcvtBf16F32 g _ _ _ | .vdiv g _ _ _ | .vperm g _ _ _ | .vfma g _ _ _ _ | .vfms g _ _ _ _ | .vfnma g _ _ _ _
  | .vfnms g _ _ _ _ | .vhFma g _ _ _ _ _ | .vdot4 g _ _ _ _ | .vabs g _ _ | .vneg g _ _ | .vclzI32 g _ _
  | .vpcntI32 g _ _ | .vcvtI32F32 g _ _ _ | .vcvtF32I32 g _ _ | .vcvtF32N32 g _ _ | .vcvtF32F16 g _ _
  | .vcvtF32Bf16 g _ _ | .vcvtI32I8 g _ _ | .vcvtI8I32 g _ _ | .vcvtN32F32 g _ _ _ | .vrcp g _ _ | .vrsqrt g _ _
  | .vsqrt g _ _ | .vexp2 g _ _ | .vlog2 g _ _ | .vsinpi g _ _ | .vcospi g _ _ | .vrotl g _ _ _ | .vbcastl g _ _ _
  | .vmov g _ _ | .vcmp g _ _ _ _ _ | .vredaddF32 g _ _ | .vredaddI32 g _ _ | .vredminF32 g _ _ | .vredmaxF32 g _ _
  | .vext g _ _ _ | .vins g _ _ _ | .vbcast g _ _ | .vlane g _ | .mcnt g _ _ | .mset g _ _ | .mlog g _ _ _ _
  | .vtopk g _ _ _ _ | .vfmak g _ _ _ | .vaddk g _ _ _ | .vmulk g _ _ _ => g
  | _ => 0

/-- A poisoned mask that guards the V operation: the bundle traps with 0x12 before it issues (R133; before the full test,
log 74). -/
def Ctx.maskTrap (c : Ctx) (vi : Instr) : Option W64 :=
  let g := maskOfV vi
  if (c.maskGuard g).pois then some (poisVal 3 (g.extractLsb' 0 3).toNat) else none

/-- What keeps a decoded bundle from issuing. -/
inductive Gate where
  | go
  | trap (code : Byte) (val : W64)
  | park (w : Wait)
  | lost
deriving DecidableEq, Repr

/-- Forms whose guard is the leader's in a gang (R279). -/
def leaderGuards : Instr → Bool
  | .br .. | .bl .. | .jr .. | .jlr .. | .loop .. | .loopi .. | .eret .. => true
  | _ => false

/-- The tests of a decoded bundle in a context; `lead` is the leader's before the bundle, for a follower of a gang. -/
def State.gate (s : State) (lead : Option Ctx) (core cx n : Nat) (si vi : Instr) : Gate :=
  let c := s.ctx core cx
  let guard := (if leaderGuards si then lead.getD c else c).guard (guardOf si)
  match c.maskTrap vi with
  | some v => .trap 0x12 v
  | none =>
  let e := emptyRegs c guard (sRegs n si) (vRegs vi)
  if e.1 ≠ [] ∨ e.2 ≠ [] then .park (.regs e.1 e.2)
  else if takesRecord si && guard.val && 8 ≤ c.recs.length then .park .record
  else if !c.paid && (s.core core).ebal.toNat < sCharge si + vCharge vi then .lost
  else .go

/-- Waits with which a bundle parks before it issues: it is not charged (R177). -/
def preIssue : Wait → Bool
  | .regs _ _ | .shared _ _ | .record | .walk _ _ _ _ | .fault _ _ _ | .faultSlot _ | .staging _ | .request => true
  | _ => false

/-- Deducts a charge unless the bundle had paid, or the thread has parked before its bundle issued; the bundle in hand is paid
from now on. -/
def State.charge (s : State) (paid : Bool) (core cx n : Nat) : State :=
  let c := s.ctx core cx
  if paid then s
  -- a bundle that has parked before it issued is not in hand
  else if c.st = .parked && preIssue c.wait && c.stage = .fresh then s.modCtx core cx fun c => { c with cur := none, places := [] }
  else
    let s := s.modCore core fun k => { k with ebal := k.ebal - BitVec.ofNat 20 n }
    if c.cur.isSome then s.modCtx core cx fun c => { c with paid := true } else s

/-! ### Executing a bundle -/

/-- Executes the two slots for a context: the V result is formed first and written when the bundle completes (R132). -/
def State.runBundle (s : State) (core cx : Nat) (si vi : Instr) (b : Bundle) : Outcome :=
  let paid := (s.ctx core cx).paid
  let s := { s with sel := (core, cx) }.modCtx core cx fun c => { c with cur := some b, stage := .fresh, vres := .none }
  match exec vi s with
  | .next s =>
    match exec si { s with sel := (core, cx) } with
    | .next s => .next (s.charge paid core cx (sCharge si + vCharge vi))
    | o => o
  | o => o

/-- Goes on with the S operation of the bundle in hand. -/
def State.resume (s : State) (core cx : Nat) : Outcome := exec (s.ctx core cx).ops.1 { s with sel := (core, cx) }

/-- Takes the pending cause of a context. -/
def State.takeAsync (s : State) (core cx : Nat) (code : Byte) : Outcome :=
  let e : Event := if code = 0x61 then .cancelDelivery core cx else .trapDelivery core cx
  exec e.op { s with event := e }

/-- The number of vector registers that a `qput` reads: one per 64 bytes of the packet whose header stands in vB, through
v15 at most (R310). -/
def qputRegs (c : Ctx) : Instr → Nat
  | .qput _ _ _ b => min ((c.vreg b).val.toNat / 256 % 4 + 1) (16 - b.toNat)
  | _ => 0

/-- What a context has at its pc: the operations and the bundle, a cause with the word there, or a wait. -/
inductive Ready where
  | go (si vi : Instr) (b : Bundle)
  | trap (code : Byte) (val : W64) (word : W64)
  | park (w : Wait)
deriving DecidableEq, Repr

/-- The operations of a bundle for a context, or the cause that its decode has. -/
def State.decoded (s : State) (core cx : Nat) (b : Bundle) : Ready :=
  let c := s.ctx core cx
  let n := match decodeS b.sw b.slit with
    | .ok i => qputRegs c i
    | .error _ => 0
  match decodeBundle c.priv cx n b with
  | .error (code, val) => .trap code val (b.sw.setWidth 64)
  | .ok (si, vi) => .go si vi b

/-- What a context issues: a bundle in hand that has paid issues again, any other is fetched. -/
def State.ready (s : State) (core cx : Nat) : Ready × State :=
  match (s.ctx core cx).paid, (s.ctx core cx).cur with
  | true, some b => (s.decoded core cx b, s)
  | _, _ =>
    match s.fetch core cx fetchBlocks with
    | (.trap code val word, s) => (.trap code val word, s)
    | (.park w, s) => (.park w, s)
    | (.bundle b, s) => (s.decoded core cx b, s)

/-- A context parks before its bundle issues; a fetch that never ends loses the slot. -/
def State.parkAt (s : State) (core cx : Nat) (w : Wait) : State :=
  if w = .none then s else s.modCtx core cx fun c => { c with st := .parked, wait := w, stage := .fresh, vres := .none }

/-- A thread that has parked while 0x62 is pending leaves its park at once (R203, R450). -/
def State.leaves (s : State) (core cx : Nat) : State :=
  let c := s.ctx core cx
  match c.asyncs.find? fun a => a.1 == 0x62 with
  | some a =>
    if c.st = .parked && !c.priv && !c.stage.given then
      (s.modCtx core cx fun c => { c with asyncs := c.asyncs.erase a }).leavePark core cx a.2
    else s
  | none => s

/-! ### A thread on its own -/

def State.issueOne (s : State) (core cx : Nat) : Outcome :=
  match s.ready core cx with
  | (.trap code val word, s) => .next (s.deliver core cx false code val (s.ctx core cx).pc word)
  | (.park w, s) => .next (s.parkAt core cx w)
  | (.go si vi b, s) =>
    match s.gate none core cx (qputRegs (s.ctx core cx) si) si vi with
    | .trap code val => .next (s.deliver core cx false code val (s.ctx core cx).pc (b.sw.setWidth 64))
    | .park w => .next (s.parkAt core cx w)
    | .lost => .next s
    | .go => s.runBundle core cx si vi b

/-! ### A gang (R278-R280) -/

/-- Gives a follower the leader's place in the program. -/
def Ctx.follow (f l : Ctx) : Ctx := { f with pc := l.pc, via := l.via, landed := l.landed, loop0 := l.loop0, loop1 := l.loop1 }

/-- A member has had its turn of this cycle in its leader's slot (R13). -/
def State.hasIssued (s : State) (cx : Nat) (ks : List Nat) : State :=
  ks.foldl (fun s k => s.modCtx k cx fun c => { c with issued := s.now + 1 }) s

/-- A thread waits for the turn of a home: it tries in each of its slots. -/
def Ctx.atHome (c : Ctx) : Bool := c.st == .parked && c.wait == .home

/-- A thread that waits for the turn of a home tries again. -/
def State.tries (s : State) (core cx : Nat) : State :=
  if (s.ctx core cx).atHome then s.modCtx core cx fun c => { c with st := c.running } else s

/-- Followers whose answers have come complete the bundle that they have in hand. -/
def State.resumeAll (s : State) (cx : Nat) : List Nat → Outcome
  | [] => .next s
  | k :: l =>
    let c := s.ctx k cx
    if (c.st = .follower ∨ c.atHome) ∧ c.stage ≠ .fresh ∧ c.cur.isSome then
      match (s.tries k cx).resume k cx with
      | .next t => State.resumeAll ((t.leaves k cx).hasIssued cx [k]) cx l
      | o => o
    else State.resumeAll s cx l

/-- A member's bundle would park before it issues. -/
def State.wouldPark (s : State) (cx lead : Nat) (c : Option Ctx) (si vi : Instr) (b : Bundle) (k : Nat) : Bool :=
  match State.runBundle { s with lead := if k = lead then none else c } k cx si vi b with
  | .next t => (t.ctx k cx).st == .parked && preIssue (t.ctx k cx).wait && (t.ctx k cx).cur.isNone
  | _ => false

/-- Members issue one after the other, the followers under a leader's control flow if one is given. -/
def State.issueAll (s : State) (cx lead : Nat) (c : Option Ctx) (si vi : Instr) (b : Bundle) : List Nat → Outcome
  | [] => .next { s with lead := none }
  | k :: l =>
    match State.runBundle { s with lead := if k = lead then none else c } k cx si vi b with
    | .next s => State.issueAll s cx lead c si vi b l
    | o => o

/-- Members take their pending causes. -/
def State.takeAll (s : State) (cx : Nat) : List Nat → Outcome
  | [] => .next s
  | k :: l =>
    match (s.ctx k cx).pending with
    | none => State.takeAll s cx l
    | some a =>
      match s.takeAsync k cx a.1 with
      | .next s => State.takeAll s cx l
      | o => o

/-- The cores that still have their member of a gang, the leader's first. -/
def State.members (s : State) (cx : Nat) (m : GangMember) : List Nat := (gangCores m).filter (s.inGang cx m)

/-- Followers that have completed the bundle stand where their leader stands, once it has. -/
def State.standWith (s : State) (cx : Nat) (m : GangMember) : State :=
  let l := s.ctx m.leader cx
  if l.gang.isSome && l.cur.isNone then
    (s.members cx m).foldl
      (fun s k => if k ≠ m.leader ∧ (s.ctx k cx).cur.isNone then s.modCtx k cx fun c => c.follow l else s) s
  else s

/-- After the bundle: a member that has left the gang dissolves it, unless it left at the boundary before a bundle that the others
are to complete. -/
def State.gangEnd (s : State) (cx : Nat) (m : GangMember) : State :=
  let s := s.standWith cx m
  if (gangCores m).all (s.inGang cx m) || (s.members cx m).any fun k => (s.ctx k cx).gang.any (·.ending) then s
  else s.dissolve cx m

/-- A member that cannot issue parks or has lost its slot. -/
def State.gateAll (s : State) (cx : Nat) : List (Nat × Gate) → State
  | [] => s
  | (k, .park w) :: l => State.gateAll (s.parkAt k cx w) cx l
  | _ :: l => State.gateAll s cx l

/-- Members take the causes of their poisoned masks. -/
def State.trapAll (s : State) (cx : Nat) (b : Bundle) : List (Nat × Gate) → State
  | [] => s
  | (k, .trap code val) :: l =>
    State.trapAll (s.deliver k cx false code val (s.ctx k cx).pc (b.sw.setWidth 64)) cx b l
  | _ :: l => State.trapAll s cx b l

/-- Whether a member can issue, or has a cause before it issues. -/
def Gate.blocks : Gate → Bool
  | .park _ | .lost => true
  | _ => false

/-- A gang's bundle issues for the members `ks` that have no cause before it: all or none, and in that slot the members `take` have
their causes (R278, R280). The leader comes first; followers take their control flow from it if it has issued and completed the
bundle (R279, R280). -/
def State.issueMembers (s : State) (cx : Nat) (m : GangMember) (si vi : Instr) (b : Bundle) (take ks : List Nat) : Outcome :=
  let lead := m.leader
  let c := s.ctx lead cx
  let gates := ks.map fun k =>
    (k, s.gate (if k = lead then none else some c) k cx (qputRegs (s.ctx k cx) si) si vi)
  if gates.any fun g => g.2.blocks then .next (s.gateAll cx gates)
  else
    let go := (gates.filter fun g => g.2 == .go).map (·.1)
    let leads := if go.contains lead then some c else none
    let waits := go.filter (s.wouldPark cx lead leads si vi b)
    if waits ≠ [] then s.issueAll cx lead leads si vi b waits
    else
      match s.takeAll cx take with
      | .next s =>
        match State.issueAll (s.trapAll cx b gates) cx lead none si vi b (go.filter (· == lead)) with
        | .next s =>
          let d := s.ctx lead cx
          let led := go.contains lead && (d.gang = c.gang || si = .ungang (guardOf si) || si = .exit (guardOf si))
          match s.issueAll cx lead (if led then some c else none) si vi b (go.filter (· != lead)) with
          | .next s => .next (if m.ending then (s.standWith cx m).dissolve cx m else s)
          | o => o
        | o => o
      | o => o

/-- A gang in its leader's slot: while a member has a bundle in hand, is parked, or forfeits, no member issues. Pending
asynchronous causes come before the bundle (R203), in the slot in which the other members issue it. -/
def State.issueGang (s : State) (cx : Nat) (m : GangMember) : Outcome :=
  let lead := m.leader
  match s.resumeAll cx (s.members cx m).tail with
  | .next s =>
    let ks := s.members cx m
    if !(ks.all fun k => ((s.ctx k cx).st == .ready || (s.ctx k cx).st == .follower) && (s.ctx k cx).cur.isNone) then .next s
    else if ks.any fun k => 0 < (s.ctx k cx).forfeit then
      .next (ks.foldl (fun s k => s.modCtx k cx fun c => { c with forfeit := c.forfeit - 1 }) s)
    else
      let take := ks.filter fun k => (s.ctx k cx).pending.isSome
      let rest := ks.filter fun k => (s.ctx k cx).pending.isNone
      let o : Outcome :=
        if rest = [] then s.takeAll cx take
        else
          let r := s.ready lead cx
          -- every member stands where the leader stands, past fill words too (R45)
          let s := ks.tail.foldl (fun s k => s.modCtx k cx fun c => c.follow (s.ctx lead cx)) r.2
          match r.1 with
          | .park w => .next ((s.parkAt lead cx w).leaves lead cx)
          -- every member holds the same bits and raises the cause (R280)
          | .trap code val word =>
            match s.takeAll cx take with
            | .next s => .next (rest.foldl (fun s k => s.deliver k cx false code val (s.ctx k cx).pc word) s)
            | o => o
          | .go si vi b => s.issueMembers cx m si vi b take rest
      match o with
      | .next s => .next (s.hasIssued cx ks)
      | o => o
  | o => o

/-! ### A slot (R170, R171) -/

/-- What a context at a bundle boundary does with its slot: a pending cause comes before the bundle (R203). -/
def State.offer (s : State) (core cx : Nat) : Outcome :=
  let c := s.ctx core cx
  if s.halts core then .next s
  else
    match c.gang, c.cur with
    | some m, none => if c.st = .ready then s.issueGang cx m else .next s
    | _, _ =>
      if 0 < c.forfeit then .next (s.modCtx core cx fun c => { c with forfeit := c.forfeit - 1 })
      else
        match c.pending with
        | some a => s.takeAsync core cx a.1
        | none => s.issueOne core cx

/-- What a context does with its slot. A bundle in hand whose answer has come completes first: the thread has waited for the
answer, and the slot after it is for the next bundle (R165). -/
def State.use (s : State) (core cx : Nat) : Outcome :=
  let c := s.ctx core cx
  if (c.st ≠ .ready ∧ c.st ≠ .follower ∧ !c.atHome) ∨ c.issued = s.now + 1 then .next s
  else if c.stage ≠ .fresh ∧ c.cur.isSome then
    match (s.tries core cx).resume core cx with
    | .next t =>
      let t := t.leaves core cx
      let d := t.ctx core cx
      -- not where a trap was taken, or the thread has left or waits again
      if d.cur.isNone ∧ d.st = .ready ∧ d.generation = c.generation ∧ !(d.landed && d.via.isNone) then t.offer core cx else .next t
    | o => o
  else (s.tries core cx).offer core cx

/-- The slot of a core in a cycle: its context, and what it does with it; a gang that a member has left ends. -/
def State.slot (s : State) (core cx : Nat) : Outcome :=
  match (s.ctx core cx).gang, s.use core cx with
  | some m, .next s => .next (s.gangEnd cx m)
  | _, o => o

end Sys2Proof.Machine
end

