-- ==== Sys2Proof/Machine/Turn.lean ====
section
/-! DEFINITION. The course of time: wakes, the end of a cycle, what falls due, what may come next, the slots of the cores
(spec/07_context.md R165, R166, R169, R170, R178, spec/08_traps.md R206, spec/10_page.md R235, spec/15_queue.md R305, R308,
spec/21_tile.md R402, R403, R406; log 1). -/

namespace Sys2Proof.Machine

/-! ### Wakes (R165, R169) -/

/-- The event for which a parked thread waits has happened. -/
def State.wakes (s : State) (core cx : Nat) (c : Ctx) : Bool :=
  match c.wait with
  | .none => true
  -- a thread that waits for the turn of a home tries in its slots
  | .home => false
  | .regs ss vs => ss.all (fun r => (c.sreg r).full) && vs.all fun r => (c.vreg r).full
  | .shared w n => if w then (s.wview core n).isSome else (s.gview core n).isSome
  | .record => c.recs.length < 8
  | .walk h asid va _ => !(s.hive h).walks.any fun w => w.asid == asid && w.page == pageKey va
  | .fault h n _ => !(s.hive h).faults.any fun f => f.num == n
  | .faultSlot h => !(s.hive h).fring.getLsbD 0 || !(s.hive h).faults.any fun f => f.num + 256 == (s.hive h).filed
  | .drain sc below => s.released core cx sc below
  | .access n => !(c.recs.any fun r => r.seq == n) && !s.flights.any fun f => f.by_ == .thread core cx && f.id == n
  | .accesses first below => !s.flights.any fun f => f.by_ == .thread core cx && first ≤ f.id && f.id < below
  | .line key below =>
    !s.flights.any fun f => f.id < below && f.loc.win == .glob && f.loc.key / 64 == key &&
      (match f.by_ with | .thread k _ => k == core | _ => false)
  | .values below => s.valued core cx below
  | .sampler below => !(s.comb (combOf core)).sampWait.any fun w => w.seq < below
  | .tlbinv form below asid va => s.tlbQuiet form below asid va
  | .staging line => !(s.hive (stagingHive line)).staging.contains line
  | .answer | .inbound _ | .mrecv | .barrier | .licence | .mwait _ => c.stage.given
  | .xfer ch id => belowDone ((s.core core).chan ch).doneBelow id
  | .engineSpace e =>
    (s.eng e).queue.length + (s.cmds.filter fun m => m.1 == e).length < 2 && c.tiles != 255 &&
      !s.combSaved (combOf e) c.launch
  | .engineDone => c.tiles == 0
  | .request => !s.unanswered core cx c
  | .promise reg _ _ => c.stage.given || !c.recs.any fun r => r.op == RecOp.remote false && !r.isV && r.reg == reg
  | .ringFilled h n => match sget h (s.core core).rings with | some r => decide (n ≤ r.filled) | none => true
  | .ringSpace h n => match sget h (s.core core).rings with | some r => decide (n ≤ r.free) | none => true
  | .install i => (s.extent i).st != .installing
  | .exitDrain => s.exitReady core cx
  | .stop => false

/-- A context at the end of a cycle. -/
def State.wakeCtx (s : State) (core cx : Nat) (c : Ctx) : Ctx :=
  if c.st == .parked && s.wakes core cx c then { c with st := c.running } else c

/-- Every wake whose event has happened, for all contexts at once. -/
def State.wakeAll (s : State) : State :=
  { s with cores := s.cores.map fun e =>
      (e.1, { e.2 with ctxs := Vector.ofFn fun i => s.wakeCtx e.1 i.val (e.2.ctxs[i.val]'i.isLt) }) }

/-! ### What falls due in a cycle -/

/-- Contexts of the machine that satisfy a test. -/
def State.contexts (s : State) (p : Nat → Nat → Ctx → Bool) : List (Nat × Nat) :=
  s.cores.flatMap fun e => ((List.range 8).filter fun x => p e.1 x (s.ctx e.1 x)).map fun x => (e.1, x)

/-- The engine is in a k-step, or its head is an `mstep` that has begun. -/
def Engine.steps (g : Engine) : Bool :=
  g.run.isSome || match g.queue with
  | c :: _ => c.begun && (match decodeTile 0 c.word with | .ok (.mstep ..) => true | _ => false)
  | [] => false

/-- A core whose clear engine has finished, or a context of which waits for nothing but the zeroing of its group. -/
def State.clearDue (s : State) (core : Nat) : Bool :=
  let k := s.core core
  (match k.clears with
    | r :: _ => r.done.any fun t => decide (t ≤ s.now)
    | [] => false) ||
    (List.range 8).any fun x =>
      (s.ctx core x).st == .clearing && !(k.clears.any fun r => r.cx == x) &&
        (match s.group (s.ctx core x).group with | some g => decide (g.zeroed ≤ s.now) | none => true)

/-- The count of a context's watchdog has reached its limit. -/
def Ctx.expired (c : Ctx) (now : Nat) : Bool :=
  c.wdlim != 0 && c.wdlim.toNat * 2 ^ 16 ≤ now - c.wdStart && c.st != .free && c.st != .reserved && c.st != .clearing && c.st != .retired

/-- The cycles of an `mwait` have passed. -/
def Ctx.waited (c : Ctx) (now : Nat) : Bool :=
  c.st == .parked && c.stage == .acted 1 && (match c.wait with | .mwait (some t) => decide (t ≤ now) | _ => false)

/-- The pairs whose cores request a licence, each once. -/
def State.askedPairs (s : State) : List Nat := (s.licReqs.map fun r => pairOf r.core).eraseDups

/-- What falls due in a cycle that begins. The refill comes before the k-steps, and both before the slots (R406). -/
def State.dueNow (s : State) : List Event :=
  let t := s.now
  let refills := if refillCycle t then (s.cores.filter fun e => e.2.ebal != 0 || e.2.erefill != 0).map fun e => Event.energyRefill e.1 else []
  let steps := (s.cores.filter fun e => e.2.eng.steps).map fun e => Event.kStep e.1
  let clears := (s.cores.filter fun e => s.clearDue e.1).map fun e => Event.clearDone e.1
  let dogs := (s.contexts fun _ _ c => c.expired t).map fun x => Event.watchdog x.1 x.2
  let waits := (s.contexts fun _ _ c => c.waited t).map fun x => Event.mwaitTimeout x.1 x.2
  let pages := (s.ephem.filter fun e => !e.2.expired && e.2.deadline + 2000 == t).map fun e => Event.ephemeralExpire e.1
  let grants := (s.askedPairs.filter fun p => (s.lic p).holder.isNone).map fun p => Event.licenceGrant p
  let hands := (s.askedPairs.filter fun p => (s.canHandOver p).isSome).map fun p => Event.coopHandover p
  let passes := (s.queues.filter fun e => match e.2.wait with | .fence l => decide (l + 4096 ≤ t) | _ => false).map
    fun e => Event.fencePass e.1
  refills ++ steps ++ clears ++ dogs ++ waits ++ pages ++ grants ++ hands ++ passes

/-! ### What may come from now on -/

/-- The type of the packet at the head of a queue; none where it cannot be read. -/
def State.headType (s : State) (h : QHead) : Option Nat :=
  let va := h.slot h.head
  match s.walkPage h.ptroot va with
  | .leaf l e => some (s.rd (leafAddr l e va) 1)
  | _ => none

/-- The event with which a queue goes on. -/
def State.queueNext (s : State) (q : Nat) : Option Event :=
  match s.qhead q with
  | none => none
  | some (k, h) =>
    match k.wait with
    | .advance => some (.signalPacket q)
    | .marker _ _ _ _ => some (.markerPacket q)
    | .fence _ => some (.fencePass q)
    | .never => none
    | .none =>
      if !s.queueReady q && !k.inHand then none
      else
        match s.headType h with
        | some 2 => some (.fencePacket q)
        | some 3 => some (.signalPacket q)
        | some 4 => some (.copyPacket q)
        | some 5 => some (.installPacket q)
        | some 6 => some (.markerPacket q)
        | some 7 => some (.cancelPacket q)
        | _ => some (.launchPacket q)

/-- The command at the head of an engine's queue, when it has not begun. -/
def State.headCommand (s : State) (e : Nat) : Option Event :=
  match (s.eng e).queue with
  | c :: _ => if c.begun then none else (match decodeTile e c.word with | .ok i => some (.command i) | .error _ => none)
  | [] => none

/-- Events that a state makes possible and that no other event has announced. -/
def State.mayCome (s : State) : List Event :=
  s.cores.filterMap (fun e => s.headCommand e.1) ++ s.queues.filterMap (fun e => s.queueNext e.1) ++
    (s.ephem.filter fun e => !e.2.expired && e.2.deadline == s.now).map fun e => Event.ephemeralExpire e.1

/-- Events that are not in a list yet join it. -/
def joinEvents (l : List Event) : List Event → List Event
  | [] => l
  | e :: es => joinEvents (if l.contains e then l else l ++ [e]) es

/-! ### The end of a cycle -/

/-- A queue that has become ready waits from now on (R308). -/
def State.readyQueues (s : State) : State :=
  { s with queues := s.queues.map fun e =>
      let r := s.queueReady e.1
      (e.1, { e.2 with ready := r, since := if r && !e.2.ready then s.now else e.2.since }) }

/-- The sampler caches of the combs whose cores have issued `fsamp` in this cycle are emptied (R299). -/
def State.clearSamplers (s : State) : State :=
  s.combs.foldl (fun s e => if e.2.fsamps = [] then s else s.clearSampler e.1) s

/-- Launches whose counts have reached what they expect end (R339). -/
def State.endLaunches (s : State) : State := s.launches.foldl (fun s e => s.endLaunch e.1) s

/-- The spares of the combs whose firmware has turned to them join where they can (R21). -/
def State.joinSpares (s : State) : State := s.combs.foldl (fun s e => if e.2.spareUsed then s.spareJoins e.1 else s) s

/-- The walk to the slot of the next notice is asked for, where a notice waits for it and may be written (R227, R324). -/
def State.askNotices (s : State) : State :=
  if s.notices ≠ [] && s.nring.getLsbD 0 && (s.ntail - s.nhead).toNat < ringSlots s.nring && s.sysWaits 0 s.noticeSlot then
    s.sysAsk 0 s.noticeSlot
  else s

/-- What firmware and the device's engines have still to write or to reach. -/
def State.catchUp (s : State) : State :=
  let s := s.joinSpares.flushAdds.endLaunches.showTables.askQueues
  (s.flushNotices (s.notices.length + 1)).askNotices

/-- Cores serve what waits for a Free context or for a receiver (R314, R318). -/
def State.serveAll (s : State) : State :=
  s.cores.foldl (fun s e => let n := (s.core e.1).inbound.length; if n = 0 then s else s.serve e.1 (n + 1)) s

/-- The next cycle begins. -/
def State.endCycle (s : State) : State :=
  let s := s.clearSamplers.catchUp.serveAll
  let s : State := { s with cycle := s.cycle + 1, turn := 0 }
  let s := s.wakeAll
  let s : State := { s with cores := s.cores.map fun e => (e.1, e.2.startClear s.now) }
  let s := s.readyQueues
  { s with due := s.due ++ s.dueNow, agenda := joinEvents s.agenda s.mayCome }

/-! ### A step of the machine -/

/-- The slot of the core whose turn it is, in context `cycle` mod 8 (R170), or the end of the cycle after the last; cores that
firmware does not run have no slots. -/
def State.takeSlot (s : State) : Outcome :=
  let next (s : State) : State := { s with turn := s.turn + 1 }
  if 2048 ≤ s.turn then .next s.endCycle
  else if s.boot != 1 then .next (next s)
  else
    match s.slot s.turn (s.now % 8) with
    | .next t => .next (next t)
    | o => o

/-- An event happens. -/
def State.happen (s : State) (e : Event) : Outcome := exec e.op { s with event := e }

/-- What the machine does next: what is due; else, by free choice, an event of the agenda, or the next slot. In dormant there
are no slots, and `cycle` stands (R446). -/
def State.advanceOne (s : State) : Outcome :=
  match s.due with
  | e :: l => { s with due := l }.happen e
  | [] =>
    let p := s.pick (s.agenda.length + 1)
    match s.agenda[p.1]? with
    | some e => { p.2 with agenda := s.agenda.eraseIdx p.1 }.happen e
    | none => if s.dormant then .next p.2 else p.2.takeSlot

end Sys2Proof.Machine
end

