-- ==== Sys2Proof/Machine/Step.lean ====
section
/-! DEFINITION. One step of the machine, and an instruction placed where the next step fetches. -/

namespace Sys2Proof.Machine

/-- One step: the next event, or the next slot of a core. -/
def step (s : State) : Host.Outcome State Fault Refusal := s.advanceOne

/-- The words of a bundle with a given word in the slot that it belongs to, and no operation in the other one. -/
def bundleWords (x lit : W32) : List W32 :=
  match decodeS x lit with
  | .ok _ => [x, 0, lit]
  | .error _ => [0x400, x, lit]

/-- The bytes of words from an address on. -/
def wordCells (a : Nat) : List W32 → List Host.Cell
  | [] => []
  | w :: l => cellsOf a w.toNat 4 ++ wordCells (a + 4) l

/-- The page in which the placed instruction stands: readable and executable in user mode, at the frame of its address. -/
def placedLeaf : BitVec 128 := BitVec.ofNat 128 (1 + 2 + 4 + 16 + 32 + 2 ^ 64)

/-- A thread at the placed instruction: Ready, at a boundary, with its registers as they are; in privileged mode for the
forms that need it. -/
def placedCtx (c : Ctx) (priv : Bool) : Ctx :=
  { c.boundary with
    st := .ready, wait := .none, gang := none, asyncs := [], forfeit := 0, pc := 0x10000, via := none, landed := true,
    loop0 := { c.loop0 with active := false }, loop1 := { c.loop1 with active := false },
    sstatus := if priv then c.sstatus ||| 1 else c.sstatus }

/-- The state with an instruction placed so that the very next step runs it: an operation in the first bundle of a page at
0x10000, for context 0 of core 0 (context 7 for the forager's forms); a tile command at the head of engine 0's queue
(log 40). -/
def State.withFetchWord (s : State) (nbits w : Nat) : State :=
  let i := decodeTableWord nbits w
  let s : State := { s with due := [], agenda := [], boot := 1, dormant := false, halt := [], turn := 0 }
  if 256 ≤ nbits then
    let c : Cmd := { word := BitVec.ofNat 256 w, core := 0, cx := 0, gen := 0, launch := 0, delta := 4 }
    let s : State := (s.modEng 0 fun g => { g with queue := [c] }).setLic 0 { holder := some 0 }
    match i with
    | some j => { s with due := [.command j] }
    | none => s
  else
    let cx : Nat := match i with | some j => if foragerOnly j then 7 else 0 | none => 0
    let priv : Bool := match i with | some j => privileged j | none => false
    let words := bundleWords (BitVec.ofNat 32 w) (BitVec.ofNat 32 (w / 2 ^ 32))
    let s : State := { s with cycle := s.cycle / 8 * 8 + BitVec.ofNat 64 cx, mem := s.mem.putAll (wordCells 0x10000 words) }
    let ent : TlbEnt := { asid := (s.ctx 0 cx).asid, space := 0, page := 0x10000, level := 4, leaf := placedLeaf }
    (s.modCtx 0 cx fun c => placedCtx c priv).modCore 0 fun k => { k with tlb := ent :: k.tlb, ebal := 0xFFFFF }

end Sys2Proof.Machine
end

