-- ==== Sys2Proof/Safety.lean ====
section
/-! DEFINITION. What a safe run is, and the terms in which claims are stated. -/

namespace Sys2Proof

open Machine

/-! ### Runs -/

/-- A run of n steps ends in a state: it meets no fault and no refusal. -/
def Runs : Nat → State → State → Prop
  | 0, s, t => t = s
  | n + 1, s, t => ∃ u, step s = .next u ∧ Runs n u t

/-- No step of a run of any length from a state stops. -/
def Safe (s : State) : Prop := ∀ n, ∃ t, Runs n s t

/-! ### Memory -/

/-- Memory and the memory of every comb image have their canonical form. -/
def MemOk (s : State) : Prop := s.mem.wf = true ∧ ∀ e ∈ s.images, e.2.mem.wf = true

/-- Every byte outside n bytes from a key reads as before, and is poisoned as before. -/
def MemKept (s t : State) (key n : Nat) : Prop :=
  ∀ x, x < key ∨ key + n ≤ x → t.mem.byte x = s.mem.byte x ∧ (x ∈ t.mem.pois ↔ x ∈ s.mem.pois)

/-- Every byte reads as before, and is poisoned as before. -/
def MemSame (s t : State) : Prop := ∀ x, t.mem.byte x = s.mem.byte x ∧ (x ∈ t.mem.pois ↔ x ∈ s.mem.pois)

/-! ### Bundles -/

/-- The S operation of the bundle in hand takes effect under a guard: the guard holds and is not poisoned (R95, R96), and the
V operation of the bundle has raised no cause (R61). -/
def Takes (s : State) (g : BitVec 4) : Prop :=
  s.here.guard g = ⟨true, false⟩ ∧ ∀ code val, s.here.vres ≠ .trap code val

/-- As `Takes`, under the guard of the context from which control is taken (R279). -/
def TakesCtl (s : State) (g : BitVec 4) : Prop :=
  s.ctl.guard g = ⟨true, false⟩ ∧ ∀ code val, s.here.vres ≠ .trap code val

/-- The operation changes the executing context by f, and its bundle completes in sequence. -/
def Alters (i : Instr) (s : State) (f : Ctx → Ctx) : Prop := exec i s = .next (s.modHere f).finish

/-- The operation writes a scalar register, and its bundle completes in sequence. -/
def WritesS (i : Instr) (s : State) (d : BitVec 4) (x : W72) (pois : Bool) : Prop := Alters i s fun c => c.setS d x pois

/-- The operation writes a predicate, and its bundle completes in sequence. -/
def WritesP (i : Instr) (s : State) (d : BitVec 3) (x pois : Bool) : Prop := Alters i s fun c => c.setP d x pois

/-- Bits [63:0] of a scalar register of the executing context. -/
def reg64 (s : State) (r : BitVec 4) : W64 := lo64 (s.here.sreg r).val
def poisS (s : State) (r : BitVec 4) : Bool := (s.here.sreg r).pois
def poisV (s : State) (r : BitVec 4) : Bool := (s.here.vreg r).pois

/-- The operation raises a cause: the executing context takes the trap, and nothing else of the bundle happens. -/
def Raises (i : Instr) (s : State) (code : Byte) (val : W64) : Prop := exec i s = .next (s.raise code val)

/-! ### V operations -/

/-- The V operation puts an effect in hand; nothing else changes. -/
def Holds (i : Instr) (s : State) (e : VEff) : Prop := exec i s = .next (s.modHere fun c => { c with vres := .eff e })

/-- The guard mask of a V operation is not poisoned, and neither is vD, which a guard other than m0 reads (R131, R133). -/
def MaskOk (s : State) (g d : BitVec 4) : Prop := (s.here.maskGuard g).pois = false ∧ (g = 0 ∨ poisV s d = false)

/-- The effect in hand writes vD alone: the active lanes take f, the others keep their bits (R130). It may raise flags. -/
def WritesLanes (i : Instr) (s : State) (g d : BitVec 4) (f : Nat → W32) : Prop :=
  ∃ x e, Holds i s e ∧ e.v = [(d, x, false)] ∧ e.s = none ∧ e.m = none ∧
    ∀ k, k < 16 → lane x k = if (s.here.maskGuard g).val.getLsbD k then f k else lane (s.here.vreg d).val k

/-- As `WritesLanes`, of a form that raises no flag and asks for no normaliser (R135). -/
def MovesLanes (i : Instr) (s : State) (g d : BitVec 4) (f : Nat → W32) : Prop :=
  ∃ x, Holds i s { v := [(d, x, false)] } ∧
    ∀ k, k < 16 → lane x k = if (s.here.maskGuard g).val.getLsbD k then f k else lane (s.here.vreg d).val k

/-- No arithmetic trap is enabled (R76). -/
def NoFpTrap (s : State) : Prop := s.here.fmode.extractLsb' 4 5 = 0

/-- Lane k of a V source. -/
def srcLane (s : State) (a : VSrc) (k : Nat) : W32 := lane (s.here.vsrc a).val k
def regLane (s : State) (r : BitVec 4) (k : Nat) : W32 := lane (s.here.vreg r).val k

/-- The effect in hand writes vD alone: the active lanes take the bits that f gives, the others keep theirs (R130); every flag
that an active lane raises is raised, and the normaliser is asked for when an active lane asks (R76, R86). -/
def WritesOut (i : Instr) (s : State) (g d : BitVec 4) (f : Nat → LaneOut) : Prop :=
  let act := (s.here.maskGuard g).val
  ∃ x e, Holds i s e ∧ e.v = [(d, x, false)] ∧ e.s = none ∧ e.m = none ∧
    (∀ k, k < 16 → lane x k = if act.getLsbD k then (f k).bits else lane (s.here.vreg d).val k) ∧
    (∀ j, e.flags.getLsbD j = true ↔ ∃ k, k < 16 ∧ act.getLsbD k = true ∧ (f k).flags.getLsbD j = true) ∧
    (e.normalise = true ↔ ∃ k, k < 16 ∧ act.getLsbD k = true ∧ (f k).norm = true)

/-- What holds of every floating-point form lane by lane: P of the form and of what each lane gives, for the forms on FP32 and on
half-precision elements, the conversions, the special functions, the immediate forms, which have no guard, and the bank forms. -/
def FloatForms (s : State) (g d a b : BitVec 4) (y : VSrc) (t : Bool) (n : BitVec 8) (i : BitVec 20)
    (P : Instr → (Nat → LaneOut) → Prop) : Prop :=
  let md := s.here.mode
  let x (k : Nat) : Nat := (regLane s a k).toNat
  let z (k : Nat) : Nat := (regLane s b k).toNat
  let old (k : Nat) : Nat := (regLane s d k).toNat
  let w (k : Nat) : Nat := (srcLane s y k).toNat
  let fmt := if t then bf16 else fp16
  let pairs (f : Nat → Nat → Nat → FRes) : Nat → LaneOut := fun k =>
    let r (j : Nat) : FRes := f (x k / 2 ^ (16 * j) % 2 ^ 16) (z k / 2 ^ (16 * j) % 2 ^ 16) (w k / 2 ^ (16 * j) % 2 ^ 16)
    ⟨BitVec.ofNat 32 ((r 0).bits + 2 ^ 16 * (r 1).bits), (r 0).flags ||| (r 1).flags, (r 0).norm || (r 1).norm⟩
  let does (op : Instr) (f : Nat → FRes) : Prop := P op fun k => (f k).lane
  does (.vaddF32 g d a y) (fun k => fp32.add md (x k) (w k)) ∧
  does (.vsubF32 g d a y) (fun k => fp32.sub md (x k) (w k)) ∧
  does (.vmulF32 g d a y) (fun k => fp32.mul md (x k) (w k)) ∧
  does (.vminF32 g d a y) (fun k => fp32.minMax md false (x k) (w k)) ∧
  does (.vmaxF32 g d a y) (fun k => fp32.minMax md true (x k) (w k)) ∧
  does (.vminnum g d a y) (fun k => fp32.minMaxNum md false (x k) (w k)) ∧
  does (.vmaxnum g d a y) (fun k => fp32.minMaxNum md true (x k) (w k)) ∧
  does (.vfma g d a b y) (fun k => fp32.fma md false false (x k) (z k) (w k)) ∧
  does (.vfms g d a b y) (fun k => fp32.fma md false true (x k) (z k) (w k)) ∧
  does (.vfnma g d a b y) (fun k => fp32.fma md true false (x k) (z k) (w k)) ∧
  does (.vfnms g d a b y) (fun k => fp32.fma md true true (x k) (z k) (w k)) ∧
  P (.vhAdd g d a y t) (pairs fun u _ v => fmt.add md u v) ∧
  P (.vhMul g d a y t) (pairs fun u _ v => fmt.mul md u v) ∧
  P (.vhMin g d a y t) (pairs fun u _ v => fmt.minMax md false u v) ∧
  P (.vhMax g d a y t) (pairs fun u _ v => fmt.minMax md true u v) ∧
  P (.vhFma g d a b y t) (pairs fun u v c => fmt.fma md false false u v c) ∧
  does (.vdiv g d a y) (fun k => fp32.div md (x k) (w k)) ∧
  does (.vrcp g d y) (fun k => fp32.rcp md (w k)) ∧
  does (.vrsqrt g d y) (fun k => fp32.rsqrt md (w k)) ∧
  does (.vsqrt g d y) (fun k => fp32.sqrt md (w k)) ∧
  does (.vexp2 g d y) (fun k => fp32.exp2 md (w k)) ∧
  does (.vlog2 g d y) (fun k => fp32.log2v md (w k)) ∧
  does (.vsinpi g d y) (fun k => fp32.sinpi md (w k)) ∧
  does (.vcospi g d y) (fun k => fp32.cospi md (w k)) ∧
  P (.vcvtI32F32 g d y t) (fun k =>
    let r := fp32.toInt md (if t then .rtz else md.rm) (-(2 ^ 31)) (2 ^ 31 - 1) (w k)
    ⟨BitVec.ofInt 32 r.1, r.2.1, r.2.2⟩) ∧
  P (.vcvtN32F32 g d y t) (fun k =>
    let r := fp32.toInt md (if t then .rtz else md.rm) 0 (2 ^ 32 - 1) (w k)
    ⟨BitVec.ofInt 32 r.1, r.2.1, r.2.2⟩) ∧
  does (.vcvtF32I32 g d y) (fun k => fp32.ofInt md (srcLane s y k).toInt) ∧
  does (.vcvtF32N32 g d y) (fun k => fp32.ofInt md (w k)) ∧
  does (.vcvtF32F16 g d y) (fun k => fp16.convert fp32 md (w k % 2 ^ 16)) ∧
  does (.vcvtF32Bf16 g d y) (fun k => bf16.convert fp32 md (w k % 2 ^ 16)) ∧
  (∀ f : Fmt, (f = fp16 ∨ f = bf16) →
    P (if f = fp16 then .vcvtF16F32 g d a y else .vcvtBf16F32 g d a y) fun k =>
      let lo := fp32.convert f md (x k)
      let hi := fp32.convert f md (w k)
      ⟨BitVec.ofNat 32 (lo.bits + 2 ^ 16 * hi.bits), lo.flags ||| hi.flags, lo.norm || hi.norm⟩) ∧
  (let imm := (i ++ (0 : BitVec 12)).toNat
   (g = 0 → does (.vaddi d a i) (fun k => fp32.add md (x k) imm)) ∧
   (g = 0 → does (.vmuli d a i) (fun k => fp32.mul md (x k) imm)) ∧
   (g = 0 → poisV s d = false → does (.vfmai d a i) (fun k => fp32.fma md false false (old k) (x k) imm))) ∧
  (let key := bankKey (combOf s.sel.1) (4 * n.toNat)
   awayAt s.sel.1 s.here = false → s.mem.poisoned key 4 = false →
    (poisV s d = false → does (.vfmak g d a n) fun k => fp32.fma md false false (old k) (x k) (s.mem.read key 4)) ∧
    does (.vaddk g d a n) (fun k => fp32.add md (x k) (s.mem.read key 4)) ∧
    does (.vmulk g d a n) (fun k => fp32.mul md (x k) (s.mem.read key 4)))

/-- The lowest cause among the enabled flags that active lanes raise is in hand, with the lanes that raised it (R76). -/
def TrapsOut (i : Instr) (s : State) (g : BitVec 4) (f : Nat → LaneOut) : Prop :=
  let act := (s.here.maskGuard g).val
  let raised (q : Nat) : Prop := s.here.fmode.getLsbD (4 + q) = true ∧ ∃ k, k < 16 ∧ act.getLsbD k = true ∧ (f k).flags.getLsbD q = true
  ∀ j, j < 5 → raised j → (∀ q, q < j → ¬raised q) →
    ∃ v : W64, exec i s = .next (s.modHere fun c => { c with vres := .trap (BitVec.ofNat 8 (0x14 + j)) v }) ∧
      ∀ k, k < 64 → v.getLsbD k = (decide (k < 16) && act.getLsbD k && (f k).flags.getLsbD j)

/-- What node j of a level of the pairwise tree gives (R87): level 0 is the lanes, absent where they are inactive; a node with one
operand passes it on. -/
def treeAt (act : Nat → Bool) (x : Nat → Nat) (f : Nat → Nat → FRes) : Nat → Nat → Option Nat
  | 0, j => if act j then some (x j) else none
  | n + 1, j =>
    match treeAt act x f n (2 * j), treeAt act x f n (2 * j + 1) with
    | some u, some v => some (f u v).bits
    | some u, none => some u
    | none, r => r

/-- What the nodes with two operands compute, over the four levels above the sixteen lanes. -/
def treeWork (act : Nat → Bool) (x : Nat → Nat) (f : Nat → Nat → FRes) : List FRes :=
  [0, 1, 2, 3].flatMap fun n => (List.range (2 ^ (3 - n))).filterMap fun j =>
    match treeAt act x f n (2 * j), treeAt act x f n (2 * j + 1) with
    | some u, some v => some (f u v)
    | _, _ => none

/-- The effect in hand writes a mask register alone: the active bits are f's, the others are cleared (R130). -/
def WritesMask (i : Instr) (s : State) (g : BitVec 4) (d : BitVec 3) (pois : Bool) (f : Nat → Bool) : Prop :=
  ∃ x, Holds i s { m := some (d, x, pois) } ∧
    ∀ k, k < 16 → x.getLsbD k = (!pois && (s.here.maskGuard g).val.getLsbD k && f k)

/-- The V operation puts a cause in hand: the bundle takes it when its S operation would complete (R61 step 9). -/
def HoldsTrap (i : Instr) (s : State) (code : Byte) (val : W64) : Prop :=
  exec i s = .next (s.modHere fun c => { c with vres := .trap code val })

/-- A lane whose byte q is f q. -/
def bytes4 (f : Nat → Byte) : W32 := f 3 ++ f 2 ++ f 1 ++ f 0
/-- Byte q of a lane. -/
def byteAt (x : W32) (q : Nat) : Byte := x.extractLsb' (8 * q) 8

/-- An operation of the S slot, and one of the V slot. -/
def isSOp (i : Instr) : Bool := (encodeSParts i).isSome
def isVOp (i : Instr) : Bool := (encodeV i).isSome

/-- The mask register that a V operation writes. -/
def maskDest : Instr → Option (BitVec 3)
  | .vcmp _ m _ _ _ _ => some m
  | .mset _ d _ => some d
  | _ => none

/-- The S operations that read registers and write at most registers, predicates and `fflags`. -/
def regOnly : Instr → Bool
  | .add .. | .sub .. | .mul .. | .mulh .. | .mulhu .. | .div .. | .divu .. | .rem .. | .remu .. | .and .. | .or ..
  | .xor .. | .shl .. | .shr .. | .sra .. | .min .. | .max .. | .minu .. | .maxu .. | .clz .. | .ctz .. | .pcnt ..
  | .sext .. | .mov .. | .andn .. | .addi .. | .andi .. | .ori .. | .xori .. | .shli .. | .shri .. | .srai ..
  | .movi .. | .orh .. | .bfx .. | .bfxs .. | .bfi .. | .lea .. | .leai .. | .setsp .. | .getsp .. | .cmp ..
  | .cmpi .. | .pand .. | .por .. | .pxor .. | .pandn .. | .pnot .. | .pword .. | .pset .. | .sel .. | .nop .. => true
  | _ => false

/-! ### Numbers -/

/-- A finite FP32 word. -/
def finite32 (x : Nat) : Prop := x < 2 ^ 32 ∧ x / 2 ^ 23 % 256 ≠ 255
/-- The value of a finite FP32 word in units of 2^-149 (R70). -/
def val32 (x : Nat) : Int :=
  let e := x / 2 ^ 23 % 256
  let m := x % 2 ^ 23 + (if e = 0 then 0 else 2 ^ 23)
  (if 2 ^ 31 ≤ x then -1 else 1) * (m * 2 ^ (e - 1) : Nat)

/-- A word rounds the exact value v / 2^(149 + n) once in a mode: no finite word is better (R78). -/
def RoundsTo (rm : Rm) (r : Nat) (v : Int) (n : Nat) : Prop :=
  let u (x : Nat) : Int := val32 x * 2 ^ n
  match rm with
  | .rne => ∀ w, finite32 w → (u r - v).natAbs ≤ (u w - v).natAbs
  | .rtz => (u r).natAbs ≤ v.natAbs ∧ 0 ≤ u r * v ∧ ∀ w, finite32 w → (u w).natAbs ≤ v.natAbs → 0 ≤ u w * v →
      (u w).natAbs ≤ (u r).natAbs
  | .rup => v ≤ u r ∧ ∀ w, finite32 w → v ≤ u w → u r ≤ u w
  | .rdn => u r ≤ v ∧ ∀ w, finite32 w → u w ≤ v → u w ≤ u r

/-! ### Places -/

/-- The addresses of an access are aligned and resolve to places, in a state that has at most other translations, walks and
staged lines than the one before. -/
def Reaches (s : State) (vas : List W72) (n : Nat) (u : Use) (ls : List Loc) (t : State) : Prop :=
  s.place vas n u = (some ls, t)

/-- The place's bytes stand in memory as they are: no ephemeral page, and no take-over has lost data (R234, R449). -/
def PlainPlace (s : State) (l : Loc) : Prop :=
  l.win ≠ .glob ∨ (leafKind l.leaf ≠ 3 ∧ s.lost = [])

/-- The addresses of an SM form: the offset field times the width, or the literal, over the base's space byte (R104). -/
def smAddr (base : W72) (o : Imm 6) (n : Nat) : W72 :=
  base.extractLsb' 64 8 ++ (base.extractLsb' 0 64 + match o with
    | .fld v => v.signExtend 64 * BitVec.ofNat 64 n
    | .lit w => w.signExtend 64)

/-- The value that a load has when it issues: that of a load of the core's own scratchpad before which no earlier access, no
earlier atomic of the thread and no access that the scratchpad's port has accepted is under way (R241, R245, R247). -/
def fixed (s : State) (op : RecOp) (ls : List Loc) : Option (W512 × Bool) :=
  if s.fenced s.sel.1 s.sel.2 s.seq || ls.any fun l => s.behind s.sel.1 s.sel.2 s.seq l op.bytes || s.portTaken s.seq l then none
  else s.ownValue op ls

/-- The executing thread takes a pending access record, and its register is empty until the fill (R116). -/
def recorded (s : State) (isV : Bool) (d : BitVec 4) (r : Rec) : State :=
  let t : State := { s with seq := s.seq + 1, agenda := s.agenda ++ [Event.fill s.sel.1 s.sel.2 isV d] }
  t.modHere fun c =>
    let c : Ctx := { c with recs := c.recs ++ [r] }
    if isV then c.markV d false else c.markS d false

/-- A write of the executing thread on its way to a place that is not its core's own scratchpad. -/
def sent (s : State) (l : Loc) (n : Nat) (op : FlightOp) : State :=
  { s with
    seq := s.seq + 1,
    flights := s.flights ++ [{ id := s.seq, by_ := .thread s.sel.1 s.sel.2, loc := l, len := n, op := op,
                               after := s.here.storeFence, afterComb := s.here.storeFenceComb }],
    agenda := s.agenda ++ [.storeAcknowledgement s.seq] }

/-- What follows an access under its order: the bundle completes, or the thread waits until the access is complete (R121). -/
def goesOn (r : Ord) (n : Nat) (t : State) : State :=
  if r = .acq ∨ r = .sc then t.parkStage (.acted 1) (.access n) else t.finish

/-- Acquire at a core (R120). -/
def acquired (sc : Scope) (s : State) : State :=
  if sc = .comb then s else s.modCore s.sel.1 fun c => { c with l1 := [] }

/-- Release of the executing thread over all its earlier accesses is complete (R120): no write and no atomic of it is under
way, at comb scope none that is not accepted, and no load waits for its value. -/
def Released (s : State) (sc : Scope) : Prop :=
  (∀ f ∈ s.flights, f.by_ = .thread s.sel.1 s.sel.2 → f.id < s.seq → sc = .comb ∧ f.accepted = true) ∧
  ∀ r ∈ s.here.recs, r.seq < s.seq → r.op.isRemote = true ∨ sc = .comb ∧ r.accepted = true

/-- An access under an order may be made (R121). -/
def MayGo (s : State) (r : Ord) (sc : Scope) : Prop := r = .rel ∨ r = .sc → Released s sc

/-- The line of a place is out of the issuing core's L1 (R122). -/
def dropped (s : State) (l : Loc) : State :=
  s.modCore s.sel.1 fun c => { c with l1 := c.l1.filter fun x => x.line != l.key / 64 }

/-! ### Homes -/

/-- The operation in hand of the executing thread waits for its home at n bytes from a place, and its turn has come: no
earlier access of the thread to the place is under way, no other agent's arrived write marks it (R249), its DRAM is not
replaying (R447) nor degraded (R448), and the free choice is for it. -/
def AtHome (s : State) (l : Loc) (n : Nat) : Prop :=
  s.here.stage = .acted 1 ∧ s.here.places = [l] ∧ s.behind s.sel.1 s.sel.2 s.seq l n = false ∧
    s.marked (.thread s.sel.1 s.sel.2) l n = false ∧ s.stalled l = false ∧ s.degradedAt l = false ∧ (s.pick 2).1 = 0

/-- A state of which the next free choice is made. -/
def chosen (s : State) : State := (s.pick 2).2

/-- The executing thread waits for the home of places in the middle of its operation. -/
def waitsAt (s : State) (ls : List Loc) : State :=
  (s.modHere fun c => { c with places := ls }).parkStage (.acted 1) .home

end Sys2Proof
end

