-- ==== Sys2Proof/Certificates/Slice0/Obligations.lean ====
section
/-! DEFINITION. The statements about this machine. -/

open Sys2Proof Sys2Proof.Machine

/-! ### Scalar arithmetic -/

/-- R100, R98, R96: each two-operand form writes its function of sA[63:0] and sB[63:0], sign-extended into the space byte,
and a poisoned source poisons sD. -/
def Obligations.ScalarArithmeticResults : Prop :=
  ∀ (s : State) (g d a b : BitVec 4), Takes s g →
    let x := reg64 s a
    let y := reg64 s b
    let q := poisS s a || poisS s b
    WritesS (.add g d a b) s d (sx72 (x + y)) q ∧
    WritesS (.sub g d a b) s d (sx72 (x - y)) q ∧
    WritesS (.mul g d a b) s d (sx72 (x * y)) q ∧
    WritesS (.mulh g d a b) s d (sx72 ((x.signExtend 128 * y.signExtend 128).extractLsb' 64 64)) q ∧
    WritesS (.mulhu g d a b) s d (sx72 ((x.zeroExtend 128 * y.zeroExtend 128).extractLsb' 64 64)) q ∧
    WritesS (.and g d a b) s d (sx72 (x &&& y)) q ∧
    WritesS (.or g d a b) s d (sx72 (x ||| y)) q ∧
    WritesS (.xor g d a b) s d (sx72 (x ^^^ y)) q ∧
    WritesS (.andn g d a b) s d (sx72 (x &&& ~~~y)) q ∧
    WritesS (.shl g d a b) s d (sx72 (x <<< (y.extractLsb' 0 6).toNat)) q ∧
    WritesS (.shr g d a b) s d (sx72 (x >>> (y.extractLsb' 0 6).toNat)) q ∧
    WritesS (.sra g d a b) s d (sx72 (x.sshiftRight (y.extractLsb' 0 6).toNat)) q ∧
    WritesS (.min g d a b) s d (sx72 (if x.slt y then x else y)) q ∧
    WritesS (.max g d a b) s d (sx72 (if x.slt y then y else x)) q ∧
    WritesS (.minu g d a b) s d (sx72 (if x.ult y then x else y)) q ∧
    WritesS (.maxu g d a b) s d (sx72 (if x.ult y then y else x)) q

/-- R100: the one-operand forms; `mov` copies all 72 bits. -/
def Obligations.ScalarCountsAndExtensions : Prop :=
  ∀ (s : State) (g d a : BitVec 4), Takes s g →
    let x := reg64 s a
    let q := poisS s a
    WritesS (.clz g d a) s d (sx72 x.clz) q ∧
    WritesS (.ctz g d a) s d (sx72 x.ctz) q ∧
    WritesS (.pcnt g d a) s d (sx72 x.cpop) q ∧
    WritesS (.sext g d a .b) s d (sx72 ((x.extractLsb' 0 8).signExtend 64)) q ∧
    WritesS (.sext g d a .h) s d (sx72 ((x.extractLsb' 0 16).signExtend 64)) q ∧
    WritesS (.sext g d a .w) s d (sx72 ((x.extractLsb' 0 32).signExtend 64)) q ∧
    WritesS (.mov g d a) s d (s.here.sreg a).val q

/-- R69, R100: a quotient truncates toward zero and a remainder has the dividend's sign; MIN ÷ −1 is MIN with remainder
zero; on a zero divisor the quotient is all ones, the remainder the dividend, and `fflags`[5] is set, or the form traps with
0x19 where `fmode` enables it; a poisoned operand poisons sD. -/
def Obligations.DivisionAndZeroDivisor : Prop :=
  ∀ (s : State) (g d a b : BitVec 4), Takes s g →
    let x := reg64 s a
    let y := reg64 s b
    ((poisS s a || poisS s b) = true →
      WritesS (.div g d a b) s d 0 true ∧ WritesS (.divu g d a b) s d 0 true ∧
      WritesS (.rem g d a b) s d 0 true ∧ WritesS (.remu g d a b) s d 0 true) ∧
    ((poisS s a || poisS s b) = false → y ≠ 0 →
      WritesS (.div g d a b) s d (sx72 (x.sdiv y)) false ∧ WritesS (.divu g d a b) s d (sx72 (x / y)) false ∧
      WritesS (.rem g d a b) s d (sx72 (x.srem y)) false ∧ WritesS (.remu g d a b) s d (sx72 (x % y)) false) ∧
    ((poisS s a || poisS s b) = false → y = 0 → s.here.fmode.getLsbD 9 = false →
      let sets (v : W64) : Ctx → Ctx := fun c => { c.setS d (sx72 v) false with fflags := c.fflags ||| 0x20 }
      Alters (.div g d a b) s (sets (BitVec.allOnes 64)) ∧ Alters (.divu g d a b) s (sets (BitVec.allOnes 64)) ∧
      Alters (.rem g d a b) s (sets x) ∧ Alters (.remu g d a b) s (sets x)) ∧
    ((poisS s a || poisS s b) = false → y = 0 → s.here.fmode.getLsbD 9 = true →
      Raises (.div g d a b) s 0x19 0 ∧ Raises (.divu g d a b) s 0x19 0 ∧
      Raises (.rem g d a b) s 0x19 0 ∧ Raises (.remu g d a b) s 0x19 0)

/-- R101: the immediate forms; the immediate or the literal is sign-extended. -/
def Obligations.ImmediateForms : Prop :=
  ∀ (s : State) (g d a : BitVec 4) (i : Imm 13) (n : BitVec 6), Takes s g →
    let x := reg64 s a
    let k : W64 := match i with
      | .fld v => v.signExtend 64
      | .lit w => w.signExtend 64
    let hi : W32 := match i with
      | .fld v => v.signExtend 32
      | .lit w => w
    let q := poisS s a
    WritesS (.addi g d a i) s d (sx72 (x + k)) q ∧
    WritesS (.andi g d a i) s d (sx72 (x &&& k)) q ∧
    WritesS (.ori g d a i) s d (sx72 (x ||| k)) q ∧
    WritesS (.xori g d a i) s d (sx72 (x ^^^ k)) q ∧
    WritesS (.shli g d a n) s d (sx72 (x <<< n.toNat)) q ∧
    WritesS (.shri g d a n) s d (sx72 (x >>> n.toNat)) q ∧
    WritesS (.srai g d a n) s d (sx72 (x.sshiftRight n.toNat)) q ∧
    WritesS (.movi g d i) s d (sx72 k) false ∧
    WritesS (.orh g d a i) s d (sx72 (x ||| (hi ++ (0 : W32)))) q

/-- R102: bit k of the result of `bfx` and `bfxs` is bit pos + k of sA inside the field, and zero or the field's top bit above
it; bit k of the result of `bfi` is bit k − pos of sA inside the field, and sD's own bit outside it. -/
def Obligations.BitFieldForms : Prop :=
  ∀ (s : State) (g d a : BitVec 4) (p : BitVec 6) (n : BitVec 5), Takes s g → p.toNat + n.toNat + 1 ≤ 64 →
    let x := reg64 s a
    let old := reg64 s d
    let len := n.toNat + 1
    ∃ u v w : W64,
      WritesS (.bfx g d a p n) s d (sx72 u) (poisS s a) ∧
      WritesS (.bfxs g d a p n) s d (sx72 v) (poisS s a) ∧
      WritesS (.bfi g d a p n) s d (sx72 w) (poisS s a || poisS s d) ∧
      ∀ k, k < 64 →
        u.getLsbD k = (decide (k < len) && x.getLsbD (p.toNat + k)) ∧
        v.getLsbD k = x.getLsbD (p.toNat + min k n.toNat) ∧
        w.getLsbD k = if p.toNat ≤ k ∧ k < p.toNat + len then x.getLsbD (k - p.toNat) else old.getLsbD k

/-- R103: address forms keep the space byte of their base and wrap in bits [63:0]. -/
def Obligations.AddressForms : Prop :=
  ∀ (s : State) (g d a b : BitVec 4) (n : BitVec 2) (i : Imm 13) (sp : Byte), Takes s g →
    let space := (s.here.sreg a).val.extractLsb' 64 8
    let k : W64 := match i with
      | .fld v => v.signExtend 64
      | .lit w => w.signExtend 64
    WritesS (.lea g d a b n) s d (space ++ (reg64 s a + (reg64 s b <<< n.toNat))) (poisS s a || poisS s b) ∧
    WritesS (.leai g d a i) s d (space ++ (reg64 s a + k)) (poisS s a) ∧
    WritesS (.setsp g d a sp) s d (sp ++ reg64 s a) (poisS s a) ∧
    WritesS (.getsp g d) s d ((0 : W64) ++ (s.here.sreg d).val.extractLsb' 64 8) (poisS s d)

/-- R106: compares of sA[63:0] with sB[63:0] or an immediate; a poisoned source poisons the predicate (R105). -/
def Obligations.CompareForms : Prop :=
  ∀ (s : State) (g : BitVec 4) (p : BitVec 3) (a b : BitVec 4) (i : Imm 10), Takes s g →
    let x := reg64 s a
    let y := reg64 s b
    let k : W64 := match i with
      | .fld v => v.signExtend 64
      | .lit w => w.signExtend 64
    let holds (c : Cond) (u v : W64) : Bool := match c with
      | .eq => decide (u = v)
      | .ne => decide (u ≠ v)
      | .lt => u.slt v
      | .ge => !u.slt v
      | .ltu => u.ult v
      | .geu => !u.ult v
      | .tst => decide (u &&& v ≠ 0)
    ∀ c : Cond, WritesP (.cmp g p a b c) s p (holds c x y) (poisS s a || poisS s b) ∧
      WritesP (.cmpi g p a c i) s p (holds c x k) (poisS s a)

/-- R107, R108: predicate logic, `pword`, `pset` and `sel`. -/
def Obligations.PredicateForms : Prop :=
  ∀ (s : State) (g : BitVec 4) (d a b : BitVec 3) (r m n : BitVec 4), Takes s g →
    let x := s.here.preg a
    let y := s.here.preg b
    let q := x.pois || y.pois
    WritesP (.pand g d a b) s d (x.val && y.val) q ∧
    WritesP (.por g d a b) s d (x.val || y.val) q ∧
    WritesP (.pxor g d a b) s d (x.val ^^ y.val) q ∧
    WritesP (.pandn g d a b) s d (x.val && !y.val) q ∧
    WritesP (.pnot g d a) s d (!x.val) x.pois ∧
    (∃ (w : W64) (z : Bool), WritesS (.pword g r) s r (sx72 w) z ∧ (z = true ↔ ∃ k, (s.here.preg k).pois = true) ∧
      ∀ k, k < 64 → w.getLsbD k = (decide (k < 8) && (s.here.preg (BitVec.ofNat 3 k)).val)) ∧
    (∃ f : Ctx → Ctx, Alters (.pset g m) s f ∧
      (∀ k : BitVec 3, k ≠ 0 → (f s.here).preg k = ⟨(reg64 s m).getLsbD k.toNat && !poisS s m, poisS s m⟩) ∧
      { f s.here with p := s.here.p } = s.here) ∧
    WritesS (.sel g r m n a) s r (if x.val then (s.here.sreg m).val else (s.here.sreg n).val)
      (x.pois || (if x.val then poisS s m else poisS s n))

/-! ### The guard, control and traps -/

/-- R48, R95, R96: under a false guard an S operation does nothing but let its bundle complete; a poisoned guard traps with
0x12, with file 2 and the predicate's number. -/
def Obligations.GuardFalseOrPoisoned : Prop :=
  ∀ (s : State) (i : Instr), isSOp i = true → s.lead = none →
    let p := s.here.guard (guardOf i)
    (p.pois = false → p.val = false → (∀ code val, s.here.vres ≠ .trap code val) → exec i s = .next s.finish) ∧
    (p.pois = true → Raises i s 0x12 (BitVec.ofNat 64 (32 + ((guardOf i).extractLsb' 0 3).toNat)))

/-- R96-R98, R105: a form that reads and writes registers alone changes, when it does not raise a cause, nothing outside its
context, no scalar register but its destination, no vector register and no mask, no flag but `fflags`[5] of a division, and no
trap record. -/
def Obligations.RegisterFormFrame : Prop :=
  ∀ (s t : State) (i : Instr), regOnly i = true → s.here.vres = .none → exec i s = .next t →
    (∃ code val, t = s.raise code val) ∨
    (t = s.modHere fun _ => t.here) ∧
    (∀ r, r ∉ (sRegs 0 i).ws → t.here.sreg r = s.here.sreg r) ∧
    (∀ r, (t.here.sreg r).full = (s.here.sreg r).full) ∧
    t.here.v = s.here.v ∧ t.here.m = s.here.m ∧ t.here.fmode = s.here.fmode ∧
    (t.here.fflags = s.here.fflags ∨ t.here.fflags = s.here.fflags ||| 0x20) ∧
    t.here.sstatus = s.here.sstatus ∧ t.here.scause = s.here.scause ∧ t.here.tcause = s.here.tcause ∧
    t.here.spc = s.here.spc ∧ t.here.tpc = s.here.tpc ∧ t.here.recs = s.here.recs ∧ t.here.k = s.here.k ∧
    ((sRegs 0 i).ws ≠ [] → t.here.p = s.here.p)

/-- R109: a taken branch or jump goes to its target, its link is the address after the bundle, and a misaligned or poisoned
target traps before the transfer, with no effect. -/
def Obligations.BranchesAndJumps : Prop :=
  ∀ (s : State) (g d a : BitVec 4) (i : Imm 21) (b : Bundle), TakesCtl s g → s.here.cur = some b →
    let pc := s.here.pc
    let sp := pc.extractLsb' 64 8
    let k : W64 := match i with
      | .fld v => v.signExtend 64
      | .lit w => w.signExtend 64
    let target := sp ++ (pc.extractLsb' 0 64 + 4 * k)
    let link := sp ++ (pc.extractLsb' 0 64 + BitVec.ofNat 64 (4 * b.len))
    let x := s.ctl.sreg a
    exec (.br g i) s = .next (s.finishTo target) ∧
    exec (.bl g i) s = .next ((s.modHere fun c => c.setS 15 link false).finishTo target) ∧
    (x.pois = false → x.val.extractLsb' 0 2 = 0 →
      exec (.jr g a) s = .next (s.finishTo x.val) ∧
      exec (.jlr g d a) s = .next ((s.modHere fun c => c.setS d link false).finishTo x.val)) ∧
    (x.pois = false → x.val.extractLsb' 0 2 ≠ 0 →
      Raises (.jr g a) s 0x24 (x.val.extractLsb' 0 64) ∧ Raises (.jlr g d a) s 0x24 (x.val.extractLsb' 0 64)) ∧
    (x.pois = true →
      Raises (.jr g a) s 0x12 (BitVec.ofNat 64 a.toNat) ∧ Raises (.jlr g d a) s 0x12 (BitVec.ofNat 64 a.toNat))

/-- R110: `loop` and `loopi` take the free level, or pass over the body when the count is zero; they trap with 0x09 when both
levels are active or the body ends after that of level 0, and with 0x05 when Last is no bundle start. -/
def Obligations.LoopsTakeALevel : Prop :=
  ∀ (s : State) (g k : BitVec 4) (n : BitVec 17) (x : W32) (b : Bundle) (l : Loc) (u : State),
    TakesCtl s g → s.lead = none → s.here.cur = some b →
    let c := s.here
    let sp := c.pc.extractLsb' 64 8
    let last := sp ++ (c.pc.extractLsb' 0 64 + BitVec.ofNat 64 (4 * n.toNat))
    let full := (c.loop0.active && c.loop1.active) || (c.loop0.active && c.loop0.last.toNat < last.toNat)
    let lv : Loop := ⟨sp ++ (c.pc.extractLsb' 0 64 + BitVec.ofNat 64 (4 * b.len)), last, x, true⟩
    let ws := u.blockAt (leafKind l.leaf) l.key
    let kind := (blockKinds ws).getD (wordIndex l.key) .notStart
    let after := vaPlus last (bundleAt (ws.drop (wordIndex l.key))).len
    let does (i : Instr) : Prop :=
      (full = true → Raises i s 0x09 (c.pc.extractLsb' 0 64)) ∧
      (full = false → s.fetchLoc s.sel.1 s.sel.2 last = (.ok l, u) →
        (kind ≠ .start → exec i s = .next (u.raise 0x05 (last.extractLsb' 0 64))) ∧
        (kind = .start → x ≠ 0 → exec i s =
          .next (u.modHere fun c => if c.loop0.active then { c with loop1 := lv } else { c with loop0 := lv }).finish) ∧
        (kind = .start → x = 0 → exec i s = .next (u.modHere fun c => { c.complete none with pc := after })))
    does (.loopi g (.lit x) n) ∧
    (∀ m : BitVec 4, x = m.setWidth 32 → does (.loopi g (.fld m) n)) ∧
    ((c.sreg k).pois = false → x = (c.sreg k).val.extractLsb' 0 32 → does (.loop g k n)) ∧
    ((c.sreg k).pois = true → Raises (.loop g k n) s 0x12 (BitVec.ofNat 64 k.toNat))

/-- R111, R46: where the end of a bundle takes the pc and what it does to the loop levels; nothing of other contexts or of
memory changes. -/
def Obligations.BundleEndMovesThePc : Prop :=
  ∀ (s : State) (b : Bundle) (target : W72), s.here.cur = some b → s.here.vres = .none →
    let c := s.here
    let sequel := c.pc.extractLsb' 64 8 ++ (c.pc.extractLsb' 0 64 + BitVec.ofNat 64 (4 * b.len))
    let at0 := c.loop0.active && decide (c.pc = c.loop0.last)
    let at1 := c.loop1.active && decide (c.pc = c.loop1.last)
    let n0 := c.loop0.count - 1
    let n1 := c.loop1.count - 1
    let ends (pc : W72) (l0 l1 : Loop) (jumped : Bool) : Ctx :=
      { c with pc := pc, loop0 := l0, loop1 := l1, via := if jumped then some (c.pc.extractLsb' 0 64) else none,
               landed := jumped, st := c.running, wait := .none, cur := none, paid := false, stage := .fresh,
               vres := .none, places := [], replay := none }
    let goes (l0 l1 : Loop) : Loop × Loop :=
      let leaves (l : Loop) : Bool := l.active && (target.toNat < l.start.toNat || l.last.toNat < target.toNat)
      (if leaves l0 then { l0 with active := false } else l0,
       if leaves l0 || leaves l1 then { l1 with active := false } else l1)
    (s.finish = s.modHere fun _ => s.finish.here) ∧
    (s.finishTo target = s.modHere fun _ => ends target (goes c.loop0 c.loop1).1 (goes c.loop0 c.loop1).2 true) ∧
    (at0 = false → at1 = false → s.finish.here = ends sequel c.loop0 c.loop1 false) ∧
    (at1 = true → n1 ≠ 0 → s.finish.here = ends c.loop1.start c.loop0 { c.loop1 with count := n1 } true) ∧
    (at1 = false → at0 = true → n0 ≠ 0 →
      s.finish.here = ends c.loop0.start { c.loop0 with count := n0 } c.loop1 true) ∧
    (at1 = true → n1 = 0 → at0 = true → n0 ≠ 0 → s.finish.here =
      ends c.loop0.start { c.loop0 with count := n0 } { c.loop1 with count := 0, active := false } true) ∧
    (at1 = true → n1 = 0 → at0 = false →
      s.finish.here = ends sequel c.loop0 { c.loop1 with count := 0, active := false } false) ∧
    (at0 = true → n0 = 0 → (at1 = true → n1 = 0) → s.finish.here =
      ends sequel { c.loop0 with count := 0, active := false }
        (if at1 then { c.loop1 with count := 0, active := false } else c.loop1) false)

/-- R73, R86, R132, R133: at the end of the bundle the result of the V operation is written: its registers and no others,
its flags added to `fflags`, two turns forfeited when the normaliser was asked for. -/
def Obligations.BundleEndWritesVResult : Prop :=
  ∀ (s : State) (e : VEff), s.here.vres = .eff e →
    let c := s.here
    let t := s.finish.here
    t.fflags = c.fflags ||| e.flags ∧
    t.forfeit = (if e.normalise then 2 else c.forfeit) ∧
    (∀ d x q, e.v = [(d, x, q)] → t.vreg d = ⟨if q then 0 else x, (c.vreg d).full, q⟩ ∧
      ∀ r, r ≠ d → t.vreg r = c.vreg r) ∧
    (∀ d x q d' x' q', e.v = [(d, x, q), (d', x', q')] → d ≠ d' →
      t.vreg d = ⟨if q then 0 else x, (c.vreg d).full, q⟩ ∧ t.vreg d' = ⟨if q' then 0 else x', (c.vreg d').full, q'⟩ ∧
      ∀ r, r ≠ d → r ≠ d' → t.vreg r = c.vreg r) ∧
    (e.v = [] → t.v = c.v) ∧
    (∀ d x q, e.s = some (d, x, q) → t.sreg d = ⟨if q then 0 else x, (c.sreg d).full, q⟩ ∧
      ∀ r, r ≠ d → t.sreg r = c.sreg r) ∧
    (e.s = none → t.s = c.s) ∧
    (∀ d x q, e.m = some (d, x, q) → d ≠ 0 → t.mreg d = ⟨if q then 0 else x, q⟩ ∧ ∀ r, r ≠ d → t.mreg r = c.mreg r) ∧
    (e.m = none → t.m = c.m) ∧ t.p = c.p

/-- R200, R207, R280: delivery. A synchronous cause in privileged mode stops the thread; a delegated cause goes to the user
handler when it is enabled and no handler runs; any other goes to the system handler. The registers, predicates, masks and
records are unchanged, and so is every other context. -/
def Obligations.TrapDelivery : Prop :=
  ∀ (s : State) (core cx : Nat) (async : Bool) (code : Byte) (val : W64) (p : W72) (word : W64), cx < 8 →
    let c := s.ctx core cx
    let t := s.deliver core cx async code val p word
    let d := t.ctx core cx
    let tag : Byte := (if async then 0x80 else 0) + code
    let off (l : Loop) : Loop := { l with active := false }
    let sp := c.pc.extractLsb' 64 8
    let at4 (x : W64) : W72 := sp ++ (x.extractLsb' 2 62 ++ (0 : BitVec 2))
    let user := c.delegates code = true ∧ c.thand.getLsbD 0 = true ∧ c.uht = false ∧ c.priv = false
    (d.s = c.s ∧ d.v = c.v ∧ d.p = c.p ∧ d.m = c.m ∧ d.recs = c.recs ∧ d.fmode = c.fmode ∧ d.fflags = c.fflags ∧
      d.tsave = c.tsave ∧ d.ssave = c.ssave ∧ d.gang = none) ∧
    (∀ n x, x < 8 → (n, x) ≠ (core, cx) → t.ctx n x = s.ctx n x) ∧
    (c.priv = true → async = false →
      d.st = .parked ∧ d.wait = .stop ∧ d.sstatus = c.sstatus ∧ d.scause = c.scause ∧ d.spc = c.spc) ∧
    (¬(c.priv = true ∧ async = false) → t.mem = s.mem ∧ d.st = .ready ∧ d.landed = true ∧
      d.loop0 = off c.loop0 ∧ d.loop1 = off c.loop1) ∧
    (user → d.tcause = tag ∧ d.tval = val ∧ d.tpc = p.extractLsb' 0 64 ∧ d.tword = word ∧
      d.userLoops = (c.loop0, c.loop1) ∧ d.pc = at4 c.thand ∧ d.uht = true ∧ d.priv = false ∧
      d.scause = c.scause ∧ d.spc = c.spc) ∧
    (¬user → ¬(c.priv = true ∧ async = false) → d.scause = tag ∧ d.sval = val ∧ d.spc = p.extractLsb' 0 64 ∧
      d.sword = word ∧ d.systemLoops = (c.loop0, c.loop1) ∧ d.pc = at4 c.shand ∧
      d.sstatus = c.sstatus.extractLsb' 1 1 ++ c.sstatus.extractLsb' 0 1 ++ (0 : BitVec 1) ++ (1 : BitVec 1) ∧
      d.tcause = c.tcause ∧ d.tpc = c.tpc)

/-- R129, R204, R205, R61, R111: `nop` lets its bundle complete; `brk` and `trap` raise 0x0A and 0x0B; the cause that the V
operation has in hand is taken where the S operation would complete; a raised cause is delivered at the bundle's own
address. `eret` leaves the handler that runs: control goes to the recorded address under the current space byte, the saved
loop levels come back, less those that the target leaves, and the status is the one before the trap; with no handler running
it traps with 0x06, before a cause of the V operation too, which is the model's reading (log 8). -/
def Obligations.MiscForms : Prop :=
  ∀ (s : State) (g : BitVec 4) (i : BitVec 8) (b : Bundle) (code : Byte) (val : W64),
    s.here.guard g = ⟨true, false⟩ → s.lead = none → s.here.cur = some b →
    let c := s.here
    let at4 (x : W64) : W72 := c.pc.extractLsb' 64 8 ++ (x.extractLsb' 2 62 ++ (0 : BitVec 2))
    let back (p : W72) (l : Loop × Loop) (st : BitVec 4) : Ctx :=
      let leaves (l : Loop) : Bool := l.active && (p.toNat < l.start.toNat || l.last.toNat < p.toNat)
      { c with pc := p, sstatus := st, loop0 := if leaves l.1 then { l.1 with active := false } else l.1,
               loop1 := if leaves l.1 || leaves l.2 then { l.2 with active := false } else l.2,
               via := some (c.pc.extractLsb' 0 64), landed := true, st := .ready, wait := .none, cur := none, paid := false,
               stage := .fresh, places := [], replay := none }
    let sys := c.sstatus.extractLsb' 2 2 ++ c.sstatus.extractLsb' 3 1 ++ c.sstatus.extractLsb' 2 1
    ((∀ c v, s.here.vres ≠ .trap c v) → exec (.nop g) s = .next s.finish) ∧
    (s.here.vres = .trap code val → Raises (.nop g) s code val) ∧
    Raises (.brk g) s 0x0A 0 ∧ Raises (.trap g i) s 0x0B (i.setWidth 64) ∧
    s.raise code val = s.deliver s.sel.1 s.sel.2 false code val s.here.pc (b.sw.setWidth 64) ∧
    (c.sstatus.getLsbD 0 = true → c.vres = .none →
      exec (.eret g) s = .next (s.modHere fun _ => back (at4 c.spc) c.systemLoops sys)) ∧
    (c.sstatus.getLsbD 0 = false → c.sstatus.getLsbD 1 = true → c.vres = .none →
      exec (.eret g) s = .next (s.modHere fun _ => back (at4 c.tpc) c.userLoops (c.sstatus &&& 0xD))) ∧
    (c.sstatus.getLsbD 0 = false → c.sstatus.getLsbD 1 = false → Raises (.eret g) s 0x06 (b.sw.setWidth 64))

/-! ### V operations -/

/-- R140, R141, R80: integer lanes and the sign forms compute bits in the active lanes; nothing is raised. -/
def Obligations.VectorIntegerLanes : Prop :=
  ∀ (s : State) (g d a b : BitVec 4) (y z : VSrc), MaskOk s g d → poisV s a = false → poisV s b = false →
    (s.here.vsrc y).pois = false → (s.here.vsrc z).pois = false →
    let two (f : W32 → W32 → W32) : Nat → W32 := fun k => f (regLane s a k) (srcLane s y k)
    let one (f : W32 → W32) : Nat → W32 := fun k => f (srcLane s y k)
    let sat (x : Int) : Int := if x < -128 then -128 else if 127 < x then 127 else x
    MovesLanes (.vaddI32 g d a y) s g d (two fun u v => u + v) ∧
    MovesLanes (.vsubI32 g d a y) s g d (two fun u v => u - v) ∧
    MovesLanes (.vmulI32 g d a y) s g d (two fun u v => u * v) ∧
    MovesLanes (.vmulh g d a y false) s g d
      (two fun u v => (u.signExtend 64 * v.signExtend 64).extractLsb' 32 32) ∧
    MovesLanes (.vmulh g d a y true) s g d (two fun u v => (u.zeroExtend 64 * v.zeroExtend 64).extractLsb' 32 32) ∧
    MovesLanes (.vandI32 g d a y) s g d (two fun u v => u &&& v) ∧
    MovesLanes (.vorI32 g d a y) s g d (two fun u v => u ||| v) ∧
    MovesLanes (.vxorI32 g d a y) s g d (two fun u v => u ^^^ v) ∧
    MovesLanes (.vshlI32 g d a y) s g d (two fun u v => u <<< (v.extractLsb' 0 5).toNat) ∧
    MovesLanes (.vshrI32 g d a y) s g d (two fun u v => u >>> (v.extractLsb' 0 5).toNat) ∧
    MovesLanes (.vsraI32 g d a y) s g d (two fun u v => u.sshiftRight (v.extractLsb' 0 5).toNat) ∧
    MovesLanes (.vminI32 g d a y) s g d (two fun u v => if u.slt v then u else v) ∧
    MovesLanes (.vmaxI32 g d a y) s g d (two fun u v => if u.slt v then v else u) ∧
    MovesLanes (.vminN32 g d a y) s g d (two fun u v => if u.ult v then u else v) ∧
    MovesLanes (.vmaxN32 g d a y) s g d (two fun u v => if u.ult v then v else u) ∧
    MovesLanes (.vclzI32 g d y) s g d (one fun u => u.clz) ∧
    MovesLanes (.vpcntI32 g d y) s g d (one fun u => u.cpop) ∧
    MovesLanes (.vadd8 g d a y) s g d (two fun u v => bytes4 fun q => byteAt u q + byteAt v q) ∧
    MovesLanes (.vadds8 g d a y) s g d
      (two fun u v => bytes4 fun q => BitVec.ofInt 8 (sat ((byteAt u q).toInt + (byteAt v q).toInt))) ∧
    MovesLanes (.vdot4 g d a b z) s g d (fun k =>
      let p (q : Nat) : W32 := (byteAt (regLane s a k) q).signExtend 32 * (byteAt (regLane s b k) q).signExtend 32
      srcLane s z k + p 0 + p 1 + p 2 + p 3) ∧
    MovesLanes (.vcvtI32I8 g d y) s g d (one fun u => (byteAt u 0).signExtend 32) ∧
    MovesLanes (.vcvtI8I32 g d y) s g d (one fun u => BitVec.ofInt 32 (sat u.toInt)) ∧
    MovesLanes (.vabs g d y) s g d (one fun u => (0 : BitVec 1) ++ u.extractLsb' 0 31) ∧
    MovesLanes (.vneg g d y) s g d (one fun u => (~~~(u.extractLsb' 31 1)) ++ u.extractLsb' 0 31) ∧
    MovesLanes (.vcopysign g d a y) s g d (two fun u v => v.extractLsb' 31 1 ++ u.extractLsb' 0 31)

/-- R143, R147, R148, R155: forms that move whole lanes, as bits. -/
def Obligations.VectorMovesAndPermutes : Prop :=
  ∀ (s : State) (g d a b n : BitVec 4) (m : BitVec 3) (y : VSrc), MaskOk s g d → poisV s a = false →
    poisV s b = false → (s.here.vsrc y).pois = false →
    let act (k : Nat) : Bool := (s.here.maskGuard g).val.getLsbD k
    let mag (k : Nat) : Nat := (regLane s a k).toNat % 2 ^ 31
    let before (k : Nat) : Nat := ((List.range 16).filter fun j =>
      act j && (decide (mag k < mag j) || (decide (mag j = mag k) && decide (j < k)))).length
    ((s.here.mreg m).pois = false → MovesLanes (.vsel g d a y m) s g d fun k =>
      if (s.here.mreg m).val.getLsbD k then regLane s a k else srcLane s y k) ∧
    MovesLanes (.vperm g d a y) s g d (fun k => regLane s a ((srcLane s y k).extractLsb' 0 4).toNat) ∧
    MovesLanes (.vrotl g d y n) s g d (fun k => srcLane s y ((k + n.toNat) % 16)) ∧
    MovesLanes (.vbcastl g d y n) s g d (fun _ => srcLane s y n.toNat) ∧
    MovesLanes (.vmov g d y) s g d (srcLane s y) ∧
    (poisS s n = false → MovesLanes (.vbcast g d n) s g d fun _ => (s.here.sreg n).val.extractLsb' 0 32) ∧
    MovesLanes (.vlane g d) s g d (BitVec.ofNat 32) ∧
    MovesLanes (.vtopk g d a b n) s g d (fun k => if before k ≤ n.toNat then regLane s a k else regLane s b k)

/-- R148, R130, R133: `vext` writes the sign-extended lane and `vins` replaces one lane, each only when the lane is active, and a
poisoned source poisons what an active lane writes; `vmovi` fills all lanes and `vnop` does nothing. That an inactive lane
writes nothing where a source is poisoned is the model's reading (log 73). -/
def Obligations.LaneExtractInsertAndImmediate : Prop :=
  ∀ (s : State) (g d a n : BitVec 4) (i : BitVec 20), (s.here.maskGuard g).pois = false →
    let act := (s.here.maskGuard g).val.getLsbD n.toNat
    (act = true → Holds (.vext g d a n) s
      { s := some (d, if poisV s a then 0 else sx72 ((regLane s a n.toNat).signExtend 64), poisV s a) }) ∧
    (act = false → Holds (.vext g d a n) s {} ∧ Holds (.vins g d a n) s {}) ∧
    (act = true → poisS s a = true ∨ poisV s d = true → Holds (.vins g d a n) s { v := [(d, 0, true)] }) ∧
    (act = true → poisS s a = false → poisV s d = false → ∃ x, Holds (.vins g d a n) s { v := [(d, x, false)] } ∧
      ∀ k, k < 16 → lane x k = if k = n.toNat then (s.here.sreg a).val.extractLsb' 0 32 else regLane s d k) ∧
    (∃ x, Holds (.vmovi d i) s { v := [(d, x, false)] } ∧ ∀ k, k < 16 → lane x k = i ++ (0 : BitVec 12)) ∧
    Holds .vnop s {}

/-- R137-R139, R145, R146, R156, R157, R76, R130: each floating-point form puts its lanes and their flags in hand, while no
arithmetic trap is enabled. -/
def Obligations.VectorFloatLanes : Prop :=
  ∀ (s : State) (g d a b : BitVec 4) (y : VSrc) (t : Bool) (n : BitVec 8) (i : BitVec 20),
    MaskOk s g d → NoFpTrap s → poisV s a = false → poisV s b = false → (s.here.vsrc y).pois = false →
    FloatForms s g d a b y t n i fun op f => WritesOut op s g d f

/-- R76, R133, R149, R152, R154, R186: what V operations trap with. An enabled flag that an active lane raises traps with the
lowest cause among the enabled flags raised and the lanes that raised it: of every lane form, of FP32 compares, of reductions,
which name the active lanes, and of the block forms that raise flags. A poisoned mask as a guard traps with 0x12, file 3 and its
number, whatever the form; a form that reads the constant bank away from its origin core traps with 0x26. -/
def Obligations.VectorTraps : Prop :=
  ∀ (s : State) (g d a b : BitVec 4) (m : BitVec 3) (y : VSrc) (t : Bool) (c : VCond) (n : BitVec 8) (i : BitVec 20) (j : Nat),
    let md := s.here.mode
    let act (k : Nat) : Bool := (s.here.maskGuard g).val.getLsbD k
    let on (j : Nat) : Bool := s.here.fmode.getLsbD (4 + j)
    let u (k : Nat) : Nat := (regLane s a k).toNat
    let w (k : Nat) : Nat := (srcLane s y k).toNat
    let nan (x : Nat) : Bool := decide (2 ^ 23 * 255 < x % 2 ^ 31)
    let first (l : List FRes) (j : Nat) : Prop :=
      let raised (q : Nat) : Prop := on q = true ∧ ∃ r ∈ l, r.flags.getLsbD q = true
      j < 5 ∧ raised j ∧ ∀ q, q < j → ¬raised q
    let cause (j : Nat) : Byte := BitVec.ofNat 8 (0x14 + j)
    let reduces (op : Instr) (f : Nat → Nat → FRes) : Prop :=
      first (treeWork act u f) j → HoldsTrap op s (cause j) ((s.here.maskGuard g).val.setWidth 64)
    let block : Block := regLane s a
    let h := block 0
    let z := ((s.here.sreg b).val.extractLsb' 0 8).toInt
    let above (e : Byte) : Bool := decide (e ≠ 255 ∧ 254 < e.toNat + z)
    let below (e : Byte) : Bool := decide (e ≠ 255 ∧ e.toNat + z < 0)
    let up := above (h.extractLsb' 24 8) || above (h.extractLsb' 16 8)
    let down := below (h.extractLsb' 24 8) || below (h.extractLsb' 16 8)
    (MaskOk s g d → poisV s a = false → poisV s b = false → (s.here.vsrc y).pois = false →
      FloatForms s g d a b y t n i fun op f => TrapsOut op s g f) ∧
    ((s.here.maskGuard g).pois = false → poisV s a = false → (s.here.vsrc y).pois = false →
      TrapsOut (.vcmp g m a y .f32 c) s g fun k =>
        ⟨0, if fp32.isSig (u k) || fp32.isSig (w k) ||
            ((nan (u k) || nan (w k)) && decide (c ≠ .eq ∧ c ≠ .ne ∧ c ≠ .unord)) then 1 else 0, false⟩) ∧
    ((s.here.maskGuard g).pois = false → poisV s a = false →
      reduces (.vredaddF32 g d a) (fp32.add md) ∧ reduces (.vredminF32 g d a) (fp32.minMax md false) ∧
      reduces (.vredmaxF32 g d a) (fp32.minMax md true)) ∧
    (poisV s a = false → on 0 = true → badHeader h = true ∨ 13 < blockM block ∨ blockM block < b.toNat + 1 →
      HoldsTrap (.vbfunp d a b) s 0x14 0xFFFF) ∧
    (poisV s a = false → poisS s b = false →
      (badHeader h = true → on 0 = true → HoldsTrap (.vbfscale d a b) s 0x14 1) ∧
      (badHeader h = false →
        (up = true → on 2 = true → HoldsTrap (.vbfscale d a b) s 0x16 1) ∧
        (down = true → on 3 = true → (up = false ∨ on 2 = false) → HoldsTrap (.vbfscale d a b) s 0x17 1) ∧
        (up = true ∨ down = true → on 4 = true → (up = false ∨ on 2 = false) → (down = false ∨ on 3 = false) →
          HoldsTrap (.vbfscale d a b) s 0x18 1))) ∧
    (∀ i : Instr, isVOp i = true → (s.here.maskGuard (maskOfV i)).pois = true →
      (awayAt s.sel.1 s.here = false ∨ ∀ g d a n, i ≠ .vfmak g d a n ∧ i ≠ .vaddk g d a n ∧ i ≠ .vmulk g d a n) →
      HoldsTrap i s 0x12 (BitVec.ofNat 64 (48 + ((maskOfV i).extractLsb' 0 3).toNat))) ∧
    (∀ (i : Instr) (word lit : W32), encodeV i = some (word, lit) → maskOfV i ≠ 0 → maskOfV i = word.extractLsb' 1 4) ∧
    (awayAt s.sel.1 s.here = true →
      HoldsTrap (.vaddk g d a n) s 0x26 (BitVec.ofNat 64 (4 * n.toNat)) ∧
      HoldsTrap (.vmulk g d a n) s 0x26 (BitVec.ofNat 64 (4 * n.toNat)) ∧
      HoldsTrap (.vfmak g d a n) s 0x26 (BitVec.ofNat 64 (4 * n.toNat)))

/-- R133: a V form with a poisoned source writes its whole destination poisoned, and raises nothing; VK forms are taken where
the bank may be read. -/
def Obligations.PoisonedSourcePoisonsVResult : Prop :=
  ∀ (s : State) (i : Instr), isVOp i = true → (∀ m, (s.here.mreg m).pois = false) → awayAt s.sel.1 s.here = false →
    (∀ g d a n, i ≠ .vext g d a n ∧ i ≠ .vins g d a n) →
    (∃ r, (r ∈ (vRegs i).rv ∧ poisV s r = true) ∨ (r ∈ (vRegs i).rs ∧ poisS s r = true)) →
    Holds i s { v := (vRegs i).wv.map fun d => (d, 0, true), s := (vRegs i).ws.head?.map fun d => (d, 0, true),
                m := (maskDest i).map fun d => (d, 0, true) }

/-- R142, R144, R130: compares, mask logic and `mset` write the bits of active lanes and clear the others; `mcnt` counts the
active lanes set. -/
def Obligations.ComparesAndMasks : Prop :=
  ∀ (s : State) (g d a : BitVec 4) (m p q : BitVec 3) (y : VSrc), (s.here.maskGuard g).pois = false → NoFpTrap s →
    poisV s a = false → (s.here.vsrc y).pois = false →
    let act (k : Nat) : Bool := (s.here.maskGuard g).val.getLsbD k
    let u (k : Nat) : W32 := regLane s a k
    let w (k : Nat) : W32 := srcLane s y k
    let ints (c : VCond) (lt : W32 → W32 → Bool) (k : Nat) : Bool := match c with
      | .eq => decide (u k = w k)
      | .ne => decide (u k ≠ w k)
      | .lt => lt (u k) (w k)
      | .ge => !lt (u k) (w k)
      | .le => !lt (w k) (u k)
      | .gt => lt (w k) (u k)
      | .unord => false
    let nan (x : W32) : Bool := decide (2 ^ 23 * 255 < x.toNat % 2 ^ 31)
    let num (x : W32) : Int := if s.here.mode.daz && decide (x.toNat % 2 ^ 31 < 2 ^ 23) then 0 else val32 x.toNat
    let infv (x : W32) : Int := if x.toNat % 2 ^ 31 = 2 ^ 23 * 255 then (if 2 ^ 31 ≤ x.toNat then -2 ^ 400 else 2 ^ 400) else num x
    let flt (c : VCond) (k : Nat) : Bool :=
      if nan (u k) || nan (w k) then decide (c = .ne) || decide (c = .unord)
      else match c with
        | .eq => decide (infv (u k) = infv (w k))
        | .ne => decide (infv (u k) ≠ infv (w k))
        | .lt => decide (infv (u k) < infv (w k))
        | .ge => decide (infv (w k) ≤ infv (u k))
        | .le => decide (infv (u k) ≤ infv (w k))
        | .gt => decide (infv (w k) < infv (u k))
        | .unord => false
    let A := s.here.mreg p
    let B := s.here.mreg q
    (∀ c, c ≠ .unord → WritesMask (.vcmp g m a y .i32 c) s g m false (ints c fun x z => x.slt z)) ∧
    (∀ c, c ≠ .unord → WritesMask (.vcmp g m a y .n32 c) s g m false (ints c fun x z => x.ult z)) ∧
    (∀ c, ∃ x e, Holds (.vcmp g m a y .f32 c) s e ∧ e.m = some (m, x, false) ∧ e.v = [] ∧ e.s = none ∧
      (∀ k, k < 16 → x.getLsbD k = (act k && flt c k)) ∧
      (e.flags = 1 ∨ e.flags = 0) ∧
      (e.flags = 1 ↔ ∃ k, k < 16 ∧ act k = true ∧
        (fp32.isSig (u k).toNat = true ∨ fp32.isSig (w k).toNat = true ∨
          ((nan (u k) || nan (w k)) = true ∧ c ≠ .eq ∧ c ≠ .ne ∧ c ≠ .unord)))) ∧
    WritesMask (.mlog g m p q .and) s g m (A.pois || B.pois) (fun k => A.val.getLsbD k && B.val.getLsbD k) ∧
    WritesMask (.mlog g m p q .or) s g m (A.pois || B.pois) (fun k => A.val.getLsbD k || B.val.getLsbD k) ∧
    WritesMask (.mlog g m p q .xor) s g m (A.pois || B.pois) (fun k => A.val.getLsbD k ^^ B.val.getLsbD k) ∧
    WritesMask (.mlog g m p q .not) s g m A.pois (fun k => !A.val.getLsbD k) ∧
    WritesMask (.mset g m a) s g m (poisS s a) (fun k => (s.here.sreg a).val.getLsbD k) ∧
    Holds (.mcnt g d p) s { s := some (d, if A.pois then 0 else
      BitVec.ofNat 72 ((List.range 16).filter fun k => A.val.getLsbD k && act k).length, A.pois) }

/-- R87, R149, R133, R86: a reduction completes under every mask that is not poisoned. Its result is that of the fixed pairwise
tree over the sixteen lanes, in which a node with one absent operand passes the other unchanged, and zero where every lane is
absent; an integer sum is that of the active lanes; a poisoned source poisons sD. The flags of the floating-point forms are those
that the working nodes raise, and the normaliser is asked for where a working node asks, or where the one active lane holds a
subnormal, which is the model's reading (log 72). -/
def Obligations.ReductionsFollowTheTree : Prop :=
  ∀ (s : State) (g d a : BitVec 4), (s.here.maskGuard g).pois = false →
    let act (k : Nat) : Bool := (s.here.maskGuard g).val.getLsbD k
    let x (k : Nat) : W32 := regLane s a k
    let u (k : Nat) : Nat := (x k).toNat
    let holding (e : VEff) : State := s.modHere fun c => { c with vres := .eff e }
    let md := s.here.mode
    let completes (i : Instr) (f : Nat → Nat → FRes) : Prop :=
      let work := treeWork act u f
      let root := (treeAt act u f 4 0).getD 0
      (poisV s a = false → NoFpTrap s → ∃ e : VEff, exec i s = .next (holding e) ∧
        e.s = some (d, BitVec.ofNat 72 root, false) ∧ e.v = [] ∧ e.m = none ∧
        (∀ j, e.flags.getLsbD j = true ↔ ∃ r ∈ work, r.flags.getLsbD j = true) ∧
        (e.normalise = true ↔ (∃ r ∈ work, r.norm = true) ∨ ((List.range 16).countP act = 1 ∧ fp32.isSub root = true))) ∧
      (poisV s a = true → exec i s = .next (holding { s := some (d, 0, true) }))
    completes (.vredaddF32 g d a) (fp32.add md) ∧
    completes (.vredminF32 g d a) (fp32.minMax md false) ∧
    completes (.vredmaxF32 g d a) (fp32.minMax md true) ∧
    (poisV s a = false → exec (.vredaddI32 g d a) s = .next (holding
      { s := some (d, sx72 ((((List.range 16).filter act).map x).foldl (fun u v => u + v) 0 |>.signExtend 64), false) })) ∧
    (poisV s a = true → exec (.vredaddI32 g d a) s = .next (holding { s := some (d, 0, true) }))

/-- R70, R75, R78, R82: sums, differences, products and fused forms of finite words are, where they are finite, the exact value
rounded once: no word is nearer in the direction of the mode. Which of two equally near words, the results that overflow and the
sign of a zero are not stated here. -/
def Obligations.FloatResultsRoundedOnce : Prop :=
  ∀ (rm : Rm) (x y z : Nat), finite32 x → finite32 y → finite32 z →
    let md : FMode := ⟨rm, false, false⟩
    let sum := (fp32.add md x y).bits
    let dif := (fp32.sub md x y).bits
    let prod := (fp32.mul md x y).bits
    let fused := (fp32.fma md false false x y z).bits
    (finite32 sum → RoundsTo rm sum (val32 x + val32 y) 0) ∧
    (finite32 dif → RoundsTo rm dif (val32 x - val32 y) 0) ∧
    (finite32 prod → RoundsTo rm prod (val32 x * val32 y) 149) ∧
    (finite32 fused → RoundsTo rm fused (val32 x * val32 y + val32 z * 2 ^ 149) 149)

/-- R88-R90, R150-R154: block forms. `vbfpk` writes the header and the planes of PackBlock and zeros above them, `vbfhdr` its
header; `vbfunp` reads each element at the declared precision, or gives NaN and raises invalid on a bad header or precision;
`vbfscale` moves both scales, within 0 and 254, and copies the rest. -/
def Obligations.BlockFloatingPointForms : Prop :=
  ∀ (s : State) (d a b m : BitVec 4), NoFpTrap s → poisV s a = false → poisV s (a + 1) = false → poisS s b = false →
    let vals := blockInputs s.here.mode.daz (s.here.vreg a).val (s.here.vreg (a + 1)).val
    let words := packBlock (m.toNat + 1) s.here.delta.toNat vals
    let block : Block := regLane s a
    let bad := badHeader (block 0) || decide (13 < blockM block) || decide (blockM block < m.toNat + 1)
    let h := block 0
    let t := ((s.here.sreg b).val.extractLsb' 0 8).toInt
    let moved (e : Byte) : Byte := if e = 255 then e else
      if 254 < e.toNat + t then 254 else if e.toNat + t < 0 then 0 else BitVec.ofInt 8 (e.toNat + t)
    let above (e : Byte) : Bool := decide (e ≠ 255 ∧ 254 < e.toNat + t)
    let below (e : Byte) : Bool := decide (e ≠ 255 ∧ e.toNat + t < 0)
    let e1 := h.extractLsb' 24 8
    let e0 := h.extractLsb' 16 8
    (m.toNat ≤ 12 → ∃ x, Holds (.vbfpk d a m) s { v := [(d, x, false)] } ∧ words.length = m.toNat + 4 ∧
      ∀ k, k < 16 → lane x k = words.getD k 0) ∧
    Holds (.vbfhdr d a m) s { s := some (d, sx72 ((words.getD 0 0).setWidth 64), false) } ∧
    (bad = true → ∃ x y, Holds (.vbfunp d a m) s { v := [(d, x, false), (d + 1, y, false)], flags := 1 } ∧
      ∀ k, k < 16 → lane x k = 0x7FC00000 ∧ lane y k = 0x7FC00000) ∧
    (bad = false → ∃ x y, Holds (.vbfunp d a m) s { v := [(d, x, false), (d + 1, y, false)] } ∧
      ∀ k, k < 16 → lane x k = elemFp32 (blockVal block (m.toNat + 1) k) ∧
        lane y k = elemFp32 (blockVal block (m.toNat + 1) (k + 16))) ∧
    (∃ x f, Holds (.vbfscale d a b) s { v := [(d, x, false)], flags := f } ∧
      (∀ k, 0 < k → k < 16 → lane x k = block k) ∧
      (badHeader h = true → lane x 0 = h ∧ f = 1) ∧
      (badHeader h = false → lane x 0 = moved e1 ++ moved e0 ++ h.extractLsb' 0 16 ∧
        f = (if above e1 || above e0 then 4 else 0) ||| (if below e1 || below e0 then 8 else 0) |||
          (if above e1 || above e0 || below e1 || below e0 then 16 else 0)))

/-! ### Memory -/

/-- R104, R115-R119, R121: a load whose address reaches its place leaves a pending record, its register empty, and goes on; an
acquiring one waits for its value, acquires and completes. Nothing is stored. -/
def Obligations.LoadsIssue : Prop :=
  ∀ (s u : State) (g d a i : BitVec 4) (o : Imm 6) (wd : Width) (z : Bool) (e : Elem) (h : BitVec 2) (r : Ord) (sc : Scope)
    (l : Loc) (ls : List Loc), Takes s g → s.here.stage = .fresh → poisS s a = false → MayGo u r sc →
    let base := (s.here.sreg a).val
    let rec1 (isV : Bool) (op : RecOp) (ls : List Loc) (r : Ord) (sc : Scope) : Rec :=
      { seq := u.seq, isV := isV, reg := d, op := op, locs := ls, ord := r, scope := sc, got := fixed u op ls }
    let laneAt (k : Nat) : W72 := base.extractLsb' 64 8 ++
      (base.extractLsb' 0 64 + ((regLane s i k).signExtend 64 <<< h.toNat))
    (Reaches s [smAddr base o (widthBytes wd)] (widthBytes wd) .load [l] u →
      exec (.ld g d a o wd r sc) s = .next (goesOn r u.seq (recorded u false d (rec1 false (.ld wd true) [l] r sc))) ∧
      exec (.ldz g d a o wd r sc) s = .next (goesOn r u.seq (recorded u false d (rec1 false (.ld wd false) [l] r sc)))) ∧
    (Reaches s [smAddr base o 64] 64 .load [l] u →
      exec (.ldv g d a o r sc) s = .next (goesOn r u.seq (recorded u true d (rec1 true .vec [l] r sc)))) ∧
    (poisV s i = false → Reaches s ((List.range 16).map laneAt) (elemBytes e) .load ls u →
      exec (.gath g d a i e h r sc) s = .next (goesOn r u.seq (recorded u true d (rec1 true (.gath e) ls r sc)))) ∧
    (Reaches s [smAddr base o 64] 64 .samp [l] u → ∃ t : State, exec (.ldsamp g d a o) s = .next t.finish ∧ t.mem = u.mem ∧
      (t.here.vreg d).full = false ∧ t.flights = u.flights ∧
      (∃ x : Rec, x ∈ t.here.recs ∧ x.seq = u.seq ∧ x.isV = true ∧ x.reg = d ∧ x.op = .samp ∧ x.locs = [l] ∧
        x.got = ((u.comb (combOf u.sel.1)).samp.find? fun y => y.line == l.key / 64).map fun y => (y.data, y.pois)) ∧
      let fills := (u.comb (combOf u.sel.1)).sampWait
      ((u.comb (combOf u.sel.1)).samp.find? fun y => y.line == l.key / 64) = none →
        (t.comb (combOf u.sel.1)).sampWait = if fills.any fun w => w.loc.key == l.key && w.upto == none then fills
          else fills ++ [{ loc := l, core := u.sel.1, cx := u.sel.2, seq := u.seq }]) ∧
    (∀ n, let t := s.modHere fun c => { c with stage := .acted n }
      exec (.ld g d a o wd r sc) t = .next (acquired sc t).finish ∧ exec (.ldz g d a o wd r sc) t = .next (acquired sc t).finish ∧
      exec (.ldv g d a o r sc) t = .next (acquired sc t).finish ∧ exec (.gath g d a i e h r sc) t = .next (acquired sc t).finish)

/-- R116, R164, R115, R123, R191: a fill writes the oldest record's value into its register, which is full unless another record
names it, drops the record and changes nothing else of the context; an atomic writes its word as it reads it, `cas` when the
word is equal; a bit field is taken from its words. An atomic may be accepted before it is performed (R120). -/
def Obligations.FillsWriteTheirRegister : Prop :=
  ∀ (s : State) (core cx : Nat) (isV : Bool) (reg : BitVec 4) (r : Rec) (l : Loc), cx < 8 →
    s.event = .fill core cx isV reg →
    ((s.ctx core cx).recs.filter fun k => k.isV == isV && k.reg == reg).head? = some r →
    let n := r.op.bytes
    let byte : W64 := BitVec.ofNat 64 (s.mem.read l.key n)
    let fills (raw : W512) (p : Bool) (t : State) : Prop :=
      let c := s.ctx core cx
      let d := t.ctx core cx
      let recs := c.recs.filter fun k => k.seq != r.seq
      let more := recs.any fun k => k.isV == isV && k.reg == reg
      d.recs = recs ∧ d.pc = c.pc ∧ d.st = c.st ∧
      (isV = true → d.vreg reg = ⟨if p then 0 else raw, !more || (c.vreg reg).full, p⟩ ∧ d.s = c.s ∧
        ∀ k, k ≠ reg → d.vreg k = c.vreg k) ∧
      (isV = false → d.v = c.v ∧ (∀ k, k ≠ reg → d.sreg k = c.sreg k) ∧ ∃ x,
        d.sreg reg = ⟨if p then 0 else x, !more || (c.sreg reg).full, p⟩ ∧ match r.op with
          | .ld .b true => x = sx72 ((raw.extractLsb' 0 8).signExtend 64)
          | .ld .h true => x = sx72 ((raw.extractLsb' 0 16).signExtend 64)
          | .ld .w true | .amo _ false _ | .cas false _ _ => x = sx72 ((raw.extractLsb' 0 32).signExtend 64)
          | .ld .x _ => x = raw.extractLsb' 0 72
          | _ => x = sx72 (raw.extractLsb' 0 64))
    let served := r.got = none ∧ r.locs = [l] ∧ PlainPlace s l ∧ foreign core l = false ∧ s.stalled l = false ∧
      s.behind core cx r.seq l n = false ∧ s.shadowed core r.seq l n = false ∧ s.marked (.thread core cx) l n = false ∧
      s.fenced core cx r.seq = false ∧ s.degradedAt l = false ∧
      (r.op.atomic = true → s.sampBehind core cx r.seq l n = false)
    let due := r.accepted = true ∨ (s.pick 2).1 = 0
    let words := r.locs.map fun l => s.mem.read l.key 8
    (∀ raw p, r.op.isRemote = false → r.op.atomic = false → r.got = some (raw, p) → ∃ t : State, exec .fill s = .next t ∧ fills raw p t ∧ t.mem = s.mem) ∧
    (∀ sh k, r.op = .bits sh k → r.got = none → s.fenced core cx r.seq = false →
      (∀ m ∈ r.locs, s.stalled m = false ∧ s.degradedAt m = false ∧
        s.marked (.thread core cx) m 8 = false ∧ s.behind core cx r.seq m 8 = false ∧ s.shadowed core r.seq m 8 = false) →
      ∃ t : State, exec .fill s = .next t ∧ t.mem = s.mem ∧
        fills (BitVec.ofNat 512 (words.foldr (fun w n => w + 2 ^ 64 * n) 0 / 2 ^ sh % 2 ^ k))
          (r.locs.any fun m => s.mem.poisoned m.key 8) t) ∧
    (r.op.atomic = true → r.got = none → r.accepted = false → (s.pick 2).1 = 1 →
      ∃ t : State, exec .fill s = .next t ∧ t.mem = s.mem ∧ (t.ctx core cx).s = (s.ctx core cx).s ∧
        (t.ctx core cx).recs = (s.ctx core cx).recs.map fun k =>
          if k.seq = r.seq then { r with accepted := true, acc := s.seq } else k) ∧
    ((∃ w x, r.op = .ld w x ∧ w ≠ .v) ∨ r.op = .vec → served →
      ∃ t : State, exec .fill s = .next t ∧ fills (BitVec.ofNat 512 (s.mem.read l.key n)) (s.mem.poisoned l.key n) t ∧ t.mem = s.mem) ∧
    (∀ o w b, r.op = .amo o w b → due → served → s.mem.poisoned l.key n = false →
      ∃ t : State, exec .fill s = .next t ∧ t.mem = s.mem.write l.key n (amoResult o w byte b).toNat ∧
        (s.watches = [] → fills (BitVec.ofNat 512 (s.mem.read l.key n)) false t)) ∧
    (∀ w old new, r.op = .cas w old new → due → served → s.mem.poisoned l.key n = false →
      ∃ t : State, exec .fill s = .next t ∧ (s.watches = [] → fills (BitVec.ofNat 512 (s.mem.read l.key n)) false t) ∧
        t.mem = if byte = (if w then old else (old.extractLsb' 0 32).setWidth 64) then s.mem.write l.key n new.toNat else s.mem) ∧
    ((∃ o w b, r.op = .amo o w b) ∨ (∃ w a b, r.op = .cas w a b) → due → served → s.mem.poisoned l.key n = true →
      ∃ t : State, exec .fill s = .next t ∧ fills 0 true t ∧ t.mem = s.mem)

/-- R115-R117, R119, R124, R241, R247: a store to the core's own scratchpad writes its bytes at once, unless an earlier access,
or one that the scratchpad's port has accepted, comes first or `fence.ss` holds it back; any other store is on its way to its place, with its data; no register changes, and memory
outside the bytes stored reads as before. The address is that of the form. -/
def Obligations.StoresIssue : Prop :=
  ∀ (s u : State) (g d a i : BitVec 4) (o : Imm 6) (wd : Width) (e : Elem) (h : BitVec 2) (r : Ord) (sc : Scope)
    (l : Loc) (ls : List Loc), Takes s g → s.here.stage = .fresh → poisS s a = false → MayGo u r sc →
    let base := (s.here.sreg a).val
    let first (x : Loc) (n : Nat) : Prop :=
      x.win = .own ∧ u.behind u.sel.1 u.sel.2 u.seq x n = false ∧ u.portTaken u.seq x = false ∧
        u.storesHeld u.sel.1 u.sel.2 = false
    let laneAt (q : Nat) : W72 := base.extractLsb' 64 8 ++
      (base.extractLsb' 0 64 + ((regLane s i q).signExtend 64 <<< h.toNat))
    let stores (i : Instr) (n v : Nat) : Prop :=
      (¬first l n → exec i s = .next (goesOn r u.seq (sent u l n (.bytes (cellsOf l.key v n) [])))) ∧
      (first l n → ∃ t : State, exec i s = .next (goesOn r u.seq t) ∧ t.mem = u.mem.write l.key n v ∧ t.flights = u.flights ∧
        (u.mem.wf = true → MemKept u t l.key n) ∧
        (u.watches = [] → u.promises = [] → u.ephem = [] → (u.core ((l.key - 2 ^ 52) / 2 ^ 18)).eng.run = none →
          t = { u with mem := u.mem.write l.key n v }))
    let n := elemBytes e
    let data (q : Nat) : Nat := (regLane s d q).toNat
    (poisS s d = false → Reaches s [smAddr base o (widthBytes wd)] (widthBytes wd) .store [l] u →
      u.reserveAll [l] = true → stores (.st g d a o wd r sc) (widthBytes wd) (s.here.sreg d).val.toNat) ∧
    (poisV s d = false → Reaches s [smAddr base o 64] 64 .store [l] u → u.reserveAll [l] = true →
      stores (.stv g d a o r sc) 64 (s.here.vreg d).val.toNat) ∧
    (poisV s d = false → poisV s i = false → Reaches s ((List.range 16).map laneAt) n .store ls u →
      u.reserveAll ls = true →
      ∃ t : State, exec (.scat g d a i e h r sc) s =
          .next (if r = .acq ∨ r = .sc then t.parkStage (.acted 1) (.accesses u.seq t.seq) else t.finish) ∧
        ((∀ x ∈ ls, x.win ≠ .own) → t.mem = u.mem ∧ t.seq = u.seq + 16 ∧ t.cores = u.cores ∧
          t.flights = u.flights ++ (List.range 16).map fun q =>
            { id := u.seq + q, by_ := .thread u.sel.1 u.sel.2, loc := ls.getD q l, len := n,
              op := .bytes (cellsOf (ls.getD q l).key (data q) n) [], after := u.here.storeFence,
              afterComb := u.here.storeFenceComb }) ∧
        ((∀ x ∈ ls, first x n) → t.flights = u.flights ∧
          t.mem = (List.range 16).foldl (fun m q => m.write (ls.getD q l).key n (data q)) u.mem)) ∧
    (∀ q, let t := s.modHere fun c => { c with stage := .acted q }
      exec (.st g d a o wd r sc) t = .next (acquired sc t).finish ∧ exec (.stv g d a o r sc) t = .next (acquired sc t).finish ∧
      exec (.scat g d a i e h r sc) t = .next (acquired sc t).finish)

/-- R122, R123, R116: the operations of AMO and `ared` on 32 and on 64 bits; an atomic that reaches its place drops its core's
copy of the line; AMO and `cas` leave a record for the old value, `ared` is on its way as a store. -/
def Obligations.AtomicForms : Prop :=
  (∀ (x y : W64),
      let lo (z : W64) : W32 := z.setWidth 32
      let a := lo x
      let b := lo y
      let both (o : AmoOp) (f : W32 → W32 → W32) (k : W64 → W64 → W64) : Prop :=
        lo (amoResult o false x y) = f a b ∧ amoResult o true x y = k x y
      both .add (· + ·) (· + ·) ∧ both .and (· &&& ·) (· &&& ·) ∧ both .or (· ||| ·) (· ||| ·) ∧
      both .xor (· ^^^ ·) (· ^^^ ·) ∧
      both .min (fun u v => if v.slt u then v else u) (fun u v => if v.slt u then v else u) ∧
      both .max (fun u v => if u.slt v then v else u) (fun u v => if u.slt v then v else u) ∧
      both .minu (fun u v => if v.ult u then v else u) (fun u v => if v.ult u then v else u) ∧
      both .maxu (fun u v => if u.ult v then v else u) (fun u v => if u.ult v then v else u) ∧
      both .swap (fun _ v => v) (fun _ v => v) ∧
      (let md : FMode := ⟨.rne, false, false⟩
       lo (amoResult .fadd false x y) = BitVec.ofNat 32 (fp32.add md a.toNat b.toNat).bits ∧
       lo (amoResult .fmin false x y) = BitVec.ofNat 32 (fp32.minMaxNum md false a.toNat b.toNat).bits ∧
       lo (amoResult .fmax false x y) = BitVec.ofNat 32 (fp32.minMaxNum md true a.toNat b.toNat).bits)) ∧
  ∀ (s u : State) (g d a b : BitVec 4) (o : AmoOp) (w : Bool) (r : Ord) (sc : Scope) (l : Loc),
    Takes s g → s.here.stage = .fresh → poisS s a = false → poisS s b = false → MayGo u r sc → u.reserveAll [l] = true →
    let n := if w then 8 else 4
    let va := (s.here.sreg a).val
    let rec1 (op : RecOp) : Rec :=
      { seq := u.seq, isV := false, reg := d, op := op, locs := [l], ord := r, scope := sc, fence := true }
    (Reaches s [va] n .atomic [l] u →
      exec (.amo g d a b o w r sc) s =
        .next (goesOn r u.seq (recorded (dropped u l) false d (rec1 (.amo o w (reg64 s b))))) ∧
      (poisS s d = false → exec (.cas g d a b w r sc) s =
        .next (goesOn r u.seq (recorded (dropped u l) false d (rec1 (.cas w (reg64 s b) (reg64 s d))))))) ∧
    (Reaches s [va] n .red [l] u →
      exec (.ared g a b o w r sc) s = .next (goesOn r u.seq (sent (dropped u l) l n (.ared o w (reg64 s b))))) ∧
    (∀ q, let t := s.modHere fun c => { c with stage := .acted q }
      exec (.amo g d a b o w r sc) t = .next (acquired sc t).finish ∧
      exec (.cas g d a b w r sc) t = .next (acquired sc t).finish ∧
      exec (.ared g a b o w r sc) t = .next (acquired sc t).finish)

/-- R238, R249, R123: a write that has arrived and is accepted is performed when its turn comes, unless its channel has become
degraded (log 80): it leaves the store path, its bytes are written, an `ared` writes its operation's result, and memory outside
its bytes reads as before. One that may not be performed yet changes nothing. -/
def Obligations.WritesArePerformed : Prop :=
  ∀ (s : State) (w : Nat) (f : Flight), s.event = .storeAcknowledgement w →
    s.flights.find? (fun f => f.id == w) = some f →
    (s.flightReady f = false → exec .storeAcknowledgement s = .next (s.later (.storeAcknowledgement w))) ∧
    (s.flightReady f = true → f.arrived = true → f.accepted = true → PlainPlace s f.loc → s.degradedAt f.loc = false →
      ∃ t : State, exec .storeAcknowledgement s = .next t ∧ (t.flights = s.flights.filter fun e => e.id != f.id) ∧
        (∀ cells pois, f.op = .bytes cells pois → t.mem = (s.mem.putAll cells).spoilAll pois) ∧
        (∀ v, f.op = .bytes (cellsOf f.loc.key v f.len) [] → s.mem.wf = true → MemKept s t f.loc.key f.len ∧
          t.mem.read f.loc.key f.len = v % 256 ^ f.len) ∧
        (∀ o d b, f.op = .ared o d b → s.marked f.by_ f.loc f.len = false → f.len ≤ 32 →
          t.mem = if s.mem.poisoned f.loc.key f.len then s.mem else s.mem.write f.loc.key f.len
            (amoResult o d (BitVec.ofNat 64 (s.mem.read f.loc.key f.len)) b).toNat)) ∧
    (s.flightReady f = true → f.arrived = false → (s.pick 3).1 = 0 →
      ∃ t : State, exec .storeAcknowledgement s = .next t ∧ t.mem = s.mem ∧
        t.flights = s.flights.map fun e => if e.id = w then { f with arrived := true } else e) ∧
    (s.flightReady f = true → f.accepted = false → (s.pick 3).1 = 1 →
      ∃ t : State, exec .storeAcknowledgement s = .next t ∧ t.mem = s.mem ∧
        t.flights = s.flights.map fun e => if e.id = w then { f with accepted := true, acc := s.seq } else e)

/-- R114, R96, R119: a poisoned address traps with 0x10, poisoned data with 0x11, in that order, and a misaligned address with
0x24 and the address, before any translation. Where both address registers of `gath` or `scat`, or both data registers of
`cas`, are poisoned, the value names sB, which is the model's choice (log 68). -/
def Obligations.AddressChecks : Prop :=
  ∀ (s : State) (g d a b : BitVec 4) (o : Imm 6) (wd : Width) (e : Elem) (h : BitVec 2) (q : AmoOp) (w : Bool) (r : Ord)
    (sc : Scope), Takes s g → s.here.stage = .fresh →
    let base := (s.here.sreg a).val
    let laneVa (k : Nat) : W64 := reg64 s a + ((regLane s b k).signExtend 64 <<< h.toNat)
    let va := smAddr base o (widthBytes wd)
    let vv := smAddr base o 64
    let n := if w then 8 else 4
    let pa : W64 := BitVec.ofNat 64 a.toNat
    (poisS s a = true →
      Raises (.ld g d a o wd r sc) s 0x10 pa ∧ Raises (.ldz g d a o wd r sc) s 0x10 pa ∧
      Raises (.st g d a o wd r sc) s 0x10 pa ∧ Raises (.ldv g d a o r sc) s 0x10 pa ∧ Raises (.stv g d a o r sc) s 0x10 pa ∧
      Raises (.ldsamp g d a o) s 0x10 pa ∧ Raises (.amo g d a b q w r sc) s 0x10 pa ∧
      Raises (.cas g d a b w r sc) s 0x10 pa ∧ Raises (.ared g a b q w r sc) s 0x10 pa ∧
      Raises (.gath g d a b e h r sc) s 0x10 pa ∧ Raises (.scat g d a b e h r sc) s 0x10 pa) ∧
    (poisS s a = false → poisV s b = true →
      Raises (.gath g d a b e h r sc) s 0x10 (BitVec.ofNat 64 (16 + b.toNat)) ∧
      Raises (.scat g d a b e h r sc) s 0x10 (BitVec.ofNat 64 (16 + b.toNat))) ∧
    (poisS s a = false → poisV s b = false → poisV s d = true →
      Raises (.scat g d a b e h r sc) s 0x11 (BitVec.ofNat 64 (16 + d.toNat))) ∧
    (poisS s a = false → poisS s b = false → poisS s d = true →
      Raises (.cas g d a b w r sc) s 0x11 (BitVec.ofNat 64 d.toNat)) ∧
    (∀ j, j < 16 → poisS s a = false → poisV s b = false →
      (laneVa j).toNat % elemBytes e ≠ 0 → (∀ i, i < j → (laneVa i).toNat % elemBytes e = 0) →
      Raises (.gath g d a b e h r sc) s 0x24 (laneVa j) ∧
      (poisV s d = false → Raises (.scat g d a b e h r sc) s 0x24 (laneVa j))) ∧
    (poisS s a = false → poisS s d = true → Raises (.st g d a o wd r sc) s 0x11 (BitVec.ofNat 64 d.toNat)) ∧
    (poisS s a = false → poisV s d = true → Raises (.stv g d a o r sc) s 0x11 (BitVec.ofNat 64 (16 + d.toNat))) ∧
    (poisS s a = false → poisS s b = true →
      Raises (.amo g d a b q w r sc) s 0x11 (BitVec.ofNat 64 b.toNat) ∧
      Raises (.cas g d a b w r sc) s 0x11 (BitVec.ofNat 64 b.toNat) ∧
      Raises (.ared g a b q w r sc) s 0x11 (BitVec.ofNat 64 b.toNat)) ∧
    (poisS s a = false → (va.extractLsb' 0 64).toNat % widthBytes wd ≠ 0 →
      Raises (.ld g d a o wd r sc) s 0x24 (va.extractLsb' 0 64) ∧ Raises (.ldz g d a o wd r sc) s 0x24 (va.extractLsb' 0 64) ∧
      (poisS s d = false → Raises (.st g d a o wd r sc) s 0x24 (va.extractLsb' 0 64))) ∧
    (poisS s a = false → (vv.extractLsb' 0 64).toNat % 64 ≠ 0 →
      Raises (.ldv g d a o r sc) s 0x24 (vv.extractLsb' 0 64) ∧ Raises (.ldsamp g d a o) s 0x24 (vv.extractLsb' 0 64) ∧
      (poisV s d = false → Raises (.stv g d a o r sc) s 0x24 (vv.extractLsb' 0 64))) ∧
    (poisS s a = false → poisS s b = false → (reg64 s a).toNat % n ≠ 0 →
      Raises (.amo g d a b q w r sc) s 0x24 (reg64 s a) ∧ Raises (.ared g a b q w r sc) s 0x24 (reg64 s a) ∧
      (poisS s d = false → Raises (.cas g d a b w r sc) s 0x24 (reg64 s a)))

/-- R114, R186, R217, R224-R228, R270: where an aligned address goes: a reserved space byte traps with 0x25; an offset in the
group's range of a window reaches its place, and another one traps with 0x26; a translated page reaches its physical address
or traps by its permissions; a miss parks the thread and starts a walk. That an atomic, a barrier word or a watch on a scratchpad
window traps with 0x2A before the range of the window is looked at is the model's reading (log 26). -/
def Obligations.AddressesReachTheirPlaces : Prop :=
  ∀ (s : State) (va : W72) (n : Nat) (gr : Group) (e : TlbEnt), misaligned va n = false →
    let core := s.sel.1
    let c := s.here
    let sp := (va.extractLsb' 64 8).toNat
    let a := va.extractLsb' 0 64
    let o := a.toNat
    let user := !c.priv
    let inS := decide (gr.sbase * 4096 ≤ o ∧ o + n ≤ (gr.sbase + gr.ssize) * 4096)
    let inC := decide (gr.cbase * 65536 ≤ o ∧ o + n ≤ (gr.cbase + gr.csize) * 65536)
    let mem (win : Win) (key : Nat) : Loc := ⟨win, key, va, 0, 4, 0⟩
    (0xF5 ≤ sp → s.place [va] n .load = (none, s.raise 0x25 a)) ∧
    (sp = 0xF0 → awayAt core c = false → s.group c.group = some gr → o < 2 ^ 18 →
      (inS = true → Reaches s [va] n .load [mem .own (scratchKey core o)] s ∧
        Reaches s [va] n .store [mem .own (scratchKey core o)] s) ∧
      (inS = false → s.place [va] n .load = (none, s.raise 0x26 a) ∧ s.place [va] n .store = (none, s.raise 0x26 a)) ∧
      s.place [va] n .atomic = (none, s.raise 0x2A a)) ∧
    (sp = 0xF2 → awayAt core c = false → s.group c.group = some gr → o < 2 ^ 24 →
      (inC = true → Reaches s [va] n .load [mem .combMem (combKey gr.comb o)] s ∧
        Reaches s [va] n .atomic [mem .combMem (combKey gr.comb o)] s) ∧
      (inC = false → s.place [va] n .load = (none, s.raise 0x26 a))) ∧
    (sp = 0xF4 → awayAt core c = false → s.group c.group = some gr → o < 2 ^ 10 →
      Reaches s [va] n .load [mem .bank (bankKey gr.comb o)] s ∧ s.place [va] n .store = (none, s.raise 0x22 a)) ∧
    (0xF0 ≤ sp → sp ≤ 0xF4 → awayAt core c = true → s.place [va] n .load = (none, s.raise 0x26 a)) ∧
    (sp < 0xF0 → tlbFind (s.core core).tlb c.asid va = some e → c.replay = none →
      let l : Loc := ⟨.glob, leafFrame e.leaf + o % pageSize e.level, va, e.leaf, e.level, c.asid⟩
      (leafKind e.leaf = 0 → s.homeOf l.key ∉ s.degraded → leafBit e.leaf 2 = true → user = false ∨ (leafBit e.leaf 5 = true ∧ sp < 0x80) →
        Reaches s [va] n .load [l] s) ∧
      ((s.hive (hiveOf core)).fring.getLsbD 0 = false → leafBit e.leaf 2 = false →
        s.place [va] n .load = (none, s.raise 0x21 a)) ∧
      ((s.hive (hiveOf core)).fring.getLsbD 0 = false → user = true → 0x80 ≤ sp →
        s.place [va] n .load = (none, s.raise 0x21 a) ∧ s.place [va] n .store = (none, s.raise 0x22 a))) ∧
    (sp < 0xF0 → s.tlbLook core c.asid va = none → c.replay = none →
      s.place [va] n .load = (none, (s.startWalk core c.ptroot c.asid va).parkReplay
        (.walk (hiveOf core) c.asid va 1)))

/-- R120, R124, R125, R245, R299: fences, `fsamp`, `sinv` and cache control. A fence that may not complete parks and issues
again; `sinv` lets the thread's later loads come after its earlier ones; `fsamp` parks until the fills that are outstanding in
its cycle have returned, and the end of that cycle empties the comb's sampler cache. A poisoned sA of `prf` traps as every
poisoned address register does, which is the model's reading (log 69). -/
def Obligations.FencesAndCacheControl : Prop :=
  ∀ (s u : State) (g a : BitVec 4) (sc : Scope) (l : Loc), Takes s g → s.here.stage = .fresh →
    let core := s.sel.1
    let valued := ∀ r ∈ s.here.recs, r.seq < s.seq → r.op.isRemote = true
    let sp := ((s.here.sreg a).val.extractLsb' 64 8).toNat
    let at_ := (s.here.sreg a).val
    (Released s sc → exec (.fence g .full sc) s = .next (acquired sc s).finish ∧ exec (.fence g .rel sc) s = .next s.finish) ∧
    (¬Released s sc → exec (.fence g .full sc) s = .next (s.parkReplay (.drain sc s.seq)) ∧
      exec (.fence g .rel sc) s = .next (s.parkReplay (.drain sc s.seq))) ∧
    (valued → exec (.fence g .acq sc) s = .next (acquired sc s).finish) ∧
    (¬valued → exec (.fence g .acq sc) s = .next (s.parkReplay (.values s.seq))) ∧
    Alters (.fence g .ss sc) s (fun c => if sc = .comb then { c with storeFenceComb := s.seq } else { c with storeFence := s.seq }) ∧
    (sc = .comb → exec (.sinv g sc) s = .next s.finish) ∧
    (sc ≠ .comb → exec (.sinv g sc) s = .next ((acquired sc s).modHere fun c => { c with recs := c.recs.map fun r =>
      { r with fence := r.fence || (r.got.isNone && !r.op.isRemote && r.op != .samp) } }).finish) ∧
    exec (.fsamp g sc) s = .next ((s.modComb (combOf core) fun c =>
      { c with fsamps := c.fsamps ++ [(core, s.sel.2, sc)] }).parkStage (.acted 1) (.sampler s.seq)) ∧
    (let t := s.clearSampler (combOf core)
     (t.comb (combOf core)).samp = [] ∧ (t.comb (combOf core)).fsamps = [] ∧ t.mem = s.mem ∧
       (∀ w ∈ (t.comb (combOf core)).sampWait, w.upto ≠ none) ∧
       (∀ x, (core, x, sc) ∈ (s.comb (combOf core)).fsamps → sc ≠ .comb → (t.core core).l1 = [])) ∧
    (poisS s a = true → Raises (.cflush g a) s 0x10 (BitVec.ofNat 64 a.toNat) ∧
      Raises (.cinval g a) s 0x10 (BitVec.ofNat 64 a.toNat) ∧ Raises (.prf g a) s 0x10 (BitVec.ofNat 64 a.toNat)) ∧
    (poisS s a = false → 0xF0 ≤ sp → sp ≤ 0xF4 → exec (.cflush g a) s = .next s.finish ∧
      exec (.cinval g a) s = .next s.finish ∧ exec (.prf g a) s = .next s.finish) ∧
    (poisS s a = false → sp < 0xF0 → Reaches s [at_] 1 .load [l] u →
      exec (.cinval g a) s = .next (dropped u l).finish ∧
      exec (.cflush g a) s = .next ((dropped u l).parkStage (.acted 1) (.line (l.key / 64) u.seq))) ∧
    (poisS s a = false → ∃ t : State, exec (.prf g a) s = .next t.finish ∧ t.mem = s.mem ∧ t.here = s.here ∧
      (sp < 0xF0 → ∃ p : Prefetch, (t.hive (hiveOf core)).prefetches = (s.hive (hiveOf core)).prefetches ++ [p] ∧
        p.core = core ∧ p.va = at_ ∧ p.user = !s.here.priv)) ∧
    (∀ n, let t := s.modHere fun c => { c with stage := .acted n }
      exec (.fsamp g sc) t = .next t.finish ∧ exec (.cflush g a) t = .next t.finish ∧ exec (.cinval g a) t = .next t.finish)

/-- R2: in a memory in canonical form a number written at an address is read back, little-endian, and every other byte reads as
before. -/
def Obligations.MemoryReadsWhatWasWritten : Prop :=
  ∀ (m : Memory) (a n v : Nat), m.wf = true →
    (m.write a n v).wf = true ∧ (m.write a n v).read a n = v % 256 ^ n ∧
    (∀ x, x < a ∨ a + n ≤ x → (m.write a n v).byte x = m.byte x ∧ (x ∈ (m.write a n v).pois ↔ x ∈ m.pois)) ∧
    (∀ x, a ≤ x → x < a + n → ((m.write a n v).byte x).toNat = v / 256 ^ (x - a) % 256 ∧ x ∉ (m.write a n v).pois)

/-! ### Contexts, special registers, gangs, barriers, messages, nodes -/

/-- R187-R189, R181: `isfull` reads full, poison and a pending record; `mkempty` and `mkfull` mark a register; `fmode` sets the
rounding mode; `home` gives the core that owns an address. -/
def Obligations.FullnessHomeAndMode : Prop :=
  ∀ (s u : State) (g d a : BitVec 4) (f : Bool) (rm : Rm) (l : Loc), Takes s g →
    let core := s.sel.1
    let x := s.here.sreg a
    let sp := (x.val.extractLsb' 64 8).toNat
    let o := (x.val.extractLsb' 0 64).toNat
    let mode : BitVec 2 := match rm with
      | .rne => 0
      | .rtz => 1
      | .rup => 2
      | .rdn => 3
    let homeIs (t : State) (n : Nat) : Prop :=
      exec (.home g d a) s = .next (t.modHere fun c => c.setS d (sx72 (BitVec.ofNat 64 n)) false).finish
    (∃ y : W64, WritesS (.isfull g d a f) s d (sx72 y) false ∧ y.toNat < 8 ∧
      y.getLsbD 0 = (if f then (s.here.vreg a).full else x.full) ∧ y.getLsbD 1 = (if f then poisV s a else poisS s a) ∧
      (y.getLsbD 2 = true ↔ ∃ r ∈ s.here.recs, r.isV = f ∧ r.reg = a)) ∧
    Alters (.mkempty g a f) s (fun c => if f then c.markV a false else c.markS a false) ∧
    Alters (.mkfull g a f) s (fun c => if f then c.markV a true else c.markS a true) ∧
    Alters (.fmode g rm) s (fun c => { c with fmode := c.fmode.extractLsb' 2 8 ++ mode }) ∧
    (x.pois = true → Raises (.home g d a) s 0x10 (BitVec.ofNat 64 a.toNat)) ∧
    (x.pois = false → sp = 0xF0 ∨ sp = 0xF2 ∨ sp = 0xF4 → homeIs s core) ∧
    (x.pois = false → sp = 0xF1 → homeIs s (core / 16 * 16 + o / 2 ^ 18 % 16)) ∧
    (x.pois = false → sp = 0xF3 → homeIs s (if core / 512 % 2 = 0 then core + 512 else core - 512)) ∧
    (x.pois = false → 0xF5 ≤ sp → Raises (.home g d a) s 0x25 (x.val.extractLsb' 0 64)) ∧
    (x.pois = false → sp < 0xF0 → s.translate core s.sel.2 x.val .load = (.ok l, u) →
      let i := u.homeOf l.key
      homeIs u (i / 1152 * 1024 + i % 1152 % 36 % 32 / 16 * 512 + i % 1152 / 36 * 16 + i % 1152 % 36 % 16))

/-- R127, R128, R54, R173, R174: what `rdsr` reads of every special register, and what `wrsr` changes: a field of the context,
of the core or of the device with its reserved bits zero, a shared register three cycles later (the twin sees a `w` register one
cycle later), nothing for a register that may only be read; a write that starts an action makes its event due. Two points are the model's
reading: the order of the causes of `wrsr`, and 0x11 on a register that may only be read (log 27); the cycle in which a `w` write
reaches either reader where both cores write (log 77). -/
def Obligations.SpecialRegisterForms : Prop :=
  ∀ (s : State) (g d a : BitVec 4) (n : BitVec 3) (r : Nat), Takes s g →
    let core := s.sel.1
    let c := s.here
    let k := s.core core
    let x := reg64 s a
    let ch := k.chan n
    let count (l : Loop) : W32 := if l.active then l.count else 0
    let reads (m : Nat) (v : W64) : Prop := WritesS (.rdsr g d (BitVec.ofNat 12 m)) s d (sx72 v) false
    let z {m : Nat} (y : BitVec m) : W64 := y.setWidth 64
    let sets (m : Nat) (t : State) : Prop := exec (.wrsr g a (BitVec.ofNat 12 m)) s = .next t.finish
    let alters (m : Nat) (f : Ctx → Ctx) : Prop := sets m (s.modHere f)
    let free := match s.group c.group with
      | some gr => (gr.share - s.demand gr) * 32
      | none => 0
    (reads 0x00 (BitVec.ofNat 64 core) ∧ reads 0x01 (BitVec.ofNat 64 s.sel.2) ∧ reads 0x02 c.unitid ∧ reads 0x03 (z c.launchid) ∧
      reads 0x04 c.groupid ∧ reads 0x05 (z c.gangid) ∧ reads 0x06 s.cycle ∧ reads 0x07 (z k.ebal) ∧ reads 0x08 (z k.erefill) ∧
      reads 0x09 (z c.fmode) ∧ reads 0x0A (z c.fflags) ∧ reads 0x0B (count c.loop0 ++ count c.loop1) ∧
      reads (0x0C + n.toNat) ((0 : BitVec 8) ++ ch.cause ++ BitVec.ofBool ch.err ++ ch.doneBelow) ∧
      reads 0x14 (BitVec.ofNat 64 ((if k.ovf then 256 else 0) + k.mailbox.length)) ∧ reads 0x15 (z c.origin) ∧
      reads 0x20 (z c.tcause) ∧ reads 0x21 c.tval ∧ reads 0x22 c.tpc ∧ reads 0x23 c.tword ∧ reads 0x24 c.thand ∧
      reads 0x25 c.tsave) ∧
    (∀ j : Fin 4, WritesS (.rdsr g d (BitVec.ofNat 12 (0x30 + j.val))) s d c.k[j.val] false) ∧
    (reads 0x100 (z c.sstatus) ∧ reads 0x101 c.shand ∧ reads 0x102 c.ptroot ∧ reads 0x103 (z c.asid) ∧ reads 0x104 (z k.mcapk) ∧
      reads 0x105 c.tdeleg0 ∧ reads 0x106 c.tdeleg1 ∧ reads 0x107 (z c.scause) ∧ reads 0x108 c.sval ∧ reads 0x109 c.spc ∧
      reads 0x10A c.sword ∧ reads 0x10B c.ssave ∧ reads 0x10C (z c.wdlim) ∧ reads 0x10D s.psave ∧ reads 0x10E s.pcomb0 ∧
      reads 0x10F s.pcomb1 ∧ reads 0x110 (z s.pctl) ∧ reads 0x111 s.prest ∧ reads 0x112 (s.hive (hiveOf core)).fring ∧
      reads 0x113 (BitVec.ofNat 64 (free % 2 ^ 24 * 2 ^ 32 + s.combFree (combOf core) * 32 % 2 ^ 24)) ∧ reads 0x114 s.nring ∧
      reads 0x115 s.nhead ∧ reads 0x116 s.ntail ∧ reads 0x117 s.qhdr ∧ reads 0x118 s.ktab ∧ reads 0x119 s.etab ∧
      reads 0x11A s.hlink ∧ reads 0x11B (z s.grantSeq <<< 16 ||| z s.grant) ∧ reads 0x11C (z s.preq) ∧
      reads 0x11D ((if s.clamp then 0x10000 else 0) ||| z s.pmeas) ∧ reads 0x11E s.dtab ∧
      reads 0x11F (BitVec.ofNat 64 (16 * s.startKind.toNat + (if s.replaying = [] then 8 else 0) + (if s.dref then 2 else 0) +
        (if s.dormant then 1 else 0))) ∧ reads 0x120 s.sptroot) ∧
    (∀ y, (s.gview core n = some y → reads (0x50 + n.toNat) y) ∧ (s.wview core n = some y → reads (0x40 + n.toNat) y)) ∧
    (s.gview core n = none → exec (.rdsr g d (BitVec.ofNat 12 (0x50 + n.toNat))) s = .next (s.parkReplay (.shared false n))) ∧
    (s.wview core n = none → exec (.rdsr g d (BitVec.ofNat 12 (0x40 + n.toNat))) s = .next (s.parkReplay (.shared true n))) ∧
    (poisS s a = false →
      (alters 0x09 (fun c => { c with fmode := x.setWidth 10 }) ∧ alters 0x0A (fun c => { c with fflags := x.setWidth 6 }) ∧
        alters 0x20 (fun c => { c with tcause := x.setWidth 8 }) ∧ alters 0x21 (fun c => { c with tval := x }) ∧
        alters 0x22 (fun c => { c with tpc := x }) ∧ alters 0x23 (fun c => { c with tword := x }) ∧
        alters 0x24 (fun c => { c with thand := x &&& ~~~2 }) ∧ alters 0x25 (fun c => { c with tsave := x }) ∧
        alters 0x100 (fun c => { c with sstatus := x.setWidth 4 }) ∧ alters 0x101 (fun c => { c with shand := x &&& ~~~3 }) ∧
        alters 0x102 (fun c => { c with ptroot := x &&& 0x000FFFFFFFFFF000 }) ∧
        alters 0x103 (fun c => { c with asid := x.setWidth 16 }) ∧
        alters 0x105 (fun c => { c with tdeleg0 := x &&& delegMask 0 }) ∧
        alters 0x106 (fun c => { c with tdeleg1 := x &&& delegMask 64 }) ∧
        alters 0x107 (fun c => { c with scause := x.setWidth 8 }) ∧ alters 0x108 (fun c => { c with sval := x }) ∧
        alters 0x109 (fun c => { c with spc := x }) ∧ alters 0x10A (fun c => { c with sword := x }) ∧
        alters 0x10B (fun c => { c with ssave := x }) ∧ alters 0x10C (fun c => { c with wdlim := x.setWidth 16 })) ∧
      (c.priv = true → sets 0x08 (s.modCore core fun k => { k with erefill := x.setWidth 19 })) ∧
      sets 0x104 (s.modCore core fun k => { k with mcapk := x.setWidth 32, oldKey := some (s.now, k.mcapk) }) ∧
      (sets 0x10D { s with psave := x &&& ~~~0x1FFFFFF } ∧ sets 0x10E { s with pcomb0 := x } ∧ sets 0x10F { s with pcomb1 := x } ∧
        sets 0x110 (if x.getLsbD 0 then { s with due := s.due ++ [.pctlGo] } else s) ∧
        sets 0x111 { s with prest := x, due := s.due ++ [.prest x] } ∧
        sets 0x112 (s.modHive (hiveOf core) fun h => { h with fring := x &&& ~~~0x3FFE }) ∧
        (∃ t : State, sets 0x114 t ∧ t.nring = x &&& ~~~0xFE ∧ (s.notices = [] → t.mem = s.mem ∧ t.cores = s.cores)) ∧
        sets 0x115 { s with due := s.due ++ [.nheadWrite x] } ∧ sets 0x117 { s with qhdr := x, due := s.due ++ [.qhdr x] } ∧
        sets 0x118 { s with ktab := x &&& ~~~0x3FFFF } ∧
        sets 0x119 { s with etab := x &&& ~~~0x3FFFF, extShow := s.extents.map (·.1) } ∧
        (∃ h : W64, sets 0x11A { s with hlink := h } ∧ h &&& ~~~0xF00 = s.hlink &&& ~~~0xF00 ∧
          h.extractLsb' 8 4 = if x.extractLsb' 8 4 = 0 then 1 else x.extractLsb' 8 4) ∧
        sets 0x11C { s with preq := x.setWidth 16 } ∧ sets 0x11E { s with dtab := x &&& ~~~0x1FF, outShow := [0, 1, 2, 3] } ∧
        sets 0x11F { s with dref := false, due := if x.getLsbD 0 then s.due ++ [.dorm] else s.due } ∧
        sets 0x120 { s with sptroot := x &&& 0x000FFFFFFFFFF000, sysBad := [] }) ∧
      (r ≤ 7 ∨ (0x0B ≤ r ∧ r ≤ 0x15) ∨ (0x30 ≤ r ∧ r ≤ 0x33) ∨ r = 0x113 ∨ r = 0x116 ∨ r = 0x11B ∨ r = 0x11D → sets r s) ∧
      (∃ v : Vector GCell 8, sets (0x50 + n.toNat) (s.modCore core fun k => { k with g := v }) ∧
        (∀ j : BitVec 3, j ≠ n → gcell v j = gcell k.g j) ∧
        ∀ u : State, (u.core core).g = v →
          (s.now + 3 ≤ u.now → u.gview core n = some x) ∧
          ((gcell k.g n).late = [] → u.now < s.now + 3 → u.gview core n = s.gview core n)) ∧
      (∃ v : Vector GCell 8, sets (0x40 + n.toNat) { s with pairs := sset (pairOf core) v s.pairs } ∧
        (∀ j : BitVec 3, j ≠ n → gcell v j = gcell (s.pair (pairOf core)) j) ∧
        ∀ u : State, u.pair (pairOf core) = v →
          (s.now + 3 ≤ u.now → u.wview core n = some x) ∧ (s.now + 1 ≤ u.now → u.wview (twinOf core) n = some x))) ∧
    (poisS s a = true → r ≠ 0x08 → r < 4096 → Raises (.wrsr g a (BitVec.ofNat 12 r)) s 0x11 (BitVec.ofNat 64 a.toNat)) ∧
    (c.priv = false → ∀ b, c.cur = some b → Raises (.wrsr g a 0x008) s 0x06 (b.sw.setWidth 64))

/-- R184, R187, R182, R185, R295: `mig`, `migc` and `migb` trap where the thread may not leave, complete with no effect where the
target is their own core, and else leave: a thread that leaves is Migrating after its bundle, its packet reaches the queue of
its target's comb pair once its records have retired, its stores are acknowledged and the queue has room, its binding and its
watch released before, and takes the lowest Free compute
context of the target, whose vectors and masks are cleared. A watch that it leaves goes with it as pending reason 2, or with the
reason that was pending (log 25). -/
def Obligations.Migration : Prop :=
  ∀ (s u : State) (g a : BitVec 4) (k x n : Nat) (p : Packet) (ps : List Packet) (xs : List Nat),
    let core := s.sel.1
    let cx := s.sel.2
    let va := s.here.sreg a
    let goes (i : Instr) (u : State) (target : Nat) : Prop :=
      let c := u.here
      let cause : Option (Byte × W64) :=
        if c.gang.isSome then some (0x44, 0)
        else if cx = 7 then some (0x43, 3)
        else if c.sstatus.getLsbD 0 || c.sstatus.getLsbD 1 then some (0x43, 4)
        else if c.recs.any fun r => r.op == .remote true then some (0x43, 1)
        else if c.xfers ≠ 0 then some (0x43, 2)
        else none
      (∀ code v, cause = some (code, v) → exec i s = .next (u.raise code v)) ∧
      (cause = none → target = core → exec i s = .next u.finish) ∧
      (cause = none → target ≠ core → exec i s =
        .next ((u.finish.modHere fun c => { c with st := .migrating, target := target }).later (.migrationDepart core cx)))
    let c := s.ctx k x
    let q := (sget (combPairOf c.target) s.arrivals).getD []
    (Takes s g →
      goes (.migb g) s s.here.origin.toNat ∧
      (va.pois = false → goes (.migc g a) s (va.val.extractLsb' 0 11).toNat) ∧
      (va.pois = false → s.homeCore core cx va.val = (.ok n, u) → goes (.mig g a) u n) ∧
      (va.pois = true → Raises (.migc g a) s 0x12 (BitVec.ofNat 64 a.toNat) ∧
        Raises (.mig g a) s 0x10 (BitVec.ofNat 64 a.toNat))) ∧
    (s.event = .migrationDepart k x → x < 8 → c.st = .migrating → s.halts k = false → c.follows = false →
      (c.recs = [] → s.released k x .dev s.seq = true → 64 ≤ q.length → ∃ t : State,
        exec .migrationDepart s = .next (t.later (.migrationDepart k x)) ∧ t.mem = s.mem ∧ t.arrivals = s.arrivals ∧
          (t.ctx k x).st = .migrating ∧ (t.ctx k x).chan = none ∧ ∀ w ∈ t.watches, ¬(w.core = k ∧ w.cx = x)) ∧
      (c.recs = [] → s.released k x .dev s.seq = true → q.length < 64 →
        ∃ (t : State) (m : Packet), exec .migrationDepart s = .next t ∧ t.mem = s.mem ∧ t.flights = s.flights ∧
          sget (combPairOf c.target) t.arrivals = some (q ++ [m]) ∧ Event.migrationArrival c.target ∈ t.agenda ∧
          (t.ctx k x).st = .free ∧ (t.ctx k x).chan = none ∧ (∀ w ∈ t.watches, ¬(w.core = k ∧ w.cx = x)) ∧ m.core = c.target ∧
          m.thread.s = c.s ∧ m.thread.p = c.p ∧ m.thread.pc = c.pc ∧ m.thread.k = c.k ∧ m.thread.delta = c.delta ∧
          m.thread.fmode = c.fmode ∧ m.thread.fflags = c.fflags ∧ m.thread.origin = c.origin ∧ m.thread.unitid = c.unitid ∧
          m.thread.launchid = c.launchid ∧ m.thread.groupid = c.groupid ∧ m.thread.retRec = c.retRec ∧
          m.thread.v = Vector.replicate 16 {} ∧ m.thread.m = Vector.replicate 7 {} ∧ m.thread.loop0 = {} ∧ m.thread.loop1 = {} ∧
          (c.watch ≠ none → m.thread.watch = c.watch ∧
            m.thread.watchPending = if c.watchPending = 0 then 2 else c.watchPending)) ∧
      (c.recs ≠ [] → exec .migrationDepart s = .next (s.later (.migrationDepart k x)))) ∧
    (s.event = .migrationArrival k → s.arrivalsFor k = p :: ps → s.freeCtxs k = x :: xs →
      ∃ t : State, exec .migrationArrival s = .next t ∧ t.mem = s.mem ∧ (t.core k).l1 = [] ∧
        sget (combPairOf k) t.arrivals = some (((sget (combPairOf k) s.arrivals).getD []).erase p) ∧
        (t.core k).clears = (s.core k).clears ++ [{ cx := x, whole := false }] ∧
        (let d := t.ctx k x
         d.st = .clearing ∧ d.s = p.thread.s ∧ d.p = p.thread.p ∧ d.pc = p.thread.pc ∧ d.k = p.thread.k ∧
           d.origin = p.thread.origin ∧ d.unitid = p.thread.unitid ∧ d.generation = (s.ctx k x).used ∧
           d.fmode = p.thread.fmode ∧ d.fflags = p.thread.fflags ∧ d.retRec = p.thread.retRec ∧
           d.watch = p.thread.watch ∧ d.watchPending = p.thread.watchPending) ∧
        (∀ j y, y < 8 → (j, y) ≠ (k, x) → t.ctx j y = s.ctx j y)) ∧
    (s.event = .migrationArrival k → s.arrivalsFor k = p :: ps → s.freeCtxs k = [] →
      exec .migrationArrival s = .next (s.later (.migrationArrival k)))

/-- R294-R296: `mwatch` watches one sector at its home, which a full home takes from its oldest watch; a write to the sector
gives reason 1; `mwait` takes a pending reason or waits for one, at most the cycles of its operand; `mclr` ends the watch. That a
context holds its watch until `mwait` has returned reason 2, or an earlier reason after an eviction, is the model's choice
(log 25). -/
def Obligations.Monitors : Prop :=
  ∀ (s u : State) (g d a b : BitVec 4) (l : Loc) (v : W512) (q : Bool) (core cx n : Nat) (o : WatchEnt) (os : List WatchEnt),
    cx < 8 → s.sel.2 < 8 →
    let c := s.here
    let mine (w : WatchEnt) : Bool := w.core == s.sel.1 && w.cx == s.sel.2
    let others := s.watches.filter fun w => !mine w
    let here : WatchEnt := { core := s.sel.1, cx := s.sel.2, sector := l.key / 32 }
    let same := others.filter fun w => s.watchHome w.sector == s.watchHome (l.key / 32)
    let x := (reg64 s b).toNat % 2 ^ 32
    (Takes s g →
      (c.stage = .fresh → poisS s a = true → Raises (.mwatch g a) s 0x10 (BitVec.ofNat 64 a.toNat)) ∧
      (c.stage = .fresh → poisS s a = false → Reaches s [(c.sreg a).val] 1 .watch [l] u →
        exec (.mwatch g a) s = .next (waitsAt u [l])) ∧
      (AtHome s l 1 → same.length < 64 → ∃ t : State, exec (.mwatch g a) s = .next t.finish ∧ t.watches = others ++ [here] ∧
        t.mem = s.mem ∧ t.here.watch = some (l.key / 32) ∧ t.here.watchPending = 0) ∧
      (AtHome s l 1 → 64 ≤ same.length → same = o :: os → o.cx < 8 →
        ∃ t : State, exec (.mwatch g a) s = .next t.finish ∧ t.watches = others.erase o ++ [here] ∧
          t.here.watch = some (l.key / 32) ∧
          ((s.ctx o.core o.cx).st ≠ .parked → (s.ctx o.core o.cx).watchPending = 0 → (t.ctx o.core o.cx).watchPending = 2)) ∧
      (c.stage = .fresh → c.watch = none → Raises (.mwait g d b) s 0x42 0) ∧
      (c.stage = .fresh → c.watch ≠ none → poisS s b = true → Raises (.mwait g d b) s 0x12 (BitVec.ofNat 64 b.toNat)) ∧
      (c.stage = .fresh → c.watch ≠ none → poisS s b = false → c.watchPending ≠ 0 →
        Alters (.mwait g d b) s fun c =>
          { c.setS d (sx72 (BitVec.ofNat 64 c.watchPending)) false with
            watchPending := 0, watch := if c.watchPending = 2 || !s.watches.any mine then none else c.watch }) ∧
      (c.stage = .fresh → c.watch ≠ none → poisS s b = false → c.watchPending = 0 →
        exec (.mwait g d b) s = .next (s.parkStage (.acted 1) (.mwait (if x = 0 then none else some (s.now + x))))) ∧
      (c.stage = .answered v q → Alters (.mwait g d b) s fun c =>
        { c.setS d (sx72 (BitVec.ofNat 64 v.toNat)) false with watch := if v.toNat = 2 || !s.watches.any mine then none else c.watch }) ∧
      exec (.mclr g) s =
        .next ({ s with watches := others }.modHere fun c => { c with watch := none, watchPending := 0 }).finish) ∧
    (s.event = .mwaitTimeout core cx → (s.ctx core cx).wait = .mwait (some n) → (s.ctx core cx).st = .parked →
      (s.ctx core cx).stage = .acted 1 → n ≤ s.now →
      exec .mwaitTimeout s = .next (s.modCtx core cx fun c => { c with stage := .answered 3 false })) ∧
    (PlainPlace s l → l.win = .glob → s.promises = [] → s.watches = [o] → l.key / 32 ≤ o.sector → o.sector ≤ (l.key + n) / 32 →
      let w := s.ctx o.core o.cx
      let t := s.writeHome l (n + 1) (cellsOf l.key v.toNat (n + 1)) []
      (w.st ≠ .parked → w.watchPending = 0 → (t.ctx o.core o.cx).watchPending = 1) ∧
      (w.st = .parked → w.wait = .mwait none → w.stage = .acted 1 → (t.ctx o.core o.cx).stage = .answered 1 false))

/-- R277, R280, R283-R289: `gang` traps with its reason or makes the reserved contexts of the next cores followers, with a copy
of what the leader holds; `ungang` leaves the gang. The BAR forms act on the barrier word at its home: `bar.init` writes it
and breaks its waiters, an arrival counts or completes the phase, whose waiters wake, a wait for the present phase registers a
waiter, and a Broken word traps with 0x41, an Idle or malformed one with 0x46. In the comb memory window a word is a slot of the
group: another offset has 0x46, and the constant bank 0x22 (R284). That `ungang` completes outside a gang too (log 24), that every
address of space 0xF2 counts among those offsets (log 79), and that a word which is both Broken and malformed traps with 0x41
(log 82), is the model's choice. -/
def Obligations.GangsAndBarriers : Prop :=
  ∀ (s u : State) (g a b : BitVec 4) (w : BitVec 2) (l : Loc) (v : W512) (q : Bool) (code : Byte) (val : W64),
    Takes s g →
    let core := s.sel.1
    let cx := s.sel.2
    let c := s.here
    let n := 2 ^ w.toNat
    let launch := sget c.launch s.launches
    let able := (launch.map (·.gangable)).getD false
    let gw := (launch.map (·.gw)).getD 1
    let free (i : Nat) : Bool := (s.ctx (core + 1 + i) cx).st == .reserved && (s.followersOf c).contains (core + 1 + i, cx)
    let runs := c.follows = false ∧ s.followersRun c = true
    let word := s.mem.read l.key 8
    let count := word % 2 ^ 24
    let arrived := word / 2 ^ 32 % 2 ^ 24
    let phase := word / 2 ^ 56 % 64
    let sc : Scope := if l.win = .combMem then .comb else .dev
    let t := chosen s
    let atWord := (if l.key < 2 ^ 52 then l.win = .glob else l.win = .combMem) ∧ s.lost = []
    let o := (reg64 s a).toNat
    let quiet := s.watches = [] ∧ s.promises = [] ∧ s.ephem = []
    let live := s.mem.poisoned l.key 8 = false ∧ word < 2 ^ 63 ∧ word / 2 ^ 24 % 256 = 0 ∧ arrived < count
    let waits (ph : Nat) : BarWaiter := { core := core, cx := cx, key := l.key, phase := BitVec.ofNat 6 ph }
    let forms (i : Instr) : Prop := i = .barArv g a ∨ i = .barWait g a b ∨ i = .barArw g a
    (able = false → Raises (.gang g w) s 0x0C 1) ∧
    (able = true → c.gang ≠ none → Raises (.gang g w) s 0x0C 3) ∧
    (able = true → c.gang = none → gw < n ∨ core % 16 % n ≠ 0 → Raises (.gang g w) s 0x0C 2) ∧
    (able = true → c.gang = none → n ≤ gw → core % 16 % n = 0 →
      ((∃ i, i < n - 1 ∧ free i = false) ∨ runs → Raises (.gang g w) s 0x0C 4) ∧
      ((∀ i, i < n - 1 → free i = true) → ¬runs → ∃ t : State, exec (.gang g w) s = .next t ∧ t.mem = s.mem ∧
        t.here = { s.finish.here with gang := some ⟨core, n, 0, false⟩, gangid := BitVec.ofNat 8 (n * 16) } ∧
        ∀ i, i < n - 1 →
          let f := t.ctx (core + 1 + i) cx
          let old := s.ctx (core + 1 + i) cx
          f.st = .follower ∧ f.gang = some ⟨core, n, i + 1, false⟩ ∧ f.gangid = BitVec.ofNat 8 (n * 16 + i + 1) ∧
            f.pc = t.here.pc ∧ f.loop0 = t.here.loop0 ∧ f.loop1 = t.here.loop1 ∧ f.k = c.k ∧ f.unitid = c.unitid ∧
            f.launchid = c.launchid ∧ f.groupid = c.groupid ∧ f.origin = c.origin ∧ f.fmode = t.here.fmode ∧
            f.s = old.s ∧ f.v = old.v ∧ f.p = old.p ∧ f.m = old.m)) ∧
    exec (.ungang g) s = .next (s.finish.modHere fun c =>
      { c with gang := none, gangid := 0, st := if c.st = .follower then .ready else c.st }) ∧
    (c.stage = .fresh → poisS s a = false →
      (poisS s b = false → reg64 s b < 2 ^ 24 → Reaches s [(c.sreg a).val] 8 (.bar false) [l] u → Released u sc →
        exec (.barInit g a b) s = .next (waitsAt u [l])) ∧
      (poisS s b = false → 2 ^ 24 ≤ (reg64 s b).toNat → Reaches s [(c.sreg a).val] 8 (.bar false) [l] u →
        exec (.barInit g a b) s = .next (u.raise 0x46 (reg64 s a))) ∧
      (Reaches s [(c.sreg a).val] 8 (.bar false) [l] u →
        (Released u sc → exec (.barArv g a) s = .next (waitsAt u [l]) ∧ exec (.barArw g a) s = .next (waitsAt u [l])) ∧
        (¬Released u sc → exec (.barArv g a) s = .next (u.parkReplay (.drain sc u.seq)) ∧
          exec (.barArw g a) s = .next (u.parkReplay (.drain sc u.seq)))) ∧
      (poisS s b = false → Reaches s [(c.sreg a).val] 8 (.bar true) [l] u →
        exec (.barWait g a b) s = .next (waitsAt u [l]))) ∧
    (poisS s a = true → ∀ i, forms i ∨ i = .barInit g a b → c.stage = .fresh → Raises i s 0x10 (BitVec.ofNat 64 a.toNat)) ∧
    (poisS s a = false → poisS s b = false → c.stage = .fresh → misaligned (c.sreg a).val 8 = false → awayAt core c = false →
      ∀ i, forms i ∨ i = .barInit g a b →
        ((c.sreg a).val.extractLsb' 64 8 = 0xF4 → Raises i s 0x22 (reg64 s a)) ∧
        (∀ gr, (c.sreg a).val.extractLsb' 64 8 = 0xF2 → s.group c.group = some gr →
          ¬(gr.cbase * 65536 ≤ o ∧ o < gr.cbase * 65536 + 8 * gr.nbar) → Raises i s 0x46 (reg64 s a))) ∧
    (AtHome s l 8 → atWord → poisS s a = false →
      (poisS s b = false → reg64 s b < 2 ^ 24 → ∃ y : State, exec (.barInit g a b) s = .next y.finish ∧
        y.mem = s.mem.write l.key 8 (reg64 s b).toNat ∧ (y.waiters = s.waiters.filter fun x => x.key != l.key) ∧
        ∀ x ∈ s.waiters, x.key = l.key → (y.ctx x.core x.cx).stage = .refused 0x41 (lo64 l.va)) ∧
      (∀ i, forms i →
        (s.mem.poisoned l.key 8 = false → 2 ^ 63 ≤ word → exec i s = .next (t.raise 0x41 (lo64 l.va))) ∧
        (s.mem.poisoned l.key 8 = true ∨ (word < 2 ^ 63 ∧ (count = 0 ∨ count ≤ arrived ∨ word / 2 ^ 24 % 256 ≠ 0)) →
          exec i s = .next (t.raise 0x46 (lo64 l.va)))) ∧
      (live → arrived + 1 ≠ count →
        ∃ y : State, exec (.barArv g a) s = .next y.finish ∧
        exec (.barArw g a) s = .next ({ y with waiters := y.waiters ++ [waits phase] }.parkStage (.acted 2) .barrier) ∧
        y.mem = s.mem.write l.key 8 (phase * 2 ^ 56 + (arrived + 1) * 2 ^ 32 + count) ∧ y.waiters = s.waiters ∧
        (quiet → y = (dropped t l).wr l.key 8 (phase * 2 ^ 56 + (arrived + 1) * 2 ^ 32 + count))) ∧
      (live → arrived + 1 = count → ∃ y : State, exec (.barArv g a) s = .next y.finish ∧
        exec (.barArw g a) s = .next (acquired sc y).finish ∧
        y.mem = s.mem.write l.key 8 (2 ^ 62 + (phase + 1) % 64 * 2 ^ 56 + count) ∧
        (y.waiters = s.waiters.filter fun x => !(x.key == l.key && x.phase.toNat == phase)) ∧
        ∀ x ∈ s.waiters, x.key = l.key → x.phase.toNat = phase → (y.ctx x.core x.cx).stage = .answered 0 false) ∧
      (live → phase = (reg64 s b).toNat % 64 → exec (.barWait g a b) s =
        .next ({ t with waiters := t.waiters ++ [waits phase] }.parkStage (.acted 2) .barrier)) ∧
      (live → phase ≠ (reg64 s b).toNat % 64 → exec (.barWait g a b) s = .next (acquired sc t).finish)) ∧
    (c.places = [l] → poisS s a = false → ∀ i, forms i →
      (c.stage = .answered v q → exec i s = .next (acquired sc s).finish) ∧
      (c.stage = .refused code val → Raises i s code (lo64 l.va)))

/-- R312-R323, R362, R450: a message leaves after Release(dev) with bits [63:0] of each of its registers and waits for its target;
it arrives after its core's slot and behind the messages of its sender that go before it, and its answer reaches its sender only
while that waits for this message; a target that holds a place for it takes it in and the sender goes on, else the sender traps
with 0x45. `mrecv` takes the oldest message of the bound channel or waits for one; a call fills a register of its caller by
`ret`; a task starts in a Free context at its entry. What receives a payload extends the sign of each word into its space byte. -/
def Obligations.Messages : Prop :=
  ∀ (s : State) (g d a b : BitVec 4) (ch : BitVec 6) (w : BitVec 2) (v : W512) (q : Bool) (code : Byte) (val : W64) (m : Msg)
    (r : FillTag) (e : Task) (gr : Group) (lc : Launch) (x k j : Nat),
    let core := s.sel.1
    let cx := s.sel.2
    let c := s.here
    let words (l : List (BitVec 4)) : Prop := ∀ r ∈ l, poisS s r = false
    let to_ := ((reg64 s a).extractLsb' 0 11).toNat
    let w64 (r : BitVec 4) : W64 := reg64 s r
    let mine1 (ch : BitVec 6) (pay : Vector W64 6) (kind : MsgKind) : Msg :=
      { id := s.seq, launch := c.launch, core := to_, chan := ch, sender := .thread core cx, gen := c.generation, pay := pay,
        kind := kind }
    let msg1 := mine1 ch #v[w64 4, w64 5, w64 6, w64 7, w64 8, w64 9] .plain
    let call := mine1 0 #v[w64 4, w64 5, w64 6, w64 7, 0, 0]
      (.call (c.sreg b).val { core := core, cx := cx, isV := false, reg := d, gen := c.generation })
    let leaves (m : Msg) : State := ({ s with seq := s.seq + 1 }.later (.messageArrival m)).parkStage (.acted 1) (.inbound s.seq)
    let forms (i : Instr) : Prop := i = .msg g a ch ∨ i = .callat g d a b
    let takesIn (c : Ctx) (y : Ctx) (from_ : W64) (pay : Nat → W64) : Prop :=
      (d < 4 ∨ 9 < d → y.sreg d = ⟨sx72 from_, (c.sreg d).full, false⟩) ∧
      (∀ i : BitVec 4, i < 6 → y.sreg (4 + i) = ⟨sx72 (pay i.toNat), (c.sreg (4 + i)).full, false⟩) ∧
      (∀ i : BitVec 4, i ≠ d → i < 4 ∨ 9 < i → y.sreg i = c.sreg i) ∧ y.v = c.v ∧ y.p = c.p
    let held := s.entryOf ch
    let mine := (s.core core).inbound.find? fun m => m.chan == ch && (match m.kind with | .call .. => false | _ => true)
    let top : W64 := match (s.core core).mailbox with
      | e :: _ => e[w.toNat]'(by have := w.isLt; omega)
      | [] => 0
    let read := acquired .dev (s.modHere fun c => c.setS d (sx72 top) false)
    let now := m.core < s.turn ∧ (∀ n, n ∈ s.held ∨ Event.messageArrival n ∈ s.agenda → s.goesBefore n m = false)
    let waits (k x : Nat) : Prop :=
      x < 8 ∧ (s.ctx k x).generation = m.gen ∧ (s.ctx k x).st = .parked ∧ (s.ctx k x).wait = .inbound m.id ∧
        (s.ctx k x).stage = .acted 1
    let can := s.held.filter fun m => m.core == k && !s.overtakes m
    (Takes s g →
      (c.stage = .fresh → Released s .dev →
        (words [a, 4, 5, 6, 7, 8, 9] → exec (.msg g a ch) s = .next (leaves msg1)) ∧
        (words [a, b, 4, 5, 6, 7] → exec (.callat g d a b) s = .next (leaves call))) ∧
      (poisS s a = true → ∀ i, forms i → Raises i s 0x13 (BitVec.ofNat 64 a.toNat)) ∧
      (words [a, b, 4, 5, 6, 7, 8, 9] → ∀ i, forms i →
        (c.stage = .answered v q → exec i s = .next s.finish) ∧ (c.stage = .refused code val → Raises i s code val) ∧
        (c.stage = .fresh → ¬Released s .dev → exec i s = .next (s.parkReplay (.drain .dev s.seq)))) ∧
      (c.stage = .fresh → c.chan = none → Raises (.mrecv g d) s 0x45 64) ∧
      (c.stage = .fresh → c.chan = some ch → mine = none → exec (.mrecv g d) s = .next (s.parkStage (.acted 1) .mrecv)) ∧
      (c.stage = .fresh → c.chan = some ch → mine = some m → ∃ t : State, exec (.mrecv g d) s = .next t.finish ∧
        (t.core core).inbound = (s.core core).inbound.erase m ∧ (t.core core).l1 = [] ∧ t.mem = s.mem ∧
        takesIn c t.here (senderId m.sender) fun i => m.pay.getD i 0) ∧
      (c.stage = .answered v q → ∃ t : State, exec (.mrecv g d) s = .next t.finish ∧ (t.core core).l1 = [] ∧ t.mem = s.mem ∧
        takesIn c t.here (v.extractLsb' 0 64) fun i => v.extractLsb' (64 + 64 * i) 64) ∧
      (cx ≠ 7 → (∀ y, y < 8 → y ≠ cx → (s.ctx core y).chan ≠ some ch) →
        Alters (.chbind g ch) s fun c => { c with chan := some ch }) ∧
      (cx = 7 ∨ (∃ y, y < 8 ∧ y ≠ cx ∧ (s.ctx core y).chan = some ch) → Raises (.chbind g ch) s 0x45 (ch.setWidth 64)) ∧
      (held = none → Raises (.tbclr g ch) s 0x45 (ch.setWidth 64) ∧
        (poisS s a = false → Raises (.tbset g a ch) s 0x45 (ch.setWidth 64))) ∧
      (poisS s a = true → Raises (.tbset g a ch) s 0x11 (BitVec.ofNat 64 a.toNat)) ∧
      (held = some e →
        let put (e : Task) : State := s.modCore core fun k => { k with tasks := sset ch.toNat e k.tasks }
        exec (.tbclr g ch) s = .next (put { e with blocked := false }).finish ∧
        (poisS s a = false → exec (.tbset g a ch) s =
          .next (put { e with prio := (reg64 s a).extractLsb' 0 2, blocked := (reg64 s a).getLsbD 2 }).finish)) ∧
      exec (.mbrd g d false w) s = .next read.finish ∧
      exec (.mbrd g d true w) s = .next (read.modCore core fun k =>
        if k.mailbox = [] then k
        else { k with mailbox := k.mailbox.tail, ovf := k.ovf && decide (1 < k.mailbox.length) }).finish ∧
      (poisS s a = false → c.retRec = none → Raises (.ret g a) s 0x45 64) ∧
      (poisS s a = false → c.retRec = some r → Released s .dev → exec (.ret g a) s =
        .next ((s.modHere fun c => { c with retRec := none }).later
          (.remoteFill r ((c.sreg a).val.setWidth 512) false)).finish)) ∧
    (s.event = .messageArrival m → ¬now → exec .messageArrival s = .next (s.later (.messageArrival m))) ∧
    (m.sender = .thread k x → (s.ctx k x).wait ≠ .inbound m.id → ∀ y, s.tellSender m y = s) ∧
    (s.event = .messageArrival m → now → s.heldFor m = false → m.kind = .plain → m.dry = false →
      (∀ n ∈ (s.core m.core).inbound, s.goesBefore n m = false) →
      (s.bound m.core m.chan.toNat = none → sget m.chan.toNat (s.core m.core).tasks = none → m.sender = .thread k x →
        waits k x → exec .messageArrival s = .next (s.modCtx k x fun c =>
          { c with stage := .refused 0x45 (m.chan.setWidth 64) })) ∧
      (s.bound m.core m.chan.toNat = some j → (s.ctx m.core j).wait = .mrecv → (s.ctx m.core j).stage = .acted 1 →
        m.sender = .engine k → ∃ (t : State) (y : W512), exec .messageArrival s = .next t ∧
          (t.ctx m.core j).stage = .answered y false ∧ y.extractLsb' 0 64 = BitVec.ofNat 64 (k + 2 ^ 14) ∧
          (∀ i, i < 6 → y.extractLsb' (64 + 64 * i) 64 = m.pay.getD i 0) ∧ t.mem = s.mem) ∧
      (s.bound m.core m.chan.toNat = some j → (s.ctx m.core j).wait ≠ .mrecv → (s.core m.core).inbound.length < 64 →
        m.sender = .thread k x → waits k x → ∃ t : State, exec .messageArrival s = .next t ∧
          (t.core m.core).inbound = (s.core m.core).inbound ++ [m] ∧ (t.ctx k x).stage = .answered 0 false) ∧
      (s.bound m.core m.chan.toNat = none → sget m.chan.toNat (s.core m.core).tasks = some e → e.blocked = false →
        e.groups.head? = some j → s.group j = some gr → sget gr.launch s.launches = some lc → s.arrivalsFor m.core = [] →
        s.freeCtxs m.core ≠ [] → m.sender = .engine k → ∃ t : State, exec .messageArrival s = .next t ∧
          let y := t.ctx m.core ((s.freeCtxs m.core).headD 0)
          y.st = .clearing ∧ y.pc = e.pc ∧ y.launch = gr.launch ∧ y.group = j ∧ y.unitid = BitVec.allOnes 64 ∧
            ∀ i : BitVec 4, i < 6 → y.sreg (4 + i) = ⟨sx72 (m.pay.getD i.toNat 0), true, false⟩)) ∧
    (s.event = .messageRetry k → k < s.turn → can[(s.pick can.length).1]? = some m → m.kind = .plain → m.dry = false →
      s.heldFor m = false → s.bound m.core m.chan.toNat = some j → (s.ctx m.core j).wait ≠ .mrecv →
      (s.core m.core).inbound.length < 64 → ∃ t : State, exec .messageRetry s = .next t ∧ t.held = s.held.erase m ∧
        (t.core m.core).inbound = (s.core m.core).inbound ++ [m])

/-- R208, R310, R336-R342, R449: `trig` adds one to the trigger count of the launch's node, once for a unit; `cnt` reads a field of
a node record, poisoned where its bytes are; `cancel` marks it and cancels the launches below it; both trap where the operand names no record. `qput` writes the
slots of a packet and moves the tail, or answers that the queue is full, not open, or the packet malformed. -/
def Obligations.NodeForms : Prop :=
  ∀ (s u : State) (g d a b : BitVec 4) (f : BitVec 2) (l : Loc) (n q lid : Nat) (k : Queue) (h : QHead) (lc : Launch)
    (ls : List Loc), Takes s g →
    let c := s.here
    let x := reg64 s a
    let t := chosen s
    let kind := s.mem.read (l.key + 0x22) 1
    let ours := c.priv = true ∨ BitVec.ofNat 16 (s.mem.read (l.key + 0x20) 2) = c.asid
    let named := (kind = 1 ∨ kind = 2 ∨ kind = 3 ∨ kind = 4) ∧ ours
    let off : Nat := if f = 0 then 0 else if f = 1 then 8 else if f = 2 then 0x10 else 0x23
    let wide : Nat := if f = 3 then 1 else 8
    let counts (v : Nat) (q : Bool) : Prop := exec (.cnt g d a f) s =
      .next (acquired .dev (t.modHere fun c => c.setS d (sx72 (BitVec.ofNat 64 v)) q)).finish
    let marks := t.wr (l.key + 0x23) 1 1
    let node := (l.va.extractLsb' 0 64).extractLsb' 6 58
    let trig : Loc := { win := .glob, key := n + 8, va := (0x80 : Byte) ++ (c.launchid ++ (8 : BitVec 6)), leaf := 0 }
    let adds : Flight := { id := s.seq, by_ := .thread s.sel.1 s.sel.2, loc := trig, len := 8, op := .ared .add true 1,
                           after := c.storeFence, afterComb := c.storeFenceComb }
    let record : W64 := c.launchid ++ (0 : BitVec 6)
    let packet := (c.vreg b).val.toNat
    let slots := packet / 256 % 4 + 1
    let answers (y : State) (v : Nat) : Prop :=
      exec (.qput g d a b) s = .next (y.modHere fun c => c.setS d (sx72 (BitVec.ofNat 64 v)) false).finish
    let whole := packet % 256 ≠ 0 ∧ packet % 256 ≤ 7 ∧ packet / 2 ^ 11 % 32 = 0
    (c.unitid = BitVec.allOnes 64 ∨ s.hasTriggered c = true → exec (.trig g) s = .next s.finish) ∧
    (c.unitid ≠ BitVec.allOnes 64 → s.hasTriggered c = false → s.sysWaits 0 record = false → Released s .dev →
      c.st = .ready →
      s.nodeAddr c.launchid = some n → ∃ t : State, exec (.trig g) s = .next t.finish ∧ t.mem = s.mem ∧
        t.here.triggered = true ∧ t.flights = s.flights ++ [adds]) ∧
    (c.unitid ≠ BitVec.allOnes 64 → s.hasTriggered c = false → s.sysWaits 0 record = true →
      exec (.trig g) s = .next ((s.sysAsk 0 record).parkReplay .home)) ∧
    (c.unitid ≠ BitVec.allOnes 64 → s.hasTriggered c = false → s.sysWaits 0 record = false → ¬Released s .dev →
      exec (.trig g) s = .next (s.parkReplay (.drain .dev s.seq))) ∧
    (c.stage = .fresh → poisS s a = true → Raises (.cancel g a) s 0x10 (BitVec.ofNat 64 a.toNat) ∧
      Raises (.cnt g d a f) s 0x10 (BitVec.ofNat 64 a.toNat)) ∧
    (c.stage = .fresh → poisS s a = false → x.extractLsb' 58 6 ≠ 0 → Raises (.cancel g a) s 0x22 (x <<< 6) ∧
      Raises (.cnt g d a f) s 0x21 (x <<< 6)) ∧
    (c.stage = .fresh → s.nodePlace a 0x22 = (some l, u) →
      (Released u .dev → exec (.cancel g a) s = .next (waitsAt u [l])) ∧
      (¬Released u .dev → exec (.cancel g a) s = .next (u.parkReplay (.drain .dev u.seq)))) ∧
    (c.stage = .fresh → s.nodePlace a 0x21 = (some l, u) → exec (.cnt g d a f) s = .next (waitsAt u [l])) ∧
    (AtHome s l 64 →
      (¬named → exec (.cancel g a) s = .next (t.raise 0x22 (l.va.extractLsb' 0 64)) ∧
        exec (.cnt g d a f) s = .next (t.raise 0x21 (l.va.extractLsb' 0 64))) ∧
      (named → PlainPlace s l → counts (s.mem.read (l.key + off) wide) (s.mem.poisoned (l.key + off) wide)) ∧
      (named → l.win = .glob → leafKind l.leaf ≠ 3 → s.lostSector (l.key + off) = true → counts 0 true) ∧
      (named → t.cancelWaits = true → exec (.cancel g a) s = .next (t.cancelAsk.parkStage (.acted 1) .home)) ∧
      (named → t.cancelWaits = false → s.mem.read (l.key + 0x23) 1 = 1 → exec (.cancel g a) s = .next t.finish) ∧
      (named → t.cancelWaits = false → s.mem.read (l.key + 0x23) 1 ≠ 1 → s.watches = [] → s.promises = [] → s.lost = [] →
        (s.launches = [] → exec (.cancel g a) s = .next marks.finish) ∧
        (s.launches = [(lid, lc)] → marks.under lc.node node nodeLinks = false → exec (.cancel g a) s = .next marks.finish) ∧
        (s.launches = [(lid, lc)] → marks.under lc.node node nodeLinks = true → ∃ y : State, exec (.cancel g a) s = .next y.finish ∧
          (sget lid y.launches = none ∨ ∃ z, sget lid y.launches = some z ∧ z.cancelled = true ∧ z.next = lc.count)))) ∧
    (c.stage = .fresh → poisS s a = false → (∀ j, j < slots → b.toNat + j < 16 → poisV s (BitVec.ofNat 4 (b.toNat + j)) = false) →
      (x.toNat % 64 ≠ 0 → Raises (.qput g d a b) s 0x57 x) ∧
      (x.toNat % 64 = 0 → Reaches s [(c.sreg a).val] 64 .load [l] u → Released u .sys →
        exec (.qput g d a b) s = .next (waitsAt u [l]))) ∧
    (AtHome s l 64 →
      (t.registered l = none → exec (.qput g d a b) s = .next (t.raise 0x57 (l.va.extractLsb' 0 64))) ∧
      (t.registered l = some (k, h) → b.toNat + slots ≤ 16 →
        (h.state ≠ 1 → answers t 2) ∧
        (h.state = 1 → ¬whole → answers t 3) ∧
        (h.state = 1 → whole → 2 ^ h.lg < h.tail + slots - h.head → answers t 1) ∧
        (h.state = 1 → whole → h.tail + slots - h.head ≤ 2 ^ h.lg → c.replay = none →
          t.slotPlaces q h { hive := q / 32, ptroot := h.ptroot, asid := h.asid, user := false, stall := none } h.tail slots =
            (.ok ls, u) → q = s.mem.read (l.key + 0xA) 1 →
          answers (dropped ((u.putSlots c b.toNat ls).poke (l.key + 0x18) 8 ((h.tail + slots) % 2 ^ 64)) l) (h.tail % 2 ^ 56 * 256))))

/-! ### Transfers, rings, promises -/

/-- R345-R350, R355, R357-R360: a transfer form whose checks pass takes the channel's next id into sD, after Release(dev), and
its request leaves; a channel with 64 ids under way waits. `xwait` and `xstat` read the channel. The CB forms set up a ring,
move bytes between free and filled, and trap with 0x55 and their reason on misuse. That `xcopy` of a thread away from its origin
takes 0x26 with its first global operand is the model's choice (log 57). -/
def Obligations.TransferForms : Prop :=
  ∀ (s : State) (g d a b : BitVec 4) (notice ring : Bool) (ch : BitVec 3) (lg : BitVec 5) (l : Loc) (q : Ring), Takes s g →
    let core := s.sel.1
    let c := s.here
    let k := (s.core core).chan ch
    let full (r : BitVec 4) : W72 := (c.sreg r).val
    let clean (l : List (BitVec 4)) : Prop := ∀ r ∈ l, poisS s r = false
    let space (r : BitVec 4) : Nat := ((full r).extractLsb' 64 8).toNat
    let far (r : BitVec 4) : Prop := space r < 0xF0 ∧ (reg64 s r).toNat % 4 = 0
    let near (r : BitVec 4) (n : Nat) : Prop := 0xF0 ≤ space r ∧ space r ≤ 0xF3 ∧ (reg64 s r).toNat % 4 = 0 ∧
      s.window core c.launch c.group (awayAt core c) (full r) n true = .ok l
    let len := ((reg64 s d).extractLsb' 0 40).toNat
    let sized := len ≠ 0 ∧ len ≤ 2 ^ 36 ∧ len % 4 = 0
    let xf (kind : XferKind) (src dst : W72) (len : Nat) (place : Option Loc) (ring : Option Nat) (notice : Bool)
        (reg : BitVec 4) : Xfer :=
      { kind := kind, core := core, cx := s.sel.2, gen := c.generation, inst := k.inst, ch := ch, id := k.next,
        ptroot := c.ptroot, asid := c.asid, user := !c.priv, group := c.group, launch := c.launch, src := src, dst := dst,
        len := len, place := place, ring := ring, notice := notice, reg := reg, record := s.seq + 1,
        room := ((s.group c.group).map fun g => g.room dst).getD 0 }
    let home := awayAt core c = false
    let goes (i : Instr) (x : Xfer) : Prop :=
      (Released s .dev → (k.next - k.doneBelow).toNat ≠ 64 → ∃ t : State, exec i s = .next t.finish ∧ t.mem = s.mem ∧
        sget s.seq t.xfers = some x ∧ Event.transferArrive s.seq ∈ t.agenda ∧
        (t.core core).chan ch = { k with next := k.next + 1 } ∧ t.here.xfers = c.xfers + 1 ∧
        t.here.sreg d = ⟨sx72 (k.next.setWidth 64), (c.sreg d).full, false⟩ ∧
        (x.kind = .getv → (t.here.vreg x.reg).full = false ∧
          ∃ r ∈ t.here.recs, r.isV = true ∧ r.reg = x.reg ∧ r.op = .remote false)) ∧
      (Released s .dev → (k.next - k.doneBelow).toNat = 64 → exec i s = .next (s.parkReplay (.xfer ch k.doneBelow))) ∧
      (¬Released s .dev → exec i s = .next (s.parkReplay (.drain .dev s.seq)))
    let id := (reg64 s a).extractLsb' 0 48
    let past := (k.doneBelow - id).toNat
    let xdone : W64 := (0 : BitVec 8) ++ k.cause ++ BitVec.ofBool k.err ++ k.doneBelow
    let read := acquired .dev (s.modHere fun c => c.setS d (sx72 xdone) false)
    let h := (reg64 s a).toNat
    let n := ((reg64 s b).extractLsb' 0 32).toNat
    let misuse (i : Instr) (reason : Nat) : Prop := Raises i s 0x55 (BitVec.ofNat 64 (h % 16 + 256 * reason))
    let busy := ∃ e ∈ s.xfers, e.2.core = core ∧ e.2.ring = some h
    let puts (i : Instr) (q : Ring) (n : Nat) : Prop := exec i s = .next ((s.modCore core fun k => k.setRing h q).modHere fun c =>
      c.setS d (sx72 (BitVec.ofNat 64 n)) false).finish
    let at_ (o : Nat) : W72 := q.base.extractLsb' 64 8 ++ (q.base.extractLsb' 0 64 + BitVec.ofNat 64 o)
    (clean [a, b, d] → sized →
      (near a len → far b → goes (.xget g d a b notice false ch) (xf .get (full b) (full a) len (some l) none notice 0)) ∧
      (home → far b → s.ringOf (reg64 s a) = some q → len ≤ 2 ^ q.lg →
        goes (.xget g d a b notice true ch) (xf .get (full b) (full a) len none (some h) notice 0)) ∧
      (near b len → far a → goes (.xput g d a b notice false ch) (xf .put (full b) (full a) len (some l) none notice 0)) ∧
      (far a → far b → (home → goes (.xcopy g d a b notice false ch) (xf .copy (full b) (full a) len none none notice 0)) ∧
        (¬home → Raises (.xcopy g d a b notice false ch) s 0x26 (reg64 s a)) ∧
        Raises (.xcopy g d a b notice true ch) s 0x54 1)) ∧
    (clean [a, b, d] → far a → far b → ¬sized → Raises (.xcopy g d a b notice false ch) s 0x54 2) ∧
    (clean [a, b] → near a 1 → far b →
      goes (.xtile g d a b notice false ch) (xf .tile (full b) (full a) 0 (some l) none notice 0)) ∧
    (clean [b] → home → far b → (reg64 s b).toNat % 64 = 0 →
      goes (.xgetv g d a b false false ch) (xf .getv (full b) 0 64 none none false a)) ∧
    (poisS s a = true → ∀ i, i = .xget g d a b notice ring ch ∨ i = .xput g d a b notice ring ch ∨
      i = .xcopy g d a b notice ring ch ∨ i = .xtile g d a b notice ring ch → Raises i s 0x10 (BitVec.ofNat 64 a.toNat)) ∧
    (poisS s a = true → Raises (.xwait g d a ch) s 0x12 (BitVec.ofNat 64 a.toNat)) ∧
    (poisS s a = false → 1 ≤ past → past ≤ 2 ^ 47 → exec (.xwait g d a ch) s = .next read.finish) ∧
    (poisS s a = false → past = 0 ∨ 2 ^ 47 < past → exec (.xwait g d a ch) s = .next (s.parkReplay (.xfer ch id))) ∧
    exec (.xstat g d false ch) s = .next read.finish ∧
    exec (.xstat g d true ch) s = .next (read.modCore core fun q => q.setChan ch { k with err := false, cause := 0 }).finish ∧
    (clean [a, b] →
      (h < 16 → (∀ r, sget h (s.core core).rings = some r → r.group = c.group) →
        (space b = 0xF0 ∨ space b = 0xF2) → (reg64 s b).toNat % 2 ^ lg.toNat = 0 → ¬busy →
        s.window core c.launch c.group (awayAt core c) (full b) (2 ^ lg.toNat) true = .ok l →
        exec (.cbinit g a b lg) s = .next (s.modCore core fun k =>
          k.setRing h { base := full b, lg := lg.toNat, free := 2 ^ lg.toNat, group := c.group }).finish) ∧
      (16 ≤ h → misuse (.cbinit g a b lg) 1) ∧
      (s.ringOf (reg64 s a) = none →
        misuse (.cbpush g d a b) 1 ∧ misuse (.cbpop g d a b) 1 ∧ misuse (.cbwait g d a b) 1 ∧ misuse (.cbspace g d a b) 1) ∧
      (s.ringOf (reg64 s a) = some q →
        (q.free < n → misuse (.cbpush g d a b) 2) ∧
        (n ≤ q.free → ¬busy → Released s .comb → puts (.cbpush g d a b)
          { q with filled := q.filled + n, free := q.free - n, wr := (q.wr + n) % 2 ^ q.lg } (q.free - n)) ∧
        (q.filled < n → misuse (.cbpop g d a b) 3) ∧
        (n ≤ q.filled → puts (.cbpop g d a b)
          { q with filled := q.filled - n, free := q.free + n, rd := (q.rd + n) % 2 ^ q.lg } (q.filled - n)) ∧
        (2 ^ q.lg < n → misuse (.cbwait g d a b) 4 ∧ misuse (.cbspace g d a b) 4) ∧
        (n ≤ 2 ^ q.lg → q.filled < n → exec (.cbwait g d a b) s = .next (s.parkReplay (.ringFilled h n))) ∧
        (n ≤ 2 ^ q.lg → n ≤ q.filled → WritesS (.cbwait g d a b) s d (at_ q.rd) false) ∧
        (n ≤ 2 ^ q.lg → ¬busy → q.free < n → exec (.cbspace g d a b) s = .next (s.parkReplay (.ringSpace h n))) ∧
        (n ≤ 2 ^ q.lg → ¬busy → n ≤ q.free → WritesS (.cbspace g d a b) s d (at_ q.wr) false)))

/-- R344, R351-R354, R360, R361: a streamer takes up a request, reads and writes its words, and ends it when its writes are
acknowledged: its id is Done on its channel, its notice is posted, a ring's bytes are filled. A ring transfer waits until its
bytes are free. What changes a ring in a cycle comes before the slot of its core, or waits for the next cycle. A bad tile request
ends with 0x54. That each event moves one aligned word of 4 bytes, in an order of free choice, where R343 speaks of pieces of 256
bytes, is the model's choice (log 57). -/
def Obligations.TransferEvents : Prop :=
  ∀ (s u : State) (t h core w : Nat) (x : Xfer) (p : Loc) (bx : TileBox) (q : Ring) (pois : Bool) (fv : W512) (code : Byte)
    (va : W64),
    let me : Agent := .streamer t
    let words (off : Nat) := (x.len + (if x.kind = .queue then (lo64 x.dst).toNat % 4 else off % 4) + 3) / 4
    let tiles := s.event = .transferArrive t ∧ sget t s.xfers = some x ∧ x.st = .issued ∧ x.kind = .tile
    let reads := s.engineWords me (s.streamUnder x x.src x.stall) x.src 8
    let bad54 (u : State) : State := (u.setXfer t { x with
      left := [], stalls := [], st := .moving, failed := some (0x54, lo64 x.src) }).later (.transferFinish t)
    let k := runAt x.left (s.pick (runLength x.left)).1
    let src := bytePlus x.src (4 * k)
    let ends := s.event = .transferFinish t ∧ sget t s.xfers = some x ∧ x.st = .moving ∧ x.left = [] ∧
      (∀ f ∈ s.flights, f.by_ ≠ me) ∧ x.kind ≠ .queue ∧ s.xferLive x = true ∧ (x.ring = none ∨ s.turn ≤ x.core)
    let ch := (s.core x.core).chan x.ch
    let sole := x.cx < 8 ∧ (s.ctx x.core x.cx).generation = x.gen ∧ (s.ctx x.core x.cx).st ≠ .free ∧
      ∃ r, ((s.ctx x.core x.cx).recs.filter fun k => k.isV && k.reg == x.reg) = [r] ∧ r.seq = x.record ∧ r.op.isRemote = true
    let word0 (kind : Nat) : W64 := BitVec.ofNat 64 (kind + x.cx * 2 ^ 8 + x.ch.toNat * 2 ^ 11 + x.id.toNat * 2 ^ 16)
    (s.event = .transferArrive t → sget t s.xfers = some x → x.st = .issued →
      (x.ring = none → x.kind = .get ∨ x.kind = .put ∨ x.kind = .copy ∨ x.kind = .queue → exec .transferArrive s =
        .next ((s.setXfer t { x with st := .moving, left := [(0, words (if x.rsize = 0 then 0 else x.off))] }).later (.streamerPiece t))) ∧
      (x.ring = none → x.kind = .getv → exec .transferArrive s =
        .next ((s.setXfer t { x with st := .moving, left := [(0, 1)] }).later (.streamerPiece t))) ∧
      (x.kind = .get → x.ring = some h → exec .transferArrive s =
        .next ((s.setXfer t { x with st := .ring }).later (.ringReserve x.core h)))) ∧
    (tiles →
      ((lo64 x.src).toNat % 8 ≠ 0 → exec .transferArrive s = .next (bad54 s)) ∧
      ((lo64 x.src).toNat % 8 = 0 → reads = (.val w pois, u) →
        (pois = true ∨ parseTile w = none → exec .transferArrive s = .next (bad54 u)) ∧
        (pois = false → parseTile w = some bx → x.room < bx.bytes → exec .transferArrive s = .next (bad54 u)) ∧
        (pois = false → parseTile w = some bx → bx.bytes ≤ x.room → exec .transferArrive s = .next ((u.setXfer t { x with
          st := .moving, stall := none, tile := some bx, left := [(0, (bx.bytes + 3) / 4)] }).later (.streamerPiece t))))) ∧
    (s.event = .streamerPiece t → sget t s.xfers = some x → x.st = .moving → x.failed = none → runLength x.left ≠ 0 →
      s.suspended x = false →
      (x.kind = .get → x.tile = none → x.place = some p → p.win ≠ .combMem → u.rangeHeld x p = true →
        x.rsize = 0 → (lo64 x.src).toNat % 4 = 0 →
        (chosen s).engineRead me ((chosen s).streamUnder x src (x.stallOf k)) src 4 false = (.val w pois, u) →
        ∃ (y : State) (f : Flight), exec .streamerPiece s = .next y ∧ y.flights = u.flights ++ [f] ∧ y.mem = u.mem ∧
          sget t y.xfers = some { x.setStall k none with left := dropRun x.left k } ∧ Event.streamerPiece t ∈ y.agenda ∧
          f.by_ = me ∧ f.loc.win = p.win ∧ f.loc.key = p.key + 4 * k ∧ f.len = 4 ∧
          ∃ bad, f.op = .bytes (cellsOf (p.key + 4 * k) w 4) bad ∧ (pois = false → bad = [])) ∧
      (x.kind = .getv → x.place = none → s.engineRead me (s.streamUnder x x.src (x.stallOf 0)) x.src 64 false = (.val w pois, u) →
        exec .streamerPiece s = .next ((u.setXfer t { x with
          left := [], stalls := [], vec := some (BitVec.ofNat 512 w, pois) }).later (.transferFinish t)))) ∧
    (s.event = .transferFinish t → sget t s.xfers = some x → x.st = .moving → x.left = [] → x.ring ≠ none → x.core < s.turn →
      exec .transferFinish s = .next (s.later (.transferFinish t))) ∧
    (ends → x.kind = .getv → s.fillWaits x.fillTag = true → exec .transferFinish s = .next (s.later (.transferFinish t))) ∧
    (ends → x.kind = .getv → x.failed = none → x.vec = some (fv, pois) → sole → ∃ y : State,
      exec .transferFinish s = .next y ∧ sget t y.xfers = none ∧ y.mem = s.mem ∧
      (y.ctx x.core x.cx).vreg x.reg = ⟨fv, true, pois⟩ ∧ (y.ctx x.core x.cx).xfers = (s.ctx x.core x.cx).xfers - 1 ∧
      (ch.finished = [] → x.id = ch.doneBelow → ((y.core x.core).chan x.ch).doneBelow = ch.doneBelow + 1)) ∧
    (ends → x.kind ≠ .getv → ∃ y : State, exec .transferFinish s = .next y ∧ sget t y.xfers = none ∧ y.mem = s.mem ∧
      (ch.finished = [] → x.id = ch.doneBelow → ((y.core x.core).chan x.ch).doneBelow = ch.doneBelow + 1) ∧
      ((s.ctx x.core x.cx).generation = x.gen → (y.ctx x.core x.cx).xfers = (s.ctx x.core x.cx).xfers - 1) ∧
      (x.failed = none → x.tile = none → x.notice = true → (s.core x.core).mailbox.length < 32 →
        (y.core x.core).mailbox = (s.core x.core).mailbox ++ [#v[word0 1, 0, 0, 0]]) ∧
      (x.failed = none → x.tile = some bx → (s.core x.core).mailbox.length < 32 →
        (y.core x.core).mailbox = (s.core x.core).mailbox ++ [#v[word0 1,
          BitVec.ofNat 64 (bx.lo[0] + bx.hi[0] * 2 ^ 16 + bx.lo[1] * 2 ^ 32 + bx.hi[1] * 2 ^ 48),
          BitVec.ofNat 64 (bx.lo[2] + bx.hi[2] * 2 ^ 16), 0]]) ∧
      (x.failed = some (code, va) → ((y.core x.core).chan x.ch).err = true ∧
        (ch.err = false → ((y.core x.core).chan x.ch).cause = code.extractLsb' 0 7) ∧
        ((s.core x.core).mailbox.length < 32 →
          (y.core x.core).mailbox = (s.core x.core).mailbox ++ [#v[word0 3, code.setWidth 64, va, 0]])) ∧
      (x.failed = none → x.ring = some h → sget h (s.core x.core).rings = some q → q.group = x.group →
        sget h (y.core x.core).rings = some { q with reserved := q.reserved - x.len, filled := q.filled + x.len })) ∧
    (s.event = .ringReserve core h →
      (s.xfers.find? fun e => e.2.st == .ring && e.2.core == core && e.2.ring == some h && s.xferLive e.2) = some (t, x) →
      sget h (s.core core).rings = some q →
      (core < s.turn ∨ q.free < x.len → exec .ringReserve s = .next (s.later (.ringReserve core h))) ∧
      (s.turn ≤ core → x.len ≤ q.free → s.halts core = false → ∃ y : State, exec .ringReserve s = .next y ∧ y.mem = s.mem ∧
        sget h (y.core core).rings = some { q with
          free := q.free - x.len, reserved := q.reserved + x.len, wr := (q.wr + x.len) % 2 ^ q.lg } ∧
        Event.streamerPiece t ∈ y.agenda ∧ ∃ z, sget t y.xfers = some z ∧ z.st = .moving ∧ z.off = q.wr ∧
          z.rsize = 2 ^ q.lg ∧ z.place = some (localLoc core q.base) ∧ z.left = [(0, words q.wr)]))

/-- R363-R383: a PROM form waits to issue while an earlier one of its thread has no answer; at cells that its translation allows
it sends its request, after Release(dev) where it writes, and waits for the answer, or goes on with its register empty; an agent acts on the request at the root: a fill makes an empty root full
and wakes its waiters, a second value has 0x40, a get fills the register or waits at the root, `ptry` and `pstat` read, `peq`
links the root of the lower rank, or at equal ranks the one at the higher address, to the other. -/
def Obligations.PromiseForms : Prop :=
  ∀ (s u : State) (g d a b : BitVec 4) (f : BitVec 2) (v : W512) (pois : Bool) (code : Byte) (val x : W64) (reg : BitVec 4)
    (q : Nat) (r : PromReq) (l m : Loc) (rank rk2 : Nat),
    let core := s.sel.1
    let c := s.here
    let cell (r : BitVec 4) (w : Bool) : Prop := poisS s r = false ∧ ((c.sreg r).val.extractLsb' 64 8) = 0 ∧
      (reg64 s r).toNat % 16 = 0 ∧ (reg64 s r).toNat < 2 ^ 60 ∧
      ∃ e, tlbFind (s.core core).tlb c.asid (c.sreg r).val = some e ∧ leafKind e.leaf = 0 ∧ leafBit e.leaf 26 = true ∧
        leafBit e.leaf 2 = true ∧ (w = true → leafBit e.leaf 3 = true) ∧ (c.priv = true ∨ leafBit e.leaf 5 = true)
    let calm := s.degraded = [] ∧ c.replay = none ∧ (∀ e ∈ s.promReqs, ¬(e.2.core = core ∧ e.2.cx = s.sel.2)) ∧
      ∀ k ∈ c.recs, ¬(k.op = .remote false ∧ k.isV = false)
    let waiting := (s.promReqs.any fun q => q.2.core == core && q.2.cx == s.sel.2 && q.2.gen == c.generation) ||
      c.recs.any fun k => k.op == RecOp.remote false && !k.isV
    let req (op : PromOp) (a b : W64) : PromReq :=
      { op := op, core := core, cx := s.sel.2, gen := c.generation, ptroot := c.ptroot, asid := c.asid, user := !c.priv,
        a := a, b := b }
    let asks (i : Instr) (r : PromReq) : Prop := exec i s = .next ({ s with
      seq := s.seq + 1, promReqs := sset s.seq r s.promReqs,
      agenda := s.agenda ++ [Event.promiseRequest s.seq] }.parkStage (.acted 1) .answer)
    let gets (i : Instr) (op : PromOp) : Prop := ∃ t : State, exec i s = .next t.finish ∧ t.mem = s.mem ∧
      sget (s.seq + 1) t.promReqs = some { req op (reg64 s a) 0 with record := s.seq } ∧ Event.promiseRequest (s.seq + 1) ∈ t.agenda ∧
      (t.here.sreg d).full = false
    let writers (i : Instr) : Prop := i = .pinit g a ∨ i = .pfill g a b ∨ i = .peq g a b
    let word := u.mem.read (l.key + 8) 8
    let value := u.mem.read l.key 8
    let plain (l : Loc) : Prop := u.stalled l = false ∧ u.marked (.promise 0) l 16 = false ∧
      u.mem.poisoned (l.key + 8) 8 = false ∧ leafKind l.leaf = 0 ∧ leafBit l.leaf 26 = true ∧ u.lost = []
    let here := hiveOf r.core
    let ctl (st rank link : Nat) : Nat := st * 2 ^ 62 + rank * 2 ^ 56 + link
    let acts := s.event = .promiseRequest q ∧ sget q s.promReqs = some r ∧ r.stall = none ∧ r.dry = false ∧ plain l ∧ rank < 64 ∧
      u.mem.poisoned l.key 8 = false ∧ s.engineAddr (r.under here) ((0 : Byte) ++ r.a) r.op.use = (.ok l, u)
    let asked := r.cx < 8 ∧ (u.ctx r.core r.cx).generation = r.gen ∧ (u.ctx r.core r.cx).st = .parked ∧
      (u.ctx r.core r.cx).wait = .answer ∧ (u.ctx r.core r.cx).stage = .acted 1
    let told (t : State) (st : Stage) : Prop := exec .promiseRequest s = .next t ∧ sget q t.promReqs = none ∧
      (asked → (t.ctx r.core r.cx).stage = st)
    let fills (t : State) (x : Nat) : Prop := exec .promiseRequest s = .next t ∧ t.mem = u.mem ∧ sget q t.promReqs = none ∧
      Event.remoteFill ⟨r.core, r.cx, false, reg, r.gen, r.record⟩ ((sx72 (BitVec.ofNat 64 x)).setWidth 512) false ∈ t.agenda
    let woken (t : State) (key : Nat) (x : W72) (bad : Bool) : Prop := (t.promises = u.promises.filter fun w => w.cell != key) ∧
      ∀ w ∈ u.promises, w.cell = key → Event.remoteFill w.tag (x.setWidth 512) bad ∈ t.agenda
    (Takes s g →
      (c.stage = .fresh → calm → Released s .dev →
        (cell a true → asks (.pinit g a) (req .pinit (reg64 s a) 0)) ∧
        (cell a true → poisS s b = false → asks (.pfill g a b) (req (.pfill (reg64 s b)) (reg64 s a) 0)) ∧
        (cell a true → cell b true → asks (.peq g a b) (req .peq (reg64 s a) (reg64 s b)))) ∧
      (c.stage = .fresh → calm → cell a false →
        gets (.ptry g d a) (.ptry d) ∧ gets (.pstat g d a f) (.pstat d f) ∧
        ∃ (t : State) (r : PromReq),
          exec (.pget g d a) s = .next (t.parkStage (.acted 1) (.promise d r.wasFull r.hadRec)) ∧ t.mem = s.mem ∧
          sget (s.seq + 1) t.promReqs = some r ∧ (t.here.sreg d).full = false ∧
          r = { req (.pget d) (reg64 s a) 0 with
                  record := s.seq, wasFull := (c.sreg d).full, hadRec := c.recs.any fun k => !k.isV && k.reg == d }) ∧
      (c.stage = .fresh → ∀ i, writers i ∨ i = .pget g d a ∨ i = .ptry g d a ∨ i = .pstat g d a f →
        (waiting = true → exec i s = .next (s.parkReplay .request)) ∧
        (waiting = false → poisS s a = true → Raises i s 0x10 (BitVec.ofNat 64 a.toNat))) ∧
      (c.stage = .answered v pois → exec (.pinit g a) s = .next s.finish ∧ exec (.pfill g a b) s = .next s.finish ∧
        exec (.peq g a b) s = .next (acquired .dev s).finish) ∧
      (c.stage = .refused code val → ∀ i, writers i ∨ i = .pget g d a → Raises i s code val) ∧
      (∀ full under, c.stage = .acted 1 → c.wait = .promise d full under → (∀ k ∈ c.recs, ¬(k.op = .remote false ∧ k.isV = false ∧ k.reg = d)) →
        exec (.pget g d a) s = .next (acquired .dev s).finish)) ∧
    (acts →
      (r.op = .pinit → ∃ t, told t (.answered 0 false) ∧ t.mem = (u.mem.write l.key 8 0).write (l.key + 8) 8 0 ∧
        woken t l.key 0 true) ∧
      (r.op = .pfill x → word = ctl 0 rank 0 → ∃ t, told t (.answered 0 false) ∧
        t.mem = (u.mem.write l.key 8 x.toNat).write (l.key + 8) 8 (ctl 1 rank 0) ∧ woken t l.key (sx72 x) false) ∧
      (r.op = .pfill x → word = ctl 1 rank 0 → value = x.toNat → ∃ t, told t (.answered 0 false) ∧ t.mem = u.mem) ∧
      (r.op = .pfill x → word = ctl 1 rank 0 → value ≠ x.toNat → ∃ t, told t (.refused 0x40 r.a) ∧ t.mem = u.mem) ∧
      (r.op = .pget reg → word = ctl 1 rank 0 → ∃ t, fills t value) ∧
      (r.op = .pget reg → word = ctl 0 rank 0 → ∃ t : State, exec .promiseRequest s = .next t ∧ t.mem = u.mem ∧
        sget q t.promReqs = none ∧ t.promises = u.promises ++ [⟨r.core, r.cx, l.key, ⟨r.core, r.cx, false, reg, r.gen, r.record⟩⟩]) ∧
      (r.op = .ptry reg → (word = ctl 1 rank 0 → ∃ t, fills t 1) ∧ (word = ctl 0 rank 0 → ∃ t, fills t 0)) ∧
      (r.op = .pstat reg 1 → word = ctl 0 rank 0 ∨ word = ctl 1 rank 0 → ∃ t, fills t r.a.toNat) ∧
      (r.op = .pstat reg 3 → word = ctl 0 rank 0 ∨ word = ctl 1 rank 0 → ∃ t, fills t 0) ∧
      (r.op = .pget reg → word = ctl 2 rank (m.va.toNat / 16) → m.va.toNat < 2 ^ 60 → m.va.toNat % 16 = 0 → m.key ≠ l.key →
        u.engineAddr (r.under (u.agentHive l.key)) m.va .load = (.ok m, u) → plain m → u.mem.read (m.key + 8) 8 = ctl 0 rk2 0 → rk2 < 64 →
        ∃ t : State, exec .promiseRequest s = .next t ∧ t.mem = u.mem ∧
          t.promises = u.promises ++ [⟨r.core, r.cx, m.key, ⟨r.core, r.cx, false, reg, r.gen, r.record⟩⟩]) ∧
      (r.op = .peq → u.engineAddr (r.under here) ((0 : Byte) ++ r.b) .atomic = (.ok m, u) → plain m → rk2 < 64 →
        u.mem.poisoned m.key 8 = false →
        (m.key = l.key → word = ctl 0 rank 0 ∨ word = ctl 1 rank 0 → ∃ t, told t (.answered 0 false) ∧ t.mem = u.mem) ∧
        (l.key + 16 ≤ m.key ∨ m.key + 16 ≤ l.key →
          (word = ctl 1 rank 0 → u.mem.read (m.key + 8) 8 = ctl 1 rk2 0 → value ≠ u.mem.read m.key 8 →
            ∃ t, told t (.refused 0x40 r.a) ∧ t.mem = u.mem) ∧
          (word = ctl 0 rank 0 → u.mem.read (m.key + 8) 8 = ctl 0 rk2 0 → r.a.toNat < 2 ^ 60 → r.b.toNat < 2 ^ 60 →
            ∃ t : State, told t (.answered 0 false) ∧
              if rank < rk2 ∨ (rank = rk2 ∧ r.b.toNat < r.a.toNat) then
                t.mem = (u.mem.write (l.key + 8) 8 (ctl 2 rank (r.b.toNat / 16))).write (m.key + 8) 8
                  (ctl 0 (if rank = rk2 then min 63 (rank + 1) else rk2) 0) ∧
                t.promises = u.promises.map fun w => if w.cell = l.key then { w with cell := m.key } else w
              else
                t.mem = (u.mem.write (m.key + 8) 8 (ctl 2 rk2 (r.a.toNat / 16))).write (l.key + 8) 8
                  (ctl 0 (if rank = rk2 then min 63 (rank + 1) else rank) 0) ∧
                t.promises = u.promises.map fun w => if w.cell = m.key then { w with cell := l.key } else w))))

/-! ### Licences, matrix engines, bit streams -/

/-- R394-R404, R66: the licence forms trap in a launch that uses no matrix; `lic.acq` makes a request and waits, or sets the mode
of a licence held; `lic.rel` and `lic.give` let it go at the end of what the engine executes; a Free licence goes to a core that
asks, to the other one than last time when both do. `mcmd` sends a command, after Release(dev), to an engine with space, whose
acceptance checks its capability, against the key that `mcapk` held at the start of the cycle (R400), and its encoding; `mfin` waits
for the thread's commands and reads the engine. That a licence which is to leave waits for a begun drain, as R401 says of a k-step,
is the model's choice (log 55). -/
def Obligations.LicenceForms : Prop :=
  ∀ (s : State) (g d a b : BitVec 4) (x : Bool) (v : W512) (e pair : Nat) (m : Cmd) (i : Instr) (cause : Byte),
    let core := s.sel.1
    let c := s.here
    let mine := s.lic (pairOf core)
    let lf (i : Instr) : Prop := i = .licAcq g x ∨ i = .licRel g ∨ i = .licGive g
    let able := ((sget c.launch s.launches).map (·.matrix)).getD false = true
    let held := mine.holder = some core ∧ mine.move ≠ .pass
    let idle := (s.eng core).run = none ∧ (s.eng core).queue = []
    let asking : LicReq := { core := core, cx := s.sel.2, excl := x, since := s.now }
    let requested : State := { s with licReqs := s.licReqs ++ [asking] }
    let sends : Cmd :=
      { word := (c.vreg b).val.extractLsb' 0 256, core := core, cx := s.sel.2, gen := c.generation, launch := c.launch,
        delta := c.delta }
    let target := ((reg64 s a).extractLsb' 0 11).toNat
    let room := (s.eng target).queue.length + (s.cmds.filter fun c => c.1 == target).length < 2 ∧ c.tiles ≠ 255 ∧
      s.combSaved (combOf target) c.launch = false
    let runs := (s.eng core).run ≠ none ∨ ∃ x, (s.eng core).queue.head? = some x ∧ x.begun = true ∧ x.drain = true
    let under : State := { s with cmds := s.cmds ++ [(target, sends)] }
    let taken : State := { s with cmds := s.cmds.erase (e, m) }
    let lo := pair / 512 * 1024 + pair % 512
    let asks (k : Nat) : Prop := ∃ r ∈ s.licReqs, r.core = k
    let key : W32 := match (s.core e).oldKey with
      | some (t, k) => if t = s.now then k else (s.core e).mcapk
      | none => (s.core e).mcapk
    let accepts := s.event = .commandAccept e ∧ (s.cmds.find? fun c => c.1 == e) = some (e, m) ∧ m.core < 2048 ∧
      s.combSaved (combOf e) m.launch = false ∧ (s.eng e).queue.length < 2
    (Takes s g →
      (¬able → (∀ i, lf i → Raises i s 0x50 0) ∧
        (poisS s a = false → poisV s b = false → Raises (.mcmd g a b) s 0x50 0)) ∧
      (poisS s a = true → Raises (.mcmd g a b) s 0x13 (BitVec.ofNat 64 a.toNat) ∧
        Raises (.mfin g d a) s 0x13 (BitVec.ofNat 64 a.toNat)) ∧
      (poisS s a = false → poisV s b = true → Raises (.mcmd g a b) s 0x13 (BitVec.ofNat 64 (16 + b.toNat))) ∧
      (able →
        (c.stage = .fresh → held → exec (.licAcq g x) s = .next (s.setLic (pairOf core) { mine with excl := x }).finish) ∧
        (c.stage = .fresh → ¬held → exec (.licAcq g x) s = .next (requested.parkStage (.acted 1) .licence)) ∧
        (c.stage = .answered v x → exec (.licAcq g x) s = .next s.finish) ∧
        (¬held → exec (.licRel g) s = .next s.finish ∧ exec (.licGive g) s = .next s.finish) ∧
        (held → idle → exec (.licRel g) s = .next (s.setLic (pairOf core) ⟨none, false, .stay, some core⟩).finish ∧
          ∃ t : State, exec (.licGive g) s = .next t.finish ∧ (t.lic (pairOf core)).holder = some (twinOf core) ∧
            (t.lic (pairOf core)).last = some core ∧ t.mem = s.mem ∧ (∀ r ∈ t.licReqs, r.core ≠ twinOf core)) ∧
        (held → runs →
          exec (.licRel g) s = .next (s.setLic (pairOf core) { mine with move := .free }).finish ∧
          exec (.licGive g) s = .next (s.setLic (pairOf core) { mine with move := .pass }).finish) ∧
        (poisS s a = false → poisV s b = false → Released s .dev →
          (room → exec (.mcmd g a b) s = .next ((under.modHere fun c => { c with tiles := c.tiles + 1 }).later
            (.commandAccept target)).finish) ∧
          (¬room → exec (.mcmd g a b) s = .next (s.parkReplay (.engineSpace target))))) ∧
      (poisS s a = false → c.tiles ≠ 0 → exec (.mfin g d a) s = .next (s.parkReplay .engineDone)) ∧
      (poisS s a = false → c.tiles = 0 → ∃ y : W64,
        exec (.mfin g d a) s = .next (acquired .dev (s.modHere fun c => c.setS d (sx72 y) false)).finish ∧
        (let en := s.eng target
         let l := s.lic (pairOf target)
         y.extractLsb' 0 36 = 0 ∧ (y.getLsbD 36 = true ↔ asks (twinOf target)) ∧ (y.getLsbD 37 = true ↔ asks target) ∧
           y.getLsbD 38 = (l.holder.isSome && l.excl) ∧ (y.getLsbD 39 = true ↔ l.holder = some (twinOf target)) ∧
           (y.getLsbD 40 = true ↔ l.holder = some target) ∧ y.extractLsb' 41 2 = BitVec.ofNat 2 en.queue.length ∧
           y.getLsbD 43 = en.bad ∧ y.getLsbD 44 = (en.accs.any fun x => x.2.nan) ∧
           y.getLsbD 45 = (en.accs.any fun x => x.2.ovf) ∧
           y.extractLsb' 46 2 = (match en.chain with | .idle => 0 | .opened => 1 | .closed => 2) ∧
           y.extractLsb' 48 16 = en.id))) ∧
    (accepts →
      (m.word.extractLsb' 216 32 = key → ∀ i, decodeTile e m.word = .ok i →
        exec .commandAccept s = .next (taken.modEng e fun g => { g with queue := g.queue ++ [m] })) ∧
      (m.word.extractLsb' 216 32 ≠ key ∨ decodeTile e m.word = .error cause → ∃ (t : State) (z : Byte),
        exec .commandAccept s = .next t ∧ t.cmds = s.cmds.erase (e, m) ∧ (t.eng e).queue = (s.eng e).queue ∧
        z = (if m.word.extractLsb' 216 32 ≠ key then 0x51 else cause) ∧
        ((s.core m.core).mailbox.length < 32 → (t.core m.core).mailbox = (s.core m.core).mailbox ++
          [#v[BitVec.ofNat 64 (3 + m.cx * 2 ^ 8 + e * 2 ^ 11), z.setWidth 64, m.word.extractLsb' 192 64,
              m.word.extractLsb' 128 64]]))) ∧
    (s.event = .licenceGrant pair → (s.lic pair).holder = none →
      (asks lo → ¬asks (twinOf lo) → ∃ t : State, exec .licenceGrant s = .next t ∧ (t.lic pair).holder = some lo ∧
        t.mem = s.mem) ∧
      (asks (twinOf lo) → ¬asks lo → ∃ t : State, exec .licenceGrant s = .next t ∧ (t.lic pair).holder = some (twinOf lo)) ∧
      (asks lo → asks (twinOf lo) → ∃ t : State, exec .licenceGrant s = .next t ∧
        (t.lic pair).holder = if (s.lic pair).last = some lo then some (twinOf lo) else some lo) ∧
      (¬asks lo → ¬asks (twinOf lo) → exec .licenceGrant s = .next s)) ∧
    (s.event = .coopHandover (pairOf e) → (s.lic (pairOf e)).holder = some e → (s.lic (pairOf e)).excl = false →
      (s.lic (pairOf e)).move = .stay → asks (twinOf e) → (s.eng e).queue = [] → (s.eng e).run = none →
      (s.eng e).chain ≠ .opened ∨ (s.eng e).ended = true → ∃ t : State, exec .coopHandover s = .next t ∧
        (t.lic (pairOf e)).holder = some (twinOf e) ∧ (t.lic (pairOf e)).last = some e ∧ (t.eng e).ended = false)

/-- R389-R399, R405-R407: a command at the head of an engine's queue, on a core that holds the licence: `mbegin` opens a chain with
zero accumulators, `mzero` clears them, `mend` closes the chain, `mstep` begins its k-steps in any order, each for 272 DA DB
energy units and 2 DA DB cycles, those of an `mstep` behind it among them, `mdrain` writes the converted accumulators and sends its wake once they are acknowledged. A
command against the chain's state is rejected with 0x52, one outside the scratchpad with 0x53, one without a licence with
0x50. -/
def Obligations.TileCommands : Prop :=
  ∀ (s : State) (e a2 b2 da2 db2 : Nat) (tag : W32) (chain : W16) (anchor : Byte) (a b o : BitVec 24) (n dest : BitVec 12)
    (da db f : BitVec 4) (w : BitVec 6) (c d : Cmd) (cs : List Cmd) (r : KRun), e < 2048 → c.core < 2048 →
    let en := s.eng e
    let lic := s.lic (pairOf e)
    let begin_ : Instr := .mbegin e tag chain anchor
    let step_ : Instr := .mstep e tag chain a b n da db
    let drain : Instr := .mdrain e tag chain dest o w f
    let head (i : Instr) : Prop := en.queue = c :: cs ∧ decodeTile e c.word = .ok i ∧ s.halts e = false ∧
      ∀ x, en.run = some x → x.dead = false
    let ready (i : Instr) : Prop := head i ∧ c.begun = false ∧ lic.holder = some e ∧ lic.move = .stay
    let isOpen := en.chain = .opened ∧ en.id = chain
    let sender (t : State) : Prop := (s.ctx c.core c.cx).generation = c.gen →
      (t.ctx c.core c.cx).tiles = (s.ctx c.core c.cx).tiles - 1
    let does (i : Instr) (f : Engine → Engine) : Prop := ∃ t : State, exec i s = .next t ∧
      t.eng e = f { en with ended := false, queue := cs } ∧ sender t ∧ t.mem = s.mem ∧ t.flights = s.flights
    let rejects (i : Instr) (cause : Byte) : Prop := ∃ t : State, exec i s = .next t ∧ (t.eng e).queue = cs ∧ sender t ∧
      (t.eng e).accs = en.accs ∧ ((s.core c.core).mailbox.length < 32 → ∃ x : MailEntry,
        (t.core c.core).mailbox = (s.core c.core).mailbox ++ [x] ∧ x[1] = cause.setWidth 64)
    let m (o : BitVec 24) : Nat := ((BitVec.ofNat 32 (s.mem.read (scratchKey e o.toNat) 4)).extractLsb' 12 4).toNat + 1
    let span (o : BitVec 24) : Nat := o.toNat + 64 * n.toNat * (4 * (m o + 3))
    let fits := a.toNat < 2 ^ 18 ∧ b.toNat < 2 ^ 18 ∧ span a ≤ 2 ^ 18 ∧ span b ≤ 2 ^ 18
    let words := en.drainWords f.toNat
    let starts (t : State) (second : Bool) (c : Cmd) (da db : Nat) : Prop := ∃ k, k ∈ c.left ∧
      (t.eng e).run = some { second := second, block := k, till := s.now + 2 * da * db } ∧ t.mem = s.mem ∧
      (t.core e).ebal = (s.core e).ebal - BitVec.ofNat 20 (272 * da * db)
    -- words written while the k-step ran, old or new by free choice (R388)
    let olds := s.chooseOld r.seen (r.seen.map (·.1)).eraseDups
    (ready begin_ → en.chain ≠ .opened → does begin_ fun g =>
      { g with chain := .opened, id := chain, owner := c.launch, delta := c.delta, anchor := anchor, accs := [], bad := false }) ∧
    (ready begin_ → en.chain = .opened → rejects begin_ 0x52) ∧
    (ready (.mzero e tag chain) → isOpen → does (.mzero e tag chain) fun g => { g with accs := [] }) ∧
    (ready (.mzero e tag chain) → ¬isOpen → rejects (.mzero e tag chain) 0x52) ∧
    (ready (.mend e tag chain) → isOpen → does (.mend e tag chain) fun g => { g with chain := .closed, ended := true }) ∧
    (ready (.mend e tag chain) → ¬isOpen → rejects (.mend e tag chain) 0x52) ∧
    (ready step_ → fits → isOpen → exec step_ s = .next (s.modEng e fun g =>
      { g with ended := false, queue := { c with begun := true, left := List.range n.toNat } :: cs })) ∧
    (head step_ → c.begun = false → c.checked = false → ¬fits → rejects step_ 0x53) ∧
    (head step_ → c.begun = false → fits → lic.holder ≠ some e → (∃ r ∈ s.licReqs, r.core = e) → exec step_ s = .next (s.modEng e
      fun g => { g with queue := { c with checked := true } :: cs })) ∧
    (ready step_ → fits ∨ c.checked = true → ¬isOpen → rejects step_ 0x52) ∧
    (ready drain → o.toNat + drainSize f.toNat ≤ 2 ^ 18 → en.chain ≠ .idle → en.id = chain → exec drain s =
      .next ((s.modEng e fun g => { g with ended := false, queue := { c with begun := true } :: cs }).later (.drainComplete e))) ∧
    (head drain → c.begun = false → c.checked = false → 2 ^ 18 < o.toNat + drainSize f.toNat → rejects drain 0x53) ∧
    (head begin_ → c.begun = false → lic.holder ≠ some e → (∀ r ∈ s.licReqs, r.core ≠ e) → rejects begin_ 0x50) ∧
    (s.event = .kStep e → head step_ → c.begun = true → en.run = none → lic.holder = some e → lic.move = .stay →
      (c.left ≠ [] → s.nextStep e = none ∨ (s.pick 2).1 ≠ 1 →
        (272 * da.toNat * db.toNat ≤ (s.core e).ebal.toNat → ∃ t : State, exec .kStep s = .next t ∧
          starts t false c da.toNat db.toNat)) ∧
      (c.left ≠ [] → s.nextStep e = none → (s.core e).ebal.toNat < 272 * da.toNat * db.toNat → exec .kStep s = .next s) ∧
      (s.nextStep e = some d → (s.pick 2).1 = 1 → d.stepArgs = some (a2, b2, da2, db2) → d.left ≠ [] →
        272 * da2 * db2 ≤ (s.core e).ebal.toNat → ∃ t : State, exec .kStep s = .next t ∧ starts t true d da2 db2)) ∧
    (s.event = .kStep e → head step_ → c.begun = true → en.run = some r → r.second = false → lic.move = .stay →
      (s.now < r.till → exec .kStep s = .next s) ∧
      (r.till ≤ s.now → c.left = [r.block] → (∀ d ∈ cs, d.begun = false) → ∃ t : State, exec .kStep s = .next t ∧ t.mem = s.mem ∧
        (t.eng e).queue = cs ∧ (t.eng e).run = none ∧ sender t ∧
        (t.eng e).accs = ((olds.2.applyBlock olds.1 e a.toNat b.toNat da.toNat db.toNat r.block).eng e).accs)) ∧
    (s.event = .drainComplete e → head drain → c.begun = true →
      (c.first = 0 → lic.holder = some e → s.combSaved (combOf dest.toNat) c.launch = false → ∃ t : State, exec .drainComplete s = .next t ∧ t.mem = s.mem ∧
        (t.flights.length = s.flights.length + words.length) ∧ Event.drainComplete e ∈ t.agenda ∧
        ∀ i, i < words.length → ∃ x, t.flights[s.flights.length + i]? = some x ∧ x.by_ = .engine e ∧ x.len = 4 ∧
          x.loc.key = scratchKey dest.toNat (o.toNat + 4 * i) ∧
          x.op = .bytes (cellsOf (scratchKey dest.toNat (o.toNat + 4 * i)) (words.getD i 0).toNat 4) []) ∧
      (c.first ≠ 0 → lic.holder = some e → (∀ x ∈ s.flights, x.by_ ≠ .engine e) → ∃ (t : State) (y : Msg), exec .drainComplete s = .next t ∧
        (t.eng e).queue = cs ∧ sender t ∧ Event.messageArrival y ∈ t.agenda ∧ y.core = dest.toNat ∧ y.chan = w ∧
        y.sender = .engine e ∧ y.launch = c.launch ∧ y.pay[0] = chain.setWidth 64 ∧ y.pay[1] = BitVec.ofNat 64 e ∧
        y.pay[2] = o.setWidth 64 ∧ y.pay[3] = f.setWidth 64))

/-- R190-R195: the bit streams of a forager in its scratchpad. `bsget` and `bspeek` fill sD with the bits at the input position,
which `bsget`, `bsskip` and `bsalign` move on, once no earlier access of the words is under way; `bsput` and `bsalign.w` append
to the output word, which is stored as it fills; `bsflush` stores a part of a word and gives the position; misuse traps with 0x0D
and its code. `fwait` waits for bytes in a ring. That `bsget` and `bspeek` wait for earlier stores and fix their value as they
issue, in a record, is the model's choice (log 51). -/
def Obligations.BitStreamForms : Prop :=
  ∀ (s : State) (g d a b : BitVec 4) (n : BitVec 5) (w : Bool) (q : Ring) (gr : Group), Takes s g →
    let core := s.sel.1
    let c := s.here
    let k := n.toNat + 1
    let i := c.bsIn
    let o := c.bsOut
    let ip := i.pos.toNat
    let op := o.pos.toNat
    let base := (reg64 s a).toNat
    let len : W32 := (reg64 s b).extractLsb' 0 32
    let code (i : Instr) (n : Nat) : Prop := Raises i s 0x0D (BitVec.ofNat 64 n)
    let inRange (x : Nat) : Prop := gr.sbase * 4096 ≤ x ∧ x + 8 ≤ (gr.sbase + gr.ssize) * 4096 ∧ x < 2 ^ 18
    let word (x : Stream) (j : Nat) : Nat := x.base.toNat + 8 * j
    let good := s.group c.group = some gr ∧ inRange (word i (ip / 64)) ∧ inRange (word i ((ip + k - 1) / 64)) ∧ i.kept = [] ∧
      s.mem.poisoned (scratchKey core (word i (ip / 64))) 8 = false ∧
      s.mem.poisoned (scratchKey core (word i ((ip + k - 1) / 64))) 8 = false
    let ws := if ip % 64 + k ≤ 64 then [ip / 64] else [ip / 64, ip / 64 + 1]
    let wordAt (x : Nat) : Loc := { win := .own, key := scratchKey core x, va := (0xF0 : Byte) ++ BitVec.ofNat 64 x, leaf := 0 }
    let first (x : Nat) : Prop := s.behind core s.sel.2 s.seq (wordAt x) 8 = false ∧ s.portTaken s.seq (wordAt x) = false ∧
      s.storesHeld core s.sel.2 = false
    let bits := s.mem.read (scratchKey core (word i (ip / 64))) 16 / 2 ^ (ip % 64) % 2 ^ k
    let reads (j : Instr) (pos : W32) : Prop := ∃ t : State, exec j s = .next t.finish ∧ t.mem = s.mem ∧ t.here.bsIn.pos = pos ∧
      t.here.bsIn.base = i.base ∧ t.here.bsIn.len = i.len ∧ (t.here.sreg d).full = false ∧
      Event.fill core s.sel.2 false d ∈ t.agenda ∧
      ((∀ x ∈ c.recs, x.seq < s.seq) → ∃ r ∈ t.here.recs, r.seq = s.seq ∧ r.isV = false ∧ r.reg = d ∧
        r.got = some (BitVec.ofNat 512 bits, false))
    let held (x m : Nat) : Nat := o.word.toNat % 2 ^ (op % 64) + x % 2 ^ m * 2 ^ (op % 64)
    let key := scratchKey core (word o (op / 64))
    let stored (t : State) (v : Nat) : Prop :=
      (first (word o (op / 64)) → t.mem = s.mem.write key 8 v ∧ t.flights = s.flights) ∧
      (¬first (word o (op / 64)) → t.mem = s.mem ∧ ∃ f : Flight, t.flights = s.flights ++ [f] ∧ f.loc.key = key ∧ f.len = 8 ∧
        f.by_ = .thread core s.sel.2 ∧ f.op = .bytes (cellsOf key v 8) [])
    let appends (j : Instr) (x m : Nat) : Prop :=
      (o.len.toNat < op + m → code j 3) ∧
      (op + m ≤ o.len.toNat → op % 64 + m < 64 → Alters j s fun c =>
        { c with bsOut := { o with pos := BitVec.ofNat 32 (op + m), word := BitVec.ofNat 64 (held x m) } }) ∧
      (op + m ≤ o.len.toNat → 64 ≤ op % 64 + m → s.group c.group = some gr → inRange (word o (op / 64)) →
        ∃ t : State, exec j s = .next t.finish ∧ stored t (held x m % 2 ^ 64) ∧
          t.here.bsOut = { o with pos := BitVec.ofNat 32 (op + m), word := BitVec.ofNat 64 (held x m / 2 ^ 64) })
    let skipTo (j : Instr) (pos : Nat) : Prop := (i.len.toNat < pos → code j 2) ∧
      (pos ≤ i.len.toNat → Alters j s fun c => { c with bsIn := { i with pos := BitVec.ofNat 32 pos } })
    (poisS s a = false → poisS s b = false →
      ((c.sreg a).val.extractLsb' 64 8 = 0xF0 → base % 8 = 0 → len.toNat ≤ 2097152 → base + (len.toNat + 7) / 8 ≤ 262144 →
        Alters (.bsinit g a b w) s fun c =>
          if w then { c with bsOut := { base := BitVec.ofNat 18 base, len := len } }
          else { c with bsIn := { base := BitVec.ofNat 18 base, len := len } }) ∧
      ((c.sreg a).val.extractLsb' 64 8 ≠ 0xF0 ∨ base % 8 ≠ 0 ∨ 2097152 < len.toNat ∨ 262144 < base + (len.toNat + 7) / 8 →
        code (.bsinit g a b w) 1)) ∧
    (poisS s a = true → Raises (.bsinit g a b w) s 0x10 (BitVec.ofNat 64 a.toNat) ∧
      Raises (.bsput g a n) s 0x11 (BitVec.ofNat 64 a.toNat) ∧ Raises (.fwait g d a) s 0x10 (BitVec.ofNat 64 a.toNat)) ∧
    (i.len.toNat < ip + k → code (.bsget g d n) 2 ∧ code (.bspeek g d n) 2) ∧
    (ip + k ≤ i.len.toNat → good →
      (s.streamHeld i ws = false → reads (.bsget g d n) (i.pos + BitVec.ofNat 32 k) ∧ reads (.bspeek g d n) i.pos) ∧
      (s.streamHeld i ws = true → exec (.bsget g d n) s = .next (s.parkReplay .home) ∧
        exec (.bspeek g d n) s = .next (s.parkReplay .home))) ∧
    (poisS s b = false → skipTo (.bsskip g b) (ip + len.toNat)) ∧
    skipTo (.bsalign g false) ((ip + 7) / 8 * 8) ∧
    (poisS s a = false → appends (.bsput g a n) base k) ∧
    appends (.bsalign g true) 0 ((8 - op % 8) % 8) ∧
    (op % 64 = 0 → WritesS (.bsflush g d) s d (sx72 (BitVec.ofNat 64 op)) false) ∧
    (op % 64 ≠ 0 → s.group c.group = some gr → inRange (word o (op / 64)) → ∃ t : State, exec (.bsflush g d) s = .next t.finish ∧
      stored t (o.word.toNat % 2 ^ (op % 64)) ∧ t.here.sreg d = ⟨sx72 (BitVec.ofNat 64 op), (c.sreg d).full, false⟩) ∧
    (poisS s a = false → s.ringOf (reg64 s a) = none →
      Raises (.fwait g d a) s 0x55 (BitVec.ofNat 64 ((reg64 s a).toNat % 16 + 256))) ∧
    (poisS s a = false → s.ringOf (reg64 s a) = some q →
      (q.filled = 0 → exec (.fwait g d a) s = .next (s.parkReplay (.ringFilled (reg64 s a).toNat 1))) ∧
      (q.filled ≠ 0 → WritesS (.fwait g d a) s d (sx72 (BitVec.ofNat 64 q.filled)) false))

/-! ### Nectar -/

/-- R411-R428: `ninst` reads its request at its home and offers it to the installer, which accepts it with code 1 and starts
to erase, or refuses it with a code that applies; `nwait` waits while the extent is Installing and gives its last code; `nstat`
gives the state of a block, of the spares of a stack, of an extent, or a block's physical id; `nretire` turns a Sealed extent into
a Superseded one, cancels an install, or retires a Blank one. An install erases its blocks and counts them, remaps what
fails, programs 64 KiB units with zeros past the count, reads the contents back and seals the extent with its digest, or ends
in a code; a superseded extent is Retired once its reads are complete; all of them wait while the walk to the descriptor does; a
staged line takes the place of the least recently used line of its set. That erases, programs and the comparison fail by free choice
(log 32), that a descriptor which is not well-formed has code 3 and a misaligned digest address code 11 (log 33), and that a page of
another kind found later in the source has code 2 (log 34), is the model's choice. -/
def Obligations.NectarForms : Prop :=
  ∀ (s t0 : State) (g d a : BitVec 4) (f : BitVec 2) (l l2 : Loc) (i n w q block : Nat) (rest : List Nat) (x : Install) (fault : Nat),
    MemOk s →
    let c := s.here
    let core := s.sel.1
    let h := chosen s
    let idx := (reg64 s a).toNat
    let mine : Starter := .thread core s.sel.2
    let request := s.mem.read l.key 64
    let plain := PlainPlace s l ∧ s.mem.poisoned l.key 64 = false
    let parsed := parseInstall request mine c.ptroot c.asid (!c.priv)
    let e := s.extent i
    let ei := s.extent idx
    let busy := e.st ≠ .blank ∨ e.wellFormed = false ∨ ∃ k ∈ s.extents, k.1 ≠ i ∧ k.2.st ≠ .blank ∧ k.2.st ≠ .retired ∧
      e.base < k.2.base + k.2.len ∧ k.2.base < e.base + e.len
    let skew := 0xF0 ≤ (x.src.extractLsb' 64 8).toNat ∨ (x.src.extractLsb' 0 64).toNat % 64 ≠ 0 ∨ x.count % 2 ^ 16 ≠ 0 ∨
      x.count = 0 ∨ (x.digest.extractLsb' 0 64).toNat % 64 ≠ 0 ∨
      s.strangePage x.ptroot (pageKey x.src) (((x.src.extractLsb' 0 64).toNat % 2 ^ 16 + x.count + 2 ^ 16 - 1) / 2 ^ 16) = true
    let blocks := (List.range ((e.len + 2 ^ 24 - 1) / 2 ^ 24)).map fun k => e.base / 2 ^ 24 + k
    let told := s.sysTold 0 (s.extVA i)
    let toldIdx := s.sysTold 0 (s.extVA idx)
    let hb := chosen told
    let waitsFor (i : Nat) : State := s.sysAsk 0 (s.extVA i)
    let sys (t : State) (j : Instr) (y : W64) : Prop :=
      exec j s = .next (acquired .sys (t.modHere fun c => c.setS d (sx72 y) false)).finish
    let j := Instr.nstat g d a f
    let m := s.nblock (idx % 2 ^ 18)
    let unit := e.units
    let key := 2 ^ 49 + e.base + unit * 2 ^ 16
    let hash := ofBytes (sha512 (s.mem.bytes (2 ^ 49 + e.base) e.len))
    let src := mkVA (x.src.extractLsb' 64 8) (x.src.extractLsb' 0 64 + BitVec.ofNat 64 (unit * 2 ^ 16))
    let last := vaPlus src 16368
    let running := sget i s.installs = some x ∧ i < 4096
    let programs (data : Nat) : Prop := ∃ t : State, exec .unitProgram s = .next t ∧
      sget i t.extents = some { e with units := unit + 1 } ∧ sget i t.installs = some { x with stall := none } ∧
      (∀ k, k < 2 ^ 16 → (t.mem.byte (key + k)).toNat = data / 256 ^ k % 256) ∧ MemKept s t key (2 ^ 16) ∧
      (if e.len ≤ (unit + 1) * 2 ^ 16 then Event.installComplete i else Event.unitProgram i) ∈ t.agenda
    let kindOk (l : Loc) : Prop := leafKind l.leaf = 0 ∨ leafKind l.leaf = 2
    let spoils : Prop := exec .unitProgram s = .next (told.endInstall i x 2)
    let seals : Prop := ∃ t : State, exec .installComplete s = .next t ∧ sget i t.installs = none ∧
      sget i t.extents = some { e with st := .sealed, code := if x.remapped then 4 else 0, digest := BitVec.ofNat 256 hash }
    (Takes s g →
      (AtHome s l 64 → plain → parsed = some (i, x) → s.extWaits i = true →
        exec (.ninst g d a) s = .next ((h.sysAsk 0 (s.extVA i)).parkStage (.acted 1) .home)) ∧
      (poisS s a = false → s.extWaits (idx % 4096) = true →
        exec (.nstat g d a 2) s = .next ((waitsFor (idx % 4096)).parkReplay .home) ∧
        (idx < 4096 → exec (.nwait g d a) s = .next ((waitsFor idx).parkReplay .home) ∧
          exec (.nretire g a) s = .next ((waitsFor idx).parkReplay .home)))) ∧
    (s.extWaits i = true →
      (s.event = .blockErase i → exec .blockErase s = .next ((waitsFor i).later (.blockErase i))) ∧
      (s.event = .unitProgram i → exec .unitProgram s = .next ((waitsFor i).later (.unitProgram i))) ∧
      (s.event = .installComplete i → i < 4096 → exec .installComplete s = .next ((waitsFor i).later (.installComplete i))) ∧
      (s.event = .supersedeDrain i → exec .supersedeDrain s = .next ((waitsFor i).later (.supersedeDrain i)))) ∧
    (s.extWaits i = false → s.extWaits (idx % 4096) = false →
    (Takes s g →
      (poisS s a = true → Raises (.nwait g d a) s 0x10 (BitVec.ofNat 64 a.toNat) ∧
        Raises (.nstat g d a f) s 0x10 (BitVec.ofNat 64 a.toNat) ∧ Raises (.nretire g a) s 0x10 (BitVec.ofNat 64 a.toNat) ∧
        (c.stage = .fresh → Raises (.ninst g d a) s 0x10 (BitVec.ofNat 64 a.toNat))) ∧
      (c.stage = .fresh → poisS s a = false → Reaches s [(c.sreg a).val] 64 .load [l] t0 → Released t0 .sys →
        exec (.ninst g d a) s = .next (waitsAt t0 [l])) ∧
      (AtHome s l 64 → plain →
        (parsed = none → exec (.ninst g d a) s = .next (h.raise 0x56 1)) ∧
        (parsed = some (i, x) → c.priv = false → e.asid ≠ c.asid → exec (.ninst g d a) s = .next (h.raise 0x56 2)) ∧
        (parsed = some (i, x) → c.priv = true ∨ e.asid = c.asid →
          (¬busy → x.count ≤ e.len → ¬skew → ∃ t : State, exec (.ninst g d a) s = .next t.finish ∧
            t.here.sreg d = ⟨sx72 1, (c.sreg d).full, false⟩ ∧ sget i t.installs = some { x with erase := blocks } ∧
            sget i t.extents = some { e with st := .installing, code := s.lastCode i, installs := e.installs + 1, units := 0 } ∧
            Event.blockErase i ∈ t.agenda) ∧
          (busy ∨ e.len < x.count ∨ skew → ∃ (t : State) (z : Byte), exec (.ninst g d a) s = .next t.finish ∧
            t.here.sreg d = ⟨sx72 (z.setWidth 64), (c.sreg d).full, false⟩ ∧ t.extents = s.extents ∧ t.installs = s.installs ∧
            MemSame s t ∧ ((z = 9 ∧ e.st = .sealed) ∨ (z = 3 ∧ e.st ≠ .sealed ∧ busy) ∨ (z = 10 ∧ e.len < x.count) ∨
              (z = 11 ∧ skew))))) ∧
      (poisS s a = false → 4096 ≤ idx → Raises (.nwait g d a) s 0x56 1 ∧ Raises (.nretire g a) s 0x56 1) ∧
      (poisS s a = false → idx < 4096 →
        (ei.st = .installing → exec (.nwait g d a) s = .next (toldIdx.parkReplay (.install idx))) ∧
        (ei.st ≠ .installing → sys toldIdx (.nwait g d a) ((s.lastCode idx).setWidth 64)) ∧
        (c.priv = false → ei.asid ≠ c.asid → exec (.nretire g a) s = .next (toldIdx.raise 0x56 2)) ∧
        (c.priv = true ∨ ei.asid = c.asid →
          (ei.st = .sealed → exec (.nretire g a) s =
            .next ((toldIdx.setExtent idx { ei with st := .superseded }).later (.supersedeDrain idx)).finish) ∧
          (ei.st = .blank → exec (.nretire g a) s = .next (toldIdx.setExtent idx { ei with st := .retired }).finish) ∧
          (ei.st = .installing → sget idx s.installs = some x →
            exec (.nretire g a) s = .next (toldIdx.setInstall idx { x with cancelled := true }).finish) ∧
          (ei.st = .superseded ∨ ei.st = .retired → exec (.nretire g a) s = .next toldIdx.finish))) ∧
      (poisS s a = false → ∃ y : W64, sys s j y ∧
        (f = 0 → idx % 2 ^ 16 ≤ 33750 → y.extractLsb' 0 32 = m.count ∧ y.getLsbD 32 = m.retired ∧
          y.getLsbD 33 = decide (32768 ≤ idx % 2 ^ 16) ∧ y.getLsbD 34 = s.holdsBlock (idx % 2 ^ 18) ∧ y.extractLsb' 35 29 = 0) ∧
        (f = 0 → 33750 < idx % 2 ^ 16 → y = 0) ∧
        (f = 1 → y = BitVec.ofNat 64 (s.spares (idx % 4)).length) ∧
        (f = 2 → let v := s.extent (idx % 4096)
          y.extractLsb' 0 8 = BitVec.ofNat 8 (match v.st with
            | .blank => 0 | .installing => 1 | .sealed => 2 | .superseded => 3 | .retired => 4) ∧
          y.extractLsb' 8 8 = s.lastCode (idx % 4096) ∧ y.extractLsb' 16 48 = BitVec.ofNat 48 v.units) ∧
        (f = 3 → y = if 131071 < idx then BitVec.allOnes 64 else BitVec.ofNat 64 (s.physOf idx)))) ∧
    (running → x.cancelled = true →
      (s.event = .blockErase i → exec .blockErase s = .next (told.endInstall i x 8)) ∧
      (s.event = .unitProgram i → exec .unitProgram s = .next (told.endInstall i x 8)) ∧
      (s.event = .installComplete i → exec .installComplete s = .next (told.endInstall i x 8))) ∧
    (∀ code : Byte, i < 4096 → e.st = .installing → let t := s.endInstall i x code
      sget i t.installs = none ∧
      sget i t.extents = some { e with st := if code = 0 ∨ code = 4 then .sealed else .blank, code := code } ∧
      (∀ k cx, x.by_ = .thread k cx → x.notice = true → (s.core k).mailbox.length < 32 →
        (t.core k).mailbox = (s.core k).mailbox ++
          [#v[BitVec.ofNat 64 (2 + cx * 2 ^ 8 + i * 2 ^ 11), code.setWidth 64, BitVec.ofNat 64 e.units, 0]])) ∧
    (running → x.cancelled = false → s.event = .blockErase i → x.erase ≠ [] →
      (∀ b ∈ x.erase, (s.nblock (s.physOf b)).count.toNat < 10000 ∧ (s.nblock (s.physOf b)).retired = false) → ∃ (t : State) (b : Nat), exec .blockErase s = .next t ∧
        b ∈ x.erase ∧ (t.nblock (s.physOf b)).count = (s.nblock (s.physOf b)).count + 1 ∧
        ((h.pick 2).1 = 0 → sget i t.installs = some { x with erase := x.erase.erase b } ∧ t.remaps = s.remaps ∧
          (if x.erase.erase b = [] then Event.unitProgram i else Event.blockErase i) ∈ t.agenda) ∧
        ((h.pick 2).1 = 1 → b < 131072 → s.spares (b % 4) = q :: rest → (t.nblock (s.physOf b)).retired = true ∧ t.physOf b = q ∧
          sget i t.installs = some { x with erase := x.erase.erase b, remapped := true })) ∧
    (running → x.cancelled = false → s.event = .blockErase i → x.erase = [block] → block < 131072 →
      (s.nblock (s.physOf block)).retired = true ∨ 10000 ≤ (s.nblock (s.physOf block)).count.toNat →
      (s.spares (block % 4) = q :: rest → ∃ t : State, exec .blockErase s = .next t ∧ t.physOf block = q ∧
        (t.nblock (s.physOf block)).retired = true ∧ (t.nblock (s.physOf block)).count = (s.nblock (s.physOf block)).count ∧
        sget i t.installs = some { x with remapped := true } ∧ Event.blockErase i ∈ t.agenda) ∧
      (s.spares (block % 4) = [] → e.st = .installing → i < 4096 → ∃ t : State, exec .blockErase s = .next t ∧
        (t.nblock (s.physOf block)).retired = true ∧ sget i t.installs = none ∧
        sget i t.extents = some { e with st := .blank, code := 5 })) ∧
    (running → x.cancelled = false → s.event = .unitProgram i →
      (e.len ≤ unit * 2 ^ 16 → exec .unitProgram s = .next (told.later (.installComplete i))) ∧
      (unit * 2 ^ 16 < e.len →
        ((s.pick 2).1 = 0 → x.count ≤ unit * 2 ^ 16 → programs 0) ∧
        (unit * 2 ^ 16 < x.count → told.engineAddr x.under src .load = (.ok l, told) → told.engineAddr x.under last .load = (.ok l2, told) →
          (kindOk l → kindOk l2 →
            (told.engineLines .installer x.under false src 1024 = (.val w false, told) → (s.pick 2).1 = 0 → programs w) ∧
            (told.engineLines .installer x.under false src 1024 = (.val w true, told) → spoils)) ∧
          (¬kindOk l ∨ ¬kindOk l2 → spoils)) ∧
        (unit * 2 ^ 16 < x.count → told.engineAddr x.under src .load = (.bad (BitVec.ofNat 8 fault), told) → spoils) ∧
        ((s.pick 2).1 = 1 → x.count ≤ unit * 2 ^ 16 → block = (e.base + unit * 2 ^ 16) / 2 ^ 24 → block < 131072 →
          s.spares (block % 4) = q :: rest → ∃ t : State, exec .unitProgram s = .next t ∧ t.physOf block = q ∧
          (t.nblock (s.physOf block)).retired = true ∧ sget i t.installs = some { x with remapped := true, stall := none } ∧
          MemSame s t ∧ Event.unitProgram i ∈ t.agenda))) ∧
    (running → x.cancelled = false → s.event = .installComplete i → e.len ≤ unit * 2 ^ 16 → e.st = .installing →
      ((s.pick 2).1 = 1 → exec .installComplete s = .next (hb.endInstall i x 6)) ∧
      ((s.pick 2).1 = 0 →
        (x.compare = false → seals) ∧
        (x.compare = true → hb.engineLines .installer x.under false x.digest 1 = (.val w false, hb) →
          (w = hash → seals) ∧ (w ≠ hash → exec .installComplete s = .next (hb.endInstall i x 6))))) ∧
    (∀ (k : Nat) (ctr : W72) (root : W64) (asid : W16), s.event = .installComplete n → 4096 ≤ n → sget n s.installs = some x →
      x.by_ = .queue k ctr root asid → s.engineAddr x.under ctr .red = (.ok l, s) → s.marked .installer l 8 = false →
      s.stalled l = false → l.win = .glob → PlainPlace s l → ∃ t : State, exec .installComplete s = .next t ∧
        sget n t.installs = none ∧ MemKept s t l.key 8 ∧
        t.mem.read l.key 8 = if s.mem.poisoned l.key 8 then s.mem.read l.key 8 else (s.mem.read l.key 8 + 1) % 2 ^ 64) ∧
    (s.event = .supersedeDrain i → e.st = .superseded →
      (s.openReads e = true → exec .supersedeDrain s = .next (told.later (.supersedeDrain i))) ∧
      (s.openReads e = false → ∃ t : State, exec .supersedeDrain s = .next t ∧
        sget i t.extents = some { e with st := .retired } ∧
        ∀ k line, line ∈ (t.hive k).staged ↔ line ∈ (s.hive k).staged ∧ e.covers (line * 2 ^ 16) = false)) ∧
    (s.event = .stagingFill n → let k := stagingHive n
      let same := stagingSet s.stagingSets n (s.hive k).staged
      n ∈ (s.hive k).staging → ∃ t : State, exec .stagingFill s = .next t ∧ MemSame s t ∧
        (t.hive k).staging = (s.hive k).staging.erase n ∧
        (s.sealedAt (2 ^ 49 + n * 2 ^ 16) = false → (t.hive k).staged = (s.hive k).staged) ∧
        (s.sealedAt (2 ^ 49 + n * 2 ^ 16) = true → same.length < 16 →
          (t.hive k).staged = n :: (s.hive k).staged.erase n) ∧
        (s.sealedAt (2 ^ 49 + n * 2 ^ 16) = true → 16 ≤ same.length → same.getLast? = some q →
          (t.hive k).staged = n :: ((s.hive k).staged.erase q).erase n)))

/-! ### The life of a context -/

/-- R129, R166, R178, R200, R203, R206, R209, R214, R269, R336: `exit` completes its V operation, waits until the thread's accesses
and transfers are complete, and retires the thread; the clear engine makes a cleared context Ready; a pending asynchronous
cause is taken at a boundary, and only a cancel in privileged mode; a cancelled context retires and breaks the device barrier
on which it waits; the watchdog raises 0x62, for which a parked thread leaves its park; a refill adds to `ebal` up to twice
`erefill`, half as much under the clamp; a retired context becomes Free once its stores are acknowledged and the counters of its unit
performed; a remote fill reaches its thread, after those of the register's earlier records, the slot of a saved thread, or
nobody. That done and trig of a unit rise in one step, where R337 has two adds (log 59), from the zero under the mark of a poisoned
word (log 88), and that the watchdog withdraws a `pget` and gives its register back (log 42), is the model's choice. -/
def Obligations.ContextEvents : Prop :=
  ∀ (s : State) (g : BitVec 4) (core cx a : Nat) (code : Byte) (val : W64) (raw : W512) (pois : Bool) (tag : FillTag) (r : ClearReq)
    (l : List ClearReq) (j k : Rec) (w : BarWaiter), MemOk s →
    let me := s.here
    let c := s.ctx core cx
    let drained := Released s .dev ∧ me.xfers = 0 ∧
      (me.follows = true ∨ me.unitid = BitVec.allOnes 64 ∨ s.followersRun me = false)
    let alone (c : Ctx) : Prop := s.group c.group = none ∧ sget c.launch s.launches = none
    let atomics (c : Ctx) : List Rec := c.recs.filter fun r => r.op.atomic && r.got.isNone
    let lasting := c.st ≠ .free ∧ c.st ≠ .reserved ∧ c.st ≠ .clearing ∧ c.st ≠ .retired
    let cancelled := s.event = .cancelDelivery core cx ∧ (∃ v, (0x61, v) ∈ c.asyncs) ∧
      ((c.st = .ready ∧ c.stage = .fresh) ∨ c.st = .parked ∨ c.st = .follower ∨ c.st = .migrating)
    let unit := c.follows = false ∧ c.unitid ≠ BitVec.allOnes 64
    let late := s.event = .watchdog core cx ∧ c.wdlim ≠ 0 ∧ c.wdlim.toNat * 2 ^ 16 ≤ s.now - c.wdStart ∧ lasting
    let counted : State := s.modCtx core cx fun c => { c with wdStart := s.now }
    let woken := (counted.unwait core cx).unpromise core cx
    let caught : State := s.modCtx core cx fun c => { c with asyncs := c.asyncs.erase (code, val) }
    let k0 := s.core core
    let refill := k0.erefill.toNat
    let trig := s.mem.read (a + 8) 8
    let done := s.mem.read a 8
    let after := if c.triggered then s else s.addTrig c.launchid 1
    let f := s.ctx tag.core tag.cx
    let owner := f.generation = tag.gen ∧ f.st ≠ .free
    let mine := f.recs.filter fun r => r.isV == tag.isV && r.reg == tag.reg
    let quiet (core cx : Nat) : Prop := ∀ f ∈ s.flights, f.by_ ≠ .thread core cx
    let shared := ∃ e ∈ s.cores, ∃ x, x < 7 ∧ (e.1, x) ≠ s.sel ∧ (s.ctx e.1 x).st ≠ .free ∧ (s.ctx e.1 x).st ≠ .reserved ∧
      (s.ctx e.1 x).group = me.group
    let open_ := ∀ l, sget me.launch s.launches = some l → s.reached l.node = false
    let held := s.followersRun c = true ∨ s.nodeWaits c.launchid nodeKinds = true
    (Takes s g →
      (me.stage = .fresh → exec (.exit g) s = .next ((s.modHere fun c =>
        { c.applyV with vres := .none, gang := none, gangid := 0 }).parkStage (.acted 1) .exitDrain)) ∧
      (me.stage = .acted 1 → ¬drained → exec (.exit g) s = .next (s.parkStage (.acted 1) .exitDrain)) ∧
      (me.stage = .acted 1 → drained →
        (me.follows = false → me.unitid ≠ BitVec.allOnes 64 → ∃ t : State, exec (.exit g) s = .next t ∧ t.here.st = .retired ∧
          t.here.recs = [] ∧ t.here.chan = none ∧ t.here.watch = none ∧ t.mem = s.mem ∧
          Event.counterAcknowledged s.sel.1 s.sel.2 ∈ t.agenda) ∧
        (me.follows = false → me.unitid = BitVec.allOnes 64 → quiet s.sel.1 s.sel.2 → alone me → ∃ t : State, exec (.exit g) s = .next t ∧
          t.here.st = .free ∧ t.here.generation = me.used + 1 ∧ t.mem = s.mem ∧
          (me.retRec = some tag → Event.remoteFill tag 0 true ∈ t.agenda)) ∧
        (me.follows = true → (s.followersOf me).contains s.sel = true → me.orphan = false →
          quiet s.sel.1 s.sel.2 → shared → open_ → ∃ t : State, exec (.exit g) s = .next t ∧
          t.here.st = .reserved ∧ t.here.generation = me.used + 1 ∧ t.mem = s.mem))) ∧
    (s.event = .clearDone core → k0.clears = r :: l → (∃ t, r.done = some t ∧ t ≤ s.now) → ∃ t : State,
      exec .clearDone s = .next t ∧ t.mem = s.mem ∧ (t.core core).clears.length = l.length ∧
      (∀ r' ls, l = r' :: ls → r'.done = none → (t.core core).clears =
        { r' with done := some (s.now + if r'.whole then 36 else 32) } :: ls) ∧
      (l = [] → r.cx < 8 → (s.ctx core r.cx).st = .clearing →
        (∀ z, s.group (s.ctx core r.cx).group = some z → z.zeroed ≤ s.now) →
        t.ctx core r.cx = { s.ctx core r.cx with st := .ready, wdStart := s.now })) ∧
    (s.event = .trapDelivery core cx → c.pending = some (code, val) → code ≠ 0x61 → c.st = .ready ∨ c.st = .follower →
      c.stage = .fresh →
      (let at_ := caught.nextBundle core cx fetchBlocks c.pc
       exec .trapDelivery s = .next (caught.deliver core cx true code val at_ (caught.peekCode core cx at_)))) ∧
    (c.pending = some (code, val) → (code, val) ∈ c.asyncs ∧ (c.priv = true → code = 0x61) ∧
      ((∃ v, (0x61, v) ∈ c.asyncs) → code = 0x61)) ∧
    (cancelled → c.gang = none → unit → (∀ v ∈ s.waiters, v.core = core → v.cx ≠ cx) → ∃ t : State,
      exec .cancelDelivery s = .next t ∧ (t.ctx core cx).st = .retired ∧ (t.ctx core cx).recs = atomics c ∧ t.mem = s.mem ∧
      Event.counterAcknowledged core cx ∈ t.agenda) ∧
    (cancelled → c.gang = none → unit → s.waiters = [w] → w.core = core → w.cx = cx → w.key < 2 ^ 52 → s.lost = [] → ∃ t : State,
      exec .cancelDelivery s = .next t ∧ (t.ctx core cx).st = .retired ∧ t.waiters = [] ∧
      t.mem.read w.key 8 = s.mem.read w.key 8 % 2 ^ 63 + 2 ^ 63 ∧ MemKept s t w.key 8) ∧
    (late → c.st ≠ .parked ∨ c.priv = true ∨ c.stage.given = true →
      exec .watchdog s = .next (counted.raiseAsync core cx 0x62 s.cycle)) ∧
    (late → c.st = .parked → c.priv = false → c.stage.given = false → c.gang = none →
      (let at_ := woken.nextBundle core cx fetchBlocks c.pc
       exec .watchdog s = .next (woken.deliver core cx true 0x62 s.cycle at_ (woken.peekCode core cx at_)))) ∧
    (s.event = .energyRefill core → ∃ t : State, exec .energyRefill s = .next t ∧ t.mem = s.mem ∧
      (t.core core).ebal.toNat = min (k0.ebal.toNat + if s.clamp then refill / 2 else refill) (2 * refill) ∧
      (t.core core).erefill = k0.erefill) ∧
    (s.event = .counterAcknowledged core cx → c.st = .retired →
      (¬quiet core cx ∨ atomics c ≠ [] ∨ (unit ∧ s.followersRun c = true) →
        exec .counterAcknowledged s = .next (s.later (.counterAcknowledged core cx))) ∧
      (quiet core cx → atomics c = [] → unit → s.followersRun c = false → s.nodeWaits c.launchid nodeKinds = true →
        exec .counterAcknowledged s = .next ((s.nodeAsk c.launchid nodeKinds).later (.counterAcknowledged core cx))) ∧
      (quiet core cx → atomics c = [] → c.follows = false → c.unitid = BitVec.allOnes 64 → alone c → ∃ t : State,
        exec .counterAcknowledged s = .next t ∧ t.mem = s.mem ∧ (t.ctx core cx).st = .free)) ∧
    (s.event = .counterAcknowledged core cx → c.st = .retired → unit → quiet core cx → atomics c = [] → ¬held → alone c →
      s.watches = [] → s.promises = [] → s.lost = [] → after.nodeWaits c.launchid nodeKinds = false → s.nodeAddr c.launchid = some a → after.nodeAddr c.launchid = some a → s.mem.read (a + 0x18) 8 = 0 → ∃ t : State,
      exec .counterAcknowledged s = .next t ∧ t.mem.read a 8 = (done + 1) % 2 ^ 64 ∧
      t.mem.read (a + 8) 8 = (if c.triggered then trig else (trig + 1) % 2 ^ 64) ∧ MemKept s t a 16 ∧
      (t.ctx core cx).st = .free ∧ (t.ctx core cx).generation = c.used + 1) ∧
    (s.event = .remoteFill tag raw pois →
      (owner → mine = [j, k] → j.seq ≠ tag.seq → k.seq = tag.seq → k.op.isRemote = true → ∃ t : State,
        exec .remoteFill s = .next t ∧ t.mem = s.mem ∧ (t.ctx tag.core tag.cx).v = f.v ∧ (t.ctx tag.core tag.cx).s = f.s ∧
        { k with got := some (raw, pois) } ∈ (t.ctx tag.core tag.cx).recs ∧
        Event.fill tag.core tag.cx tag.isV tag.reg ∈ t.agenda) ∧
      (owner → mine = [k] → k.seq = tag.seq → k.op.isRemote = true → ∃ t : State,
        exec .remoteFill s = .next t ∧ t.mem = s.mem ∧ (t.core tag.core).l1 = [] ∧
        (tag.isV = true → (t.ctx tag.core tag.cx).vreg tag.reg = ⟨if pois then 0 else raw, true, pois⟩) ∧
        (tag.isV = false → (t.ctx tag.core tag.cx).sreg tag.reg = ⟨if pois then 0 else raw.extractLsb' 0 72, true, pois⟩) ∧
        ∀ r, r ∈ (t.ctx tag.core tag.cx).recs ↔ r ∈ f.recs ∧ r.seq ≠ k.seq) ∧
      (¬owner → (∃ r ∈ (s.core tag.core).redirects, r.gen = tag.gen ∧ r.cx = tag.cx) →
        exec .remoteFill s = .next { s with savedFills := s.savedFills ++ [(tag, raw, pois)] }) ∧
      (¬owner → (∀ r ∈ (s.core tag.core).redirects, r.gen = tag.gen → r.cx ≠ tag.cx) → exec .remoteFill s = .next s))

/-! ### Paging -/

/-- R224-R236, R298, R299: a walk reads one entry a level; a found leaf enters the TLBs of the cores that wait for it, and what
its hive's engines hold where one of them waits; an invalid entry gives the waiting threads cause 0x20, at once or through a
fault record, a malformed one 0x30; the driver's answer to a
record lets its accesses be tried again, or gives their threads the cause; `tlbinv` drops translations after Release(sys) and
re-arms covered Expired pages once the dropped ones are out of use; a page whose deadline has come is Expired; a sampler fill
returns to every record it serves and installs its line. The model's choice is that a walk from a root in a reserved range stops
the machine (log 41), what a hive's engines hold of translations and are told of a missing leaf (log 13), that the answer to a record
is read when its event comes (log 64), and that a page expires in all TLBs at once (log 81). -/
def Obligations.PagingEvents : Prop :=
  ∀ (s : State) (g a b : BitVec 4) (h id i slot at_ n fuel level frame comb : Nat) (w : Walk) (e : BitVec 128) (va : W72)
    (asid : W16) (cause kinds : Byte) (f : FaultRec) (p : EphPage) (l : Loc) (sw : SampFill), MemOk s →
    let c := s.here
    let ws := (s.hive h).walks
    let walked := s.event = .pageWalk h id ∧ ws.findIdx? (fun w => w.id == id) = some i ∧ ws[i]? = some w ∧ i < 64 ∧
      ((s.hive h).prefetches.find? fun p => p.id == id) = none ∧ s.walkWaits w.page (s.rootFor w.ptroot (w.page.extractLsb' 64 8)) = false
    let root := s.rootFor w.ptroot (w.page.extractLsb' 64 8)
    let who := s.walkWaiters h w.asid w.page
    let ent : TlbEnt := { asid := w.asid, space := w.page.extractLsb' 64 8, page := pageBase level (w.page.extractLsb' 0 64),
                          level := level, leaf := e }
    let gone : State := s.modHive h fun v => { v with walks := ws.eraseIdx i }
    let left : State := if w.engine then gone.modHive h fun v => { v with misses := (w.asid, w.page) :: v.misses } else gone
    let q := s.hive h
    let unanswered (f : FaultRec) : Bool := (s.faultSlot h f.num).all fun a => s.mem.read (a + 0x18) 4 == 0
    let pending := q.faults.find? fun f => f.asid == asid && f.page == pageKey va && f.cause == cause && unanswered f
    let byteOf (t : State) (o n : Nat) : Nat := t.mem.read (at_ + o) n
    let answered (st : Nat) : Prop := (q.faults.find? fun f => f.num % 256 == slot) = some f ∧ s.faultSlot h f.num = some at_ ∧
      s.mem.read (at_ + 0x18) 4 = st
    let drops (i : Instr) (form : Nat) (asid : W16) (va : W72) : Prop :=
      (c.stage = .fresh → Released s .sys →
        exec i s = .next ((s.dropTlb form asid va).parkStage (.acted 1) (.tlbinv form s.seq asid va))) ∧
      (c.stage = .fresh → ¬Released s .sys → exec i s = .next (s.parkReplay (.drain .sys s.seq))) ∧
      (c.stage = .acted 1 → exec i s = .next (s.rearm form asid va).finish)
    let data := BitVec.ofNat 512 (s.mem.read l.key 64)
    let idx := if fuel = 4 then (va.extractLsb' 64 8).toNat
      else (va.extractLsb' 0 64).toNat / 2 ^ (64 - 12 * (4 - fuel)) % 4096
    let entry := BitVec.ofNat 128 (s.mem.read (n + idx * 16) 16)
    (fuel ≤ 4 → n < 2 ^ 52 → n / 2 ^ 48 ≠ 3 →
      (entry.getLsbD 0 = false → n / 2 ^ 48 < 8 → s.walkFrom va n (fuel + 1) = .invalid (4 - fuel)) ∧
      (entry.getLsbD 0 = true → s.malformedEntry entry (4 - fuel) = true → n / 2 ^ 48 < 8 →
        s.walkFrom va n (fuel + 1) = .malformed) ∧
      (entry.getLsbD 0 = true → s.malformedEntry entry (4 - fuel) = false → n / 2 ^ 48 < 8 →
        s.walkFrom va n (fuel + 1) = if entry.getLsbD 1 then .leaf (4 - fuel) entry
          else s.walkFrom va ((entry.extractLsb' 64 36).toNat * 2 ^ 16) fuel) ∧
      (8 ≤ n / 2 ^ 48 → s.walkFrom va n (fuel + 1) = .noPhys)) ∧
    (walked → s.walkFrom w.page root 5 = .leaf level e → ∃ t : State, exec .pageWalk s = .next t ∧ t.mem = s.mem ∧
      (t.hive h).walks = ws.eraseIdx i ∧ (w.engine = true → ent ∈ (t.hive h).etlb) ∧
      (∀ k, w.core = some k → ent ∈ (t.core k).tlb ∧ ent ∈ (t.comb (combOf k)).tlb) ∧ ∀ x ∈ who, ent ∈ (t.core x.1).tlb) ∧
    (walked → s.walkFrom w.page root 5 = .malformed → ∃ t : State, exec .pageWalk s = .next t ∧ t.mem = s.mem ∧
      (t.hive h).walks = ws.eraseIdx i ∧
      ∀ x ∈ who, (t.ctx x.1 x.2.1).replay = some (0x30, x.2.2.1.extractLsb' 0 64)) ∧
    (walked → s.walkFrom w.page root 5 = .invalid level → who = [] → exec .pageWalk s = .next left) ∧
    (walked → s.walkFrom w.page root 5 = .invalid level → ∀ (k x num : Nat) (v : W72) (b : Byte) (u : State),
      who = [(k, x, v, b)] →
      (left.fileFault h w.asid v 0x20 b level = (.now, u) →
        exec .pageWalk s = .next (u.modCtx k x fun c => { c with replay := some (0x20, v.extractLsb' 0 64) })) ∧
      (left.fileFault h w.asid v 0x20 b level = (.record num, u) →
        exec .pageWalk s = .next (u.modCtx k x fun c => { c with wait := .fault h num (v.extractLsb' 0 64) })) ∧
      (left.fileFault h w.asid v 0x20 b level = (.held, u) →
        exec .pageWalk s = .next (u.modCtx k x fun c => { c with wait := .faultSlot h }))) ∧
    (walked → s.walkFrom w.page root 5 = .noPhys → exec .pageWalk s = .fault .noSuchPhysical) ∧
    (q.fring.getLsbD 0 = false → s.fileFault h asid va cause kinds level = (.now, s)) ∧
    (q.fring.getLsbD 0 = true → pending = none → s.faultSlot h q.filed = some at_ → (∀ f ∈ q.faults, f.num + 256 ≠ q.filed) →
      s.nring.getLsbD 0 = false → level < 256 → s.lost = [] → ∃ u : State, s.fileFault h asid va cause kinds level = (.record q.filed, u) ∧
      byteOf u 0 8 = (va.extractLsb' 0 64).toNat / 2 ^ 16 * 2 ^ 16 ∧ byteOf u 8 1 = (va.extractLsb' 64 8).toNat ∧
      byteOf u 9 1 = cause.toNat ∧ byteOf u 0xA 1 = kinds.toNat ∧ byteOf u 0xB 1 = level ∧ byteOf u 0xC 2 = asid.toNat ∧
      byteOf u 0xE 2 = 1 ∧ byteOf u 0x10 8 = s.cycle.toNat ∧ byteOf u 0x18 8 = 0 ∧ MemKept s u at_ 64 ∧
      (u.hive h).filed = q.filed + 1 ∧ (u.hive h).faults = q.faults ++ [⟨q.filed, asid, pageKey va, cause⟩]) ∧
    (q.fring.getLsbD 0 = true → pending = some f → s.faultSlot h f.num = some at_ → ∃ u : State,
      s.fileFault h asid va cause kinds level = (.record f.num, u) ∧
      byteOf u 0xA 1 = (BitVec.ofNat 8 (byteOf s 0xA 1) ||| kinds).toNat ∧ byteOf u 0xE 2 = min 65535 (byteOf s 0xE 2 + 1)) ∧
    (s.event = .faultRetry h slot →
      (answered 1 → ∃ t : State, exec .faultRetry s = .next t ∧ t.mem = s.mem ∧
        ∀ x, x ∈ (t.hive h).faults ↔ x ∈ q.faults ∧ x.num ≠ f.num) ∧
      (answered 0 → exec .faultRetry s = .next (s.later (.faultRetry h slot)))) ∧
    (s.event = .faultDecline h slot →
      (answered 2 → ∃ t : State, exec .faultDecline s = .next t ∧ t.mem = s.mem ∧
        (∀ x, x ∈ (t.hive h).faults ↔ x ∈ q.faults ∧ x.num ≠ f.num) ∧
        (∀ k x v, (∃ z, (k, z) ∈ s.cores) → x < 8 → (s.ctx k x).wait = .fault h f.num v →
          (t.ctx k x).replay = some (f.cause, v))) ∧
      (answered 0 → exec .faultDecline s = .next (s.later (.faultDecline h slot)))) ∧
    (Takes s g →
      (poisS s a = true → Raises (.tlbinvPage g a b) s 0x10 (BitVec.ofNat 64 a.toNat)) ∧
      (poisS s a = false → poisS s b = true → Raises (.tlbinvPage g a b) s 0x10 (BitVec.ofNat 64 b.toNat)) ∧
      (poisS s b = true → Raises (.tlbinvAsid g b) s 0x10 (BitVec.ofNat 64 b.toNat)) ∧
      (poisS s a = false → poisS s b = false →
        drops (.tlbinvPage g a b) 0 ((reg64 s b).extractLsb' 0 16) (c.sreg a).val) ∧
      (poisS s b = false → drops (.tlbinvAsid g b) 1 ((reg64 s b).extractLsb' 0 16) 0) ∧ drops (.tlbinvAll g) 2 0 0) ∧
    (∀ form k x, (x ∈ ((s.dropTlb form asid va).core k).tlb ↔ x ∈ (s.core k).tlb ∧ x.covered form asid va = false) ∧
      (x ∈ ((s.dropTlb form asid va).comb k).tlb ↔ x ∈ (s.comb k).tlb ∧ x.covered form asid va = false) ∧
      (x ∈ ((s.dropTlb form asid va).hive k).etlb ↔ x ∈ (s.hive k).etlb ∧ x.covered form asid va = false) ∧
      ((s.dropTlb form asid va).hive k).walks = []) ∧
    (s.event = .ephemeralExpire frame → sget frame s.ephem = some p →
      (p.deadline ≤ s.now → ∃ t : State, exec .ephemeralExpire s = .next t ∧ t.mem = s.mem ∧
        sget frame t.ephem = some { p with expired := true }) ∧
      (s.now < p.deadline → exec .ephemeralExpire s = .next s)) ∧
    (s.event = .samplerFill comb (l.key / 64) → (s.comb comb).sampWait = [sw] → sw.loc = l → sw.upto = none →
      s.stalled l = false → s.flights = [] → s.behind sw.core sw.cx sw.seq l 64 = false →
      s.shadowed sw.core sw.seq l 64 = false → PlainPlace s l → s.degradedAt l = false → s.mem.poisoned l.key 64 = false → ∃ t : State,
      exec .samplerFill s = .next t ∧ MemSame s t ∧ (t.comb comb).sampWait = [] ∧
      (t.comb comb).samp.head? = some ⟨l.key / 64, data, false⟩ ∧
      ∀ j x r, j < 16 → x < 8 →
        let c := s.ctx (coreOfComb comb j) x
        let d := t.ctx (coreOfComb comb j) x
        (c.recs.map (·.seq)).Nodup → r ∈ c.recs → r.op = .samp → r.isV = true → r.got = none → (∃ k ∈ r.locs, k.key = l.key) →
          { r with got := some (data, false) } ∈ d.recs ∨ ((d.vreg r.reg).val = data ∧ (d.vreg r.reg).pois = false)) ∧
    (s.event = .samplerFill comb (l.key / 64) → (s.comb comb).sampWait = [sw] → sw.loc = l →
      s.behind sw.core sw.cx sw.seq l 64 = true ∨ s.shadowed sw.core sw.seq l 64 = true →
      exec .samplerFill s = .next (s.later (.samplerFill comb (l.key / 64))))

/-! ### Work queues -/

/-- R301-R309, R324, R340: a written `qhdr` registers a header whose fields are right, with head and tail at 0 and state Parsing,
else its state is Error; the driver's store to a state byte and to `nhead`; a packet at the head of the queue that its engine
serves, or that it has in hand, acts as its type says, and its queue is the one that was served last: FENCE passes when its
conditions hold, SIGNAL writes or adds and completes when the write is acknowledged, COPY starts a copy, INSTALL offers an install,
MARKER completes when its invalidation has, CANCEL cancels below a node, LAUNCH, once checked, goes to the scheduler; a complete
packet moves head past its slots; a malformed one puts the queue into Error. That a registration which fails leaves an earlier one as
it is, and the moments of a FENCE's passes (log 38), and that a condition of a poisoned counter does not hold (log 85), is the
model's choice. -/
def Obligations.QueuePackets : Prop :=
  ∀ (s : State) (q a i d pf x y form below num op v : Nat) (w : W64) (st : Byte) (k : Queue) (h : QHead) (p : Pkt) (l : Loc)
    (va : W72) (asid : W16) (ins : Install) (all pois : Bool) (rest : List (Nat × W72 × Nat)) (info : LaunchInfo),
    MemOk s →
    let me : Agent := .queue (q / 32)
    let under := h.under q k
    let sys := sysUnder q k
    let turn := s.qhead q = some (k, h) ∧
      (k.inHand = true ∨ (s.queueReady q = true ∧ s.bestQueue (q / 32) = some q ∧ s.engineBusy q = false))
    -- the queue is the one that its engine has served last
    let sv := s.serveQueue q
    let stalls (j : Instr) (t : State) : Prop := exec j s = t.stallQueue q k none
    let hive := p.q / 32
    let kernelAt := s.ktab + BitVec.ofNat 64 (64 * p.args)
    -- the engine reads the packet p at the head
    let reads := p.q = q ∧ p.k = k ∧ p.h = h ∧ ∀ go, s.packet q k h go = go s p
    let ready (ty : Nat) (good : Bool) : Prop := turn ∧ reads ∧ p.w % 256 = ty ∧ field p.w 1 1 < 8 ∧ good = true
    let waiting := s.qhead q = some (k, h) ∧ reads
    let holding (t : State) (z : QWait) : State := t.setQueue q { k with wait := z, taken := false, stall := none }
    let holds := pois = false ∧ (match op with | 0 => v ≤ x | 1 => x = v | _ => x ≠ v)
    let target := field72 p.w 8
    let data := field p.w 24 8
    let writes (z : FlightOp) : Flight := { id := s.seq, by_ := me, loc := l, len := 8, op := z }
    let issues (z : FlightOp) : Prop := ∃ t : State, exec .signalPacket s = .next t ∧ t.flights = s.flights ++ [writes z] ∧
      t.mem = s.mem ∧ sget q t.queues = some { k with wait := .advance, taken := false, stall := none } ∧
      (t.hive (q / 32)).served = q % 32 ∧ Event.storeAcknowledgement s.seq ∈ t.agenda
    let copy : Xfer :=
      { kind := .queue, core := q / 32 * 1024, cx := 0, gen := 0, inst := 0, ch := 0, id := 0, ptroot := h.ptroot, asid := h.asid,
        user := false, group := 0, src := field72 p.w 24, dst := target, len := field p.w 40 8, ctr := field72 p.w 48, q := q }
    let offered := (sv.sysTold 0 (s.extVA i)).offerInstall i ins
    let invalidates := BitVec.ofNat 16 (field p.w 24 2)
    let node := BitVec.ofNat 58 (field p.w 8 8)
    let hdr := w &&& 0xFFFFFFFFFFFFFFC0
    let number := w.toNat % 64
    let f (o n : Nat) : Nat := s.mem.read (a + o) n
    let right := s.mem.poisoned a 64 = false ∧ f 0xA 1 = number ∧ 4 ≤ f 9 1 ∧ f 9 1 ≤ 16 ∧ f 0xD 3 = 0 ∧ f 0x2A 22 = 0
    let asks (u : Under) (va : W72) (n x : Nat) : Prop := sv.engineRead me u va n true = (.val x false, sv)
    let at_ (n : Nat) : W72 := (0x80 : Byte) ++ BitVec.ofNat 64 (64 * n)
    let table : W72 := BitVec.ofNat 8 (field d 0x19 1) ++ BitVec.ofNat 64 (field d 8 8)
    let kernel : Under := { sys with ptroot := BitVec.ofNat 64 (field d 0x28 8), asid := BitVec.ofNat 16 (field d 0x20 2) }
    let launches := ready 1 p.launchGood ∧
      asks sys ((0x80 : Byte) ++ (s.ktab + BitVec.ofNat 64 (64 * field p.w 2 2))) 64 d ∧ field d 0x1B 1 = 1 ∧
      field p.w 8 1 < field d 0x1C 1 ∧ field d 0x38 8 ≠ 0 ∧ field d 0x38 8 % 32 = 0 ∧
      asks sys (at_ (field p.w 40 8)) 64 x ∧ field x 0x22 1 = 1 ∧ field x 0 16 = 0 ∧ field x 0x10 8 = field p.w 16 8 ∧
      field x 0x18 8 = 0 ∧ field x 0x20 2 = field d 0x20 2 ∧ p.preds = [] ∧
      asks sys ((0x80 : Byte) ++ BitVec.ofNat 64 (field d 0x38 8)) 32 pf ∧ field pf 0x1A 6 = 0 ∧ field72 p.w 64 = 0
    (∀ u : State, MemOk u → u.lost = [] → p.notify = false → p.q = q → p.k = k → p.h = h → let t := u.advance p
      t.mem.read (h.at_ + 0x10) 8 = (h.head + p.slots) % 2 ^ 64 ∧ MemKept u t (h.at_ + 0x10) 8 ∧
      sget q t.queues = some { k with since := u.now, wait := .none, taken := false, stall := none }) ∧
    (s.engineRead me under (h.slot h.head) 64 true = (.val x false, s) →
      (field x 1 1 % 4 = 0 → ∀ go, s.packet q k h go = go s { q := q, k := k, h := h, w := x, slots := 1 }) ∧
      (field x 1 1 % 4 = 1 → s.engineRead me under (h.slot (h.head + 1)) 64 true = (.val y false, s) →
        ∀ go, s.packet q k h go = go s { q := q, k := k, h := h, w := x + y * 2 ^ 512, slots := 2 })) ∧
    (s.event = .qhdr w → s.sysWaits (number / 32) hdr = true →
      exec .qhdr s = .next ((s.sysAsk (number / 32) hdr).later (.qhdr w))) ∧
    (s.event = .qhdr w → s.sysAddr (number / 32) hdr = some a → s.lost = [] →
      (right → ∃ t : State, exec .qhdr s = .next t ∧ t.mem.read (a + 0xC) 1 = 1 ∧ t.mem.read (a + 0x10) 16 = 0 ∧
        sget number t.queues = some { hdr := hdr, since := s.now }) ∧
      (¬right → s.mem.poisoned a 64 = false → s.nring.getLsbD 0 = false → ∃ t : State, exec .qhdr s = .next t ∧
        t.mem.read (a + 0xC) 1 = 2 ∧ t.queues = s.queues)) ∧
    (s.event = .queueStateStore q st → s.qhead q = some (k, h) → s.lost = [] → ∃ t : State, exec .queueStateStore s = .next t ∧
      t.mem.read (h.at_ + 0xC) 1 = st.toNat ∧ MemKept s t (h.at_ + 0xC) 1) ∧
    (s.event = .nheadWrite w → ∃ t : State, exec .nheadWrite s = .next t ∧ t.nhead = w ∧
      (s.notices = [] → t.mem = s.mem ∧ t.ntail = s.ntail ∧ t.msiHeld = (s.msiHeld && decide (w ≠ s.ntail)))) ∧
    (s.event = .signalPacket q → k.wait ≠ .advance → ready 3 p.signalGood →
      (field p.w 2 2 = 0 → sv.engineAddr under target .store = (.ok l, sv) → issues (.bytes (cellsOf l.key data 8) [])) ∧
      (field p.w 2 2 = 1 → sv.engineAddr under target .red = (.ok l, sv) → issues (.ared .add true (BitVec.ofNat 64 data)))) ∧
    (s.event = .signalPacket q → k.wait = .advance → waiting → (∀ f ∈ s.flights, f.by_ ≠ me) →
      exec .signalPacket s = .next (s.advance p)) ∧
    (s.event = .copyPacket q → ready 4 p.copyGood → ∃ t : State, exec .copyPacket s = .next (t.advance p) ∧ t.mem = s.mem ∧
      sget s.seq t.xfers = some copy ∧ Event.transferArrive s.seq ∈ t.agenda) ∧
    (s.event = .installPacket q → ready 5 p.installGood →
      parseInstall (p.w / 2 ^ 512) (.queue q target h.ptroot h.asid) h.ptroot h.asid false = some (i, ins) →
      (s.extWaits i = true → stalls .installPacket (sv.sysAsk 0 (s.extVA i))) ∧
      (s.extWaits i = false → offered.1 = 1 → exec .installPacket s = .next (offered.2.advance p)) ∧
      (s.extWaits i = false → offered.1 ≠ 1 → exec .installPacket s = .next ((offered.2.counterWait ins).advance p))) ∧
    (s.event = .markerPacket q → (∀ a b c d, k.wait ≠ .marker a b c d) → ready 6 p.markerGood →
      (field p.w 2 2 % 2 = 0 → exec .markerPacket s = .next (sv.advance p)) ∧
      (field p.w 2 2 % 2 = 1 → exec .markerPacket s = .next (holding (sv.dropTlb (field p.w 2 2 / 2) invalidates target)
        (.marker (field p.w 2 2 / 2) s.seq invalidates target)))) ∧
    (s.event = .markerPacket q → k.wait = .marker form below asid va → waiting → s.tlbQuiet form below asid va = true →
      exec .markerPacket s = .next ((s.rearm form asid va).advance p)) ∧
    (s.event = .cancelPacket q → ready 7 p.cancelGood → asks sys ((0x80 : Byte) ++ (node ++ (0 : BitVec 6))) 64 x →
      1 ≤ field x 0x22 1 → field x 0x22 1 ≤ 4 →
      (sv.cancelWaits = false → sv.ownWaits node = false → sv.nodeAddr node = some a →
        exec .cancelPacket s = .next ((sv.cancelNode node a).advance p)) ∧
      (sv.cancelWaits = true → stalls .cancelPacket sv.cancelAsk) ∧
      (sv.cancelWaits = false → sv.ownWaits node = true → stalls .cancelPacket (sv.nodeAsk node 1))) ∧
    (s.event = .fencePacket q → ready 2 p.fenceGood →
      (sv.fencePass p true p.conds = (.done true, sv) → exec .fencePacket s = .next (sv.advance p)) ∧
      (sv.fencePass p true p.conds = (.done false, sv) → exec .fencePacket s = .next (holding sv (.fence s.now)))) ∧
    (s.event = .fencePass q → k.wait = .fence num → waiting → p.w % 256 = 2 → p.fenceGood = true →
      (s.fencePass p true p.conds = (.done true, s) → exec .fencePass s = .next (s.advance p)) ∧
      (s.fencePass p true p.conds = (.done false, s) → exec .fencePass s = .next (holding s (.fence s.now)))) ∧
    (p.q = q → p.k = k → p.h = h → s.engineRead me under va 8 true = (.val x pois, s) →
      (holds → s.fencePass p all ((op, va, v) :: rest) = s.fencePass p all rest) ∧
      (¬holds → s.fencePass p all ((op, va, v) :: rest) = s.fencePass p false rest)) ∧
    (s.event = .launchPacket q → launches → field d 0x1C 1 = 1 → asks kernel table 8 y →
      exec .launchPacket s = sv.handOver p { desc := d, delta := 4, profile := pf, entries := [(field y 4 1 % 64, field y 0 4)] }) ∧
    (s.sysWaits hive kernelAt = true → s.handOver p info = (s.sysAsk hive kernelAt).stallQueue p.q p.k none) ∧
    (s.sysWaits hive kernelAt = false → (s.sysAddr hive kernelAt).any s.recordWaits = true →
      s.handOver p info = s.stallQueue p.q p.k none) ∧
    (∀ st : Option (Nat × Nat), ∃ t : State, s.stallQueue q k st = .next t ∧ t.mem = s.mem ∧
      sget q t.queues = some { k with taken := true, stall := st } ∧ (t.hive (q / 32)).served = q % 32) ∧
    (s.sysWaits hive kernelAt = false → (s.sysAddr hive kernelAt).any s.recordWaits = false → ∃ t : State, s.handOver p info = .next t ∧ sget s.seq t.launches = some (p.launch info) ∧ t.groups = s.groups ∧
      Event.launchStart s.seq ∈ t.agenda) ∧
    (∀ j, (s.event = .launchPacket q ∧ j = .launchPacket ∨ s.event = .copyPacket q ∧ j = .copyPacket) → turn → reads →
      p.w % 256 = 0 ∨ 7 < p.w % 256 ∨ 8 ≤ field p.w 1 1 → s.nring.getLsbD 0 = false → s.lost = [] → ∃ t : State, exec j s = .next t ∧
      t.mem.read (h.at_ + 0xC) 1 = 2 ∧ MemKept s t (h.at_ + 0xC) 1)

/-! ### Launches and pre-emption -/

/-- R210-R215, R263-R269, R334, R335, R338: a launch starts when its predecessors have reached their counts, cancelled if one of them
is; a comb that has all a group needs admits it in one step, at the next units, with their contexts Clearing and the ranges
zero, and refuses it else; a pre-emption request takes the named combs, halts when every core of theirs has halted, writes comb
by comb, which leaves contexts Free, and ends with saved; a restore brings an image's threads, memory and groups back, and one
that cannot be made sets `pctl`[3]. Each waits for the walks to the structures it reads. That a cancelled predecessor cancels the
launch's whole node (log 58), that poisoned counters compare as the zeros under their marks (log 88), the opaque bytes by which an
image in memory is known (log 46), the address space that a restored thread takes from its launch (log 63) and the free choice of
places (log 45) are the model's choices. -/
def Obligations.LaunchAndPreemption : Prop :=
  ∀ (s : State) (lid comb a core num : Nat) (l : Launch) (n : BitVec 58) (va : Nat × W64) (ws : List (Nat × Bool)) (rest : List Nat) (image : W64)
    (img : Image) (kc : Core),
    let h := chosen s
    let h16 := (s.pick 16).1
    let dies := if l.next % l.step = 0 then l.dieSet h16 (comb / 32) else l.dies
    let size := l.groupSize
    let slots := s.unitSlots lid l comb
    let places := h.choosePlaces slots size
    let g := groupAt lid l comb size s.now places.1
    let offered := s.event = .groupAdmit lid comb ∧ sget lid s.launches = some l ∧ l.started = true ∧ l.next < l.count ∧ comb < 128
    let fits := comb / 32 ∈ dies ∧ size ≤ slots.length ∧ s.combHas l comb = true
    let again (t : State) : Prop := ∃ c, c < 128 ∧ Event.groupAdmit lid c ∈ t.agenda
    let starts := s.event = .launchStart lid ∧ sget lid s.launches = some l ∧ l.started = false
    -- accesses to structures that wait for their walk; those that are reached have been told
    let first (l : List (Nat × W64)) := l.find? fun v => s.sysWaits v.1 v.2
    let told (l : List (Nat × W64)) : State := l.foldl (fun s v => s.sysTold v.1 v.2) s
    let records := l.preds.map fun n => (0, n ++ (0 : BitVec 6))
    let sp := told records
    let calm := ∀ n ∈ l.preds, sp.ownWaits n = false
    let reached := calm ∧ ∀ n ∈ l.preds, ∃ b, s.predReady l.early n = some (true, b)
    let named (c : Nat) : Prop := c < 128 ∧ (if c < 64 then s.pcomb0.getLsbD c else s.pcomb1.getLsbD (c - 64)) = true
    let halting := s.event = .preemptHalt ∧ s.pctl.getLsbD 0 = true ∧ s.pctl.getLsbD 1 = false
    let halted := ∀ c ∈ s.halt, ∀ k ∈ combCores c, s.coreHalted k = true
    let base := s.psave + BitVec.ofNat 64 (comb * 2 ^ 25)
    let whole := (combCores comb).filter s.writtenWhole
    let needs := imageNeeds base whole
    let ranges := imageParts whole ++ whole.flatMap (fun k => (List.range 8).map (fun x => (slotsAt k + x * 2048, 64)) ++
      (List.range 4).map fun p => (scratchAt k p, 2 ^ 16))
    let inDram := ranges.all fun p => (s.imageAddr base p.1).all fun b => b + p.2 ≤ 2 ^ 52
    let restores := s.event = .prest image
    let pages := s.restoreNeeds image
    let refused : State := { told pages with pctl := s.pctl ||| 8 }
    let named? := s.imageAt image
    let launch (t : Ctx) := sget t.launch s.launches
    (s.nodeAddr n = some a → ∀ early, s.predReady early n =
      some (decide (s.mem.read (a + 0x10) 8 ≤ s.mem.read (if early then a + 8 else a) 8), s.mem.read (a + 0x23) 1 == 1)) ∧
    (starts → first records = some va →
      exec .launchStart s = .next ((s.sysAsk va.1 va.2).later (.launchStart lid))) ∧
    (starts → first records = none → reached → (∀ n ∈ l.preds, s.predReady l.early n ≠ some (true, true)) → ∃ t : State,
      exec .launchStart s = .next t ∧ t.mem = s.mem ∧ sget lid t.launches = some { l with started := true } ∧ again t) ∧
    (starts → first records = none → reached → (∃ n ∈ l.preds, s.predReady l.early n = some (true, true)) →
      (sp.cancelWaits = true → exec .launchStart s = .next (sp.cancelAsk.later (.launchStart lid))) ∧
      (sp.cancelWaits = false → ∃ t : State, exec .launchStart s = .next t ∧
        (sget lid t.launches = none ∨ ∃ z, sget lid t.launches = some z ∧ z.cancelled = true))) ∧
    (starts → first records = none → ¬reached → exec .launchStart s = .next (sp.later (.launchStart lid))) ∧
    (offered → fits → h.bankWords l comb = (.words ws, h) → ∃ t : State, exec .groupAdmit s = .next t ∧
      places.1.length = size ∧ places.1.Nodup ∧ (∀ x ∈ places.1, x ∈ slots) ∧ sget s.seq t.groups = some g ∧
      sget lid t.launches = some { l with next := l.next + size, dies := dies, stall := none } ∧
      (∀ u ∈ g.units, let c := t.ctx (coreOfComb comb u.2.1) u.2.2
        c.st = .clearing ∧ c.unitid = BitVec.ofNat 64 u.1 ∧ c.k = #v[l.k0, l.k1, l.k2, l.template] ∧ c.pc = l.entry ∧
          c.launchid = l.node ∧ c.group = s.seq ∧ c.asid = l.asid ∧ c.ptroot = l.ptroot ∧
          c.groupid = g.id (u.1 - l.next)) ∧
      (ws = [] → ∀ k o, g.cores.getLsbD k = true → k < 16 → o < l.ssize * 4096 →
        t.mem.byte (scratchKey (coreOfComb comb k) (l.sbase * 4096 + o)) = 0) ∧
      (ws = [] → ∀ o, o < l.csize * 65536 → t.mem.byte (combKey comb (l.cbase * 65536 + o)) = 0) ∧
      (l.next + size < l.count → again t)) ∧
    (offered → ¬fits → ∃ t : State, exec .groupAdmit s = .next t ∧ t.mem = s.mem ∧ t.groups = s.groups ∧
      t.launches = s.launches ∧ t.cores = s.cores ∧ again t) ∧
    (s.event = .pctlGo →
      (s.pctl.getLsbD 0 = true → exec .pctlGo s = .next s) ∧
      (s.pctl.getLsbD 0 = false → ∃ t : State, exec .pctlGo s = .next t ∧ t.pctl = s.pctl &&& 8 ||| 1 ∧ t.mem = s.mem ∧
        (∀ c, c ∈ t.halt ↔ named c) ∧ t.saving = t.halt ∧ Event.preemptHalt ∈ t.agenda)) ∧
    (halting → halted → ∃ t : State, exec .preemptHalt s = .next t ∧ t.pctl = s.pctl ||| 2 ∧ t.mem = s.mem ∧ t.halt = s.halt ∧
      t.haltAt = s.cycle ∧ Event.preemptSave ∈ t.agenda) ∧
    (halting → ¬halted → exec .preemptHalt s = .next (s.later .preemptHalt)) ∧
    (s.event = .preemptSave → s.saving = [] → s.pctl.getLsbD 1 = true →
      exec .preemptSave s = .next { s with pctl := s.pctl &&& 8 ||| 6, halt := [] }) ∧
    (s.event = .preemptSave → s.saving = comb :: rest → first needs = some va →
      exec .preemptSave s = .next ((s.sysAsk va.1 va.2).later .preemptSave)) ∧
    (s.event = .preemptSave → s.saving = comb :: rest → s.canSave comb = true → s.imageMapped base whole = true →
      s.unsaved comb = [] → inDram = true → ∃ (t : State) (z : Image), exec .preemptSave s = .next t ∧ t.saving = rest ∧
      Event.preemptSave ∈ t.agenda ∧ sget s.seq t.images = some z ∧ z.comb = comb ∧
      z.groups = s.groups.filter (fun e => e.2.comb == comb) ∧ z.whole = whole ∧ z.heads = s.headers whole ∧
      (∀ key, inCombMem comb key = true → (∀ k ∈ whole, key < scratchKey k 0 ∨ scratchKey k 0 + 2 ^ 18 ≤ key) →
        z.mem.byte key = s.mem.byte key) ∧
      (∀ e, e ∈ t.groups ↔ e ∈ s.groups ∧ e.2.comb ≠ comb) ∧ (∀ key, inCombMem comb key = true → t.mem.byte key = 0) ∧
      ∀ j x, j < 16 → x < 8 → (t.ctx (coreOfComb comb j) x).st = .free) ∧
    (s.event = .preemptSave → s.saving = comb :: rest → first needs = none → s.canSave comb = false ∨ s.imageMapped base whole = false →
      exec .preemptSave s = .next ((told needs).later .preemptSave)) ∧
    (restores → first pages = some va → exec .prest s = .next ((s.sysAsk va.1 va.2).later (.prest image))) ∧
    (restores → first pages = none → named? = none ∨ (named? = some (num, img) ∧
      ((∃ e ∈ s.groups, e.2.comb = img.comb) ∨ img.comb ∈ s.halt)) → exec .prest s = .next refused) ∧
    (restores → first pages = none → named? = some (num, img) → (∀ e ∈ s.groups, e.2.comb ≠ img.comb) →
      img.comb ∉ s.halt → img.cores = [(core, kc)] → img.whole = [core] → img.groups = [] →
      (∀ x, x < 8 → (s.ctx core x).st = .free) → (s.comb (combOf core)).samp = [] →
      (s.imageMapped image [core] = false → exec .prest s = .next refused) ∧
      (s.imageMapped image [core] = true → ∃ t : State, exec .prest s = .next t ∧
        t.pctl = s.pctl &&& 7 ∧ sget num t.images = none ∧ sget num t.oldImages = some img ∧
        t.mem = ((s.mem.split img.comb).2.readScratch (s.scratchPages image [core])).join img.mem ∧
        (t.core core).tasks = kc.tasks ∧ (t.core core).chans = kc.chans ∧
        ∀ x (hx : x < 8), let v := kc.ctxs[x]
          v.st = .ready → let c := t.ctx core x
          c.st = .ready ∧ c.s = v.s ∧ c.v = v.v ∧ c.p = v.p ∧ c.m = v.m ∧ c.pc = v.pc ∧ c.unitid = v.unitid ∧
            c.recs = v.recs.map s.regain ∧ c.generation = v.generation ∧ c.asid = ((launch v).map (·.asid)).getD v.asid))

/-! ### The links, power and the display -/

/-- R429-R443, R246, R250: the host's write is on its way to its home; an access to host memory without a completion gives poison
or is discarded, and the link is down until it has been trained; a tick sends the request and brings a grant, and three
without one bring 1,500; the clamp engages after 100 samples above 1.1 of the grant and releases after 1,000 at or below it,
never beside a refill of the same cycle; an output latches a surface whose sequence number is new, else it shows the last one
again under the newest homography; a vertical blank counts and answers the command of output 0, whose states follow genlock, the
command and the mux. That accesses to the outputs' blocks go through the walkers of hive 1 (log 13) and read a block at once
(log 50), the moments of genlock and mux as events (log 62), and the free choice of the access that has had no completion (log 49)
are the model's choices. -/
def Obligations.DeviceEvents : Prop :=
  ∀ (s : State) (pa core cx n a : Nat) (bytes : List Byte) (g : W16) (xs : List W16) (x : W16) (sf : Surface), MemOk s →
    let host : Loc := { win := .glob, key := pa, va := 0, leaf := 0 }
    let cells := bytes.zipIdx.map fun b => (pa + b.2, b.1)
    let writes : Flight := { id := s.seq, by_ := .host, loc := host, len := bytes.length, op := .bytes cells [] }
    let late := s.lateOnes core cx
    let which := (s.pick late.length).1
    let total := xs ++ [x]
    let refill := refillCycle s.now
    let o := s.out n
    let block : Loc := { win := .glob, key := a, va := 0, leaf := 0 }
    let sp := s.sysTold 1 (s.outVA n)
    let byte : Loc := { win := .glob, key := a + 0x60, va := 0, leaf := 0 }
    let reaches := s.sysWaits 1 (s.outVA n) = false ∧ s.outBlock n = some a
    let latches := s.event = .frameLatch n ∧ reaches ∧ s.marked .display block 128 = false ∧ s.stalled block = false
    let seq := s.mem.read (a + 0x18) 8
    -- the newest homography that has been read
    let hs := BitVec.ofNat 64 (s.mem.read (a + 0x48) 8)
    let newer := o.hseq.all (· < hs)
    let matrix := if newer then Vector.ofFn fun i => BitVec.ofNat 32 (s.mem.read (a + 0x20 + 4 * i.val) 4) else o.h
    let seen : Output := { o with hseq := if newer then some hs else o.hseq, h := matrix }
    let again := { seen with view := if o.surf = none then .black else .reproject matrix, stall := none }
    let blank := s.event = .verticalBlank n ∧ reaches ∧ s.sysWaits 1 (s.outVA 0) = false ∧ s.marked .display byte 4 = false ∧
      s.stalled byte = false ∧ s.lost = []
    let command := s.mem.read (a + 0x61) 1
    let st := (s.out 0).st
    let zero := s.sysTold 1 (s.outVA 0)
    (s.event = .hostWrite pa bytes →
      (bytes ≠ [] → s.hostReaches pa bytes.length = true → ∃ t : State, exec .hostWrite s = .next t ∧ t.mem = s.mem ∧
        t.flights = s.flights ++ [writes] ∧ Event.storeAcknowledgement s.seq ∈ t.agenda) ∧
      (bytes = [] ∨ s.hostReaches pa bytes.length = false → exec .hostWrite s = .next s)) ∧
    (∀ r ∈ (s.ctx core cx).recs, r.open_ = true → r.locs.any Loc.atHost = true → Late.load r ∈ late) ∧
    (∀ f ∈ s.flights, f.loc.atHost = true → f.by_ ≠ .host → (∀ k x, f.by_ = .thread k x → k = core ∧ x = cx) →
      Late.flight f ∈ late) ∧
    (s.event = .hostCompletionTimeout core cx →
      (late = [] → exec .hostCompletionTimeout s = .next s) ∧
      (∀ z, late[which]? = some z → ∃ t : State, exec .hostCompletionTimeout s = .next t ∧ t.mem = s.mem ∧
        t.hlink = s.hlink &&& ~~~(1 : W64) ∧
        match z with
        | .load r => t.flights = s.flights ∧ Event.fill core cx r.isV r.reg ∈ t.agenda ∧
            ∀ k ∈ (t.ctx core cx).recs, k.seq = r.seq → k.got = some (0, true)
        | .flight f => ∀ k, k ∈ t.flights ↔ k ∈ s.flights ∧ k.id ≠ f.id
        | .sample w => t.flights = s.flights ∧ (t.comb (combOf core)).sampWait = (s.comb (combOf core)).sampWait.erase w)) ∧
    (s.event = .linkRetrain →
      (s.boot = 0 → s.replaying ≠ [] → exec .linkRetrain s = .next (s.later .linkRetrain)) ∧
      (s.boot ≠ 0 ∨ s.replaying = [] → ∃ t : State, exec .linkRetrain s = .next t ∧ t.mem = s.mem ∧
        t.hlink = (s.hlink &&& 0xF00) ||| (if s.boot = 2 then 4 else 7) ∧ t.boot = (if s.boot = 0 then 1 else s.boot))) ∧
    (s.event = .powerTick (some g) → exec .powerTick s =
      .next { s with grant := g, grantSeq := s.grantSeq + 1, missed := 0, asked := s.asked + 1, request := s.preq }) ∧
    (s.event = .powerTick none → ∃ t : State, exec .powerTick s = .next t ∧ t.missed = s.missed + 1 ∧ t.grant = s.grant ∧
      t.asked = s.asked + 1 ∧ t.request = s.preq ∧ t.due = if 2 ≤ s.missed then s.due ++ [.grantLoss] else s.due) ∧
    (s.event = .grantLoss → 3 ≤ s.missed → exec .grantLoss s = .next { s with grant := 1500 }) ∧
    (s.event = .clampEngage total → refill = true → exec .clampEngage s = .next (s.later (.clampEngage total))) ∧
    (s.event = .clampEngage total → refill = false → ∃ t : State, exec .clampEngage s = .next t ∧ t.pmeas = x ∧ t.mem = s.mem ∧
      ((∀ y ∈ total, 11 * s.grant.toNat < 10 * y.toNat) → 100 ≤ s.above + total.length → t.clamp = true) ∧
      ((∀ y ∈ total, 10 * y.toNat ≤ 11 * s.grant.toNat) → t.clamp = s.clamp ∧ t.above = 0)) ∧
    (s.event = .clampRelease total → refill = true → exec .clampRelease s = .next (s.later (.clampRelease total))) ∧
    (s.event = .clampRelease total → refill = false → ∃ t : State, exec .clampRelease s = .next t ∧ t.pmeas = x ∧
      t.mem = s.mem ∧ ((∀ y ∈ total, y.toNat ≤ s.grant.toNat) → 1000 ≤ s.below + total.length → t.clamp = false) ∧
      ((∀ y ∈ total, s.grant.toNat < y.toNat) → t.clamp = s.clamp ∧ t.below = 0)) ∧
    (∀ u : State, (u.scan n).outs = u.outs) ∧
    (∀ (l : Loc) (u : State), sp.fitsOutput n sf = (.ok l, u) → n % 4 = 0 → st = 1 ∨ st = 3 → leafKind l.leaf = 2) ∧
    (latches →
      (∀ (l : Loc) (u : State), BitVec.ofNat 64 seq ≠ o.latched → s.readSurface a = some sf → sp.fitsOutput n sf = (.ok l, u) →
        s.lost = [] → ∃ v : State, exec .frameLatch s = .next (v.scan n) ∧
        v.out n = { seen with surf := some sf, view := .surface, latched := BitVec.ofNat 64 seq, stall := none } ∧
        v.mem.read (a + 0x50) 8 = seq ∧ MemKept s v (a + 0x50) 8) ∧
      (∀ (stall : Option (Nat × Nat)) (u : State), BitVec.ofNat 64 seq ≠ o.latched → s.readSurface a = some sf →
        sp.fitsOutput n sf = (.wait stall, u) → exec .frameLatch s = .next ((u.setOut n { u.out n with stall := stall }).later (.frameLatch n))) ∧
      (BitVec.ofNat 64 seq = o.latched ∨ s.readSurface a = none → exec .frameLatch s = .next ((sp.setOut n again).scan n)) ∧
      (∀ (cause : Byte) (u : State), s.readSurface a = some sf → sp.fitsOutput n sf = (.bad cause, u) →
        BitVec.ofNat 64 seq ≠ o.latched → exec .frameLatch s = .next ((u.setOut n again).scan n))) ∧
    (s.event = .frameLatch n → reaches → s.marked .display block 128 = true ∨ s.stalled block = true →
      exec .frameLatch s = .next (sp.later (.frameLatch n))) ∧
    (blank → ∃ t : State, exec .verticalBlank s = .next t ∧ (t.out n).blanks = o.blanks + 1 ∧
      (command = 0 → t.mem.read (a + 0x58) 8 = (o.blanks + 1).toNat ∧ MemKept s t (a + 0x58) 8) ∧
      (∀ k : Fin 5, t.msix[k] =
        if k.val = n % 4 + 1 ∧ s.mem.read (a + 0x62) 1 % 2 = 1 then s.msix[k] + 1 else s.msix[k]) ∧
      (n % 4 ≠ 0 → command ≠ 0 → t.mem.read (a + 0x61) 1 = 255 ∧ (t.out 0).st = st ∧ t.mux = s.mux) ∧
      (n = 0 →
        (command = 1 → st = 0 → t.mem.read (a + 0x61) 1 = 0 ∧ (t.out 0).want = true ∧ (t.out 0).st = 0) ∧
        (command = 2 → st = 1 → t.mux = true ∧ (t.out 0).st = 2) ∧
        (command = 3 → st = 2 → (t.out 0).st = 3 ∧ t.mux = s.mux) ∧
        ((command = 1 ∧ st ≠ 0) ∨ (command = 2 ∧ st ≠ 1) ∨ (command = 3 ∧ st ≠ 2) ∨ 4 ≤ command →
          t.mem.read (a + 0x61) 1 = 255 ∧ (t.out 0).st = st ∧ t.mux = s.mux))) ∧
    (∀ e j, (e = .frameLatch n ∧ j = .frameLatch) ∨ (e = .verticalBlank n ∧ j = .verticalBlank) → s.event = e →
      s.sysWaits 1 (s.outVA n) = true → exec j s = .next ((s.sysAsk 1 (s.outVA n)).later e)) ∧
    (∀ e j, (e = .genlockHeld ∧ j = .genlockHeld) ∨ (e = .lockLost ∧ j = .lockLost) ∨ (e = .muxReturn ∧ j = .muxReturn) →
      s.event = e → s.sysWaits 1 (s.outVA 0) = true → exec j s = .next ((s.sysAsk 1 (s.outVA 0)).later e)) ∧
    (s.event = .genlockHeld → s.sysWaits 1 (s.outVA 0) = false →
      ((s.out 0).want = true → st = 0 → ∃ t : State, exec .genlockHeld s = .next t ∧ (t.out 0).st = 1 ∧ (t.out 0).want = false) ∧
      ((s.out 0).want = false ∨ st ≠ 0 → exec .genlockHeld s = .next zero)) ∧
    (s.event = .lockLost → s.sysWaits 1 (s.outVA 0) = false →
      (st = 1 → ∃ t : State, exec .lockLost s = .next t ∧ (t.out 0).st = 0) ∧ (st ≠ 1 → exec .lockLost s = .next zero)) ∧
    (s.event = .muxReturn → s.sysWaits 1 (s.outVA 0) = false →
      (st = 3 → ∃ t : State, exec .muxReturn s = .next t ∧ (t.out 0).st = 0 ∧ t.mux = false) ∧
      (st ≠ 3 → exec .muxReturn s = .next zero))

/-! ### Starts, repair and machine checks -/

/-- R21, R208, R428, R439, R444-R449: a start keeps Nectar and host memory, and DRAM after a warm reset or dormant, and clears
the rest; the image is accepted and the stacks replay, then the links train and firmware brings the device up, or it is refused
and CXL.io alone is trained; a loss of power or a warm reset cuts installs short with code 7 and a start follows; firmware
enters dormant, or its write is discarded; a replay ends and may leave channels degraded, of which the driver is told; a spare
of the stack, while one is left, is brought in for a degraded slice, whose accesses stall meanwhile, and takes it over with
its data lost; the spare of a comb joins once no unit of any group runs on it; a machine check poisons what it has hit or
raises 0x70, and tells the driver. Which start refuses its image, and which channels a replay leaves degraded, is a free choice
of the model (log 5); how many bytes an error poisons (log 48) and what a notice names beyond R325 (log 36) are its readings. -/
def Obligations.BringUp : Prop :=
  ∀ (s : State) (kind : BitVec 2) (stack slice key core cx line unit : Nat) (bad : List Nat), MemOk s →
    let warm := kind = 1 ∨ kind = 2
    let kept (a : Nat) : Prop := a < 2 ^ 52 ∧ (warm ∨ 2 ≤ a / 2 ^ 48)
    let check (k : MCheck) (t : State) : Prop := s.event = .machineCheck k → exec .machineCheck s = .next t
    let word := key / 4 * 4
    let live (c : Ctx) : Prop := c.st ≠ .free ∧ c.st ≠ .reserved
    let hit (core : Nat) (c : Ctx) : Prop := ∃ g ∈ s.groups, g.1 = c.group ∧ g.2.comb = combOf core ∧
      g.2.cores.getLsbD (core % 16) = true
    let comb := combOf core
    let hive := stagingHive line
    let off := s.nring.getLsbD 0 = false
    (s.event = .start kind → ∃ t : State, exec .start s = .next t ∧ t.startKind = kind ∧ t.groups = [] ∧ t.queues = [] ∧
      t.flights = [] ∧ t.due = [] ∧ Event.linkRetrain ∈ t.agenda ∧ t.replaying = List.range 6 ∧ t.etab = 0 ∧ t.sptroot = 0 ∧
      (∀ k x, (t.ctx k x).st = .free) ∧
      ((s.pick 2).1 = 0 → t.boot = 0 ∧ ∀ i, i < 6 → Event.repairReplayEnd i [] ∈ t.agenda) ∧
      ((s.pick 2).1 = 1 → t.boot = 2 ∧ ∀ i l, Event.repairReplayEnd i l ∉ t.agenda) ∧
      (∀ a, (kept a → t.mem.byte a = s.mem.byte a ∧ (a ∈ t.mem.pois ↔ a ∈ s.mem.pois)) ∧
        (¬kept a → t.mem.byte a = 0 ∧ a ∉ t.mem.pois)) ∧
      (warm → t.cycle = s.cycle ∧ t.images = s.images) ∧ (¬warm → t.images = [] ∧ t.launches = [])) ∧
    (∀ (i : Instr) (k : BitVec 2), (s.event = .mainPowerLoss ∧ i = .mainPowerLoss ∧ k = 3) ∨
        (s.event = .warmReset ∧ i = .warmReset ∧ k = 1) → ∃ t : State, exec i s = .next t ∧ t.mem = s.mem ∧
      t.due = [.start k] ∧ t.agenda = [] ∧ (∀ e ∈ t.installs, 4096 ≤ e.1) ∧ t.extents = s.extents.map fun e =>
        (e.1, if e.2.st = .installing then { e.2 with st := .blank, code := 7 } else e.2)) ∧
    (s.event = .dorm →
      (s.mayDorm = true → exec .dorm s = .next { s with dormant := true, agenda := [.start 2], due := [] }) ∧
      (s.mayDorm = false → exec .dorm s = .next { s with dref := true })) ∧
    (s.event = .repairReplayEnd stack bad → ∃ t : State, exec .repairReplayEnd s = .next t ∧ (off → t.mem = s.mem) ∧
      (∀ x, x ∈ t.replaying ↔ x ∈ s.replaying ∧ x ≠ stack) ∧
      (off → ∀ x ∈ t.degraded, x ∉ s.degraded → ∃ z ∈ t.notices, z.kind = 2 ∧ z.cause = 0x72 ∧ z.a = BitVec.ofNat 64 x) ∧
      ((s.pick 385).1 = 0 → ∀ x, x ∈ t.degraded ↔ x ∈ s.degraded ∨ (x ∈ bad ∧ stackOfSlice x = stack))) ∧
    (s.event = .spareTakeover slice →
      (slice ∉ s.degraded ∨ (slice ∉ s.bringing ∧ s.spareLeft slice = false) → exec .spareTakeover s = .next s) ∧
      (slice ∈ s.degraded → slice ∉ s.bringing → s.spareLeft slice = true → exec .spareTakeover s = .next ({ s with
        bringing := slice :: s.bringing, sparesUsed := stackOfSlice slice :: s.sparesUsed }.later (.spareTakeover slice))) ∧
      (slice ∈ s.degraded → slice ∈ s.bringing → ∃ t : State, exec .spareTakeover s = .next t ∧
        (∀ x, (x ∈ t.degraded ↔ x ∈ s.degraded ∧ x ≠ slice) ∧ (x ∈ t.bringing ↔ x ∈ s.bringing ∧ x ≠ slice)) ∧
        slice ∈ t.lost ∧ (∀ x ∈ t.relit, x ∈ s.relit ∧ s.homeOf (32 * x) ≠ slice) ∧
        (off → t.mem = s.mem ∧ t.notices.length = s.notices.length + 1))) ∧
    (∀ a n i, i < n → a + i ∈ (s.spoilRange a n).mem.pois ∧ (s.spoilRange a n).mem.byte (a + i) = 0) ∧
    check (.sramData key) ((s.spoilRange word 4).checkNotice 0x70 (s.sramUnit word) (s.sramUnit word) 0) ∧
    (live (s.ctx core cx) → check (.context core cx) ((s.raiseAsync core cx 0x70 0).checkNotice 0x70 core core 0)) ∧
    (¬live (s.ctx core cx) → check (.context core cx) (s.checkNotice 0x70 core core 0)) ∧
    (s.event = .machineCheck (.control core) → ∃ t : State, exec .machineCheck s = .next t ∧
      t.due = s.due ++ [.coreFailure core] ∧ ∀ x, x < 8 → live (s.ctx core x) → (0x70, 0) ∈ (t.ctx core x).asyncs) ∧
    (key / 2 ^ 48 < 2 →
      check (.dramData key) ((s.spoilRange (key / 32 * 32) 32).checkNotice 0x71 (s.homeOf key) (s.homeOf key) 0)) ∧
    (s.event = .machineCheck (.l1Data core line unit) → ∃ t : State, exec .machineCheck s = .next t ∧ (off → t.mem = s.mem) ∧
      (t.core core).l1.length = (s.core core).l1.length ∧
      ∀ z ∈ (t.core core).l1, z.line = line → ∀ i, i < 4 → unit % 64 / 4 * 4 + i ∈ z.pois) ∧
    (s.event = .machineCheck (.samplerData comb line) → ∃ t : State, exec .machineCheck s = .next t ∧ (off → t.mem = s.mem) ∧
      ∀ z ∈ (t.comb comb).samp, z.line = line → z.pois = true) ∧
    (s.event = .machineCheck (.channel slice) → slice ∉ s.degraded → slice < 2304 → ∃ t : State,
      exec .machineCheck s = .next t ∧ t.degraded = s.degraded ++ [slice] ∧
      (off → t.mem = s.mem ∧ t.notices.length = s.notices.length + if s.spareLeft slice then 1 else 2)) ∧
    (s.event = .machineCheck (.nectar line) → line ∈ (s.hive hive).staging → ∃ t : State, exec .machineCheck s = .next t ∧
      (t.hive hive).staging = (s.hive hive).staging.erase line ∧
      ∀ k x, (∃ z, (k, z) ∈ s.cores) → x < 8 → (s.ctx k x).st = .parked → (s.ctx k x).wait = .staging line →
        (t.ctx k x).replay = some (0x73, BitVec.ofNat 64 line)) ∧
    check (.noSpare unit) (s.checkNotice 0x74 unit unit 0) ∧
    (s.event = .coreFailure core → core < 2048 → ∃ t : State, exec .coreFailure s = .next t ∧
      (∀ x, x < 8 → live (s.ctx core x) → hit core (s.ctx core x) → ∃ v, (0x70, v) ∈ (t.ctx core x).asyncs) ∧
      ((s.comb comb).spareUsed = true → (t.comb comb).closed = true) ∧
      ((s.comb comb).spareUsed = false → (t.comb comb).spareUsed = true ∧ t.mem = s.mem ∧
        (t.core core).failed = s.unitsOn comb))

/-! ### Reset, steps, encodings -/

/-- R445, R159-R162, R166, R210, R302, R324, R401, R433, R444: what reset leaves: a cold start is due, no firmware runs, no context
holds a thread, no register or record of the system holds anything, and memory has its canonical form. Registers for which the
spec gives no reset value are zero, which is the model's choice (log 3). -/
def Obligations.ResetState : Prop :=
  let s := State.reset
  MemOk s ∧ s.due = [.start 0] ∧ s.agenda = [] ∧ s.boot = 0 ∧ s.drawn = [] ∧ s.flights = [] ∧ s.groups = [] ∧ s.launches = [] ∧
    s.queues = [] ∧ s.installs = [] ∧ s.images = [] ∧ s.pctl = 0 ∧ s.nring = 0 ∧ s.nhead = 0 ∧ s.ntail = 0 ∧ s.grant = 1500 ∧
    s.preq = 1500 ∧ s.clamp = false ∧ s.dormant = false ∧ s.mux = false ∧
    (∀ n x, (s.ctx n x).st = .free ∧ (s.ctx n x).fmode = 0 ∧ (s.ctx n x).fflags = 0 ∧ (s.ctx n x).sstatus = 0 ∧
      (∀ r, (s.ctx n x).sreg r = ⟨0, true, false⟩) ∧ (∀ r, (s.ctx n x).vreg r = ⟨0, true, false⟩) ∧
      (∀ r, (s.ctx n x).preg r = ⟨r == 0, false⟩) ∧ (s.ctx n x).loop0.active = false ∧ (s.ctx n x).loop1.active = false) ∧
    (∀ n, (s.core n).ebal = 0 ∧ (s.core n).erefill = 0 ∧ (s.core n).mailbox = [] ∧ (s.core n).tasks = [] ∧
      (s.eng n).chain = .idle ∧ (s.lic n).holder = none) ∧
    (∀ h, (s.hive h).fring = 0 ∧ (s.hive h).faults = []) ∧
    step s = exec .start { s with due := [], event := .start 0 }

/-- Every step keeps the canonical form of memory and of the memory in every comb image: addresses rise, no listed byte is
zero, and the marks of poisoned bytes rise. -/
def Obligations.StepKeepsMemoryForm : Prop :=
  ∀ s t : State, MemOk s → step s = .next t → MemOk t

/-- R48-R58, R64, R65: the word that encodes a well-formed operation decodes to that operation, with every operand: S-words and
V-words with their literals, and the tile commands of an engine. -/
def Obligations.DecodeInvertsEncode : Prop :=
  ∀ (i : Instr) (w l : W32) (c : BitVec 256) (e : Nat), i.wf = true →
    (encodeS i = some (w, l) → decodeS w l = .ok i) ∧
    (encodeV i = some (w, l) → decodeV w l = .ok i) ∧
    (encodeTile i = some c →
      (∃ t ch x, i = .mbegin e t ch x) ∨ (∃ t ch a b n da db, i = .mstep e t ch a b n da db) ∨ (∃ t ch, i = .mend e t ch) ∨
        (∃ t ch d o w f, i = .mdrain e t ch d o w f) ∨ (∃ t ch, i = .mzero e t ch) → decodeTile e c = .ok i) ∧
    (isSOp i = true → isVOp i = false ∧ (encodeTile i).isNone)

/-- R48-R58, R64, R65: words written out field by field from the encoding tables decode to the operations that they stand for,
and words with a reserved major, a reserved guard or a reserved value are refused by name. -/
def Obligations.WordsDecode : Prop :=
  -- major, d, a, b, fn9, guard, L
  decodeS (0b000001#6 ++ 0b0011#4 ++ 0b0001#4 ++ 0b0010#4 ++ 0b000000001#9 ++ 0b1001#4 ++ 0#1) 0 = .ok (.sub 9 3 1 2) ∧
  -- major, d, a, imm13, guard, L
  decodeS (0b000010#6 ++ 0b0101#4 ++ 0b0110#4 ++ 0b1111111111110#13 ++ 0b0000#4 ++ 0#1) 0 = .ok (.addi 0 5 6 (.fld 0x1FFE)) ∧
  decodeS (0b000010#6 ++ 0b0101#4 ++ 0b0110#4 ++ 0#13 ++ 0b0000#4 ++ 1#1) 0x12345678 = .ok (.addi 0 5 6 (.lit 0x12345678)) ∧
  -- major, d, a, off6, wid, ord, scp, guard, L
  decodeS (0b010110#6 ++ 0b0111#4 ++ 0b1000#4 ++ 0b111111#6 ++ 0b011#3 ++ 0b01#2 ++ 0b10#2 ++ 0b0010#4 ++ 0#1) 0 =
    .ok (.ld 2 7 8 (.fld 0x3F) .d .acq .dev) ∧
  -- major, d, a, b, op, width, ord, scp, guard, L
  decodeS (0b011110#6 ++ 0b0001#4 ++ 0b0010#4 ++ 0b0011#4 ++ 0b1000#4 ++ 1#1 ++ 0b11#2 ++ 0b11#2 ++ 0b0000#4 ++ 0#1) 0 =
    .ok (.amo 0 1 2 3 .swap true .sc .sys) ∧
  -- major, disp21, guard, L
  decodeS (0b010001#6 ++ 0b111111111111111111000#21 ++ 0b0001#4 ++ 0#1) 0 = .ok (.br 1 (.fld 0x1FFFF8)) ∧
  -- major, d, a, sreg, dir, guard, L
  decodeS (0b100101#6 ++ 0b0000#4 ++ 0b0100#4 ++ 0x101#12 ++ 1#1 ++ 0b0000#4 ++ 0#1) 0 = .ok (.wrsr 0 4 0x101) ∧
  -- major, d, a, b, c, fn5, guard, L
  decodeV (0b000010#6 ++ 0b0001#4 ++ 0b0010#4 ++ 0b0011#4 ++ 0b0100#4 ++ 0b00010#5 ++ 0b0101#4 ++ 0#1) 0 =
    .ok (.vfnma 5 1 2 3 (.reg 4)) ∧
  decodeV (0b000100#6 ++ 0b0001#4 ++ 0b0010#4 ++ 0b0000#4 ++ 0b0000#4 ++ 0b01001#5 ++ 0b0000#4 ++ 1#1) 7 =
    .ok (.vsraI32 0 1 2 (.lit 7)) ∧
  -- 11, op, d, a, imm20
  decodeV (0b11#2 ++ 0b10#2 ++ 0b1110#4 ++ 0b1101#4 ++ 0x3F800#20) 0 = .ok (.vfmai 14 13 0x3F800) ∧
  decodeV 0 0 = .ok .vnop ∧
  -- opcode, tag, chain, A, B, k-blocks, da, db, zero
  decodeTile 5 (0x02#8 ++ 0xCAFEF00D#32 ++ 0x1234#16 ++ 0x000100#24 ++ 0x000200#24 ++ 0x003#12 ++ 0x2#4 ++ 0xF#4 ++ 0#132) =
    .ok (.mstep 5 0xCAFEF00D 0x1234 0x100 0x200 3 2 15) ∧
  decodeS (0b111111#6 ++ 0#26) 0 = .error .major ∧
  decodeS (0b000001#6 ++ 0b0011#4 ++ 0b0001#4 ++ 0b0010#4 ++ 0#9 ++ 0b1000#4 ++ 0#1) 0 = .error .guard ∧
  decodeS (0b000001#6 ++ 0b0011#4 ++ 0b0001#4 ++ 0b0010#4 ++ 25#9 ++ 0b0000#4 ++ 0#1) 0 = .error .reserved

/-- R43-R47, R61, R132, R170, R177: a step takes the event that is due; else, by free choice, an event of the agenda or the slot
of the core whose turn it is, in context `cycle` mod 8. In the slot of a Ready thread at a bundle boundary the words at its
program counter form a bundle, which decodes to an S and a V operation; when the tests before issue let it go, the V
operation is executed, then the S operation, and the charge is taken, once for a bundle that issues again. -/
def Obligations.StepRunsTheDecodedBundle : Prop :=
  ∀ (s u v : State) (core cx fuel : Nat) (b : Bundle) (si vi : Instr) (e : Event) (es : List Event) (l : Loc),
    let c := s.ctx core cx
    let after (t : State) : State := { t with turn := t.turn + 1 }
    let p := s.pick (s.agenda.length + 1)
    let idle := c.st = .ready ∧ (c.stage = .fresh ∨ c.cur = none) ∧ s.halts core = false ∧ c.gang = none ∧ c.forfeit = 0 ∧
      c.pending = none ∧ c.issued ≠ s.now + 1
    let n (u : State) : Nat := match si with | .qput _ _ _ b => min (((u.ctx core cx).vreg b).val.toNat / 256 % 4 + 1) (16 - b.toNat) | _ => 0
    let block := u.blockAt (leafKind l.leaf) l.key
    let word := l.key % 32 / 4
    let issues (u : State) : State :=
      { u with sel := (core, cx) }.modCtx core cx fun c => { c with cur := some b, stage := .fresh, vres := .none }
    let runs (u : State) : Prop := decodeS b.sw b.slit = .ok si → decodeV b.vw b.vlit = .ok vi →
      decodeBundle (u.ctx core cx).priv cx (n u) b = .ok (si, vi) → u.gate none core cx (n u) si vi = .go →
      exec vi (issues u) = .next v → s.slot core cx = match exec si { v with sel := (core, cx) } with
        | .next t => .next (t.charge (u.ctx core cx).paid core cx (sCharge si + vCharge vi))
        | o => o
    (s.due = e :: es → step s = exec e.op { s with due := es, event := e }) ∧
    (s.due = [] → s.agenda[p.1]? = some e → step s = exec e.op { p.2 with agenda := s.agenda.eraseIdx p.1, event := e }) ∧
    (s.due = [] → s.agenda[p.1]? = none → s.dormant = false → 2048 ≤ s.turn → step s = .next p.2.endCycle) ∧
    (s.due = [] → s.agenda[p.1]? = none → s.dormant = false → s.turn < 2048 → s.boot = 1 →
      (p.2.slot s.turn (s.now % 8) = .next v → step s = .next (after v))) ∧
    (s.due = [] → s.agenda[p.1]? = none → s.dormant = false → s.turn < 2048 → s.boot ≠ 1 → step s = .next (after p.2)) ∧
    (s.due = [] → s.agenda[p.1]? = none → s.dormant = true → step s = .next p.2) ∧
    (idle → c.paid = false ∨ c.cur = none → s.fetch core cx fetchBlocks = (.bundle b, u) → runs u) ∧
    (idle → c.paid = true → c.cur = some b → runs s) ∧
    (c.st = .free ∨ c.st = .parked → c.gang = none → s.slot core cx = .next s) ∧
    (s.fetchLoc core cx c.pc = (.ok l, u) → (blockKinds block)[word]? = some .start →
      s.fetch core cx (fuel + 1) = (.bundle (bundleAt (block.drop word)), u)) ∧
    (s.fetchLoc core cx c.pc = (.ok l, u) → (blockKinds block)[word]? = some .fill → s.fetch core cx (fuel + 1) =
      (u.modCtx core cx fun c => { c with pc := nextBlock c.pc, via := none, landed := false }).fetch core cx fuel) ∧
    (word < 8 → u.holdsCode (leafKind l.leaf) (l.key / 32 * 32 + 4 * word) = true → block[word]? = some (BitVec.ofNat 32 (u.mem.read (l.key / 32 * 32 + 4 * word) 4))) ∧
    (∀ (x y z w : W32) (xs : List W32),
      (x.getLsbD 0 = false → isVf y = true ∨ y.getLsbD 0 = false → bundleAt (x :: y :: xs) = ⟨x, y, 0, 0, 2⟩) ∧
      (x.getLsbD 0 = true → isVf y = true ∨ y.getLsbD 0 = false → bundleAt (x :: y :: z :: xs) = ⟨x, y, z, 0, 3⟩) ∧
      (x.getLsbD 0 = false → isVf y = false → y.getLsbD 0 = true → bundleAt (x :: y :: z :: xs) = ⟨x, y, 0, z, 3⟩) ∧
      (x.getLsbD 0 = true → isVf y = false → y.getLsbD 0 = true → bundleAt (x :: y :: z :: w :: xs) = ⟨x, y, z, w, 4⟩))
end

