-- ==== Sys2Proof/Laws/Dispatch.lean ====
section
/-! SUPPORT. The meaning that `exec` calls for each instruction. -/

namespace Sys2Proof.Machine

@[simp] theorem exec_nop (g : BitVec 4) (s : State) : exec (.nop g) s = execNop g s := rfl
@[simp] theorem exec_brk (g : BitVec 4) (s : State) : exec (.brk g) s = execBrk g s := rfl
@[simp] theorem exec_exit (g : BitVec 4) (s : State) : exec (.exit g) s = execExit g s := rfl
@[simp] theorem exec_eret (g : BitVec 4) (s : State) : exec (.eret g) s = execEret g s := rfl
@[simp] theorem exec_trap (g : BitVec 4) (i : BitVec 8) (s : State) : exec (.trap g i) s = execTrap g i s := rfl
@[simp] theorem exec_tlbinvPage (g a b : BitVec 4) (s : State) : exec (.tlbinvPage g a b) s = execTlbinvPage g a b s := rfl
@[simp] theorem exec_tlbinvAsid (g b : BitVec 4) (s : State) : exec (.tlbinvAsid g b) s = execTlbinvAsid g b s := rfl
@[simp] theorem exec_tlbinvAll (g : BitVec 4) (s : State) : exec (.tlbinvAll g) s = execTlbinvAll g s := rfl
@[simp] theorem exec_add (g d a b : BitVec 4) (s : State) : exec (.add g d a b) s = execAdd g d a b s := rfl
@[simp] theorem exec_sub (g d a b : BitVec 4) (s : State) : exec (.sub g d a b) s = execSub g d a b s := rfl
@[simp] theorem exec_mul (g d a b : BitVec 4) (s : State) : exec (.mul g d a b) s = execMul g d a b s := rfl
@[simp] theorem exec_mulh (g d a b : BitVec 4) (s : State) : exec (.mulh g d a b) s = execMulh g d a b s := rfl
@[simp] theorem exec_mulhu (g d a b : BitVec 4) (s : State) : exec (.mulhu g d a b) s = execMulhu g d a b s := rfl
@[simp] theorem exec_div (g d a b : BitVec 4) (s : State) : exec (.div g d a b) s = execDiv g d a b s := rfl
@[simp] theorem exec_divu (g d a b : BitVec 4) (s : State) : exec (.divu g d a b) s = execDivu g d a b s := rfl
@[simp] theorem exec_rem (g d a b : BitVec 4) (s : State) : exec (.rem g d a b) s = execRem g d a b s := rfl
@[simp] theorem exec_remu (g d a b : BitVec 4) (s : State) : exec (.remu g d a b) s = execRemu g d a b s := rfl
@[simp] theorem exec_and (g d a b : BitVec 4) (s : State) : exec (.and g d a b) s = execAnd g d a b s := rfl
@[simp] theorem exec_or (g d a b : BitVec 4) (s : State) : exec (.or g d a b) s = execOr g d a b s := rfl
@[simp] theorem exec_xor (g d a b : BitVec 4) (s : State) : exec (.xor g d a b) s = execXor g d a b s := rfl
@[simp] theorem exec_shl (g d a b : BitVec 4) (s : State) : exec (.shl g d a b) s = execShl g d a b s := rfl
@[simp] theorem exec_shr (g d a b : BitVec 4) (s : State) : exec (.shr g d a b) s = execShr g d a b s := rfl
@[simp] theorem exec_sra (g d a b : BitVec 4) (s : State) : exec (.sra g d a b) s = execSra g d a b s := rfl
@[simp] theorem exec_min (g d a b : BitVec 4) (s : State) : exec (.min g d a b) s = execMin g d a b s := rfl
@[simp] theorem exec_max (g d a b : BitVec 4) (s : State) : exec (.max g d a b) s = execMax g d a b s := rfl
@[simp] theorem exec_minu (g d a b : BitVec 4) (s : State) : exec (.minu g d a b) s = execMinu g d a b s := rfl
@[simp] theorem exec_maxu (g d a b : BitVec 4) (s : State) : exec (.maxu g d a b) s = execMaxu g d a b s := rfl
@[simp] theorem exec_clz (g d a : BitVec 4) (s : State) : exec (.clz g d a) s = execClz g d a s := rfl
@[simp] theorem exec_ctz (g d a : BitVec 4) (s : State) : exec (.ctz g d a) s = execCtz g d a s := rfl
@[simp] theorem exec_pcnt (g d a : BitVec 4) (s : State) : exec (.pcnt g d a) s = execPcnt g d a s := rfl
@[simp] theorem exec_sext (g d a : BitVec 4) (e : Elem) (s : State) : exec (.sext g d a e) s = execSext g d a e s := rfl
@[simp] theorem exec_mov (g d a : BitVec 4) (s : State) : exec (.mov g d a) s = execMov g d a s := rfl
@[simp] theorem exec_andn (g d a b : BitVec 4) (s : State) : exec (.andn g d a b) s = execAndn g d a b s := rfl
@[simp] theorem exec_addi (g d a : BitVec 4) (i : Imm 13) (s : State) : exec (.addi g d a i) s = execAddi g d a i s := rfl
@[simp] theorem exec_andi (g d a : BitVec 4) (i : Imm 13) (s : State) : exec (.andi g d a i) s = execAndi g d a i s := rfl
@[simp] theorem exec_ori (g d a : BitVec 4) (i : Imm 13) (s : State) : exec (.ori g d a i) s = execOri g d a i s := rfl
@[simp] theorem exec_xori (g d a : BitVec 4) (i : Imm 13) (s : State) : exec (.xori g d a i) s = execXori g d a i s := rfl
@[simp] theorem exec_shli (g d a : BitVec 4) (n : BitVec 6) (s : State) : exec (.shli g d a n) s = execShli g d a n s := rfl
@[simp] theorem exec_shri (g d a : BitVec 4) (n : BitVec 6) (s : State) : exec (.shri g d a n) s = execShri g d a n s := rfl
@[simp] theorem exec_srai (g d a : BitVec 4) (n : BitVec 6) (s : State) : exec (.srai g d a n) s = execSrai g d a n s := rfl
@[simp] theorem exec_movi (g d : BitVec 4) (i : Imm 13) (s : State) : exec (.movi g d i) s = execMovi g d i s := rfl
@[simp] theorem exec_orh (g d a : BitVec 4) (i : Imm 13) (s : State) : exec (.orh g d a i) s = execOrh g d a i s := rfl
@[simp] theorem exec_bfx (g d a : BitVec 4) (p : BitVec 6) (n : BitVec 5) (s : State) : exec (.bfx g d a p n) s = execBfx g d a p n s := rfl
@[simp] theorem exec_bfxs (g d a : BitVec 4) (p : BitVec 6) (n : BitVec 5) (s : State) : exec (.bfxs g d a p n) s = execBfxs g d a p n s := rfl
@[simp] theorem exec_bfi (g d a : BitVec 4) (p : BitVec 6) (n : BitVec 5) (s : State) : exec (.bfi g d a p n) s = execBfi g d a p n s := rfl
@[simp] theorem exec_lea (g d a b : BitVec 4) (n : BitVec 2) (s : State) : exec (.lea g d a b n) s = execLea g d a b n s := rfl
@[simp] theorem exec_leai (g d a : BitVec 4) (i : Imm 13) (s : State) : exec (.leai g d a i) s = execLeai g d a i s := rfl
@[simp] theorem exec_setsp (g d a : BitVec 4) (s1 : BitVec 8) (s : State) : exec (.setsp g d a s1) s = execSetsp g d a s1 s := rfl
@[simp] theorem exec_getsp (g d : BitVec 4) (s : State) : exec (.getsp g d) s = execGetsp g d s := rfl
@[simp] theorem exec_cmp (g : BitVec 4) (p : BitVec 3) (a b : BitVec 4) (c : Cond) (s : State) : exec (.cmp g p a b c) s = execCmp g p a b c s := rfl
@[simp] theorem exec_cmpi (g : BitVec 4) (p : BitVec 3) (a : BitVec 4) (c : Cond) (i : Imm 10) (s : State) : exec (.cmpi g p a c i) s = execCmpi g p a c i s := rfl
@[simp] theorem exec_pand (g : BitVec 4) (d a b : BitVec 3) (s : State) : exec (.pand g d a b) s = execPand g d a b s := rfl
@[simp] theorem exec_por (g : BitVec 4) (d a b : BitVec 3) (s : State) : exec (.por g d a b) s = execPor g d a b s := rfl
@[simp] theorem exec_pxor (g : BitVec 4) (d a b : BitVec 3) (s : State) : exec (.pxor g d a b) s = execPxor g d a b s := rfl
@[simp] theorem exec_pandn (g : BitVec 4) (d a b : BitVec 3) (s : State) : exec (.pandn g d a b) s = execPandn g d a b s := rfl
@[simp] theorem exec_pnot (g : BitVec 4) (d a : BitVec 3) (s : State) : exec (.pnot g d a) s = execPnot g d a s := rfl
@[simp] theorem exec_pword (g d : BitVec 4) (s : State) : exec (.pword g d) s = execPword g d s := rfl
@[simp] theorem exec_pset (g a : BitVec 4) (s : State) : exec (.pset g a) s = execPset g a s := rfl
@[simp] theorem exec_sel (g d a b : BitVec 4) (p : BitVec 3) (s : State) : exec (.sel g d a b p) s = execSel g d a b p s := rfl
@[simp] theorem exec_br (g : BitVec 4) (i : Imm 21) (s : State) : exec (.br g i) s = execBr g i s := rfl
@[simp] theorem exec_bl (g : BitVec 4) (i : Imm 21) (s : State) : exec (.bl g i) s = execBl g i s := rfl
@[simp] theorem exec_jr (g a : BitVec 4) (s : State) : exec (.jr g a) s = execJr g a s := rfl
@[simp] theorem exec_jlr (g d a : BitVec 4) (s : State) : exec (.jlr g d a) s = execJlr g d a s := rfl
@[simp] theorem exec_loop (g c : BitVec 4) (n : BitVec 17) (s : State) : exec (.loop g c n) s = execLoop g c n s := rfl
@[simp] theorem exec_loopi (g : BitVec 4) (c : Imm 4) (n : BitVec 17) (s : State) : exec (.loopi g c n) s = execLoopi g c n s := rfl
@[simp] theorem exec_ld (g d a : BitVec 4) (o : Imm 6) (wd : Width) (r : Ord) (s1 : Scope) (s : State) : exec (.ld g d a o wd r s1) s = execLd g d a o wd r s1 s := rfl
@[simp] theorem exec_ldz (g d a : BitVec 4) (o : Imm 6) (wd : Width) (r : Ord) (s1 : Scope) (s : State) : exec (.ldz g d a o wd r s1) s = execLdz g d a o wd r s1 s := rfl
@[simp] theorem exec_st (g d a : BitVec 4) (o : Imm 6) (wd : Width) (r : Ord) (s1 : Scope) (s : State) : exec (.st g d a o wd r s1) s = execSt g d a o wd r s1 s := rfl
@[simp] theorem exec_ldv (g d a : BitVec 4) (o : Imm 6) (r : Ord) (s1 : Scope) (s : State) : exec (.ldv g d a o r s1) s = execLdv g d a o r s1 s := rfl
@[simp] theorem exec_stv (g d a : BitVec 4) (o : Imm 6) (r : Ord) (s1 : Scope) (s : State) : exec (.stv g d a o r s1) s = execStv g d a o r s1 s := rfl
@[simp] theorem exec_ldsamp (g d a : BitVec 4) (o : Imm 6) (s : State) : exec (.ldsamp g d a o) s = execLdsamp g d a o s := rfl
@[simp] theorem exec_gath (g v s1 i : BitVec 4) (e : Elem) (h : BitVec 2) (r : Ord) (c : Scope) (s : State) : exec (.gath g v s1 i e h r c) s = execGath g v s1 i e h r c s := rfl
@[simp] theorem exec_scat (g v s1 i : BitVec 4) (e : Elem) (h : BitVec 2) (r : Ord) (c : Scope) (s : State) : exec (.scat g v s1 i e h r c) s = execScat g v s1 i e h r c s := rfl
@[simp] theorem exec_amo (g d a b : BitVec 4) (o : AmoOp) (w : Bool) (r : Ord) (s1 : Scope) (s : State) : exec (.amo g d a b o w r s1) s = execAmo g d a b o w r s1 s := rfl
@[simp] theorem exec_cas (g d a b : BitVec 4) (w : Bool) (r : Ord) (s1 : Scope) (s : State) : exec (.cas g d a b w r s1) s = execCas g d a b w r s1 s := rfl
@[simp] theorem exec_ared (g a b : BitVec 4) (o : AmoOp) (w : Bool) (r : Ord) (s1 : Scope) (s : State) : exec (.ared g a b o w r s1) s = execAred g a b o w r s1 s := rfl
@[simp] theorem exec_fence (g : BitVec 4) (k : FenceKind) (s1 : Scope) (s : State) : exec (.fence g k s1) s = execFence g k s1 s := rfl
@[simp] theorem exec_fsamp (g : BitVec 4) (s1 : Scope) (s : State) : exec (.fsamp g s1) s = execFsamp g s1 s := rfl
@[simp] theorem exec_sinv (g : BitVec 4) (s1 : Scope) (s : State) : exec (.sinv g s1) s = execSinv g s1 s := rfl
@[simp] theorem exec_mwatch (g a : BitVec 4) (s : State) : exec (.mwatch g a) s = execMwatch g a s := rfl
@[simp] theorem exec_mwait (g d b : BitVec 4) (s : State) : exec (.mwait g d b) s = execMwait g d b s := rfl
@[simp] theorem exec_mclr (g : BitVec 4) (s : State) : exec (.mclr g) s = execMclr g s := rfl
@[simp] theorem exec_cflush (g a : BitVec 4) (s : State) : exec (.cflush g a) s = execCflush g a s := rfl
@[simp] theorem exec_cinval (g a : BitVec 4) (s : State) : exec (.cinval g a) s = execCinval g a s := rfl
@[simp] theorem exec_prf (g a : BitVec 4) (s : State) : exec (.prf g a) s = execPrf g a s := rfl
@[simp] theorem exec_mig (g a : BitVec 4) (s : State) : exec (.mig g a) s = execMig g a s := rfl
@[simp] theorem exec_migc (g a : BitVec 4) (s : State) : exec (.migc g a) s = execMigc g a s := rfl
@[simp] theorem exec_migb (g : BitVec 4) (s : State) : exec (.migb g) s = execMigb g s := rfl
@[simp] theorem exec_home (g d a : BitVec 4) (s : State) : exec (.home g d a) s = execHome g d a s := rfl
@[simp] theorem exec_isfull (g d a : BitVec 4) (f : Bool) (s : State) : exec (.isfull g d a f) s = execIsfull g d a f s := rfl
@[simp] theorem exec_mkempty (g a : BitVec 4) (f : Bool) (s : State) : exec (.mkempty g a f) s = execMkempty g a f s := rfl
@[simp] theorem exec_mkfull (g a : BitVec 4) (f : Bool) (s : State) : exec (.mkfull g a f) s = execMkfull g a f s := rfl
@[simp] theorem exec_fmode (g : BitVec 4) (r : Rm) (s : State) : exec (.fmode g r) s = execFmode g r s := rfl
@[simp] theorem exec_rdsr (g d : BitVec 4) (s1 : BitVec 12) (s : State) : exec (.rdsr g d s1) s = execRdsr g d s1 s := rfl
@[simp] theorem exec_wrsr (g a : BitVec 4) (s1 : BitVec 12) (s : State) : exec (.wrsr g a s1) s = execWrsr g a s1 s := rfl
@[simp] theorem exec_msg (g a : BitVec 4) (c : BitVec 6) (s : State) : exec (.msg g a c) s = execMsg g a c s := rfl
@[simp] theorem exec_mrecv (g d : BitVec 4) (s : State) : exec (.mrecv g d) s = execMrecv g d s := rfl
@[simp] theorem exec_chbind (g : BitVec 4) (c : BitVec 6) (s : State) : exec (.chbind g c) s = execChbind g c s := rfl
@[simp] theorem exec_tbset (g a : BitVec 4) (c : BitVec 6) (s : State) : exec (.tbset g a c) s = execTbset g a c s := rfl
@[simp] theorem exec_tbclr (g : BitVec 4) (c : BitVec 6) (s : State) : exec (.tbclr g c) s = execTbclr g c s := rfl
@[simp] theorem exec_mbrd (g d : BitVec 4) (p : Bool) (w : BitVec 2) (s : State) : exec (.mbrd g d p w) s = execMbrd g d p w s := rfl
@[simp] theorem exec_callat (g d a b : BitVec 4) (s : State) : exec (.callat g d a b) s = execCallat g d a b s := rfl
@[simp] theorem exec_ret (g a : BitVec 4) (s : State) : exec (.ret g a) s = execRet g a s := rfl
@[simp] theorem exec_qput (g d a b : BitVec 4) (s : State) : exec (.qput g d a b) s = execQput g d a b s := rfl
@[simp] theorem exec_gang (g : BitVec 4) (w : BitVec 2) (s : State) : exec (.gang g w) s = execGang g w s := rfl
@[simp] theorem exec_ungang (g : BitVec 4) (s : State) : exec (.ungang g) s = execUngang g s := rfl
@[simp] theorem exec_barInit (g a b : BitVec 4) (s : State) : exec (.barInit g a b) s = execBarInit g a b s := rfl
@[simp] theorem exec_barArv (g a : BitVec 4) (s : State) : exec (.barArv g a) s = execBarArv g a s := rfl
@[simp] theorem exec_barWait (g a b : BitVec 4) (s : State) : exec (.barWait g a b) s = execBarWait g a b s := rfl
@[simp] theorem exec_barArw (g a : BitVec 4) (s : State) : exec (.barArw g a) s = execBarArw g a s := rfl
@[simp] theorem exec_trig (g : BitVec 4) (s : State) : exec (.trig g) s = execTrig g s := rfl
@[simp] theorem exec_cancel (g a : BitVec 4) (s : State) : exec (.cancel g a) s = execCancel g a s := rfl
@[simp] theorem exec_cnt (g d a : BitVec 4) (f : BitVec 2) (s : State) : exec (.cnt g d a f) s = execCnt g d a f s := rfl
@[simp] theorem exec_xget (g d a b : BitVec 4) (n r : Bool) (c : BitVec 3) (s : State) : exec (.xget g d a b n r c) s = execXget g d a b n r c s := rfl
@[simp] theorem exec_xput (g d a b : BitVec 4) (n r : Bool) (c : BitVec 3) (s : State) : exec (.xput g d a b n r c) s = execXput g d a b n r c s := rfl
@[simp] theorem exec_xcopy (g d a b : BitVec 4) (n r : Bool) (c : BitVec 3) (s : State) : exec (.xcopy g d a b n r c) s = execXcopy g d a b n r c s := rfl
@[simp] theorem exec_xtile (g d a b : BitVec 4) (n r : Bool) (c : BitVec 3) (s : State) : exec (.xtile g d a b n r c) s = execXtile g d a b n r c s := rfl
@[simp] theorem exec_xgetv (g d a b : BitVec 4) (n r : Bool) (c : BitVec 3) (s : State) : exec (.xgetv g d a b n r c) s = execXgetv g d a b n r c s := rfl
@[simp] theorem exec_xwait (g d a : BitVec 4) (c : BitVec 3) (s : State) : exec (.xwait g d a c) s = execXwait g d a c s := rfl
@[simp] theorem exec_xstat (g d : BitVec 4) (k : Bool) (c : BitVec 3) (s : State) : exec (.xstat g d k c) s = execXstat g d k c s := rfl
@[simp] theorem exec_cbinit (g a b : BitVec 4) (n : BitVec 5) (s : State) : exec (.cbinit g a b n) s = execCbinit g a b n s := rfl
@[simp] theorem exec_cbpush (g d a b : BitVec 4) (s : State) : exec (.cbpush g d a b) s = execCbpush g d a b s := rfl
@[simp] theorem exec_cbpop (g d a b : BitVec 4) (s : State) : exec (.cbpop g d a b) s = execCbpop g d a b s := rfl
@[simp] theorem exec_cbwait (g d a b : BitVec 4) (s : State) : exec (.cbwait g d a b) s = execCbwait g d a b s := rfl
@[simp] theorem exec_cbspace (g d a b : BitVec 4) (s : State) : exec (.cbspace g d a b) s = execCbspace g d a b s := rfl
@[simp] theorem exec_pinit (g a : BitVec 4) (s : State) : exec (.pinit g a) s = execPinit g a s := rfl
@[simp] theorem exec_pfill (g a b : BitVec 4) (s : State) : exec (.pfill g a b) s = execPfill g a b s := rfl
@[simp] theorem exec_peq (g a b : BitVec 4) (s : State) : exec (.peq g a b) s = execPeq g a b s := rfl
@[simp] theorem exec_pget (g d a : BitVec 4) (s : State) : exec (.pget g d a) s = execPget g d a s := rfl
@[simp] theorem exec_ptry (g d a : BitVec 4) (s : State) : exec (.ptry g d a) s = execPtry g d a s := rfl
@[simp] theorem exec_pstat (g d a : BitVec 4) (f : BitVec 2) (s : State) : exec (.pstat g d a f) s = execPstat g d a f s := rfl
@[simp] theorem exec_licAcq (g : BitVec 4) (x : Bool) (s : State) : exec (.licAcq g x) s = execLicAcq g x s := rfl
@[simp] theorem exec_licRel (g : BitVec 4) (s : State) : exec (.licRel g) s = execLicRel g s := rfl
@[simp] theorem exec_licGive (g : BitVec 4) (s : State) : exec (.licGive g) s = execLicGive g s := rfl
@[simp] theorem exec_mcmd (g a b : BitVec 4) (s : State) : exec (.mcmd g a b) s = execMcmd g a b s := rfl
@[simp] theorem exec_mfin (g d a : BitVec 4) (s : State) : exec (.mfin g d a) s = execMfin g d a s := rfl
@[simp] theorem exec_ninst (g d a : BitVec 4) (s : State) : exec (.ninst g d a) s = execNinst g d a s := rfl
@[simp] theorem exec_nwait (g d a : BitVec 4) (s : State) : exec (.nwait g d a) s = execNwait g d a s := rfl
@[simp] theorem exec_nstat (g d a : BitVec 4) (f : BitVec 2) (s : State) : exec (.nstat g d a f) s = execNstat g d a f s := rfl
@[simp] theorem exec_nretire (g a : BitVec 4) (s : State) : exec (.nretire g a) s = execNretire g a s := rfl
@[simp] theorem exec_bsinit (g a b : BitVec 4) (x : Bool) (s : State) : exec (.bsinit g a b x) s = execBsinit g a b x s := rfl
@[simp] theorem exec_bsget (g d : BitVec 4) (n : BitVec 5) (s : State) : exec (.bsget g d n) s = execBsget g d n s := rfl
@[simp] theorem exec_bsput (g a : BitVec 4) (n : BitVec 5) (s : State) : exec (.bsput g a n) s = execBsput g a n s := rfl
@[simp] theorem exec_bspeek (g d : BitVec 4) (n : BitVec 5) (s : State) : exec (.bspeek g d n) s = execBspeek g d n s := rfl
@[simp] theorem exec_bsskip (g b : BitVec 4) (s : State) : exec (.bsskip g b) s = execBsskip g b s := rfl
@[simp] theorem exec_bsalign (g : BitVec 4) (x : Bool) (s : State) : exec (.bsalign g x) s = execBsalign g x s := rfl
@[simp] theorem exec_bsflush (g d : BitVec 4) (s : State) : exec (.bsflush g d) s = execBsflush g d s := rfl
@[simp] theorem exec_fwait (g d a : BitVec 4) (s : State) : exec (.fwait g d a) s = execFwait g d a s := rfl
@[simp] theorem exec_vnop (s : State) : exec (.vnop) s = execVnop s := rfl
@[simp] theorem exec_vaddF32 (g d a : BitVec 4) (b : VSrc) (s : State) : exec (.vaddF32 g d a b) s = execVaddF32 g d a b s := rfl
@[simp] theorem exec_vsubF32 (g d a : BitVec 4) (b : VSrc) (s : State) : exec (.vsubF32 g d a b) s = execVsubF32 g d a b s := rfl
@[simp] theorem exec_vmulF32 (g d a : BitVec 4) (b : VSrc) (s : State) : exec (.vmulF32 g d a b) s = execVmulF32 g d a b s := rfl
@[simp] theorem exec_vminF32 (g d a : BitVec 4) (b : VSrc) (s : State) : exec (.vminF32 g d a b) s = execVminF32 g d a b s := rfl
@[simp] theorem exec_vmaxF32 (g d a : BitVec 4) (b : VSrc) (s : State) : exec (.vmaxF32 g d a b) s = execVmaxF32 g d a b s := rfl
@[simp] theorem exec_vminnum (g d a : BitVec 4) (b : VSrc) (s : State) : exec (.vminnum g d a b) s = execVminnum g d a b s := rfl
@[simp] theorem exec_vmaxnum (g d a : BitVec 4) (b : VSrc) (s : State) : exec (.vmaxnum g d a b) s = execVmaxnum g d a b s := rfl
@[simp] theorem exec_vabs (g d : BitVec 4) (a : VSrc) (s : State) : exec (.vabs g d a) s = execVabs g d a s := rfl
@[simp] theorem exec_vneg (g d : BitVec 4) (a : VSrc) (s : State) : exec (.vneg g d a) s = execVneg g d a s := rfl
@[simp] theorem exec_vcopysign (g d a : BitVec 4) (b : VSrc) (s : State) : exec (.vcopysign g d a b) s = execVcopysign g d a b s := rfl
@[simp] theorem exec_vfma (g d a b : BitVec 4) (c : VSrc) (s : State) : exec (.vfma g d a b c) s = execVfma g d a b c s := rfl
@[simp] theorem exec_vfms (g d a b : BitVec 4) (c : VSrc) (s : State) : exec (.vfms g d a b c) s = execVfms g d a b c s := rfl
@[simp] theorem exec_vfnma (g d a b : BitVec 4) (c : VSrc) (s : State) : exec (.vfnma g d a b c) s = execVfnma g d a b c s := rfl
@[simp] theorem exec_vfnms (g d a b : BitVec 4) (c : VSrc) (s : State) : exec (.vfnms g d a b c) s = execVfnms g d a b c s := rfl
@[simp] theorem exec_vhAdd (g d a : BitVec 4) (b : VSrc) (t : Bool) (s : State) : exec (.vhAdd g d a b t) s = execVhAdd g d a b t s := rfl
@[simp] theorem exec_vhMul (g d a : BitVec 4) (b : VSrc) (t : Bool) (s : State) : exec (.vhMul g d a b t) s = execVhMul g d a b t s := rfl
@[simp] theorem exec_vhFma (g d a b : BitVec 4) (c : VSrc) (t : Bool) (s : State) : exec (.vhFma g d a b c t) s = execVhFma g d a b c t s := rfl
@[simp] theorem exec_vhMin (g d a : BitVec 4) (b : VSrc) (t : Bool) (s : State) : exec (.vhMin g d a b t) s = execVhMin g d a b t s := rfl
@[simp] theorem exec_vhMax (g d a : BitVec 4) (b : VSrc) (t : Bool) (s : State) : exec (.vhMax g d a b t) s = execVhMax g d a b t s := rfl
@[simp] theorem exec_vaddI32 (g d a : BitVec 4) (b : VSrc) (s : State) : exec (.vaddI32 g d a b) s = execVaddI32 g d a b s := rfl
@[simp] theorem exec_vsubI32 (g d a : BitVec 4) (b : VSrc) (s : State) : exec (.vsubI32 g d a b) s = execVsubI32 g d a b s := rfl
@[simp] theorem exec_vmulI32 (g d a : BitVec 4) (b : VSrc) (s : State) : exec (.vmulI32 g d a b) s = execVmulI32 g d a b s := rfl
@[simp] theorem exec_vmulh (g d a : BitVec 4) (b : VSrc) (u : Bool) (s : State) : exec (.vmulh g d a b u) s = execVmulh g d a b u s := rfl
@[simp] theorem exec_vandI32 (g d a : BitVec 4) (b : VSrc) (s : State) : exec (.vandI32 g d a b) s = execVandI32 g d a b s := rfl
@[simp] theorem exec_vorI32 (g d a : BitVec 4) (b : VSrc) (s : State) : exec (.vorI32 g d a b) s = execVorI32 g d a b s := rfl
@[simp] theorem exec_vxorI32 (g d a : BitVec 4) (b : VSrc) (s : State) : exec (.vxorI32 g d a b) s = execVxorI32 g d a b s := rfl
@[simp] theorem exec_vshlI32 (g d a : BitVec 4) (b : VSrc) (s : State) : exec (.vshlI32 g d a b) s = execVshlI32 g d a b s := rfl
@[simp] theorem exec_vshrI32 (g d a : BitVec 4) (b : VSrc) (s : State) : exec (.vshrI32 g d a b) s = execVshrI32 g d a b s := rfl
@[simp] theorem exec_vsraI32 (g d a : BitVec 4) (b : VSrc) (s : State) : exec (.vsraI32 g d a b) s = execVsraI32 g d a b s := rfl
@[simp] theorem exec_vminI32 (g d a : BitVec 4) (b : VSrc) (s : State) : exec (.vminI32 g d a b) s = execVminI32 g d a b s := rfl
@[simp] theorem exec_vmaxI32 (g d a : BitVec 4) (b : VSrc) (s : State) : exec (.vmaxI32 g d a b) s = execVmaxI32 g d a b s := rfl
@[simp] theorem exec_vminN32 (g d a : BitVec 4) (b : VSrc) (s : State) : exec (.vminN32 g d a b) s = execVminN32 g d a b s := rfl
@[simp] theorem exec_vmaxN32 (g d a : BitVec 4) (b : VSrc) (s : State) : exec (.vmaxN32 g d a b) s = execVmaxN32 g d a b s := rfl
@[simp] theorem exec_vclzI32 (g d : BitVec 4) (a : VSrc) (s : State) : exec (.vclzI32 g d a) s = execVclzI32 g d a s := rfl
@[simp] theorem exec_vpcntI32 (g d : BitVec 4) (a : VSrc) (s : State) : exec (.vpcntI32 g d a) s = execVpcntI32 g d a s := rfl
@[simp] theorem exec_vadd8 (g d a : BitVec 4) (b : VSrc) (s : State) : exec (.vadd8 g d a b) s = execVadd8 g d a b s := rfl
@[simp] theorem exec_vadds8 (g d a : BitVec 4) (b : VSrc) (s : State) : exec (.vadds8 g d a b) s = execVadds8 g d a b s := rfl
@[simp] theorem exec_vdot4 (g d a b : BitVec 4) (c : VSrc) (s : State) : exec (.vdot4 g d a b c) s = execVdot4 g d a b c s := rfl
@[simp] theorem exec_vcmp (g : BitVec 4) (m : BitVec 3) (a : BitVec 4) (b : VSrc) (t : CmpTy) (c : VCond) (s : State) : exec (.vcmp g m a b t c) s = execVcmp g m a b t c s := rfl
@[simp] theorem exec_vsel (g d a : BitVec 4) (b : VSrc) (m : BitVec 3) (s : State) : exec (.vsel g d a b m) s = execVsel g d a b m s := rfl
@[simp] theorem exec_vcvtI32F32 (g d : BitVec 4) (a : VSrc) (r : Bool) (s : State) : exec (.vcvtI32F32 g d a r) s = execVcvtI32F32 g d a r s := rfl
@[simp] theorem exec_vcvtF32I32 (g d : BitVec 4) (a : VSrc) (s : State) : exec (.vcvtF32I32 g d a) s = execVcvtF32I32 g d a s := rfl
@[simp] theorem exec_vcvtF32N32 (g d : BitVec 4) (a : VSrc) (s : State) : exec (.vcvtF32N32 g d a) s = execVcvtF32N32 g d a s := rfl
@[simp] theorem exec_vcvtF16F32 (g d a : BitVec 4) (b : VSrc) (s : State) : exec (.vcvtF16F32 g d a b) s = execVcvtF16F32 g d a b s := rfl
@[simp] theorem exec_vcvtF32F16 (g d : BitVec 4) (a : VSrc) (s : State) : exec (.vcvtF32F16 g d a) s = execVcvtF32F16 g d a s := rfl
@[simp] theorem exec_vcvtBf16F32 (g d a : BitVec 4) (b : VSrc) (s : State) : exec (.vcvtBf16F32 g d a b) s = execVcvtBf16F32 g d a b s := rfl
@[simp] theorem exec_vcvtF32Bf16 (g d : BitVec 4) (a : VSrc) (s : State) : exec (.vcvtF32Bf16 g d a) s = execVcvtF32Bf16 g d a s := rfl
@[simp] theorem exec_vcvtI32I8 (g d : BitVec 4) (a : VSrc) (s : State) : exec (.vcvtI32I8 g d a) s = execVcvtI32I8 g d a s := rfl
@[simp] theorem exec_vcvtI8I32 (g d : BitVec 4) (a : VSrc) (s : State) : exec (.vcvtI8I32 g d a) s = execVcvtI8I32 g d a s := rfl
@[simp] theorem exec_vcvtN32F32 (g d : BitVec 4) (a : VSrc) (r : Bool) (s : State) : exec (.vcvtN32F32 g d a r) s = execVcvtN32F32 g d a r s := rfl
@[simp] theorem exec_vrcp (g d : BitVec 4) (a : VSrc) (s : State) : exec (.vrcp g d a) s = execVrcp g d a s := rfl
@[simp] theorem exec_vrsqrt (g d : BitVec 4) (a : VSrc) (s : State) : exec (.vrsqrt g d a) s = execVrsqrt g d a s := rfl
@[simp] theorem exec_vsqrt (g d : BitVec 4) (a : VSrc) (s : State) : exec (.vsqrt g d a) s = execVsqrt g d a s := rfl
@[simp] theorem exec_vdiv (g d a : BitVec 4) (b : VSrc) (s : State) : exec (.vdiv g d a b) s = execVdiv g d a b s := rfl
@[simp] theorem exec_vexp2 (g d : BitVec 4) (a : VSrc) (s : State) : exec (.vexp2 g d a) s = execVexp2 g d a s := rfl
@[simp] theorem exec_vlog2 (g d : BitVec 4) (a : VSrc) (s : State) : exec (.vlog2 g d a) s = execVlog2 g d a s := rfl
@[simp] theorem exec_vsinpi (g d : BitVec 4) (a : VSrc) (s : State) : exec (.vsinpi g d a) s = execVsinpi g d a s := rfl
@[simp] theorem exec_vcospi (g d : BitVec 4) (a : VSrc) (s : State) : exec (.vcospi g d a) s = execVcospi g d a s := rfl
@[simp] theorem exec_vperm (g d a : BitVec 4) (b : VSrc) (s : State) : exec (.vperm g d a b) s = execVperm g d a b s := rfl
@[simp] theorem exec_vrotl (g d : BitVec 4) (a : VSrc) (n : BitVec 4) (s : State) : exec (.vrotl g d a n) s = execVrotl g d a n s := rfl
@[simp] theorem exec_vbcastl (g d : BitVec 4) (a : VSrc) (n : BitVec 4) (s : State) : exec (.vbcastl g d a n) s = execVbcastl g d a n s := rfl
@[simp] theorem exec_vredaddF32 (g d a : BitVec 4) (s : State) : exec (.vredaddF32 g d a) s = execVredaddF32 g d a s := rfl
@[simp] theorem exec_vredaddI32 (g d a : BitVec 4) (s : State) : exec (.vredaddI32 g d a) s = execVredaddI32 g d a s := rfl
@[simp] theorem exec_vredminF32 (g d a : BitVec 4) (s : State) : exec (.vredminF32 g d a) s = execVredminF32 g d a s := rfl
@[simp] theorem exec_vredmaxF32 (g d a : BitVec 4) (s : State) : exec (.vredmaxF32 g d a) s = execVredmaxF32 g d a s := rfl
@[simp] theorem exec_vmov (g d : BitVec 4) (a : VSrc) (s : State) : exec (.vmov g d a) s = execVmov g d a s := rfl
@[simp] theorem exec_vbcast (g d a : BitVec 4) (s : State) : exec (.vbcast g d a) s = execVbcast g d a s := rfl
@[simp] theorem exec_vext (g d a n : BitVec 4) (s : State) : exec (.vext g d a n) s = execVext g d a n s := rfl
@[simp] theorem exec_vins (g d a n : BitVec 4) (s : State) : exec (.vins g d a n) s = execVins g d a n s := rfl
@[simp] theorem exec_vlane (g d : BitVec 4) (s : State) : exec (.vlane g d) s = execVlane g d s := rfl
@[simp] theorem exec_mlog (g : BitVec 4) (d a b : BitVec 3) (o : MaskOp) (s : State) : exec (.mlog g d a b o) s = execMlog g d a b o s := rfl
@[simp] theorem exec_mcnt (g d : BitVec 4) (a : BitVec 3) (s : State) : exec (.mcnt g d a) s = execMcnt g d a s := rfl
@[simp] theorem exec_mset (g : BitVec 4) (d : BitVec 3) (a : BitVec 4) (s : State) : exec (.mset g d a) s = execMset g d a s := rfl
@[simp] theorem exec_vbfpk (d a m : BitVec 4) (s : State) : exec (.vbfpk d a m) s = execVbfpk d a m s := rfl
@[simp] theorem exec_vbfunp (d a n : BitVec 4) (s : State) : exec (.vbfunp d a n) s = execVbfunp d a n s := rfl
@[simp] theorem exec_vbfhdr (d a m : BitVec 4) (s : State) : exec (.vbfhdr d a m) s = execVbfhdr d a m s := rfl
@[simp] theorem exec_vbfscale (d a b : BitVec 4) (s : State) : exec (.vbfscale d a b) s = execVbfscale d a b s := rfl
@[simp] theorem exec_vtopk (g d a b k : BitVec 4) (s : State) : exec (.vtopk g d a b k) s = execVtopk g d a b k s := rfl
@[simp] theorem exec_vfmak (g d a : BitVec 4) (k : BitVec 8) (s : State) : exec (.vfmak g d a k) s = execVfmak g d a k s := rfl
@[simp] theorem exec_vaddk (g d a : BitVec 4) (k : BitVec 8) (s : State) : exec (.vaddk g d a k) s = execVaddk g d a k s := rfl
@[simp] theorem exec_vmulk (g d a : BitVec 4) (k : BitVec 8) (s : State) : exec (.vmulk g d a k) s = execVmulk g d a k s := rfl
@[simp] theorem exec_vaddi (d a : BitVec 4) (i : BitVec 20) (s : State) : exec (.vaddi d a i) s = execVaddi d a i s := rfl
@[simp] theorem exec_vmuli (d a : BitVec 4) (i : BitVec 20) (s : State) : exec (.vmuli d a i) s = execVmuli d a i s := rfl
@[simp] theorem exec_vfmai (d a : BitVec 4) (i : BitVec 20) (s : State) : exec (.vfmai d a i) s = execVfmai d a i s := rfl
@[simp] theorem exec_vmovi (d : BitVec 4) (i : BitVec 20) (s : State) : exec (.vmovi d i) s = execVmovi d i s := rfl
@[simp] theorem exec_mbegin (e : Nat) (tag : W32) (chain : W16) (anchor : Byte) (s : State) : exec (.mbegin e tag chain anchor) s = execMbegin e tag chain anchor s := rfl
@[simp] theorem exec_mstep (e : Nat) (tag : W32) (chain : W16) (a b : BitVec 24) (n : BitVec 12) (da db : BitVec 4) (s : State) : exec (.mstep e tag chain a b n da db) s = execMstep e tag chain a b n da db s := rfl
@[simp] theorem exec_mend (e : Nat) (tag : W32) (chain : W16) (s : State) : exec (.mend e tag chain) s = execMend e tag chain s := rfl
@[simp] theorem exec_mdrain (e : Nat) (tag : W32) (chain : W16) (dest : BitVec 12) (o : BitVec 24) (w : BitVec 6) (f : BitVec 4) (s : State) : exec (.mdrain e tag chain dest o w f) s = execMdrain e tag chain dest o w f s := rfl
@[simp] theorem exec_mzero (e : Nat) (tag : W32) (chain : W16) (s : State) : exec (.mzero e tag chain) s = execMzero e tag chain s := rfl
@[simp] theorem exec_commandAccept (s : State) : exec (.commandAccept) s = execCommandAccept s := rfl
@[simp] theorem exec_kStep (s : State) : exec (.kStep) s = execKStep s := rfl
@[simp] theorem exec_drainComplete (s : State) : exec (.drainComplete) s = execDrainComplete s := rfl
@[simp] theorem exec_licenceGrant (s : State) : exec (.licenceGrant) s = execLicenceGrant s := rfl
@[simp] theorem exec_coopHandover (s : State) : exec (.coopHandover) s = execCoopHandover s := rfl
@[simp] theorem exec_fill (s : State) : exec (.fill) s = execFill s := rfl
@[simp] theorem exec_remoteFill (s : State) : exec (.remoteFill) s = execRemoteFill s := rfl
@[simp] theorem exec_clearDone (s : State) : exec (.clearDone) s = execClearDone s := rfl
@[simp] theorem exec_trapDelivery (s : State) : exec (.trapDelivery) s = execTrapDelivery s := rfl
@[simp] theorem exec_cancelDelivery (s : State) : exec (.cancelDelivery) s = execCancelDelivery s := rfl
@[simp] theorem exec_watchdog (s : State) : exec (.watchdog) s = execWatchdog s := rfl
@[simp] theorem exec_energyRefill (s : State) : exec (.energyRefill) s = execEnergyRefill s := rfl
@[simp] theorem exec_migrationDepart (s : State) : exec (.migrationDepart) s = execMigrationDepart s := rfl
@[simp] theorem exec_migrationArrival (s : State) : exec (.migrationArrival) s = execMigrationArrival s := rfl
@[simp] theorem exec_messageArrival (s : State) : exec (.messageArrival) s = execMessageArrival s := rfl
@[simp] theorem exec_messageRetry (s : State) : exec (.messageRetry) s = execMessageRetry s := rfl
@[simp] theorem exec_counterAcknowledged (s : State) : exec (.counterAcknowledged) s = execCounterAcknowledged s := rfl
@[simp] theorem exec_groupAdmit (s : State) : exec (.groupAdmit) s = execGroupAdmit s := rfl
@[simp] theorem exec_launchStart (s : State) : exec (.launchStart) s = execLaunchStart s := rfl
@[simp] theorem exec_pctlGo (s : State) : exec (.pctlGo) s = execPctlGo s := rfl
@[simp] theorem exec_preemptHalt (s : State) : exec (.preemptHalt) s = execPreemptHalt s := rfl
@[simp] theorem exec_preemptSave (s : State) : exec (.preemptSave) s = execPreemptSave s := rfl
@[simp] theorem exec_prest (s : State) : exec (.prest) s = execPrest s := rfl
@[simp] theorem exec_pageWalk (s : State) : exec (.pageWalk) s = execPageWalk s := rfl
@[simp] theorem exec_faultRetry (s : State) : exec (.faultRetry) s = execFaultRetry s := rfl
@[simp] theorem exec_faultDecline (s : State) : exec (.faultDecline) s = execFaultDecline s := rfl
@[simp] theorem exec_ephemeralExpire (s : State) : exec (.ephemeralExpire) s = execEphemeralExpire s := rfl
@[simp] theorem exec_samplerFill (s : State) : exec (.samplerFill) s = execSamplerFill s := rfl
@[simp] theorem exec_mwaitTimeout (s : State) : exec (.mwaitTimeout) s = execMwaitTimeout s := rfl
@[simp] theorem exec_qhdr (s : State) : exec (.qhdr) s = execQhdr s := rfl
@[simp] theorem exec_queueStateStore (s : State) : exec (.queueStateStore) s = execQueueStateStore s := rfl
@[simp] theorem exec_launchPacket (s : State) : exec (.launchPacket) s = execLaunchPacket s := rfl
@[simp] theorem exec_fencePacket (s : State) : exec (.fencePacket) s = execFencePacket s := rfl
@[simp] theorem exec_fencePass (s : State) : exec (.fencePass) s = execFencePass s := rfl
@[simp] theorem exec_signalPacket (s : State) : exec (.signalPacket) s = execSignalPacket s := rfl
@[simp] theorem exec_copyPacket (s : State) : exec (.copyPacket) s = execCopyPacket s := rfl
@[simp] theorem exec_installPacket (s : State) : exec (.installPacket) s = execInstallPacket s := rfl
@[simp] theorem exec_markerPacket (s : State) : exec (.markerPacket) s = execMarkerPacket s := rfl
@[simp] theorem exec_cancelPacket (s : State) : exec (.cancelPacket) s = execCancelPacket s := rfl
@[simp] theorem exec_nheadWrite (s : State) : exec (.nheadWrite) s = execNheadWrite s := rfl
@[simp] theorem exec_transferArrive (s : State) : exec (.transferArrive) s = execTransferArrive s := rfl
@[simp] theorem exec_streamerPiece (s : State) : exec (.streamerPiece) s = execStreamerPiece s := rfl
@[simp] theorem exec_transferFinish (s : State) : exec (.transferFinish) s = execTransferFinish s := rfl
@[simp] theorem exec_ringReserve (s : State) : exec (.ringReserve) s = execRingReserve s := rfl
@[simp] theorem exec_promiseRequest (s : State) : exec (.promiseRequest) s = execPromiseRequest s := rfl
@[simp] theorem exec_blockErase (s : State) : exec (.blockErase) s = execBlockErase s := rfl
@[simp] theorem exec_unitProgram (s : State) : exec (.unitProgram) s = execUnitProgram s := rfl
@[simp] theorem exec_installComplete (s : State) : exec (.installComplete) s = execInstallComplete s := rfl
@[simp] theorem exec_supersedeDrain (s : State) : exec (.supersedeDrain) s = execSupersedeDrain s := rfl
@[simp] theorem exec_stagingFill (s : State) : exec (.stagingFill) s = execStagingFill s := rfl
@[simp] theorem exec_hostWrite (s : State) : exec (.hostWrite) s = execHostWrite s := rfl
@[simp] theorem exec_hostCompletionTimeout (s : State) : exec (.hostCompletionTimeout) s = execHostCompletionTimeout s := rfl
@[simp] theorem exec_linkRetrain (s : State) : exec (.linkRetrain) s = execLinkRetrain s := rfl
@[simp] theorem exec_powerTick (s : State) : exec (.powerTick) s = execPowerTick s := rfl
@[simp] theorem exec_grantLoss (s : State) : exec (.grantLoss) s = execGrantLoss s := rfl
@[simp] theorem exec_clampEngage (s : State) : exec (.clampEngage) s = execClampEngage s := rfl
@[simp] theorem exec_clampRelease (s : State) : exec (.clampRelease) s = execClampRelease s := rfl
@[simp] theorem exec_frameLatch (s : State) : exec (.frameLatch) s = execFrameLatch s := rfl
@[simp] theorem exec_verticalBlank (s : State) : exec (.verticalBlank) s = execVerticalBlank s := rfl
@[simp] theorem exec_genlockHeld (s : State) : exec (.genlockHeld) s = execGenlockHeld s := rfl
@[simp] theorem exec_lockLost (s : State) : exec (.lockLost) s = execLockLost s := rfl
@[simp] theorem exec_muxReturn (s : State) : exec (.muxReturn) s = execMuxReturn s := rfl
@[simp] theorem exec_start (s : State) : exec (.start) s = execStart s := rfl
@[simp] theorem exec_mainPowerLoss (s : State) : exec (.mainPowerLoss) s = execMainPowerLoss s := rfl
@[simp] theorem exec_dorm (s : State) : exec (.dorm) s = execDorm s := rfl
@[simp] theorem exec_warmReset (s : State) : exec (.warmReset) s = execWarmReset s := rfl
@[simp] theorem exec_repairReplayEnd (s : State) : exec (.repairReplayEnd) s = execRepairReplayEnd s := rfl
@[simp] theorem exec_spareTakeover (s : State) : exec (.spareTakeover) s = execSpareTakeover s := rfl
@[simp] theorem exec_machineCheck (s : State) : exec (.machineCheck) s = execMachineCheck s := rfl
@[simp] theorem exec_coreFailure (s : State) : exec (.coreFailure) s = execCoreFailure s := rfl
@[simp] theorem exec_storeAcknowledgement (s : State) : exec (.storeAcknowledgement) s = execStoreAcknowledgement s := rfl

end Sys2Proof.Machine
end

