-- ==== Sys2Proof/Laws/State.lean ====
section
/-! SUPPORT. What each update of the state and of a context leaves as it was: one lemma per field. -/

namespace Sys2Proof.Machine

/-! ### Updates of the state -/

@[simp] theorem State.setCore_cycle (s : State) (n : Nat) (c : Core) : (s.setCore n c).cycle = s.cycle := rfl
@[simp] theorem State.setCore_turn (s : State) (n : Nat) (c : Core) : (s.setCore n c).turn = s.turn := rfl
@[simp] theorem State.setCore_due (s : State) (n : Nat) (c : Core) : (s.setCore n c).due = s.due := rfl
@[simp] theorem State.setCore_agenda (s : State) (n : Nat) (c : Core) : (s.setCore n c).agenda = s.agenda := rfl
@[simp] theorem State.setCore_event (s : State) (n : Nat) (c : Core) : (s.setCore n c).event = s.event := rfl
@[simp] theorem State.setCore_choices (s : State) (n : Nat) (c : Core) : (s.setCore n c).choices = s.choices := rfl
@[simp] theorem State.setCore_drawn (s : State) (n : Nat) (c : Core) : (s.setCore n c).drawn = s.drawn := rfl
@[simp] theorem State.setCore_sel (s : State) (n : Nat) (c : Core) : (s.setCore n c).sel = s.sel := rfl
@[simp] theorem State.setCore_seq (s : State) (n : Nat) (c : Core) : (s.setCore n c).seq = s.seq := rfl
@[simp] theorem State.setCore_mem (s : State) (n : Nat) (c : Core) : (s.setCore n c).mem = s.mem := rfl
@[simp] theorem State.setCore_pairs (s : State) (n : Nat) (c : Core) : (s.setCore n c).pairs = s.pairs := rfl
@[simp] theorem State.setCore_combs (s : State) (n : Nat) (c : Core) : (s.setCore n c).combs = s.combs := rfl
@[simp] theorem State.setCore_hive0 (s : State) (n : Nat) (c : Core) : (s.setCore n c).hive0 = s.hive0 := rfl
@[simp] theorem State.setCore_hive1 (s : State) (n : Nat) (c : Core) : (s.setCore n c).hive1 = s.hive1 := rfl
@[simp] theorem State.setCore_flights (s : State) (n : Nat) (c : Core) : (s.setCore n c).flights = s.flights := rfl
@[simp] theorem State.setCore_waiters (s : State) (n : Nat) (c : Core) : (s.setCore n c).waiters = s.waiters := rfl
@[simp] theorem State.setCore_watches (s : State) (n : Nat) (c : Core) : (s.setCore n c).watches = s.watches := rfl
@[simp] theorem State.setCore_arrivals (s : State) (n : Nat) (c : Core) : (s.setCore n c).arrivals = s.arrivals := rfl
@[simp] theorem State.setCore_ephem (s : State) (n : Nat) (c : Core) : (s.setCore n c).ephem = s.ephem := rfl
@[simp] theorem State.setCore_extents (s : State) (n : Nat) (c : Core) : (s.setCore n c).extents = s.extents := rfl
@[simp] theorem State.setCore_degraded (s : State) (n : Nat) (c : Core) : (s.setCore n c).degraded = s.degraded := rfl
@[simp] theorem State.setCore_bringing (s : State) (n : Nat) (c : Core) : (s.setCore n c).bringing = s.bringing := rfl
@[simp] theorem State.setCore_lost (s : State) (n : Nat) (c : Core) : (s.setCore n c).lost = s.lost := rfl
@[simp] theorem State.setCore_relit (s : State) (n : Nat) (c : Core) : (s.setCore n c).relit = s.relit := rfl
@[simp] theorem State.setCore_replaying (s : State) (n : Nat) (c : Core) : (s.setCore n c).replaying = s.replaying := rfl
@[simp] theorem State.setCore_sparesUsed (s : State) (n : Nat) (c : Core) : (s.setCore n c).sparesUsed = s.sparesUsed := rfl
@[simp] theorem State.setCore_groups (s : State) (n : Nat) (c : Core) : (s.setCore n c).groups = s.groups := rfl
@[simp] theorem State.setCore_declined (s : State) (n : Nat) (c : Core) : (s.setCore n c).declined = s.declined := rfl
@[simp] theorem State.setCore_sysBad (s : State) (n : Nat) (c : Core) : (s.setCore n c).sysBad = s.sysBad := rfl
@[simp] theorem State.setCore_sptroot (s : State) (n : Nat) (c : Core) : (s.setCore n c).sptroot = s.sptroot := rfl
@[simp] theorem State.setCore_lint (s : State) (n : Nat) (c : Core) : (s.setCore n c).lint = s.lint := rfl
@[simp] theorem State.setCore_lsize (s : State) (n : Nat) (c : Core) : (s.setCore n c).lsize = s.lsize := rfl
@[simp] theorem State.setCore_psave (s : State) (n : Nat) (c : Core) : (s.setCore n c).psave = s.psave := rfl
@[simp] theorem State.setCore_pcomb0 (s : State) (n : Nat) (c : Core) : (s.setCore n c).pcomb0 = s.pcomb0 := rfl
@[simp] theorem State.setCore_pcomb1 (s : State) (n : Nat) (c : Core) : (s.setCore n c).pcomb1 = s.pcomb1 := rfl
@[simp] theorem State.setCore_pctl (s : State) (n : Nat) (c : Core) : (s.setCore n c).pctl = s.pctl := rfl
@[simp] theorem State.setCore_prest (s : State) (n : Nat) (c : Core) : (s.setCore n c).prest = s.prest := rfl
@[simp] theorem State.setCore_halt (s : State) (n : Nat) (c : Core) : (s.setCore n c).halt = s.halt := rfl
@[simp] theorem State.setCore_haltAt (s : State) (n : Nat) (c : Core) : (s.setCore n c).haltAt = s.haltAt := rfl
@[simp] theorem State.setCore_ktab (s : State) (n : Nat) (c : Core) : (s.setCore n c).ktab = s.ktab := rfl
@[simp] theorem State.setCore_etab (s : State) (n : Nat) (c : Core) : (s.setCore n c).etab = s.etab := rfl
@[simp] theorem State.setCore_dtab (s : State) (n : Nat) (c : Core) : (s.setCore n c).dtab = s.dtab := rfl
@[simp] theorem State.setCore_qhdr (s : State) (n : Nat) (c : Core) : (s.setCore n c).qhdr = s.qhdr := rfl
@[simp] theorem State.setCore_queues (s : State) (n : Nat) (c : Core) : (s.setCore n c).queues = s.queues := rfl
@[simp] theorem State.setCore_launches (s : State) (n : Nat) (c : Core) : (s.setCore n c).launches = s.launches := rfl
@[simp] theorem State.setCore_held (s : State) (n : Nat) (c : Core) : (s.setCore n c).held = s.held := rfl
@[simp] theorem State.setCore_adds (s : State) (n : Nat) (c : Core) : (s.setCore n c).adds = s.adds := rfl
@[simp] theorem State.setCore_promises (s : State) (n : Nat) (c : Core) : (s.setCore n c).promises = s.promises := rfl
@[simp] theorem State.setCore_promReqs (s : State) (n : Nat) (c : Core) : (s.setCore n c).promReqs = s.promReqs := rfl
@[simp] theorem State.setCore_licReqs (s : State) (n : Nat) (c : Core) : (s.setCore n c).licReqs = s.licReqs := rfl
@[simp] theorem State.setCore_licences (s : State) (n : Nat) (c : Core) : (s.setCore n c).licences = s.licences := rfl
@[simp] theorem State.setCore_cmds (s : State) (n : Nat) (c : Core) : (s.setCore n c).cmds = s.cmds := rfl
@[simp] theorem State.setCore_xfers (s : State) (n : Nat) (c : Core) : (s.setCore n c).xfers = s.xfers := rfl
@[simp] theorem State.setCore_installs (s : State) (n : Nat) (c : Core) : (s.setCore n c).installs = s.installs := rfl
@[simp] theorem State.setCore_extShow (s : State) (n : Nat) (c : Core) : (s.setCore n c).extShow = s.extShow := rfl
@[simp] theorem State.setCore_outShow (s : State) (n : Nat) (c : Core) : (s.setCore n c).outShow = s.outShow := rfl
@[simp] theorem State.setCore_nblocks (s : State) (n : Nat) (c : Core) : (s.setCore n c).nblocks = s.nblocks := rfl
@[simp] theorem State.setCore_remaps (s : State) (n : Nat) (c : Core) : (s.setCore n c).remaps = s.remaps := rfl
@[simp] theorem State.setCore_outs (s : State) (n : Nat) (c : Core) : (s.setCore n c).outs = s.outs := rfl
@[simp] theorem State.setCore_mux (s : State) (n : Nat) (c : Core) : (s.setCore n c).mux = s.mux := rfl
@[simp] theorem State.setCore_images (s : State) (n : Nat) (c : Core) : (s.setCore n c).images = s.images := rfl
@[simp] theorem State.setCore_oldImages (s : State) (n : Nat) (c : Core) : (s.setCore n c).oldImages = s.oldImages := rfl
@[simp] theorem State.setCore_saving (s : State) (n : Nat) (c : Core) : (s.setCore n c).saving = s.saving := rfl
@[simp] theorem State.setCore_boot (s : State) (n : Nat) (c : Core) : (s.setCore n c).boot = s.boot := rfl
@[simp] theorem State.setCore_savedFills (s : State) (n : Nat) (c : Core) : (s.setCore n c).savedFills = s.savedFills := rfl
@[simp] theorem State.setCore_grant (s : State) (n : Nat) (c : Core) : (s.setCore n c).grant = s.grant := rfl
@[simp] theorem State.setCore_grantSeq (s : State) (n : Nat) (c : Core) : (s.setCore n c).grantSeq = s.grantSeq := rfl
@[simp] theorem State.setCore_preq (s : State) (n : Nat) (c : Core) : (s.setCore n c).preq = s.preq := rfl
@[simp] theorem State.setCore_asked (s : State) (n : Nat) (c : Core) : (s.setCore n c).asked = s.asked := rfl
@[simp] theorem State.setCore_request (s : State) (n : Nat) (c : Core) : (s.setCore n c).request = s.request := rfl
@[simp] theorem State.setCore_pmeas (s : State) (n : Nat) (c : Core) : (s.setCore n c).pmeas = s.pmeas := rfl
@[simp] theorem State.setCore_clamp (s : State) (n : Nat) (c : Core) : (s.setCore n c).clamp = s.clamp := rfl
@[simp] theorem State.setCore_missed (s : State) (n : Nat) (c : Core) : (s.setCore n c).missed = s.missed := rfl
@[simp] theorem State.setCore_above (s : State) (n : Nat) (c : Core) : (s.setCore n c).above = s.above := rfl
@[simp] theorem State.setCore_below (s : State) (n : Nat) (c : Core) : (s.setCore n c).below = s.below := rfl
@[simp] theorem State.setCore_startKind (s : State) (n : Nat) (c : Core) : (s.setCore n c).startKind = s.startKind := rfl
@[simp] theorem State.setCore_dref (s : State) (n : Nat) (c : Core) : (s.setCore n c).dref = s.dref := rfl
@[simp] theorem State.setCore_dormant (s : State) (n : Nat) (c : Core) : (s.setCore n c).dormant = s.dormant := rfl
@[simp] theorem State.setCore_lead (s : State) (n : Nat) (c : Core) : (s.setCore n c).lead = s.lead := rfl
@[simp] theorem State.setCore_nring (s : State) (n : Nat) (c : Core) : (s.setCore n c).nring = s.nring := rfl
@[simp] theorem State.setCore_nhead (s : State) (n : Nat) (c : Core) : (s.setCore n c).nhead = s.nhead := rfl
@[simp] theorem State.setCore_ntail (s : State) (n : Nat) (c : Core) : (s.setCore n c).ntail = s.ntail := rfl
@[simp] theorem State.setCore_notices (s : State) (n : Nat) (c : Core) : (s.setCore n c).notices = s.notices := rfl
@[simp] theorem State.setCore_hlink (s : State) (n : Nat) (c : Core) : (s.setCore n c).hlink = s.hlink := rfl
@[simp] theorem State.setCore_msix (s : State) (n : Nat) (c : Core) : (s.setCore n c).msix = s.msix := rfl
@[simp] theorem State.setCore_msiHeld (s : State) (n : Nat) (c : Core) : (s.setCore n c).msiHeld = s.msiHeld := rfl
@[simp] theorem State.modComb_cycle (s : State) (n : Nat) (f : Comb → Comb) : (s.modComb n f).cycle = s.cycle := rfl
@[simp] theorem State.modComb_turn (s : State) (n : Nat) (f : Comb → Comb) : (s.modComb n f).turn = s.turn := rfl
@[simp] theorem State.modComb_due (s : State) (n : Nat) (f : Comb → Comb) : (s.modComb n f).due = s.due := rfl
@[simp] theorem State.modComb_agenda (s : State) (n : Nat) (f : Comb → Comb) : (s.modComb n f).agenda = s.agenda := rfl
@[simp] theorem State.modComb_event (s : State) (n : Nat) (f : Comb → Comb) : (s.modComb n f).event = s.event := rfl
@[simp] theorem State.modComb_choices (s : State) (n : Nat) (f : Comb → Comb) : (s.modComb n f).choices = s.choices := rfl
@[simp] theorem State.modComb_drawn (s : State) (n : Nat) (f : Comb → Comb) : (s.modComb n f).drawn = s.drawn := rfl
@[simp] theorem State.modComb_sel (s : State) (n : Nat) (f : Comb → Comb) : (s.modComb n f).sel = s.sel := rfl
@[simp] theorem State.modComb_seq (s : State) (n : Nat) (f : Comb → Comb) : (s.modComb n f).seq = s.seq := rfl
@[simp] theorem State.modComb_mem (s : State) (n : Nat) (f : Comb → Comb) : (s.modComb n f).mem = s.mem := rfl
@[simp] theorem State.modComb_cores (s : State) (n : Nat) (f : Comb → Comb) : (s.modComb n f).cores = s.cores := rfl
@[simp] theorem State.modComb_pairs (s : State) (n : Nat) (f : Comb → Comb) : (s.modComb n f).pairs = s.pairs := rfl
@[simp] theorem State.modComb_hive0 (s : State) (n : Nat) (f : Comb → Comb) : (s.modComb n f).hive0 = s.hive0 := rfl
@[simp] theorem State.modComb_hive1 (s : State) (n : Nat) (f : Comb → Comb) : (s.modComb n f).hive1 = s.hive1 := rfl
@[simp] theorem State.modComb_flights (s : State) (n : Nat) (f : Comb → Comb) : (s.modComb n f).flights = s.flights := rfl
@[simp] theorem State.modComb_waiters (s : State) (n : Nat) (f : Comb → Comb) : (s.modComb n f).waiters = s.waiters := rfl
@[simp] theorem State.modComb_watches (s : State) (n : Nat) (f : Comb → Comb) : (s.modComb n f).watches = s.watches := rfl
@[simp] theorem State.modComb_arrivals (s : State) (n : Nat) (f : Comb → Comb) : (s.modComb n f).arrivals = s.arrivals := rfl
@[simp] theorem State.modComb_ephem (s : State) (n : Nat) (f : Comb → Comb) : (s.modComb n f).ephem = s.ephem := rfl
@[simp] theorem State.modComb_extents (s : State) (n : Nat) (f : Comb → Comb) : (s.modComb n f).extents = s.extents := rfl
@[simp] theorem State.modComb_degraded (s : State) (n : Nat) (f : Comb → Comb) : (s.modComb n f).degraded = s.degraded := rfl
@[simp] theorem State.modComb_bringing (s : State) (n : Nat) (f : Comb → Comb) : (s.modComb n f).bringing = s.bringing := rfl
@[simp] theorem State.modComb_lost (s : State) (n : Nat) (f : Comb → Comb) : (s.modComb n f).lost = s.lost := rfl
@[simp] theorem State.modComb_relit (s : State) (n : Nat) (f : Comb → Comb) : (s.modComb n f).relit = s.relit := rfl
@[simp] theorem State.modComb_replaying (s : State) (n : Nat) (f : Comb → Comb) : (s.modComb n f).replaying = s.replaying := rfl
@[simp] theorem State.modComb_sparesUsed (s : State) (n : Nat) (f : Comb → Comb) : (s.modComb n f).sparesUsed = s.sparesUsed := rfl
@[simp] theorem State.modComb_groups (s : State) (n : Nat) (f : Comb → Comb) : (s.modComb n f).groups = s.groups := rfl
@[simp] theorem State.modComb_declined (s : State) (n : Nat) (f : Comb → Comb) : (s.modComb n f).declined = s.declined := rfl
@[simp] theorem State.modComb_sysBad (s : State) (n : Nat) (f : Comb → Comb) : (s.modComb n f).sysBad = s.sysBad := rfl
@[simp] theorem State.modComb_sptroot (s : State) (n : Nat) (f : Comb → Comb) : (s.modComb n f).sptroot = s.sptroot := rfl
@[simp] theorem State.modComb_lint (s : State) (n : Nat) (f : Comb → Comb) : (s.modComb n f).lint = s.lint := rfl
@[simp] theorem State.modComb_lsize (s : State) (n : Nat) (f : Comb → Comb) : (s.modComb n f).lsize = s.lsize := rfl
@[simp] theorem State.modComb_psave (s : State) (n : Nat) (f : Comb → Comb) : (s.modComb n f).psave = s.psave := rfl
@[simp] theorem State.modComb_pcomb0 (s : State) (n : Nat) (f : Comb → Comb) : (s.modComb n f).pcomb0 = s.pcomb0 := rfl
@[simp] theorem State.modComb_pcomb1 (s : State) (n : Nat) (f : Comb → Comb) : (s.modComb n f).pcomb1 = s.pcomb1 := rfl
@[simp] theorem State.modComb_pctl (s : State) (n : Nat) (f : Comb → Comb) : (s.modComb n f).pctl = s.pctl := rfl
@[simp] theorem State.modComb_prest (s : State) (n : Nat) (f : Comb → Comb) : (s.modComb n f).prest = s.prest := rfl
@[simp] theorem State.modComb_halt (s : State) (n : Nat) (f : Comb → Comb) : (s.modComb n f).halt = s.halt := rfl
@[simp] theorem State.modComb_haltAt (s : State) (n : Nat) (f : Comb → Comb) : (s.modComb n f).haltAt = s.haltAt := rfl
@[simp] theorem State.modComb_ktab (s : State) (n : Nat) (f : Comb → Comb) : (s.modComb n f).ktab = s.ktab := rfl
@[simp] theorem State.modComb_etab (s : State) (n : Nat) (f : Comb → Comb) : (s.modComb n f).etab = s.etab := rfl
@[simp] theorem State.modComb_dtab (s : State) (n : Nat) (f : Comb → Comb) : (s.modComb n f).dtab = s.dtab := rfl
@[simp] theorem State.modComb_qhdr (s : State) (n : Nat) (f : Comb → Comb) : (s.modComb n f).qhdr = s.qhdr := rfl
@[simp] theorem State.modComb_queues (s : State) (n : Nat) (f : Comb → Comb) : (s.modComb n f).queues = s.queues := rfl
@[simp] theorem State.modComb_launches (s : State) (n : Nat) (f : Comb → Comb) : (s.modComb n f).launches = s.launches := rfl
@[simp] theorem State.modComb_held (s : State) (n : Nat) (f : Comb → Comb) : (s.modComb n f).held = s.held := rfl
@[simp] theorem State.modComb_adds (s : State) (n : Nat) (f : Comb → Comb) : (s.modComb n f).adds = s.adds := rfl
@[simp] theorem State.modComb_promises (s : State) (n : Nat) (f : Comb → Comb) : (s.modComb n f).promises = s.promises := rfl
@[simp] theorem State.modComb_promReqs (s : State) (n : Nat) (f : Comb → Comb) : (s.modComb n f).promReqs = s.promReqs := rfl
@[simp] theorem State.modComb_licReqs (s : State) (n : Nat) (f : Comb → Comb) : (s.modComb n f).licReqs = s.licReqs := rfl
@[simp] theorem State.modComb_licences (s : State) (n : Nat) (f : Comb → Comb) : (s.modComb n f).licences = s.licences := rfl
@[simp] theorem State.modComb_cmds (s : State) (n : Nat) (f : Comb → Comb) : (s.modComb n f).cmds = s.cmds := rfl
@[simp] theorem State.modComb_xfers (s : State) (n : Nat) (f : Comb → Comb) : (s.modComb n f).xfers = s.xfers := rfl
@[simp] theorem State.modComb_installs (s : State) (n : Nat) (f : Comb → Comb) : (s.modComb n f).installs = s.installs := rfl
@[simp] theorem State.modComb_extShow (s : State) (n : Nat) (f : Comb → Comb) : (s.modComb n f).extShow = s.extShow := rfl
@[simp] theorem State.modComb_outShow (s : State) (n : Nat) (f : Comb → Comb) : (s.modComb n f).outShow = s.outShow := rfl
@[simp] theorem State.modComb_nblocks (s : State) (n : Nat) (f : Comb → Comb) : (s.modComb n f).nblocks = s.nblocks := rfl
@[simp] theorem State.modComb_remaps (s : State) (n : Nat) (f : Comb → Comb) : (s.modComb n f).remaps = s.remaps := rfl
@[simp] theorem State.modComb_outs (s : State) (n : Nat) (f : Comb → Comb) : (s.modComb n f).outs = s.outs := rfl
@[simp] theorem State.modComb_mux (s : State) (n : Nat) (f : Comb → Comb) : (s.modComb n f).mux = s.mux := rfl
@[simp] theorem State.modComb_images (s : State) (n : Nat) (f : Comb → Comb) : (s.modComb n f).images = s.images := rfl
@[simp] theorem State.modComb_oldImages (s : State) (n : Nat) (f : Comb → Comb) : (s.modComb n f).oldImages = s.oldImages := rfl
@[simp] theorem State.modComb_saving (s : State) (n : Nat) (f : Comb → Comb) : (s.modComb n f).saving = s.saving := rfl
@[simp] theorem State.modComb_boot (s : State) (n : Nat) (f : Comb → Comb) : (s.modComb n f).boot = s.boot := rfl
@[simp] theorem State.modComb_savedFills (s : State) (n : Nat) (f : Comb → Comb) : (s.modComb n f).savedFills = s.savedFills := rfl
@[simp] theorem State.modComb_grant (s : State) (n : Nat) (f : Comb → Comb) : (s.modComb n f).grant = s.grant := rfl
@[simp] theorem State.modComb_grantSeq (s : State) (n : Nat) (f : Comb → Comb) : (s.modComb n f).grantSeq = s.grantSeq := rfl
@[simp] theorem State.modComb_preq (s : State) (n : Nat) (f : Comb → Comb) : (s.modComb n f).preq = s.preq := rfl
@[simp] theorem State.modComb_asked (s : State) (n : Nat) (f : Comb → Comb) : (s.modComb n f).asked = s.asked := rfl
@[simp] theorem State.modComb_request (s : State) (n : Nat) (f : Comb → Comb) : (s.modComb n f).request = s.request := rfl
@[simp] theorem State.modComb_pmeas (s : State) (n : Nat) (f : Comb → Comb) : (s.modComb n f).pmeas = s.pmeas := rfl
@[simp] theorem State.modComb_clamp (s : State) (n : Nat) (f : Comb → Comb) : (s.modComb n f).clamp = s.clamp := rfl
@[simp] theorem State.modComb_missed (s : State) (n : Nat) (f : Comb → Comb) : (s.modComb n f).missed = s.missed := rfl
@[simp] theorem State.modComb_above (s : State) (n : Nat) (f : Comb → Comb) : (s.modComb n f).above = s.above := rfl
@[simp] theorem State.modComb_below (s : State) (n : Nat) (f : Comb → Comb) : (s.modComb n f).below = s.below := rfl
@[simp] theorem State.modComb_startKind (s : State) (n : Nat) (f : Comb → Comb) : (s.modComb n f).startKind = s.startKind := rfl
@[simp] theorem State.modComb_dref (s : State) (n : Nat) (f : Comb → Comb) : (s.modComb n f).dref = s.dref := rfl
@[simp] theorem State.modComb_dormant (s : State) (n : Nat) (f : Comb → Comb) : (s.modComb n f).dormant = s.dormant := rfl
@[simp] theorem State.modComb_lead (s : State) (n : Nat) (f : Comb → Comb) : (s.modComb n f).lead = s.lead := rfl
@[simp] theorem State.modComb_nring (s : State) (n : Nat) (f : Comb → Comb) : (s.modComb n f).nring = s.nring := rfl
@[simp] theorem State.modComb_nhead (s : State) (n : Nat) (f : Comb → Comb) : (s.modComb n f).nhead = s.nhead := rfl
@[simp] theorem State.modComb_ntail (s : State) (n : Nat) (f : Comb → Comb) : (s.modComb n f).ntail = s.ntail := rfl
@[simp] theorem State.modComb_notices (s : State) (n : Nat) (f : Comb → Comb) : (s.modComb n f).notices = s.notices := rfl
@[simp] theorem State.modComb_hlink (s : State) (n : Nat) (f : Comb → Comb) : (s.modComb n f).hlink = s.hlink := rfl
@[simp] theorem State.modComb_msix (s : State) (n : Nat) (f : Comb → Comb) : (s.modComb n f).msix = s.msix := rfl
@[simp] theorem State.modComb_msiHeld (s : State) (n : Nat) (f : Comb → Comb) : (s.modComb n f).msiHeld = s.msiHeld := rfl
@[simp] theorem State.later_cycle (s : State) (e : Event) : (s.later e).cycle = s.cycle := rfl
@[simp] theorem State.later_turn (s : State) (e : Event) : (s.later e).turn = s.turn := rfl
@[simp] theorem State.later_due (s : State) (e : Event) : (s.later e).due = s.due := rfl
@[simp] theorem State.later_event (s : State) (e : Event) : (s.later e).event = s.event := rfl
@[simp] theorem State.later_choices (s : State) (e : Event) : (s.later e).choices = s.choices := rfl
@[simp] theorem State.later_drawn (s : State) (e : Event) : (s.later e).drawn = s.drawn := rfl
@[simp] theorem State.later_sel (s : State) (e : Event) : (s.later e).sel = s.sel := rfl
@[simp] theorem State.later_seq (s : State) (e : Event) : (s.later e).seq = s.seq := rfl
@[simp] theorem State.later_mem (s : State) (e : Event) : (s.later e).mem = s.mem := rfl
@[simp] theorem State.later_cores (s : State) (e : Event) : (s.later e).cores = s.cores := rfl
@[simp] theorem State.later_pairs (s : State) (e : Event) : (s.later e).pairs = s.pairs := rfl
@[simp] theorem State.later_combs (s : State) (e : Event) : (s.later e).combs = s.combs := rfl
@[simp] theorem State.later_hive0 (s : State) (e : Event) : (s.later e).hive0 = s.hive0 := rfl
@[simp] theorem State.later_hive1 (s : State) (e : Event) : (s.later e).hive1 = s.hive1 := rfl
@[simp] theorem State.later_flights (s : State) (e : Event) : (s.later e).flights = s.flights := rfl
@[simp] theorem State.later_waiters (s : State) (e : Event) : (s.later e).waiters = s.waiters := rfl
@[simp] theorem State.later_watches (s : State) (e : Event) : (s.later e).watches = s.watches := rfl
@[simp] theorem State.later_arrivals (s : State) (e : Event) : (s.later e).arrivals = s.arrivals := rfl
@[simp] theorem State.later_ephem (s : State) (e : Event) : (s.later e).ephem = s.ephem := rfl
@[simp] theorem State.later_extents (s : State) (e : Event) : (s.later e).extents = s.extents := rfl
@[simp] theorem State.later_degraded (s : State) (e : Event) : (s.later e).degraded = s.degraded := rfl
@[simp] theorem State.later_bringing (s : State) (e : Event) : (s.later e).bringing = s.bringing := rfl
@[simp] theorem State.later_lost (s : State) (e : Event) : (s.later e).lost = s.lost := rfl
@[simp] theorem State.later_relit (s : State) (e : Event) : (s.later e).relit = s.relit := rfl
@[simp] theorem State.later_replaying (s : State) (e : Event) : (s.later e).replaying = s.replaying := rfl
@[simp] theorem State.later_sparesUsed (s : State) (e : Event) : (s.later e).sparesUsed = s.sparesUsed := rfl
@[simp] theorem State.later_groups (s : State) (e : Event) : (s.later e).groups = s.groups := rfl
@[simp] theorem State.later_declined (s : State) (e : Event) : (s.later e).declined = s.declined := rfl
@[simp] theorem State.later_sysBad (s : State) (e : Event) : (s.later e).sysBad = s.sysBad := rfl
@[simp] theorem State.later_sptroot (s : State) (e : Event) : (s.later e).sptroot = s.sptroot := rfl
@[simp] theorem State.later_lint (s : State) (e : Event) : (s.later e).lint = s.lint := rfl
@[simp] theorem State.later_lsize (s : State) (e : Event) : (s.later e).lsize = s.lsize := rfl
@[simp] theorem State.later_psave (s : State) (e : Event) : (s.later e).psave = s.psave := rfl
@[simp] theorem State.later_pcomb0 (s : State) (e : Event) : (s.later e).pcomb0 = s.pcomb0 := rfl
@[simp] theorem State.later_pcomb1 (s : State) (e : Event) : (s.later e).pcomb1 = s.pcomb1 := rfl
@[simp] theorem State.later_pctl (s : State) (e : Event) : (s.later e).pctl = s.pctl := rfl
@[simp] theorem State.later_prest (s : State) (e : Event) : (s.later e).prest = s.prest := rfl
@[simp] theorem State.later_halt (s : State) (e : Event) : (s.later e).halt = s.halt := rfl
@[simp] theorem State.later_haltAt (s : State) (e : Event) : (s.later e).haltAt = s.haltAt := rfl
@[simp] theorem State.later_ktab (s : State) (e : Event) : (s.later e).ktab = s.ktab := rfl
@[simp] theorem State.later_etab (s : State) (e : Event) : (s.later e).etab = s.etab := rfl
@[simp] theorem State.later_dtab (s : State) (e : Event) : (s.later e).dtab = s.dtab := rfl
@[simp] theorem State.later_qhdr (s : State) (e : Event) : (s.later e).qhdr = s.qhdr := rfl
@[simp] theorem State.later_queues (s : State) (e : Event) : (s.later e).queues = s.queues := rfl
@[simp] theorem State.later_launches (s : State) (e : Event) : (s.later e).launches = s.launches := rfl
@[simp] theorem State.later_held (s : State) (e : Event) : (s.later e).held = s.held := rfl
@[simp] theorem State.later_adds (s : State) (e : Event) : (s.later e).adds = s.adds := rfl
@[simp] theorem State.later_promises (s : State) (e : Event) : (s.later e).promises = s.promises := rfl
@[simp] theorem State.later_promReqs (s : State) (e : Event) : (s.later e).promReqs = s.promReqs := rfl
@[simp] theorem State.later_licReqs (s : State) (e : Event) : (s.later e).licReqs = s.licReqs := rfl
@[simp] theorem State.later_licences (s : State) (e : Event) : (s.later e).licences = s.licences := rfl
@[simp] theorem State.later_cmds (s : State) (e : Event) : (s.later e).cmds = s.cmds := rfl
@[simp] theorem State.later_xfers (s : State) (e : Event) : (s.later e).xfers = s.xfers := rfl
@[simp] theorem State.later_installs (s : State) (e : Event) : (s.later e).installs = s.installs := rfl
@[simp] theorem State.later_extShow (s : State) (e : Event) : (s.later e).extShow = s.extShow := rfl
@[simp] theorem State.later_outShow (s : State) (e : Event) : (s.later e).outShow = s.outShow := rfl
@[simp] theorem State.later_nblocks (s : State) (e : Event) : (s.later e).nblocks = s.nblocks := rfl
@[simp] theorem State.later_remaps (s : State) (e : Event) : (s.later e).remaps = s.remaps := rfl
@[simp] theorem State.later_outs (s : State) (e : Event) : (s.later e).outs = s.outs := rfl
@[simp] theorem State.later_mux (s : State) (e : Event) : (s.later e).mux = s.mux := rfl
@[simp] theorem State.later_images (s : State) (e : Event) : (s.later e).images = s.images := rfl
@[simp] theorem State.later_oldImages (s : State) (e : Event) : (s.later e).oldImages = s.oldImages := rfl
@[simp] theorem State.later_saving (s : State) (e : Event) : (s.later e).saving = s.saving := rfl
@[simp] theorem State.later_boot (s : State) (e : Event) : (s.later e).boot = s.boot := rfl
@[simp] theorem State.later_savedFills (s : State) (e : Event) : (s.later e).savedFills = s.savedFills := rfl
@[simp] theorem State.later_grant (s : State) (e : Event) : (s.later e).grant = s.grant := rfl
@[simp] theorem State.later_grantSeq (s : State) (e : Event) : (s.later e).grantSeq = s.grantSeq := rfl
@[simp] theorem State.later_preq (s : State) (e : Event) : (s.later e).preq = s.preq := rfl
@[simp] theorem State.later_asked (s : State) (e : Event) : (s.later e).asked = s.asked := rfl
@[simp] theorem State.later_request (s : State) (e : Event) : (s.later e).request = s.request := rfl
@[simp] theorem State.later_pmeas (s : State) (e : Event) : (s.later e).pmeas = s.pmeas := rfl
@[simp] theorem State.later_clamp (s : State) (e : Event) : (s.later e).clamp = s.clamp := rfl
@[simp] theorem State.later_missed (s : State) (e : Event) : (s.later e).missed = s.missed := rfl
@[simp] theorem State.later_above (s : State) (e : Event) : (s.later e).above = s.above := rfl
@[simp] theorem State.later_below (s : State) (e : Event) : (s.later e).below = s.below := rfl
@[simp] theorem State.later_startKind (s : State) (e : Event) : (s.later e).startKind = s.startKind := rfl
@[simp] theorem State.later_dref (s : State) (e : Event) : (s.later e).dref = s.dref := rfl
@[simp] theorem State.later_dormant (s : State) (e : Event) : (s.later e).dormant = s.dormant := rfl
@[simp] theorem State.later_lead (s : State) (e : Event) : (s.later e).lead = s.lead := rfl
@[simp] theorem State.later_nring (s : State) (e : Event) : (s.later e).nring = s.nring := rfl
@[simp] theorem State.later_nhead (s : State) (e : Event) : (s.later e).nhead = s.nhead := rfl
@[simp] theorem State.later_ntail (s : State) (e : Event) : (s.later e).ntail = s.ntail := rfl
@[simp] theorem State.later_notices (s : State) (e : Event) : (s.later e).notices = s.notices := rfl
@[simp] theorem State.later_hlink (s : State) (e : Event) : (s.later e).hlink = s.hlink := rfl
@[simp] theorem State.later_msix (s : State) (e : Event) : (s.later e).msix = s.msix := rfl
@[simp] theorem State.later_msiHeld (s : State) (e : Event) : (s.later e).msiHeld = s.msiHeld := rfl
@[simp] theorem State.later_agenda (s : State) (e : Event) : (s.later e).agenda = s.agenda ++ [e] := rfl
@[simp] theorem State.fresh_cycle (s : State) : (s.fresh).cycle = s.cycle := rfl
@[simp] theorem State.fresh_turn (s : State) : (s.fresh).turn = s.turn := rfl
@[simp] theorem State.fresh_due (s : State) : (s.fresh).due = s.due := rfl
@[simp] theorem State.fresh_agenda (s : State) : (s.fresh).agenda = s.agenda := rfl
@[simp] theorem State.fresh_event (s : State) : (s.fresh).event = s.event := rfl
@[simp] theorem State.fresh_choices (s : State) : (s.fresh).choices = s.choices := rfl
@[simp] theorem State.fresh_drawn (s : State) : (s.fresh).drawn = s.drawn := rfl
@[simp] theorem State.fresh_sel (s : State) : (s.fresh).sel = s.sel := rfl
@[simp] theorem State.fresh_mem (s : State) : (s.fresh).mem = s.mem := rfl
@[simp] theorem State.fresh_cores (s : State) : (s.fresh).cores = s.cores := rfl
@[simp] theorem State.fresh_pairs (s : State) : (s.fresh).pairs = s.pairs := rfl
@[simp] theorem State.fresh_combs (s : State) : (s.fresh).combs = s.combs := rfl
@[simp] theorem State.fresh_hive0 (s : State) : (s.fresh).hive0 = s.hive0 := rfl
@[simp] theorem State.fresh_hive1 (s : State) : (s.fresh).hive1 = s.hive1 := rfl
@[simp] theorem State.fresh_flights (s : State) : (s.fresh).flights = s.flights := rfl
@[simp] theorem State.fresh_waiters (s : State) : (s.fresh).waiters = s.waiters := rfl
@[simp] theorem State.fresh_watches (s : State) : (s.fresh).watches = s.watches := rfl
@[simp] theorem State.fresh_arrivals (s : State) : (s.fresh).arrivals = s.arrivals := rfl
@[simp] theorem State.fresh_ephem (s : State) : (s.fresh).ephem = s.ephem := rfl
@[simp] theorem State.fresh_extents (s : State) : (s.fresh).extents = s.extents := rfl
@[simp] theorem State.fresh_degraded (s : State) : (s.fresh).degraded = s.degraded := rfl
@[simp] theorem State.fresh_bringing (s : State) : (s.fresh).bringing = s.bringing := rfl
@[simp] theorem State.fresh_lost (s : State) : (s.fresh).lost = s.lost := rfl
@[simp] theorem State.fresh_relit (s : State) : (s.fresh).relit = s.relit := rfl
@[simp] theorem State.fresh_replaying (s : State) : (s.fresh).replaying = s.replaying := rfl
@[simp] theorem State.fresh_sparesUsed (s : State) : (s.fresh).sparesUsed = s.sparesUsed := rfl
@[simp] theorem State.fresh_groups (s : State) : (s.fresh).groups = s.groups := rfl
@[simp] theorem State.fresh_declined (s : State) : (s.fresh).declined = s.declined := rfl
@[simp] theorem State.fresh_sysBad (s : State) : (s.fresh).sysBad = s.sysBad := rfl
@[simp] theorem State.fresh_sptroot (s : State) : (s.fresh).sptroot = s.sptroot := rfl
@[simp] theorem State.fresh_lint (s : State) : (s.fresh).lint = s.lint := rfl
@[simp] theorem State.fresh_lsize (s : State) : (s.fresh).lsize = s.lsize := rfl
@[simp] theorem State.fresh_psave (s : State) : (s.fresh).psave = s.psave := rfl
@[simp] theorem State.fresh_pcomb0 (s : State) : (s.fresh).pcomb0 = s.pcomb0 := rfl
@[simp] theorem State.fresh_pcomb1 (s : State) : (s.fresh).pcomb1 = s.pcomb1 := rfl
@[simp] theorem State.fresh_pctl (s : State) : (s.fresh).pctl = s.pctl := rfl
@[simp] theorem State.fresh_prest (s : State) : (s.fresh).prest = s.prest := rfl
@[simp] theorem State.fresh_halt (s : State) : (s.fresh).halt = s.halt := rfl
@[simp] theorem State.fresh_haltAt (s : State) : (s.fresh).haltAt = s.haltAt := rfl
@[simp] theorem State.fresh_ktab (s : State) : (s.fresh).ktab = s.ktab := rfl
@[simp] theorem State.fresh_etab (s : State) : (s.fresh).etab = s.etab := rfl
@[simp] theorem State.fresh_dtab (s : State) : (s.fresh).dtab = s.dtab := rfl
@[simp] theorem State.fresh_qhdr (s : State) : (s.fresh).qhdr = s.qhdr := rfl
@[simp] theorem State.fresh_queues (s : State) : (s.fresh).queues = s.queues := rfl
@[simp] theorem State.fresh_launches (s : State) : (s.fresh).launches = s.launches := rfl
@[simp] theorem State.fresh_held (s : State) : (s.fresh).held = s.held := rfl
@[simp] theorem State.fresh_adds (s : State) : (s.fresh).adds = s.adds := rfl
@[simp] theorem State.fresh_promises (s : State) : (s.fresh).promises = s.promises := rfl
@[simp] theorem State.fresh_promReqs (s : State) : (s.fresh).promReqs = s.promReqs := rfl
@[simp] theorem State.fresh_licReqs (s : State) : (s.fresh).licReqs = s.licReqs := rfl
@[simp] theorem State.fresh_licences (s : State) : (s.fresh).licences = s.licences := rfl
@[simp] theorem State.fresh_cmds (s : State) : (s.fresh).cmds = s.cmds := rfl
@[simp] theorem State.fresh_xfers (s : State) : (s.fresh).xfers = s.xfers := rfl
@[simp] theorem State.fresh_installs (s : State) : (s.fresh).installs = s.installs := rfl
@[simp] theorem State.fresh_extShow (s : State) : (s.fresh).extShow = s.extShow := rfl
@[simp] theorem State.fresh_outShow (s : State) : (s.fresh).outShow = s.outShow := rfl
@[simp] theorem State.fresh_nblocks (s : State) : (s.fresh).nblocks = s.nblocks := rfl
@[simp] theorem State.fresh_remaps (s : State) : (s.fresh).remaps = s.remaps := rfl
@[simp] theorem State.fresh_outs (s : State) : (s.fresh).outs = s.outs := rfl
@[simp] theorem State.fresh_mux (s : State) : (s.fresh).mux = s.mux := rfl
@[simp] theorem State.fresh_images (s : State) : (s.fresh).images = s.images := rfl
@[simp] theorem State.fresh_oldImages (s : State) : (s.fresh).oldImages = s.oldImages := rfl
@[simp] theorem State.fresh_saving (s : State) : (s.fresh).saving = s.saving := rfl
@[simp] theorem State.fresh_boot (s : State) : (s.fresh).boot = s.boot := rfl
@[simp] theorem State.fresh_savedFills (s : State) : (s.fresh).savedFills = s.savedFills := rfl
@[simp] theorem State.fresh_grant (s : State) : (s.fresh).grant = s.grant := rfl
@[simp] theorem State.fresh_grantSeq (s : State) : (s.fresh).grantSeq = s.grantSeq := rfl
@[simp] theorem State.fresh_preq (s : State) : (s.fresh).preq = s.preq := rfl
@[simp] theorem State.fresh_asked (s : State) : (s.fresh).asked = s.asked := rfl
@[simp] theorem State.fresh_request (s : State) : (s.fresh).request = s.request := rfl
@[simp] theorem State.fresh_pmeas (s : State) : (s.fresh).pmeas = s.pmeas := rfl
@[simp] theorem State.fresh_clamp (s : State) : (s.fresh).clamp = s.clamp := rfl
@[simp] theorem State.fresh_missed (s : State) : (s.fresh).missed = s.missed := rfl
@[simp] theorem State.fresh_above (s : State) : (s.fresh).above = s.above := rfl
@[simp] theorem State.fresh_below (s : State) : (s.fresh).below = s.below := rfl
@[simp] theorem State.fresh_startKind (s : State) : (s.fresh).startKind = s.startKind := rfl
@[simp] theorem State.fresh_dref (s : State) : (s.fresh).dref = s.dref := rfl
@[simp] theorem State.fresh_dormant (s : State) : (s.fresh).dormant = s.dormant := rfl
@[simp] theorem State.fresh_lead (s : State) : (s.fresh).lead = s.lead := rfl
@[simp] theorem State.fresh_nring (s : State) : (s.fresh).nring = s.nring := rfl
@[simp] theorem State.fresh_nhead (s : State) : (s.fresh).nhead = s.nhead := rfl
@[simp] theorem State.fresh_ntail (s : State) : (s.fresh).ntail = s.ntail := rfl
@[simp] theorem State.fresh_notices (s : State) : (s.fresh).notices = s.notices := rfl
@[simp] theorem State.fresh_hlink (s : State) : (s.fresh).hlink = s.hlink := rfl
@[simp] theorem State.fresh_msix (s : State) : (s.fresh).msix = s.msix := rfl
@[simp] theorem State.fresh_msiHeld (s : State) : (s.fresh).msiHeld = s.msiHeld := rfl
@[simp] theorem State.fresh_seq (s : State) : s.fresh.seq = s.seq + 1 := rfl
@[simp] theorem State.wr_cycle (s : State) (a n v : Nat) : (s.wr a n v).cycle = s.cycle := rfl
@[simp] theorem State.wr_turn (s : State) (a n v : Nat) : (s.wr a n v).turn = s.turn := rfl
@[simp] theorem State.wr_due (s : State) (a n v : Nat) : (s.wr a n v).due = s.due := rfl
@[simp] theorem State.wr_agenda (s : State) (a n v : Nat) : (s.wr a n v).agenda = s.agenda := rfl
@[simp] theorem State.wr_event (s : State) (a n v : Nat) : (s.wr a n v).event = s.event := rfl
@[simp] theorem State.wr_choices (s : State) (a n v : Nat) : (s.wr a n v).choices = s.choices := rfl
@[simp] theorem State.wr_drawn (s : State) (a n v : Nat) : (s.wr a n v).drawn = s.drawn := rfl
@[simp] theorem State.wr_sel (s : State) (a n v : Nat) : (s.wr a n v).sel = s.sel := rfl
@[simp] theorem State.wr_seq (s : State) (a n v : Nat) : (s.wr a n v).seq = s.seq := rfl
@[simp] theorem State.wr_cores (s : State) (a n v : Nat) : (s.wr a n v).cores = s.cores := rfl
@[simp] theorem State.wr_pairs (s : State) (a n v : Nat) : (s.wr a n v).pairs = s.pairs := rfl
@[simp] theorem State.wr_combs (s : State) (a n v : Nat) : (s.wr a n v).combs = s.combs := rfl
@[simp] theorem State.wr_hive0 (s : State) (a n v : Nat) : (s.wr a n v).hive0 = s.hive0 := rfl
@[simp] theorem State.wr_hive1 (s : State) (a n v : Nat) : (s.wr a n v).hive1 = s.hive1 := rfl
@[simp] theorem State.wr_flights (s : State) (a n v : Nat) : (s.wr a n v).flights = s.flights := rfl
@[simp] theorem State.wr_waiters (s : State) (a n v : Nat) : (s.wr a n v).waiters = s.waiters := rfl
@[simp] theorem State.wr_watches (s : State) (a n v : Nat) : (s.wr a n v).watches = s.watches := rfl
@[simp] theorem State.wr_arrivals (s : State) (a n v : Nat) : (s.wr a n v).arrivals = s.arrivals := rfl
@[simp] theorem State.wr_ephem (s : State) (a n v : Nat) : (s.wr a n v).ephem = s.ephem := rfl
@[simp] theorem State.wr_extents (s : State) (a n v : Nat) : (s.wr a n v).extents = s.extents := rfl
@[simp] theorem State.wr_degraded (s : State) (a n v : Nat) : (s.wr a n v).degraded = s.degraded := rfl
@[simp] theorem State.wr_bringing (s : State) (a n v : Nat) : (s.wr a n v).bringing = s.bringing := rfl
@[simp] theorem State.wr_lost (s : State) (a n v : Nat) : (s.wr a n v).lost = s.lost := rfl
@[simp] theorem State.wr_relit (s : State) (a n v : Nat) : (s.wr a n v).relit = s.relit := rfl
@[simp] theorem State.wr_replaying (s : State) (a n v : Nat) : (s.wr a n v).replaying = s.replaying := rfl
@[simp] theorem State.wr_sparesUsed (s : State) (a n v : Nat) : (s.wr a n v).sparesUsed = s.sparesUsed := rfl
@[simp] theorem State.wr_groups (s : State) (a n v : Nat) : (s.wr a n v).groups = s.groups := rfl
@[simp] theorem State.wr_declined (s : State) (a n v : Nat) : (s.wr a n v).declined = s.declined := rfl
@[simp] theorem State.wr_sysBad (s : State) (a n v : Nat) : (s.wr a n v).sysBad = s.sysBad := rfl
@[simp] theorem State.wr_sptroot (s : State) (a n v : Nat) : (s.wr a n v).sptroot = s.sptroot := rfl
@[simp] theorem State.wr_lint (s : State) (a n v : Nat) : (s.wr a n v).lint = s.lint := rfl
@[simp] theorem State.wr_lsize (s : State) (a n v : Nat) : (s.wr a n v).lsize = s.lsize := rfl
@[simp] theorem State.wr_psave (s : State) (a n v : Nat) : (s.wr a n v).psave = s.psave := rfl
@[simp] theorem State.wr_pcomb0 (s : State) (a n v : Nat) : (s.wr a n v).pcomb0 = s.pcomb0 := rfl
@[simp] theorem State.wr_pcomb1 (s : State) (a n v : Nat) : (s.wr a n v).pcomb1 = s.pcomb1 := rfl
@[simp] theorem State.wr_pctl (s : State) (a n v : Nat) : (s.wr a n v).pctl = s.pctl := rfl
@[simp] theorem State.wr_prest (s : State) (a n v : Nat) : (s.wr a n v).prest = s.prest := rfl
@[simp] theorem State.wr_halt (s : State) (a n v : Nat) : (s.wr a n v).halt = s.halt := rfl
@[simp] theorem State.wr_haltAt (s : State) (a n v : Nat) : (s.wr a n v).haltAt = s.haltAt := rfl
@[simp] theorem State.wr_ktab (s : State) (a n v : Nat) : (s.wr a n v).ktab = s.ktab := rfl
@[simp] theorem State.wr_etab (s : State) (a n v : Nat) : (s.wr a n v).etab = s.etab := rfl
@[simp] theorem State.wr_dtab (s : State) (a n v : Nat) : (s.wr a n v).dtab = s.dtab := rfl
@[simp] theorem State.wr_qhdr (s : State) (a n v : Nat) : (s.wr a n v).qhdr = s.qhdr := rfl
@[simp] theorem State.wr_queues (s : State) (a n v : Nat) : (s.wr a n v).queues = s.queues := rfl
@[simp] theorem State.wr_launches (s : State) (a n v : Nat) : (s.wr a n v).launches = s.launches := rfl
@[simp] theorem State.wr_held (s : State) (a n v : Nat) : (s.wr a n v).held = s.held := rfl
@[simp] theorem State.wr_adds (s : State) (a n v : Nat) : (s.wr a n v).adds = s.adds := rfl
@[simp] theorem State.wr_promises (s : State) (a n v : Nat) : (s.wr a n v).promises = s.promises := rfl
@[simp] theorem State.wr_promReqs (s : State) (a n v : Nat) : (s.wr a n v).promReqs = s.promReqs := rfl
@[simp] theorem State.wr_licReqs (s : State) (a n v : Nat) : (s.wr a n v).licReqs = s.licReqs := rfl
@[simp] theorem State.wr_licences (s : State) (a n v : Nat) : (s.wr a n v).licences = s.licences := rfl
@[simp] theorem State.wr_cmds (s : State) (a n v : Nat) : (s.wr a n v).cmds = s.cmds := rfl
@[simp] theorem State.wr_xfers (s : State) (a n v : Nat) : (s.wr a n v).xfers = s.xfers := rfl
@[simp] theorem State.wr_installs (s : State) (a n v : Nat) : (s.wr a n v).installs = s.installs := rfl
@[simp] theorem State.wr_extShow (s : State) (a n v : Nat) : (s.wr a n v).extShow = s.extShow := rfl
@[simp] theorem State.wr_outShow (s : State) (a n v : Nat) : (s.wr a n v).outShow = s.outShow := rfl
@[simp] theorem State.wr_nblocks (s : State) (a n v : Nat) : (s.wr a n v).nblocks = s.nblocks := rfl
@[simp] theorem State.wr_remaps (s : State) (a n v : Nat) : (s.wr a n v).remaps = s.remaps := rfl
@[simp] theorem State.wr_outs (s : State) (a n v : Nat) : (s.wr a n v).outs = s.outs := rfl
@[simp] theorem State.wr_mux (s : State) (a n v : Nat) : (s.wr a n v).mux = s.mux := rfl
@[simp] theorem State.wr_images (s : State) (a n v : Nat) : (s.wr a n v).images = s.images := rfl
@[simp] theorem State.wr_oldImages (s : State) (a n v : Nat) : (s.wr a n v).oldImages = s.oldImages := rfl
@[simp] theorem State.wr_saving (s : State) (a n v : Nat) : (s.wr a n v).saving = s.saving := rfl
@[simp] theorem State.wr_boot (s : State) (a n v : Nat) : (s.wr a n v).boot = s.boot := rfl
@[simp] theorem State.wr_savedFills (s : State) (a n v : Nat) : (s.wr a n v).savedFills = s.savedFills := rfl
@[simp] theorem State.wr_grant (s : State) (a n v : Nat) : (s.wr a n v).grant = s.grant := rfl
@[simp] theorem State.wr_grantSeq (s : State) (a n v : Nat) : (s.wr a n v).grantSeq = s.grantSeq := rfl
@[simp] theorem State.wr_preq (s : State) (a n v : Nat) : (s.wr a n v).preq = s.preq := rfl
@[simp] theorem State.wr_asked (s : State) (a n v : Nat) : (s.wr a n v).asked = s.asked := rfl
@[simp] theorem State.wr_request (s : State) (a n v : Nat) : (s.wr a n v).request = s.request := rfl
@[simp] theorem State.wr_pmeas (s : State) (a n v : Nat) : (s.wr a n v).pmeas = s.pmeas := rfl
@[simp] theorem State.wr_clamp (s : State) (a n v : Nat) : (s.wr a n v).clamp = s.clamp := rfl
@[simp] theorem State.wr_missed (s : State) (a n v : Nat) : (s.wr a n v).missed = s.missed := rfl
@[simp] theorem State.wr_above (s : State) (a n v : Nat) : (s.wr a n v).above = s.above := rfl
@[simp] theorem State.wr_below (s : State) (a n v : Nat) : (s.wr a n v).below = s.below := rfl
@[simp] theorem State.wr_startKind (s : State) (a n v : Nat) : (s.wr a n v).startKind = s.startKind := rfl
@[simp] theorem State.wr_dref (s : State) (a n v : Nat) : (s.wr a n v).dref = s.dref := rfl
@[simp] theorem State.wr_dormant (s : State) (a n v : Nat) : (s.wr a n v).dormant = s.dormant := rfl
@[simp] theorem State.wr_lead (s : State) (a n v : Nat) : (s.wr a n v).lead = s.lead := rfl
@[simp] theorem State.wr_nring (s : State) (a n v : Nat) : (s.wr a n v).nring = s.nring := rfl
@[simp] theorem State.wr_nhead (s : State) (a n v : Nat) : (s.wr a n v).nhead = s.nhead := rfl
@[simp] theorem State.wr_ntail (s : State) (a n v : Nat) : (s.wr a n v).ntail = s.ntail := rfl
@[simp] theorem State.wr_notices (s : State) (a n v : Nat) : (s.wr a n v).notices = s.notices := rfl
@[simp] theorem State.wr_hlink (s : State) (a n v : Nat) : (s.wr a n v).hlink = s.hlink := rfl
@[simp] theorem State.wr_msix (s : State) (a n v : Nat) : (s.wr a n v).msix = s.msix := rfl
@[simp] theorem State.wr_msiHeld (s : State) (a n v : Nat) : (s.wr a n v).msiHeld = s.msiHeld := rfl
@[simp] theorem State.pick_cycle (s : State) (k : Nat) : (s.pick k).2.cycle = s.cycle := by unfold State.pick; split <;> rfl
@[simp] theorem State.pick_turn (s : State) (k : Nat) : (s.pick k).2.turn = s.turn := by unfold State.pick; split <;> rfl
@[simp] theorem State.pick_due (s : State) (k : Nat) : (s.pick k).2.due = s.due := by unfold State.pick; split <;> rfl
@[simp] theorem State.pick_agenda (s : State) (k : Nat) : (s.pick k).2.agenda = s.agenda := by unfold State.pick; split <;> rfl
@[simp] theorem State.pick_event (s : State) (k : Nat) : (s.pick k).2.event = s.event := by unfold State.pick; split <;> rfl
@[simp] theorem State.pick_sel (s : State) (k : Nat) : (s.pick k).2.sel = s.sel := by unfold State.pick; split <;> rfl
@[simp] theorem State.pick_seq (s : State) (k : Nat) : (s.pick k).2.seq = s.seq := by unfold State.pick; split <;> rfl
@[simp] theorem State.pick_mem (s : State) (k : Nat) : (s.pick k).2.mem = s.mem := by unfold State.pick; split <;> rfl
@[simp] theorem State.pick_cores (s : State) (k : Nat) : (s.pick k).2.cores = s.cores := by unfold State.pick; split <;> rfl
@[simp] theorem State.pick_pairs (s : State) (k : Nat) : (s.pick k).2.pairs = s.pairs := by unfold State.pick; split <;> rfl
@[simp] theorem State.pick_combs (s : State) (k : Nat) : (s.pick k).2.combs = s.combs := by unfold State.pick; split <;> rfl
@[simp] theorem State.pick_hive0 (s : State) (k : Nat) : (s.pick k).2.hive0 = s.hive0 := by unfold State.pick; split <;> rfl
@[simp] theorem State.pick_hive1 (s : State) (k : Nat) : (s.pick k).2.hive1 = s.hive1 := by unfold State.pick; split <;> rfl
@[simp] theorem State.pick_flights (s : State) (k : Nat) : (s.pick k).2.flights = s.flights := by unfold State.pick; split <;> rfl
@[simp] theorem State.pick_waiters (s : State) (k : Nat) : (s.pick k).2.waiters = s.waiters := by unfold State.pick; split <;> rfl
@[simp] theorem State.pick_watches (s : State) (k : Nat) : (s.pick k).2.watches = s.watches := by unfold State.pick; split <;> rfl
@[simp] theorem State.pick_arrivals (s : State) (k : Nat) : (s.pick k).2.arrivals = s.arrivals := by unfold State.pick; split <;> rfl
@[simp] theorem State.pick_ephem (s : State) (k : Nat) : (s.pick k).2.ephem = s.ephem := by unfold State.pick; split <;> rfl
@[simp] theorem State.pick_extents (s : State) (k : Nat) : (s.pick k).2.extents = s.extents := by unfold State.pick; split <;> rfl
@[simp] theorem State.pick_degraded (s : State) (k : Nat) : (s.pick k).2.degraded = s.degraded := by unfold State.pick; split <;> rfl
@[simp] theorem State.pick_bringing (s : State) (k : Nat) : (s.pick k).2.bringing = s.bringing := by unfold State.pick; split <;> rfl
@[simp] theorem State.pick_lost (s : State) (k : Nat) : (s.pick k).2.lost = s.lost := by unfold State.pick; split <;> rfl
@[simp] theorem State.pick_relit (s : State) (k : Nat) : (s.pick k).2.relit = s.relit := by unfold State.pick; split <;> rfl
@[simp] theorem State.pick_replaying (s : State) (k : Nat) : (s.pick k).2.replaying = s.replaying := by unfold State.pick; split <;> rfl
@[simp] theorem State.pick_sparesUsed (s : State) (k : Nat) : (s.pick k).2.sparesUsed = s.sparesUsed := by unfold State.pick; split <;> rfl
@[simp] theorem State.pick_groups (s : State) (k : Nat) : (s.pick k).2.groups = s.groups := by unfold State.pick; split <;> rfl
@[simp] theorem State.pick_declined (s : State) (k : Nat) : (s.pick k).2.declined = s.declined := by unfold State.pick; split <;> rfl
@[simp] theorem State.pick_sysBad (s : State) (k : Nat) : (s.pick k).2.sysBad = s.sysBad := by unfold State.pick; split <;> rfl
@[simp] theorem State.pick_sptroot (s : State) (k : Nat) : (s.pick k).2.sptroot = s.sptroot := by unfold State.pick; split <;> rfl
@[simp] theorem State.pick_lint (s : State) (k : Nat) : (s.pick k).2.lint = s.lint := by unfold State.pick; split <;> rfl
@[simp] theorem State.pick_lsize (s : State) (k : Nat) : (s.pick k).2.lsize = s.lsize := by unfold State.pick; split <;> rfl
@[simp] theorem State.pick_psave (s : State) (k : Nat) : (s.pick k).2.psave = s.psave := by unfold State.pick; split <;> rfl
@[simp] theorem State.pick_pcomb0 (s : State) (k : Nat) : (s.pick k).2.pcomb0 = s.pcomb0 := by unfold State.pick; split <;> rfl
@[simp] theorem State.pick_pcomb1 (s : State) (k : Nat) : (s.pick k).2.pcomb1 = s.pcomb1 := by unfold State.pick; split <;> rfl
@[simp] theorem State.pick_pctl (s : State) (k : Nat) : (s.pick k).2.pctl = s.pctl := by unfold State.pick; split <;> rfl
@[simp] theorem State.pick_prest (s : State) (k : Nat) : (s.pick k).2.prest = s.prest := by unfold State.pick; split <;> rfl
@[simp] theorem State.pick_halt (s : State) (k : Nat) : (s.pick k).2.halt = s.halt := by unfold State.pick; split <;> rfl
@[simp] theorem State.pick_haltAt (s : State) (k : Nat) : (s.pick k).2.haltAt = s.haltAt := by unfold State.pick; split <;> rfl
@[simp] theorem State.pick_ktab (s : State) (k : Nat) : (s.pick k).2.ktab = s.ktab := by unfold State.pick; split <;> rfl
@[simp] theorem State.pick_etab (s : State) (k : Nat) : (s.pick k).2.etab = s.etab := by unfold State.pick; split <;> rfl
@[simp] theorem State.pick_dtab (s : State) (k : Nat) : (s.pick k).2.dtab = s.dtab := by unfold State.pick; split <;> rfl
@[simp] theorem State.pick_qhdr (s : State) (k : Nat) : (s.pick k).2.qhdr = s.qhdr := by unfold State.pick; split <;> rfl
@[simp] theorem State.pick_queues (s : State) (k : Nat) : (s.pick k).2.queues = s.queues := by unfold State.pick; split <;> rfl
@[simp] theorem State.pick_launches (s : State) (k : Nat) : (s.pick k).2.launches = s.launches := by unfold State.pick; split <;> rfl
@[simp] theorem State.pick_held (s : State) (k : Nat) : (s.pick k).2.held = s.held := by unfold State.pick; split <;> rfl
@[simp] theorem State.pick_adds (s : State) (k : Nat) : (s.pick k).2.adds = s.adds := by unfold State.pick; split <;> rfl
@[simp] theorem State.pick_promises (s : State) (k : Nat) : (s.pick k).2.promises = s.promises := by unfold State.pick; split <;> rfl
@[simp] theorem State.pick_promReqs (s : State) (k : Nat) : (s.pick k).2.promReqs = s.promReqs := by unfold State.pick; split <;> rfl
@[simp] theorem State.pick_licReqs (s : State) (k : Nat) : (s.pick k).2.licReqs = s.licReqs := by unfold State.pick; split <;> rfl
@[simp] theorem State.pick_licences (s : State) (k : Nat) : (s.pick k).2.licences = s.licences := by unfold State.pick; split <;> rfl
@[simp] theorem State.pick_cmds (s : State) (k : Nat) : (s.pick k).2.cmds = s.cmds := by unfold State.pick; split <;> rfl
@[simp] theorem State.pick_xfers (s : State) (k : Nat) : (s.pick k).2.xfers = s.xfers := by unfold State.pick; split <;> rfl
@[simp] theorem State.pick_installs (s : State) (k : Nat) : (s.pick k).2.installs = s.installs := by unfold State.pick; split <;> rfl
@[simp] theorem State.pick_extShow (s : State) (k : Nat) : (s.pick k).2.extShow = s.extShow := by unfold State.pick; split <;> rfl
@[simp] theorem State.pick_outShow (s : State) (k : Nat) : (s.pick k).2.outShow = s.outShow := by unfold State.pick; split <;> rfl
@[simp] theorem State.pick_nblocks (s : State) (k : Nat) : (s.pick k).2.nblocks = s.nblocks := by unfold State.pick; split <;> rfl
@[simp] theorem State.pick_remaps (s : State) (k : Nat) : (s.pick k).2.remaps = s.remaps := by unfold State.pick; split <;> rfl
@[simp] theorem State.pick_outs (s : State) (k : Nat) : (s.pick k).2.outs = s.outs := by unfold State.pick; split <;> rfl
@[simp] theorem State.pick_mux (s : State) (k : Nat) : (s.pick k).2.mux = s.mux := by unfold State.pick; split <;> rfl
@[simp] theorem State.pick_images (s : State) (k : Nat) : (s.pick k).2.images = s.images := by unfold State.pick; split <;> rfl
@[simp] theorem State.pick_oldImages (s : State) (k : Nat) : (s.pick k).2.oldImages = s.oldImages := by unfold State.pick; split <;> rfl
@[simp] theorem State.pick_saving (s : State) (k : Nat) : (s.pick k).2.saving = s.saving := by unfold State.pick; split <;> rfl
@[simp] theorem State.pick_boot (s : State) (k : Nat) : (s.pick k).2.boot = s.boot := by unfold State.pick; split <;> rfl
@[simp] theorem State.pick_savedFills (s : State) (k : Nat) : (s.pick k).2.savedFills = s.savedFills := by unfold State.pick; split <;> rfl
@[simp] theorem State.pick_grant (s : State) (k : Nat) : (s.pick k).2.grant = s.grant := by unfold State.pick; split <;> rfl
@[simp] theorem State.pick_grantSeq (s : State) (k : Nat) : (s.pick k).2.grantSeq = s.grantSeq := by unfold State.pick; split <;> rfl
@[simp] theorem State.pick_preq (s : State) (k : Nat) : (s.pick k).2.preq = s.preq := by unfold State.pick; split <;> rfl
@[simp] theorem State.pick_asked (s : State) (k : Nat) : (s.pick k).2.asked = s.asked := by unfold State.pick; split <;> rfl
@[simp] theorem State.pick_request (s : State) (k : Nat) : (s.pick k).2.request = s.request := by unfold State.pick; split <;> rfl
@[simp] theorem State.pick_pmeas (s : State) (k : Nat) : (s.pick k).2.pmeas = s.pmeas := by unfold State.pick; split <;> rfl
@[simp] theorem State.pick_clamp (s : State) (k : Nat) : (s.pick k).2.clamp = s.clamp := by unfold State.pick; split <;> rfl
@[simp] theorem State.pick_missed (s : State) (k : Nat) : (s.pick k).2.missed = s.missed := by unfold State.pick; split <;> rfl
@[simp] theorem State.pick_above (s : State) (k : Nat) : (s.pick k).2.above = s.above := by unfold State.pick; split <;> rfl
@[simp] theorem State.pick_below (s : State) (k : Nat) : (s.pick k).2.below = s.below := by unfold State.pick; split <;> rfl
@[simp] theorem State.pick_startKind (s : State) (k : Nat) : (s.pick k).2.startKind = s.startKind := by unfold State.pick; split <;> rfl
@[simp] theorem State.pick_dref (s : State) (k : Nat) : (s.pick k).2.dref = s.dref := by unfold State.pick; split <;> rfl
@[simp] theorem State.pick_dormant (s : State) (k : Nat) : (s.pick k).2.dormant = s.dormant := by unfold State.pick; split <;> rfl
@[simp] theorem State.pick_lead (s : State) (k : Nat) : (s.pick k).2.lead = s.lead := by unfold State.pick; split <;> rfl
@[simp] theorem State.pick_nring (s : State) (k : Nat) : (s.pick k).2.nring = s.nring := by unfold State.pick; split <;> rfl
@[simp] theorem State.pick_nhead (s : State) (k : Nat) : (s.pick k).2.nhead = s.nhead := by unfold State.pick; split <;> rfl
@[simp] theorem State.pick_ntail (s : State) (k : Nat) : (s.pick k).2.ntail = s.ntail := by unfold State.pick; split <;> rfl
@[simp] theorem State.pick_notices (s : State) (k : Nat) : (s.pick k).2.notices = s.notices := by unfold State.pick; split <;> rfl
@[simp] theorem State.pick_hlink (s : State) (k : Nat) : (s.pick k).2.hlink = s.hlink := by unfold State.pick; split <;> rfl
@[simp] theorem State.pick_msix (s : State) (k : Nat) : (s.pick k).2.msix = s.msix := by unfold State.pick; split <;> rfl
@[simp] theorem State.pick_msiHeld (s : State) (k : Nat) : (s.pick k).2.msiHeld = s.msiHeld := by unfold State.pick; split <;> rfl

/-! ### Updates of a context -/

@[simp] theorem Ctx.setS_st (c : Ctx) (r : BitVec 4) (x : W72) (q : Bool) : (c.setS r x q).st = c.st := rfl
@[simp] theorem Ctx.setS_wait (c : Ctx) (r : BitVec 4) (x : W72) (q : Bool) : (c.setS r x q).wait = c.wait := rfl
@[simp] theorem Ctx.setS_v (c : Ctx) (r : BitVec 4) (x : W72) (q : Bool) : (c.setS r x q).v = c.v := rfl
@[simp] theorem Ctx.setS_p (c : Ctx) (r : BitVec 4) (x : W72) (q : Bool) : (c.setS r x q).p = c.p := rfl
@[simp] theorem Ctx.setS_m (c : Ctx) (r : BitVec 4) (x : W72) (q : Bool) : (c.setS r x q).m = c.m := rfl
@[simp] theorem Ctx.setS_k (c : Ctx) (r : BitVec 4) (x : W72) (q : Bool) : (c.setS r x q).k = c.k := rfl
@[simp] theorem Ctx.setS_delta (c : Ctx) (r : BitVec 4) (x : W72) (q : Bool) : (c.setS r x q).delta = c.delta := rfl
@[simp] theorem Ctx.setS_pc (c : Ctx) (r : BitVec 4) (x : W72) (q : Bool) : (c.setS r x q).pc = c.pc := rfl
@[simp] theorem Ctx.setS_loop0 (c : Ctx) (r : BitVec 4) (x : W72) (q : Bool) : (c.setS r x q).loop0 = c.loop0 := rfl
@[simp] theorem Ctx.setS_loop1 (c : Ctx) (r : BitVec 4) (x : W72) (q : Bool) : (c.setS r x q).loop1 = c.loop1 := rfl
@[simp] theorem Ctx.setS_fmode (c : Ctx) (r : BitVec 4) (x : W72) (q : Bool) : (c.setS r x q).fmode = c.fmode := rfl
@[simp] theorem Ctx.setS_fflags (c : Ctx) (r : BitVec 4) (x : W72) (q : Bool) : (c.setS r x q).fflags = c.fflags := rfl
@[simp] theorem Ctx.setS_origin (c : Ctx) (r : BitVec 4) (x : W72) (q : Bool) : (c.setS r x q).origin = c.origin := rfl
@[simp] theorem Ctx.setS_unitid (c : Ctx) (r : BitVec 4) (x : W72) (q : Bool) : (c.setS r x q).unitid = c.unitid := rfl
@[simp] theorem Ctx.setS_launchid (c : Ctx) (r : BitVec 4) (x : W72) (q : Bool) : (c.setS r x q).launchid = c.launchid := rfl
@[simp] theorem Ctx.setS_groupid (c : Ctx) (r : BitVec 4) (x : W72) (q : Bool) : (c.setS r x q).groupid = c.groupid := rfl
@[simp] theorem Ctx.setS_gangid (c : Ctx) (r : BitVec 4) (x : W72) (q : Bool) : (c.setS r x q).gangid = c.gangid := rfl
@[simp] theorem Ctx.setS_recs (c : Ctx) (r : BitVec 4) (x : W72) (q : Bool) : (c.setS r x q).recs = c.recs := rfl
@[simp] theorem Ctx.setS_bsIn (c : Ctx) (r : BitVec 4) (x : W72) (q : Bool) : (c.setS r x q).bsIn = c.bsIn := rfl
@[simp] theorem Ctx.setS_bsOut (c : Ctx) (r : BitVec 4) (x : W72) (q : Bool) : (c.setS r x q).bsOut = c.bsOut := rfl
@[simp] theorem Ctx.setS_tcause (c : Ctx) (r : BitVec 4) (x : W72) (q : Bool) : (c.setS r x q).tcause = c.tcause := rfl
@[simp] theorem Ctx.setS_tval (c : Ctx) (r : BitVec 4) (x : W72) (q : Bool) : (c.setS r x q).tval = c.tval := rfl
@[simp] theorem Ctx.setS_tpc (c : Ctx) (r : BitVec 4) (x : W72) (q : Bool) : (c.setS r x q).tpc = c.tpc := rfl
@[simp] theorem Ctx.setS_tword (c : Ctx) (r : BitVec 4) (x : W72) (q : Bool) : (c.setS r x q).tword = c.tword := rfl
@[simp] theorem Ctx.setS_thand (c : Ctx) (r : BitVec 4) (x : W72) (q : Bool) : (c.setS r x q).thand = c.thand := rfl
@[simp] theorem Ctx.setS_tsave (c : Ctx) (r : BitVec 4) (x : W72) (q : Bool) : (c.setS r x q).tsave = c.tsave := rfl
@[simp] theorem Ctx.setS_sstatus (c : Ctx) (r : BitVec 4) (x : W72) (q : Bool) : (c.setS r x q).sstatus = c.sstatus := rfl
@[simp] theorem Ctx.setS_shand (c : Ctx) (r : BitVec 4) (x : W72) (q : Bool) : (c.setS r x q).shand = c.shand := rfl
@[simp] theorem Ctx.setS_tdeleg0 (c : Ctx) (r : BitVec 4) (x : W72) (q : Bool) : (c.setS r x q).tdeleg0 = c.tdeleg0 := rfl
@[simp] theorem Ctx.setS_tdeleg1 (c : Ctx) (r : BitVec 4) (x : W72) (q : Bool) : (c.setS r x q).tdeleg1 = c.tdeleg1 := rfl
@[simp] theorem Ctx.setS_scause (c : Ctx) (r : BitVec 4) (x : W72) (q : Bool) : (c.setS r x q).scause = c.scause := rfl
@[simp] theorem Ctx.setS_sval (c : Ctx) (r : BitVec 4) (x : W72) (q : Bool) : (c.setS r x q).sval = c.sval := rfl
@[simp] theorem Ctx.setS_spc (c : Ctx) (r : BitVec 4) (x : W72) (q : Bool) : (c.setS r x q).spc = c.spc := rfl
@[simp] theorem Ctx.setS_sword (c : Ctx) (r : BitVec 4) (x : W72) (q : Bool) : (c.setS r x q).sword = c.sword := rfl
@[simp] theorem Ctx.setS_ssave (c : Ctx) (r : BitVec 4) (x : W72) (q : Bool) : (c.setS r x q).ssave = c.ssave := rfl
@[simp] theorem Ctx.setS_wdlim (c : Ctx) (r : BitVec 4) (x : W72) (q : Bool) : (c.setS r x q).wdlim = c.wdlim := rfl
@[simp] theorem Ctx.setS_userLoops (c : Ctx) (r : BitVec 4) (x : W72) (q : Bool) : (c.setS r x q).userLoops = c.userLoops := rfl
@[simp] theorem Ctx.setS_systemLoops (c : Ctx) (r : BitVec 4) (x : W72) (q : Bool) : (c.setS r x q).systemLoops = c.systemLoops := rfl
@[simp] theorem Ctx.setS_ptroot (c : Ctx) (r : BitVec 4) (x : W72) (q : Bool) : (c.setS r x q).ptroot = c.ptroot := rfl
@[simp] theorem Ctx.setS_asid (c : Ctx) (r : BitVec 4) (x : W72) (q : Bool) : (c.setS r x q).asid = c.asid := rfl
@[simp] theorem Ctx.setS_generation (c : Ctx) (r : BitVec 4) (x : W72) (q : Bool) : (c.setS r x q).generation = c.generation := rfl
@[simp] theorem Ctx.setS_used (c : Ctx) (r : BitVec 4) (x : W72) (q : Bool) : (c.setS r x q).used = c.used := rfl
@[simp] theorem Ctx.setS_asyncs (c : Ctx) (r : BitVec 4) (x : W72) (q : Bool) : (c.setS r x q).asyncs = c.asyncs := rfl
@[simp] theorem Ctx.setS_wdStart (c : Ctx) (r : BitVec 4) (x : W72) (q : Bool) : (c.setS r x q).wdStart = c.wdStart := rfl
@[simp] theorem Ctx.setS_forfeit (c : Ctx) (r : BitVec 4) (x : W72) (q : Bool) : (c.setS r x q).forfeit = c.forfeit := rfl
@[simp] theorem Ctx.setS_watch (c : Ctx) (r : BitVec 4) (x : W72) (q : Bool) : (c.setS r x q).watch = c.watch := rfl
@[simp] theorem Ctx.setS_watchPending (c : Ctx) (r : BitVec 4) (x : W72) (q : Bool) : (c.setS r x q).watchPending = c.watchPending := rfl
@[simp] theorem Ctx.setS_chan (c : Ctx) (r : BitVec 4) (x : W72) (q : Bool) : (c.setS r x q).chan = c.chan := rfl
@[simp] theorem Ctx.setS_retRec (c : Ctx) (r : BitVec 4) (x : W72) (q : Bool) : (c.setS r x q).retRec = c.retRec := rfl
@[simp] theorem Ctx.setS_xfers (c : Ctx) (r : BitVec 4) (x : W72) (q : Bool) : (c.setS r x q).xfers = c.xfers := rfl
@[simp] theorem Ctx.setS_tiles (c : Ctx) (r : BitVec 4) (x : W72) (q : Bool) : (c.setS r x q).tiles = c.tiles := rfl
@[simp] theorem Ctx.setS_gang (c : Ctx) (r : BitVec 4) (x : W72) (q : Bool) : (c.setS r x q).gang = c.gang := rfl
@[simp] theorem Ctx.setS_follows (c : Ctx) (r : BitVec 4) (x : W72) (q : Bool) : (c.setS r x q).follows = c.follows := rfl
@[simp] theorem Ctx.setS_station (c : Ctx) (r : BitVec 4) (x : W72) (q : Bool) : (c.setS r x q).station = c.station := rfl
@[simp] theorem Ctx.setS_issued (c : Ctx) (r : BitVec 4) (x : W72) (q : Bool) : (c.setS r x q).issued = c.issued := rfl
@[simp] theorem Ctx.setS_triggered (c : Ctx) (r : BitVec 4) (x : W72) (q : Bool) : (c.setS r x q).triggered = c.triggered := rfl
@[simp] theorem Ctx.setS_orphan (c : Ctx) (r : BitVec 4) (x : W72) (q : Bool) : (c.setS r x q).orphan = c.orphan := rfl
@[simp] theorem Ctx.setS_launch (c : Ctx) (r : BitVec 4) (x : W72) (q : Bool) : (c.setS r x q).launch = c.launch := rfl
@[simp] theorem Ctx.setS_group (c : Ctx) (r : BitVec 4) (x : W72) (q : Bool) : (c.setS r x q).group = c.group := rfl
@[simp] theorem Ctx.setS_cur (c : Ctx) (r : BitVec 4) (x : W72) (q : Bool) : (c.setS r x q).cur = c.cur := rfl
@[simp] theorem Ctx.setS_paid (c : Ctx) (r : BitVec 4) (x : W72) (q : Bool) : (c.setS r x q).paid = c.paid := rfl
@[simp] theorem Ctx.setS_stage (c : Ctx) (r : BitVec 4) (x : W72) (q : Bool) : (c.setS r x q).stage = c.stage := rfl
@[simp] theorem Ctx.setS_vres (c : Ctx) (r : BitVec 4) (x : W72) (q : Bool) : (c.setS r x q).vres = c.vres := rfl
@[simp] theorem Ctx.setS_places (c : Ctx) (r : BitVec 4) (x : W72) (q : Bool) : (c.setS r x q).places = c.places := rfl
@[simp] theorem Ctx.setS_via (c : Ctx) (r : BitVec 4) (x : W72) (q : Bool) : (c.setS r x q).via = c.via := rfl
@[simp] theorem Ctx.setS_landed (c : Ctx) (r : BitVec 4) (x : W72) (q : Bool) : (c.setS r x q).landed = c.landed := rfl
@[simp] theorem Ctx.setS_replay (c : Ctx) (r : BitVec 4) (x : W72) (q : Bool) : (c.setS r x q).replay = c.replay := rfl
@[simp] theorem Ctx.setS_target (c : Ctx) (r : BitVec 4) (x : W72) (q : Bool) : (c.setS r x q).target = c.target := rfl
@[simp] theorem Ctx.setS_storeFence (c : Ctx) (r : BitVec 4) (x : W72) (q : Bool) : (c.setS r x q).storeFence = c.storeFence := rfl
@[simp] theorem Ctx.setS_storeFenceComb (c : Ctx) (r : BitVec 4) (x : W72) (q : Bool) : (c.setS r x q).storeFenceComb = c.storeFenceComb := rfl
@[simp] theorem Ctx.setV_st (c : Ctx) (r : BitVec 4) (x : W512) (q : Bool) : (c.setV r x q).st = c.st := rfl
@[simp] theorem Ctx.setV_wait (c : Ctx) (r : BitVec 4) (x : W512) (q : Bool) : (c.setV r x q).wait = c.wait := rfl
@[simp] theorem Ctx.setV_s (c : Ctx) (r : BitVec 4) (x : W512) (q : Bool) : (c.setV r x q).s = c.s := rfl
@[simp] theorem Ctx.setV_p (c : Ctx) (r : BitVec 4) (x : W512) (q : Bool) : (c.setV r x q).p = c.p := rfl
@[simp] theorem Ctx.setV_m (c : Ctx) (r : BitVec 4) (x : W512) (q : Bool) : (c.setV r x q).m = c.m := rfl
@[simp] theorem Ctx.setV_k (c : Ctx) (r : BitVec 4) (x : W512) (q : Bool) : (c.setV r x q).k = c.k := rfl
@[simp] theorem Ctx.setV_delta (c : Ctx) (r : BitVec 4) (x : W512) (q : Bool) : (c.setV r x q).delta = c.delta := rfl
@[simp] theorem Ctx.setV_pc (c : Ctx) (r : BitVec 4) (x : W512) (q : Bool) : (c.setV r x q).pc = c.pc := rfl
@[simp] theorem Ctx.setV_loop0 (c : Ctx) (r : BitVec 4) (x : W512) (q : Bool) : (c.setV r x q).loop0 = c.loop0 := rfl
@[simp] theorem Ctx.setV_loop1 (c : Ctx) (r : BitVec 4) (x : W512) (q : Bool) : (c.setV r x q).loop1 = c.loop1 := rfl
@[simp] theorem Ctx.setV_fmode (c : Ctx) (r : BitVec 4) (x : W512) (q : Bool) : (c.setV r x q).fmode = c.fmode := rfl
@[simp] theorem Ctx.setV_fflags (c : Ctx) (r : BitVec 4) (x : W512) (q : Bool) : (c.setV r x q).fflags = c.fflags := rfl
@[simp] theorem Ctx.setV_origin (c : Ctx) (r : BitVec 4) (x : W512) (q : Bool) : (c.setV r x q).origin = c.origin := rfl
@[simp] theorem Ctx.setV_unitid (c : Ctx) (r : BitVec 4) (x : W512) (q : Bool) : (c.setV r x q).unitid = c.unitid := rfl
@[simp] theorem Ctx.setV_launchid (c : Ctx) (r : BitVec 4) (x : W512) (q : Bool) : (c.setV r x q).launchid = c.launchid := rfl
@[simp] theorem Ctx.setV_groupid (c : Ctx) (r : BitVec 4) (x : W512) (q : Bool) : (c.setV r x q).groupid = c.groupid := rfl
@[simp] theorem Ctx.setV_gangid (c : Ctx) (r : BitVec 4) (x : W512) (q : Bool) : (c.setV r x q).gangid = c.gangid := rfl
@[simp] theorem Ctx.setV_recs (c : Ctx) (r : BitVec 4) (x : W512) (q : Bool) : (c.setV r x q).recs = c.recs := rfl
@[simp] theorem Ctx.setV_bsIn (c : Ctx) (r : BitVec 4) (x : W512) (q : Bool) : (c.setV r x q).bsIn = c.bsIn := rfl
@[simp] theorem Ctx.setV_bsOut (c : Ctx) (r : BitVec 4) (x : W512) (q : Bool) : (c.setV r x q).bsOut = c.bsOut := rfl
@[simp] theorem Ctx.setV_tcause (c : Ctx) (r : BitVec 4) (x : W512) (q : Bool) : (c.setV r x q).tcause = c.tcause := rfl
@[simp] theorem Ctx.setV_tval (c : Ctx) (r : BitVec 4) (x : W512) (q : Bool) : (c.setV r x q).tval = c.tval := rfl
@[simp] theorem Ctx.setV_tpc (c : Ctx) (r : BitVec 4) (x : W512) (q : Bool) : (c.setV r x q).tpc = c.tpc := rfl
@[simp] theorem Ctx.setV_tword (c : Ctx) (r : BitVec 4) (x : W512) (q : Bool) : (c.setV r x q).tword = c.tword := rfl
@[simp] theorem Ctx.setV_thand (c : Ctx) (r : BitVec 4) (x : W512) (q : Bool) : (c.setV r x q).thand = c.thand := rfl
@[simp] theorem Ctx.setV_tsave (c : Ctx) (r : BitVec 4) (x : W512) (q : Bool) : (c.setV r x q).tsave = c.tsave := rfl
@[simp] theorem Ctx.setV_sstatus (c : Ctx) (r : BitVec 4) (x : W512) (q : Bool) : (c.setV r x q).sstatus = c.sstatus := rfl
@[simp] theorem Ctx.setV_shand (c : Ctx) (r : BitVec 4) (x : W512) (q : Bool) : (c.setV r x q).shand = c.shand := rfl
@[simp] theorem Ctx.setV_tdeleg0 (c : Ctx) (r : BitVec 4) (x : W512) (q : Bool) : (c.setV r x q).tdeleg0 = c.tdeleg0 := rfl
@[simp] theorem Ctx.setV_tdeleg1 (c : Ctx) (r : BitVec 4) (x : W512) (q : Bool) : (c.setV r x q).tdeleg1 = c.tdeleg1 := rfl
@[simp] theorem Ctx.setV_scause (c : Ctx) (r : BitVec 4) (x : W512) (q : Bool) : (c.setV r x q).scause = c.scause := rfl
@[simp] theorem Ctx.setV_sval (c : Ctx) (r : BitVec 4) (x : W512) (q : Bool) : (c.setV r x q).sval = c.sval := rfl
@[simp] theorem Ctx.setV_spc (c : Ctx) (r : BitVec 4) (x : W512) (q : Bool) : (c.setV r x q).spc = c.spc := rfl
@[simp] theorem Ctx.setV_sword (c : Ctx) (r : BitVec 4) (x : W512) (q : Bool) : (c.setV r x q).sword = c.sword := rfl
@[simp] theorem Ctx.setV_ssave (c : Ctx) (r : BitVec 4) (x : W512) (q : Bool) : (c.setV r x q).ssave = c.ssave := rfl
@[simp] theorem Ctx.setV_wdlim (c : Ctx) (r : BitVec 4) (x : W512) (q : Bool) : (c.setV r x q).wdlim = c.wdlim := rfl
@[simp] theorem Ctx.setV_userLoops (c : Ctx) (r : BitVec 4) (x : W512) (q : Bool) : (c.setV r x q).userLoops = c.userLoops := rfl
@[simp] theorem Ctx.setV_systemLoops (c : Ctx) (r : BitVec 4) (x : W512) (q : Bool) : (c.setV r x q).systemLoops = c.systemLoops := rfl
@[simp] theorem Ctx.setV_ptroot (c : Ctx) (r : BitVec 4) (x : W512) (q : Bool) : (c.setV r x q).ptroot = c.ptroot := rfl
@[simp] theorem Ctx.setV_asid (c : Ctx) (r : BitVec 4) (x : W512) (q : Bool) : (c.setV r x q).asid = c.asid := rfl
@[simp] theorem Ctx.setV_generation (c : Ctx) (r : BitVec 4) (x : W512) (q : Bool) : (c.setV r x q).generation = c.generation := rfl
@[simp] theorem Ctx.setV_used (c : Ctx) (r : BitVec 4) (x : W512) (q : Bool) : (c.setV r x q).used = c.used := rfl
@[simp] theorem Ctx.setV_asyncs (c : Ctx) (r : BitVec 4) (x : W512) (q : Bool) : (c.setV r x q).asyncs = c.asyncs := rfl
@[simp] theorem Ctx.setV_wdStart (c : Ctx) (r : BitVec 4) (x : W512) (q : Bool) : (c.setV r x q).wdStart = c.wdStart := rfl
@[simp] theorem Ctx.setV_forfeit (c : Ctx) (r : BitVec 4) (x : W512) (q : Bool) : (c.setV r x q).forfeit = c.forfeit := rfl
@[simp] theorem Ctx.setV_watch (c : Ctx) (r : BitVec 4) (x : W512) (q : Bool) : (c.setV r x q).watch = c.watch := rfl
@[simp] theorem Ctx.setV_watchPending (c : Ctx) (r : BitVec 4) (x : W512) (q : Bool) : (c.setV r x q).watchPending = c.watchPending := rfl
@[simp] theorem Ctx.setV_chan (c : Ctx) (r : BitVec 4) (x : W512) (q : Bool) : (c.setV r x q).chan = c.chan := rfl
@[simp] theorem Ctx.setV_retRec (c : Ctx) (r : BitVec 4) (x : W512) (q : Bool) : (c.setV r x q).retRec = c.retRec := rfl
@[simp] theorem Ctx.setV_xfers (c : Ctx) (r : BitVec 4) (x : W512) (q : Bool) : (c.setV r x q).xfers = c.xfers := rfl
@[simp] theorem Ctx.setV_tiles (c : Ctx) (r : BitVec 4) (x : W512) (q : Bool) : (c.setV r x q).tiles = c.tiles := rfl
@[simp] theorem Ctx.setV_gang (c : Ctx) (r : BitVec 4) (x : W512) (q : Bool) : (c.setV r x q).gang = c.gang := rfl
@[simp] theorem Ctx.setV_follows (c : Ctx) (r : BitVec 4) (x : W512) (q : Bool) : (c.setV r x q).follows = c.follows := rfl
@[simp] theorem Ctx.setV_station (c : Ctx) (r : BitVec 4) (x : W512) (q : Bool) : (c.setV r x q).station = c.station := rfl
@[simp] theorem Ctx.setV_issued (c : Ctx) (r : BitVec 4) (x : W512) (q : Bool) : (c.setV r x q).issued = c.issued := rfl
@[simp] theorem Ctx.setV_triggered (c : Ctx) (r : BitVec 4) (x : W512) (q : Bool) : (c.setV r x q).triggered = c.triggered := rfl
@[simp] theorem Ctx.setV_orphan (c : Ctx) (r : BitVec 4) (x : W512) (q : Bool) : (c.setV r x q).orphan = c.orphan := rfl
@[simp] theorem Ctx.setV_launch (c : Ctx) (r : BitVec 4) (x : W512) (q : Bool) : (c.setV r x q).launch = c.launch := rfl
@[simp] theorem Ctx.setV_group (c : Ctx) (r : BitVec 4) (x : W512) (q : Bool) : (c.setV r x q).group = c.group := rfl
@[simp] theorem Ctx.setV_cur (c : Ctx) (r : BitVec 4) (x : W512) (q : Bool) : (c.setV r x q).cur = c.cur := rfl
@[simp] theorem Ctx.setV_paid (c : Ctx) (r : BitVec 4) (x : W512) (q : Bool) : (c.setV r x q).paid = c.paid := rfl
@[simp] theorem Ctx.setV_stage (c : Ctx) (r : BitVec 4) (x : W512) (q : Bool) : (c.setV r x q).stage = c.stage := rfl
@[simp] theorem Ctx.setV_vres (c : Ctx) (r : BitVec 4) (x : W512) (q : Bool) : (c.setV r x q).vres = c.vres := rfl
@[simp] theorem Ctx.setV_places (c : Ctx) (r : BitVec 4) (x : W512) (q : Bool) : (c.setV r x q).places = c.places := rfl
@[simp] theorem Ctx.setV_via (c : Ctx) (r : BitVec 4) (x : W512) (q : Bool) : (c.setV r x q).via = c.via := rfl
@[simp] theorem Ctx.setV_landed (c : Ctx) (r : BitVec 4) (x : W512) (q : Bool) : (c.setV r x q).landed = c.landed := rfl
@[simp] theorem Ctx.setV_replay (c : Ctx) (r : BitVec 4) (x : W512) (q : Bool) : (c.setV r x q).replay = c.replay := rfl
@[simp] theorem Ctx.setV_target (c : Ctx) (r : BitVec 4) (x : W512) (q : Bool) : (c.setV r x q).target = c.target := rfl
@[simp] theorem Ctx.setV_storeFence (c : Ctx) (r : BitVec 4) (x : W512) (q : Bool) : (c.setV r x q).storeFence = c.storeFence := rfl
@[simp] theorem Ctx.setV_storeFenceComb (c : Ctx) (r : BitVec 4) (x : W512) (q : Bool) : (c.setV r x q).storeFenceComb = c.storeFenceComb := rfl
@[simp] theorem Ctx.markS_st (c : Ctx) (r : BitVec 4) (q : Bool) : (c.markS r q).st = c.st := rfl
@[simp] theorem Ctx.markS_wait (c : Ctx) (r : BitVec 4) (q : Bool) : (c.markS r q).wait = c.wait := rfl
@[simp] theorem Ctx.markS_v (c : Ctx) (r : BitVec 4) (q : Bool) : (c.markS r q).v = c.v := rfl
@[simp] theorem Ctx.markS_p (c : Ctx) (r : BitVec 4) (q : Bool) : (c.markS r q).p = c.p := rfl
@[simp] theorem Ctx.markS_m (c : Ctx) (r : BitVec 4) (q : Bool) : (c.markS r q).m = c.m := rfl
@[simp] theorem Ctx.markS_k (c : Ctx) (r : BitVec 4) (q : Bool) : (c.markS r q).k = c.k := rfl
@[simp] theorem Ctx.markS_delta (c : Ctx) (r : BitVec 4) (q : Bool) : (c.markS r q).delta = c.delta := rfl
@[simp] theorem Ctx.markS_pc (c : Ctx) (r : BitVec 4) (q : Bool) : (c.markS r q).pc = c.pc := rfl
@[simp] theorem Ctx.markS_loop0 (c : Ctx) (r : BitVec 4) (q : Bool) : (c.markS r q).loop0 = c.loop0 := rfl
@[simp] theorem Ctx.markS_loop1 (c : Ctx) (r : BitVec 4) (q : Bool) : (c.markS r q).loop1 = c.loop1 := rfl
@[simp] theorem Ctx.markS_fmode (c : Ctx) (r : BitVec 4) (q : Bool) : (c.markS r q).fmode = c.fmode := rfl
@[simp] theorem Ctx.markS_fflags (c : Ctx) (r : BitVec 4) (q : Bool) : (c.markS r q).fflags = c.fflags := rfl
@[simp] theorem Ctx.markS_origin (c : Ctx) (r : BitVec 4) (q : Bool) : (c.markS r q).origin = c.origin := rfl
@[simp] theorem Ctx.markS_unitid (c : Ctx) (r : BitVec 4) (q : Bool) : (c.markS r q).unitid = c.unitid := rfl
@[simp] theorem Ctx.markS_launchid (c : Ctx) (r : BitVec 4) (q : Bool) : (c.markS r q).launchid = c.launchid := rfl
@[simp] theorem Ctx.markS_groupid (c : Ctx) (r : BitVec 4) (q : Bool) : (c.markS r q).groupid = c.groupid := rfl
@[simp] theorem Ctx.markS_gangid (c : Ctx) (r : BitVec 4) (q : Bool) : (c.markS r q).gangid = c.gangid := rfl
@[simp] theorem Ctx.markS_recs (c : Ctx) (r : BitVec 4) (q : Bool) : (c.markS r q).recs = c.recs := rfl
@[simp] theorem Ctx.markS_bsIn (c : Ctx) (r : BitVec 4) (q : Bool) : (c.markS r q).bsIn = c.bsIn := rfl
@[simp] theorem Ctx.markS_bsOut (c : Ctx) (r : BitVec 4) (q : Bool) : (c.markS r q).bsOut = c.bsOut := rfl
@[simp] theorem Ctx.markS_tcause (c : Ctx) (r : BitVec 4) (q : Bool) : (c.markS r q).tcause = c.tcause := rfl
@[simp] theorem Ctx.markS_tval (c : Ctx) (r : BitVec 4) (q : Bool) : (c.markS r q).tval = c.tval := rfl
@[simp] theorem Ctx.markS_tpc (c : Ctx) (r : BitVec 4) (q : Bool) : (c.markS r q).tpc = c.tpc := rfl
@[simp] theorem Ctx.markS_tword (c : Ctx) (r : BitVec 4) (q : Bool) : (c.markS r q).tword = c.tword := rfl
@[simp] theorem Ctx.markS_thand (c : Ctx) (r : BitVec 4) (q : Bool) : (c.markS r q).thand = c.thand := rfl
@[simp] theorem Ctx.markS_tsave (c : Ctx) (r : BitVec 4) (q : Bool) : (c.markS r q).tsave = c.tsave := rfl
@[simp] theorem Ctx.markS_sstatus (c : Ctx) (r : BitVec 4) (q : Bool) : (c.markS r q).sstatus = c.sstatus := rfl
@[simp] theorem Ctx.markS_shand (c : Ctx) (r : BitVec 4) (q : Bool) : (c.markS r q).shand = c.shand := rfl
@[simp] theorem Ctx.markS_tdeleg0 (c : Ctx) (r : BitVec 4) (q : Bool) : (c.markS r q).tdeleg0 = c.tdeleg0 := rfl
@[simp] theorem Ctx.markS_tdeleg1 (c : Ctx) (r : BitVec 4) (q : Bool) : (c.markS r q).tdeleg1 = c.tdeleg1 := rfl
@[simp] theorem Ctx.markS_scause (c : Ctx) (r : BitVec 4) (q : Bool) : (c.markS r q).scause = c.scause := rfl
@[simp] theorem Ctx.markS_sval (c : Ctx) (r : BitVec 4) (q : Bool) : (c.markS r q).sval = c.sval := rfl
@[simp] theorem Ctx.markS_spc (c : Ctx) (r : BitVec 4) (q : Bool) : (c.markS r q).spc = c.spc := rfl
@[simp] theorem Ctx.markS_sword (c : Ctx) (r : BitVec 4) (q : Bool) : (c.markS r q).sword = c.sword := rfl
@[simp] theorem Ctx.markS_ssave (c : Ctx) (r : BitVec 4) (q : Bool) : (c.markS r q).ssave = c.ssave := rfl
@[simp] theorem Ctx.markS_wdlim (c : Ctx) (r : BitVec 4) (q : Bool) : (c.markS r q).wdlim = c.wdlim := rfl
@[simp] theorem Ctx.markS_userLoops (c : Ctx) (r : BitVec 4) (q : Bool) : (c.markS r q).userLoops = c.userLoops := rfl
@[simp] theorem Ctx.markS_systemLoops (c : Ctx) (r : BitVec 4) (q : Bool) : (c.markS r q).systemLoops = c.systemLoops := rfl
@[simp] theorem Ctx.markS_ptroot (c : Ctx) (r : BitVec 4) (q : Bool) : (c.markS r q).ptroot = c.ptroot := rfl
@[simp] theorem Ctx.markS_asid (c : Ctx) (r : BitVec 4) (q : Bool) : (c.markS r q).asid = c.asid := rfl
@[simp] theorem Ctx.markS_generation (c : Ctx) (r : BitVec 4) (q : Bool) : (c.markS r q).generation = c.generation := rfl
@[simp] theorem Ctx.markS_used (c : Ctx) (r : BitVec 4) (q : Bool) : (c.markS r q).used = c.used := rfl
@[simp] theorem Ctx.markS_asyncs (c : Ctx) (r : BitVec 4) (q : Bool) : (c.markS r q).asyncs = c.asyncs := rfl
@[simp] theorem Ctx.markS_wdStart (c : Ctx) (r : BitVec 4) (q : Bool) : (c.markS r q).wdStart = c.wdStart := rfl
@[simp] theorem Ctx.markS_forfeit (c : Ctx) (r : BitVec 4) (q : Bool) : (c.markS r q).forfeit = c.forfeit := rfl
@[simp] theorem Ctx.markS_watch (c : Ctx) (r : BitVec 4) (q : Bool) : (c.markS r q).watch = c.watch := rfl
@[simp] theorem Ctx.markS_watchPending (c : Ctx) (r : BitVec 4) (q : Bool) : (c.markS r q).watchPending = c.watchPending := rfl
@[simp] theorem Ctx.markS_chan (c : Ctx) (r : BitVec 4) (q : Bool) : (c.markS r q).chan = c.chan := rfl
@[simp] theorem Ctx.markS_retRec (c : Ctx) (r : BitVec 4) (q : Bool) : (c.markS r q).retRec = c.retRec := rfl
@[simp] theorem Ctx.markS_xfers (c : Ctx) (r : BitVec 4) (q : Bool) : (c.markS r q).xfers = c.xfers := rfl
@[simp] theorem Ctx.markS_tiles (c : Ctx) (r : BitVec 4) (q : Bool) : (c.markS r q).tiles = c.tiles := rfl
@[simp] theorem Ctx.markS_gang (c : Ctx) (r : BitVec 4) (q : Bool) : (c.markS r q).gang = c.gang := rfl
@[simp] theorem Ctx.markS_follows (c : Ctx) (r : BitVec 4) (q : Bool) : (c.markS r q).follows = c.follows := rfl
@[simp] theorem Ctx.markS_station (c : Ctx) (r : BitVec 4) (q : Bool) : (c.markS r q).station = c.station := rfl
@[simp] theorem Ctx.markS_issued (c : Ctx) (r : BitVec 4) (q : Bool) : (c.markS r q).issued = c.issued := rfl
@[simp] theorem Ctx.markS_triggered (c : Ctx) (r : BitVec 4) (q : Bool) : (c.markS r q).triggered = c.triggered := rfl
@[simp] theorem Ctx.markS_orphan (c : Ctx) (r : BitVec 4) (q : Bool) : (c.markS r q).orphan = c.orphan := rfl
@[simp] theorem Ctx.markS_launch (c : Ctx) (r : BitVec 4) (q : Bool) : (c.markS r q).launch = c.launch := rfl
@[simp] theorem Ctx.markS_group (c : Ctx) (r : BitVec 4) (q : Bool) : (c.markS r q).group = c.group := rfl
@[simp] theorem Ctx.markS_cur (c : Ctx) (r : BitVec 4) (q : Bool) : (c.markS r q).cur = c.cur := rfl
@[simp] theorem Ctx.markS_paid (c : Ctx) (r : BitVec 4) (q : Bool) : (c.markS r q).paid = c.paid := rfl
@[simp] theorem Ctx.markS_stage (c : Ctx) (r : BitVec 4) (q : Bool) : (c.markS r q).stage = c.stage := rfl
@[simp] theorem Ctx.markS_vres (c : Ctx) (r : BitVec 4) (q : Bool) : (c.markS r q).vres = c.vres := rfl
@[simp] theorem Ctx.markS_places (c : Ctx) (r : BitVec 4) (q : Bool) : (c.markS r q).places = c.places := rfl
@[simp] theorem Ctx.markS_via (c : Ctx) (r : BitVec 4) (q : Bool) : (c.markS r q).via = c.via := rfl
@[simp] theorem Ctx.markS_landed (c : Ctx) (r : BitVec 4) (q : Bool) : (c.markS r q).landed = c.landed := rfl
@[simp] theorem Ctx.markS_replay (c : Ctx) (r : BitVec 4) (q : Bool) : (c.markS r q).replay = c.replay := rfl
@[simp] theorem Ctx.markS_target (c : Ctx) (r : BitVec 4) (q : Bool) : (c.markS r q).target = c.target := rfl
@[simp] theorem Ctx.markS_storeFence (c : Ctx) (r : BitVec 4) (q : Bool) : (c.markS r q).storeFence = c.storeFence := rfl
@[simp] theorem Ctx.markS_storeFenceComb (c : Ctx) (r : BitVec 4) (q : Bool) : (c.markS r q).storeFenceComb = c.storeFenceComb := rfl
@[simp] theorem Ctx.markV_st (c : Ctx) (r : BitVec 4) (q : Bool) : (c.markV r q).st = c.st := rfl
@[simp] theorem Ctx.markV_wait (c : Ctx) (r : BitVec 4) (q : Bool) : (c.markV r q).wait = c.wait := rfl
@[simp] theorem Ctx.markV_s (c : Ctx) (r : BitVec 4) (q : Bool) : (c.markV r q).s = c.s := rfl
@[simp] theorem Ctx.markV_p (c : Ctx) (r : BitVec 4) (q : Bool) : (c.markV r q).p = c.p := rfl
@[simp] theorem Ctx.markV_m (c : Ctx) (r : BitVec 4) (q : Bool) : (c.markV r q).m = c.m := rfl
@[simp] theorem Ctx.markV_k (c : Ctx) (r : BitVec 4) (q : Bool) : (c.markV r q).k = c.k := rfl
@[simp] theorem Ctx.markV_delta (c : Ctx) (r : BitVec 4) (q : Bool) : (c.markV r q).delta = c.delta := rfl
@[simp] theorem Ctx.markV_pc (c : Ctx) (r : BitVec 4) (q : Bool) : (c.markV r q).pc = c.pc := rfl
@[simp] theorem Ctx.markV_loop0 (c : Ctx) (r : BitVec 4) (q : Bool) : (c.markV r q).loop0 = c.loop0 := rfl
@[simp] theorem Ctx.markV_loop1 (c : Ctx) (r : BitVec 4) (q : Bool) : (c.markV r q).loop1 = c.loop1 := rfl
@[simp] theorem Ctx.markV_fmode (c : Ctx) (r : BitVec 4) (q : Bool) : (c.markV r q).fmode = c.fmode := rfl
@[simp] theorem Ctx.markV_fflags (c : Ctx) (r : BitVec 4) (q : Bool) : (c.markV r q).fflags = c.fflags := rfl
@[simp] theorem Ctx.markV_origin (c : Ctx) (r : BitVec 4) (q : Bool) : (c.markV r q).origin = c.origin := rfl
@[simp] theorem Ctx.markV_unitid (c : Ctx) (r : BitVec 4) (q : Bool) : (c.markV r q).unitid = c.unitid := rfl
@[simp] theorem Ctx.markV_launchid (c : Ctx) (r : BitVec 4) (q : Bool) : (c.markV r q).launchid = c.launchid := rfl
@[simp] theorem Ctx.markV_groupid (c : Ctx) (r : BitVec 4) (q : Bool) : (c.markV r q).groupid = c.groupid := rfl
@[simp] theorem Ctx.markV_gangid (c : Ctx) (r : BitVec 4) (q : Bool) : (c.markV r q).gangid = c.gangid := rfl
@[simp] theorem Ctx.markV_recs (c : Ctx) (r : BitVec 4) (q : Bool) : (c.markV r q).recs = c.recs := rfl
@[simp] theorem Ctx.markV_bsIn (c : Ctx) (r : BitVec 4) (q : Bool) : (c.markV r q).bsIn = c.bsIn := rfl
@[simp] theorem Ctx.markV_bsOut (c : Ctx) (r : BitVec 4) (q : Bool) : (c.markV r q).bsOut = c.bsOut := rfl
@[simp] theorem Ctx.markV_tcause (c : Ctx) (r : BitVec 4) (q : Bool) : (c.markV r q).tcause = c.tcause := rfl
@[simp] theorem Ctx.markV_tval (c : Ctx) (r : BitVec 4) (q : Bool) : (c.markV r q).tval = c.tval := rfl
@[simp] theorem Ctx.markV_tpc (c : Ctx) (r : BitVec 4) (q : Bool) : (c.markV r q).tpc = c.tpc := rfl
@[simp] theorem Ctx.markV_tword (c : Ctx) (r : BitVec 4) (q : Bool) : (c.markV r q).tword = c.tword := rfl
@[simp] theorem Ctx.markV_thand (c : Ctx) (r : BitVec 4) (q : Bool) : (c.markV r q).thand = c.thand := rfl
@[simp] theorem Ctx.markV_tsave (c : Ctx) (r : BitVec 4) (q : Bool) : (c.markV r q).tsave = c.tsave := rfl
@[simp] theorem Ctx.markV_sstatus (c : Ctx) (r : BitVec 4) (q : Bool) : (c.markV r q).sstatus = c.sstatus := rfl
@[simp] theorem Ctx.markV_shand (c : Ctx) (r : BitVec 4) (q : Bool) : (c.markV r q).shand = c.shand := rfl
@[simp] theorem Ctx.markV_tdeleg0 (c : Ctx) (r : BitVec 4) (q : Bool) : (c.markV r q).tdeleg0 = c.tdeleg0 := rfl
@[simp] theorem Ctx.markV_tdeleg1 (c : Ctx) (r : BitVec 4) (q : Bool) : (c.markV r q).tdeleg1 = c.tdeleg1 := rfl
@[simp] theorem Ctx.markV_scause (c : Ctx) (r : BitVec 4) (q : Bool) : (c.markV r q).scause = c.scause := rfl
@[simp] theorem Ctx.markV_sval (c : Ctx) (r : BitVec 4) (q : Bool) : (c.markV r q).sval = c.sval := rfl
@[simp] theorem Ctx.markV_spc (c : Ctx) (r : BitVec 4) (q : Bool) : (c.markV r q).spc = c.spc := rfl
@[simp] theorem Ctx.markV_sword (c : Ctx) (r : BitVec 4) (q : Bool) : (c.markV r q).sword = c.sword := rfl
@[simp] theorem Ctx.markV_ssave (c : Ctx) (r : BitVec 4) (q : Bool) : (c.markV r q).ssave = c.ssave := rfl
@[simp] theorem Ctx.markV_wdlim (c : Ctx) (r : BitVec 4) (q : Bool) : (c.markV r q).wdlim = c.wdlim := rfl
@[simp] theorem Ctx.markV_userLoops (c : Ctx) (r : BitVec 4) (q : Bool) : (c.markV r q).userLoops = c.userLoops := rfl
@[simp] theorem Ctx.markV_systemLoops (c : Ctx) (r : BitVec 4) (q : Bool) : (c.markV r q).systemLoops = c.systemLoops := rfl
@[simp] theorem Ctx.markV_ptroot (c : Ctx) (r : BitVec 4) (q : Bool) : (c.markV r q).ptroot = c.ptroot := rfl
@[simp] theorem Ctx.markV_asid (c : Ctx) (r : BitVec 4) (q : Bool) : (c.markV r q).asid = c.asid := rfl
@[simp] theorem Ctx.markV_generation (c : Ctx) (r : BitVec 4) (q : Bool) : (c.markV r q).generation = c.generation := rfl
@[simp] theorem Ctx.markV_used (c : Ctx) (r : BitVec 4) (q : Bool) : (c.markV r q).used = c.used := rfl
@[simp] theorem Ctx.markV_asyncs (c : Ctx) (r : BitVec 4) (q : Bool) : (c.markV r q).asyncs = c.asyncs := rfl
@[simp] theorem Ctx.markV_wdStart (c : Ctx) (r : BitVec 4) (q : Bool) : (c.markV r q).wdStart = c.wdStart := rfl
@[simp] theorem Ctx.markV_forfeit (c : Ctx) (r : BitVec 4) (q : Bool) : (c.markV r q).forfeit = c.forfeit := rfl
@[simp] theorem Ctx.markV_watch (c : Ctx) (r : BitVec 4) (q : Bool) : (c.markV r q).watch = c.watch := rfl
@[simp] theorem Ctx.markV_watchPending (c : Ctx) (r : BitVec 4) (q : Bool) : (c.markV r q).watchPending = c.watchPending := rfl
@[simp] theorem Ctx.markV_chan (c : Ctx) (r : BitVec 4) (q : Bool) : (c.markV r q).chan = c.chan := rfl
@[simp] theorem Ctx.markV_retRec (c : Ctx) (r : BitVec 4) (q : Bool) : (c.markV r q).retRec = c.retRec := rfl
@[simp] theorem Ctx.markV_xfers (c : Ctx) (r : BitVec 4) (q : Bool) : (c.markV r q).xfers = c.xfers := rfl
@[simp] theorem Ctx.markV_tiles (c : Ctx) (r : BitVec 4) (q : Bool) : (c.markV r q).tiles = c.tiles := rfl
@[simp] theorem Ctx.markV_gang (c : Ctx) (r : BitVec 4) (q : Bool) : (c.markV r q).gang = c.gang := rfl
@[simp] theorem Ctx.markV_follows (c : Ctx) (r : BitVec 4) (q : Bool) : (c.markV r q).follows = c.follows := rfl
@[simp] theorem Ctx.markV_station (c : Ctx) (r : BitVec 4) (q : Bool) : (c.markV r q).station = c.station := rfl
@[simp] theorem Ctx.markV_issued (c : Ctx) (r : BitVec 4) (q : Bool) : (c.markV r q).issued = c.issued := rfl
@[simp] theorem Ctx.markV_triggered (c : Ctx) (r : BitVec 4) (q : Bool) : (c.markV r q).triggered = c.triggered := rfl
@[simp] theorem Ctx.markV_orphan (c : Ctx) (r : BitVec 4) (q : Bool) : (c.markV r q).orphan = c.orphan := rfl
@[simp] theorem Ctx.markV_launch (c : Ctx) (r : BitVec 4) (q : Bool) : (c.markV r q).launch = c.launch := rfl
@[simp] theorem Ctx.markV_group (c : Ctx) (r : BitVec 4) (q : Bool) : (c.markV r q).group = c.group := rfl
@[simp] theorem Ctx.markV_cur (c : Ctx) (r : BitVec 4) (q : Bool) : (c.markV r q).cur = c.cur := rfl
@[simp] theorem Ctx.markV_paid (c : Ctx) (r : BitVec 4) (q : Bool) : (c.markV r q).paid = c.paid := rfl
@[simp] theorem Ctx.markV_stage (c : Ctx) (r : BitVec 4) (q : Bool) : (c.markV r q).stage = c.stage := rfl
@[simp] theorem Ctx.markV_vres (c : Ctx) (r : BitVec 4) (q : Bool) : (c.markV r q).vres = c.vres := rfl
@[simp] theorem Ctx.markV_places (c : Ctx) (r : BitVec 4) (q : Bool) : (c.markV r q).places = c.places := rfl
@[simp] theorem Ctx.markV_via (c : Ctx) (r : BitVec 4) (q : Bool) : (c.markV r q).via = c.via := rfl
@[simp] theorem Ctx.markV_landed (c : Ctx) (r : BitVec 4) (q : Bool) : (c.markV r q).landed = c.landed := rfl
@[simp] theorem Ctx.markV_replay (c : Ctx) (r : BitVec 4) (q : Bool) : (c.markV r q).replay = c.replay := rfl
@[simp] theorem Ctx.markV_target (c : Ctx) (r : BitVec 4) (q : Bool) : (c.markV r q).target = c.target := rfl
@[simp] theorem Ctx.markV_storeFence (c : Ctx) (r : BitVec 4) (q : Bool) : (c.markV r q).storeFence = c.storeFence := rfl
@[simp] theorem Ctx.markV_storeFenceComb (c : Ctx) (r : BitVec 4) (q : Bool) : (c.markV r q).storeFenceComb = c.storeFenceComb := rfl
@[simp] theorem Ctx.boundary_st (c : Ctx) : (c.boundary).st = c.st := rfl
@[simp] theorem Ctx.boundary_wait (c : Ctx) : (c.boundary).wait = c.wait := rfl
@[simp] theorem Ctx.boundary_s (c : Ctx) : (c.boundary).s = c.s := rfl
@[simp] theorem Ctx.boundary_v (c : Ctx) : (c.boundary).v = c.v := rfl
@[simp] theorem Ctx.boundary_p (c : Ctx) : (c.boundary).p = c.p := rfl
@[simp] theorem Ctx.boundary_m (c : Ctx) : (c.boundary).m = c.m := rfl
@[simp] theorem Ctx.boundary_k (c : Ctx) : (c.boundary).k = c.k := rfl
@[simp] theorem Ctx.boundary_delta (c : Ctx) : (c.boundary).delta = c.delta := rfl
@[simp] theorem Ctx.boundary_pc (c : Ctx) : (c.boundary).pc = c.pc := rfl
@[simp] theorem Ctx.boundary_loop0 (c : Ctx) : (c.boundary).loop0 = c.loop0 := rfl
@[simp] theorem Ctx.boundary_loop1 (c : Ctx) : (c.boundary).loop1 = c.loop1 := rfl
@[simp] theorem Ctx.boundary_fmode (c : Ctx) : (c.boundary).fmode = c.fmode := rfl
@[simp] theorem Ctx.boundary_fflags (c : Ctx) : (c.boundary).fflags = c.fflags := rfl
@[simp] theorem Ctx.boundary_origin (c : Ctx) : (c.boundary).origin = c.origin := rfl
@[simp] theorem Ctx.boundary_unitid (c : Ctx) : (c.boundary).unitid = c.unitid := rfl
@[simp] theorem Ctx.boundary_launchid (c : Ctx) : (c.boundary).launchid = c.launchid := rfl
@[simp] theorem Ctx.boundary_groupid (c : Ctx) : (c.boundary).groupid = c.groupid := rfl
@[simp] theorem Ctx.boundary_gangid (c : Ctx) : (c.boundary).gangid = c.gangid := rfl
@[simp] theorem Ctx.boundary_recs (c : Ctx) : (c.boundary).recs = c.recs := rfl
@[simp] theorem Ctx.boundary_bsIn (c : Ctx) : (c.boundary).bsIn = c.bsIn := rfl
@[simp] theorem Ctx.boundary_bsOut (c : Ctx) : (c.boundary).bsOut = c.bsOut := rfl
@[simp] theorem Ctx.boundary_tcause (c : Ctx) : (c.boundary).tcause = c.tcause := rfl
@[simp] theorem Ctx.boundary_tval (c : Ctx) : (c.boundary).tval = c.tval := rfl
@[simp] theorem Ctx.boundary_tpc (c : Ctx) : (c.boundary).tpc = c.tpc := rfl
@[simp] theorem Ctx.boundary_tword (c : Ctx) : (c.boundary).tword = c.tword := rfl
@[simp] theorem Ctx.boundary_thand (c : Ctx) : (c.boundary).thand = c.thand := rfl
@[simp] theorem Ctx.boundary_tsave (c : Ctx) : (c.boundary).tsave = c.tsave := rfl
@[simp] theorem Ctx.boundary_sstatus (c : Ctx) : (c.boundary).sstatus = c.sstatus := rfl
@[simp] theorem Ctx.boundary_shand (c : Ctx) : (c.boundary).shand = c.shand := rfl
@[simp] theorem Ctx.boundary_tdeleg0 (c : Ctx) : (c.boundary).tdeleg0 = c.tdeleg0 := rfl
@[simp] theorem Ctx.boundary_tdeleg1 (c : Ctx) : (c.boundary).tdeleg1 = c.tdeleg1 := rfl
@[simp] theorem Ctx.boundary_scause (c : Ctx) : (c.boundary).scause = c.scause := rfl
@[simp] theorem Ctx.boundary_sval (c : Ctx) : (c.boundary).sval = c.sval := rfl
@[simp] theorem Ctx.boundary_spc (c : Ctx) : (c.boundary).spc = c.spc := rfl
@[simp] theorem Ctx.boundary_sword (c : Ctx) : (c.boundary).sword = c.sword := rfl
@[simp] theorem Ctx.boundary_ssave (c : Ctx) : (c.boundary).ssave = c.ssave := rfl
@[simp] theorem Ctx.boundary_wdlim (c : Ctx) : (c.boundary).wdlim = c.wdlim := rfl
@[simp] theorem Ctx.boundary_userLoops (c : Ctx) : (c.boundary).userLoops = c.userLoops := rfl
@[simp] theorem Ctx.boundary_systemLoops (c : Ctx) : (c.boundary).systemLoops = c.systemLoops := rfl
@[simp] theorem Ctx.boundary_ptroot (c : Ctx) : (c.boundary).ptroot = c.ptroot := rfl
@[simp] theorem Ctx.boundary_asid (c : Ctx) : (c.boundary).asid = c.asid := rfl
@[simp] theorem Ctx.boundary_generation (c : Ctx) : (c.boundary).generation = c.generation := rfl
@[simp] theorem Ctx.boundary_used (c : Ctx) : (c.boundary).used = c.used := rfl
@[simp] theorem Ctx.boundary_asyncs (c : Ctx) : (c.boundary).asyncs = c.asyncs := rfl
@[simp] theorem Ctx.boundary_wdStart (c : Ctx) : (c.boundary).wdStart = c.wdStart := rfl
@[simp] theorem Ctx.boundary_forfeit (c : Ctx) : (c.boundary).forfeit = c.forfeit := rfl
@[simp] theorem Ctx.boundary_watch (c : Ctx) : (c.boundary).watch = c.watch := rfl
@[simp] theorem Ctx.boundary_watchPending (c : Ctx) : (c.boundary).watchPending = c.watchPending := rfl
@[simp] theorem Ctx.boundary_chan (c : Ctx) : (c.boundary).chan = c.chan := rfl
@[simp] theorem Ctx.boundary_retRec (c : Ctx) : (c.boundary).retRec = c.retRec := rfl
@[simp] theorem Ctx.boundary_xfers (c : Ctx) : (c.boundary).xfers = c.xfers := rfl
@[simp] theorem Ctx.boundary_tiles (c : Ctx) : (c.boundary).tiles = c.tiles := rfl
@[simp] theorem Ctx.boundary_gang (c : Ctx) : (c.boundary).gang = c.gang := rfl
@[simp] theorem Ctx.boundary_follows (c : Ctx) : (c.boundary).follows = c.follows := rfl
@[simp] theorem Ctx.boundary_station (c : Ctx) : (c.boundary).station = c.station := rfl
@[simp] theorem Ctx.boundary_issued (c : Ctx) : (c.boundary).issued = c.issued := rfl
@[simp] theorem Ctx.boundary_triggered (c : Ctx) : (c.boundary).triggered = c.triggered := rfl
@[simp] theorem Ctx.boundary_orphan (c : Ctx) : (c.boundary).orphan = c.orphan := rfl
@[simp] theorem Ctx.boundary_launch (c : Ctx) : (c.boundary).launch = c.launch := rfl
@[simp] theorem Ctx.boundary_group (c : Ctx) : (c.boundary).group = c.group := rfl
@[simp] theorem Ctx.boundary_via (c : Ctx) : (c.boundary).via = c.via := rfl
@[simp] theorem Ctx.boundary_landed (c : Ctx) : (c.boundary).landed = c.landed := rfl
@[simp] theorem Ctx.boundary_target (c : Ctx) : (c.boundary).target = c.target := rfl
@[simp] theorem Ctx.boundary_storeFence (c : Ctx) : (c.boundary).storeFence = c.storeFence := rfl
@[simp] theorem Ctx.boundary_storeFenceComb (c : Ctx) : (c.boundary).storeFenceComb = c.storeFenceComb := rfl
@[simp] theorem Ctx.setP_st (c : Ctx) (r : BitVec 3) (x q : Bool) : (c.setP r x q).st = c.st := by
  unfold Ctx.setP; split <;> rfl
@[simp] theorem Ctx.setP_wait (c : Ctx) (r : BitVec 3) (x q : Bool) : (c.setP r x q).wait = c.wait := by
  unfold Ctx.setP; split <;> rfl
@[simp] theorem Ctx.setP_s (c : Ctx) (r : BitVec 3) (x q : Bool) : (c.setP r x q).s = c.s := by
  unfold Ctx.setP; split <;> rfl
@[simp] theorem Ctx.setP_v (c : Ctx) (r : BitVec 3) (x q : Bool) : (c.setP r x q).v = c.v := by
  unfold Ctx.setP; split <;> rfl
@[simp] theorem Ctx.setP_m (c : Ctx) (r : BitVec 3) (x q : Bool) : (c.setP r x q).m = c.m := by
  unfold Ctx.setP; split <;> rfl
@[simp] theorem Ctx.setP_k (c : Ctx) (r : BitVec 3) (x q : Bool) : (c.setP r x q).k = c.k := by
  unfold Ctx.setP; split <;> rfl
@[simp] theorem Ctx.setP_delta (c : Ctx) (r : BitVec 3) (x q : Bool) : (c.setP r x q).delta = c.delta := by
  unfold Ctx.setP; split <;> rfl
@[simp] theorem Ctx.setP_pc (c : Ctx) (r : BitVec 3) (x q : Bool) : (c.setP r x q).pc = c.pc := by
  unfold Ctx.setP; split <;> rfl
@[simp] theorem Ctx.setP_loop0 (c : Ctx) (r : BitVec 3) (x q : Bool) : (c.setP r x q).loop0 = c.loop0 := by
  unfold Ctx.setP; split <;> rfl
@[simp] theorem Ctx.setP_loop1 (c : Ctx) (r : BitVec 3) (x q : Bool) : (c.setP r x q).loop1 = c.loop1 := by
  unfold Ctx.setP; split <;> rfl
@[simp] theorem Ctx.setP_fmode (c : Ctx) (r : BitVec 3) (x q : Bool) : (c.setP r x q).fmode = c.fmode := by
  unfold Ctx.setP; split <;> rfl
@[simp] theorem Ctx.setP_fflags (c : Ctx) (r : BitVec 3) (x q : Bool) : (c.setP r x q).fflags = c.fflags := by
  unfold Ctx.setP; split <;> rfl
@[simp] theorem Ctx.setP_origin (c : Ctx) (r : BitVec 3) (x q : Bool) : (c.setP r x q).origin = c.origin := by
  unfold Ctx.setP; split <;> rfl
@[simp] theorem Ctx.setP_unitid (c : Ctx) (r : BitVec 3) (x q : Bool) : (c.setP r x q).unitid = c.unitid := by
  unfold Ctx.setP; split <;> rfl
@[simp] theorem Ctx.setP_launchid (c : Ctx) (r : BitVec 3) (x q : Bool) : (c.setP r x q).launchid = c.launchid := by
  unfold Ctx.setP; split <;> rfl
@[simp] theorem Ctx.setP_groupid (c : Ctx) (r : BitVec 3) (x q : Bool) : (c.setP r x q).groupid = c.groupid := by
  unfold Ctx.setP; split <;> rfl
@[simp] theorem Ctx.setP_gangid (c : Ctx) (r : BitVec 3) (x q : Bool) : (c.setP r x q).gangid = c.gangid := by
  unfold Ctx.setP; split <;> rfl
@[simp] theorem Ctx.setP_recs (c : Ctx) (r : BitVec 3) (x q : Bool) : (c.setP r x q).recs = c.recs := by
  unfold Ctx.setP; split <;> rfl
@[simp] theorem Ctx.setP_bsIn (c : Ctx) (r : BitVec 3) (x q : Bool) : (c.setP r x q).bsIn = c.bsIn := by
  unfold Ctx.setP; split <;> rfl
@[simp] theorem Ctx.setP_bsOut (c : Ctx) (r : BitVec 3) (x q : Bool) : (c.setP r x q).bsOut = c.bsOut := by
  unfold Ctx.setP; split <;> rfl
@[simp] theorem Ctx.setP_tcause (c : Ctx) (r : BitVec 3) (x q : Bool) : (c.setP r x q).tcause = c.tcause := by
  unfold Ctx.setP; split <;> rfl
@[simp] theorem Ctx.setP_tval (c : Ctx) (r : BitVec 3) (x q : Bool) : (c.setP r x q).tval = c.tval := by
  unfold Ctx.setP; split <;> rfl
@[simp] theorem Ctx.setP_tpc (c : Ctx) (r : BitVec 3) (x q : Bool) : (c.setP r x q).tpc = c.tpc := by
  unfold Ctx.setP; split <;> rfl
@[simp] theorem Ctx.setP_tword (c : Ctx) (r : BitVec 3) (x q : Bool) : (c.setP r x q).tword = c.tword := by
  unfold Ctx.setP; split <;> rfl
@[simp] theorem Ctx.setP_thand (c : Ctx) (r : BitVec 3) (x q : Bool) : (c.setP r x q).thand = c.thand := by
  unfold Ctx.setP; split <;> rfl
@[simp] theorem Ctx.setP_tsave (c : Ctx) (r : BitVec 3) (x q : Bool) : (c.setP r x q).tsave = c.tsave := by
  unfold Ctx.setP; split <;> rfl
@[simp] theorem Ctx.setP_sstatus (c : Ctx) (r : BitVec 3) (x q : Bool) : (c.setP r x q).sstatus = c.sstatus := by
  unfold Ctx.setP; split <;> rfl
@[simp] theorem Ctx.setP_shand (c : Ctx) (r : BitVec 3) (x q : Bool) : (c.setP r x q).shand = c.shand := by
  unfold Ctx.setP; split <;> rfl
@[simp] theorem Ctx.setP_tdeleg0 (c : Ctx) (r : BitVec 3) (x q : Bool) : (c.setP r x q).tdeleg0 = c.tdeleg0 := by
  unfold Ctx.setP; split <;> rfl
@[simp] theorem Ctx.setP_tdeleg1 (c : Ctx) (r : BitVec 3) (x q : Bool) : (c.setP r x q).tdeleg1 = c.tdeleg1 := by
  unfold Ctx.setP; split <;> rfl
@[simp] theorem Ctx.setP_scause (c : Ctx) (r : BitVec 3) (x q : Bool) : (c.setP r x q).scause = c.scause := by
  unfold Ctx.setP; split <;> rfl
@[simp] theorem Ctx.setP_sval (c : Ctx) (r : BitVec 3) (x q : Bool) : (c.setP r x q).sval = c.sval := by
  unfold Ctx.setP; split <;> rfl
@[simp] theorem Ctx.setP_spc (c : Ctx) (r : BitVec 3) (x q : Bool) : (c.setP r x q).spc = c.spc := by
  unfold Ctx.setP; split <;> rfl
@[simp] theorem Ctx.setP_sword (c : Ctx) (r : BitVec 3) (x q : Bool) : (c.setP r x q).sword = c.sword := by
  unfold Ctx.setP; split <;> rfl
@[simp] theorem Ctx.setP_ssave (c : Ctx) (r : BitVec 3) (x q : Bool) : (c.setP r x q).ssave = c.ssave := by
  unfold Ctx.setP; split <;> rfl
@[simp] theorem Ctx.setP_wdlim (c : Ctx) (r : BitVec 3) (x q : Bool) : (c.setP r x q).wdlim = c.wdlim := by
  unfold Ctx.setP; split <;> rfl
@[simp] theorem Ctx.setP_userLoops (c : Ctx) (r : BitVec 3) (x q : Bool) : (c.setP r x q).userLoops = c.userLoops := by
  unfold Ctx.setP; split <;> rfl
@[simp] theorem Ctx.setP_systemLoops (c : Ctx) (r : BitVec 3) (x q : Bool) : (c.setP r x q).systemLoops = c.systemLoops := by
  unfold Ctx.setP; split <;> rfl
@[simp] theorem Ctx.setP_ptroot (c : Ctx) (r : BitVec 3) (x q : Bool) : (c.setP r x q).ptroot = c.ptroot := by
  unfold Ctx.setP; split <;> rfl
@[simp] theorem Ctx.setP_asid (c : Ctx) (r : BitVec 3) (x q : Bool) : (c.setP r x q).asid = c.asid := by
  unfold Ctx.setP; split <;> rfl
@[simp] theorem Ctx.setP_generation (c : Ctx) (r : BitVec 3) (x q : Bool) : (c.setP r x q).generation = c.generation := by
  unfold Ctx.setP; split <;> rfl
@[simp] theorem Ctx.setP_used (c : Ctx) (r : BitVec 3) (x q : Bool) : (c.setP r x q).used = c.used := by
  unfold Ctx.setP; split <;> rfl
@[simp] theorem Ctx.setP_asyncs (c : Ctx) (r : BitVec 3) (x q : Bool) : (c.setP r x q).asyncs = c.asyncs := by
  unfold Ctx.setP; split <;> rfl
@[simp] theorem Ctx.setP_wdStart (c : Ctx) (r : BitVec 3) (x q : Bool) : (c.setP r x q).wdStart = c.wdStart := by
  unfold Ctx.setP; split <;> rfl
@[simp] theorem Ctx.setP_forfeit (c : Ctx) (r : BitVec 3) (x q : Bool) : (c.setP r x q).forfeit = c.forfeit := by
  unfold Ctx.setP; split <;> rfl
@[simp] theorem Ctx.setP_watch (c : Ctx) (r : BitVec 3) (x q : Bool) : (c.setP r x q).watch = c.watch := by
  unfold Ctx.setP; split <;> rfl
@[simp] theorem Ctx.setP_watchPending (c : Ctx) (r : BitVec 3) (x q : Bool) : (c.setP r x q).watchPending = c.watchPending := by
  unfold Ctx.setP; split <;> rfl
@[simp] theorem Ctx.setP_chan (c : Ctx) (r : BitVec 3) (x q : Bool) : (c.setP r x q).chan = c.chan := by
  unfold Ctx.setP; split <;> rfl
@[simp] theorem Ctx.setP_retRec (c : Ctx) (r : BitVec 3) (x q : Bool) : (c.setP r x q).retRec = c.retRec := by
  unfold Ctx.setP; split <;> rfl
@[simp] theorem Ctx.setP_xfers (c : Ctx) (r : BitVec 3) (x q : Bool) : (c.setP r x q).xfers = c.xfers := by
  unfold Ctx.setP; split <;> rfl
@[simp] theorem Ctx.setP_tiles (c : Ctx) (r : BitVec 3) (x q : Bool) : (c.setP r x q).tiles = c.tiles := by
  unfold Ctx.setP; split <;> rfl
@[simp] theorem Ctx.setP_gang (c : Ctx) (r : BitVec 3) (x q : Bool) : (c.setP r x q).gang = c.gang := by
  unfold Ctx.setP; split <;> rfl
@[simp] theorem Ctx.setP_follows (c : Ctx) (r : BitVec 3) (x q : Bool) : (c.setP r x q).follows = c.follows := by
  unfold Ctx.setP; split <;> rfl
@[simp] theorem Ctx.setP_station (c : Ctx) (r : BitVec 3) (x q : Bool) : (c.setP r x q).station = c.station := by
  unfold Ctx.setP; split <;> rfl
@[simp] theorem Ctx.setP_issued (c : Ctx) (r : BitVec 3) (x q : Bool) : (c.setP r x q).issued = c.issued := by
  unfold Ctx.setP; split <;> rfl
@[simp] theorem Ctx.setP_triggered (c : Ctx) (r : BitVec 3) (x q : Bool) : (c.setP r x q).triggered = c.triggered := by
  unfold Ctx.setP; split <;> rfl
@[simp] theorem Ctx.setP_orphan (c : Ctx) (r : BitVec 3) (x q : Bool) : (c.setP r x q).orphan = c.orphan := by
  unfold Ctx.setP; split <;> rfl
@[simp] theorem Ctx.setP_launch (c : Ctx) (r : BitVec 3) (x q : Bool) : (c.setP r x q).launch = c.launch := by
  unfold Ctx.setP; split <;> rfl
@[simp] theorem Ctx.setP_group (c : Ctx) (r : BitVec 3) (x q : Bool) : (c.setP r x q).group = c.group := by
  unfold Ctx.setP; split <;> rfl
@[simp] theorem Ctx.setP_cur (c : Ctx) (r : BitVec 3) (x q : Bool) : (c.setP r x q).cur = c.cur := by
  unfold Ctx.setP; split <;> rfl
@[simp] theorem Ctx.setP_paid (c : Ctx) (r : BitVec 3) (x q : Bool) : (c.setP r x q).paid = c.paid := by
  unfold Ctx.setP; split <;> rfl
@[simp] theorem Ctx.setP_stage (c : Ctx) (r : BitVec 3) (x q : Bool) : (c.setP r x q).stage = c.stage := by
  unfold Ctx.setP; split <;> rfl
@[simp] theorem Ctx.setP_vres (c : Ctx) (r : BitVec 3) (x q : Bool) : (c.setP r x q).vres = c.vres := by
  unfold Ctx.setP; split <;> rfl
@[simp] theorem Ctx.setP_places (c : Ctx) (r : BitVec 3) (x q : Bool) : (c.setP r x q).places = c.places := by
  unfold Ctx.setP; split <;> rfl
@[simp] theorem Ctx.setP_via (c : Ctx) (r : BitVec 3) (x q : Bool) : (c.setP r x q).via = c.via := by
  unfold Ctx.setP; split <;> rfl
@[simp] theorem Ctx.setP_landed (c : Ctx) (r : BitVec 3) (x q : Bool) : (c.setP r x q).landed = c.landed := by
  unfold Ctx.setP; split <;> rfl
@[simp] theorem Ctx.setP_replay (c : Ctx) (r : BitVec 3) (x q : Bool) : (c.setP r x q).replay = c.replay := by
  unfold Ctx.setP; split <;> rfl
@[simp] theorem Ctx.setP_target (c : Ctx) (r : BitVec 3) (x q : Bool) : (c.setP r x q).target = c.target := by
  unfold Ctx.setP; split <;> rfl
@[simp] theorem Ctx.setP_storeFence (c : Ctx) (r : BitVec 3) (x q : Bool) : (c.setP r x q).storeFence = c.storeFence := by
  unfold Ctx.setP; split <;> rfl
@[simp] theorem Ctx.setP_storeFenceComb (c : Ctx) (r : BitVec 3) (x q : Bool) : (c.setP r x q).storeFenceComb = c.storeFenceComb := by
  unfold Ctx.setP; split <;> rfl
@[simp] theorem Ctx.setM_st (c : Ctx) (r : BitVec 3) (x : W16) (q : Bool) : (c.setM r x q).st = c.st := by
  unfold Ctx.setM; split <;> rfl
@[simp] theorem Ctx.setM_wait (c : Ctx) (r : BitVec 3) (x : W16) (q : Bool) : (c.setM r x q).wait = c.wait := by
  unfold Ctx.setM; split <;> rfl
@[simp] theorem Ctx.setM_s (c : Ctx) (r : BitVec 3) (x : W16) (q : Bool) : (c.setM r x q).s = c.s := by
  unfold Ctx.setM; split <;> rfl
@[simp] theorem Ctx.setM_v (c : Ctx) (r : BitVec 3) (x : W16) (q : Bool) : (c.setM r x q).v = c.v := by
  unfold Ctx.setM; split <;> rfl
@[simp] theorem Ctx.setM_p (c : Ctx) (r : BitVec 3) (x : W16) (q : Bool) : (c.setM r x q).p = c.p := by
  unfold Ctx.setM; split <;> rfl
@[simp] theorem Ctx.setM_k (c : Ctx) (r : BitVec 3) (x : W16) (q : Bool) : (c.setM r x q).k = c.k := by
  unfold Ctx.setM; split <;> rfl
@[simp] theorem Ctx.setM_delta (c : Ctx) (r : BitVec 3) (x : W16) (q : Bool) : (c.setM r x q).delta = c.delta := by
  unfold Ctx.setM; split <;> rfl
@[simp] theorem Ctx.setM_pc (c : Ctx) (r : BitVec 3) (x : W16) (q : Bool) : (c.setM r x q).pc = c.pc := by
  unfold Ctx.setM; split <;> rfl
@[simp] theorem Ctx.setM_loop0 (c : Ctx) (r : BitVec 3) (x : W16) (q : Bool) : (c.setM r x q).loop0 = c.loop0 := by
  unfold Ctx.setM; split <;> rfl
@[simp] theorem Ctx.setM_loop1 (c : Ctx) (r : BitVec 3) (x : W16) (q : Bool) : (c.setM r x q).loop1 = c.loop1 := by
  unfold Ctx.setM; split <;> rfl
@[simp] theorem Ctx.setM_fmode (c : Ctx) (r : BitVec 3) (x : W16) (q : Bool) : (c.setM r x q).fmode = c.fmode := by
  unfold Ctx.setM; split <;> rfl
@[simp] theorem Ctx.setM_fflags (c : Ctx) (r : BitVec 3) (x : W16) (q : Bool) : (c.setM r x q).fflags = c.fflags := by
  unfold Ctx.setM; split <;> rfl
@[simp] theorem Ctx.setM_origin (c : Ctx) (r : BitVec 3) (x : W16) (q : Bool) : (c.setM r x q).origin = c.origin := by
  unfold Ctx.setM; split <;> rfl
@[simp] theorem Ctx.setM_unitid (c : Ctx) (r : BitVec 3) (x : W16) (q : Bool) : (c.setM r x q).unitid = c.unitid := by
  unfold Ctx.setM; split <;> rfl
@[simp] theorem Ctx.setM_launchid (c : Ctx) (r : BitVec 3) (x : W16) (q : Bool) : (c.setM r x q).launchid = c.launchid := by
  unfold Ctx.setM; split <;> rfl
@[simp] theorem Ctx.setM_groupid (c : Ctx) (r : BitVec 3) (x : W16) (q : Bool) : (c.setM r x q).groupid = c.groupid := by
  unfold Ctx.setM; split <;> rfl
@[simp] theorem Ctx.setM_gangid (c : Ctx) (r : BitVec 3) (x : W16) (q : Bool) : (c.setM r x q).gangid = c.gangid := by
  unfold Ctx.setM; split <;> rfl
@[simp] theorem Ctx.setM_recs (c : Ctx) (r : BitVec 3) (x : W16) (q : Bool) : (c.setM r x q).recs = c.recs := by
  unfold Ctx.setM; split <;> rfl
@[simp] theorem Ctx.setM_bsIn (c : Ctx) (r : BitVec 3) (x : W16) (q : Bool) : (c.setM r x q).bsIn = c.bsIn := by
  unfold Ctx.setM; split <;> rfl
@[simp] theorem Ctx.setM_bsOut (c : Ctx) (r : BitVec 3) (x : W16) (q : Bool) : (c.setM r x q).bsOut = c.bsOut := by
  unfold Ctx.setM; split <;> rfl
@[simp] theorem Ctx.setM_tcause (c : Ctx) (r : BitVec 3) (x : W16) (q : Bool) : (c.setM r x q).tcause = c.tcause := by
  unfold Ctx.setM; split <;> rfl
@[simp] theorem Ctx.setM_tval (c : Ctx) (r : BitVec 3) (x : W16) (q : Bool) : (c.setM r x q).tval = c.tval := by
  unfold Ctx.setM; split <;> rfl
@[simp] theorem Ctx.setM_tpc (c : Ctx) (r : BitVec 3) (x : W16) (q : Bool) : (c.setM r x q).tpc = c.tpc := by
  unfold Ctx.setM; split <;> rfl
@[simp] theorem Ctx.setM_tword (c : Ctx) (r : BitVec 3) (x : W16) (q : Bool) : (c.setM r x q).tword = c.tword := by
  unfold Ctx.setM; split <;> rfl
@[simp] theorem Ctx.setM_thand (c : Ctx) (r : BitVec 3) (x : W16) (q : Bool) : (c.setM r x q).thand = c.thand := by
  unfold Ctx.setM; split <;> rfl
@[simp] theorem Ctx.setM_tsave (c : Ctx) (r : BitVec 3) (x : W16) (q : Bool) : (c.setM r x q).tsave = c.tsave := by
  unfold Ctx.setM; split <;> rfl
@[simp] theorem Ctx.setM_sstatus (c : Ctx) (r : BitVec 3) (x : W16) (q : Bool) : (c.setM r x q).sstatus = c.sstatus := by
  unfold Ctx.setM; split <;> rfl
@[simp] theorem Ctx.setM_shand (c : Ctx) (r : BitVec 3) (x : W16) (q : Bool) : (c.setM r x q).shand = c.shand := by
  unfold Ctx.setM; split <;> rfl
@[simp] theorem Ctx.setM_tdeleg0 (c : Ctx) (r : BitVec 3) (x : W16) (q : Bool) : (c.setM r x q).tdeleg0 = c.tdeleg0 := by
  unfold Ctx.setM; split <;> rfl
@[simp] theorem Ctx.setM_tdeleg1 (c : Ctx) (r : BitVec 3) (x : W16) (q : Bool) : (c.setM r x q).tdeleg1 = c.tdeleg1 := by
  unfold Ctx.setM; split <;> rfl
@[simp] theorem Ctx.setM_scause (c : Ctx) (r : BitVec 3) (x : W16) (q : Bool) : (c.setM r x q).scause = c.scause := by
  unfold Ctx.setM; split <;> rfl
@[simp] theorem Ctx.setM_sval (c : Ctx) (r : BitVec 3) (x : W16) (q : Bool) : (c.setM r x q).sval = c.sval := by
  unfold Ctx.setM; split <;> rfl
@[simp] theorem Ctx.setM_spc (c : Ctx) (r : BitVec 3) (x : W16) (q : Bool) : (c.setM r x q).spc = c.spc := by
  unfold Ctx.setM; split <;> rfl
@[simp] theorem Ctx.setM_sword (c : Ctx) (r : BitVec 3) (x : W16) (q : Bool) : (c.setM r x q).sword = c.sword := by
  unfold Ctx.setM; split <;> rfl
@[simp] theorem Ctx.setM_ssave (c : Ctx) (r : BitVec 3) (x : W16) (q : Bool) : (c.setM r x q).ssave = c.ssave := by
  unfold Ctx.setM; split <;> rfl
@[simp] theorem Ctx.setM_wdlim (c : Ctx) (r : BitVec 3) (x : W16) (q : Bool) : (c.setM r x q).wdlim = c.wdlim := by
  unfold Ctx.setM; split <;> rfl
@[simp] theorem Ctx.setM_userLoops (c : Ctx) (r : BitVec 3) (x : W16) (q : Bool) : (c.setM r x q).userLoops = c.userLoops := by
  unfold Ctx.setM; split <;> rfl
@[simp] theorem Ctx.setM_systemLoops (c : Ctx) (r : BitVec 3) (x : W16) (q : Bool) : (c.setM r x q).systemLoops = c.systemLoops := by
  unfold Ctx.setM; split <;> rfl
@[simp] theorem Ctx.setM_ptroot (c : Ctx) (r : BitVec 3) (x : W16) (q : Bool) : (c.setM r x q).ptroot = c.ptroot := by
  unfold Ctx.setM; split <;> rfl
@[simp] theorem Ctx.setM_asid (c : Ctx) (r : BitVec 3) (x : W16) (q : Bool) : (c.setM r x q).asid = c.asid := by
  unfold Ctx.setM; split <;> rfl
@[simp] theorem Ctx.setM_generation (c : Ctx) (r : BitVec 3) (x : W16) (q : Bool) : (c.setM r x q).generation = c.generation := by
  unfold Ctx.setM; split <;> rfl
@[simp] theorem Ctx.setM_used (c : Ctx) (r : BitVec 3) (x : W16) (q : Bool) : (c.setM r x q).used = c.used := by
  unfold Ctx.setM; split <;> rfl
@[simp] theorem Ctx.setM_asyncs (c : Ctx) (r : BitVec 3) (x : W16) (q : Bool) : (c.setM r x q).asyncs = c.asyncs := by
  unfold Ctx.setM; split <;> rfl
@[simp] theorem Ctx.setM_wdStart (c : Ctx) (r : BitVec 3) (x : W16) (q : Bool) : (c.setM r x q).wdStart = c.wdStart := by
  unfold Ctx.setM; split <;> rfl
@[simp] theorem Ctx.setM_forfeit (c : Ctx) (r : BitVec 3) (x : W16) (q : Bool) : (c.setM r x q).forfeit = c.forfeit := by
  unfold Ctx.setM; split <;> rfl
@[simp] theorem Ctx.setM_watch (c : Ctx) (r : BitVec 3) (x : W16) (q : Bool) : (c.setM r x q).watch = c.watch := by
  unfold Ctx.setM; split <;> rfl
@[simp] theorem Ctx.setM_watchPending (c : Ctx) (r : BitVec 3) (x : W16) (q : Bool) : (c.setM r x q).watchPending = c.watchPending := by
  unfold Ctx.setM; split <;> rfl
@[simp] theorem Ctx.setM_chan (c : Ctx) (r : BitVec 3) (x : W16) (q : Bool) : (c.setM r x q).chan = c.chan := by
  unfold Ctx.setM; split <;> rfl
@[simp] theorem Ctx.setM_retRec (c : Ctx) (r : BitVec 3) (x : W16) (q : Bool) : (c.setM r x q).retRec = c.retRec := by
  unfold Ctx.setM; split <;> rfl
@[simp] theorem Ctx.setM_xfers (c : Ctx) (r : BitVec 3) (x : W16) (q : Bool) : (c.setM r x q).xfers = c.xfers := by
  unfold Ctx.setM; split <;> rfl
@[simp] theorem Ctx.setM_tiles (c : Ctx) (r : BitVec 3) (x : W16) (q : Bool) : (c.setM r x q).tiles = c.tiles := by
  unfold Ctx.setM; split <;> rfl
@[simp] theorem Ctx.setM_gang (c : Ctx) (r : BitVec 3) (x : W16) (q : Bool) : (c.setM r x q).gang = c.gang := by
  unfold Ctx.setM; split <;> rfl
@[simp] theorem Ctx.setM_follows (c : Ctx) (r : BitVec 3) (x : W16) (q : Bool) : (c.setM r x q).follows = c.follows := by
  unfold Ctx.setM; split <;> rfl
@[simp] theorem Ctx.setM_station (c : Ctx) (r : BitVec 3) (x : W16) (q : Bool) : (c.setM r x q).station = c.station := by
  unfold Ctx.setM; split <;> rfl
@[simp] theorem Ctx.setM_issued (c : Ctx) (r : BitVec 3) (x : W16) (q : Bool) : (c.setM r x q).issued = c.issued := by
  unfold Ctx.setM; split <;> rfl
@[simp] theorem Ctx.setM_triggered (c : Ctx) (r : BitVec 3) (x : W16) (q : Bool) : (c.setM r x q).triggered = c.triggered := by
  unfold Ctx.setM; split <;> rfl
@[simp] theorem Ctx.setM_orphan (c : Ctx) (r : BitVec 3) (x : W16) (q : Bool) : (c.setM r x q).orphan = c.orphan := by
  unfold Ctx.setM; split <;> rfl
@[simp] theorem Ctx.setM_launch (c : Ctx) (r : BitVec 3) (x : W16) (q : Bool) : (c.setM r x q).launch = c.launch := by
  unfold Ctx.setM; split <;> rfl
@[simp] theorem Ctx.setM_group (c : Ctx) (r : BitVec 3) (x : W16) (q : Bool) : (c.setM r x q).group = c.group := by
  unfold Ctx.setM; split <;> rfl
@[simp] theorem Ctx.setM_cur (c : Ctx) (r : BitVec 3) (x : W16) (q : Bool) : (c.setM r x q).cur = c.cur := by
  unfold Ctx.setM; split <;> rfl
@[simp] theorem Ctx.setM_paid (c : Ctx) (r : BitVec 3) (x : W16) (q : Bool) : (c.setM r x q).paid = c.paid := by
  unfold Ctx.setM; split <;> rfl
@[simp] theorem Ctx.setM_stage (c : Ctx) (r : BitVec 3) (x : W16) (q : Bool) : (c.setM r x q).stage = c.stage := by
  unfold Ctx.setM; split <;> rfl
@[simp] theorem Ctx.setM_vres (c : Ctx) (r : BitVec 3) (x : W16) (q : Bool) : (c.setM r x q).vres = c.vres := by
  unfold Ctx.setM; split <;> rfl
@[simp] theorem Ctx.setM_places (c : Ctx) (r : BitVec 3) (x : W16) (q : Bool) : (c.setM r x q).places = c.places := by
  unfold Ctx.setM; split <;> rfl
@[simp] theorem Ctx.setM_via (c : Ctx) (r : BitVec 3) (x : W16) (q : Bool) : (c.setM r x q).via = c.via := by
  unfold Ctx.setM; split <;> rfl
@[simp] theorem Ctx.setM_landed (c : Ctx) (r : BitVec 3) (x : W16) (q : Bool) : (c.setM r x q).landed = c.landed := by
  unfold Ctx.setM; split <;> rfl
@[simp] theorem Ctx.setM_replay (c : Ctx) (r : BitVec 3) (x : W16) (q : Bool) : (c.setM r x q).replay = c.replay := by
  unfold Ctx.setM; split <;> rfl
@[simp] theorem Ctx.setM_target (c : Ctx) (r : BitVec 3) (x : W16) (q : Bool) : (c.setM r x q).target = c.target := by
  unfold Ctx.setM; split <;> rfl
@[simp] theorem Ctx.setM_storeFence (c : Ctx) (r : BitVec 3) (x : W16) (q : Bool) : (c.setM r x q).storeFence = c.storeFence := by
  unfold Ctx.setM; split <;> rfl
@[simp] theorem Ctx.setM_storeFenceComb (c : Ctx) (r : BitVec 3) (x : W16) (q : Bool) : (c.setM r x q).storeFenceComb = c.storeFenceComb := by
  unfold Ctx.setM; split <;> rfl

end Sys2Proof.Machine
end

