-- ==== Sys2Proof/Laws/Records.lean ====
section
/-! SUPPORT. Reading a keyed record, a core or a context after it is written. -/

namespace Sys2Proof.Machine

theorem sget_sset_same {α : Type} (k : Nat) (x : α) (l : Sparse α) : sget k (sset k x l) = some x := by
  induction l with
  | nil => simp [sset, sget]
  | cons e l ih =>
    obtain ⟨j, y⟩ := e
    simp only [sset]
    split
    · simp [sget]
    · split
      · simp [sget]
      · rename_i h
        simp [sget, Ne.symm h, ih]

theorem sget_sset_other {α : Type} {k j : Nat} (h : j ≠ k) (x : α) (l : Sparse α) : sget j (sset k x l) = sget j l := by
  induction l with
  | nil => simp [sset, sget, Ne.symm h]
  | cons e l ih =>
    obtain ⟨i, y⟩ := e
    simp only [sset]
    split
    · simp [sget, Ne.symm h]
    · split
      · rename_i h'
        subst h'
        simp [sget, Ne.symm h]
      · simp only [sget, ih]

/-- The later of two writes under one key counts. -/
theorem sset_sset_same {α : Type} (k : Nat) (x y : α) (l : Sparse α) : sset k x (sset k y l) = sset k x l := by
  induction l with
  | nil => simp [sset]
  | cons e l ih =>
    obtain ⟨j, z⟩ := e
    by_cases h1 : k < j
    · simp [sset, h1]
    · by_cases h2 : k = j
      · subst h2; simp [sset]
      · simp [sset, h1, h2, ih]

@[simp] theorem State.core_setCore_same (s : State) (n : Nat) (c : Core) : (s.setCore n c).core n = c := by
  simp [State.core, State.setCore, sget_sset_same]

theorem State.core_setCore_other (s : State) {n k : Nat} (h : k ≠ n) (c : Core) : (s.setCore n c).core k = s.core k := by
  simp [State.core, State.setCore, sget_sset_other h]

@[simp] theorem State.setCore_setCore_same (s : State) (n : Nat) (c d : Core) :
    (s.setCore n c).setCore n d = s.setCore n d := by
  simp [State.setCore, sset_sset_same]

@[simp] theorem State.ctx_setCtx_same (s : State) (n x : Nat) (c : Ctx) : (s.setCtx n x c).ctx n x = c := by
  simp [State.ctx, State.setCtx, State.modCore]

/-- A context of the core that is not the one written. -/
theorem State.ctx_setCtx_same_core (s : State) (n : Nat) {x y : Nat} (h : y % 8 ≠ x % 8) (c : Ctx) :
    (s.setCtx n x c).ctx n y = s.ctx n y := by
  simp [State.ctx, State.setCtx, State.modCore, Vector.getElem_set, Ne.symm h]

/-- A context of another core. -/
theorem State.ctx_setCtx_other_core (s : State) {n m : Nat} (h : m ≠ n) (x y : Nat) (c : Ctx) :
    (s.setCtx n x c).ctx m y = s.ctx m y := by
  simp [State.ctx, State.setCtx, State.modCore, State.core_setCore_other s h]

@[simp] theorem State.setCtx_setCtx_same (s : State) (n x : Nat) (c d : Ctx) :
    (s.setCtx n x c).setCtx n x d = s.setCtx n x d := by
  simp [State.setCtx, State.modCore, Vector.set_set]

/-- What a write of a context leaves of its core. -/
theorem State.core_setCtx (s : State) (n x : Nat) (c : Ctx) :
    (s.setCtx n x c).core n = { s.core n with ctxs := (s.core n).ctxs.set (x % 8) c (Nat.mod_lt _ (by decide)) } := by
  simp [State.setCtx, State.modCore]

@[simp] theorem State.modHere_sel (s : State) (f : Ctx → Ctx) : (s.modHere f).sel = s.sel := rfl
@[simp] theorem State.modHere_mem (s : State) (f : Ctx → Ctx) : (s.modHere f).mem = s.mem := rfl
@[simp] theorem State.modHere_lead (s : State) (f : Ctx → Ctx) : (s.modHere f).lead = s.lead := rfl
@[simp] theorem State.modHere_flights (s : State) (f : Ctx → Ctx) : (s.modHere f).flights = s.flights := rfl
@[simp] theorem State.modHere_groups (s : State) (f : Ctx → Ctx) : (s.modHere f).groups = s.groups := rfl
@[simp] theorem State.modHere_combs (s : State) (f : Ctx → Ctx) : (s.modHere f).combs = s.combs := rfl

@[simp] theorem State.here_modHere (s : State) (f : Ctx → Ctx) : (s.modHere f).here = f s.here := by
  simp [State.here, State.modHere, State.modCtx, State.setCtx, State.modCore, State.ctx]

@[simp] theorem State.modHere_modHere (s : State) (f g : Ctx → Ctx) :
    (s.modHere f).modHere g = s.modHere fun c => g (f c) := by
  simp only [State.modHere, State.modCtx]
  have h : ((s.setCtx s.sel.1 s.sel.2 (f (s.ctx s.sel.1 s.sel.2))).sel) = s.sel := rfl
  rw [h, State.ctx_setCtx_same, State.setCtx_setCtx_same]

/-- A change of the executing context leaves every other context of its core. -/
theorem State.ctx_modHere_same_core (s : State) (f : Ctx → Ctx) {y : Nat} (h : y % 8 ≠ s.sel.2 % 8) :
    (s.modHere f).ctx s.sel.1 y = s.ctx s.sel.1 y := State.ctx_setCtx_same_core s _ h _

/-- A change of the executing context leaves the contexts of other cores. -/
theorem State.ctx_modHere_other_core (s : State) (f : Ctx → Ctx) {m : Nat} (h : m ≠ s.sel.1) (y : Nat) :
    (s.modHere f).ctx m y = s.ctx m y := State.ctx_setCtx_other_core s h _ _ _

/-! ### Registers -/

@[simp] theorem Ctx.sreg_setS_same (c : Ctx) (r : BitVec 4) (x : W72) (q : Bool) :
    (c.setS r x q).sreg r = { c.sreg r with val := if q then 0 else x, pois := q } := by
  simp [Ctx.sreg, Ctx.setS]

theorem Ctx.sreg_setS_other (c : Ctx) {r k : BitVec 4} (h : k ≠ r) (x : W72) (q : Bool) :
    (c.setS r x q).sreg k = c.sreg k := by
  have h' : r.toNat ≠ k.toNat := fun e => h (BitVec.eq_of_toNat_eq e.symm)
  simp [Ctx.sreg, Ctx.setS, Vector.getElem_set, h']

@[simp] theorem Ctx.vreg_setV_same (c : Ctx) (r : BitVec 4) (x : W512) (q : Bool) :
    (c.setV r x q).vreg r = { c.vreg r with val := if q then 0 else x, pois := q } := by
  simp [Ctx.vreg, Ctx.setV]

theorem Ctx.vreg_setV_other (c : Ctx) {r k : BitVec 4} (h : k ≠ r) (x : W512) (q : Bool) :
    (c.setV r x q).vreg k = c.vreg k := by
  have h' : r.toNat ≠ k.toNat := fun e => h (BitVec.eq_of_toNat_eq e.symm)
  simp [Ctx.vreg, Ctx.setV, Vector.getElem_set, h']

@[simp] theorem Ctx.sreg_markS_same (c : Ctx) (r : BitVec 4) (q : Bool) :
    (c.markS r q).sreg r = { c.sreg r with full := q } := by
  simp [Ctx.sreg, Ctx.markS]

@[simp] theorem Ctx.vreg_markV_same (c : Ctx) (r : BitVec 4) (q : Bool) :
    (c.markV r q).vreg r = { c.vreg r with full := q } := by
  simp [Ctx.vreg, Ctx.markV]

/-- p0 is true and is not written (R105). -/
@[simp] theorem Ctx.preg_zero (c : Ctx) : c.preg 0 = ⟨true, false⟩ := rfl
@[simp] theorem Ctx.setP_zero (c : Ctx) (x q : Bool) : c.setP 0 x q = c := rfl

end Sys2Proof.Machine
end

