-- ==== Sys2Proof/Laws/Bundle.lean ====
section
/-! SUPPORT. What the operations that all meanings share can do: the guard, the end of a bundle, the arithmetic forms, a V
result in hand. -/

namespace Sys2Proof

open Machine

/-! ### The guard and the end of a bundle -/

/-- All that a guarded operation can do. -/
theorem guarded_cases (s : State) (g : BitVec 4) (k : State → Outcome) :
    ((s.here.guard g).pois = true ∧ s.guarded g k = .next (s.raise 0x12 (poisVal 2 (g.extractLsb' 0 3).toNat))) ∨
    ((s.here.guard g).pois = false ∧ (s.here.guard g).val = true ∧ s.guarded g k = k s) ∨
    ((s.here.guard g).pois = false ∧ (s.here.guard g).val = false ∧ s.guarded g k = s.commit id) := by
  cases hp : (s.here.guard g).pois <;> cases hv : (s.here.guard g).val <;> simp [State.guarded, hp, hv]

theorem guarded_takes {s : State} {g : BitVec 4} (h : Takes s g) (k : State → Outcome) : s.guarded g k = k s := by
  simp [State.guarded, h.1]

theorem guardedCtl_takes {s : State} {g : BitVec 4} (h : TakesCtl s g) (k : State → Outcome) : s.guardedCtl g k = k s := by
  simp [State.guardedCtl, h.1]

/-- All that the end of a bundle can do: the V operation's cause, or the effect and the step to the next bundle. -/
theorem commit_cases (s : State) (e : State → State) :
    (∃ code val, s.here.vres = .trap code val ∧ s.commit e = .next (s.raise code val)) ∨
    ((∀ code val, s.here.vres ≠ .trap code val) ∧ s.commit e = .next (e s).finish) := by
  unfold State.commit
  split
  · exact .inl ⟨_, _, ‹_›, rfl⟩
  · exact .inr ⟨fun code val h => ‹∀ _ _, _ = _ → False› code val h, rfl⟩

theorem commitTo_cases (s : State) (e : State → State) :
    (∃ code val, s.here.vres = .trap code val ∧ s.commitTo e = .next (s.raise code val)) ∨
    ((∀ code val, s.here.vres ≠ .trap code val) ∧ s.commitTo e = .next (e s)) := by
  unfold State.commitTo
  split
  · exact .inl ⟨_, _, ‹_›, rfl⟩
  · exact .inr ⟨fun code val h => ‹∀ _ _, _ = _ → False› code val h, rfl⟩

theorem commit_of_no_trap {s : State} (h : ∀ code val, s.here.vres ≠ .trap code val) (e : State → State) :
    s.commit e = .next (e s).finish := by
  rcases commit_cases s e with ⟨c, v, h', -⟩ | ⟨-, h'⟩
  · exact absurd h' (h c v)
  · exact h'

theorem commitTo_of_no_trap {s : State} (h : ∀ code val, s.here.vres ≠ .trap code val) (e : State → State) :
    s.commitTo e = .next (e s) := by
  rcases commitTo_cases s e with ⟨c, v, h', -⟩ | ⟨-, h'⟩
  · exact absurd h' (h c v)
  · exact h'

/-- A change of the executing context depends on that context alone. -/
theorem modHere_congr {s : State} {f k : Ctx → Ctx} (h : f s.here = k s.here) : s.modHere f = s.modHere k := by
  simp only [State.modHere, State.modCtx]
  exact congrArg _ h

theorem commitHere_takes {s : State} {g : BitVec 4} (h : Takes s g) (f : Ctx → Ctx) :
    s.commitHere f = .next (s.modHere f).finish := commit_of_no_trap h.2 _

/-! ### The arithmetic forms -/

theorem alu2_takes {s : State} {g : BitVec 4} (h : Takes s g) (d a b : BitVec 4) (f : W64 → W64 → W64) :
    s.alu2 g d a b f =
      .next (s.modHere fun c => c.setS d (sx72 (f (reg64 s a) (reg64 s b))) (poisS s a || poisS s b)).finish := by
  rw [State.alu2, guarded_takes h, commitHere_takes h]
  exact congrArg (fun t : State => Host.Outcome.next t.finish) (modHere_congr rfl)

theorem alu1_takes {s : State} {g : BitVec 4} (h : Takes s g) (d a : BitVec 4) (f : W64 → W64) :
    s.alu1 g d a f = .next (s.modHere fun c => c.setS d (sx72 (f (reg64 s a))) (poisS s a)).finish := by
  rw [State.alu1, guarded_takes h, commitHere_takes h]
  exact congrArg (fun t : State => Host.Outcome.next t.finish) (modHere_congr rfl)

theorem plog_takes {s : State} {g : BitVec 4} (h : Takes s g) (d a b : BitVec 3) (f : Bool → Bool → Bool) :
    s.plog g d a b f =
      .next (s.modHere fun c => c.setP d (f (s.here.preg a).val (s.here.preg b).val)
        ((s.here.preg a).pois || (s.here.preg b).pois)).finish := by
  rw [State.plog, guarded_takes h, commitHere_takes h]
  exact congrArg (fun t : State => Host.Outcome.next t.finish) (modHere_congr rfl)

/-- All that an arithmetic form can do: the trap of a poisoned guard, the cause of the V operation, no effect under a false
guard, or its result. -/
theorem alu2_cases (s : State) (g d a b : BitVec 4) (f : W64 → W64 → W64) :
    (∃ code val, s.alu2 g d a b f = .next (s.raise code val)) ∨ s.alu2 g d a b f = .next s.finish ∨
    s.alu2 g d a b f =
      .next (s.modHere fun c => c.setS d (sx72 (f (reg64 s a) (reg64 s b))) (poisS s a || poisS s b)).finish := by
  rcases guarded_cases s g _ with ⟨-, h⟩ | ⟨hp, hv, h⟩ | ⟨-, -, h⟩
  · exact .inl ⟨_, _, h⟩
  · rcases commit_cases s fun s => s.modHere fun c =>
        c.result d (f (c.sval64 a) (c.sval64 b)) ((c.sreg a).pois || (c.sreg b).pois) with ⟨c, v, -, h'⟩ | ⟨hn, h'⟩
    · exact .inl ⟨c, v, h.trans h'⟩
    · refine .inr (.inr (alu2_takes ⟨?_, hn⟩ d a b f))
      cases hg : s.here.guard g
      rw [hg] at hp hv
      exact congrArg₂ PCell.mk hv hp
  · rcases commit_cases s id with ⟨c, v, -, h'⟩ | ⟨-, h'⟩
    · exact .inl ⟨c, v, h.trans h'⟩
    · exact .inr (.inl (h.trans h'))

/-! ### A V result in hand -/

theorem lane_pack16 (f : Nat → W32) {k : Nat} (h : k < 16) : lane (pack16 f) k = f k := by
  unfold lane pack16
  interval_cases k <;> apply BitVec.eq_of_getLsbD_eq <;> intro i hi <;>
    simp only [BitVec.getLsbD_extractLsb', BitVec.getLsbD_append, hi, decide_true, Bool.true_and] <;>
    (repeat' (first | rw [if_pos (by omega)] | rw [if_neg (by omega)])) <;>
    exact congrArg (BitVec.getLsbD _) (by omega)

/-- What the lanes of a merged result hold: the new bits where the mask is set, the old bits elsewhere (R130). -/
theorem lane_mergeLanes (m : W16) (old : W512) (f : Nat → LaneOut) {k : Nat} (h : k < 16) :
    lane (mergeLanes m old ((activeLanes m).map fun i => (i, f i))) k = if m.getLsbD k then (f k).bits else lane old k := by
  rw [mergeLanes, lane_pack16 _ h]
  split
  · rename_i hm
    have hf : ((activeLanes m).map fun i => (i, f i)).find? (fun x => x.1 == k) = some (k, f k) := by
      rw [List.find?_map]
      have : (activeLanes m).find? ((fun x : Nat × LaneOut => x.1 == k) ∘ fun i => (i, f i)) = some k := by
        rw [List.find?_eq_some_iff_append]
        refine ⟨by simp, ?_⟩
        have hk : k ∈ activeLanes m := by simp [activeLanes, h, hm]
        obtain ⟨u, v, e⟩ := List.append_of_mem hk
        refine ⟨u, v, e, fun x hx => ?_⟩
        have hn : (activeLanes m).Nodup := (List.nodup_range).filter _
        rw [e] at hn
        have := (List.nodup_append.1 hn).2.2 x hx k (by simp)
        simpa using this
      rw [this]; rfl
    rw [hf]; rfl
  · rfl

/-- With no arithmetic trap enabled, no flag traps (R76). -/
theorem fpTrap_none {fm : BitVec 10} (h : fm.extractLsb' 4 5 = 0) (l : List (Nat × BitVec 6)) : fpTrap fm l = none := by
  have hb : ∀ j, j < 5 → fm.getLsbD (4 + j) = false := by
    intro j hj
    have := congrArg (fun x => x.getLsbD j) h
    simpa [hj] using this
  have h0 := hb 0 (by omega)
  have h1 := hb 1 (by omega)
  have h2 := hb 2 (by omega)
  have h3 := hb 3 (by omega)
  have h4 := hb 4 (by omega)
  simp only [Nat.add_zero, Nat.reduceAdd] at h0 h1 h2 h3 h4
  simp only [fpTrap, List.find?, Nat.add_zero, Nat.reduceAdd, h0, h1, h2, h3, h4, Bool.false_and, Option.map_none]

/-- A form that writes the active lanes of vD, when no operand is poisoned and no arithmetic trap is enabled. -/
theorem vecForm_result {s : State} {g d : BitVec 4} (hm : MaskOk s g d) (hf : NoFpTrap s) (f : Nat → LaneOut) :
    ∃ x e, s.here.vecForm g d false f = .eff e ∧ e.v = [(d, x, false)] ∧ e.s = none ∧ e.m = none ∧
      ∀ k, k < 16 →
        lane x k = if (s.here.maskGuard g).val.getLsbD k then (f k).bits else lane (s.here.vreg d).val k := by
  have hd : (false || (g != 0 && (s.here.vreg d).pois)) = false := by
    rcases hm.2 with h | h
    · simp [h]
    · simp only [poisV] at h; simp [h]
  simp only [Ctx.vecForm, Ctx.masked, hm.1, hd, fpTrap_none hf]
  exact ⟨_, _, rfl, rfl, rfl, rfl, fun k hk => lane_mergeLanes _ _ f hk⟩

/-- A form that moves or computes bits writes the active lanes of vD and raises nothing (R135). -/
theorem bitForm_result {s : State} {g d : BitVec 4} (hm : MaskOk s g d) (f : Nat → W32) :
    ∃ x, s.here.bitForm g d false f = .eff { v := [(d, x, false)] } ∧
      ∀ k, k < 16 → lane x k = if (s.here.maskGuard g).val.getLsbD k then f k else lane (s.here.vreg d).val k := by
  have hd : (false || (g != 0 && (s.here.vreg d).pois)) = false := by
    rcases hm.2 with h | h
    · simp [h]
    · simp only [poisV] at h; simp [h]
  have hr : ∀ l : List (Nat × BitVec 6), (∀ x ∈ l, x.2 = 0) → ∀ j, raisers l j = 0 := by
    intro l hl j
    unfold raisers
    suffices ∀ a, l.foldl (fun a x => if x.2.getLsbD j then a + 2 ^ x.1 else a) a = a from this 0
    induction l with
    | nil => intro a; rfl
    | cons x l ih =>
      intro a
      have hx := hl x (by simp)
      rw [List.foldl_cons, hx, if_neg (by simp)]
      exact ih (fun y hy => hl y (by simp [hy])) a
  have ho : ∀ l : List (Nat × BitVec 6), (∀ x ∈ l, x.2 = 0) → orFlags l = 0 := by
    intro l hl
    unfold orFlags
    suffices ∀ a, l.foldl (fun a x => a ||| x.2) a = a from this 0
    induction l with
    | nil => intro a; rfl
    | cons x l ih =>
      intro a
      rw [List.foldl_cons, hl x (by simp), show a ||| 0 = a from BitVec.or_zero]
      exact ih (fun y hy => hl y (by simp [hy])) a
  simp only [Ctx.bitForm, Ctx.vecForm, Ctx.masked, hm.1, hd]
  generalize hL : (List.map (fun x : Nat × LaneOut => (x.1, x.2.flags))
    (List.map (fun i => (i, ({ bits := f i } : LaneOut))) (activeLanes (s.here.maskGuard g).val))) = L
  have hz : ∀ x ∈ L, x.2 = 0 := by
    subst hL
    intro x hx
    simp only [List.map_map, List.mem_map, Function.comp] at hx
    obtain ⟨i, -, rfl⟩ := hx
    rfl
  have ht : fpTrap s.here.fmode L = none := by simp [fpTrap, hr L hz]
  simp only [ht, ho L hz, Bool.false_eq_true, if_false]
  refine ⟨_, ?_, fun k hk => lane_mergeLanes _ _ (fun i => { bits := f i }) hk⟩
  simp

/-- The V operation's result is put in hand and nothing else changes. -/
theorem hold_of {s : State} {k : Ctx → VRes} {e : VEff} (h : k s.here = .eff e) :
    s.hold k = .next (s.modHere fun c => { c with vres := .eff e }) :=
  congrArg Host.Outcome.next (modHere_congr (by rw [h]))

end Sys2Proof
end

