-- ==== Sys2Proof/Laws/Memory.lean ====
section
/-! SUPPORT. Memory: every operation keeps the canonical form, and what is read after a write. -/

namespace Sys2Proof.Machine

/-! ### Rising lists -/

theorem rising_iff (l : List Nat) : rising l = true ↔ l.Pairwise (· < ·) := by
  induction l with
  | nil => simp [rising]
  | cons a l ih =>
    cases l with
    | nil => simp [rising]
    | cons b l =>
      simp only [rising, Bool.and_eq_true, decide_eq_true_eq, ih]
      constructor
      · rintro ⟨h, hp⟩
        refine List.pairwise_cons.2 ⟨fun c hc => ?_, hp⟩
        rcases List.mem_cons.1 hc with rfl | hc
        · exact h
        · exact Nat.lt_trans h ((List.pairwise_cons.1 hp).1 c hc)
      · intro hp
        exact ⟨(List.pairwise_cons.1 hp).1 b (by simp), (List.pairwise_cons.1 hp).2⟩

theorem rising_filter (p : Nat → Bool) {l : List Nat} (h : rising l = true) : rising (l.filter p) = true :=
  (rising_iff _).2 (((rising_iff _).1 h).filter p)

theorem mem_addMark (a x : Nat) (l : List Nat) : x ∈ addMark a l ↔ x = a ∨ x ∈ l := by
  induction l with
  | nil => simp [addMark]
  | cons b l ih =>
    simp only [addMark]
    split
    · simp
    · split
      · rename_i h; subst h; simp
      · simp only [List.mem_cons, ih]; tauto

theorem rising_addMark (a : Nat) {l : List Nat} (h : rising l = true) : rising (addMark a l) = true := by
  rw [rising_iff] at h ⊢
  induction l with
  | nil => simp [addMark]
  | cons b l ih =>
    have hb := List.pairwise_cons.1 h
    simp only [addMark]
    split
    · rename_i h1
      refine List.pairwise_cons.2 ⟨fun c hc => ?_, h⟩
      rcases List.mem_cons.1 hc with rfl | hc
      · exact h1
      · exact Nat.lt_trans h1 (hb.1 c hc)
    · split
      · exact h
      · rename_i h1 h2
        refine List.pairwise_cons.2 ⟨fun c hc => ?_, ih hb.2⟩
        rcases (mem_addMark a c l).1 hc with rfl | hc
        · omega
        · exact hb.1 c hc

/-! ### Cells -/

/-- The canonical form of the listed bytes. -/
def CellsOk (l : List Host.Cell) : Prop := l.Pairwise (fun a b => a.1 < b.1) ∧ ∀ c ∈ l, c.2 ≠ 0

theorem cellsOk_iff (l : List Host.Cell) :
    (rising (l.map Prod.fst) = true ∧ l.all (fun c => c.2 != 0) = true) ↔ CellsOk l := by
  simp [CellsOk, rising_iff, List.pairwise_map]

theorem Memory.wf_iff (m : Memory) : m.wf = true ↔ CellsOk m.cells ∧ rising m.pois = true := by
  simp only [Memory.wf, Bool.and_eq_true, ← cellsOk_iff]

theorem mem_putCell {a : Nat} {b : Byte} {c : Host.Cell} {l : List Host.Cell} (h : c ∈ putCell a b l) :
    c ∈ l ∨ (c = (a, b) ∧ b ≠ 0) := by
  induction l with
  | nil =>
    simp only [putCell] at h
    split at h
    · simp at h
    · exact .inr ⟨by simpa using h, ‹_›⟩
  | cons d l ih =>
    simp only [putCell] at h
    split at h
    · split at h
      · exact .inl h
      · rcases List.mem_cons.1 h with h | h
        · exact .inr ⟨h, ‹_›⟩
        · exact .inl h
    · split at h
      · split at h
        · exact .inl (List.mem_cons_of_mem _ h)
        · rcases List.mem_cons.1 h with h | h
          · exact .inr ⟨h, ‹_›⟩
          · exact .inl (List.mem_cons_of_mem _ h)
      · rcases List.mem_cons.1 h with h | h
        · exact .inl (by simp [h])
        · rcases ih h with h | h
          · exact .inl (List.mem_cons_of_mem _ h)
          · exact .inr h

theorem cellsOk_putCell (a : Nat) (b : Byte) {l : List Host.Cell} (h : CellsOk l) : CellsOk (putCell a b l) := by
  refine ⟨?_, fun c hc => ?_⟩
  · obtain ⟨h, -⟩ := h
    induction l with
    | nil => simp only [putCell]; split <;> simp
    | cons d l ih =>
      have hd := List.pairwise_cons.1 h
      simp only [putCell]
      split
      · rename_i h1
        split
        · exact h
        · refine List.pairwise_cons.2 ⟨fun c hc => ?_, h⟩
          rcases List.mem_cons.1 hc with rfl | hc
          · exact h1
          · exact Nat.lt_trans h1 (hd.1 c hc)
      · split
        · rename_i h1 h2
          split
          · exact hd.2
          · exact List.pairwise_cons.2 ⟨fun c hc => h2 ▸ hd.1 c hc, hd.2⟩
        · rename_i h1 h2
          refine List.pairwise_cons.2 ⟨fun c hc => ?_, ih hd.2⟩
          rcases mem_putCell hc with hc | ⟨hc, -⟩
          · exact hd.1 c hc
          · subst hc; simp; omega
  · rcases mem_putCell hc with hc | ⟨hc, hb⟩
    · exact h.2 c hc
    · subst hc; exact hb

theorem cellsOk_filter (p : Host.Cell → Bool) {l : List Host.Cell} (h : CellsOk l) : CellsOk (l.filter p) :=
  ⟨h.1.filter p, fun c hc => h.2 c (List.mem_filter.1 hc).1⟩

/-! ### Every operation keeps the form -/

theorem Memory.wf_empty : ({} : Memory).wf = true := rfl

theorem Memory.wf_put (m : Memory) (a : Nat) (b : Byte) (h : m.wf = true) : (m.put a b).wf = true := by
  rw [Memory.wf_iff] at h ⊢
  exact ⟨cellsOk_putCell a b h.1, rising_filter _ h.2⟩

theorem Memory.wf_spoil (m : Memory) (a : Nat) (h : m.wf = true) : (m.spoil a).wf = true := by
  rw [Memory.wf_iff] at h ⊢
  exact ⟨cellsOk_putCell a 0 h.1, rising_addMark a h.2⟩

theorem Memory.wf_putAll (m : Memory) (l : List Host.Cell) (h : m.wf = true) : (m.putAll l).wf = true := by
  induction l generalizing m with
  | nil => exact h
  | cons c l ih => exact ih _ (Memory.wf_put m c.1 c.2 h)

theorem Memory.wf_spoilAll (m : Memory) (l : List Nat) (h : m.wf = true) : (m.spoilAll l).wf = true := by
  induction l generalizing m with
  | nil => exact h
  | cons a l ih => exact ih _ (Memory.wf_spoil m a h)

theorem Memory.wf_write (m : Memory) (a n v : Nat) (h : m.wf = true) : (m.write a n v).wf = true :=
  Memory.wf_putAll m _ h

/-- Leaving out listed bytes and marks keeps the form. -/
theorem Memory.wf_filter (m : Memory) (p : Host.Cell → Bool) (q : Nat → Bool) (h : m.wf = true) :
    (⟨m.cells.filter p, m.pois.filter q⟩ : Memory).wf = true := by
  rw [Memory.wf_iff] at h ⊢
  exact ⟨cellsOk_filter p h.1, rising_filter q h.2⟩

theorem Memory.wf_clear (m : Memory) (a n : Nat) (h : m.wf = true) : (m.clear a n).wf = true := m.wf_filter _ _ h

theorem Memory.wf_kept (m : Memory) (d : Bool) (h : m.wf = true) : (m.kept d).wf = true := m.wf_filter _ _ h

theorem Memory.wf_split (m : Memory) (comb : Nat) (h : m.wf = true) :
    (m.split comb).1.wf = true ∧ (m.split comb).2.wf = true := ⟨m.wf_filter _ _ h, m.wf_filter _ _ h⟩

theorem Memory.wf_join (m n : Memory) (h : m.wf = true) : (m.join n).wf = true := by
  have h1 := (Memory.wf_iff _).1 (Memory.wf_putAll m n.cells h)
  rw [Memory.wf_iff] at h ⊢
  refine ⟨h1.1, ?_⟩
  simp only [Memory.join]
  generalize n.pois = l
  obtain ⟨-, h⟩ := h
  generalize m.pois = k at h
  induction l generalizing k with
  | nil => exact h
  | cons a l ih => exact ih (addMark a k) (rising_addMark a h)

theorem State.wf_wr (s : State) (a n v : Nat) (h : s.mem.wf = true) : (s.wr a n v).mem.wf = true :=
  Memory.wf_write _ _ _ _ h

/-! ### Reading after a write -/

theorem getCell_putCell (a x : Nat) (b : Byte) {l : List Host.Cell} (h : CellsOk l) :
    getCell x (putCell a b l) = if x = a then b else getCell x l := by
  obtain ⟨h, -⟩ := h
  have low : ∀ {l : List Host.Cell} {x : Nat}, (∀ c ∈ l, x < c.1) → getCell x l = 0 := by
    intro l x hl
    induction l with
    | nil => rfl
    | cons c l ih =>
      have hc := hl c (by simp)
      simp only [getCell]
      rw [if_neg (by omega), ih fun d hd => hl d (by simp [hd])]
  induction l with
  | nil =>
    simp only [putCell]
    split
    · rename_i hb; subst hb; simp [getCell]
    · simp [getCell, eq_comm]
  | cons d l ih =>
    have hd := List.pairwise_cons.1 h
    simp only [putCell]
    split
    · rename_i h1
      split
      · rename_i hb
        subst hb
        split
        · rename_i hx
          subst hx
          exact low fun c hc => by
            rcases List.mem_cons.1 hc with rfl | hc
            · exact h1
            · exact Nat.lt_trans h1 (hd.1 c hc)
        · rfl
      · simp only [getCell, eq_comm]
    · split
      · rename_i h1 h2
        split
        · rename_i hb
          subst hb
          split
          · rename_i hx
            subst hx
            exact low fun c hc => h2 ▸ hd.1 c hc
          · rename_i hx
            simp only [getCell]
            rw [if_neg (by omega)]
        · simp only [getCell]
          by_cases hx : x = a
          · simp [hx]
          · rw [if_neg (by omega), if_neg hx, if_neg (by omega)]
      · rename_i h1 h2
        simp only [getCell]
        by_cases hx : d.1 = x
        · rw [if_pos hx, if_neg (by omega), if_pos hx]
        · rw [if_neg hx, ih hd.2, if_neg hx]

/-- A byte reads as it was written; every other byte reads as before. -/
theorem Memory.byte_put (m : Memory) (a x : Nat) (b : Byte) (h : m.wf = true) :
    (m.put a b).byte x = if x = a then b else m.byte x :=
  getCell_putCell a x b ((Memory.wf_iff _).1 h).1

theorem Memory.byte_spoil (m : Memory) (a x : Nat) (h : m.wf = true) :
    (m.spoil a).byte x = if x = a then 0 else m.byte x :=
  getCell_putCell a x 0 ((Memory.wf_iff _).1 h).1

/-- A write of listed bytes leaves every other byte. -/
theorem Memory.byte_putAll_other (m : Memory) (l : List Host.Cell) (x : Nat) (h : m.wf = true)
    (hx : ∀ c ∈ l, c.1 ≠ x) : (m.putAll l).byte x = m.byte x := by
  induction l generalizing m with
  | nil => rfl
  | cons c l ih =>
    simp only [Memory.putAll]
    rw [ih _ (Memory.wf_put m c.1 c.2 h) fun d hd => hx d (by simp [hd]), Memory.byte_put m _ _ _ h,
      if_neg (Ne.symm (hx c (by simp)))]

theorem mem_cellsOf {a v n : Nat} {c : Host.Cell} (h : c ∈ cellsOf a v n) : a ≤ c.1 ∧ c.1 < a + n := by
  induction n generalizing a v with
  | zero => simp [cellsOf] at h
  | succ n ih =>
    rcases List.mem_cons.1 h with h | h
    · subst h; simp
    · have := ih h; omega

/-- A write of n bytes leaves every byte outside them. -/
theorem Memory.byte_write_other (m : Memory) (a n v x : Nat) (h : m.wf = true) (hx : x < a ∨ a + n ≤ x) :
    (m.write a n v).byte x = m.byte x :=
  Memory.byte_putAll_other m _ x h fun c hc => by have := mem_cellsOf hc; omega

/-- What n bytes read as after they are written: the value modulo its width. -/
theorem Memory.read_write (m : Memory) (a n v : Nat) (h : m.wf = true) :
    (m.write a n v).read a n = v % 256 ^ n := by
  induction n generalizing a v m with
  | zero => simp [Memory.write, Memory.read, Nat.mod_one]
  | succ n ih =>
    have h1 := Memory.wf_put m a (BitVec.ofNat 8 v) h
    have e : m.write a (n + 1) v = (m.put a (BitVec.ofNat 8 v)).write (a + 1) n (v / 256) := rfl
    rw [e]
    simp only [Memory.read]
    rw [Memory.byte_write_other _ _ _ _ _ h1 (.inl (by omega)), Memory.byte_put m a a _ h, if_pos rfl, ih _ _ _ h1]
    have h2 : (BitVec.ofNat 8 v).toNat = v % 256 := by simp
    rw [h2, Nat.pow_succ, Nat.mul_comm (256 ^ n) 256, Nat.mod_mul]

/-- A read depends on its bytes alone. -/
theorem Memory.read_congr (m k : Memory) (a n : Nat) (h : ∀ x, a ≤ x → x < a + n → m.byte x = k.byte x) :
    m.read a n = k.read a n := by
  induction n generalizing a with
  | zero => rfl
  | succ n ih =>
    simp only [Memory.read]
    rw [h a (by omega) (by omega), ih (a + 1) fun x h1 h2 => h x (by omega) (by omega)]

theorem Memory.read_write_other (m : Memory) (a n v b k : Nat) (h : m.wf = true) (hd : b + k ≤ a ∨ a + n ≤ b) :
    (m.write a n v).read b k = m.read b k :=
  Memory.read_congr _ _ _ _ fun x h1 h2 => Memory.byte_write_other m a n v x h (by omega)

end Sys2Proof.Machine
end

