-- ==== Sys2Proof/Laws/Form.lean ====
section
/-! SUPPORT. The shared operations keep the canonical form of memory and of the comb images. -/

namespace Sys2Proof

open Machine

theorem MemOk.congr {s t : State} (h : MemOk s) (hm : t.mem = s.mem) (hi : t.images = s.images) : MemOk t := by
  unfold MemOk at h ⊢; rwa [hm, hi]

theorem MemOk.mem {s t : State} (h : MemOk s) (hm : t.mem.wf = true) (hi : t.images = s.images) : MemOk t :=
  ⟨hm, hi ▸ h.2⟩

end Sys2Proof

namespace Sys2Proof.Machine

/-! ### Updates that leave memory and the images -/

@[simp] theorem memOk_setCore (s : State) (n : Nat) (c : Core) : MemOk (s.setCore n c) ↔ MemOk s := Iff.rfl
@[simp] theorem memOk_modCore (s : State) (n : Nat) (f : Core → Core) : MemOk (s.modCore n f) ↔ MemOk s := Iff.rfl
@[simp] theorem memOk_setCtx (s : State) (n x : Nat) (c : Ctx) : MemOk (s.setCtx n x c) ↔ MemOk s := Iff.rfl
@[simp] theorem memOk_modCtx (s : State) (n x : Nat) (f : Ctx → Ctx) : MemOk (s.modCtx n x f) ↔ MemOk s := Iff.rfl
@[simp] theorem memOk_modHere (s : State) (f : Ctx → Ctx) : MemOk (s.modHere f) ↔ MemOk s := Iff.rfl
@[simp] theorem memOk_modComb (s : State) (n : Nat) (f : Comb → Comb) : MemOk (s.modComb n f) ↔ MemOk s := Iff.rfl
@[simp] theorem memOk_later (s : State) (e : Event) : MemOk (s.later e) ↔ MemOk s := Iff.rfl
@[simp] theorem memOk_fresh (s : State) : MemOk s.fresh ↔ MemOk s := Iff.rfl
@[simp] theorem memOk_finish (s : State) : MemOk s.finish ↔ MemOk s := Iff.rfl
@[simp] theorem memOk_finishTo (s : State) (t : W72) : MemOk (s.finishTo t) ↔ MemOk s := Iff.rfl
@[simp] theorem memOk_parkReplay (s : State) (w : Wait) : MemOk (s.parkReplay w) ↔ MemOk s := Iff.rfl
@[simp] theorem memOk_parkStage (s : State) (k : Stage) (w : Wait) : MemOk (s.parkStage k w) ↔ MemOk s := Iff.rfl

@[simp] theorem memOk_modHive (s : State) (h : Nat) (f : Hive → Hive) : MemOk (s.modHive h f) ↔ MemOk s := by
  unfold State.modHive; split <;> rfl

@[simp] theorem memOk_pick (s : State) (k : Nat) : MemOk (s.pick k).2 ↔ MemOk s := by
  unfold State.pick; split <;> rfl

@[simp] theorem memOk_junkBytes (s : State) (n : Nat) : MemOk (s.junkBytes n).2 ↔ MemOk s := Iff.rfl

/-- A fold of operations that keep the form keeps it. -/
theorem memOk_foldl {α : Type} {f : State → α → State} (hf : ∀ s a, MemOk s → MemOk (f s a)) (l : List α) {s : State}
    (h : MemOk s) : MemOk (l.foldl f s) := by
  induction l generalizing s with
  | nil => exact h
  | cons a l ih => exact ih (hf s a h)

/-! ### Writes and notices -/

theorem memOk_wr {s : State} (a n v : Nat) (h : MemOk s) : MemOk (s.wr a n v) := h.mem (s.wf_wr a n v h.1) rfl

theorem memOk_wakeWatches (key n : Nat) {s : State} (h : MemOk s) : MemOk (s.wakeWatches key n) :=
  memOk_foldl (fun s _ hs => (memOk_later s _).2 hs) _
    ((memOk_foldl (fun s _ hs => (memOk_modCtx s _ _ _).2 hs) _ h : MemOk (s.wakeSectors key n)).congr rfl rfl)

theorem memOk_freshSector (x : Nat) {s : State} (h : MemOk s) : MemOk (s.freshSector x) :=
  memOk_wr _ _ _ ((memOk_junkBytes s 32).2 h)

theorem memOk_relight (key n : Nat) {s : State} (h : MemOk s) : MemOk (s.relight key n) := by
  unfold State.relight
  dsimp only
  split
  · have := memOk_foldl (fun _ x ht => memOk_freshSector x ht) ((sectorsOf key n).filter fun x => !s.relit.contains x) h
    exact ⟨this.1, this.2⟩
  · exact h

theorem memOk_poke (a n v : Nat) {s : State} (h : MemOk s) : MemOk (s.poke a n v) :=
  memOk_wakeWatches _ _ (memOk_wr _ _ _ (memOk_relight _ _ h))

theorem memOk_flushNotices (n : Nat) {s : State} (h : MemOk s) : MemOk (s.flushNotices n) := by
  induction n generalizing s with
  | zero => exact h
  | succ n ih =>
    unfold State.flushNotices
    split
    · exact h
    · rename_i k l _
      dsimp only
      generalize k.bits = v
      split
      · exact h
      · split
        · exact h
        · rename_i a _
          split
          · exact h
          · have hw := memOk_poke a 32 v h
            revert hw
            generalize s.poke a 32 v = u
            exact fun hu => ih ⟨hu.1, hu.2⟩

theorem memOk_notify (n : Notice) {s : State} (h : MemOk s) : MemOk (s.notify n) :=
  memOk_flushNotices _ (h.congr rfl rfl)

/-! ### Traps and the end of a bundle -/

theorem memOk_deliver (core cx : Nat) (async : Bool) (code : Byte) (val : W64) (p : W72) (word : W64) {s : State}
    (h : MemOk s) : MemOk (s.deliver core cx async code val p word) := by
  unfold State.deliver
  dsimp only
  split
  · exact memOk_notify _ ((memOk_setCtx _ _ _ _).2 h)
  · exact (memOk_setCtx _ _ _ _).2 h

theorem memOk_raise (code : Byte) (val : W64) {s : State} (h : MemOk s) : MemOk (s.raise code val) :=
  memOk_deliver _ _ _ _ _ _ _ h

/-- An outcome whose next state keeps the form. -/
def OutOk (o : Outcome) : Prop := ∀ t, o = .next t → MemOk t

@[simp] theorem outOk_next (t : State) : OutOk (.next t) ↔ MemOk t :=
  ⟨fun h => h t rfl, fun h _ e => Host.Outcome.next.inj e ▸ h⟩

theorem outOk_commit {e : State → State} {s : State} (h : MemOk s) (he : MemOk (e s)) : OutOk (s.commit e) := by
  unfold State.commit
  split
  · exact (outOk_next _).2 (memOk_raise _ _ h)
  · simpa using he

theorem outOk_commitTo {e : State → State} {s : State} (h : MemOk s) (he : MemOk (e s)) : OutOk (s.commitTo e) := by
  unfold State.commitTo
  split
  · exact (outOk_next _).2 (memOk_raise _ _ h)
  · simpa using he

theorem outOk_guarded {k : State → Outcome} {g : BitVec 4} {s : State} (h : MemOk s) (hk : OutOk (k s)) :
    OutOk (s.guarded g k) := by
  unfold State.guarded
  dsimp only
  split
  · exact (outOk_next _).2 (memOk_raise _ _ h)
  · split
    · exact hk
    · exact outOk_commit h h

/-! ### Translation -/

theorem memOk_tlbFill (core : Nat) (e : TlbEnt) {s : State} (h : MemOk s) : MemOk (s.tlbFill core e) := by
  unfold State.tlbFill
  dsimp only
  split <;> simpa using h

theorem memOk_joinWalk (hv : Nat) (core : Option Nat) (engine : Bool) (ptroot : W64) (asid : W16) (va : W72) {s : State}
    (h : MemOk s) : MemOk (s.joinWalk hv core engine ptroot asid va) := by
  unfold State.joinWalk
  dsimp only
  split <;> simpa using h

theorem memOk_startWalk (core : Nat) (ptroot : W64) (asid : W16) (va : W72) {s : State} (h : MemOk s) :
    MemOk (s.startWalk core ptroot asid va) := memOk_joinWalk _ _ _ _ _ _ h

theorem memOk_sysWalk (hv : Nat) (va : W64) {s : State} (h : MemOk s) : MemOk (s.sysWalk hv va) :=
  memOk_joinWalk _ _ _ _ _ _ h

theorem memOk_fileFault (hv : Nat) (asid : W16) (va : W72) (cause kinds : Byte) (level : Nat) {s : State} (h : MemOk s) :
    MemOk (s.fileFault hv asid va cause kinds level).2 := by
  unfold State.fileFault
  dsimp only
  split
  · exact h
  · split
    · split
      · exact memOk_poke _ _ _ (memOk_poke _ _ _ h)
      · exact memOk_sysWalk _ _ h
    · split
      · exact memOk_sysWalk _ _ h
      · split
        · exact h
        · exact memOk_notify _ (by
            simp only [memOk_later]; exact memOk_poke _ _ _ ((memOk_modHive _ _ _).2 h))

theorem memOk_threadFault (core cx : Nat) (va : W72) (cause kinds : Byte) (level : Nat) {s : State} (h : MemOk s) :
    MemOk (s.threadFault core cx va cause kinds level).2 := by
  have hf := memOk_fileFault (hiveOf core) (s.ctx core cx).asid va cause kinds level h
  unfold State.threadFault
  split <;> rename_i e <;> simpa [e] using hf

theorem memOk_translateAs (user : Bool) (core cx : Nat) (va : W72) (k : Access) {s : State} (h : MemOk s) :
    MemOk (s.translateAs user core cx va k).2 := by
  unfold State.translateAs
  dsimp only
  split
  · exact h
  split
  · rename_i e _
    have h1 : MemOk (if (tlbFind (s.core core).tlb (s.ctx core cx).asid va).isSome = true then s else s.tlbFill core e) := by
      split
      · exact h
      · exact memOk_tlbFill core e h
    split
    · exact memOk_threadFault _ _ _ _ _ _ h1
    · exact h1
  · exact memOk_startWalk _ _ _ _ h

theorem memOk_translate (core cx : Nat) (va : W72) (k : Access) {s : State} (h : MemOk s) :
    MemOk (s.translate core cx va k).2 := memOk_translateAs _ _ _ _ _ h

theorem memOk_noticeDegraded (core cx : Nat) (va : W64) {s : State} (h : MemOk s) : MemOk (s.noticeDegraded core cx va) :=
  memOk_notify _ h

theorem memOk_fetchLoc (core cx : Nat) (va : W72) {s : State} (h : MemOk s) : MemOk (s.fetchLoc core cx va).2 := by
  have ht := memOk_translate core cx va .fetch h
  unfold State.fetchLoc
  dsimp only
  split
  · exact h
  · split
    · exact h
    · split
      · rename_i e
        rw [e] at ht
        repeat' split
        all_goals first | exact ht | exact memOk_noticeDegraded _ _ _ ht
      · exact ht

/-! ### Places of an access -/

theorem memOk_ite {α : Type} {c : Prop} [Decidable c] {x y : α × State} (hx : MemOk x.2) (hy : MemOk y.2) :
    MemOk (if c then x else y).2 := by split <;> assumption

theorem memOk_pageChecks (l : Loc) (u : Use) {s : State} (h : MemOk s) : MemOk (s.pageChecks l u).2 := by
  unfold State.pageChecks
  iterate 7 refine memOk_ite h ?_
  refine memOk_ite (memOk_ite h (memOk_ite ?_ (memOk_ite h ?_))) h <;> simpa using h

theorem memOk_resolve (core cx : Nat) (va : W72) (n : Nat) (u : Use) {s : State} (h : MemOk s) :
    MemOk (s.resolve core cx va n u).2 := by
  have ht := memOk_translate core cx va u.access h
  unfold State.resolve
  dsimp only
  split
  · exact h
  · split
    · repeat' split
      all_goals exact h
    · split
      · rename_i l t e
        rw [e] at ht
        split
        · exact ht
        · have hp := memOk_pageChecks l u (s := t) ht
          split
          · rename_i e2; rw [e2] at hp; exact memOk_noticeDegraded _ _ _ hp
          · exact hp
      · exact ht

theorem memOk_resolveAll (core cx n : Nat) (u : Use) (vas : List W72) {s : State} (h : MemOk s) :
    MemOk (s.resolveAll core cx n u vas).2 := by
  induction vas generalizing s with
  | nil => exact h
  | cons va l ih =>
    have h1 := memOk_resolve core cx va n u h
    unfold State.resolveAll
    split
    · rename_i e
      rw [e] at h1
      have h2 := ih h1
      split
      · rename_i e2; simpa [e2] using h2
      · exact h2
    · rename_i e; simpa [e] using h1

theorem memOk_place (vas : List W72) (n : Nat) (u : Use) {s : State} (h : MemOk s) : MemOk (s.place vas n u).2 := by
  have h1 := memOk_resolveAll s.sel.1 s.sel.2 n u vas h
  unfold State.place
  split
  · exact memOk_raise _ _ h
  · split <;> rename_i e <;> rw [e] at h1
    · exact h1
    · exact memOk_raise _ _ h1
    · exact h1
    · exact h1

/-! ### Accesses -/

theorem memOk_readHome (me : Agent) (l : Loc) (n : Nat) {s : State} (h : MemOk s) : MemOk (s.readHome me l n).2.2 := by
  unfold State.readHome
  dsimp only
  repeat' split
  all_goals first | exact h | simpa using h

theorem memOk_readAt (me : Agent) (l : Loc) (n : Nat) {s : State} (h : MemOk s) : MemOk (s.readAt me l n).2.2 := by
  unfold State.readAt
  dsimp only
  split
  · exact memOk_readHome _ _ _ h
  · exact memOk_readHome _ _ _ (memOk_readHome _ _ _ h)

theorem memOk_keepOperands (key n : Nat) {s : State} (h : MemOk s) : MemOk (s.keepOperands key n) := by
  unfold State.keepOperands
  dsimp only
  repeat' split
  all_goals simpa using h

theorem memOk_staleLeaves (key n : Nat) {s : State} (h : MemOk s) : MemOk (s.staleLeaves key n) := by
  unfold State.staleLeaves
  dsimp only
  split
  · exact h.congr rfl rfl
  · exact h

theorem memOk_putBytes (key n : Nat) (w : List Host.Cell) (pois : List Nat) {s : State} (h : MemOk s) :
    MemOk (s.putBytes key n w pois) :=
  memOk_staleLeaves _ _ (memOk_wakeWatches _ _ (h.mem (Memory.wf_spoilAll _ _ (Memory.wf_putAll _ _ h.1)) rfl))

theorem memOk_writeHome (l : Loc) (n : Nat) (w : List Host.Cell) (pois : List Nat) {s : State} (h : MemOk s) :
    MemOk (s.writeHome l n w pois) := by
  have hs : ∀ xs : List Nat, MemOk ((xs.foldl (fun s x => s.freshSector x) s).relight l.key n) := fun xs =>
    memOk_relight l.key n (memOk_foldl (fun _ x ht => memOk_freshSector x ht) xs h)
  unfold State.writeHome
  dsimp only
  split
  · split
    · refine memOk_putBytes _ _ _ _ ?_
      have := hs ((sectorsOf l.key n).filter fun x => !([] : List Nat).contains x)
      revert this
      generalize State.relight _ _ _ = u
      exact fun hu => ⟨hu.1, hu.2⟩
    · rename_i e _
      split
      · exact h
      · refine memOk_putBytes _ _ _ _ ?_
        have := hs ((sectorsOf l.key n).filter fun x => !e.sectors.contains x)
        revert this
        generalize State.relight _ _ _ = u
        exact fun hu => ⟨hu.1, hu.2⟩
  · split
    · exact memOk_putBytes _ _ _ _ (memOk_relight _ _ h)
    · split
      · refine memOk_putBytes _ _ _ _ ?_
        split
        · exact (memOk_modComb _ _ _).2 h
        · exact h
      · exact memOk_putBytes _ _ _ _ (memOk_keepOperands _ _ h)

theorem memOk_l1Fill (core : Nat) (l : Loc) (n : Nat) {s : State} (h : MemOk s) : MemOk (s.l1Fill core l n) := by
  unfold State.l1Fill
  dsimp only
  repeat' split
  all_goals simpa using h

theorem memOk_l1Drop (core line : Nat) {s : State} (h : MemOk s) : MemOk (s.l1Drop core line) := h

theorem memOk_loadSector (core cx : Nat) (l : Loc) (n : Nat) (atHome : Bool) {s : State} (h : MemOk s) :
    MemOk (s.loadSector core cx l n atHome).2.2 := by
  have hh : ∀ t : State, MemOk t → MemOk (if (atHome || (t.readHome (.thread core cx) l n).2.1) = true
      then (t.readHome (.thread core cx) l n).2.2 else (t.readHome (.thread core cx) l n).2.2.l1Fill core l n) := by
    intro t ht
    have := memOk_readHome (.thread core cx) l n ht
    split
    · exact this
    · exact memOk_l1Fill _ _ _ this
  unfold State.loadSector
  dsimp only
  split
  · exact hh s h
  · split
    · exact hh s h
    · split
      · split <;> exact (memOk_pick s 2).2 h
      · exact hh _ (memOk_l1Drop _ _ ((memOk_pick s 2).2 h))

theorem memOk_loadAt (core cx : Nat) (l : Loc) (n : Nat) (atHome : Bool) {s : State} (h : MemOk s) :
    MemOk (s.loadAt core cx l n atHome).2.2 := by
  unfold State.loadAt
  dsimp only
  split
  · exact memOk_loadSector _ _ _ _ _ h
  · exact memOk_loadSector _ _ _ _ _ (memOk_loadSector _ _ _ _ _ h)

theorem memOk_acquire (core : Nat) (sc : Scope) {s : State} (h : MemOk s) : MemOk (s.acquire core sc) := by
  unfold State.acquire
  split <;> exact h

theorem memOk_takeDegraded (me : Agent) (va : W72) {s : State} (h : MemOk s) : MemOk (s.takeDegraded me va) := by
  unfold State.takeDegraded
  split
  · exact memOk_noticeDegraded _ _ _ ((memOk_modCtx _ _ _ _).2 h)
  · exact h

theorem memOk_tryRec (core cx : Nat) (r : Rec) {s : State} (h : MemOk s) : MemOk (s.tryRec core cx r).2 := by
  have hd : ∀ line, MemOk (s.l1Drop core line) := fun line => memOk_l1Drop core line h
  unfold State.tryRec
  dsimp only
  split
  · exact h
  · split
    · exact h
    · split
      · exact memOk_takeDegraded _ _ h
      · split
        · split
          · exact h
          · exact memOk_ite (memOk_loadAt _ _ _ _ _ ((memOk_pick s _).2 h)) (memOk_loadAt _ _ _ _ _ ((memOk_pick s _).2 h))
        · exact h
        · split
          · exact memOk_readAt _ _ _ (hd _)
          · exact memOk_writeHome _ _ _ _ (memOk_readAt _ _ _ (hd _))
        · split
          · exact memOk_readAt _ _ _ (hd _)
          · exact memOk_ite (memOk_writeHome _ _ _ _ (memOk_readAt _ _ _ (hd _))) (memOk_readAt _ _ _ (hd _))
        · exact memOk_loadAt _ _ _ _ _ h
        · exact h

/-! ### Issue -/

theorem memOk_issueRec (isV : Bool) (reg : BitVec 4) (op : RecOp) (locs : List Loc) (r : Ord) (sc : Scope)
    {s : State} (h : MemOk s) : MemOk (s.issueRec isV reg op locs r sc) := by
  unfold State.issueRec
  dsimp only
  split <;> simpa using h

theorem memOk_issueWrite (l : Loc) (n : Nat) (op : FlightOp) {s : State} (h : MemOk s) : MemOk (s.issueWrite l n op) := by
  unfold State.issueWrite
  dsimp only
  split
  · split
    · exact h.congr rfl rfl
    · exact memOk_writeHome _ _ _ _ h
  · exact h.congr rfl rfl

theorem memOk_engineWrite (me : Agent) (l : Loc) (n : Nat) (w : List Host.Cell) (pois : List Nat) (raw : Bool)
    {s : State} (h : MemOk s) : MemOk (s.engineWrite me l n w pois raw) := h.congr rfl rfl

theorem memOk_modL1 (me : Agent) (f : List L1Line → List L1Line) {s : State} (h : MemOk s) : MemOk (s.modL1 me f) := by
  unfold State.modL1
  split <;> exact h

theorem memOk_keepRaw (raw : Bool) (l : Loc) {s : State} (h : MemOk s) : MemOk (s.keepRaw raw l) := by
  unfold State.keepRaw
  split <;> exact h

theorem memOk_performFlight (f : Flight) {s : State} (h : MemOk s) : MemOk (s.performFlight f) := by
  have hu : MemOk { s with flights := s.flights.filter fun e => e.id != f.id } := h.congr rfl rfl
  unfold State.performFlight
  dsimp only
  split
  · exact memOk_takeDegraded _ _ hu
  split
  · exact memOk_modL1 _ _ (memOk_keepRaw _ _ (memOk_writeHome _ _ _ _ hu))
  · have hd := memOk_modL1 f.by_ (·.filter fun x => x.line != f.loc.key / 64) hu
    split
    · exact memOk_readAt _ _ _ hd
    · exact memOk_writeHome _ _ _ _ (memOk_readAt _ _ _ hd)

theorem outOk_afterRelease {need : Bool} {sc : Scope} {k : State → Outcome} {s : State} (h : MemOk s) (hk : OutOk (k s)) :
    OutOk (s.afterRelease need sc k) := by
  unfold State.afterRelease
  split
  · exact (outOk_next _).2 h
  · exact hk

theorem memOk_finishAccess (r : Ord) (seq : Nat) {s : State} (h : MemOk s) : MemOk (s.finishAccess r seq) := by
  unfold State.finishAccess
  split <;> exact h

theorem outOk_loadForm (g : BitVec 4) (isV : Bool) (d a : BitVec 4) (off : W64) (op : RecOp) (r : Ord) (sc : Scope)
    {s : State} (h : MemOk s) : OutOk (s.loadForm g isV d a off op r sc) := by
  refine outOk_guarded h ?_
  split
  · exact (outOk_next _).2 (memOk_acquire _ _ h)
  · dsimp only
    split
    · exact (outOk_next _).2 (memOk_raise _ _ h)
    · have hp := memOk_place [effAddr (s.here.sreg a).val off] op.span .load h
      split <;> rename_i e <;> rw [e] at hp
      · exact (outOk_next _).2 hp
      · exact outOk_afterRelease hp (outOk_commitTo hp (memOk_finishAccess _ _ (memOk_issueRec _ _ _ _ _ _ hp)))

theorem outOk_storeForm (g a : BitVec 4) (off : W64) (n file : Nat) (d : BitVec 4) (val : Ctx → Nat × Bool) (r : Ord)
    (sc : Scope) {s : State} (h : MemOk s) : OutOk (s.storeForm g a off n file d val r sc) := by
  refine outOk_guarded h ?_
  split
  · exact (outOk_next _).2 (memOk_acquire _ _ h)
  · dsimp only
    split
    · exact (outOk_next _).2 (memOk_raise _ _ h)
    · split
      · exact (outOk_next _).2 (memOk_raise _ _ h)
      · have hp := memOk_place [effAddr (s.here.sreg a).val off] n .store h
        split <;> rename_i e <;> rw [e] at hp
        · exact (outOk_next _).2 hp
        · split
          · exact outOk_afterRelease hp (outOk_commitTo hp (memOk_finishAccess _ _ (memOk_issueWrite _ _ _ hp)))
          · exact (outOk_next _).2 (memOk_raise _ _ hp)

end Sys2Proof.Machine
end

