-- ==== Sys2Proof/Laws/Access.lean ====
section
/-! SUPPORT. What reaching a place leaves as it was, and what the shared forms of a load, a store and an atomic do when they
take effect. -/

namespace Sys2Proof

open Machine

/-! ### A look-up -/

/-- What a translation that succeeds leaves as it was: it fills TLBs, it draws free choices, and a staged line becomes the one
used last; nothing else changes. -/
structure Looked (s t : State) : Prop where
  sel : t.sel = s.sel
  ctx : ∀ n x, t.ctx n x = s.ctx n x
  mem : t.mem = s.mem
  seq : t.seq = s.seq
  flights : t.flights = s.flights
  agenda : t.agenda = s.agenda
  groups : t.groups = s.groups
  watches : t.watches = s.watches
  promises : t.promises = s.promises
  due : t.due = s.due
  event : t.event = s.event

theorem Looked.refl (s : State) : Looked s s := ⟨rfl, fun _ _ => rfl, rfl, rfl, rfl, rfl, rfl, rfl, rfl, rfl, rfl⟩

theorem Looked.trans {s t u : State} (h : Looked s t) (k : Looked t u) : Looked s u :=
  ⟨k.sel.trans h.sel, fun n x => (k.ctx n x).trans (h.ctx n x), k.mem.trans h.mem, k.seq.trans h.seq,
   k.flights.trans h.flights, k.agenda.trans h.agenda, k.groups.trans h.groups, k.watches.trans h.watches,
   k.promises.trans h.promises, k.due.trans h.due, k.event.trans h.event⟩

theorem Looked.here {s t : State} (h : Looked s t) : t.here = s.here := by
  unfold State.here; rw [h.sel]; exact h.ctx _ _

theorem looked_pick (s : State) (k : Nat) : Looked s (s.pick k).2 := by
  unfold State.pick; split <;> exact ⟨rfl, fun _ _ => rfl, rfl, rfl, rfl, rfl, rfl, rfl, rfl, rfl, rfl⟩

theorem looked_modComb (s : State) (n : Nat) (f : Comb → Comb) : Looked s (s.modComb n f) :=
  ⟨rfl, fun _ _ => rfl, rfl, rfl, rfl, rfl, rfl, rfl, rfl, rfl, rfl⟩

theorem looked_modHive (s : State) (h : Nat) (f : Hive → Hive) : Looked s (s.modHive h f) := by
  unfold State.modHive; split <;> exact ⟨rfl, fun _ _ => rfl, rfl, rfl, rfl, rfl, rfl, rfl, rfl, rfl, rfl⟩

/-- A change of a core that keeps its contexts. -/
theorem looked_modCore (s : State) (n : Nat) (f : Core → Core) (hf : ∀ c, (f c).ctxs = c.ctxs) : Looked s (s.modCore n f) := by
  refine ⟨rfl, fun m x => ?_, rfl, rfl, rfl, rfl, rfl, rfl, rfl, rfl, rfl⟩
  unfold State.ctx State.modCore
  by_cases h : m = n
  · subst h; simp [hf]
  · rw [State.core_setCore_other s h]

theorem looked_tlbFill (s : State) (core : Nat) (e : TlbEnt) : Looked s (s.tlbFill core e) := by
  have h : Looked s ((s.pick 1024).2.modCore core fun c => { c with tlb := tlbAdd c.tlb 32 (s.pick 1024).1 e }) :=
    (looked_pick s 1024).trans (looked_modCore _ _ _ fun _ => rfl)
  unfold State.tlbFill
  dsimp only
  split
  · exact h
  · exact h.trans (looked_modComb _ _ _)

theorem threadFault_stops (s : State) (core cx : Nat) (va : W72) (cause kinds : Byte) (level : Nat) (l : Loc) :
    (s.threadFault core cx va cause kinds level).1 ≠ .ok l := by
  unfold State.threadFault
  repeat' split
  all_goals simp

theorem translateAs_ok {user : Bool} {s t : State} {core cx : Nat} {va : W72} {k : Access} {l : Loc}
    (h : s.translateAs user core cx va k = (.ok l, t)) : Looked s t := by
  unfold State.translateAs at h
  dsimp only at h
  split at h
  · simp at h
  split at h
  · rename_i e _
    have h1 : Looked s (if (tlbFind (s.core core).tlb (s.ctx core cx).asid va).isSome = true then s else s.tlbFill core e) := by
      split
      · exact .refl s
      · exact looked_tlbFill s core e
    split at h
    · exact absurd (congrArg Prod.fst h) (threadFault_stops _ _ _ _ _ _ _ _)
    · obtain ⟨-, h2⟩ := Prod.mk.inj h
      exact h2 ▸ h1
  · simp at h

theorem pageChecks_ok {s t : State} {l k : Loc} {u : Use} (h : s.pageChecks l u = (.ok k, t)) : k = l ∧ Looked s t := by
  unfold State.pageChecks at h
  dsimp only at h
  iterate 7 (rw [ite_eq_iff] at h; rcases h with ⟨-, h⟩ | ⟨-, h⟩; · simp at h)
  rw [ite_eq_iff] at h
  rcases h with ⟨-, h⟩ | ⟨-, h⟩
  · rw [ite_eq_iff] at h
    rcases h with ⟨-, h⟩ | ⟨-, h⟩
    · simp at h
    · rw [ite_eq_iff] at h
      rcases h with ⟨-, h⟩ | ⟨-, h⟩
      · obtain ⟨h1, h2⟩ := Prod.mk.inj h
        exact ⟨(Resolved.ok.inj h1).symm, h2 ▸ looked_modHive _ _ _⟩
      · rw [ite_eq_iff] at h
        rcases h with ⟨-, h⟩ | ⟨-, h⟩ <;> simp at h
  · obtain ⟨h1, h2⟩ := Prod.mk.inj h
    exact ⟨(Resolved.ok.inj h1).symm, h2 ▸ .refl s⟩

/-- Reaching a place looks translations up and changes nothing else. -/
theorem resolve_ok {s t : State} {core cx n : Nat} {va : W72} {u : Use} {l : Loc}
    (h : s.resolve core cx va n u = (.ok l, t)) : Looked s t := by
  unfold State.resolve at h
  dsimp only at h
  split at h
  · simp at h
  · split at h
    · have : t = s := by
        repeat' split at h
        all_goals first | (simp at h; done) | exact (congrArg Prod.snd h).symm
      exact this ▸ .refl s
    · split at h
      · rename_i e
        have h1 := translateAs_ok e
        split at h
        · simp at h
        · split at h
          · simp at h
          · exact h1.trans (pageChecks_ok h).2
      · rename_i hn
        exact absurd h (fun e => hn _ _ e)

theorem resolveAll_ok {s t : State} {core cx n : Nat} {u : Use} {vas : List W72} {ls : List Loc}
    (h : s.resolveAll core cx n u vas = (.ok ls, t)) : Looked s t ∧ ls.length = vas.length := by
  induction vas generalizing s ls with
  | nil =>
    obtain ⟨h1, h2⟩ := Prod.mk.inj h
    exact ⟨h2 ▸ .refl s, by rw [← Except.ok.inj h1]; rfl⟩
  | cons va l ih =>
    unfold State.resolveAll at h
    split at h
    · rename_i e
      have h1 := resolve_ok e
      split at h
      · rename_i e2
        obtain ⟨h3, h4⟩ := Prod.mk.inj h
        rw [h4] at e2
        obtain ⟨h5, h6⟩ := ih e2
        exact ⟨h1.trans h5, by rw [← Except.ok.inj h3]; simp [h6]⟩
      · rename_i hn
        exact absurd h (fun e => hn _ _ e)
    · simp at h

/-- A form that reaches its places has looked translations up and has changed nothing else. -/
theorem place_looked {s t : State} {vas : List W72} {n : Nat} {u : Use} {ls : List Loc}
    (h : s.place vas n u = (some ls, t)) : Looked s t ∧ ls.length = vas.length := by
  unfold State.place at h
  split at h
  · simp at h
  · split at h <;> rename_i e
    · obtain ⟨h1, h2⟩ := Prod.mk.inj h
      rw [h2, Option.some.inj h1] at e
      exact resolveAll_ok e
    all_goals simp at h

/-! ### The forms -/

theorem takes_looked {s t : State} {g : BitVec 4} (h : Takes s g) (k : Looked s t) : Takes t g :=
  ⟨k.here ▸ h.1, k.here ▸ h.2⟩

/-- Release is complete where the operation waits for nothing. -/
theorem released_iff (s : State) (sc : Scope) : s.released s.sel.1 s.sel.2 sc s.seq = true ↔ Released s sc := by
  simp only [State.released, Released, State.here, Bool.and_eq_true, Bool.not_eq_true', List.any_eq_false, Bool.and_eq_true,
    beq_iff_eq, decide_eq_true_eq, Bool.or_eq_true, bne_iff_ne, ne_eq, Bool.not_eq_true', not_and, not_or, not_not]
  refine and_congr ⟨fun h f hf hb hl => ?_, fun h f hf hb => ?_⟩ ⟨fun h r hr hl => ?_, fun h r hr hl => ?_⟩
  · have := h f hf ⟨hb, hl⟩
    simpa using this
  · have := h f hf hb.1 hb.2
    simpa using this
  · have := h r hr
    revert this
    cases r.op.isRemote <;> simp [hl]
  · rcases h r hr hl.1 with h | h
    · simp [h] at hl
    · simpa using h

theorem afterRelease_goes {s : State} {r : Ord} {sc : Scope} (h : MayGo s r sc) (k : State → Outcome) :
    s.afterRelease (relOf r) sc k = k s := by
  unfold State.afterRelease
  rw [if_neg]
  simp only [Bool.and_eq_true, Bool.not_eq_true', not_and, Bool.not_eq_false]
  intro hr
  exact (released_iff s sc).2 (h (by simpa [relOf] using hr))

theorem finishAccess_eq (s : State) (r : Ord) (n : Nat) : s.finishAccess r n = goesOn r n s := by
  simp [State.finishAccess, goesOn, acqOf]

theorem acquired_eq (s : State) (sc : Scope) : s.acquired sc = .next (acquired sc s).finish := by
  simp only [State.acquired, State.acquire, acquired]

/-- A load that takes effect leaves a record, and the bundle goes on under its order. -/
theorem loadForm_takes {s t : State} {g : BitVec 4} {isV : Bool} {d a : BitVec 4} {off : W64} {op : RecOp} {r : Ord}
    {sc : Scope} {ls : List Loc} (h : Takes s g) (hs : s.here.stage = .fresh) (ha : poisS s a = false)
    (hp : s.place [effAddr (s.here.sreg a).val off] op.span .load = (some ls, t)) (hr : MayGo t r sc) :
    s.loadForm g isV d a off op r sc = .next (goesOn r t.seq (t.issueRec isV d op ls r sc)) := by
  have ht := takes_looked h (place_looked hp).1
  unfold State.loadForm
  rw [guarded_takes h, hs]
  simp only [show (s.here.sreg a).pois = false from ha, hp, Bool.false_eq_true, if_false]
  rw [afterRelease_goes hr, commitTo_of_no_trap ht.2, finishAccess_eq]

theorem loadForm_acted {s : State} {g : BitVec 4} {isV : Bool} {d a : BitVec 4} {off : W64} {op : RecOp} {r : Ord}
    {sc : Scope} {n : Nat} (h : Takes s g) (hs : s.here.stage = .acted n) :
    s.loadForm g isV d a off op r sc = .next (acquired sc s).finish := by
  unfold State.loadForm
  rw [guarded_takes h, hs]
  exact acquired_eq s sc

/-- A store that takes effect issues its write. -/
theorem storeForm_takes {s t : State} {g a : BitVec 4} {off : W64} {n file : Nat} {d : BitVec 4} {val : Ctx → Nat × Bool}
    {r : Ord} {sc : Scope} {l : Loc} {ls : List Loc} (h : Takes s g) (hs : s.here.stage = .fresh)
    (ha : poisS s a = false) (hv : (val s.here).2 = false)
    (hp : s.place [effAddr (s.here.sreg a).val off] n .store = (some (l :: ls), t)) (hk : t.reserveAll (l :: ls) = true)
    (hr : MayGo t r sc) :
    s.storeForm g a off n file d val r sc =
      .next (goesOn r t.seq (t.issueWrite l n (.bytes (cellsOf l.key (val s.here).1 n) []))) := by
  have ht := takes_looked h (place_looked hp).1
  unfold State.storeForm
  rw [guarded_takes h, hs]
  simp only [show (s.here.sreg a).pois = false from ha, hv, hp, hk, Bool.false_eq_true, if_false]
  rw [afterRelease_goes hr, commitTo_of_no_trap ht.2, finishAccess_eq]

theorem storeForm_acted {s : State} {g a : BitVec 4} {off : W64} {n file : Nat} {d : BitVec 4} {val : Ctx → Nat × Bool}
    {r : Ord} {sc : Scope} {m : Nat} (h : Takes s g) (hs : s.here.stage = .acted m) :
    s.storeForm g a off n file d val r sc = .next (acquired sc s).finish := by
  unfold State.storeForm
  rw [guarded_takes h, hs]
  exact acquired_eq s sc

/-- The record of a load stands as the statements write it. -/
theorem issueRec_eq (s : State) (isV : Bool) (d : BitVec 4) (op : RecOp) (ls : List Loc) (r : Ord) (sc : Scope)
    (h : op.isRemote = false) :
    s.issueRec isV d op ls r sc = recorded s isV d
      { seq := s.seq, isV := isV, reg := d, op := op, locs := ls, ord := r, scope := sc, got := fixed s op ls,
        fence := op.atomic } := by
  unfold State.issueRec recorded fixed
  simp only [h, Bool.false_eq_true, if_false]
  rfl

/-- A write to any other place than the core's own scratchpad is on its way. -/
theorem issueWrite_sent (s : State) (l : Loc) (n : Nat) (op : FlightOp) (h : l.win ≠ .own) : s.issueWrite l n op = sent s l n op := by
  unfold State.issueWrite
  dsimp only
  split
  · exact absurd ‹l.win = .own› h
  · rfl

/-- A write to the core's own scratchpad is on its way while an earlier access, or one that the port has accepted, comes first. -/
theorem issueWrite_held (s : State) (l : Loc) (n : Nat) (w : List Host.Cell) (pois : List Nat)
    (hb : s.behind s.sel.1 s.sel.2 s.seq l n = true ∨ s.portTaken s.seq l = true ∨ s.storesHeld s.sel.1 s.sel.2 = true) :
    s.issueWrite l n (.bytes w pois) = sent s l n (.bytes w pois) := by
  unfold State.issueWrite
  dsimp only
  split
  · rename_i e
    obtain ⟨rfl, rfl⟩ := FlightOp.bytes.inj e
    rw [if_pos (by simpa [or_assoc] using hb)]
    rfl
  · rfl

/-- A write to the core's own scratchpad is performed at once where no earlier access comes first. -/
theorem issueWrite_own (s : State) (l : Loc) (n : Nat) (w : List Host.Cell) (pois : List Nat) (h : l.win = .own)
    (hb : s.behind s.sel.1 s.sel.2 s.seq l n = false) (hp : s.portTaken s.seq l = false)
    (hs : s.storesHeld s.sel.1 s.sel.2 = false) :
    s.issueWrite l n (.bytes w pois) = s.writeHome l n w pois := by
  unfold State.issueWrite
  rw [h]
  simp [hb, hp, hs]

end Sys2Proof
end

