-- ==== Sys2Proof/Laws/PerInstr.lean ====
section
/-! SUPPORT. One law per form: where the encoding of an operation of the S slot puts its guard, and that no V-word stands for
it. -/

namespace Sys2Proof.Laws.GuardPlace

open Sys2Proof Sys2Proof.Machine

/-- R48: every S-word has the guard of its operation in bits [4:1]; an operation of the S slot has no V-word. -/
def Statement (i : Instr) : Prop :=
  ∀ w l, encodeS i = some (w, l) → w.extractLsb' 1 4 = guardOf i ∧ encodeV i = none

theorem guard_joinWord (p : Parts) : (joinWord p).extractLsb' 1 4 = p.g := by
  unfold joinWord
  ext k hk
  simp only [BitVec.getElem_extractLsb', BitVec.getLsbD_append]
  have h1 : ¬ 1 + k < 1 := by omega
  have h2 : 1 + k - 1 < 4 := by omega
  have h3 : ¬ 4 ≤ k := by omega
  simp [h2, h3, BitVec.getLsbD_eq_getElem hk]

/-- An operation of the S slot, from its fields. -/
theorem of_parts {i : Instr} {p : Parts × W32} (h : encodeSParts i = some p) (hg : p.1.g = guardOf i)
    (hv : encodeV i = none) : Statement i := by
  intro w l e
  unfold encodeS at e
  rw [h] at e
  obtain ⟨rfl, -⟩ := Prod.mk.inj (Option.some.inj e)
  exact ⟨(guard_joinWord _).trans hg, hv⟩

/-- An operation that no S-word stands for. -/
theorem of_none {i : Instr} (h : encodeSParts i = none) : Statement i := by
  intro w l e
  unfold encodeS at e
  rw [h] at e
  cases e

theorem nop (g : BitVec 4) : Statement (.nop g) := of_parts rfl rfl rfl
theorem brk (g : BitVec 4) : Statement (.brk g) := of_parts rfl rfl rfl
theorem exit (g : BitVec 4) : Statement (.exit g) := of_parts rfl rfl rfl
theorem eret (g : BitVec 4) : Statement (.eret g) := of_parts rfl rfl rfl
theorem trap (g : BitVec 4) (i : BitVec 8) : Statement (.trap g i) := of_parts rfl rfl rfl
theorem tlbinvPage (g a b : BitVec 4) : Statement (.tlbinvPage g a b) := of_parts rfl rfl rfl
theorem tlbinvAsid (g b : BitVec 4) : Statement (.tlbinvAsid g b) := of_parts rfl rfl rfl
theorem tlbinvAll (g : BitVec 4) : Statement (.tlbinvAll g) := of_parts rfl rfl rfl
theorem add (g d a b : BitVec 4) : Statement (.add g d a b) := of_parts rfl rfl rfl
theorem sub (g d a b : BitVec 4) : Statement (.sub g d a b) := of_parts rfl rfl rfl
theorem mul (g d a b : BitVec 4) : Statement (.mul g d a b) := of_parts rfl rfl rfl
theorem mulh (g d a b : BitVec 4) : Statement (.mulh g d a b) := of_parts rfl rfl rfl
theorem mulhu (g d a b : BitVec 4) : Statement (.mulhu g d a b) := of_parts rfl rfl rfl
theorem div (g d a b : BitVec 4) : Statement (.div g d a b) := of_parts rfl rfl rfl
theorem divu (g d a b : BitVec 4) : Statement (.divu g d a b) := of_parts rfl rfl rfl
theorem rem (g d a b : BitVec 4) : Statement (.rem g d a b) := of_parts rfl rfl rfl
theorem remu (g d a b : BitVec 4) : Statement (.remu g d a b) := of_parts rfl rfl rfl
theorem and (g d a b : BitVec 4) : Statement (.and g d a b) := of_parts rfl rfl rfl
theorem or (g d a b : BitVec 4) : Statement (.or g d a b) := of_parts rfl rfl rfl
theorem xor (g d a b : BitVec 4) : Statement (.xor g d a b) := of_parts rfl rfl rfl
theorem shl (g d a b : BitVec 4) : Statement (.shl g d a b) := of_parts rfl rfl rfl
theorem shr (g d a b : BitVec 4) : Statement (.shr g d a b) := of_parts rfl rfl rfl
theorem sra (g d a b : BitVec 4) : Statement (.sra g d a b) := of_parts rfl rfl rfl
theorem min (g d a b : BitVec 4) : Statement (.min g d a b) := of_parts rfl rfl rfl
theorem max (g d a b : BitVec 4) : Statement (.max g d a b) := of_parts rfl rfl rfl
theorem minu (g d a b : BitVec 4) : Statement (.minu g d a b) := of_parts rfl rfl rfl
theorem maxu (g d a b : BitVec 4) : Statement (.maxu g d a b) := of_parts rfl rfl rfl
theorem clz (g d a : BitVec 4) : Statement (.clz g d a) := of_parts rfl rfl rfl
theorem ctz (g d a : BitVec 4) : Statement (.ctz g d a) := of_parts rfl rfl rfl
theorem pcnt (g d a : BitVec 4) : Statement (.pcnt g d a) := of_parts rfl rfl rfl
theorem sext (g d a : BitVec 4) (e : Elem) : Statement (.sext g d a e) := of_parts rfl rfl rfl
theorem mov (g d a : BitVec 4) : Statement (.mov g d a) := of_parts rfl rfl rfl
theorem andn (g d a b : BitVec 4) : Statement (.andn g d a b) := of_parts rfl rfl rfl
theorem addi (g d a : BitVec 4) (i : Imm 13) : Statement (.addi g d a i) := by cases i <;> exact of_parts rfl rfl rfl
theorem andi (g d a : BitVec 4) (i : Imm 13) : Statement (.andi g d a i) := by cases i <;> exact of_parts rfl rfl rfl
theorem ori (g d a : BitVec 4) (i : Imm 13) : Statement (.ori g d a i) := by cases i <;> exact of_parts rfl rfl rfl
theorem xori (g d a : BitVec 4) (i : Imm 13) : Statement (.xori g d a i) := by cases i <;> exact of_parts rfl rfl rfl
theorem shli (g d a : BitVec 4) (n : BitVec 6) : Statement (.shli g d a n) := of_parts rfl rfl rfl
theorem shri (g d a : BitVec 4) (n : BitVec 6) : Statement (.shri g d a n) := of_parts rfl rfl rfl
theorem srai (g d a : BitVec 4) (n : BitVec 6) : Statement (.srai g d a n) := of_parts rfl rfl rfl
theorem movi (g d : BitVec 4) (i : Imm 13) : Statement (.movi g d i) := by cases i <;> exact of_parts rfl rfl rfl
theorem orh (g d a : BitVec 4) (i : Imm 13) : Statement (.orh g d a i) := by cases i <;> exact of_parts rfl rfl rfl
theorem bfx (g d a : BitVec 4) (p : BitVec 6) (n : BitVec 5) : Statement (.bfx g d a p n) := of_parts rfl rfl rfl
theorem bfxs (g d a : BitVec 4) (p : BitVec 6) (n : BitVec 5) : Statement (.bfxs g d a p n) := of_parts rfl rfl rfl
theorem bfi (g d a : BitVec 4) (p : BitVec 6) (n : BitVec 5) : Statement (.bfi g d a p n) := of_parts rfl rfl rfl
theorem lea (g d a b : BitVec 4) (n : BitVec 2) : Statement (.lea g d a b n) := of_parts rfl rfl rfl
theorem leai (g d a : BitVec 4) (i : Imm 13) : Statement (.leai g d a i) := by cases i <;> exact of_parts rfl rfl rfl
theorem setsp (g d a : BitVec 4) (s : BitVec 8) : Statement (.setsp g d a s) := of_parts rfl rfl rfl
theorem getsp (g d : BitVec 4) : Statement (.getsp g d) := of_parts rfl rfl rfl
theorem cmp (g : BitVec 4) (p : BitVec 3) (a b : BitVec 4) (c : Cond) : Statement (.cmp g p a b c) := of_parts rfl rfl rfl
theorem cmpi (g : BitVec 4) (p : BitVec 3) (a : BitVec 4) (c : Cond) (i : Imm 10) : Statement (.cmpi g p a c i) := by cases i <;> exact of_parts rfl rfl rfl
theorem pand (g : BitVec 4) (d a b : BitVec 3) : Statement (.pand g d a b) := of_parts rfl rfl rfl
theorem por (g : BitVec 4) (d a b : BitVec 3) : Statement (.por g d a b) := of_parts rfl rfl rfl
theorem pxor (g : BitVec 4) (d a b : BitVec 3) : Statement (.pxor g d a b) := of_parts rfl rfl rfl
theorem pandn (g : BitVec 4) (d a b : BitVec 3) : Statement (.pandn g d a b) := of_parts rfl rfl rfl
theorem pnot (g : BitVec 4) (d a : BitVec 3) : Statement (.pnot g d a) := of_parts rfl rfl rfl
theorem pword (g d : BitVec 4) : Statement (.pword g d) := of_parts rfl rfl rfl
theorem pset (g a : BitVec 4) : Statement (.pset g a) := of_parts rfl rfl rfl
theorem sel (g d a b : BitVec 4) (p : BitVec 3) : Statement (.sel g d a b p) := of_parts rfl rfl rfl
theorem br (g : BitVec 4) (i : Imm 21) : Statement (.br g i) := by cases i <;> exact of_parts rfl rfl rfl
theorem bl (g : BitVec 4) (i : Imm 21) : Statement (.bl g i) := by cases i <;> exact of_parts rfl rfl rfl
theorem jr (g a : BitVec 4) : Statement (.jr g a) := of_parts rfl rfl rfl
theorem jlr (g d a : BitVec 4) : Statement (.jlr g d a) := of_parts rfl rfl rfl
theorem loop (g c : BitVec 4) (n : BitVec 17) : Statement (.loop g c n) := of_parts rfl rfl rfl
theorem loopi (g : BitVec 4) (c : Imm 4) (n : BitVec 17) : Statement (.loopi g c n) := by cases c <;> exact of_parts rfl rfl rfl
theorem ld (g d a : BitVec 4) (o : Imm 6) (wd : Width) (r : Ord) (s : Scope) : Statement (.ld g d a o wd r s) := by cases o <;> exact of_parts rfl rfl rfl
theorem ldz (g d a : BitVec 4) (o : Imm 6) (wd : Width) (r : Ord) (s : Scope) : Statement (.ldz g d a o wd r s) := by cases o <;> exact of_parts rfl rfl rfl
theorem st (g d a : BitVec 4) (o : Imm 6) (wd : Width) (r : Ord) (s : Scope) : Statement (.st g d a o wd r s) := by cases o <;> exact of_parts rfl rfl rfl
theorem ldv (g d a : BitVec 4) (o : Imm 6) (r : Ord) (s : Scope) : Statement (.ldv g d a o r s) := by cases o <;> exact of_parts rfl rfl rfl
theorem stv (g d a : BitVec 4) (o : Imm 6) (r : Ord) (s : Scope) : Statement (.stv g d a o r s) := by cases o <;> exact of_parts rfl rfl rfl
theorem ldsamp (g d a : BitVec 4) (o : Imm 6) : Statement (.ldsamp g d a o) := by cases o <;> exact of_parts rfl rfl rfl
theorem gath (g v s i : BitVec 4) (e : Elem) (h : BitVec 2) (r : Ord) (c : Scope) : Statement (.gath g v s i e h r c) := of_parts rfl rfl rfl
theorem scat (g v s i : BitVec 4) (e : Elem) (h : BitVec 2) (r : Ord) (c : Scope) : Statement (.scat g v s i e h r c) := of_parts rfl rfl rfl
theorem amo (g d a b : BitVec 4) (o : AmoOp) (w : Bool) (r : Ord) (s : Scope) : Statement (.amo g d a b o w r s) := of_parts rfl rfl rfl
theorem cas (g d a b : BitVec 4) (w : Bool) (r : Ord) (s : Scope) : Statement (.cas g d a b w r s) := of_parts rfl rfl rfl
theorem ared (g a b : BitVec 4) (o : AmoOp) (w : Bool) (r : Ord) (s : Scope) : Statement (.ared g a b o w r s) := of_parts rfl rfl rfl
theorem fence (g : BitVec 4) (k : FenceKind) (s : Scope) : Statement (.fence g k s) := of_parts rfl rfl rfl
theorem fsamp (g : BitVec 4) (s : Scope) : Statement (.fsamp g s) := of_parts rfl rfl rfl
theorem sinv (g : BitVec 4) (s : Scope) : Statement (.sinv g s) := of_parts rfl rfl rfl
theorem mwatch (g a : BitVec 4) : Statement (.mwatch g a) := of_parts rfl rfl rfl
theorem mwait (g d b : BitVec 4) : Statement (.mwait g d b) := of_parts rfl rfl rfl
theorem mclr (g : BitVec 4) : Statement (.mclr g) := of_parts rfl rfl rfl
theorem cflush (g a : BitVec 4) : Statement (.cflush g a) := of_parts rfl rfl rfl
theorem cinval (g a : BitVec 4) : Statement (.cinval g a) := of_parts rfl rfl rfl
theorem prf (g a : BitVec 4) : Statement (.prf g a) := of_parts rfl rfl rfl
theorem mig (g a : BitVec 4) : Statement (.mig g a) := of_parts rfl rfl rfl
theorem migc (g a : BitVec 4) : Statement (.migc g a) := of_parts rfl rfl rfl
theorem migb (g : BitVec 4) : Statement (.migb g) := of_parts rfl rfl rfl
theorem home (g d a : BitVec 4) : Statement (.home g d a) := of_parts rfl rfl rfl
theorem isfull (g d a : BitVec 4) (f : Bool) : Statement (.isfull g d a f) := of_parts rfl rfl rfl
theorem mkempty (g a : BitVec 4) (f : Bool) : Statement (.mkempty g a f) := of_parts rfl rfl rfl
theorem mkfull (g a : BitVec 4) (f : Bool) : Statement (.mkfull g a f) := of_parts rfl rfl rfl
theorem fmode (g : BitVec 4) (r : Rm) : Statement (.fmode g r) := of_parts rfl rfl rfl
theorem rdsr (g d : BitVec 4) (s : BitVec 12) : Statement (.rdsr g d s) := of_parts rfl rfl rfl
theorem wrsr (g a : BitVec 4) (s : BitVec 12) : Statement (.wrsr g a s) := of_parts rfl rfl rfl
theorem msg (g a : BitVec 4) (c : BitVec 6) : Statement (.msg g a c) := of_parts rfl rfl rfl
theorem mrecv (g d : BitVec 4) : Statement (.mrecv g d) := of_parts rfl rfl rfl
theorem chbind (g : BitVec 4) (c : BitVec 6) : Statement (.chbind g c) := of_parts rfl rfl rfl
theorem tbset (g a : BitVec 4) (c : BitVec 6) : Statement (.tbset g a c) := of_parts rfl rfl rfl
theorem tbclr (g : BitVec 4) (c : BitVec 6) : Statement (.tbclr g c) := of_parts rfl rfl rfl
theorem mbrd (g d : BitVec 4) (p : Bool) (w : BitVec 2) : Statement (.mbrd g d p w) := of_parts rfl rfl rfl
theorem callat (g d a b : BitVec 4) : Statement (.callat g d a b) := of_parts rfl rfl rfl
theorem ret (g a : BitVec 4) : Statement (.ret g a) := of_parts rfl rfl rfl
theorem qput (g d a b : BitVec 4) : Statement (.qput g d a b) := of_parts rfl rfl rfl
theorem gang (g : BitVec 4) (w : BitVec 2) : Statement (.gang g w) := of_parts rfl rfl rfl
theorem ungang (g : BitVec 4) : Statement (.ungang g) := of_parts rfl rfl rfl
theorem barInit (g a b : BitVec 4) : Statement (.barInit g a b) := of_parts rfl rfl rfl
theorem barArv (g a : BitVec 4) : Statement (.barArv g a) := of_parts rfl rfl rfl
theorem barWait (g a b : BitVec 4) : Statement (.barWait g a b) := of_parts rfl rfl rfl
theorem barArw (g a : BitVec 4) : Statement (.barArw g a) := of_parts rfl rfl rfl
theorem trig (g : BitVec 4) : Statement (.trig g) := of_parts rfl rfl rfl
theorem cancel (g a : BitVec 4) : Statement (.cancel g a) := of_parts rfl rfl rfl
theorem cnt (g d a : BitVec 4) (f : BitVec 2) : Statement (.cnt g d a f) := of_parts rfl rfl rfl
theorem xget (g d a b : BitVec 4) (n r : Bool) (c : BitVec 3) : Statement (.xget g d a b n r c) := of_parts rfl rfl rfl
theorem xput (g d a b : BitVec 4) (n r : Bool) (c : BitVec 3) : Statement (.xput g d a b n r c) := of_parts rfl rfl rfl
theorem xcopy (g d a b : BitVec 4) (n r : Bool) (c : BitVec 3) : Statement (.xcopy g d a b n r c) := of_parts rfl rfl rfl
theorem xtile (g d a b : BitVec 4) (n r : Bool) (c : BitVec 3) : Statement (.xtile g d a b n r c) := of_parts rfl rfl rfl
theorem xgetv (g d a b : BitVec 4) (n r : Bool) (c : BitVec 3) : Statement (.xgetv g d a b n r c) := of_parts rfl rfl rfl
theorem xwait (g d a : BitVec 4) (c : BitVec 3) : Statement (.xwait g d a c) := of_parts rfl rfl rfl
theorem xstat (g d : BitVec 4) (k : Bool) (c : BitVec 3) : Statement (.xstat g d k c) := of_parts rfl rfl rfl
theorem cbinit (g a b : BitVec 4) (n : BitVec 5) : Statement (.cbinit g a b n) := of_parts rfl rfl rfl
theorem cbpush (g d a b : BitVec 4) : Statement (.cbpush g d a b) := of_parts rfl rfl rfl
theorem cbpop (g d a b : BitVec 4) : Statement (.cbpop g d a b) := of_parts rfl rfl rfl
theorem cbwait (g d a b : BitVec 4) : Statement (.cbwait g d a b) := of_parts rfl rfl rfl
theorem cbspace (g d a b : BitVec 4) : Statement (.cbspace g d a b) := of_parts rfl rfl rfl
theorem pinit (g a : BitVec 4) : Statement (.pinit g a) := of_parts rfl rfl rfl
theorem pfill (g a b : BitVec 4) : Statement (.pfill g a b) := of_parts rfl rfl rfl
theorem peq (g a b : BitVec 4) : Statement (.peq g a b) := of_parts rfl rfl rfl
theorem pget (g d a : BitVec 4) : Statement (.pget g d a) := of_parts rfl rfl rfl
theorem ptry (g d a : BitVec 4) : Statement (.ptry g d a) := of_parts rfl rfl rfl
theorem pstat (g d a : BitVec 4) (f : BitVec 2) : Statement (.pstat g d a f) := of_parts rfl rfl rfl
theorem licAcq (g : BitVec 4) (x : Bool) : Statement (.licAcq g x) := of_parts rfl rfl rfl
theorem licRel (g : BitVec 4) : Statement (.licRel g) := of_parts rfl rfl rfl
theorem licGive (g : BitVec 4) : Statement (.licGive g) := of_parts rfl rfl rfl
theorem mcmd (g a b : BitVec 4) : Statement (.mcmd g a b) := of_parts rfl rfl rfl
theorem mfin (g d a : BitVec 4) : Statement (.mfin g d a) := of_parts rfl rfl rfl
theorem ninst (g d a : BitVec 4) : Statement (.ninst g d a) := of_parts rfl rfl rfl
theorem nwait (g d a : BitVec 4) : Statement (.nwait g d a) := of_parts rfl rfl rfl
theorem nstat (g d a : BitVec 4) (f : BitVec 2) : Statement (.nstat g d a f) := of_parts rfl rfl rfl
theorem nretire (g a : BitVec 4) : Statement (.nretire g a) := of_parts rfl rfl rfl
theorem bsinit (g a b : BitVec 4) (x : Bool) : Statement (.bsinit g a b x) := of_parts rfl rfl rfl
theorem bsget (g d : BitVec 4) (n : BitVec 5) : Statement (.bsget g d n) := of_parts rfl rfl rfl
theorem bsput (g a : BitVec 4) (n : BitVec 5) : Statement (.bsput g a n) := of_parts rfl rfl rfl
theorem bspeek (g d : BitVec 4) (n : BitVec 5) : Statement (.bspeek g d n) := of_parts rfl rfl rfl
theorem bsskip (g b : BitVec 4) : Statement (.bsskip g b) := of_parts rfl rfl rfl
theorem bsalign (g : BitVec 4) (x : Bool) : Statement (.bsalign g x) := of_parts rfl rfl rfl
theorem bsflush (g d : BitVec 4) : Statement (.bsflush g d) := of_parts rfl rfl rfl
theorem fwait (g d a : BitVec 4) : Statement (.fwait g d a) := of_parts rfl rfl rfl
theorem vnop : Statement (.vnop) := of_none rfl
theorem vaddF32 (g d a : BitVec 4) (b : VSrc) : Statement (.vaddF32 g d a b) := of_none rfl
theorem vsubF32 (g d a : BitVec 4) (b : VSrc) : Statement (.vsubF32 g d a b) := of_none rfl
theorem vmulF32 (g d a : BitVec 4) (b : VSrc) : Statement (.vmulF32 g d a b) := of_none rfl
theorem vminF32 (g d a : BitVec 4) (b : VSrc) : Statement (.vminF32 g d a b) := of_none rfl
theorem vmaxF32 (g d a : BitVec 4) (b : VSrc) : Statement (.vmaxF32 g d a b) := of_none rfl
theorem vminnum (g d a : BitVec 4) (b : VSrc) : Statement (.vminnum g d a b) := of_none rfl
theorem vmaxnum (g d a : BitVec 4) (b : VSrc) : Statement (.vmaxnum g d a b) := of_none rfl
theorem vabs (g d : BitVec 4) (a : VSrc) : Statement (.vabs g d a) := of_none rfl
theorem vneg (g d : BitVec 4) (a : VSrc) : Statement (.vneg g d a) := of_none rfl
theorem vcopysign (g d a : BitVec 4) (b : VSrc) : Statement (.vcopysign g d a b) := of_none rfl
theorem vfma (g d a b : BitVec 4) (c : VSrc) : Statement (.vfma g d a b c) := of_none rfl
theorem vfms (g d a b : BitVec 4) (c : VSrc) : Statement (.vfms g d a b c) := of_none rfl
theorem vfnma (g d a b : BitVec 4) (c : VSrc) : Statement (.vfnma g d a b c) := of_none rfl
theorem vfnms (g d a b : BitVec 4) (c : VSrc) : Statement (.vfnms g d a b c) := of_none rfl
theorem vhAdd (g d a : BitVec 4) (b : VSrc) (t : Bool) : Statement (.vhAdd g d a b t) := of_none rfl
theorem vhMul (g d a : BitVec 4) (b : VSrc) (t : Bool) : Statement (.vhMul g d a b t) := of_none rfl
theorem vhFma (g d a b : BitVec 4) (c : VSrc) (t : Bool) : Statement (.vhFma g d a b c t) := of_none rfl
theorem vhMin (g d a : BitVec 4) (b : VSrc) (t : Bool) : Statement (.vhMin g d a b t) := of_none rfl
theorem vhMax (g d a : BitVec 4) (b : VSrc) (t : Bool) : Statement (.vhMax g d a b t) := of_none rfl
theorem vaddI32 (g d a : BitVec 4) (b : VSrc) : Statement (.vaddI32 g d a b) := of_none rfl
theorem vsubI32 (g d a : BitVec 4) (b : VSrc) : Statement (.vsubI32 g d a b) := of_none rfl
theorem vmulI32 (g d a : BitVec 4) (b : VSrc) : Statement (.vmulI32 g d a b) := of_none rfl
theorem vmulh (g d a : BitVec 4) (b : VSrc) (u : Bool) : Statement (.vmulh g d a b u) := of_none rfl
theorem vandI32 (g d a : BitVec 4) (b : VSrc) : Statement (.vandI32 g d a b) := of_none rfl
theorem vorI32 (g d a : BitVec 4) (b : VSrc) : Statement (.vorI32 g d a b) := of_none rfl
theorem vxorI32 (g d a : BitVec 4) (b : VSrc) : Statement (.vxorI32 g d a b) := of_none rfl
theorem vshlI32 (g d a : BitVec 4) (b : VSrc) : Statement (.vshlI32 g d a b) := of_none rfl
theorem vshrI32 (g d a : BitVec 4) (b : VSrc) : Statement (.vshrI32 g d a b) := of_none rfl
theorem vsraI32 (g d a : BitVec 4) (b : VSrc) : Statement (.vsraI32 g d a b) := of_none rfl
theorem vminI32 (g d a : BitVec 4) (b : VSrc) : Statement (.vminI32 g d a b) := of_none rfl
theorem vmaxI32 (g d a : BitVec 4) (b : VSrc) : Statement (.vmaxI32 g d a b) := of_none rfl
theorem vminN32 (g d a : BitVec 4) (b : VSrc) : Statement (.vminN32 g d a b) := of_none rfl
theorem vmaxN32 (g d a : BitVec 4) (b : VSrc) : Statement (.vmaxN32 g d a b) := of_none rfl
theorem vclzI32 (g d : BitVec 4) (a : VSrc) : Statement (.vclzI32 g d a) := of_none rfl
theorem vpcntI32 (g d : BitVec 4) (a : VSrc) : Statement (.vpcntI32 g d a) := of_none rfl
theorem vadd8 (g d a : BitVec 4) (b : VSrc) : Statement (.vadd8 g d a b) := of_none rfl
theorem vadds8 (g d a : BitVec 4) (b : VSrc) : Statement (.vadds8 g d a b) := of_none rfl
theorem vdot4 (g d a b : BitVec 4) (c : VSrc) : Statement (.vdot4 g d a b c) := of_none rfl
theorem vcmp (g : BitVec 4) (m : BitVec 3) (a : BitVec 4) (b : VSrc) (t : CmpTy) (c : VCond) : Statement (.vcmp g m a b t c) := of_none rfl
theorem vsel (g d a : BitVec 4) (b : VSrc) (m : BitVec 3) : Statement (.vsel g d a b m) := of_none rfl
theorem vcvtI32F32 (g d : BitVec 4) (a : VSrc) (r : Bool) : Statement (.vcvtI32F32 g d a r) := of_none rfl
theorem vcvtF32I32 (g d : BitVec 4) (a : VSrc) : Statement (.vcvtF32I32 g d a) := of_none rfl
theorem vcvtF32N32 (g d : BitVec 4) (a : VSrc) : Statement (.vcvtF32N32 g d a) := of_none rfl
theorem vcvtF16F32 (g d a : BitVec 4) (b : VSrc) : Statement (.vcvtF16F32 g d a b) := of_none rfl
theorem vcvtF32F16 (g d : BitVec 4) (a : VSrc) : Statement (.vcvtF32F16 g d a) := of_none rfl
theorem vcvtBf16F32 (g d a : BitVec 4) (b : VSrc) : Statement (.vcvtBf16F32 g d a b) := of_none rfl
theorem vcvtF32Bf16 (g d : BitVec 4) (a : VSrc) : Statement (.vcvtF32Bf16 g d a) := of_none rfl
theorem vcvtI32I8 (g d : BitVec 4) (a : VSrc) : Statement (.vcvtI32I8 g d a) := of_none rfl
theorem vcvtI8I32 (g d : BitVec 4) (a : VSrc) : Statement (.vcvtI8I32 g d a) := of_none rfl
theorem vcvtN32F32 (g d : BitVec 4) (a : VSrc) (r : Bool) : Statement (.vcvtN32F32 g d a r) := of_none rfl
theorem vrcp (g d : BitVec 4) (a : VSrc) : Statement (.vrcp g d a) := of_none rfl
theorem vrsqrt (g d : BitVec 4) (a : VSrc) : Statement (.vrsqrt g d a) := of_none rfl
theorem vsqrt (g d : BitVec 4) (a : VSrc) : Statement (.vsqrt g d a) := of_none rfl
theorem vdiv (g d a : BitVec 4) (b : VSrc) : Statement (.vdiv g d a b) := of_none rfl
theorem vexp2 (g d : BitVec 4) (a : VSrc) : Statement (.vexp2 g d a) := of_none rfl
theorem vlog2 (g d : BitVec 4) (a : VSrc) : Statement (.vlog2 g d a) := of_none rfl
theorem vsinpi (g d : BitVec 4) (a : VSrc) : Statement (.vsinpi g d a) := of_none rfl
theorem vcospi (g d : BitVec 4) (a : VSrc) : Statement (.vcospi g d a) := of_none rfl
theorem vperm (g d a : BitVec 4) (b : VSrc) : Statement (.vperm g d a b) := of_none rfl
theorem vrotl (g d : BitVec 4) (a : VSrc) (n : BitVec 4) : Statement (.vrotl g d a n) := of_none rfl
theorem vbcastl (g d : BitVec 4) (a : VSrc) (n : BitVec 4) : Statement (.vbcastl g d a n) := of_none rfl
theorem vredaddF32 (g d a : BitVec 4) : Statement (.vredaddF32 g d a) := of_none rfl
theorem vredaddI32 (g d a : BitVec 4) : Statement (.vredaddI32 g d a) := of_none rfl
theorem vredminF32 (g d a : BitVec 4) : Statement (.vredminF32 g d a) := of_none rfl
theorem vredmaxF32 (g d a : BitVec 4) : Statement (.vredmaxF32 g d a) := of_none rfl
theorem vmov (g d : BitVec 4) (a : VSrc) : Statement (.vmov g d a) := of_none rfl
theorem vbcast (g d a : BitVec 4) : Statement (.vbcast g d a) := of_none rfl
theorem vext (g d a n : BitVec 4) : Statement (.vext g d a n) := of_none rfl
theorem vins (g d a n : BitVec 4) : Statement (.vins g d a n) := of_none rfl
theorem vlane (g d : BitVec 4) : Statement (.vlane g d) := of_none rfl
theorem mlog (g : BitVec 4) (d a b : BitVec 3) (o : MaskOp) : Statement (.mlog g d a b o) := of_none rfl
theorem mcnt (g d : BitVec 4) (a : BitVec 3) : Statement (.mcnt g d a) := of_none rfl
theorem mset (g : BitVec 4) (d : BitVec 3) (a : BitVec 4) : Statement (.mset g d a) := of_none rfl
theorem vbfpk (d a m : BitVec 4) : Statement (.vbfpk d a m) := of_none rfl
theorem vbfunp (d a n : BitVec 4) : Statement (.vbfunp d a n) := of_none rfl
theorem vbfhdr (d a m : BitVec 4) : Statement (.vbfhdr d a m) := of_none rfl
theorem vbfscale (d a b : BitVec 4) : Statement (.vbfscale d a b) := of_none rfl
theorem vtopk (g d a b k : BitVec 4) : Statement (.vtopk g d a b k) := of_none rfl
theorem vfmak (g d a : BitVec 4) (k : BitVec 8) : Statement (.vfmak g d a k) := of_none rfl
theorem vaddk (g d a : BitVec 4) (k : BitVec 8) : Statement (.vaddk g d a k) := of_none rfl
theorem vmulk (g d a : BitVec 4) (k : BitVec 8) : Statement (.vmulk g d a k) := of_none rfl
theorem vaddi (d a : BitVec 4) (i : BitVec 20) : Statement (.vaddi d a i) := of_none rfl
theorem vmuli (d a : BitVec 4) (i : BitVec 20) : Statement (.vmuli d a i) := of_none rfl
theorem vfmai (d a : BitVec 4) (i : BitVec 20) : Statement (.vfmai d a i) := of_none rfl
theorem vmovi (d : BitVec 4) (i : BitVec 20) : Statement (.vmovi d i) := of_none rfl
theorem mbegin (e : Nat) (tag : W32) (chain : W16) (anchor : Byte) : Statement (.mbegin e tag chain anchor) := of_none rfl
theorem mstep (e : Nat) (tag : W32) (chain : W16) (a b : BitVec 24) (n : BitVec 12) (da db : BitVec 4) : Statement (.mstep e tag chain a b n da db) := of_none rfl
theorem mend (e : Nat) (tag : W32) (chain : W16) : Statement (.mend e tag chain) := of_none rfl
theorem mdrain (e : Nat) (tag : W32) (chain : W16) (dest : BitVec 12) (o : BitVec 24) (w : BitVec 6) (f : BitVec 4) : Statement (.mdrain e tag chain dest o w f) := of_none rfl
theorem mzero (e : Nat) (tag : W32) (chain : W16) : Statement (.mzero e tag chain) := of_none rfl
theorem commandAccept : Statement (.commandAccept) := of_none rfl
theorem kStep : Statement (.kStep) := of_none rfl
theorem drainComplete : Statement (.drainComplete) := of_none rfl
theorem licenceGrant : Statement (.licenceGrant) := of_none rfl
theorem coopHandover : Statement (.coopHandover) := of_none rfl
theorem fill : Statement (.fill) := of_none rfl
theorem remoteFill : Statement (.remoteFill) := of_none rfl
theorem clearDone : Statement (.clearDone) := of_none rfl
theorem trapDelivery : Statement (.trapDelivery) := of_none rfl
theorem cancelDelivery : Statement (.cancelDelivery) := of_none rfl
theorem watchdog : Statement (.watchdog) := of_none rfl
theorem energyRefill : Statement (.energyRefill) := of_none rfl
theorem migrationDepart : Statement (.migrationDepart) := of_none rfl
theorem migrationArrival : Statement (.migrationArrival) := of_none rfl
theorem messageArrival : Statement (.messageArrival) := of_none rfl
theorem messageRetry : Statement (.messageRetry) := of_none rfl
theorem counterAcknowledged : Statement (.counterAcknowledged) := of_none rfl
theorem groupAdmit : Statement (.groupAdmit) := of_none rfl
theorem launchStart : Statement (.launchStart) := of_none rfl
theorem pctlGo : Statement (.pctlGo) := of_none rfl
theorem preemptHalt : Statement (.preemptHalt) := of_none rfl
theorem preemptSave : Statement (.preemptSave) := of_none rfl
theorem prest : Statement (.prest) := of_none rfl
theorem pageWalk : Statement (.pageWalk) := of_none rfl
theorem faultRetry : Statement (.faultRetry) := of_none rfl
theorem faultDecline : Statement (.faultDecline) := of_none rfl
theorem ephemeralExpire : Statement (.ephemeralExpire) := of_none rfl
theorem samplerFill : Statement (.samplerFill) := of_none rfl
theorem mwaitTimeout : Statement (.mwaitTimeout) := of_none rfl
theorem qhdr : Statement (.qhdr) := of_none rfl
theorem queueStateStore : Statement (.queueStateStore) := of_none rfl
theorem launchPacket : Statement (.launchPacket) := of_none rfl
theorem fencePacket : Statement (.fencePacket) := of_none rfl
theorem fencePass : Statement (.fencePass) := of_none rfl
theorem signalPacket : Statement (.signalPacket) := of_none rfl
theorem copyPacket : Statement (.copyPacket) := of_none rfl
theorem installPacket : Statement (.installPacket) := of_none rfl
theorem markerPacket : Statement (.markerPacket) := of_none rfl
theorem cancelPacket : Statement (.cancelPacket) := of_none rfl
theorem nheadWrite : Statement (.nheadWrite) := of_none rfl
theorem transferArrive : Statement (.transferArrive) := of_none rfl
theorem streamerPiece : Statement (.streamerPiece) := of_none rfl
theorem transferFinish : Statement (.transferFinish) := of_none rfl
theorem ringReserve : Statement (.ringReserve) := of_none rfl
theorem promiseRequest : Statement (.promiseRequest) := of_none rfl
theorem blockErase : Statement (.blockErase) := of_none rfl
theorem unitProgram : Statement (.unitProgram) := of_none rfl
theorem installComplete : Statement (.installComplete) := of_none rfl
theorem supersedeDrain : Statement (.supersedeDrain) := of_none rfl
theorem stagingFill : Statement (.stagingFill) := of_none rfl
theorem hostWrite : Statement (.hostWrite) := of_none rfl
theorem hostCompletionTimeout : Statement (.hostCompletionTimeout) := of_none rfl
theorem linkRetrain : Statement (.linkRetrain) := of_none rfl
theorem powerTick : Statement (.powerTick) := of_none rfl
theorem grantLoss : Statement (.grantLoss) := of_none rfl
theorem clampEngage : Statement (.clampEngage) := of_none rfl
theorem clampRelease : Statement (.clampRelease) := of_none rfl
theorem frameLatch : Statement (.frameLatch) := of_none rfl
theorem verticalBlank : Statement (.verticalBlank) := of_none rfl
theorem genlockHeld : Statement (.genlockHeld) := of_none rfl
theorem lockLost : Statement (.lockLost) := of_none rfl
theorem muxReturn : Statement (.muxReturn) := of_none rfl
theorem start : Statement (.start) := of_none rfl
theorem mainPowerLoss : Statement (.mainPowerLoss) := of_none rfl
theorem dorm : Statement (.dorm) := of_none rfl
theorem warmReset : Statement (.warmReset) := of_none rfl
theorem repairReplayEnd : Statement (.repairReplayEnd) := of_none rfl
theorem spareTakeover : Statement (.spareTakeover) := of_none rfl
theorem machineCheck : Statement (.machineCheck) := of_none rfl
theorem coreFailure : Statement (.coreFailure) := of_none rfl
theorem storeAcknowledgement : Statement (.storeAcknowledgement) := of_none rfl

end Sys2Proof.Laws.GuardPlace
end

