-- ==== Sys2Proof/Tests/Slice0.lean ====
section
/-! SUPPORT. Tests: words of every form, ill-formed operations, single steps, and a witness for every statement. -/

namespace Sys2Proof.Tests

open Sys2Proof Sys2Proof.Machine

theorem test_words_misc_and_integer :
    decodeS 0x0000040A 0 = .ok (.nop 5) ∧
    decodeS 0x0000080A 0 = .ok (.brk 5) ∧
    decodeS 0x00000C0A 0 = .ok (.exit 5) ∧
    decodeS 0x0000100A 0 = .ok (.eret 5) ∧
    decodeS 0x0029540A 0 = .ok (.trap 5 0xA5) ∧
    decodeS 0x001A5C0A 0 = .ok (.tlbinvPage 5 6 9) ∧
    decodeS 0x00025C2A 0 = .ok (.tlbinvAsid 5 9) ∧
    decodeS 0x00001C4A 0 = .ok (.tlbinvAll 5) ∧
    decodeS 0x04DA400A 0 = .ok (.add 5 3 6 9) ∧
    decodeS 0x04DA402A 0 = .ok (.sub 5 3 6 9) ∧
    decodeS 0x04DA404A 0 = .ok (.mul 5 3 6 9) ∧
    decodeS 0x04DA406A 0 = .ok (.mulh 5 3 6 9) ∧
    decodeS 0x04DA408A 0 = .ok (.mulhu 5 3 6 9) ∧
    decodeS 0x04DA40AA 0 = .ok (.div 5 3 6 9) ∧
    decodeS 0x04DA40CA 0 = .ok (.divu 5 3 6 9) ∧
    decodeS 0x04DA40EA 0 = .ok (.rem 5 3 6 9) ∧
    decodeS 0x04DA410A 0 = .ok (.remu 5 3 6 9) ∧
    decodeS 0x04DA412A 0 = .ok (.and 5 3 6 9) ∧
    decodeS 0x04DA414A 0 = .ok (.or 5 3 6 9) ∧
    decodeS 0x04DA416A 0 = .ok (.xor 5 3 6 9) ∧
    decodeS 0x04DA418A 0 = .ok (.shl 5 3 6 9) ∧
    decodeS 0x04DA41AA 0 = .ok (.shr 5 3 6 9) ∧
    decodeS 0x04DA41CA 0 = .ok (.sra 5 3 6 9) ∧
    decodeS 0x04DA41EA 0 = .ok (.min 5 3 6 9) ∧
    decodeS 0x04DA420A 0 = .ok (.max 5 3 6 9) ∧
    decodeS 0x04DA422A 0 = .ok (.minu 5 3 6 9) ∧
    decodeS 0x04DA424A 0 = .ok (.maxu 5 3 6 9) ∧
    decodeS 0x04D8026A 0 = .ok (.clz 5 3 6) ∧
    decodeS 0x04D8028A 0 = .ok (.ctz 5 3 6) ∧
    decodeS 0x04D802AA 0 = .ok (.pcnt 5 3 6) ∧
    decodeS 0x04D882CA 0 = .ok (.sext 5 3 6 .w) ∧
    decodeS 0x04D802EA 0 = .ok (.mov 5 3 6) ∧
    decodeS 0x04DA430A 0 = .ok (.andn 5 3 6 9) := by
  and_intros <;> rfl

theorem test_words_immediates :
    decodeS 0x08DB4B8A 0 = .ok (.addi 5 3 6 (.fld 0x1A5C)) ∧
    decodeS 0x0CDB4B8A 0 = .ok (.andi 5 3 6 (.fld 0x1A5C)) ∧
    decodeS 0x10DB4B8A 0 = .ok (.ori 5 3 6 (.fld 0x1A5C)) ∧
    decodeS 0x14DB4B8A 0 = .ok (.xori 5 3 6 (.fld 0x1A5C)) ∧
    decodeS 0x18D8008A 0 = .ok (.shli 5 3 6 4) ∧
    decodeS 0x18D9008A 0 = .ok (.shri 5 3 6 4) ∧
    decodeS 0x18DA008A 0 = .ok (.srai 5 3 6 4) ∧
    decodeS 0x1CC34B8A 0 = .ok (.movi 5 3 (.fld 0x1A5C)) ∧
    decodeS 0x20DB4B8A 0 = .ok (.orh 5 3 6 (.fld 0x1A5C)) ∧
    decodeS 0x24D9448A 0 = .ok (.bfx 5 3 6 0x14 9) ∧
    decodeS 0x24D944AA 0 = .ok (.bfxs 5 3 6 0x14 9) ∧
    decodeS 0x24D944CA 0 = .ok (.bfi 5 3 6 0x14 9) ∧
    decodeS 0x28DA400A 0 = .ok (.lea 5 3 6 9 0) ∧
    decodeS 0x2CDB4B8A 0 = .ok (.leai 5 3 6 (.fld 0x1A5C)) ∧
    decodeS 0x30DA940A 0 = .ok (.setsp 5 3 6 0xA5) ∧
    decodeS 0x30C0002A 0 = .ok (.getsp 5 3) := by
  and_intros <;> rfl

theorem test_words_predicates_and_control :
    decodeS 0x35DA404A 0 = .ok (.cmp 5 7 6 9 .lt) ∧
    decodeS 0x39D9586A 0 = .ok (.cmpi 5 7 6 .lt (.fld 0x2C3)) ∧
    decodeS 0x3CD8400A 0 = .ok (.pand 5 3 6 1) ∧
    decodeS 0x3CD8402A 0 = .ok (.por 5 3 6 1) ∧
    decodeS 0x3CD8404A 0 = .ok (.pxor 5 3 6 1) ∧
    decodeS 0x3CD8406A 0 = .ok (.pandn 5 3 6 1) ∧
    decodeS 0x3CD8008A 0 = .ok (.pnot 5 3 6) ∧
    decodeS 0x3CC000AA 0 = .ok (.pword 5 3) ∧
    decodeS 0x3C1800CA 0 = .ok (.pset 5 6) ∧
    decodeS 0x40DA40EA 0 = .ok (.sel 5 3 6 9 7) ∧
    decodeS 0x47FF808A 0 = .ok (.br 5 (.fld 0x1FFC04)) ∧
    decodeS 0x4BFF808A 0 = .ok (.bl 5 (.fld 0x1FFC04)) ∧
    decodeS 0x4C18000A 0 = .ok (.jr 5 6) ∧
    decodeS 0x4CD8002A 0 = .ok (.jlr 5 3 6) ∧
    decodeS 0x5082468A 0 = .ok (.loop 5 2 0x1234) ∧
    decodeS 0x5482468A 0 = .ok (.loopi 5 (.fld 0x2) 0x1234) := by
  and_intros <;> rfl

theorem test_words_memory :
    decodeS 0x58D8874A 0 = .ok (.ld 5 3 6 (.fld 0x8) .d .rel .dev) ∧
    decodeS 0x5CD8874A 0 = .ok (.ldz 5 3 6 (.fld 0x8) .d .rel .dev) ∧
    decodeS 0x60D8874A 0 = .ok (.st 5 3 6 (.fld 0x8) .d .rel .dev) ∧
    decodeS 0x64D88B4A 0 = .ok (.ldv 5 3 6 (.fld 0x8) .rel .dev) ∧
    decodeS 0x68D88B4A 0 = .ok (.stv 5 3 6 (.fld 0x8) .rel .dev) ∧
    decodeS 0x6CD88A0A 0 = .ok (.ldsamp 5 3 6 (.fld 0x8)) ∧
    decodeS 0x732B4F4A 0 = .ok (.gath 5 12 10 13 .h 3 .rel .dev) ∧
    decodeS 0x772B4F4A 0 = .ok (.scat 5 12 10 13 .h 3 .rel .dev) ∧
    decodeS 0x78DA5F4A 0 = .ok (.amo 5 3 6 9 .maxu true .rel .dev) ∧
    decodeS 0x7CDA434A 0 = .ok (.cas 5 3 6 9 true .rel .dev) ∧
    decodeS 0x801A5F4A 0 = .ok (.ared 5 6 9 .maxu true .rel .dev) := by
  and_intros <;> rfl

theorem test_words_fences_and_context :
    decodeS 0x8400034A 0 = .ok (.fence 5 .ss .dev) ∧
    decodeS 0x8400044A 0 = .ok (.fsamp 5 .dev) ∧
    decodeS 0x8400084A 0 = .ok (.sinv 5 .dev) ∧
    decodeS 0x8818000A 0 = .ok (.mwatch 5 6) ∧
    decodeS 0x88C2440A 0 = .ok (.mwait 5 3 9) ∧
    decodeS 0x8800080A 0 = .ok (.mclr 5) ∧
    decodeS 0x8C18000A 0 = .ok (.cflush 5 6) ∧
    decodeS 0x8C18040A 0 = .ok (.cinval 5 6) ∧
    decodeS 0x8C18080A 0 = .ok (.prf 5 6) ∧
    decodeS 0x9018000A 0 = .ok (.mig 5 6) ∧
    decodeS 0x9018040A 0 = .ok (.migc 5 6) ∧
    decodeS 0x9000080A 0 = .ok (.migb 5) ∧
    decodeS 0x90D80C0A 0 = .ok (.home 5 3 6) ∧
    decodeS 0x90D8102A 0 = .ok (.isfull 5 3 6 true) ∧
    decodeS 0x9018142A 0 = .ok (.mkempty 5 6 true) ∧
    decodeS 0x9018182A 0 = .ok (.mkfull 5 6 true) ∧
    decodeS 0x90001C4A 0 = .ok (.fmode 5 .rup) ∧
    decodeS 0x94C0414A 0 = .ok (.rdsr 5 3 0x105) ∧
    decodeS 0x9418416A 0 = .ok (.wrsr 5 6 0x105) := by
  and_intros <;> rfl

theorem test_words_messages_and_barriers :
    decodeS 0x9818200A 0 = .ok (.msg 5 6 2) ∧
    decodeS 0x9AC0010A 0 = .ok (.mrecv 5 11) ∧
    decodeS 0x9800220A 0 = .ok (.chbind 5 2) ∧
    decodeS 0x9818230A 0 = .ok (.tbset 5 6 2) ∧
    decodeS 0x9800240A 0 = .ok (.tbclr 5 2) ∧
    decodeS 0x98C2150A 0 = .ok (.mbrd 5 3 true 1) ∧
    decodeS 0x9CDA400A 0 = .ok (.callat 5 3 6 9) ∧
    decodeS 0xA018000A 0 = .ok (.ret 5 6) ∧
    decodeS 0xA4DA400A 0 = .ok (.qput 5 3 6 9) ∧
    decodeS 0xA800002A 0 = .ok (.gang 5 1) ∧
    decodeS 0xA800040A 0 = .ok (.ungang 5) ∧
    decodeS 0xAC1A400A 0 = .ok (.barInit 5 6 9) ∧
    decodeS 0xAC18040A 0 = .ok (.barArv 5 6) ∧
    decodeS 0xAC1A480A 0 = .ok (.barWait 5 6 9) ∧
    decodeS 0xAC180C0A 0 = .ok (.barArw 5 6) ∧
    decodeS 0xB000000A 0 = .ok (.trig 5) ∧
    decodeS 0xB018040A 0 = .ok (.cancel 5 6) ∧
    decodeS 0xB0D8082A 0 = .ok (.cnt 5 3 6 1) := by
  and_intros <;> rfl

theorem test_words_transfers :
    decodeS 0xB4DA404A 0 = .ok (.xget 5 3 6 9 false false 2) ∧
    decodeS 0xB4DA444A 0 = .ok (.xput 5 3 6 9 false false 2) ∧
    decodeS 0xB4DA484A 0 = .ok (.xcopy 5 3 6 9 false false 2) ∧
    decodeS 0xB4DA4C4A 0 = .ok (.xtile 5 3 6 9 false false 2) ∧
    decodeS 0xB4DA504A 0 = .ok (.xgetv 5 3 6 9 false false 2) ∧
    decodeS 0xB8D8004A 0 = .ok (.xwait 5 3 6 2) ∧
    decodeS 0xB8C0054A 0 = .ok (.xstat 5 3 true 2) ∧
    decodeS 0xBC1A418A 0 = .ok (.cbinit 5 6 9 12) ∧
    decodeS 0xBCDA440A 0 = .ok (.cbpush 5 3 6 9) ∧
    decodeS 0xBCDA480A 0 = .ok (.cbpop 5 3 6 9) ∧
    decodeS 0xBCDA4C0A 0 = .ok (.cbwait 5 3 6 9) ∧
    decodeS 0xBCDA500A 0 = .ok (.cbspace 5 3 6 9) := by
  and_intros <;> rfl

theorem test_words_promises_and_nectar :
    decodeS 0xC018000A 0 = .ok (.pinit 5 6) ∧
    decodeS 0xC01A440A 0 = .ok (.pfill 5 6 9) ∧
    decodeS 0xC01A480A 0 = .ok (.peq 5 6 9) ∧
    decodeS 0xC0D80C0A 0 = .ok (.pget 5 3 6) ∧
    decodeS 0xC0D8100A 0 = .ok (.ptry 5 3 6) ∧
    decodeS 0xC0D8142A 0 = .ok (.pstat 5 3 6 1) ∧
    decodeS 0xC400002A 0 = .ok (.licAcq 5 true) ∧
    decodeS 0xC400040A 0 = .ok (.licRel 5) ∧
    decodeS 0xC400080A 0 = .ok (.licGive 5) ∧
    decodeS 0xC81A400A 0 = .ok (.mcmd 5 6 9) ∧
    decodeS 0xC8D8040A 0 = .ok (.mfin 5 3 6) ∧
    decodeS 0xCCD8000A 0 = .ok (.ninst 5 3 6) ∧
    decodeS 0xCCD8040A 0 = .ok (.nwait 5 3 6) ∧
    decodeS 0xCCD8082A 0 = .ok (.nstat 5 3 6 1) ∧
    decodeS 0xCC180C0A 0 = .ok (.nretire 5 6) := by
  and_intros <;> rfl

theorem test_words_bit_streams :
    decodeS 0xD01A402A 0 = .ok (.bsinit 5 6 9 true) ∧
    decodeS 0xD0C0048A 0 = .ok (.bsget 5 3 4) ∧
    decodeS 0xD018088A 0 = .ok (.bsput 5 6 4) ∧
    decodeS 0xD0C00C8A 0 = .ok (.bspeek 5 3 4) ∧
    decodeS 0xD002500A 0 = .ok (.bsskip 5 9) ∧
    decodeS 0xD000142A 0 = .ok (.bsalign 5 true) ∧
    decodeS 0xD0C0180A 0 = .ok (.bsflush 5 3) ∧
    decodeS 0xD0D81C0A 0 = .ok (.fwait 5 3 6) := by
  and_intros <;> rfl

theorem test_words_v_float :
    decodeV 0x00000000 0 = .ok .vnop ∧
    decodeV 0x04DA400A 0 = .ok (.vaddF32 5 3 6 (.reg 9)) ∧
    decodeV 0x04DA402A 0 = .ok (.vsubF32 5 3 6 (.reg 9)) ∧
    decodeV 0x04DA404A 0 = .ok (.vmulF32 5 3 6 (.reg 9)) ∧
    decodeV 0x04DA406A 0 = .ok (.vminF32 5 3 6 (.reg 9)) ∧
    decodeV 0x04DA408A 0 = .ok (.vmaxF32 5 3 6 (.reg 9)) ∧
    decodeV 0x04DA40AA 0 = .ok (.vminnum 5 3 6 (.reg 9)) ∧
    decodeV 0x04DA40CA 0 = .ok (.vmaxnum 5 3 6 (.reg 9)) ∧
    decodeV 0x04D800EA 0 = .ok (.vabs 5 3 (.reg 6)) ∧
    decodeV 0x04D8010A 0 = .ok (.vneg 5 3 (.reg 6)) ∧
    decodeV 0x04DA412A 0 = .ok (.vcopysign 5 3 6 (.reg 9)) ∧
    decodeV 0x08DA480A 0 = .ok (.vfma 5 3 6 9 (.reg 2)) ∧
    decodeV 0x08DA482A 0 = .ok (.vfms 5 3 6 9 (.reg 2)) ∧
    decodeV 0x08DA484A 0 = .ok (.vfnma 5 3 6 9 (.reg 2)) ∧
    decodeV 0x08DA486A 0 = .ok (.vfnms 5 3 6 9 (.reg 2)) ∧
    decodeV 0x0CDA420A 0 = .ok (.vhAdd 5 3 6 (.reg 9) true) ∧
    decodeV 0x0CDA422A 0 = .ok (.vhMul 5 3 6 (.reg 9) true) ∧
    decodeV 0x0CDA4A4A 0 = .ok (.vhFma 5 3 6 9 (.reg 2) true) ∧
    decodeV 0x0CDA426A 0 = .ok (.vhMin 5 3 6 (.reg 9) true) ∧
    decodeV 0x0CDA428A 0 = .ok (.vhMax 5 3 6 (.reg 9) true) := by
  and_intros <;> rfl

theorem test_words_v_integer :
    decodeV 0x10DA400A 0 = .ok (.vaddI32 5 3 6 (.reg 9)) ∧
    decodeV 0x10DA402A 0 = .ok (.vsubI32 5 3 6 (.reg 9)) ∧
    decodeV 0x10DA404A 0 = .ok (.vmulI32 5 3 6 (.reg 9)) ∧
    decodeV 0x10DA426A 0 = .ok (.vmulh 5 3 6 (.reg 9) true) ∧
    decodeV 0x10DA408A 0 = .ok (.vandI32 5 3 6 (.reg 9)) ∧
    decodeV 0x10DA40AA 0 = .ok (.vorI32 5 3 6 (.reg 9)) ∧
    decodeV 0x10DA40CA 0 = .ok (.vxorI32 5 3 6 (.reg 9)) ∧
    decodeV 0x10DA40EA 0 = .ok (.vshlI32 5 3 6 (.reg 9)) ∧
    decodeV 0x10DA410A 0 = .ok (.vshrI32 5 3 6 (.reg 9)) ∧
    decodeV 0x10DA412A 0 = .ok (.vsraI32 5 3 6 (.reg 9)) ∧
    decodeV 0x10DA414A 0 = .ok (.vminI32 5 3 6 (.reg 9)) ∧
    decodeV 0x10DA416A 0 = .ok (.vmaxI32 5 3 6 (.reg 9)) ∧
    decodeV 0x10DA418A 0 = .ok (.vminN32 5 3 6 (.reg 9)) ∧
    decodeV 0x10DA41AA 0 = .ok (.vmaxN32 5 3 6 (.reg 9)) ∧
    decodeV 0x10D801CA 0 = .ok (.vclzI32 5 3 (.reg 6)) ∧
    decodeV 0x10D801EA 0 = .ok (.vpcntI32 5 3 (.reg 6)) ∧
    decodeV 0x14DA400A 0 = .ok (.vadd8 5 3 6 (.reg 9)) ∧
    decodeV 0x14DA402A 0 = .ok (.vadds8 5 3 6 (.reg 9)) ∧
    decodeV 0x14DA484A 0 = .ok (.vdot4 5 3 6 9 (.reg 2)) := by
  and_intros <;> rfl

theorem test_words_v_compare_and_convert :
    decodeV 0x189A414A 0 = .ok (.vcmp 5 2 6 (.reg 9) .i32 .lt) ∧
    decodeV 0x1CDA480A 0 = .ok (.vsel 5 3 6 (.reg 9) 2) ∧
    decodeV 0x20D8000A 0 = .ok (.vcvtI32F32 5 3 (.reg 6) false) ∧
    decodeV 0x20D8002A 0 = .ok (.vcvtF32I32 5 3 (.reg 6)) ∧
    decodeV 0x20D8004A 0 = .ok (.vcvtF32N32 5 3 (.reg 6)) ∧
    decodeV 0x20DA406A 0 = .ok (.vcvtF16F32 5 3 6 (.reg 9)) ∧
    decodeV 0x20D8008A 0 = .ok (.vcvtF32F16 5 3 (.reg 6)) ∧
    decodeV 0x20DA40AA 0 = .ok (.vcvtBf16F32 5 3 6 (.reg 9)) ∧
    decodeV 0x20D800CA 0 = .ok (.vcvtF32Bf16 5 3 (.reg 6)) ∧
    decodeV 0x20D800EA 0 = .ok (.vcvtI32I8 5 3 (.reg 6)) ∧
    decodeV 0x20D8010A 0 = .ok (.vcvtI8I32 5 3 (.reg 6)) ∧
    decodeV 0x20D8012A 0 = .ok (.vcvtN32F32 5 3 (.reg 6) false) ∧
    decodeV 0x24D8000A 0 = .ok (.vrcp 5 3 (.reg 6)) ∧
    decodeV 0x24D8002A 0 = .ok (.vrsqrt 5 3 (.reg 6)) ∧
    decodeV 0x24D8004A 0 = .ok (.vsqrt 5 3 (.reg 6)) ∧
    decodeV 0x24DA406A 0 = .ok (.vdiv 5 3 6 (.reg 9)) ∧
    decodeV 0x24D8008A 0 = .ok (.vexp2 5 3 (.reg 6)) ∧
    decodeV 0x24D800AA 0 = .ok (.vlog2 5 3 (.reg 6)) ∧
    decodeV 0x24D800CA 0 = .ok (.vsinpi 5 3 (.reg 6)) ∧
    decodeV 0x24D800EA 0 = .ok (.vcospi 5 3 (.reg 6)) := by
  and_intros <;> rfl

theorem test_words_v_moves :
    decodeV 0x28DA400A 0 = .ok (.vperm 5 3 6 (.reg 9)) ∧
    decodeV 0x28D8102A 0 = .ok (.vrotl 5 3 (.reg 6) 4) ∧
    decodeV 0x28D8104A 0 = .ok (.vbcastl 5 3 (.reg 6) 4) ∧
    decodeV 0x2CD8000A 0 = .ok (.vredaddF32 5 3 6) ∧
    decodeV 0x2CD8002A 0 = .ok (.vredaddI32 5 3 6) ∧
    decodeV 0x2CD8004A 0 = .ok (.vredminF32 5 3 6) ∧
    decodeV 0x2CD8006A 0 = .ok (.vredmaxF32 5 3 6) ∧
    decodeV 0x30D8000A 0 = .ok (.vmov 5 3 (.reg 6)) ∧
    decodeV 0x30D8002A 0 = .ok (.vbcast 5 3 6) ∧
    decodeV 0x30D9004A 0 = .ok (.vext 5 3 6 4) ∧
    decodeV 0x30D9006A 0 = .ok (.vins 5 3 6 4) ∧
    decodeV 0x30C0008A 0 = .ok (.vlane 5 3) ∧
    decodeV 0x30D848AA 0 = .ok (.mlog 5 3 6 1 .xor) ∧
    decodeV 0x30D800CA 0 = .ok (.mcnt 5 3 6) ∧
    decodeV 0x30D800EA 0 = .ok (.mset 5 3 6) := by
  and_intros <;> rfl

theorem test_words_v_bfp_and_immediates :
    decodeV 0x34D80800 0 = .ok (.vbfpk 3 6 2) ∧
    decodeV 0x34D81020 0 = .ok (.vbfunp 3 6 4) ∧
    decodeV 0x34D80840 0 = .ok (.vbfhdr 3 6 2) ∧
    decodeV 0x34DA4060 0 = .ok (.vbfscale 3 6 9) ∧
    decodeV 0x38DA6C0A 0 = .ok (.vtopk 5 3 6 9 11) ∧
    decodeV 0x3CDA940A 0 = .ok (.vfmak 5 3 6 0xA5) ∧
    decodeV 0x3CDA942A 0 = .ok (.vaddk 5 3 6 0xA5) ∧
    decodeV 0x3CDA944A 0 = .ok (.vmulk 5 3 6 0xA5) ∧
    decodeV 0xC363F812 0 = .ok (.vaddi 3 6 0x3F812) ∧
    decodeV 0xD363F812 0 = .ok (.vmuli 3 6 0x3F812) ∧
    decodeV 0xE363F812 0 = .ok (.vfmai 3 6 0x3F812) ∧
    decodeV 0xF303F812 0 = .ok (.vmovi 3 0x3F812) := by
  and_intros <;> rfl


/-! ### The hypotheses of every statement are met -/

/-- A thread in context 0 of core 0 with something of it changed. -/
def thread (f : Ctx → Ctx) : State := ({} : State).modCtx 0 0 f

/-- A bundle of two words in hand: its S-word is 0x0000040A. -/
def bundle2 : Bundle := ⟨0x0000040A, 0, 0, 0, 2⟩

/-- The state in which an operation that answers leaves the machine. -/
def ran (o : Outcome) : State :=
  match o with
  | .next t => t
  | _ => {}

theorem takes_of {s : State} {g : BitVec 4} (h : s.here.guard g = ⟨true, false⟩ ∧ s.here.vres = .none) : Takes s g :=
  ⟨h.1, fun code val => by rw [h.2]; exact VRes.noConfusion⟩

theorem takesCtl_of {s : State} {g : BitVec 4} (h : s.ctl.guard g = ⟨true, false⟩ ∧ s.here.vres = .none) : TakesCtl s g :=
  ⟨h.1, fun code val => by rw [h.2]; exact VRes.noConfusion⟩

/-- A thread with numbers in s2 and s3, zero in s5 and poison in s4. -/
def numbers : State := thread fun c => ((c.setS 2 7 false).setS 3 (BitVec.allOnes 72) false).setS 4 0 true

/-- As `numbers`, with the trap of a division by zero enabled. -/
def divTraps : State := numbers.modHere fun c => { c with fmode := 0x200 }

theorem witness_scalarArithmeticResults : Takes numbers 0 ∧ Takes (numbers.modHere fun c => c.setP 1 true false) 1 :=
  ⟨takes_of (by decide), takes_of (by decide)⟩

/-- A false predicate under the negated guard takes effect as well. -/
theorem witness_scalarCountsAndExtensions : Takes numbers 9 := takes_of (by decide)

theorem witness_divisionAndZeroDivisor :
    (Takes numbers 0 ∧ (poisS numbers 2 || poisS numbers 4) = true) ∧
    ((poisS numbers 2 || poisS numbers 3) = false ∧ reg64 numbers 3 ≠ 0) ∧
    ((poisS numbers 2 || poisS numbers 5) = false ∧ reg64 numbers 5 = 0 ∧ numbers.here.fmode.getLsbD 9 = false) ∧
    (Takes divTraps 0 ∧ (poisS divTraps 2 || poisS divTraps 5) = false ∧ reg64 divTraps 5 = 0 ∧
      divTraps.here.fmode.getLsbD 9 = true) :=
  ⟨⟨takes_of (by decide), by decide⟩, by decide, by decide, takes_of (by decide), by decide⟩

theorem witness_immediateForms : Takes numbers 0 := takes_of (by decide)

/-- A field of all 32 bits, and one that ends at bit 63. -/
theorem witness_bitFieldForms :
    Takes numbers 0 ∧ (0 : BitVec 6).toNat + (31 : BitVec 5).toNat + 1 ≤ 64 ∧ (32 : BitVec 6).toNat + (31 : BitVec 5).toNat + 1 ≤ 64 :=
  ⟨takes_of (by decide), by decide, by decide⟩

theorem witness_addressForms : Takes numbers 0 := takes_of (by decide)
theorem witness_compareForms : Takes numbers 0 := takes_of (by decide)
theorem witness_predicateForms : Takes numbers 0 := takes_of (by decide)

theorem witness_guardFalseOrPoisoned :
    isSOp (.add 1 1 2 3) = true ∧ numbers.lead = none ∧
    ((numbers.here.guard 1).pois = false ∧ (numbers.here.guard 1).val = false ∧
      ∀ code val, numbers.here.vres ≠ .trap code val) ∧
    ((numbers.modHere fun c => c.setP 1 false true).here.guard 1).pois = true :=
  ⟨by decide, by decide, ⟨by decide, by decide, fun _ _ h => by revert h; exact (nomatch ·)⟩, by decide⟩

theorem witness_registerFormFrame :
    regOnly (.add 0 1 2 3) = true ∧ numbers.here.vres = .none ∧ ∃ t, exec (.add 0 1 2 3) numbers = .next t :=
  ⟨rfl, by decide, _, rfl⟩

/-- A bundle in hand, with an aligned address in s2, an odd one in s3, poison in s4. -/
def jumps : State := numbers.modHere fun c => { (c.setS 2 0x1000 false) with cur := some bundle2 }

theorem witness_branchesAndJumps :
    TakesCtl jumps 0 ∧ jumps.here.cur = some bundle2 ∧
    ((jumps.ctl.sreg 2).pois = false ∧ (jumps.ctl.sreg 2).val.extractLsb' 0 2 = 0) ∧
    ((jumps.ctl.sreg 3).pois = false ∧ (jumps.ctl.sreg 3).val.extractLsb' 0 2 ≠ 0) ∧ (jumps.ctl.sreg 4).pois = true :=
  ⟨takesCtl_of (by decide), by decide, by decide, by decide, by decide⟩

/-- A page at 0x10000 that may be read, sampled, written, executed and used by promises, in user mode. -/
def pageLeaf : BitVec 128 := BitVec.ofNat 128 (1 + 2 + 4 + 8 + 16 + 32 + 2 ^ 26 + 2 ^ 27 + 2 ^ 64)
def pageEnt : TlbEnt := { asid := 0, space := 0, page := 0x10000, level := 4, leaf := pageLeaf }
/-- A state in which core 0 has the page's translation. -/
def mapped (s : State) : State := s.modCore 0 fun k => { k with tlb := [pageEnt] }

/-- A bundle at 0x10000 that starts a loop whose last bundle is at 0x10010. -/
def loops : State :=
  { mapped (thread fun c => { ((c.setS 2 3 false).setS 4 0 true) with cur := some bundle2, pc := 0x10000 }) with
    mem := ((({} : Memory).write 0x10000 4 0x400).write 0x10008 4 0x400).write 0x10010 4 0x400 }
def loopLoc : Loc := ⟨.glob, 0x10010, 0x10010, pageLeaf, 4, 0⟩

theorem witness_loopsTakeALevel :
    TakesCtl loops 0 ∧ loops.lead = none ∧ loops.here.cur = some bundle2 ∧
    (let c := loops.here; ((c.loop0.active && c.loop1.active) || (c.loop0.active && c.loop0.last.toNat < 0x10010)) = false) ∧
    (let c := (loops.modHere fun c => { c with loop0 := ⟨0, 0, 0, true⟩ }).here; (c.loop0.active && c.loop0.last.toNat < 0x10010) = true) ∧
    loops.fetchLoc 0 0 0x10010 = (.ok loopLoc, loops) ∧
    (blockKinds (loops.blockAt (leafKind loopLoc.leaf) loopLoc.key)).getD (wordIndex loopLoc.key) .notStart = .start ∧
    (blockKinds (loops.blockAt 0 0x10014)).getD (wordIndex 0x10014) .notStart ≠ .start ∧
    (loops.here.sreg 2).pois = false ∧ (loops.here.sreg 2).val.extractLsb' 0 32 ≠ 0 ∧
    (loops.here.sreg 3).val.extractLsb' 0 32 = 0 ∧ (loops.here.sreg 4).pois = true :=
  ⟨takesCtl_of (by decide), by decide, by decide, by decide, by decide, by decide +kernel, by decide +kernel,
    by decide +kernel, by decide, by decide, by decide, by decide⟩

/-- A bundle at 0x10010 with loop levels. -/
def atLast (n0 n1 : W32) (act0 act1 : Bool) : State := thread fun c =>
  { c with cur := some bundle2, pc := 0x10010, loop0 := ⟨0x10000, 0x10010, n0, act0⟩, loop1 := ⟨0x10008, 0x10010, n1, act1⟩ }

theorem witness_bundleEndMovesThePc :
    (let c := (atLast 1 1 false false).here
     c.cur = some bundle2 ∧ c.vres = .none ∧ (c.loop0.active && decide (c.pc = c.loop0.last)) = false ∧
       (c.loop1.active && decide (c.pc = c.loop1.last)) = false) ∧
    (let c := (atLast 1 2 false true).here; (c.loop1.active && decide (c.pc = c.loop1.last)) = true ∧ c.loop1.count - 1 ≠ 0) ∧
    (let c := (atLast 2 1 true false).here
     (c.loop1.active && decide (c.pc = c.loop1.last)) = false ∧ (c.loop0.active && decide (c.pc = c.loop0.last)) = true ∧
       c.loop0.count - 1 ≠ 0) ∧
    (let c := (atLast 2 1 true true).here
     (c.loop1.active && decide (c.pc = c.loop1.last)) = true ∧ c.loop1.count - 1 = 0 ∧
       (c.loop0.active && decide (c.pc = c.loop0.last)) = true ∧ c.loop0.count - 1 ≠ 0) ∧
    (let c := (atLast 1 1 true true).here
     (c.loop0.active && decide (c.pc = c.loop0.last)) = true ∧ c.loop0.count - 1 = 0 ∧ c.loop1.count - 1 = 0) := by decide

theorem witness_bundleEndWritesVResult :
    ((thread fun c => { c with vres := .eff { v := [(3, 1, false)] } }).here.vres = .eff { v := [(3, 1, false)] }) ∧
    ((thread fun c => { c with vres := .eff { v := [(3, 1, false), (4, 2, false)], flags := 1 } }).here.vres =
      .eff { v := [(3, 1, false), (4, 2, false)], flags := 1 } ∧ (3 : BitVec 4) ≠ 4) ∧
    ((thread fun c => { c with vres := .eff { s := some (3, 1, false), m := some (2, 1, false) } }).here.vres =
      .eff { s := some (3, 1, false), m := some (2, 1, false) }) := ⟨rfl, ⟨rfl, by decide⟩, rfl⟩

/-- A user thread that delegates cause 0x24 to an enabled handler; and one in privileged mode. -/
def handled : State := thread fun c => { c with tdeleg0 := 2 ^ 0x24, thand := 0x20001 }
def privileged_ : State := thread fun c => { c with sstatus := 1 }

theorem witness_trapDelivery :
    (0 < 8 ∧ (handled.ctx 0 0).delegates 0x24 = true ∧ (handled.ctx 0 0).thand.getLsbD 0 = true ∧
      (handled.ctx 0 0).uht = false ∧ (handled.ctx 0 0).priv = false) ∧
    (privileged_.ctx 0 0).priv = true ∧ (handled.ctx 0 0).delegates 0x20 = false := by decide

theorem witness_miscForms :
    let u := privileged_.modHere fun c => { c with cur := some bundle2 }
    let v := u.modHere fun c => { c with sstatus := 2 }
    let n := u.modHere fun c => { c with sstatus := 0, vres := .trap 0x14 1 }
    (u.here.guard 0 = ⟨true, false⟩ ∧ u.lead = none ∧ u.here.cur = some bundle2) ∧
    (u.here.sstatus.getLsbD 0 = true ∧ u.here.vres = .none) ∧
    (v.here.sstatus.getLsbD 0 = false ∧ v.here.sstatus.getLsbD 1 = true ∧ v.here.vres = .none) ∧
    (n.here.sstatus.getLsbD 0 = false ∧ n.here.sstatus.getLsbD 1 = false ∧ n.here.vres = .trap 0x14 1) := by decide

/-- A thread with lanes in v2 and v3, poison in v4, and a mask in m1. -/
def lanes : State := thread fun c =>
  (((c.setV 2 (pack16 fun _ => 0xFFFFFFFF) false).setV 3 5 false).setV 4 0 true).setM 1 0x00FF false

theorem witness_vectorIntegerLanes :
    (MaskOk lanes 0 1 ∧ MaskOk lanes 1 1) ∧ poisV lanes 2 = false ∧ poisV lanes 3 = false ∧
    (lanes.here.vsrc (.reg 3)).pois = false ∧ (lanes.here.vsrc (.lit 7)).pois = false :=
  ⟨⟨⟨by decide +kernel, .inl rfl⟩, by decide +kernel, .inr (by decide +kernel)⟩, by decide +kernel, by decide +kernel, by decide +kernel, by decide +kernel⟩

theorem witness_vectorMovesAndPermutes :
    MaskOk lanes 1 1 ∧ poisV lanes 2 = false ∧ poisV lanes 3 = false ∧
      (lanes.here.vsrc (.reg 3)).pois = false ∧ (lanes.here.mreg 1).pois = false ∧ poisS lanes 15 = false :=
  ⟨⟨by decide +kernel, .inr (by decide +kernel)⟩, by decide +kernel, by decide +kernel, by decide +kernel, by decide +kernel, by decide +kernel⟩

/-- Lane 7 is the last active one under m1, lane 8 the first inactive one. -/
theorem witness_laneExtractInsertAndImmediate :
    (lanes.here.maskGuard 1).pois = false ∧ (lanes.here.maskGuard 1).val.getLsbD 7 = true ∧
    (lanes.here.maskGuard 1).val.getLsbD 8 = false ∧ poisS lanes 2 = false ∧ poisV lanes 3 = false ∧ poisV lanes 4 = true := by
  decide +kernel

theorem witness_vectorFloatLanes :
    MaskOk lanes 0 1 ∧ NoFpTrap lanes ∧ poisV lanes 2 = false ∧ poisV lanes 3 = false ∧
    (lanes.here.vsrc (.reg 3)).pois = false ∧ poisV lanes 1 = false ∧ awayAt lanes.sel.1 lanes.here = false ∧
    lanes.mem.poisoned (bankKey (combOf lanes.sel.1) 0) 4 = false :=
  ⟨⟨by decide +kernel, .inl rfl⟩, by unfold NoFpTrap; decide, by decide +kernel, by decide +kernel, by decide +kernel, by decide +kernel, by decide +kernel, by decide +kernel⟩

/-- Infinity times zero in every lane, with the invalid trap enabled. -/
def vtraps : State := thread fun c =>
  { (c.setV 2 (pack16 fun _ => 0x7F800000) false) with fmode := 0x10 }
/-- A signalling NaN in every lane of v2, a block header with a reserved bit in lane 0 of v6, and in v7 and v8 blocks whose scales
stand at 254 and at 0, with every trap enabled; s1 moves scales by 1, s2 by −1. -/
def vtrapsAll : State := thread fun c =>
  { ((((((c.setV 2 (pack16 fun _ => 0x7F800001) false).setV 6 (pack16 fun _ => 0x80) false).setV 7 (pack16 fun _ => 0xFEFE0000)
      false).setV 8 0 false).setS 1 1 false).setS 2 0xFF false) with fmode := 0x1F0 }
/-- As that, with only the inexact trap enabled. -/
def vtrapsNx : State := vtrapsAll.modHere fun c => { c with fmode := 0x100 }
/-- m1 poisoned; and a thread away from its origin core 5. -/
def maskBad : State := thread fun c => c.setM 1 0 true
def awayThread : State := thread fun c => { c with origin := 5 }

theorem witness_vectorTraps :
    (MaskOk vtraps 0 1 ∧ poisV vtraps 2 = false ∧ (vtraps.here.vsrc (.reg 3)).pois = false ∧ 0 < 5 ∧
      (vtraps.here.fmode.getLsbD 4 = true ∧ ∃ k, k < 16 ∧ (vtraps.here.maskGuard 0).val.getLsbD k = true ∧
        (fp32.mul vtraps.here.mode (regLane vtraps 2 k).toNat (srcLane vtraps (.reg 3) k).toNat).flags.getLsbD 0 = true) ∧
      ∀ q, q < 0 → ¬(vtraps.here.fmode.getLsbD (4 + q) = true)) ∧
    (maskBad.here.maskGuard (maskOfV (.vrcp 1 2 (.reg 3)))).pois = true ∧ awayAt maskBad.sel.1 maskBad.here = false ∧
    awayAt awayThread.sel.1 awayThread.here = true :=
  ⟨⟨⟨by decide +kernel, .inl rfl⟩, by decide +kernel, by decide +kernel, by decide +kernel, ⟨by decide +kernel, 0, by decide +kernel, by decide +kernel, by decide +kernel⟩,
    fun q h => absurd h (Nat.not_lt_zero q)⟩, by decide +kernel, by decide +kernel, by decide +kernel⟩

/-- Compares, reductions over the sixteen lanes, and the block forms. -/
theorem witness_vectorTraps_other :
    let s := vtrapsAll
    let u (k : Nat) : Nat := (regLane s 2 k).toNat
    let act (k : Nat) : Bool := (s.here.maskGuard 0).val.getLsbD k
    let raises (l : List FRes) : Prop := s.here.fmode.getLsbD 4 = true ∧ ∃ r ∈ l, r.flags.getLsbD 0 = true
    let scale (r : BitVec 4) (n : Nat) : Nat := (regLane s r 0).toNat / 2 ^ n % 256
    (poisV s 2 = false ∧ (s.here.vsrc (.reg 3)).pois = false ∧ fp32.isSig (u 0) = true ∧ act 0 = true) ∧
    (raises (treeWork act u (fp32.add s.here.mode)) ∧ raises (treeWork act u (fp32.minMax s.here.mode false)) ∧
      raises (treeWork act u (fp32.minMax s.here.mode true))) ∧
    (poisV s 6 = false ∧ badHeader (regLane s 6 0) = true ∧ poisS s 1 = false) ∧
    (poisV s 7 = false ∧ badHeader (regLane s 7 0) = false ∧ 254 < scale 7 24 + 1 ∧ s.here.fmode.getLsbD 6 = true) ∧
    (poisV s 8 = false ∧ badHeader (regLane s 8 0) = false ∧ scale 8 24 = 0 ∧ poisS s 2 = false ∧ s.here.fmode.getLsbD 7 = true) ∧
    (vtrapsNx.here.fmode.getLsbD 8 = true ∧ vtrapsNx.here.fmode.getLsbD 6 = false) := by decide +kernel

theorem witness_poisonedSourcePoisonsVResult :
    isVOp (.vaddI32 0 1 4 (.reg 3)) = true ∧ (∀ m, (lanes.here.mreg m).pois = false) ∧
    awayAt lanes.sel.1 lanes.here = false ∧
    (∀ g d a n, Instr.vaddI32 0 1 4 (.reg 3) ≠ .vext g d a n ∧ Instr.vaddI32 0 1 4 (.reg 3) ≠ .vins g d a n) ∧
    ∃ r, (r ∈ (vRegs (.vaddI32 0 1 4 (.reg 3))).rv ∧ poisV lanes r = true) ∨
      (r ∈ (vRegs (.vaddI32 0 1 4 (.reg 3))).rs ∧ poisS lanes r = true) :=
  ⟨by decide +kernel, by decide +kernel, by decide +kernel, fun _ _ _ _ => ⟨nofun, nofun⟩, 4, .inl (by decide +kernel)⟩

theorem witness_comparesAndMasks :
    (lanes.here.maskGuard 1).pois = false ∧ NoFpTrap lanes ∧ poisV lanes 2 = false ∧ (lanes.here.vsrc (.reg 3)).pois = false ∧
    VCond.lt ≠ .unord :=
  ⟨by decide +kernel, by unfold NoFpTrap; decide, by decide +kernel, by decide +kernel, by decide +kernel⟩

theorem witness_reductionsFollowTheTree :
    (lanes.here.maskGuard 0).pois = false ∧ NoFpTrap lanes ∧ poisV lanes 2 = false ∧
    (lanes.here.maskGuard 0).val = 0xFFFF ∧ (lanes.here.maskGuard 2).pois = false ∧ (lanes.here.maskGuard 2).val = 0 ∧
    poisV lanes 4 = true ∧
    -- lane 3 alone, a subnormal
    (let s := lanes.modHere fun c => (c.setM 3 8 false).setV 5 (pack16 fun _ => 1) false
     (s.here.maskGuard 3).pois = false ∧ poisV s 5 = false ∧ (s.here.maskGuard 3).val.getLsbD 3 = true ∧
       (∀ j, j < 16 → (s.here.maskGuard 3).val.getLsbD j = true → j = 3) ∧
       (List.range 16).countP (fun k => (s.here.maskGuard 3).val.getLsbD k) ≤ 1 ∧ fp32.isSub (regLane s 5 3).toNat = true) := by
  unfold NoFpTrap; decide +kernel

/-- 1.5, 2.0 and the least subnormal word. -/
theorem witness_floatResultsRoundedOnce :
    (finite32 0x3FC00000 ∧ finite32 0x40000000 ∧ finite32 1) ∧
    finite32 (fp32.fma ⟨.rne, false, false⟩ false false 0x3FC00000 0x40000000 1).bits ∧
    finite32 (fp32.add ⟨.rup, false, false⟩ 0x3FC00000 1).bits := by
  unfold finite32; decide +kernel

/-- A block that `vbfpk` packs from zeros in v2, and a header with a reserved bit in v6. -/
def blocks : State := thread fun c =>
  (c.setV 2 (pack16 fun k => (packBlock 8 4 (blockInputs false 0 0)).getD k 0) false).setV 6 0x80 false

theorem witness_blockFloatingPointForms :
    NoFpTrap blocks ∧ poisV blocks 2 = false ∧ poisV blocks (2 + 1) = false ∧ poisV blocks 6 = false ∧
    poisV blocks (6 + 1) = false ∧ poisS blocks 3 = false ∧ (12 : BitVec 4).toNat ≤ 12 ∧
    (let b : Block := regLane blocks 2; (badHeader (b 0) || decide (13 < blockM b) || decide (blockM b < (7 : BitVec 4).toNat + 1)) = false) ∧
    (let b : Block := regLane blocks 6; (badHeader (b 0) || decide (13 < blockM b) || decide (blockM b < (0 : BitVec 4).toNat + 1)) = true) := by
  unfold NoFpTrap; decide +kernel

/-! Memory. -/

/-- A group that holds 4 KiB of every scratchpad and 64 KiB of comb memory, on core 0 and its comb. -/
def group1 : Group :=
  { launch := 1, comb := 0, first := 0, size := 1, cores := 1, units := [], sbase := 0, ssize := 1, cbase := 0, csize := 1,
    share := 1024, nbar := 0, gw := 4, zeroed := 0 }

/-- A thread of the group: s2 holds scratchpad offset 0x40, s3 comb memory offset 0x40, s6 an address in the page at 0x10000
that is mapped, s7 one of no page, s4 is poison, s8 a number, v4 is poisoned. -/
def memory : State :=
  { mapped (thread fun c =>
      { ((((((c.setS 2 (mkVA 0xF0 0x40) false).setS 3 (mkVA 0xF2 0x40) false).setS 6 0x10040 false).setS 7 0x900000 false).setS 4 0
          true).setS 8 5 false).setV 4 0 true with
        group := 1, launch := 1, cur := some bundle2 }) with groups := [(1, group1)], replaying := [] }

def own (o : Nat) : Loc := ⟨.own, scratchKey 0 o, mkVA 0xF0 (BitVec.ofNat 64 o), 0, 4, 0⟩
def inComb (o : Nat) : Loc := ⟨.combMem, combKey 0 o, mkVA 0xF2 (BitVec.ofNat 64 o), 0, 4, 0⟩
def inPage (o : Nat) : Loc := ⟨.glob, 0x10000 + o, BitVec.ofNat 72 (0x10000 + o), pageLeaf, 4, 0⟩

/-- Nothing of the thread is under way. -/
theorem released_of {s : State} {sc : Scope} (h : s.flights = [] ∧ s.here.recs = []) : Released s sc := by
  simp [Released, h.1, h.2]

theorem mayGo_of {s : State} {r : Ord} {sc : Scope} (h : s.flights = [] ∧ s.here.recs = []) : MayGo s r sc :=
  fun _ => released_of h

/-- The lowest and the highest lane offsets of a `gath` whose index lanes are zero. -/
theorem witness_loadsIssue :
    Takes memory 0 ∧ memory.here.stage = .fresh ∧ poisS memory 2 = false ∧ MayGo memory .sc .sys ∧
    Reaches memory [smAddr (memory.here.sreg 2).val (.fld 1) 8] 8 .load [own 0x48] memory ∧
    Reaches memory [smAddr (memory.here.sreg 3).val (.fld 0) 64] 64 .load [inComb 0x40] memory ∧
    poisV memory 2 = false ∧
    Reaches memory ((List.range 16).map fun k => (memory.here.sreg 2).val.extractLsb' 64 8 ++
      ((memory.here.sreg 2).val.extractLsb' 0 64 + ((regLane memory 2 k).signExtend 64 <<< (2 : BitVec 2).toNat))) 4 .load
      (List.replicate 16 (own 0x40)) memory ∧
    Reaches memory [smAddr (memory.here.sreg 6).val (.fld 0) 64] 64 .samp [inPage 0x40] memory :=
  ⟨takes_of (by decide), by decide, by decide, mayGo_of (by decide), by unfold Reaches; decide +kernel,
    by unfold Reaches; decide +kernel, by decide +kernel, by unfold Reaches; decide +kernel, by unfold Reaches; decide +kernel⟩

/-- The thread with one record for s1, and its fill due. -/
def filling (r : Rec) : State := { memory.modHere fun c => { c with recs := [r] } with event := .fill 0 0 r.isV r.reg, drawn := [0] }
def rec1 (op : RecOp) (l : Loc) : Rec := { seq := 0, isV := false, reg := 1, op := op, locs := [l] }

theorem witness_fillsWriteTheirRegister :
    (∀ r ∈ [rec1 (.ld .d true) (own 0x40), rec1 (.amo .add true 5) (own 0x40), rec1 (.cas false 0 5) (inComb 0x40)],
      let s := filling r
      let l := r.locs.headD (own 0)
      s.event = .fill 0 0 false 1 ∧ ((s.ctx 0 0).recs.filter fun k => k.isV == false && k.reg == 1).head? = some r ∧
        r.got = none ∧ r.locs = [l] ∧ l.win ≠ .glob ∧ foreign 0 l = false ∧ s.stalled l = false ∧
        s.behind 0 0 r.seq l r.op.bytes = false ∧ s.shadowed 0 r.seq l r.op.bytes = false ∧
        s.marked (.thread 0 0) l r.op.bytes = false ∧ s.mem.poisoned l.key r.op.bytes = false ∧ s.fenced 0 0 r.seq = false ∧
        s.degradedAt l = false ∧ s.sampBehind 0 0 r.seq l r.op.bytes = false ∧ (s.pick 2).1 = 0) ∧
    (let r := { rec1 (.amo .add true 5) (own 0x40) with accepted := true }; r.accepted = true ∧ r.got = none) ∧
    (let r := { rec1 (.ld .d true) (own 0x40) with got := some (7, false) }; r.op.isRemote = false ∧ r.op.atomic = false) ∧
    (let a : State := { filling (rec1 (.amo .add true 5) (own 0x40)) with drawn := [1] }; (a.pick 2).1 = 1) ∧
    (let b := { rec1 (.bits 60 7) (own 0x40) with locs := [own 0x40, own 0x48] }
     ∀ m ∈ b.locs, (filling b).stalled m = false ∧ (filling b).marked (.thread 0 0) m 8 = false ∧
       (filling b).behind 0 0 b.seq m 8 = false ∧ (filling b).shadowed 0 b.seq m 8 = false ∧ (filling b).degradedAt m = false ∧
       (filling b).fenced 0 0 b.seq = false) ∧
    ({ filling (rec1 (.amo .add true 5) (own 0x40)) with mem := ({} : Memory).spoil (scratchKey 0 0x40) }.mem.poisoned
      (own 0x40).key 8 = true) := by decide +kernel

theorem witness_storesIssue :
    Takes memory 0 ∧ memory.here.stage = .fresh ∧ poisS memory 2 = false ∧ MayGo memory .rel .dev ∧
    poisS memory 8 = false ∧ poisV memory 2 = false ∧
    (Reaches memory [smAddr (memory.here.sreg 2).val (.fld 1) 8] 8 .store [own 0x48] memory ∧
      memory.reserveAll [own 0x48] = true) ∧
    (Reaches memory [smAddr (memory.here.sreg 6).val (.fld 0) 64] 64 .store [inPage 0x40] memory ∧
      memory.reserveAll [inPage 0x40] = true) ∧
    (Reaches memory ((List.range 16).map fun k => (memory.here.sreg 6).val.extractLsb' 64 8 ++
      ((memory.here.sreg 6).val.extractLsb' 0 64 + ((regLane memory 2 k).signExtend 64 <<< (0 : BitVec 2).toNat))) 2 .store
      (List.replicate 16 (inPage 0x40)) memory ∧ memory.reserveAll (List.replicate 16 (inPage 0x40)) = true) ∧
    ((own 0x48).win = .own ∧ memory.behind 0 0 memory.seq (own 0x48) 8 = false ∧ memory.portTaken memory.seq (own 0x48) = false ∧
      memory.storesHeld 0 0 = false ∧ memory.watches = [] ∧ memory.promises = [] ∧ memory.ephem = [] ∧
      (memory.core 0).eng.run = none) :=
  ⟨takes_of (by decide), by decide, by decide, mayGo_of (by decide), by decide, by decide +kernel,
    ⟨by unfold Reaches; decide +kernel, by decide +kernel⟩, ⟨by unfold Reaches; decide +kernel, by decide +kernel⟩,
    ⟨by unfold Reaches; decide +kernel, by decide +kernel⟩, by decide +kernel⟩

theorem witness_atomicForms :
    Takes memory 0 ∧ memory.here.stage = .fresh ∧ poisS memory 6 = false ∧ poisS memory 8 = false ∧ MayGo memory .acq .sys ∧
    memory.reserveAll [inPage 0x40] = true ∧ Reaches memory [(memory.here.sreg 6).val] 8 .atomic [inPage 0x40] memory ∧
    Reaches memory [(memory.here.sreg 6).val] 4 .red [inPage 0x40] memory ∧
    -- in comb memory
    (Reaches memory [(memory.here.sreg 3).val] 8 .atomic [inComb 0x40] memory ∧ memory.reserveAll [inComb 0x40] = true) :=
  ⟨takes_of (by decide), by decide, by decide, by decide, mayGo_of (by decide), by decide +kernel,
    by unfold Reaches; decide +kernel, by unfold Reaches; decide +kernel,
    by unfold Reaches; decide +kernel, by decide +kernel⟩

/-- One write under way, arrived and accepted or not. -/
def writing (op : FlightOp) (arr acc : Bool) (d : List Nat) : State :=
  { memory with
    flights := [{ id := 1, by_ := .thread 0 0, loc := inComb 0x40, len := 8, op := op, arrived := arr, accepted := acc, acc := 2 }],
    event := .storeAcknowledgement 1, drawn := d }
def flightOf (s : State) : Flight := s.flights.headD { id := 0, by_ := .host, loc := own 0, len := 0, op := .bytes [] [] }

theorem witness_writesArePerformed :
    let a := writing (.bytes (cellsOf (combKey 0 0x40) 7 8) []) true true []
    let b := writing (.ared .add true 1) true true []
    let c := writing (.ared .add true 1) false false [0]
    let d := writing (.ared .add true 1) true false [1]
    let e := { a with flights := { flightOf a with id := 0 } :: [{ flightOf a with after := 1 }] }
    (a.event = .storeAcknowledgement 1 ∧ a.flights.find? (fun f => f.id == 1) = some (flightOf a) ∧ a.flightReady (flightOf a) = true ∧
      (flightOf a).loc.win ≠ .glob ∧ a.mem.wf = true ∧ a.degradedAt (flightOf a).loc = false) ∧
    (b.flightReady (flightOf b) = true ∧ b.marked (flightOf b).by_ (flightOf b).loc 8 = false) ∧
    (c.flightReady (flightOf c) = true ∧ (flightOf c).arrived = false ∧ (c.pick 3).1 = 0) ∧
    (d.flightReady (flightOf d) = true ∧ (flightOf d).accepted = false ∧ (d.pick 3).1 = 1) ∧
    (e.flightReady { flightOf a with after := 1 } = false ∧
      e.flights.find? (fun f => f.id == 1) = some { flightOf a with after := 1 }) := by decide +kernel

/-- Index lanes in v5 of which lane 1 is the first odd one; in v6 zeros. -/
def indexed : State := memory.modHere fun c => (c.setS 6 0x10040 false).setV 5 (pack16 fun k => if k = 0 then 0 else 1) false

theorem witness_addressChecks_lanes :
    let va (k : Nat) : W64 := reg64 indexed 6 + ((regLane indexed 5 k).signExtend 64 <<< (0 : BitVec 2).toNat)
    Takes indexed 0 ∧ indexed.here.stage = .fresh ∧ poisS indexed 6 = false ∧ poisV indexed 5 = false ∧ poisV indexed 4 = true ∧
    poisV indexed 2 = false ∧ poisS indexed 4 = true ∧ (va 1).toNat % elemBytes .h ≠ 0 ∧ ∀ i, i < 1 → (va i).toNat % elemBytes .h = 0 :=
  ⟨takes_of (by decide), by decide +kernel⟩

theorem witness_addressChecks :
    Takes memory 0 ∧ memory.here.stage = .fresh ∧ poisS memory 4 = true ∧ poisS memory 2 = false ∧ poisV memory 4 = true ∧
    poisS memory 8 = false ∧ poisV memory 2 = false ∧
    ((smAddr (memory.here.sreg 8).val (.fld 0) 8).extractLsb' 0 64).toNat % 8 ≠ 0 ∧
    ((smAddr (memory.here.sreg 8).val (.fld 0) 64).extractLsb' 0 64).toNat % 64 ≠ 0 ∧ (reg64 memory 8).toNat % 4 ≠ 0 :=
  ⟨takes_of (by decide), by decide +kernel⟩

/-- The ends of the group's ranges and of the windows; a page readable in user mode, one that may not be read, and no page. -/
theorem witness_addressesReachTheirPlaces :
    let c := memory.here
    let shut : TlbEnt := { pageEnt with leaf := BitVec.ofNat 128 (1 + 2 + 16 + 32 + 2 ^ 64) }
    let shutS := memory.modCore 0 fun k => { k with tlb := [shut] }
    let sysEnt : TlbEnt := { pageEnt with space := 0x80 }
    let sysS := memory.modCore 0 fun k => { k with tlb := [sysEnt] }
    let away := memory.modHere fun c => { c with origin := 5 }
    (misaligned (mkVA 0xF5 0) 8 = false ∧ 0xF5 ≤ ((mkVA 0xF5 0).extractLsb' 64 8).toNat) ∧
    (misaligned (mkVA 0xF0 4088) 8 = false ∧ misaligned (mkVA 0xF0 4096) 8 = false ∧ awayAt 0 c = false ∧
      memory.group c.group = some group1 ∧ 0 + 4096 = (group1.sbase + group1.ssize) * 4096) ∧
    (misaligned (mkVA 0xF2 65528) 8 = false ∧ misaligned (mkVA 0xF4 1016) 8 = false) ∧ awayAt 0 away.here = true ∧
    (tlbFind (memory.core 0).tlb c.asid 0x10040 = some pageEnt ∧ c.replay = none ∧ leafKind pageLeaf = 0 ∧
      memory.homeOf 0x10040 ∉ memory.degraded ∧ leafBit pageLeaf 2 = true ∧ leafBit pageLeaf 5 = true) ∧
    (tlbFind (shutS.core 0).tlb c.asid 0x10040 = some shut ∧ (shutS.hive 0).fring.getLsbD 0 = false ∧ leafBit shut.leaf 2 = false) ∧
    (tlbFind (sysS.core 0).tlb c.asid (mkVA 0x80 0x10040) = some sysEnt ∧ (!c.priv) = true ∧ leafBit sysEnt.leaf 2 = true) ∧
    memory.tlbLook 0 c.asid 0x900000 = none := by decide +kernel

theorem witness_fencesAndCacheControl :
    let busy := { memory.modHere fun c => { c with recs := [rec1 (.ld .d true) (inPage 0x40)] } with
      flights := [flightOf (writing (.ared .add true 1) true true [])], seq := 5 }
    let fills := memory.modComb 0 fun c => { c with sampWait := [{ loc := inPage 0x40, core := 0, cx := 1, seq := 0 }] }
    let asked := memory.modComb 0 fun c => { c with fsamps := [(0, 0, .dev)] }
    Takes memory 0 ∧ memory.here.stage = .fresh ∧ (∀ sc, Released memory sc) ∧ ¬Released busy .dev ∧
    (∀ r ∈ memory.here.recs, r.seq < memory.seq → r.op.isRemote = true) ∧
    ¬(∀ r ∈ busy.here.recs, r.seq < busy.seq → r.op.isRemote = true) ∧
    (memory.comb (combOf 0)).sampWait = [] ∧ (fills.comb (combOf 0)).sampWait ≠ [] ∧
    (0, 0, Scope.dev) ∈ (asked.comb (combOf 0)).fsamps ∧ poisS memory 4 = true ∧
    (poisS memory 2 = false ∧ ((memory.here.sreg 2).val.extractLsb' 64 8).toNat = 0xF0) ∧
    (poisS memory 6 = false ∧ ((memory.here.sreg 6).val.extractLsb' 64 8).toNat < 0xF0 ∧
      Reaches memory [(memory.here.sreg 6).val] 1 .load [inPage 0x40] memory) :=
  ⟨takes_of (by decide), by decide, fun _ => released_of (by decide), by unfold Released; decide +kernel, by decide,
    by decide +kernel, by decide, by decide +kernel, by decide +kernel, by decide, by decide, by decide, by decide,
    by unfold Reaches; decide +kernel⟩

theorem witness_memoryReadsWhatWasWritten : ({} : Memory).wf = true ∧ (({} : Memory).write 5 2 0x1234).wf = true := by decide

/-! Contexts, special registers, gangs, barriers, messages, nodes. -/

theorem witness_fullnessHomeAndMode :
    let away (sp : Byte) : State := memory.modHere fun c => c.setS 2 (mkVA sp 0x40) false
    Takes memory 0 ∧ (memory.here.sreg 4).pois = true ∧
    ((memory.here.sreg 2).pois = false ∧ ((memory.here.sreg 2).val.extractLsb' 64 8).toNat = 0xF0) ∧
    (((away 0xF1).here.sreg 2).val.extractLsb' 64 8).toNat = 0xF1 ∧
    (((away 0xF3).here.sreg 2).val.extractLsb' 64 8).toNat = 0xF3 ∧
    0xF5 ≤ (((away 0xF5).here.sreg 2).val.extractLsb' 64 8).toNat ∧
    ((memory.here.sreg 6).pois = false ∧ ((memory.here.sreg 6).val.extractLsb' 64 8).toNat < 0xF0 ∧
      memory.translate 0 0 (memory.here.sreg 6).val .load = (.ok (inPage 0x40), memory)) :=
  ⟨takes_of (by decide), by decide, by decide, by decide, by decide, by decide, by decide, by decide, by decide +kernel⟩

/-- A g register written two cycles ago by another context, and empty shared registers. -/
theorem witness_specialRegisterForms :
    let full := memory.modCore 0 fun k => { k with g := k.g.set 0 { full := true, val := 5 } }
    let fullW : State := { memory with pairs := [(0, (Vector.replicate 8 {}).set 0 { full := true, val := 5 })] }
    Takes memory 0 ∧ full.gview 0 0 = some 5 ∧ memory.gview 0 0 = none ∧ fullW.wview 0 0 = some 5 ∧ memory.wview 0 0 = none ∧
    poisS memory 2 = false ∧ privileged_.here.priv = true ∧ poisS privileged_ 2 = false ∧ memory.notices = [] ∧
    (∀ r, r ∈ [0, 7, 0x0B, 0x15, 0x30, 0x33, 0x113, 0x116, 0x11B, 0x11D] →
      (r ≤ 7 ∨ (0x0B ≤ r ∧ r ≤ 0x15) ∨ (0x30 ≤ r ∧ r ≤ 0x33) ∨ r = 0x113 ∨ r = 0x116 ∨ r = 0x11B ∨ r = 0x11D)) ∧
    (gcell (memory.core 0).g 0).late = [] ∧ poisS memory 4 = true ∧
    (memory.here.priv = false ∧ memory.here.cur = some bundle2) :=
  ⟨takes_of (by decide), by decide, by decide, by decide, by decide, by decide, by decide, by decide, by decide, by decide,
    by decide, by decide, by decide, by decide⟩

/-- A thread that leaves core 0 for core 3. -/
def leaving : State :=
  { memory.modHere fun c => { c with st := .migrating, target := 3 } with event := .migrationDepart 0 0 }
/-- A thread that arrives at core 3. -/
def arriving : State := { memory with arrivals := [(0, [{ core := 3, thread := { origin := 0 } }])], event := .migrationArrival 3 }

theorem witness_migration :
    Takes memory 0 ∧ (memory.here.sreg 2).pois = false ∧ (memory.here.sreg 4).pois = true ∧
    memory.homeCore 0 0 (memory.here.sreg 2).val = (.ok 0, memory) ∧
    ((leaving.ctx 0 0).st = .migrating ∧ leaving.halts 0 = false ∧ (leaving.ctx 0 0).follows = false ∧
      (leaving.ctx 0 0).recs = [] ∧ leaving.released 0 0 .dev leaving.seq = true ∧ (leaving.core 0).inbound = []) ∧
    ((leaving.modCtx 0 0 fun c => { c with recs := [rec1 .vec (own 0)] }).ctx 0 0).recs ≠ [] ∧
    (let watches (p : Nat) := (leaving.modCtx 0 0 fun c => { c with watch := some 2, watchPending := p }).ctx 0 0
     (watches 0).watch ≠ none ∧ (watches 0).watchPending = 0 ∧ (watches 1).watchPending ≠ 0) ∧
    (arriving.arrivalsFor 3 = { core := 3, thread := { origin := 0 } } :: [] ∧ arriving.freeCtxs 3 = 0 :: [1, 2, 3, 4, 5, 6]) ∧
    ({ arriving with cores := [(3, { ctxs := Vector.replicate 8 { st := .retired } })] }.freeCtxs 3 = []) ∧
    (let q (s : State) := (sget (combPairOf (s.ctx 0 0).target) s.arrivals).getD []
     (q leaving).length < 64 ∧
       64 ≤ (q { leaving with arrivals := [(combPairOf 3, List.replicate 64 { core := 3, thread := {} })] }).length) :=
  ⟨takes_of (by decide +kernel), by decide +kernel, by decide +kernel, by decide +kernel, by decide +kernel, by decide +kernel, by decide +kernel, by decide +kernel, by decide +kernel, by decide +kernel⟩

/-- A watch on sector 2 of comb memory, whose home's turn the thread waits for. -/
def atHome (l : Loc) : State :=
  { memory.modHere fun c => { c with stage := .acted 1, places := [l], watch := some 2 } with drawn := [0] }

theorem atHome_of {s : State} {l : Loc} {n : Nat} (h : s.here.stage = .acted 1 ∧ s.here.places = [l] ∧
    s.behind s.sel.1 s.sel.2 s.seq l n = false ∧ s.marked (.thread s.sel.1 s.sel.2) l n = false ∧ s.stalled l = false ∧
    s.degradedAt l = false ∧ (s.pick 2).1 = 0) : AtHome s l n := h

/-- A home with 64 watches of other contexts. -/
def fullHome : State :=
  { atHome (inComb 0x40) with watches := (List.range 64).map fun i => { core := 1 + i / 8, cx := i % 8, sector := (combKey 0 0x40) / 32 } }

theorem witness_monitors :
    let a := atHome (inComb 0x40)
    let waits : State := memory.modHere fun c => { c with watch := some 2 }
    let parked (w : Wait) : State := { memory.modHere fun c => { c with watch := some 2, st := .parked, wait := w, stage := .acted 1 } with
      watches := [{ core := 0, cx := 0, sector := (combKey 0 0x40) / 32 }], event := .mwaitTimeout 0 0 }
    let o : WatchEnt := { core := 0, cx := 0, sector := (combKey 0 0x40) / 32 }
    Takes memory 0 ∧ Takes a 0 ∧ AtHome a (inComb 0x40) 1 ∧ a.watches.length < 64 ∧
    (memory.here.stage = .fresh ∧ poisS memory 4 = true ∧ poisS memory 3 = false ∧
      Reaches memory [(memory.here.sreg 3).val] 1 .watch [inComb 0x40] memory) ∧
    (AtHome fullHome (inComb 0x40) 1 ∧
      (fullHome.watches.filter fun w => fullHome.watchHome w.sector == fullHome.watchHome ((inComb 0x40).key / 32)).length = 64 ∧
      (fullHome.ctx 1 0).st ≠ .parked ∧ (fullHome.ctx 1 0).watchPending = 0) ∧
    (memory.here.watch = none ∧ waits.here.watch ≠ none ∧ waits.here.watchPending = 0 ∧
      (waits.modHere fun c => { c with watchPending := 1 }).here.watchPending ≠ 0) ∧
    (parked (.mwait (some 0))).event = .mwaitTimeout 0 0 ∧
    (((parked (.mwait (some 0))).ctx 0 0).wait = .mwait (some 0) ∧ ((parked (.mwait (some 0))).ctx 0 0).st = .parked ∧
      ((parked (.mwait (some 0))).ctx 0 0).stage = .acted 1 ∧ 0 ≤ (parked (.mwait (some 0))).now) ∧
    ((parked (.mwait none)).promises = [] ∧ (parked (.mwait none)).watches = [o] ∧
      ((parked (.mwait none)).ctx 0 0).wait = .mwait none) ∧
    (PlainPlace memory (inPage 0x40) ∧ (inPage 0x40).win = .glob ∧
      (let o : WatchEnt := { core := 0, cx := 0, sector := 0x10040 / 32 + 1 }
       (inPage 0x40).key / 32 ≤ o.sector ∧ o.sector ≤ ((inPage 0x40).key + 63) / 32)) :=
  ⟨takes_of (by decide), takes_of (by decide), atHome_of (by decide +kernel), by decide, ⟨by decide, by decide, by decide,
    by unfold Reaches; decide +kernel⟩, ⟨atHome_of (by decide +kernel), by decide +kernel⟩, by decide, by decide, by decide,
    by decide +kernel, ⟨.inr (by decide), by decide, by decide⟩⟩

/-- A launch whose units may make gangs of four, and its group with one unit on core 0, context 0. -/
def launch1 : Launch :=
  { node := 0, kernel := 0, entry := 0x10000, entries := [], forager := none, template := 0, words := 0, ptroot := 0, asid := 0,
    profile := {}, k0 := 0, k1 := 0, k2 := 0, delta := 4, count := 1, step := 1, gsize := 1, gw := 4, gangable := true,
    matrix := true, early := false, dieMin := 1, dieMax := 4, nbar := 0, ssize := 1, sbase := 0, csize := 1, cbase := 0,
    share := 1024, preds := [], started := true, next := 1, dies := [0] }
/-- The thread leads its unit, with the contexts of cores 1 to 3 reserved for it. -/
def leader : State :=
  ((({ memory with launches := [(1, launch1)], groups := [(1, { group1 with units := [(0, 0, 0)] })] } : State).modCtx 1 0 fun c =>
    { c with st := .reserved }).modCtx 2 0 fun c => { c with st := .reserved }).modCtx 3 0 fun c => { c with st := .reserved }

/-- The barrier word at the thread's home: phase 1, one arrival of two. -/
def barrier (w : Nat) : State :=
  let s := atHome (inPage 0x40)
  { s with mem := s.mem.write 0x10040 8 w, waiters := [{ core := 0, cx := 1, key := 0x10040, phase := 1 }] }

theorem witness_gangsAndBarriers :
    let able (s : State) : Bool := ((sget s.here.launch s.launches).map (·.gangable)).getD false
    let free (s : State) (i : Nat) : Bool := (s.ctx (1 + i) 0).st == .reserved && (s.followersOf s.here).contains (1 + i, 0)
    let ganged := leader.modHere fun c => { c with gang := some ⟨0, 4, 0, false⟩ }
    let quiet (s : State) : Prop := s.watches = [] ∧ s.promises = [] ∧ s.ephem = []
    let onlyTwo := leader.modCtx 3 0 fun c => { c with st := .free }
    let word (w : Nat) : Prop :=
      (barrier w).mem.poisoned 0x10040 8 = false ∧ (barrier w).mem.read 0x10040 8 = w ∧ w < 2 ^ 63 ∧ w / 2 ^ 24 % 256 = 0
    Takes memory 0 ∧ able memory = false ∧ (Takes leader 0 ∧ able leader = true ∧ leader.here.gang = none) ∧
    (able ganged = true ∧ ganged.here.gang ≠ none) ∧ 4 < 2 ^ (3 : BitVec 2).toNat ∧
    (2 ^ (2 : BitVec 2).toNat ≤ 4 ∧ 0 % 16 % 2 ^ (2 : BitVec 2).toNat = 0 ∧ (∀ i, i < 3 → free leader i = true) ∧ leader.followersRun leader.here = false) ∧
    (let away := leader.modCtx 9 0 fun c => { c with st := .ready, unitid := leader.here.unitid, launch := 1, group := 1, follows := true }
     away.here.follows = false ∧ away.followersRun away.here = true) ∧
    (free onlyTwo 2 = false) ∧
    (poisS memory 6 = false ∧ poisS memory 8 = false ∧ reg64 memory 8 < 2 ^ 24 ∧ 2 ^ 24 ≤ (reg64 numbers 3).toNat ∧
      Reaches memory [(memory.here.sreg 6).val] 8 (.bar false) [inPage 0x40] memory ∧
      Reaches memory [(memory.here.sreg 6).val] 8 (.bar true) [inPage 0x40] memory ∧ Released memory .dev ∧ poisS memory 4 = true) ∧
    (Takes (barrier 2) 0 ∧ AtHome (barrier 2) (inPage 0x40) 8 ∧ poisS (barrier 2) 6 = false) ∧
    (word (2 ^ 56 + 2) ∧ 0 + 1 ≠ 2) ∧ (word (2 ^ 56 + 2 ^ 32 + 2) ∧ 1 + 1 = 2) ∧
    ((barrier (2 ^ 63)).mem.poisoned 0x10040 8 = false ∧ 2 ^ 63 ≤ (barrier (2 ^ 63)).mem.read 0x10040 8) ∧
    quiet (barrier 2) ∧ ((barrier 0).mem.read 0x10040 8 = 0) ∧ (5 = (reg64 memory 8).toNat % 64) ∧
    ((inPage 0x40).key < 2 ^ 52 ∧ (inPage 0x40).win = .glob ∧ (barrier 2).lost = [] ∧ (barrier 2).promises = [] ∧
      (barrier 2).watches = [] ∧ ¬(inComb 0x40).key < 2 ^ 52 ∧ (inComb 0x40).win = .combMem) ∧
    -- the constant bank, and an offset of the comb memory that is no slot
    (let s (sp : Byte) : State := memory.modHere fun c => c.setS 2 (mkVA sp 0x40) false
     misaligned ((s 0xF4).here.sreg 2).val 8 = false ∧ awayAt 0 (s 0xF4).here = false ∧ ((s 0xF4).here.sreg 2).val.extractLsb' 64 8 = 0xF4 ∧
       misaligned ((s 0xF2).here.sreg 2).val 8 = false ∧ awayAt 0 (s 0xF2).here = false ∧ ((s 0xF2).here.sreg 2).val.extractLsb' 64 8 = 0xF2 ∧
       (s 0xF2).group (s 0xF2).here.group = some group1 ∧
       ¬(group1.cbase * 65536 ≤ 0x40 ∧ 0x40 < group1.cbase * 65536 + 8 * group1.nbar)) ∧
    ¬Released ({ memory with flights := [{ flightOf (writing (.ared .add true 1) true true []) with id := 0 }], seq := 5 } : State) .dev ∧
    ((memory.modHere fun c => { c with places := [inPage 0x40], stage := .answered 0 false }).here.stage = .answered 0 false) ∧
    ((memory.modHere fun c => { c with places := [inPage 0x40], stage := .refused 0x41 0 }).here.stage = .refused 0x41 0) :=
  ⟨takes_of (by decide), by decide, ⟨takes_of (by decide), by decide⟩, by decide, by decide, ⟨by decide, by decide,
    by decide +kernel, by decide +kernel⟩, by decide +kernel, by decide +kernel, ⟨by decide, by decide, by decide, by decide, by unfold Reaches; decide +kernel,
    by unfold Reaches; decide +kernel, released_of (by decide), by decide⟩, ⟨takes_of (by decide), atHome_of (by decide +kernel),
    by decide⟩, by decide +kernel, by decide +kernel, by decide +kernel, by decide +kernel, by decide +kernel, by decide +kernel,
    by decide +kernel, by decide +kernel, by unfold Released; decide +kernel, by decide +kernel⟩

/-- Messages for core 0 from context 0 of core 5, which waits for the answer, and from engine 5. -/
def msgT : Msg :=
  { id := 5, launch := 1, core := 0, chan := 3, sender := .thread 5 0, gen := 0, pay := Vector.replicate 6 1, kind := .plain }
def msgE : Msg := { msgT with sender := .engine 5 }
def arrives (m : Msg) : State :=
  { memory.modCtx 5 0 fun c => { c with st := .parked, wait := .inbound 5, stage := .acted 1 } with
    turn := 1, event := .messageArrival m, launches := [(1, launch1)] }
/-- A task entry for channel 3 of core 0, of group 1. -/
def task3 : Task := { pc := 0x10000, groups := [1] }
def tasked (s : State) : State := s.modCore 0 fun k => { k with tasks := [(3, task3)] }

theorem witness_messages :
    let bound := (arrives msgT).modCtx 0 1 fun c => { c with chan := some 3 }
    let receives := (arrives msgE).modCtx 0 1 fun c => { c with chan := some 3, st := .parked, wait := .mrecv, stage := .acted 1 }
    let has := memory.modHere fun c => { c with chan := some 3 }
    let got := has.modCore 0 fun k => { k with inbound := [msgE] }
    let called := memory.modHere fun c => { c with retRec := some ⟨5, 0, false, 1, 0, 0⟩ }
    let retries : State := { bound with held := [msgT], drawn := [0], event := .messageRetry 0 }
    (Takes memory 0 ∧ memory.here.stage = .fresh ∧ Released memory .dev ∧ (∀ r ∈ [2, 3, 5, 6, 7, 8, 9], poisS memory r = false) ∧
      poisS memory 4 = true ∧ memory.here.chan = none) ∧
    (∀ r ∈ [2, 3, 4, 5, 6, 7, 8, 9], poisS numbers r = false ∨ r = 4) ∧
    (has.here.chan = some 3 ∧ (has.core 0).inbound.find? (fun m => m.chan == 3) = none) ∧
    (got.here.chan = some 3 ∧ (got.core 0).inbound.find? (fun m => m.chan == 3) = some msgE) ∧
    (memory.sel.2 ≠ 7 ∧ ∀ y, y < 8 → y ≠ 0 → (memory.ctx 0 y).chan ≠ some 3) ∧
    ((bound.ctx 0 1).chan = some 3) ∧ memory.entryOf 3 = none ∧
    ((tasked memory).entryOf 3 = some task3 ∧ ((tasked memory).core 0).inbound = []) ∧
    (memory.here.retRec = none ∧ called.here.retRec = some ⟨5, 0, false, 1, 0, 0⟩) ∧
    ((arrives msgT).held = [] ∧ 0 < (arrives msgT).turn ∧ (arrives msgT).agenda = [] ∧ (arrives msgT).heldFor msgT = false ∧
      msgT.kind = .plain ∧ msgT.dry = false ∧ ((arrives msgT).core 0).inbound = [] ∧ (arrives msgT).bound 0 3 = none ∧
      sget 3 ((arrives msgT).core 0).tasks = none ∧ ((arrives msgT).ctx 5 0).generation = 0 ∧
      ((arrives msgT).ctx 5 0).st = .parked ∧ ((arrives msgT).ctx 5 0).wait = .inbound 5 ∧
      ((arrives msgT).ctx 5 0).stage = .acted 1) ∧
    (receives.bound 0 3 = some 1 ∧ (receives.ctx 0 1).wait = .mrecv ∧ (receives.ctx 0 1).stage = .acted 1) ∧
    (bound.bound 0 3 = some 1 ∧ (bound.ctx 0 1).wait ≠ .mrecv ∧ (bound.core 0).inbound.length < 64) ∧
    (let s := tasked (arrives msgE)
     s.bound 0 3 = none ∧ sget 3 (s.core 0).tasks = some task3 ∧ task3.blocked = false ∧ task3.groups.head? = some 1 ∧
       s.group 1 = some group1 ∧ sget group1.launch s.launches = some launch1 ∧ s.arrivalsFor 0 = [] ∧ s.freeCtxs 0 ≠ []) ∧
    (let can := retries.held.filter fun m => m.core == 0 && !retries.overtakes m; can[(retries.pick can.length).1]? = some msgT ∧
      0 < retries.turn ∧ retries.heldFor msgT = false) ∧
    ((memory.modHere fun c => { c with stage := .answered 0 false }).here.stage = .answered 0 false ∧
      (memory.modHere fun c => { c with stage := .refused 0x45 3 }).here.stage = .refused 0x45 3) ∧
    ((memory.ctx 5 0).wait ≠ .inbound 5 ∧ ¬0 < memory.turn) :=
  ⟨⟨takes_of (by decide), by decide, released_of (by decide), by decide, by decide, by decide⟩, by decide, by decide, by decide,
    by decide, by decide, by decide, by decide, by decide, by decide +kernel, by decide +kernel, by decide +kernel,
    by decide +kernel, by decide +kernel, by decide +kernel, by decide +kernel⟩

/-- Tables that map space bytes 0x00 and 0x80 to DRAM as it lies, for every mode: three nodes from 0x100000 on, with one leaf at
level 2. -/
def bigLeaf : BitVec 128 := BitVec.ofNat 128 (1 + 2 + 4 + 8 + 16 + 32 + 2 ^ 26)
def tables : Memory :=
  ((({} : Memory).write 0x100000 16 (1 + 2 ^ 64 * 0x11)).write 0x100800 16 (1 + 2 ^ 64 * 0x11)).write 0x110000 16 (1 + 2 ^ 64 * 0x12)
    |>.write 0x120000 16 bigLeaf.toNat
def bigEnt (sp : Byte) : TlbEnt := { asid := 0, space := sp, page := 0, level := 2, leaf := bigLeaf }
/-- A thread of launch 1 under those tables, with more memory written. -/
def system (f : Memory → Memory) : State :=
  { memory.modCore 0 fun k => { k with tlb := [bigEnt 0, bigEnt 0x80] } with
    mem := f tables, sptroot := 0x100000, launches := [(1, launch1)], drawn := [0], replaying := [],
    hive0 := { etlb := [bigEnt 0, bigEnt 0x80] }, hive1 := { etlb := [bigEnt 0, bigEnt 0x80] } }
def sysLoc (a : Nat) : Loc := ⟨.glob, a, mkVA 0x80 (BitVec.ofNat 64 a), bigLeaf, 2, 0⟩
def userLoc (a : Nat) : Loc := ⟨.glob, a, BitVec.ofNat 72 a, bigLeaf, 2, 0⟩
/-- The host's write to an entry of the system table has arrived and is not performed: walks through it wait. -/
def blockedAt (a : Nat) (s : State) : State :=
  { s with flights := [{ id := 1, by_ := .host, loc := userLoc a, len := 16, op := .bytes [] [], arrived := true }] }
/-- So is its write to the entry for space byte 0x80. -/
def blocked (s : State) : State := blockedAt 0x100800 s

/-- The engines hold no translation: what they need of the device's structures waits for its walk. -/
def unread (s : State) : State := { s with hive0 := {}, hive1 := {} }

/-- A node record of kind 1 at 0x200000, and the thread at its home. -/
def noded (l : Loc) : State :=
  ((system fun m => m.write 0x200022 1 1).modHere fun c => { c.setS 2 0x8000 false with launchid := 0x8000 }).modHere fun c =>
    { c with stage := .acted 1, places := [l] }
def noded0 : State := (noded (sysLoc 0)).modHere fun c => { c with stage := .fresh, places := [] }

/-- A queue, number 5, whose header is at 0x300000: 16 slots from 0x400000 on, open, empty. -/
def queued (f : Memory → Memory) : State :=
  { system fun m => f ((m.write 0x300000 16 (0x400000 + 2 ^ 72 * 4 + 2 ^ 80 * 5 + 2 ^ 96)).write 0x300020 8 0x100000) with
    queues := [(5, { hdr := 0x300000 })] }
def queue5 : Queue := { hdr := 0x300000 }
def head5 (st head tail : Nat) : QHead := ⟨0x300000, 0x400000, 4, 0, st, head, tail, 0x100000, 0⟩
/-- The thread at the home of the header, with a FENCE packet of one slot in v2. -/
def putting (f : Memory → Memory) : State :=
  (queued f).modHere fun c => { (c.setS 2 0x300000 false).setV 2 2 false with stage := .acted 1, places := [userLoc 0x300000] }

theorem witness_nodeForms :
    let done := noded0.modHere fun c => { c with unitid := BitVec.allOnes 64 }
    let trig := noded0.modHere fun c => { c with st := .ready }
    (Takes noded0 0 ∧ done.here.unitid = BitVec.allOnes 64) ∧
    (trig.here.unitid ≠ BitVec.allOnes 64 ∧ trig.hasTriggered trig.here = false ∧
      trig.sysWaits 0 (trig.here.launchid ++ (0 : BitVec 6)) = false ∧ (unread trig).sysWaits 0 (trig.here.launchid ++ (0 : BitVec 6)) = true ∧ Released trig .dev ∧ trig.here.st = .ready ∧
      trig.nodeAddr trig.here.launchid = some 0x200000) ∧
    (noded0.here.stage = .fresh ∧ poisS noded0 4 = true ∧ poisS noded0 2 = false) ∧
    ((reg64 numbers 3).extractLsb' 58 6 ≠ 0 ∧ poisS numbers 3 = false) ∧
    (noded0.nodePlace 2 0x22 = (some (sysLoc 0x200000), noded0) ∧ noded0.nodePlace 2 0x21 = (some (sysLoc 0x200000), noded0)) ∧
    (Takes (noded (sysLoc 0x200000)) 0 ∧ AtHome (noded (sysLoc 0x200000)) (sysLoc 0x200000) 64 ∧
      (noded (sysLoc 0x200000)).mem.read 0x200022 1 = 1 ∧
      BitVec.ofNat 16 ((noded (sysLoc 0x200000)).mem.read 0x200020 2) = (noded (sysLoc 0x200000)).here.asid) ∧
    (AtHome (noded (sysLoc 0x201000)) (sysLoc 0x201000) 64 ∧ (noded (sysLoc 0x201000)).mem.read 0x201022 1 = 0) ∧
    ((noded (sysLoc 0x200000)).launches = [(1, launch1)] ∧ (noded (sysLoc 0x200000)).under 0 0x8000 nodeLinks = false ∧
      (noded (sysLoc 0x200000)).under 0x8000 0x8000 nodeLinks = true) ∧
    (AtHome (putting id) (userLoc 0x300000) 64 ∧ ((putting id).pick 2).2.registered (userLoc 0x300000) = some (queue5, head5 1 0 0) ∧
      (head5 1 0 0).tail + 1 - (head5 1 0 0).head ≤ 2 ^ (head5 1 0 0).lg ∧
      5 = (putting id).mem.read 0x30000A 1) ∧
    (((putting fun m => m.write 0x300018 8 16).pick 2).2.registered (userLoc 0x300000) = some (queue5, head5 1 0 16) ∧
      2 ^ (head5 1 0 16).lg < (head5 1 0 16).tail + 1 - (head5 1 0 16).head) ∧
    (((putting fun m => m.write 0x30000C 1 2).pick 2).2.registered (userLoc 0x300000) = some (queue5, head5 2 0 0)) ∧
    (((putting id).pick 2).2.slotPlaces 5 (head5 1 0 0)
      { hive := 0, ptroot := 0x100000, asid := 0, user := false, stall := none } 0 1 = (.ok [userLoc 0x400000], ((putting id).pick 2).2)) ∧
    (((putting id).pick 2).2.registered (userLoc 0x500000) = none) ∧
    (Reaches (queued id) [BitVec.ofNat 72 0x300000] 64 .load [userLoc 0x300000] (queued id) ∧ Released (queued id) .sys) ∧
    ((unread (noded (sysLoc 0x200000))).cancelWaits = true ∧ (noded (sysLoc 0x200000)).cancelWaits = false) ∧
    (PlainPlace (noded (sysLoc 0x200000)) (sysLoc 0x200000) ∧ (noded (sysLoc 0x200000)).launches = [(1, launch1)] ∧
      (let s := noded (sysLoc 0x200000); { s with lost := [s.homeOf 0x200000] }.lostSector 0x200000 = true)) ∧
    ¬Released ({ trig with flights := [{ flightOf (writing (.ared .add true 1) true true []) with id := 0 }] } : State) .dev :=
  ⟨⟨takes_of (by decide), by decide⟩, ⟨by decide, by decide +kernel, by decide +kernel, by decide +kernel, released_of (by decide),
    by decide, by decide +kernel⟩, by decide, by decide, by decide +kernel, ⟨takes_of (by decide), atHome_of (by decide +kernel), by decide +kernel,
    by decide +kernel⟩, ⟨atHome_of (by decide +kernel), by decide +kernel⟩, ⟨by decide, by decide +kernel, by decide +kernel⟩,
    ⟨atHome_of (by decide +kernel), by decide +kernel⟩, by decide +kernel, by decide +kernel, by decide +kernel,
    by decide +kernel, ⟨by unfold Reaches; decide +kernel, released_of (by decide)⟩, by decide +kernel,
    ⟨.inr (by decide), by decide, by decide +kernel⟩, by unfold Released; decide +kernel⟩

/-! Transfers, promises, licences, matrix engines, bit streams. -/

/-- As `memory`, with lengths in s9 and s10, an aligned global address in s6, ring handle 2 in s11, 16 in s12, one item in s13; ring
2 stands at offset 0x100 of the scratchpad. -/
def ring2 : Ring := { base := mkVA 0xF0 0x100, lg := 6, rd := 0, wr := 8, filled := 8, free := 56, group := 1 }
def transfers : State :=
  (memory.modHere fun c => (((((c.setS 9 64 false).setS 10 6 false).setS 11 2 false).setS 12 16 false).setS 13 1 false).setS 14 60
    false).modCore 0 fun k => { k with rings := [(2, ring2)] }

/-- Channel 0 with 64 ids under way, and with five Done. -/
def chan64 : State := transfers.modCore 0 fun k => { k with chans := k.chans.set 0 { next := 64 } }
def chan5 : State := transfers.modCore 0 fun k => { k with chans := k.chans.set 0 { next := 5, doneBelow := 5 } }

theorem witness_transferForms :
    Takes transfers 0 ∧ (∀ r ∈ ([2, 6, 9] : List (BitVec 4)), poisS transfers r = false) ∧
    (64 ≠ 0 ∧ 64 ≤ 2 ^ 36 ∧ 64 % 4 = 0 ∧ ((reg64 transfers 9).extractLsb' 0 40).toNat = 64) ∧
    ((reg64 transfers 2).toNat % 4 = 0 ∧
      transfers.window 0 1 1 (awayAt 0 transfers.here) (transfers.here.sreg 2).val 64 true = .ok (own 0x40)) ∧
    (((transfers.here.sreg 6).val.extractLsb' 64 8).toNat < 0xF0 ∧ (reg64 transfers 6).toNat % 4 = 0 ∧ (reg64 transfers 6).toNat % 64 = 0) ∧
    (transfers.ringOf (reg64 transfers 11) = some ring2 ∧ 64 ≤ 2 ^ ring2.lg) ∧
    ¬(((reg64 transfers 10).extractLsb' 0 40).toNat % 4 = 0) ∧
    (Released transfers .dev ∧ (((transfers.core 0).chan 0).next - ((transfers.core 0).chan 0).doneBelow).toNat ≠ 64) ∧
    (((chan64.core 0).chan 0).next - ((chan64.core 0).chan 0).doneBelow).toNat = 64 ∧ poisS transfers 4 = true ∧
    (poisS chan5 15 = false ∧ 1 ≤ (((chan5.core 0).chan 0).doneBelow - (reg64 chan5 15).extractLsb' 0 48).toNat ∧
      (((chan5.core 0).chan 0).doneBelow - (reg64 chan5 15).extractLsb' 0 48).toNat ≤ 2 ^ 47) ∧
    (((transfers.core 0).chan 0).doneBelow - (reg64 transfers 15).extractLsb' 0 48).toNat = 0 ∧
    ((reg64 transfers 13).toNat < 16 ∧ (∀ r, sget 1 (transfers.core 0).rings = some r → r.group = 1) ∧
      (reg64 transfers 2).toNat % 2 ^ (6 : BitVec 5).toNat = 0 ∧ ¬(∃ e ∈ transfers.xfers, e.2.core = 0 ∧ e.2.ring = some 1)) ∧
    16 ≤ (reg64 transfers 12).toNat ∧ transfers.ringOf (reg64 transfers 13) = none ∧
    (((reg64 transfers 13).extractLsb' 0 32).toNat ≤ ring2.free ∧ ((reg64 transfers 13).extractLsb' 0 32).toNat ≤ ring2.filled) ∧
    (ring2.free < ((reg64 transfers 14).extractLsb' 0 32).toNat ∧ ring2.filled < ((reg64 transfers 14).extractLsb' 0 32).toNat ∧
      ((reg64 transfers 14).extractLsb' 0 32).toNat ≤ 2 ^ ring2.lg) ∧
    2 ^ ring2.lg < ((reg64 numbers 3).extractLsb' 0 32).toNat ∧
    (awayAt 0 transfers.here = false ∧ awayAt 0 (transfers.modHere fun c => { c with origin := 5 }).here = true) :=
  ⟨takes_of (by decide), by decide, by decide, by decide +kernel, by decide +kernel, by decide +kernel, by decide +kernel,
    ⟨released_of (by decide), by decide +kernel⟩, by decide +kernel, by decide +kernel, by decide +kernel, by decide +kernel,
    ⟨by decide +kernel, by decide +kernel, by decide +kernel, by decide +kernel⟩, by decide +kernel, by decide +kernel⟩

/-- Transfer 3 of core 0, in a state, from global memory into the scratchpad. -/
def xfer3 (kind : XferKind) (st : XferState) (left : List (Nat × Nat)) (ring : Option Nat) (failed : Option (Byte × W64)) : Xfer :=
  { kind := kind, st := st, core := 0, cx := 0, gen := 0, inst := 0, ch := 0, id := 0, ptroot := 0x100000, asid := 0,
    user := true, group := 1, src := 0x200000, dst := mkVA 0xF0 0x40, len := 64, place := some (own 0x40), room := 4032, record := 9, ring := ring,
    notice := true, left := left, failed := failed }
def moves (x : Xfer) (e : Event) (f : Memory → Memory) : State :=
  (({ system f with xfers := [(3, x)], event := e } : State).modCore 0 fun k => { k with rings := [(2, { ring2 with free := 64, filled := 0 })] })

/-- A request of two by two words at 0x300000, and one that reserves a bit. -/
def tileReq : Nat := 0x300000 + 2 ^ (8 * 9) * 2 + 2 ^ (8 * 10) * 2 + 2 ^ (8 * 12) * 2 + 2 ^ (8 * 14) * 2 + 2 ^ (8 * 0x14) * 2 +
  2 ^ (8 * 0x18) * 2 + 2 ^ 192 * 2 ^ 192 * 8

theorem witness_transferEvents :
    let a := moves (xfer3 .get .issued [] none none) (.transferArrive 3) id
    let r := xfer3 .get .issued [] (some 2) none
    let tl := xfer3 .tile .issued [] none none
    let reads (s : State) := s.engineWords (.streamer 3) (s.streamUnder tl tl.src tl.stall) tl.src 8
    let b := moves tl (.transferArrive 3) fun m => m.write 0x200000 64 tileReq
    let c := moves tl (.transferArrive 3) fun m => m.write 0x200000 64 (tileReq + 2 ^ 511)
    let x := xfer3 .get .moving [(0, 2), (5, 16)] none none
    let p : State := { moves x (.streamerPiece 3) id with drawn := [2] }
    let gv : Xfer := { xfer3 .getv .moving [(0, 1)] none none with place := none }
    let v := moves gv (.streamerPiece 3) id
    let f := moves (xfer3 .get .moving [] (some 2) none) (.transferFinish 3) id
    let g := moves (xfer3 .get .moving [] none (some (0x20, 5))) (.transferFinish 3) id
    let w := moves (xfer3 .get .ring [] (some 2) none) (.ringReserve 0 2) id
    let fills (l : List Rec) := (moves { gv with left := [], vec := some (7, false) } (.transferFinish 3) id).modHere fun c =>
      { c with st := .ready, recs := l }
    let rv (n : Nat) : Rec := { rec1 (.remote false) (own 0) with isV := true, reg := 0, seq := n }
    (sget 3 a.xfers = some (xfer3 .get .issued [] none none)) ∧
    (sget 3 (moves r (.transferArrive 3) id).xfers = some r ∧ r.ring = some 2) ∧
    (reads b = (.val tileReq false, b) ∧ (lo64 tl.src).toNat % 8 = 0) ∧
    (∃ bx, parseTile tileReq = some bx ∧ bx.bytes ≤ tl.room ∧ 15 < bx.bytes) ∧
    (reads c = (.val (tileReq + 2 ^ 511) false, c) ∧ parseTile (tileReq + 2 ^ 511) = none) ∧
    (runLength x.left ≠ 0 ∧ p.suspended x = false ∧ x.tile = none ∧ x.place = some (own 0x40) ∧ x.rsize = 0 ∧
      (own 0x40).win ≠ .combMem ∧ (chosen p).rangeHeld x (own 0x40) = true ∧ (lo64 x.src).toNat % 4 = 0 ∧
      runAt x.left (p.pick (runLength x.left)).1 = 5 ∧
      (chosen p).engineRead (.streamer 3) ((chosen p).streamUnder x (bytePlus x.src 20) (x.stallOf 5)) (bytePlus x.src 20) 4 false =
        (.val 0 false, chosen p)) ∧
    v.engineRead (.streamer 3) (v.streamUnder gv gv.src (gv.stallOf 0)) gv.src 64 false = (.val 0 false, v) ∧
    ((fills [rv 8, rv 9]).fillWaits gv.fillTag = true ∧ (fills [rv 9]).fillWaits gv.fillTag = false ∧
      ((fills [rv 9]).ctx 0 0).recs.filter (fun k => k.isV && k.reg == gv.reg) = [rv 9]) ∧
    (f.turn ≤ 0 ∧ 0 < ({ f with turn := 1 } : State).turn) ∧
    ((∀ e ∈ f.flights, e.by_ ≠ .streamer 3) ∧ f.xferLive (xfer3 .get .moving [] (some 2) none) = true ∧
      ((f.core 0).chan 0).finished = [] ∧ (f.core 0).mailbox.length < 32 ∧ sget 2 (f.core 0).rings = some { ring2 with free := 64, filled := 0 }) ∧
    (g.xferLive (xfer3 .get .moving [] none (some (0x20, 5))) = true ∧ ((g.core 0).chan 0).err = false) ∧
    ((w.xfers.find? fun e => e.2.st == .ring && e.2.core == 0 && e.2.ring == some 2 && w.xferLive e.2) =
        some (3, xfer3 .get .ring [] (some 2) none) ∧
      sget 2 (w.core 0).rings = some { ring2 with free := 64, filled := 0 } ∧ 64 ≤ 64 ∧ w.halts 0 = false) := by
  refine ⟨?_, ?_, ?_, ⟨_, rfl, ?_⟩, ?_⟩ <;> decide +kernel

/-- Request 7 at the cell at 0x200000 whose control word is given, and at 0x200100. -/
def promised (op : PromOp) (ctl ctl2 : Nat) : State :=
  ({ system fun m => (m.write 0x200008 8 ctl).write 0x200108 8 ctl2 with
    promReqs := [(7, { op := op, core := 0, cx := 0, gen := 0, ptroot := 0x100000, asid := 0, user := true, a := 0x200000, b := 0x200100 })],
    event := .promiseRequest 7 } : State).modHere fun c => { c with st := .parked, wait := .answer, stage := .acted 1 }
def req7 (op : PromOp) : PromReq :=
  { op := op, core := 0, cx := 0, gen := 0, ptroot := 0x100000, asid := 0, user := true, a := 0x200000, b := 0x200100 }

/-- The request meets the conditions under which an agent acts on it. -/
def actsOn (op : PromOp) (c1 c2 : Nat) : Bool :=
  let s := promised op c1 c2
  decide (sget 7 s.promReqs = some (req7 op) ∧ s.stalled (userLoc 0x200000) = false ∧
    s.marked (.promise 0) (userLoc 0x200000) 16 = false ∧ s.mem.poisoned 0x200000 16 = false ∧
    s.lost = [] ∧ s.engineAddr ((req7 op).under 0) (0x200000 : W72) op.use = (.ok (userLoc 0x200000), s) ∧
    s.mem.read 0x200008 8 = c1 ∧ s.mem.read 0x200108 8 = c2 ∧
    s.engineAddr ((req7 op).under (s.agentHive 0x200000)) (0x200100 : W72) .load = (.ok (userLoc 0x200100), s) ∧
    s.engineAddr ((req7 op).under 0) (0x200100 : W72) .atomic = (.ok (userLoc 0x200100), s))
def asks : State := memory.modHere fun c => c.setS 5 0x10050 false

theorem witness_promiseForms :
    (Takes asks 0 ∧ asks.here.stage = .fresh ∧ asks.degraded = [] ∧ asks.here.replay = none ∧ asks.promReqs = [] ∧ asks.here.recs = [] ∧ Released asks .dev ∧
      (∀ r ∈ ([5, 6] : List (BitVec 4)), poisS asks r = false ∧ (asks.here.sreg r).val.extractLsb' 64 8 = 0 ∧ (reg64 asks r).toNat % 16 = 0 ∧
        (reg64 asks r).toNat < 2 ^ 60 ∧ tlbFind (asks.core 0).tlb 0 (asks.here.sreg r).val = some pageEnt) ∧
      leafKind pageLeaf = 0 ∧ leafBit pageLeaf 26 = true ∧ leafBit pageLeaf 3 = true) ∧
    poisS memory 4 = true ∧ (({ memory with promReqs := [(7, req7 .pinit)] } : State).promReqs.any fun q =>
      q.2.core == 0 && q.2.cx == 0 && q.2.gen == memory.here.generation) = true ∧
    ((promised .pinit 0 0).ctx 0 0).stage = .acted 1 ∧
    actsOn .pinit 0 0 = true ∧ actsOn (.pfill 5) 0 0 = true ∧ actsOn (.pfill 0) (2 ^ 62) 0 = true ∧ actsOn (.pfill 5) (2 ^ 62) 0 = true ∧ actsOn (.pget 1) (2 ^ 62) 0 = true ∧
    actsOn (.pget 1) 0 0 = true ∧ actsOn (.ptry 1) (2 ^ 62) 0 = true ∧ actsOn (.pstat 1 1) 0 0 = true ∧ actsOn (.pstat 1 3) (2 ^ 62) 0 = true ∧
    actsOn (.pget 1) (2 ^ 63 + 0x20010) 0 = true ∧ actsOn .peq 0 0 = true ∧ actsOn .peq 0 (2 ^ 56 * 63) = true ∧ actsOn .peq (2 ^ 56 * 63) (2 ^ 56 * 63) = true ∧
    (0x200000 + 16 ≤ 0x200100 ∧ 63 < 64 ∧ 0x20010 = 0x200100 / 16 ∧ leafKind bigLeaf = 0 ∧ leafBit bigLeaf 26 = true) ∧
    (memory.modHere fun c => { c with stage := .answered 0 false }).here.stage = .answered 0 false ∧
    (memory.modHere fun c => { c with stage := .refused 0x40 0 }).here.stage = .refused 0x40 0 ∧
    (let s := memory.modHere fun c => { c with stage := .acted 1, wait := .promise 1 true false }
     s.here.wait = .promise 1 true false ∧ ∀ k ∈ s.here.recs, ¬(k.op = .remote false ∧ k.isV = false ∧ k.reg = 1)) :=
  ⟨⟨takes_of (by decide), by decide, by decide, by decide, by decide, by decide, released_of (by decide), by decide +kernel⟩, by decide,
    by decide +kernel, by decide +kernel⟩

/-- A thread of a launch that uses the engines, on core 0, which holds the licence or not. -/
def licensed (held : Bool) : State :=
  { memory with launches := [(1, launch1)], licences := if held then [(0, { holder := some 0 })] else [] }
/-- A command: `mbegin` of chain 7 under tag 0 from core 0. -/
def tileCmd (op : BitVec 8) (rest : BitVec 200) : Cmd :=
  { word := op ++ (0 : BitVec 32) ++ (7 : BitVec 16) ++ rest, core := 0, cx := 0, gen := 0, launch := 1, delta := 4 }
def mbegin0 : Cmd := tileCmd 1 0

theorem witness_licenceForms :
    let able (s : State) : Bool := ((sget s.here.launch s.launches).map (·.matrix)).getD false
    let busy := (licensed true).modEng 0 fun g => { g with run := some { block := 0, till := 5 } }
    let full := (licensed true).modEng 0 fun g => { g with queue := [mbegin0, mbegin0] }
    let sent : State := { licensed true with cmds := [(0, mbegin0)], event := .commandAccept 0 }
    let asks (l : List Nat) (last : Option Nat) : State :=
      { licensed false with licReqs := l.map fun k => { core := k, cx := 0, excl := false, since := 0 },
                            licences := [(0, { last := last })], event := .licenceGrant 0 }
    let coop := { licensed true with licReqs := [{ core := 512, cx := 0, excl := false, since := 0 }], event := .coopHandover 0 }
    Takes (licensed true) 0 ∧ able memory = false ∧ able (licensed true) = true ∧ poisS memory 2 = false ∧ poisS memory 4 = true ∧
    poisV memory 2 = false ∧ poisV memory 4 = true ∧
    ((licensed true).here.stage = .fresh ∧ ((licensed true).lic 0).holder = some 0 ∧ ((licensed true).lic 0).move = .stay) ∧
    ((licensed false).lic 0).holder ≠ some 0 ∧ (((licensed true).setLic 0 { holder := some 0, move := .pass }).lic 0).move = .pass ∧
    (let c : Cmd := { tileCmd 4 0 with begun := true }
     (((licensed true).modEng 0 fun g => { g with queue := [c] }).eng 0).queue.head? = some c ∧ c.drain = true) ∧
    (((licensed true).modCore 0 fun k => { k with mcapk := 5, oldKey := some (0, 0) }).core 0).oldKey = some (0, 0) ∧
    (((licensed true).eng 0).run = none ∧ ((licensed true).eng 0).queue = []) ∧ ((busy.eng 0).run ≠ none ∧ (busy.lic 0).holder = some 0) ∧
    (Released (licensed true) .dev ∧ ((licensed true).eng 0).queue.length < 2 ∧ (licensed true).here.tiles ≠ 255 ∧
      (licensed true).combSaved (combOf 0) 1 = false) ∧
    ¬((full.eng 0).queue.length < 2) ∧
    ((licensed true).modHere fun c => { c with tiles := 1 }).here.tiles ≠ 0 ∧ (licensed true).here.tiles = 0 ∧
    ((sent.cmds.find? fun c => c.1 == 0) = some (0, mbegin0) ∧ mbegin0.core < 2048 ∧ (sent.eng 0).queue.length < 2 ∧
      mbegin0.word.extractLsb' 216 32 = (sent.core 0).mcapk ∧ decodeTile 0 mbegin0.word = .ok (.mbegin 0 0 7 0)) ∧
    ((tileCmd 1 1).word.extractLsb' 216 32 = 0 ∧ decodeTile 0 (tileCmd 1 1).word = .error 2) ∧
    (((asks [0] none).lic 0).holder = none ∧ (asks [0] none).licReqs.map (·.core) = [0] ∧
      (asks [512, 0] (some 0)).licReqs.map (·.core) = [512, 0] ∧ ((asks [512, 0] (some 0)).lic 0).last = some 0 ∧ (asks [] none).licReqs = []) ∧
    ((coop.lic 0).holder = some 0 ∧ (coop.lic 0).excl = false ∧ (coop.lic 0).move = .stay ∧ coop.licReqs.map (·.core) = [twinOf 0] ∧
      (coop.eng 0).queue = [] ∧ (coop.eng 0).run = none ∧ (coop.eng 0).chain ≠ .opened) :=
  ⟨takes_of (by decide), by decide, by decide, by decide, by decide, by decide +kernel, by decide, by decide, by decide, by decide +kernel,
    by decide +kernel, by decide +kernel, by decide, by decide, ⟨released_of (by decide), by decide⟩, by decide, by decide, by decide,
    by decide +kernel⟩

/-- Engine 0 with a command at its head: its state, whether the command has begun. -/
def engine (c : Cmd) (chain : ChainState) (held : Bool) (f : Cmd → Cmd) : State :=
  (licensed held).modEng 0 fun g => { g with chain := chain, id := 7, queue := [f c] }
/-- `mstep` of one k-block at 0x100 and 0x800 with DA = DB = 2; and one past the scratchpad. -/
def mstep0 : Cmd := tileCmd 2 ((0x100 : BitVec 24) ++ (0x800 : BitVec 24) ++ (1 : BitVec 12) ++ (2 : BitVec 4) ++ (2 : BitVec 4) ++ (0 : BitVec 132))
def mstepOut : Cmd := tileCmd 2 ((0x3FFC0 : BitVec 24) ++ (0 : BitVec 24) ++ (1 : BitVec 12) ++ (2 : BitVec 4) ++ (2 : BitVec 4) ++ (0 : BitVec 132))
/-- `mdrain` to core 3, offset 0x40. -/
def mdrain0 (o : BitVec 24) : Cmd :=
  tileCmd 4 ((0 : BitVec 76) ++ (3 : BitVec 12) ++ o ++ (9 : BitVec 6) ++ (0 : BitVec 4) ++ (0 : BitVec 78))

/-- The command at the head may be acted on in a state of the chain. -/
def headOf (c : Cmd) (i : Instr) (chain : ChainState) : Bool :=
  let s := engine c chain true id
  decide ((s.eng 0).queue = [c] ∧ s.halts 0 = false ∧ c.begun = false ∧ (s.lic 0).holder = some 0 ∧ (s.lic 0).move = .stay ∧
    (s.eng 0).chain = chain ∧ (s.eng 0).id = 7) && (match decodeTile 0 c.word with | .ok j => decide (j = i) | .error _ => false)
def stepM (s : State) (o : Nat) : Nat := ((BitVec.ofNat 32 (s.mem.read (scratchKey 0 o) 4)).extractLsb' 12 4).toNat + 1
def mstepOp : Instr := .mstep 0 0 7 0x100 0x800 1 2 2
def begun (c : Cmd) : Cmd := { c with begun := true, left := [0] }
def running (end_ : Nat) : State := (engine mstep0 .opened true begun).modEng 0 fun g => { g with run := some { block := 0, till := end_ } }
def charged : State := (engine mstep0 .opened true begun).modCore 0 fun k => { k with ebal := 1088 }

theorem witness_tileCommands :
    headOf mbegin0 (.mbegin 0 0 7 0) .idle = true ∧ headOf mbegin0 (.mbegin 0 0 7 0) .opened = true ∧
    headOf (tileCmd 5 0) (.mzero 0 0 7) .opened = true ∧ headOf (tileCmd 5 0) (.mzero 0 0 7) .closed = true ∧
    headOf (tileCmd 3 0) (.mend 0 0 7) .opened = true ∧ headOf (tileCmd 3 0) (.mend 0 0 7) .idle = true ∧
    headOf mstep0 mstepOp .opened = true ∧ headOf mstep0 mstepOp .closed = true ∧ headOf mstepOut (.mstep 0 0 7 0x3FFC0 0 1 2 2) .opened = true ∧
    (let s := engine mstep0 .opened true id
     0x100 < 2 ^ 18 ∧ 0x100 + 64 * 1 * (4 * (stepM s 0x100 + 3)) ≤ 2 ^ 18 ∧ 0x800 + 64 * 1 * (4 * (stepM s 0x800 + 3)) ≤ 2 ^ 18) ∧
    (let s := engine mstepOut .opened true id; 2 ^ 18 < 0x3FFC0 + 64 * 1 * (4 * (stepM s 0x3FFC0 + 3))) ∧
    (headOf (mdrain0 0x40) (.mdrain 0 0 7 3 0x40 9 0) .closed = true ∧ 0x40 + drainSize 0 ≤ 2 ^ 18) ∧
    (headOf (mdrain0 0x3FFC0) (.mdrain 0 0 7 3 0x3FFC0 9 0) .closed = true ∧ 2 ^ 18 < 0x3FFC0 + drainSize 0) ∧
    (let s := engine mbegin0 .idle false id; (s.eng 0).queue = [mbegin0] ∧ (s.lic 0).holder ≠ some 0 ∧ s.licReqs = []) ∧
    ((charged.eng 0).run = none ∧ (begun mstep0).left ≠ [] ∧ 272 * 2 * 2 ≤ (charged.core 0).ebal.toNat) ∧
    (((engine mstep0 .opened true begun).core 0).ebal.toNat < 272 * 2 * 2) ∧
    (((running 5).eng 0).run = some { block := 0, till := 5 } ∧ (running 5).now < 5 ∧ (running 0).now = 0 ∧ (begun mstep0).left = [0]) ∧
    (let s := engine (mdrain0 0x40) .closed true fun c => { c with begun := true }
     (s.eng 0).queue = [{ mdrain0 0x40 with begun := true }] ∧ s.combSaved (combOf 3) 1 = false) ∧
    (let s := engine (mdrain0 0x40) .closed true fun c => { c with begun := true, first := 1 }
     (s.eng 0).queue = [{ mdrain0 0x40 with begun := true, first := 1 }] ∧ s.flights = []) ∧
    (let s : State := { engine mstep0 .opened false id with licReqs := [{ core := 0, cx := 8, excl := false, since := 0 }] }
     (s.eng 0).queue = [mstep0] ∧ (s.lic 0).holder ≠ some 0 ∧ ∃ r ∈ s.licReqs, r.core = 0) ∧
    (let s := engine mstep0 .closed true fun c => { c with checked := true }
     (s.eng 0).queue = [{ mstep0 with checked := true }] ∧ (s.eng 0).chain ≠ .opened) ∧
    -- a second mstep, whose k-step may come first
    (let s : State := { charged.modEng 0 fun g => { g with queue := g.queue ++ [mstep0] } with drawn := [1] }
     s.nextStep 0 = some { begun mstep0 with checked := true } ∧ (s.pick 2).1 = 1 ∧
       (begun mstep0).stepArgs = some (0x100, 0x800, 2, 2) ∧ charged.nextStep 0 = none) ∧
    (let c : Cmd := { mdrain0 0x40 with begun := true }
     ((engine (mdrain0 0x40) .closed true fun c => { c with begun := true }).eng 0).queue.head? = some c ∧ c.drain = true) := by
  decide +kernel

/-- Streams: 100 bits at scratchpad offset 0x40, at several positions. -/
def streams (ip op : W32) : State :=
  memory.modHere fun c => { (c.setS 9 64 false).setS 10 16 false with
    bsIn := { base := 0x40, len := 100, pos := ip }, bsOut := { base := 0x80, len := 100, pos := op } }

theorem witness_bitStreamForms :
    let s := streams 60 60
    let ringed := transfers.modCore 0 fun k => { k with rings := [(2, { ring2 with filled := 0, free := 64 })] }
    Takes s 0 ∧ (poisS s 2 = false ∧ poisS s 9 = false ∧ (s.here.sreg 2).val.extractLsb' 64 8 = 0xF0 ∧ (reg64 s 2).toNat % 8 = 0 ∧
      (reg64 s 2).toNat + (64 + 7) / 8 ≤ 262144) ∧
    ((s.here.sreg 3).val.extractLsb' 64 8 ≠ 0xF0 ∧ poisS s 4 = true) ∧
    (s.here.bsIn.len.toNat < (streams 100 0).here.bsIn.pos.toNat + 1) ∧
    (60 + 32 ≤ s.here.bsIn.len.toNat ∧ s.group s.here.group = some group1 ∧ 0x40 + 8 * (60 / 64) + 8 ≤ 4096 ∧ s.here.bsIn.kept = [] ∧
      s.mem.poisoned (scratchKey 0 0x40) 8 = false ∧ s.mem.poisoned (scratchKey 0 0x48) 8 = false) ∧
    (100 < 60 + (reg64 s 9).toNat ∧ 60 + (reg64 s 10).toNat ≤ 100) ∧
    (60 % 64 + 3 < 64 ∧ 64 ≤ 60 % 64 + 4 ∧ 60 + 32 ≤ s.here.bsOut.len.toNat ∧ (streams 0 90).here.bsOut.len.toNat < 90 + 11) ∧
    ((streams 0 64).here.bsOut.pos.toNat % 64 = 0 ∧ s.here.bsOut.pos.toNat % 64 ≠ 0) ∧
    (transfers.ringOf (reg64 transfers 13) = none ∧ transfers.ringOf (reg64 transfers 11) = some ring2 ∧ ring2.filled ≠ 0) ∧
    ringed.ringOf (reg64 ringed 11) = some { ring2 with filled := 0, free := 64 } ∧
    -- an earlier store to the word is under way, or none
    (let w : State := { s with flights := [{ id := 0, by_ := .thread 0 0, loc := own 0x40, len := 8, op := .bytes [] [] }] }
     w.streamHeld w.here.bsIn [0, 1] = true ∧ s.streamHeld s.here.bsIn [0, 1] = false ∧ w.behind 0 0 w.seq (own 0x80) 8 = true ∧
       s.behind 0 0 s.seq (own 0x80) 8 = false ∧ s.storesHeld 0 0 = false) :=
  ⟨takes_of (by decide), by decide, by decide, by decide, by decide, by decide, by decide, by decide, by decide, by decide,
    by decide +kernel⟩

/-! Nectar, contexts, paging. -/

theorem memOk_of {s : State} (h : s.mem.wf = true ∧ ∀ e ∈ s.images, e.2.mem.wf = true) : MemOk s := h

/-- Extent 2 of 64 KiB at 16 MiB in a state, with a request at 0x600000 for it and an install in progress. -/
def ext2 (st : ExtState) (units : Nat) : Extent := { st := st, base := 2 ^ 24, len := 2 ^ 16, units := units }
def install2 (by_ : Starter) (erase : List Nat) (cmp cancelled : Bool) : Install :=
  { by_ := by_, compare := cmp, notice := true, src := 0x700000, count := 2 ^ 16, digest := 0x800000, ptroot := 0x100000, asid := 0,
    user := true, erase := erase, cancelled := cancelled }
def nectar (e : Extent) (xs : Sparse Install) (ev : Event) (d : List Nat) : State :=
  (({ system fun m => (m.write 0x600000 16 (2 + 2 ^ 64 * 0x700000)).write 0x600010 16 (2 ^ 16 + 2 ^ 64 * 0x800000) with
      extents := [(2, e)], installs := xs, event := ev, drawn := d, etab := 0x900000 } : State).modHere fun c =>
    ((c.setS 2 0x600000 false).setS 3 2 false).setS 5 4096 false)
/-- The thread at the home of the request. -/
def asking (e : Extent) : State :=
  (nectar e [] .pctlGo [0, 0]).modHere fun c => { c with stage := .acted 1, places := [userLoc 0x600000] }

theorem witness_nectarForms :
    let fresh := nectar (ext2 .blank 0) [] .pctlGo []
    let mine := Starter.thread 0 0
    let told (s : State) : State := s.sysTold 0 (s.extVA 2)
    let at0 := asking (ext2 .blank 0)
    let own (cmp : Bool) (ev : Event) (u : Nat) (d : List Nat) := nectar (ext2 .installing u) [(2, install2 mine [1] cmp false)] ev d
    let gone (ev : Event) := nectar (ext2 .installing 0) [(2, install2 mine [1] false true)] ev []
    let past := nectar (ext2 .installing 0) [(2, { install2 mine [] false false with count := 0 })] (.unitProgram 2) [0]
    let odd := nectar (ext2 .installing 0) [(2, { install2 mine [] false false with src := mkVA 0xF0 0 })] (.unitProgram 2) [0]
    let ctr : State := { nectar (ext2 .sealed 1) [(4100, install2 (.queue 5 0x200000 0x100000 0) [] false false)] (.installComplete 4100) [] with drawn := [] }
    let drains (c : Ctx → Ctx) := (nectar (ext2 .superseded 1) [] (.supersedeDrain 2) []).modHere c
    let line := 2 ^ 24 / 2 ^ 16
    let fills (st : ExtState) (l : List Nat) := (nectar (ext2 st 1) [] (.stagingFill line) []).modHive (stagingHive line) fun h =>
      { h with staging := [line], staged := l }
    (MemOk fresh ∧ Takes fresh 0 ∧ fresh.here.stage = .fresh ∧ poisS fresh 4 = true ∧ poisS fresh 2 = false ∧
      Reaches fresh [(fresh.here.sreg 2).val] 64 .load [userLoc 0x600000] fresh ∧ Released fresh .sys) ∧
    (MemOk at0 ∧ AtHome at0 (userLoc 0x600000) 64 ∧ PlainPlace at0 (userLoc 0x600000) ∧ at0.mem.poisoned 0x600000 64 = false) ∧
    (parseInstall (at0.mem.read 0x600000 64) mine 0x100000 0 true = some (2, { install2 mine [] false false with notice := false }) ∧
      parseInstall (2 ^ 511) mine 0x100000 0 true = none) ∧
    (at0.here.priv = false ∧ (at0.extent 2).asid = 0 ∧ (asking { ext2 .blank 0 with asid := 7 }).here.asid ≠ ((asking { ext2 .blank 0 with asid := 7 }).extent 2).asid) ∧
    ((at0.extent 2).st = .blank ∧ (at0.extent 2).wellFormed = true ∧ (at0.extents.all fun k => k.1 == 2) = true ∧ 2 ^ 16 ≤ (at0.extent 2).len) ∧
    ((asking (ext2 .sealed 1)).extent 2).st = .sealed ∧
    ((reg64 fresh 5).toNat = 4096 ∧ (reg64 fresh 3).toNat < 4096 ∧
      ∀ st ∈ [ExtState.blank, .installing, .sealed, .superseded, .retired], ((nectar (ext2 st 0) [] .pctlGo []).extent 2).st = st ∨ st = .retired) ∧
    (sget 2 (gone (.blockErase 2)).installs = some (install2 mine [1] false true)) ∧
    (MemOk (own false (.blockErase 2) 0 [0, 0]) ∧ sget 2 (own false (.blockErase 2) 0 [0, 0]).installs = some (install2 mine [1] false false) ∧
      ((own false (.blockErase 2) 0 [0, 0]).nblock ((own false (.blockErase 2) 0 [0, 0]).physOf 1)).count.toNat < 10000 ∧
      ((((own false (.blockErase 2) 0 [0, 0]).pick 2).2).pick 2).1 = 0 ∧ ((((own false (.blockErase 2) 0 [0, 1]).pick 2).2).pick 2).1 = 1) ∧
    (1 < 131072 ∧ (fresh.spares (1 % 4)).head? = some (2 ^ 16 + 32768)) ∧
    ((own false (.unitProgram 2) 1 []).extent 2).len ≤ 1 * 2 ^ 16 ∧
    (0 * 2 ^ 16 < (past.extent 2).len ∧ (past.pick 2).1 = 0 ∧ 0 ≤ 0 * 2 ^ 16) ∧
    (let t := told (own false (.unitProgram 2) 0 [0])
     t.engineAddr (install2 mine [1] false false).under (0x700000 : W72) .load = (.ok (userLoc 0x700000), t) ∧
       t.engineAddr (install2 mine [1] false false).under (0x70FFC0 : W72) .load = (.ok (userLoc 0x70FFC0), t) ∧
       leafKind (userLoc 0x700000).leaf = 0) ∧
    (told odd).engineAddr (install2 mine [] false false).under (mkVA 0xF0 0) .load = (.bad (BitVec.ofNat 8 0x25), told odd) ∧
    (let s : State := { own false (.blockErase 2) 0 [] with nblocks := [(65536, { count := 10000 })] }
     s.physOf 1 = 65536 ∧ 10000 ≤ (s.nblock 65536).count.toNat ∧ (s.spares 1).head? = some (2 ^ 16 + 32768)) ∧
    (((own true (.installComplete 2) 1 [0]).extent 2).st = .installing ∧ ((own true (.installComplete 2) 1 [0]).pick 2).1 = 0 ∧
      ((own true (.installComplete 2) 1 [1]).pick 2).1 = 1 ∧
      (let t := ((told (own true (.installComplete 2) 1 [0])).pick 2).2
       t.engineLines .installer (install2 mine [1] true false).under false 0x800000 1 = (.val 0 false, t))) ∧
    (sget 4100 ctr.installs = some (install2 (.queue 5 0x200000 0x100000 0) [] false false) ∧
      ctr.engineAddr (install2 (.queue 5 0x200000 0x100000 0) [] false false).under 0x200000 .red = (.ok (userLoc 0x200000), ctr) ∧
      ctr.marked .installer (userLoc 0x200000) 8 = false ∧ ctr.stalled (userLoc 0x200000) = false ∧
      leafKind (userLoc 0x200000).leaf ≠ 3 ∧ ctr.lost = []) ∧
    (((drains id).extent 2).st = .superseded ∧ (drains id).openReads ((drains id).extent 2) = false ∧
      (drains fun c => { c with recs := [rec1 .vec ⟨.glob, 2 ^ 49 + 2 ^ 24, 0, 0, 2, 0⟩] }).openReads (ext2 .superseded 1) = true) ∧
    (line ∈ ((fills .sealed []).hive (stagingHive line)).staging ∧ (fills .sealed []).sealedAt (2 ^ 49 + line * 2 ^ 16) = true ∧
      (fills .retired []).sealedAt (2 ^ 49 + line * 2 ^ 16) = false ∧
      (stagingSet (fills .sealed []).stagingSets line []).length < 16 ∧
      (let s := fills .sealed ((List.range 16).map fun i => line + (i + 1) * (fills .sealed []).stagingSets)
       let same := stagingSet s.stagingSets line (s.hive (stagingHive line)).staged
       16 ≤ same.length ∧ same.getLast? = some (line + 16 * s.stagingSets))) ∧
    ((unread fresh).extWaits 2 = true ∧ fresh.extWaits 2 = false ∧ at0.extWaits 2 = false ∧ past.extWaits 2 = false ∧
      (own true (.installComplete 2) 1 [0]).extWaits 2 = false ∧ (drains id).extWaits 2 = false) := by
  refine ⟨⟨memOk_of ?_, takes_of ?_, ?_, ?_, ?_, ?reaches, released_of ?_⟩, ⟨memOk_of ?_, atHome_of ?_, .inr ?_, ?_⟩, ?_, ?_, ?_,
    ?_, ?_, ?_, ⟨memOk_of ?_, ?_⟩, ?_⟩
  case reaches => unfold Reaches; decide +kernel
  all_goals decide +kernel

/-- A context of core 0 that is at a point of its life. -/
def living (ev : Event) (f : Ctx → Ctx) : State := { memory.modHere f with event := ev }

theorem witness_contextEvents :
    let leaves := memory.modHere fun c => { c with stage := .acted 1, unitid := 0 }
    let waits := (memory.modHere fun c => { c with stage := .acted 1, xfers := 1 })
    let task := ({} : State).modHere fun c => { c with stage := .acted 1, unitid := BitVec.allOnes 64, retRec := some ⟨5, 0, false, 1, 0, 0⟩ }
    let follower : State := (({ leader with sel := (1, 0) } : State).modCtx 0 0 fun c => { c with st := .ready }).modCtx 1 0 fun c =>
      { c with stage := .acted 1, follows := true, group := 1, launch := 1, unitid := 0, st := .ready }
    let clears (l : List ClearReq) := (living (.clearDone 0) fun c => { c with st := .clearing }).modCore 0 fun k => { k with clears := l }
    let traps := living (.trapDelivery 0 0) fun c => { c with st := .ready, asyncs := [(0x71, 5)] }
    let cancels (st : CtxState) := living (.cancelDelivery 0 0) fun c => { c with st := st, asyncs := [(0x61, 0)], unitid := 0 }
    let bars : State := { cancels .parked with waiters := [{ core := 0, cx := 0, key := 0x200000, phase := 1 }] }
    let late (st : CtxState) := { living (.watchdog 0 0) fun c => { c with st := st, wdlim := 1 } with cycle := 2 ^ 16 }
    let counts : State := { system (fun m => m.write 0x200022 1 1) with event := .counterAcknowledged 0 0, groups := [], launches := [] }.modHere
      fun c => { c with st := .retired, launchid := 0x8000 }
    let fill (v : Bool) := living (.remoteFill ⟨0, 0, v, 1, 0, 0⟩ 7 false) fun c => { c with st := .ready, recs := [{ rec1 (.remote false) (own 0) with isV := v }] }
    let saved := (living (.remoteFill ⟨0, 0, false, 1, 9, 0⟩ 7 false) id).modCore 0 fun k => { k with redirects := [⟨9, 0, 0⟩] }
    let turn := living (.remoteFill ⟨0, 0, false, 1, 0, 6⟩ 7 false) fun c =>
      { c with st := .ready, recs := [rec1 (.ld .d true) (inPage 0x40), { rec1 (.remote false) (own 0) with seq := 6 }] }
    (MemOk memory ∧ Takes memory 0 ∧ memory.here.stage = .fresh) ∧
    (Takes leaves 0 ∧ leaves.here.stage = .acted 1 ∧ Released leaves .dev ∧ leaves.here.xfers = 0 ∧ leaves.followersRun leaves.here = false ∧
      leaves.here.follows = false ∧ leaves.here.unitid ≠ BitVec.allOnes 64) ∧
    (waits.here.xfers ≠ 0) ∧
    (Takes task 0 ∧ task.here.unitid = BitVec.allOnes 64 ∧ task.group task.here.group = none ∧ sget task.here.launch task.launches = none ∧
      (task.core 0).inbound = [] ∧ task.flights = []) ∧
    (follower.here.follows = true ∧ (follower.followersOf follower.here).contains follower.sel = true ∧ follower.flights = [] ∧
      (∃ e ∈ follower.cores, ∃ x, x < 7 ∧ (e.1, x) ≠ follower.sel ∧ (follower.ctx e.1 x).st ≠ .free ∧
        (follower.ctx e.1 x).st ≠ .reserved ∧ (follower.ctx e.1 x).group = follower.here.group) ∧
      sget follower.here.launch follower.launches = some launch1 ∧ follower.reached launch1.node = false ∧
      follower.here.orphan = false) ∧
    (let r : ClearReq := { cx := 0, whole := true, done := some 0 }
     let s := clears [r]
     MemOk s ∧ (s.core 0).clears = r :: [] ∧ 0 ≤ s.now ∧ (s.ctx 0 0).st = .clearing ∧
       ∀ z, s.group (s.ctx 0 0).group = some z → z.zeroed ≤ s.now) ∧
    ((traps.ctx 0 0).pending = some (0x71, 5) ∧ (traps.ctx 0 0).st = .ready ∧ (traps.ctx 0 0).stage = .fresh) ∧
    ((0x61, 0) ∈ ((cancels .ready).ctx 0 0).asyncs ∧ ((cancels .ready).ctx 0 0).gang = none ∧ ((cancels .ready).ctx 0 0).unitid ≠ BitVec.allOnes 64 ∧
      (cancels .ready).waiters = [] ∧ bars.waiters = [{ core := 0, cx := 0, key := 0x200000, phase := 1 }] ∧ 0x200000 < 2 ^ 52 ∧
      bars.lost = []) ∧
    (((late .ready).ctx 0 0).wdlim ≠ 0 ∧ 1 * 2 ^ 16 ≤ (late .ready).now - ((late .ready).ctx 0 0).wdStart ∧ ((late .parked).ctx 0 0).priv = false ∧
      ((late .parked).ctx 0 0).stage.given = false ∧ ((late .parked).ctx 0 0).gang = none) ∧
    ((living (.energyRefill 0) id).event = .energyRefill 0) ∧
    (MemOk counts ∧ (counts.ctx 0 0).st = .retired ∧ counts.group (counts.ctx 0 0).group = none ∧ counts.watches = [] ∧ counts.promises = [] ∧
      counts.nodeAddr (counts.ctx 0 0).launchid = some 0x200000 ∧
      (counts.addTrig (counts.ctx 0 0).launchid 1).nodeAddr (counts.ctx 0 0).launchid = some 0x200000 ∧ counts.mem.read 0x200018 8 = 0 ∧
      (counts.ctx 0 0).follows = false ∧ (counts.ctx 0 0).unitid ≠ BitVec.allOnes 64 ∧ counts.flights = [] ∧
      counts.followersRun (counts.ctx 0 0) = false ∧ counts.nodeWaits (counts.ctx 0 0).launchid nodeKinds = false ∧
      (counts.addTrig (counts.ctx 0 0).launchid 1).nodeWaits (counts.ctx 0 0).launchid nodeKinds = false ∧
      (unread counts).nodeWaits (counts.ctx 0 0).launchid nodeKinds = true ∧ counts.lost = [] ∧ (counts.ctx 0 0).recs = [] ∧
      sget (counts.ctx 0 0).launch counts.launches = none) ∧
    (let s := counts.modCtx 0 0 fun c => { c with recs := [rec1 (.amo .add true 1) (inPage 0x40)] }
     (s.ctx 0 0).recs.filter (fun r => r.op.atomic && r.got.isNone) ≠ []) ∧
    (∀ v : Bool, ((fill v).ctx 0 0).generation = 0 ∧ ((fill v).ctx 0 0).st ≠ .free ∧
      ((fill v).ctx 0 0).recs.filter (fun r => r.isV == v && r.reg == 1) = [{ rec1 (.remote false) (own 0) with isV := v }]) ∧
    (((turn.ctx 0 0).recs.filter fun r => r.isV == false && r.reg == 1) =
      [rec1 (.ld .d true) (inPage 0x40), { rec1 (.remote false) (own 0) with seq := 6 }] ∧ (turn.ctx 0 0).st ≠ .free) ∧
    (¬((saved.ctx 0 0).generation = 9) ∧ ∃ r ∈ (saved.core 0).redirects, r.gen = 9 ∧ r.cx = 0) := by
  refine ⟨⟨memOk_of ?_, takes_of ?_, ?_⟩, ⟨takes_of ?_, ?_, released_of ?_, ?_⟩, ?_, ⟨takes_of ?_, ?_⟩, ⟨?_, ?_, ?_, ?shared, ?_⟩,
    ⟨memOk_of ?_, ?_, ?_, ?_, ?zeroed⟩, ?_, ?_, ?_, ?_, ⟨memOk_of ?_, ?_⟩, ?_⟩
  case shared => exact ⟨_, List.mem_of_getElem? (i := 0) rfl, 0, by decide +kernel⟩
  case zeroed => intro z hz; cases hz; decide
  all_goals decide +kernel

/-- The walk of a page for a thread that waits for it, from a root. -/
def walk5 (root : Nat) (page : W72) : Walk := { id := 5, asid := 0, page := page, ptroot := root, core := some 0 }
def walks (root : Nat) (page : W72) (en : Bool) (f : Memory → Memory) : State :=
  { ((system f).modHive 0 fun h => { h with walks := [walk5 root page], fring := if en then 0x500001 else 0 }).modHere fun c =>
      { c with st := .parked, wait := .walk 0 0 page 1 } with event := .pageWalk 0 5 }
/-- Fault record 0 of hive 0 is pending at 0x500000, with a status. -/
def faulted (st : Nat) (ev : Event) : State :=
  { ((system fun m => m.write 0x500018 4 st).modHive 0 fun h =>
      { h with fring := 0x500001, filed := 1, faults := [⟨0, 0, 0x900000, 0x20⟩] }).modHere fun c =>
      { c with st := .parked, wait := .fault 0 0 5 } with event := ev }

theorem witness_pagingEvents :
    let a := walks 0x100000 0x30000 false id
    let m := walks 0x100000 (mkVA 1 0) false fun m => m.write 0x100010 16 (3 + 2 ^ 64)
    let n := walks 0x100000 (mkVA 2 0) false id
    let nEn := walks 0x100000 (mkVA 2 0) true id
    let none_ := { n with cores := [] }
    let bad := walks (3 * 2 ^ 48) 0 false id
    let u := system id
    let busy : State := { u with flights := [flightOf (writing (.ared .add true 1) true true [])], seq := 5 }
    let eph (d : Nat) : State := { system id with ephem := [(5, { deadline := d, before := d, wrote := 0 })], event := .ephemeralExpire 5, cycle := 9 }
    let sw : SampFill := { loc := userLoc 0x200040, core := 0, cx := 0, seq := 3 }
    let samp : State := { (system id).modComb 0 fun c => { c with sampWait := [sw] } with event := .samplerFill 0 (0x200040 / 64) }
    -- an earlier store of the thread to the line is under way
    let behind : State := { samp with flights := [{ id := 2, by_ := .thread 0 0, loc := userLoc 0x200040, len := 8, op := .bytes [] [] }] }
    (0x100000 < 2 ^ 52 ∧ (BitVec.ofNat 128 (u.mem.read (0x100000 + 2 * 16) 16)).getLsbD 0 = false ∧
      (BitVec.ofNat 128 (u.mem.read 0x100000 16)).getLsbD 0 = true ∧ u.malformedEntry (BitVec.ofNat 128 (u.mem.read 0x100000 16)) 0 = false ∧
      m.malformedEntry (BitVec.ofNat 128 (m.mem.read 0x100010 16)) 0 = true ∧ 8 ≤ 2 ^ 51 / 2 ^ 48) ∧
    (MemOk a ∧ (a.hive 0).walks.findIdx? (fun w => w.id == 5) = some 0 ∧ a.walkWaits 0x30000 0x100000 = false ∧
      a.walkFrom 0x30000 0x100000 5 = .leaf 2 bigLeaf ∧ a.walkWaiters 0 0 0x30000 = [(0, 0, 0x30000, 1)] ∧
      (a.hive 0).prefetches = [] ∧ ((a.modHive 0 fun v => { v with walks := [{ walk5 0x100000 0x30000 with engine := true }] }).hive 0).walks ≠ []) ∧
    (m.walkFrom (mkVA 1 0) 0x100000 5 = .malformed ∧ m.walkWaits (mkVA 1 0) 0x100000 = false) ∧
    (n.walkFrom (mkVA 2 0) 0x100000 5 = .invalid 0 ∧ n.walkWaits (mkVA 2 0) 0x100000 = false ∧ n.walkWaiters 0 0 (mkVA 2 0) = [(0, 0, mkVA 2 0, 1)] ∧
      none_.walkWaiters 0 0 (mkVA 2 0) = []) ∧
    (let left := n.modHive 0 fun v => { v with walks := [] }; left.fileFault 0 0 (mkVA 2 0) 0x20 1 0 = (.now, left)) ∧
    (((nEn.modHive 0 fun v => { v with walks := [] }).fileFault 0 0 (mkVA 2 0) 0x20 1 0).1 = .record 0) ∧
    (bad.walkFrom 0 (3 * 2 ^ 48) 5 = .noPhys ∧ bad.walkWaits 0 (3 * 2 ^ 48) = false) ∧
    ((nEn.hive 0).fring.getLsbD 0 = true ∧ (nEn.hive 0).faults = [] ∧ nEn.faultSlot 0 0 = some 0x500000 ∧ nEn.nring.getLsbD 0 = false ∧
      nEn.lost = []) ∧
    (∀ st ∈ [0, 1, 2], let s := faulted st (.faultRetry 0 0)
      (s.hive 0).faults.find? (fun f => f.num % 256 == 0) = some ⟨0, 0, 0x900000, 0x20⟩ ∧ s.faultSlot 0 0 = some 0x500000 ∧
        s.mem.read 0x500018 4 = st ∧ (s.ctx 0 0).wait = .fault 0 0 5) ∧
    (Takes u 0 ∧ u.here.stage = .fresh ∧ poisS u 4 = true ∧ poisS u 2 = false ∧ Released u .sys ∧ ¬Released busy .sys) ∧
    (sget 5 (eph 9).ephem = some { deadline := 9, before := 9, wrote := 0 } ∧ 9 ≤ (eph 9).now ∧ (eph 10).now < 10) ∧
    ((samp.comb 0).sampWait = [sw] ∧ samp.stalled (userLoc 0x200040) = false ∧ samp.flights = [] ∧
      samp.behind sw.core sw.cx sw.seq (userLoc 0x200040) 64 = false ∧ samp.shadowed sw.core sw.seq (userLoc 0x200040) 64 = false ∧
      PlainPlace samp (userLoc 0x200040) ∧ samp.mem.poisoned 0x200040 64 = false ∧ samp.degradedAt (userLoc 0x200040) = false ∧
      sw.upto = none) ∧
    ((behind.comb 0).sampWait = [sw] ∧ behind.behind sw.core sw.cx sw.seq (userLoc 0x200040) 64 = true) ∧
    -- a record that the driver has declined is joined no more
    (let s := faulted 2 (.faultDecline 0 0)
     s.faultSlot 0 0 = some 0x500000 ∧ (s.mem.read 0x500018 4 == 0) = false ∧
       ∃ k ∈ s.cores, k.1 = 0 ∧ (s.ctx 0 0).wait = .fault 0 0 5) := by
  refine ⟨?_, ⟨memOk_of ?_, ?_⟩, ?_, ?_, ?_, ?_, ?_, ?_, ?_, ⟨takes_of ?_, ?_, ?_, ?_, released_of ?_, ?busy⟩, ?_,
    ⟨?_, ?_, ?_, ?_, ?_, .inr ?_, ?_⟩, ?_⟩
  case busy => unfold Released; decide +kernel
  all_goals decide +kernel

/-! Queues, launches, pre-emption, devices, starts, steps. -/

theorem packet_one {s : State} {q x : Nat} {k : Queue} {h : QHead}
    (hr : s.engineRead (.queue (q / 32)) (h.under q k) (h.slot h.head) 64 true = (.val x false, s)) (hx : field x 1 1 % 4 = 0)
    (go : State → Pkt → Outcome) : s.packet q k h go = go s { q := q, k := k, h := h, w := x, slots := 1 } := by
  simp [State.packet, State.packetRead, Pkt.me, Pkt.under, hr, hx, State.slotsRead]

set_option exponentiation.threshold 600 in
theorem packet_two {s : State} {q x y : Nat} {k : Queue} {h : QHead}
    (hr : s.engineRead (.queue (q / 32)) (h.under q k) (h.slot h.head) 64 true = (.val x false, s)) (hx : field x 1 1 % 4 = 1)
    (hy : s.engineRead (.queue (q / 32)) (h.under q k) (h.slot (h.head + 1)) 64 true = (.val y false, s))
    (go : State → Pkt → Outcome) :
    s.packet q k h go = go s { q := q, k := k, h := h, w := x + y * 2 ^ 512, slots := 2 } := by
  simp [State.packet, State.packetRead, Pkt.me, Pkt.under, hr, hx, hy, State.slotsRead]

/-- Queue 5, Parsing, with a packet of one or two slots at its head. -/
def served (x y : Nat) (w : QWait) (f : Memory → Memory) (e : Event) : State :=
  { queued fun m => f (((m.write 0x400000 64 x).write 0x400040 64 y).write 0x300018 8 2) with
    queues := [(5, { queue5 with wait := w })], event := e }
def pkt (x y slots : Nat) (w : QWait) : Pkt :=
  { q := 5, k := { queue5 with wait := w }, h := head5 1 0 2, w := x + y * 2 ^ 512, slots := slots }

/-- The packet is at the head of the queue that its engine serves, and is read as it stands. -/
def atHead (s : State) (x y slots : Nat) (w : QWait) (ty : Nat) (good : Pkt → Bool) : Bool :=
  decide (s.qhead 5 = some ({ queue5 with wait := w }, head5 1 0 2) ∧ s.mem.wf = true ∧
    (w = .none → s.queueReady 5 = true ∧ s.bestQueue 0 = some 5) ∧ s.engineBusy 5 = false ∧
    s.engineRead (.queue 0) ((head5 1 0 2).under 5 { queue5 with wait := w }) ((head5 1 0 2).slot 0) 64 true = (.val x false, s) ∧
    s.engineRead (.queue 0) ((head5 1 0 2).under 5 { queue5 with wait := w }) ((head5 1 0 2).slot 1) 64 true = (.val y false, s) ∧
    field x 1 1 % 4 + 1 = slots ∧ x % 256 = ty) && good (pkt x (if slots = 1 then 0 else y) slots w)

/-- SIGNAL of 7 to 0x200000, and its addition. -/
def signal (add : Nat) : Nat := 3 + 2 ^ 16 * add + 2 ^ 64 * 0x200000 + 2 ^ 192 * 7
def copyP : Nat := 4 + 2 ^ 64 * 0x200000 + 2 ^ 192 * 0x600000 + 2 ^ 192 * 2 ^ 128 * 64
def installP : Nat := 5 + 2 ^ 8
def installR : Nat := 2 + 2 ^ 64 * 0x700000 + 2 ^ 128 * 2 ^ 16
def marker (args : Nat) : Nat := 6 + 2 ^ 16 * args + 2 ^ 64 * 0x30000
def cancelP : Nat := 7 + 2 ^ 64 * 0x8000
/-- FENCE: the eight bytes at 0x200000 are at least v. -/
def fenceP : Nat := 2 + 2 ^ 8 + 2 ^ 16
def fenceC (v : Nat) : Nat := 0x200000 + 2 ^ 72 * v
/-- LAUNCH of kernel 0: one unit, under node 0x8000 at 0x200000. -/
def launchP : Nat := 1 + 2 ^ 8 + 2 ^ (8 * 11) + 2 ^ (8 * 12) * 4 + 2 ^ 128 + 2 ^ 192 + 2 ^ 192 * 2 ^ 128 * 0x8000
def launchM (m : Memory) : Memory :=
  (((m.write 0x200010 8 1).write 0x200022 1 1).write 0x900008 8 0xA00000).write 0x90001B 2 (1 + 256 * 1) |>.write 0x900028 8 0x100000
    |>.write 0x900038 8 0xB00000 |>.write 0xA00000 8 0x100

theorem witness_queuePackets :
    let ran1 (x : Nat) (e : Event) : State := served x 0 .none id e
    let ext := { served installP installR .none id (.installPacket 5) with extents := [(2, ext2 .blank 0)], etab := 0x900000 }
    let reg (l : Nat) : State := { system fun m => m.write 0x300009 2 (l + 256 * 5) with event := .qhdr 0x300005 }
    let s1 := ran1 (signal 0) (.signalPacket 5)
    let lp : State := { served launchP 0 .none launchM (.launchPacket 5) with ktab := 0x900000 }
    let fen (v : Nat) (w : QWait) (e : Event) : State := served fenceP (fenceC v) w id e
    (MemOk (reg 4) ∧ (reg 4).sysAddr 0 0x300000 = some 0x300000 ∧ (unread (reg 4)).sysWaits 0 0x300000 = true ∧ (reg 4).lost = [] ∧ (reg 4).mem.poisoned 0x300000 64 = false ∧ (reg 4).mem.read 0x30000A 1 = 5 ∧
      (reg 4).mem.read 0x300009 1 = 4 ∧ (reg 16).mem.read 0x300009 1 = 16 ∧ (reg 4).mem.read 0x30000D 3 = 0 ∧ (reg 4).mem.read 0x30002A 22 = 0) ∧
    ((reg 17).mem.read 0x300009 1 = 17 ∧ (reg 17).nring.getLsbD 0 = false) ∧
    (queued id).qhead 5 = some (queue5, head5 1 0 0) ∧
    (atHead s1 (signal 0) 0 1 .none 3 Pkt.signalGood = true ∧
      (let v := s1.serveQueue 5
       v.engineAddr ((head5 1 0 2).under 5 queue5) (field72 (signal 0) 8) .store = (.ok (userLoc 0x200000), v) ∧
       v.engineAddr ((head5 1 0 2).under 5 queue5) (field72 (signal 1) 8) .red = (.ok (userLoc 0x200000), v))) ∧
    (atHead (ran1 (signal 1) (.signalPacket 5)) (signal 1) 0 1 .none 3 Pkt.signalGood = true ∧ field (signal 1) 2 2 = 1) ∧
    (atHead (served (signal 0) 0 .advance id (.signalPacket 5)) (signal 0) 0 1 .advance 3 Pkt.signalGood = true ∧ s1.flights = []) ∧
    atHead (ran1 copyP (.copyPacket 5)) copyP 0 1 .none 4 Pkt.copyGood = true ∧
    (atHead ext installP installR 2 .none 5 Pkt.installGood = true ∧ ext.extWaits 2 = false ∧
      (((ext.serveQueue 5).sysTold 0 (ext.extVA 2)).offerInstall 2 (install2 (.queue 5 0 0x100000 0) [] false false)).1 = 1) ∧
    (atHead (ran1 (marker 0) (.markerPacket 5)) (marker 0) 0 1 .none 6 Pkt.markerGood = true ∧
      atHead (ran1 (marker 3) (.markerPacket 5)) (marker 3) 0 1 .none 6 Pkt.markerGood = true ∧ field (marker 3) 2 2 % 2 = 1) ∧
    (let w := QWait.marker 0 1 0 0x30000
     atHead (served (marker 1) 0 w id (.markerPacket 5)) (marker 1) 0 1 w 6 Pkt.markerGood = true ∧
      (served (marker 1) 0 w id (.markerPacket 5)).tlbQuiet 0 1 0 0x30000 = true) ∧
    (let s := served cancelP 0 .none (fun m => m.write 0x200022 1 1) (.cancelPacket 5)
     atHead s cancelP 0 1 .none 7 Pkt.cancelGood = true ∧ s.nodeAddr 0x8000 = some 0x200000 ∧ s.mem.read 0x200022 1 = 1 ∧
       (let v := s.serveQueue 5
        (v.engineRead (.queue 0) (sysUnder 5 queue5) (mkVA 0x80 0x200000) 64 true).2 = v ∧ v.cancelWaits = false ∧
          v.ownWaits 0x8000 = false ∧ v.nodeAddr 0x8000 = some 0x200000) ∧
       (let b := (blockedAt 0x200000 s).serveQueue 5; b.cancelWaits = false ∧ b.ownWaits 0x8000 = true)) ∧
    (let s := fen 0 .none (.fencePacket 5)
     atHead s fenceP (fenceC 0) 2 .none 2 Pkt.fenceGood = true ∧
       (let v := s.serveQueue 5
        v.fencePass (pkt fenceP (fenceC 0) 2 .none) true (pkt fenceP (fenceC 0) 2 .none).conds = (.done true, v))) ∧
    (let s := (fen 1 .none (.fencePacket 5)).serveQueue 5
     s.fencePass (pkt fenceP (fenceC 1) 2 .none) true (pkt fenceP (fenceC 1) 2 .none).conds = (.done false, s)) ∧
    (let s := fen 1 (.fence 0) (.fencePass 5)
     atHead s fenceP (fenceC 1) 2 (.fence 0) 2 Pkt.fenceGood = true ∧
       s.fencePass (pkt fenceP (fenceC 1) 2 (.fence 0)) true (pkt fenceP (fenceC 1) 2 (.fence 0)).conds = (.done false, s) ∧
       (pkt fenceP (fenceC 1) 2 (.fence 0)).w % 256 = 2) ∧
    (let s := fen 0 (.fence 0) (.fencePass 5)
     s.fencePass (pkt fenceP (fenceC 0) 2 (.fence 0)) true (pkt fenceP (fenceC 0) 2 (.fence 0)).conds = (.done true, s)) ∧
    (atHead lp launchP 0 2 .none 1 Pkt.launchGood = true ∧ (pkt launchP 0 2 .none).preds = []) ∧
    (let rd (va : W72) (n : Nat) : Nat := match (lp.serveQueue 5).engineRead (.queue 0) (sysUnder 5 queue5) va n true with | (.val x _, _) => x | _ => 0
     let d := rd (mkVA 0x80 0x900000) 64
     let x := rd (mkVA 0x80 0x200000) 64
     field d 0x1B 1 = 1 ∧ field d 0x1C 1 = 1 ∧ field d 0x38 8 = 0xB00000 ∧ 0xB00000 % 32 = 0 ∧ field x 0x22 1 = 1 ∧ field x 0 16 = 0 ∧
       field x 0x10 8 = field launchP 16 8 ∧ field x 0x18 8 = 0 ∧ field x 0x20 2 = field d 0x20 2 ∧
       field (rd (mkVA 0x80 0xB00000) 32) 0x1A 6 = 0 ∧ field72 launchP 64 = 0) ∧
    (atHead (ran1 9 (.launchPacket 5)) 9 0 1 .none 9 (fun _ => true) = true ∧ (ran1 9 (.launchPacket 5)).nring.getLsbD 0 = false) ∧
    -- structures on a page of which the engines of hive 0 hold no translation, and a marked entry of the kernel table
    (let ext1 := { served installP installR .none id (.installPacket 5) with extents := [(2, ext2 .blank 0)], etab := 0x20000900000 }
     let kernelAt (s : State) : W64 := s.ktab + BitVec.ofNat 64 (64 * (pkt launchP 0 2 .none).args)
     let far : State := { lp with ktab := 0x20000900000 }
     let held := blockedAt 0x900000 lp
     atHead ext1 installP installR 2 .none 5 Pkt.installGood = true ∧ ext1.extWaits 2 = true ∧
       (lp.sysWaits 0 (kernelAt lp) = false ∧ (lp.sysAddr 0 (kernelAt lp)).any lp.recordWaits = false ∧
        far.sysWaits 0 (kernelAt far) = true ∧ held.sysWaits 0 (kernelAt held) = false ∧
        (held.sysAddr 0 (kernelAt held)).any held.recordWaits = true) ∧
       (let c (n : BitVec 58) : State := { served cancelP 0 .none (fun m => m.write 0x200022 1 1) (.cancelPacket 5) with
          launches := [(1, { launch1 with node := n })] }
        let v := (c 0x800008000).serveQueue 5
        (c 0x8000).cancelWaits = false ∧ v.cancelWaits = true ∧
          atHead (c 0x800008000) cancelP 0 1 .none 7 Pkt.cancelGood = true ∧ field (v.mem.read 0x200000 64) 0x22 1 = 1 ∧
          (v.engineRead (.queue 0) (sysUnder 5 queue5) (mkVA 0x80 0x200000) 64 true).2 = v)) ∧
    -- the driver pauses the queue while its engine has a packet in hand
    (let k : Queue := { queue5 with taken := true }
     let s : State := { served (marker 0) 0 .none (fun m => m.write 0x30000C 1 3) (.markerPacket 5) with queues := [(5, k)] }
     s.qhead 5 = some (k, head5 3 0 2) ∧ k.inHand = true ∧ s.queueReady 5 = false ∧
       s.engineRead (.queue 0) ((head5 3 0 2).under 5 k) ((head5 3 0 2).slot 0) 64 true = (.val (marker 0) false, s)) := by
  refine ⟨⟨memOk_of ?_, ?_⟩, ?_⟩
  on_goal 3 => repeat' apply And.intro
  all_goals decide +kernel

/-- The packets that `witness_queuePackets` places are read as they stand. -/
theorem witness_queuePackets_read (go : State → Pkt → Outcome) :
    let s := served (signal 0) 0 .none id (.signalPacket 5)
    let t := served fenceP (fenceC 0) .none id (.fencePacket 5)
    s.packet 5 queue5 (head5 1 0 2) go = go s { q := 5, k := queue5, h := head5 1 0 2, w := signal 0, slots := 1 } ∧
    t.packet 5 queue5 (head5 1 0 2) go = go t (pkt fenceP (fenceC 0) 2 .none) :=
  ⟨packet_one (by decide +kernel) (by decide +kernel) go,
    packet_two (by decide +kernel) (by decide +kernel) (by decide +kernel) go⟩

/-- A launch of one unit that is to start, or to be admitted to comb 1, die 1 being the least allowed, on die 0's comb 33. -/
def toAdmit (l : Launch) (e : Event) : State :=
  { system fun m => (m.write 0x200010 8 1).write 0x200008 8 1 with groups := [], cores := [], launches := [(1, l)], drawn := [], event := e }
def launch2 : Launch := { launch1 with started := false, next := 0, template := 0, gw := 1 }

/-- A comb image at 0x2000000 of one core with one thread. -/
def image1 : Image :=
  { at_ := 0x2000000, comb := 0, cores := [(0, { ctxs := (Vector.replicate 8 ({} : Ctx)).set 0 { st := .ready, launch := 1 } })],
    rest := {}, groups := [], mem := {}, whole := [0] }
def halting (pctl : BitVec 4) (halt saving : List Nat) (e : Event) : State :=
  { system id with
    groups := [], cores := [], launches := [], drawn := [], pctl := pctl, halt := halt, saving := saving, psave := 0x2000000, pcomb0 := 1,
    event := e }
/-- A page of which the engines of hive 0 hold no translation. -/
def farVA : W64 := 0x20000000000

theorem witness_launchStart :
    let pred (c : Nat) : State := { toAdmit { launch2 with preds := [0x8000], early := true } (.launchStart 1) with
      mem := (toAdmit launch2 (.launchStart 1)).mem.write 0x200023 1 c }
    let late : State := toAdmit { launch2 with preds := [0x8000] } (.launchStart 1)
    let first (s : State) (l : List (Nat × W64)) := l.find? fun v => s.sysWaits v.1 v.2
    let told (s : State) (l : List (Nat × W64)) : State := l.foldl (fun s v => s.sysTold v.1 v.2) s
    let records : List (Nat × W64) := [(0, 0x200000)]
    let far (l : Launch) : State := { pred 1 with launches := [(1, l)] }
    ((pred 0).nodeAddr 0x8000 = some 0x200000) ∧
    ((pred 0).predReady true 0x8000 = some (true, false) ∧ (pred 1).predReady true 0x8000 = some (true, true) ∧
      late.predReady false 0x8000 = some (false, false)) ∧
    (first (pred 0) records = none ∧ first (pred 0) [(0, farVA)] = some (0, farVA)) ∧
    ((told (pred 0) records).ownWaits 0x8000 = false ∧ (told (blockedAt 0x200000 (pred 0)) records).ownWaits 0x8000 = true) ∧
    ((told (pred 1) records).cancelWaits = false ∧
      (told (far { launch2 with preds := [0x8000], early := true, node := 0x800008000 }) records).cancelWaits = true) := by decide +kernel

theorem witness_groupAdmit :
    let adm : State := { toAdmit { launch2 with started := true } (.groupAdmit 1 33) with drawn := [2] }
    let h := (adm.pick 16).2
    (sget 1 adm.launches = some { launch2 with started := true } ∧ 0 < 1 ∧ 33 < 128 ∧
      33 / 32 ∈ ({ launch2 with started := true } : Launch).dieSet 2 (33 / 32) ∧
      ({ launch2 with started := true } : Launch).groupSize ≤ (adm.unitSlots 1 { launch2 with started := true } 33).length ∧
      adm.combHas { launch2 with started := true } 33 = true ∧
      h.bankWords { launch2 with started := true } 33 = (.words [], h)) ∧
    (0 / 32 ∉ ({ launch2 with started := true } : Launch).dieSet 2 (0 / 32)) := by decide +kernel

theorem witness_preemption :
    let wrote (s : State) : State := { s with flights := [flightOf (writing (.ared .add true 1) true true [])] }
    let first (s : State) (l : List (Nat × W64)) := l.find? fun v => s.sysWaits v.1 v.2
    ((halting 0 [] [] .pctlGo).pctl.getLsbD 0 = false ∧ (halting 1 [] [] .pctlGo).pctl.getLsbD 0 = true) ∧
    (let s := halting 1 [0] [0] .preemptHalt
     s.pctl.getLsbD 0 = true ∧ s.pctl.getLsbD 1 = false ∧ ∀ c ∈ s.halt, ∀ k ∈ combCores c, s.coreHalted k = true) ∧
    (let s := wrote (halting 1 [0] [0] .preemptHalt)
     ¬ ∀ c ∈ s.halt, ∀ k ∈ combCores c, s.coreHalted k = true) ∧
    ((halting 3 [0] [] .preemptSave).saving = [] ∧ (halting 3 [0] [] .preemptSave).pctl.getLsbD 1 = true) ∧
    (let s := halting 3 [0] [0] .preemptSave
     let base := s.psave + BitVec.ofNat 64 (0 * 2 ^ 25)
     s.saving = 0 :: [] ∧ s.canSave 0 = true ∧ first s (imageNeeds base []) = none ∧ s.imageMapped base [] = true ∧ s.unsaved 0 = [] ∧
       ((combCores 0).filter s.writtenWhole) = [] ∧
       (imageParts []).all fun p => (s.imageAddr base p.1).all fun b => b + p.2 ≤ 2 ^ 52) ∧
    ((wrote (halting 3 [0] [0] .preemptSave)).canSave 0 = false) ∧
    (let s := { halting 3 [0] [0] .preemptSave with psave := farVA }
     (first s (imageNeeds (s.psave + BitVec.ofNat 64 (0 * 2 ^ 25)) [])).isSome = true) := by
  repeat' apply And.intro
  all_goals decide +kernel

/-- A core with a thread is written whole, and its parts lie in memory. -/
theorem witness_preemptSave_whole :
    let s : State := { halting 3 [0] [0] .preemptSave with cores := [(0, { ctxs := (Vector.replicate 8 ({} : Ctx)).set 0 { st := .ready, launch := 1 } })] }
    let base := s.psave + BitVec.ofNat 64 (0 * 2 ^ 25)
    s.canSave 0 = true ∧ ((combCores 0).filter s.writtenWhole) = [0] ∧ (imageNeeds base [0]).all (fun v => !s.sysWaits v.1 v.2) = true ∧
      s.imageMapped base [0] = true ∧
      (imageParts [0] ++ [0].flatMap (fun k => (List.range 8).map (fun x => (slotsAt k + x * 2048, 64)) ++
        (List.range 4).map fun p => (scratchAt k p, 2 ^ 16))).all (fun p => (s.imageAddr base p.1).all fun b => b + p.2 ≤ 2 ^ 52) = true := by
  repeat' apply And.intro
  all_goals decide +kernel

theorem witness_restore :
    let rest (gs : Sparse Group) (hl : List Nat) : State :=
      { halting 0 hl [] (.prest 0x2000000) with images := [(7, image1)], groups := gs }
    let first (s : State) (l : List (Nat × W64)) := l.find? fun v => s.sysWaits v.1 v.2
    ((rest [] []).imageAt 0x2000000 = some (7, image1) ∧ first (rest [] []) ((rest [] []).restoreNeeds 0x2000000) = none ∧
      (∀ x, x < 8 → ((rest [] []).ctx 0 x).st = .free)) ∧
    ((∃ e ∈ (rest [(1, group1)] []).groups, e.2.comb = image1.comb) ∧ image1.comb ∈ (rest [] [0]).halt) ∧
    ((first (rest [] []) ((rest [] []).restoreNeeds farVA)).isSome = true) ∧
    -- memory that does not hold what the image names
    (let s : State := { rest [] [] with images := [(7, { image1 with heads := [(0, 1)] })] }
     s.imageAt 0x2000000 = none ∧ first s (s.restoreNeeds 0x2000000) = none) ∧
    (let s := rest [] []
     s.imageMapped 0x2000000 [0] = true ∧ (s.comb (combOf 0)).samp = [] ∧
       (∀ e ∈ s.scratchPages 0x2000000 [0], e.2 + 2 ^ 16 ≤ 2 ^ 52)) ∧
    -- an access to a page of the image has been refused
    (let t : State := { rest [] [] with hive0 := {}, sysBad := ((rest [] []).restoreNeeds 0x2000000).map fun v => (v.1, pageKey (mkVA 0x80 v.2)) }
     t.imageAt 0x2000000 = some (7, image1) ∧ t.imageMapped 0x2000000 [0] = false ∧ first t (t.restoreNeeds 0x2000000) = none) := by
  repeat' apply And.intro
  all_goals decide +kernel

/-- Output 0's block at 0xC00000, with a surface of 64 by 64 pixels of sequence number 1. -/
def shows (e : Event) (f : Memory → Memory) : State :=
  { system fun m => f (((m.write 0xC00000 16 (0xD00000 + 2 ^ 96 * 256)).write 0xC00010 4 (64 + 2 ^ 16 * 64)).write 0xC00018 8 1) with
    dtab := 0xC00000, event := e }

def up : State := { system id with hlink := 0x601, event := .hostWrite 0x200000 [1, 2] }
def hostLoc : Loc := ⟨.glob, 0x4000000000000, 0, 0, 4, 0⟩
/-- The thread with records and writes under way to host memory. -/
def times (recs : List Rec) (fs : List Flight) : State :=
  { memory.modHere fun c => { c with recs := recs } with flights := fs, event := .hostCompletionTimeout 0 0 }
def hostRec : Rec := rec1 (.ld .d true) hostLoc
def hostWrites : Flight := { id := 1, by_ := .thread 0 0, loc := hostLoc, len := 8, op := .bytes [] [] }

theorem witness_deviceEvents :
    (MemOk up ∧ up.hostReaches 0x200000 2 = true ∧ up.hostReaches (3 * 2 ^ 48) 2 = false) ∧
    (let load := times [hostRec] []
     let write := times [] [hostWrites]
     let fill : SampFill := { core := 0, cx := 0, loc := hostLoc, seq := 0 }
     let samp := times [] [] |>.modComb 0 fun c => { c with sampWait := [fill] }
     hostRec.open_ = true ∧ hostRec.locs.any Loc.atHost = true ∧ hostWrites.loc.atHost = true ∧ hostWrites.by_ ≠ .host ∧
       load.lateOnes 0 0 = [.load hostRec] ∧ write.lateOnes 0 0 = [.flight hostWrites] ∧ samp.lateOnes 0 0 = [.sample fill] ∧
       (times [] []).lateOnes 0 0 = [] ∧ (load.pick 1).1 = 0 ∧ (write.pick 1).1 = 0 ∧ (samp.pick 1).1 = 0) ∧
    (({} : State).boot = 0 ∧ ({} : State).replaying ≠ [] ∧ ({ up with boot := 0 } : State).replaying = []) ∧
    (refillCycle ({ up with cycle := 0 } : State).now = true ∧ refillCycle ({ up with cycle := 1 } : State).now = false) ∧
    ((∀ y ∈ ([2000] ++ [1651] : List W16), 11 * (1500 : W16).toNat < 10 * y.toNat) ∧ 100 ≤ 98 + 2) ∧
    (∀ y ∈ ([] ++ [1650] : List W16), 10 * y.toNat ≤ 11 * (1500 : W16).toNat) ∧
    ((∀ y ∈ ([] ++ [1500] : List W16), y.toNat ≤ (1500 : W16).toNat) ∧ 1000 ≤ 999 + 1) ∧
    (∀ y ∈ ([] ++ [1501] : List W16), (1500 : W16).toNat < y.toNat) := by
  refine ⟨⟨memOk_of ?_, ?_⟩, ?_, ?_, ?_, by simp, by simp, by simp, by simp⟩
  on_goal 2 => constructor
  on_goal 4 => repeat' apply And.intro
  all_goals decide +kernel

/-- The clauses on an output: its latch, its blank, its link. -/
theorem witness_deviceEvents_outputs :
    let block : Loc := ⟨.glob, 0xC00000, 0, 0, 4, 0⟩
    let byte : Loc := ⟨.glob, 0xC00060, 0, 0, 4, 0⟩
    let sf (va : W72) : Surface := { va := va, format := 0, stride := 256, width := 64, height := 64, ptroot := 0x100000, asid := 0 }
    let latch := shows (.frameLatch 0) id
    -- the block, and a surface, on pages of which the engines of hive 1 hold no translation
    let far : State := { latch with dtab := farVA }
    let follows (m : Memory → Memory) : State :=
      ({ latch with mem := (m latch.mem).write 0xC00070 8 0x100000 } : State).setOut 0 { st := 1 }
    (latch.sysWaits 1 (latch.outVA 0) = false ∧ latch.outBlock 0 = some 0xC00000 ∧ latch.marked .display block 128 = false ∧
      latch.stalled block = false ∧ BitVec.ofNat 64 (latch.mem.read 0xC00018 8) ≠ (latch.out 0).latched ∧ latch.lost = [] ∧
      ((latch.readSurface 0xC00000).map fun x => (x.width, (latch.fitsOutput 0 x).1 matches .ok _)) = some (64, true)) ∧
    ((shows (.frameLatch 0) fun m => m.write 0xC00009 1 2).readSurface 0xC00000 = none) ∧
    (let s := follows fun m => m.write 0xC00000 8 0x20000000000
     (s.readSurface 0xC00000).any (fun x => (s.fitsOutput 0 x).1 matches .wait _) = true) ∧
    (let s := follows id
     s.readSurface 0xC00000 = some (sf 0xD00000) ∧ (s.out 0).st = 1 ∧ ((s.fitsOutput 0 (sf 0xD00000)).1 matches .bad _) = true) ∧
    ((blockedAt 0xC00000 latch).marked .display block 128 = true ∧ ({ latch with replaying := [0, 1, 2, 3, 4, 5] } : State).stalled block = true) ∧
    (let o : Output := { hseq := some 5, surf := some (sf 0) }
     o.hseq.all (· < (6 : W64)) = true ∧ o.hseq.all (· < (5 : W64)) = false) ∧
    (let s := shows (.verticalBlank 0) id
     s.marked .display byte 4 = false ∧ s.stalled byte = false ∧ s.lost = [] ∧ s.sysWaits 1 (s.outVA 0) = false ∧
       s.outBlock 0 = some 0xC00000 ∧ s.mem.read 0xC00061 1 = 0) ∧
    (∀ k ∈ [1, 2, 3, 4], (shows (.verticalBlank 0) fun m => m.write 0xC00061 1 k).mem.read 0xC00061 1 = k) ∧
    ((shows (.verticalBlank 0) id).setOut 0 { st := 1 }).outBlock 0 = some 0xC00000 ∧
    ((({} : State).setOut 0 { want := true }).out 0).want = true ∧ ((({} : State).setOut 0 { st := 3 }).out 0).st = 3 ∧
    (far.sysWaits 1 (far.outVA 0) = true) := by
  repeat' apply And.intro
  all_goals decide +kernel

theorem witness_deviceEvents_memory : MemOk (shows (.frameLatch 0) id) := memOk_of (by decide +kernel)

theorem witness_bringUp :
    let st (d : List Nat) : State := { memory with event := .start 0, drawn := d }
    let deg : State := { memory with degraded := [3], event := .spareTakeover 3 }
    let stage : State := { (memory.modHive (stagingHive 5) fun h => { h with staging := [5] }).modHere fun c =>
      { c with st := .parked, wait := .staging 5 } with event := .machineCheck (.nectar 5) }
    let fail : State := { memory.modHere fun c => { c with st := .ready } with event := .coreFailure 0 }
    let used := fail.modComb 0 fun c => { c with spareUsed := true }
    (MemOk (st [0]) ∧ ((st [0]).pick 2).1 = 0 ∧ ((st [1]).pick 2).1 = 1 ∧ (st [0]).extents = []) ∧
    (({} : State).mayDorm = true ∧ memory.mayDorm = false) ∧
    ((st [0]).pick 385).1 = 0 ∧ (3 ∈ deg.degraded ∧ 4 ∉ deg.degraded ∧ 4 < 2304 ∧ deg.nring.getLsbD 0 = false) ∧
    ((fail.ctx 0 0).st = .ready ∧ (fail.ctx 0 1).st = .free) ∧ (0x200000 / 2 ^ 48 < 2) ∧
    (5 ∈ (stage.hive (stagingHive 5)).staging ∧ (0, stage.core 0) ∈ stage.cores ∧ (stage.ctx 0 0).st = .parked ∧ (stage.ctx 0 0).wait = .staging 5) ∧
    ((∃ g ∈ fail.groups, g.1 = (fail.ctx 0 0).group ∧ g.2.comb = combOf 0 ∧ g.2.cores.getLsbD (0 % 16) = true) ∧
      (fail.comb (combOf 0)).spareUsed = false ∧ (used.comb (combOf 0)).spareUsed = true) ∧
    -- a stack with a spare left and one with none
    (let spent : State := { deg with sparesUsed := List.replicate 16 (stackOfSlice 3) }
     deg.spareLeft 3 = true ∧ 3 ∉ deg.bringing ∧ 3 ∈ spent.degraded ∧ 3 ∉ spent.bringing ∧ spent.spareLeft 3 = false ∧
       spent.spareLeft 4 = false ∧ 3 ∈ ({ deg with bringing := [3] } : State).bringing) ∧
    -- a replay of stack 0 that finds slice 5 degraded, and draws no other
    (let s : State := { memory with event := .repairReplayEnd 0 [5], drawn := [0], replaying := [0, 1] }
     stackOfSlice 5 = 0 ∧ 5 ∉ s.degraded ∧ s.nring.getLsbD 0 = false ∧ (s.pick 385).1 = 0) ∧
    -- an install that a loss of power cuts short, and a count that a finished one is yet to make
    (let i : Install := { by_ := .queue 0 0 0 0, compare := false, notice := false, src := 0, count := 0, digest := 0, ptroot := 0, asid := 0,
                          user := false, erase := [], cancelled := false }
     let s : State := { memory with installs := [(2, i), (4096, i)] }
     s.installs.map (·.1) = [2, 4096]) ∧
    (let copy : State := memory.modCore 0 fun k => { k with l1 := [{ line := 0x10040 / 64, data := 7 }] }
     let cached : State := memory.modComb 0 fun c => { c with samp := [{ line := 0x10040 / 64, data := 7, pois := false }] }
     (copy.core 0).l1.length = 1 ∧ (cached.comb 0).samp.length = 1) := by
  refine ⟨⟨memOk_of ?_, ?_⟩, ?_⟩ <;> decide +kernel

/-- `add s3, s6, s9` placed for the first step after reset, with 5 in s6 and 6 in s9. -/
def placed : State :=
  (State.reset.modCtx 0 0 fun c => (c.setS 6 5 false).setS 9 6 false).withFetchWord 32 0x04DA4000
def placedBundle : Bundle := ⟨0x04DA4000, 0, 0, 0, 2⟩

theorem next_of {o : Outcome} (h : (match o with | .next _ => true | _ => false) = true) : ∃ t, o = .next t := by
  cases o <;> simp_all

theorem witness_stepKeepsMemoryForm :
    MemOk placed ∧ ∃ t, step placed = .next t :=
  ⟨memOk_of (by decide +kernel), next_of (by decide +kernel)⟩

theorem witness_decodeInvertsEncode :
    ((Instr.addi 0 1 2 (.lit 7)).wf = true ∧ (encodeS (.addi 0 1 2 (.lit 7))).isSome = true) ∧
    ((Instr.vfma 5 1 2 3 (.lit 7)).wf = true ∧ (encodeV (.vfma 5 1 2 3 (.lit 7))).isSome = true) ∧
    ((Instr.mdrain 3 0 7 4 0x40 9 5).wf = true ∧ (encodeTile (.mdrain 3 0 7 4 0x40 9 5)).isSome = true) ∧
    isSOp (.addi 0 1 2 (.lit 7)) = true := by decide +kernel

theorem witness_stepRunsTheDecodedBundle :
    let s := placed
    let c := s.ctx 0 0
    let hand : State := { s with sel := (0, 0) }
    let issues := hand.modCtx 0 0 fun c => { c with cur := some placedBundle, stage := .fresh, vres := .none }
    let l : Loc := ⟨.glob, 0x10000, 0x10000, placedLeaf, 4, 0⟩
    (State.reset.due = .start 0 :: [] ∧ State.reset.due ≠ []) ∧
    (let a : State := { s with agenda := [.linkRetrain], drawn := [0] }
     a.due = [] ∧ a.agenda[(a.pick 2).1]? = some .linkRetrain) ∧
    (s.due = [] ∧ s.agenda[(s.pick 1).1]? = none ∧ s.dormant = false ∧ s.boot = 1 ∧ s.turn < 2048 ∧
      2048 ≤ ({ s with turn := 2048 } : State).turn) ∧
    (({ s with boot := 2 } : State).boot ≠ 1 ∧ ({ s with dormant := true } : State).dormant = true) ∧
    (c.st = .ready ∧ c.stage = .fresh ∧ s.halts 0 = false ∧ c.gang = none ∧ c.forfeit = 0 ∧ c.pending = none ∧
      c.issued ≠ s.now + 1 ∧ (c.paid = false ∨ c.cur = none)) ∧
    s.fetch 0 0 fetchBlocks = (.bundle placedBundle, s) ∧
    -- a bundle that has paid and issues again
    (let d := (s.modCtx 0 0 fun c => { c with paid := true, cur := some placedBundle }).ctx 0 0
     d.st = .ready ∧ d.stage = .fresh ∧ d.paid = true ∧ d.cur = some placedBundle) ∧
    -- a word that fills up its block
    (let u : State := { s with mem := s.mem.write 0x10000 4 0 }
     u.fetchLoc 0 0 c.pc = (.ok l, u) ∧ (blockKinds (u.blockAt (leafKind l.leaf) l.key))[l.key % 32 / 4]? = some .fill) ∧
    (match decodeS placedBundle.sw placedBundle.slit with | .ok i => i = .add 0 3 6 9 | .error _ => False) ∧
    (match decodeV placedBundle.vw placedBundle.vlit with | .ok i => i = .vnop | .error _ => False) ∧
    (match decodeBundle c.priv 0 0 placedBundle with | .ok i => i = (.add 0 3 6 9, .vnop) | .error _ => False) ∧
    s.gate none 0 0 0 (.add 0 3 6 9) .vnop = .go ∧
    (ran (exec .vnop issues)).here.vres = .eff {} ∧
    ((s.ctx 0 1).st = .free ∧ (s.ctx 0 1).gang = none) ∧
    (s.fetchLoc 0 0 c.pc = (.ok l, s) ∧ (blockKinds (s.blockAt (leafKind l.leaf) l.key))[l.key % 32 / 4]? = some .start ∧ l.key % 32 / 4 < 8 ∧
      s.holdsCode (leafKind l.leaf) (l.key / 32 * 32 + 4 * (l.key % 32 / 4)) = true) :=
  ⟨by decide, by decide, by decide +kernel, by decide, by decide +kernel, by decide +kernel, by decide +kernel, by decide +kernel, rfl, rfl, rfl,
    by decide +kernel, by decide +kernel, by decide +kernel, by decide +kernel⟩

/-! ### Tile commands written out from the table of R65: opcode, tag, chain, A, B, k-blocks, da, db, anchor, destination, offset,
wake, format, zeros -/

theorem test_words_tile :
    decodeTile 5 (0x01#8 ++ 0xCAFEF00D#32 ++ 0x1234#16 ++ 0#68 ++ 0xA5#8 ++ 0#124) = .ok (.mbegin 5 0xCAFEF00D 0x1234 0xA5) ∧
    decodeTile 5 (0x02#8 ++ 0xCAFEF00D#32 ++ 0x1234#16 ++ 0x012340#24 ++ 0x034560#24 ++ 0x7FF#12 ++ 0x4#4 ++ 0x1#4 ++ 0#132) =
      .ok (.mstep 5 0xCAFEF00D 0x1234 0x12340 0x34560 0x7FF 4 1) ∧
    decodeTile 5 (0x03#8 ++ 0xCAFEF00D#32 ++ 0x1234#16 ++ 0#200) = .ok (.mend 5 0xCAFEF00D 0x1234) ∧
    decodeTile 5 (0x04#8 ++ 0xCAFEF00D#32 ++ 0x1234#16 ++ 0#76 ++ 0x5A5#12 ++ 0x012340#24 ++ 0x2A#6 ++ 0x3#4 ++ 0#78) =
      .ok (.mdrain 5 0xCAFEF00D 0x1234 0x5A5 0x12340 0x2A 3) ∧
    decodeTile 5 (0x05#8 ++ 0xCAFEF00D#32 ++ 0x1234#16 ++ 0#200) = .ok (.mzero 5 0xCAFEF00D 0x1234) ∧
    -- the example of R67: lanes 7 and 6
    decodeTile 5 (0x031234AB#32 ++ 0xCD000700#32 ++ 0#192) = .ok (.mend 5 0x1234ABCD 7) ∧
    decodeTile 5 (0x06#8 ++ 0#248) = .error 0x02 ∧ decodeTile 5 (0x03#8 ++ 0#247 ++ 1#1) = .error 0x02 := by
  and_intros <;> rfl

/-! ### Ill-formed operations are refused -/

theorem test_ill_formed_scalar :
    (Instr.add 8 1 2 3).wf = false ∧ (Instr.bfx 0 1 2 40 31).wf = false ∧ (Instr.rdsr 0 1 0x016).wf = false ∧
    (Instr.cmp 0 0 1 2 .eq).wf = false ∧ (Instr.cmpi 0 0 1 .eq (.fld 0)).wf = false ∧ (Instr.pand 0 0 1 2).wf = false ∧
    (Instr.loop 0 1 0).wf = false ∧ (Instr.loopi 0 (.fld 3) 0).wf = false := by decide +kernel

theorem test_ill_formed_memory :
    (Instr.ld 0 1 2 (.fld 0) .v .rlx .comb).wf = false ∧ (Instr.ldz 0 1 2 (.fld 0) .x .rlx .comb).wf = false ∧
    (Instr.amo 0 1 2 3 .fadd true .rlx .comb).wf = false := by decide +kernel

theorem test_ill_formed_system :
    (Instr.mrecv 0 4).wf = false ∧ (Instr.mrecv 0 9).wf = false ∧ (Instr.mrecv 0 10).wf = true ∧ (Instr.gang 0 0).wf = false ∧
    (Instr.cbinit 0 1 2 7).wf = false ∧ (Instr.cbinit 0 1 2 17).wf = false ∧ (Instr.cbinit 0 1 2 16).wf = true := by decide +kernel

theorem test_ill_formed_vector :
    (Instr.vcmp 0 0 1 (.reg 2) .f32 .eq).wf = false ∧ (Instr.vcmp 0 1 1 (.reg 2) .i32 .unord).wf = false ∧
    (Instr.mlog 0 0 1 2 .and).wf = false ∧ (Instr.mlog 0 1 2 3 .not).wf = false ∧ (Instr.mset 0 0 1).wf = false ∧
    (Instr.vbfpk 1 15 3).wf = false ∧ (Instr.vbfpk 1 2 13).wf = false ∧ (Instr.vbfunp 15 1 3).wf = false := by decide +kernel

theorem test_ill_formed_tile :
    (Instr.mbegin 2048 0 0 0).wf = false ∧ (Instr.mdrain 0 0 0 0x800 0 0 0).wf = false ∧ (Instr.mdrain 0 0 0 0 1 0 0).wf = false ∧
    (Instr.mdrain 0 0 0 0 0 0 6).wf = false := by decide +kernel

/-! ### Single steps, with results worked out from the spec's rules -/

/-- R98, R100: 5 + 6 in s3; R43, R111: the next bundle is two words on. -/
theorem test_step_add : ((ran (step placed)).ctx 0 0).sreg 3 = ⟨11, true, false⟩ := by decide +kernel
theorem test_step_pc : ((ran (step placed)).ctx 0 0).pc = 0x10008 := by decide +kernel

/-- R98: the sign of bit 63 fills the space byte. -/
theorem test_sub_wraps : (ran (exec (.sub 0 1 5 2) numbers)).here.sreg 1 = ⟨0xFFFFFFFFFFFFFFFFF9, true, false⟩ := by decide +kernel
/-- R69: MIN ÷ −1 is MIN. -/
theorem test_div_min :
    (ran (exec (.div 0 1 2 3) (numbers.modHere fun c => c.setS 2 (sx72 0x8000000000000000) false))).here.sreg 1 =
      ⟨sx72 0x8000000000000000, true, false⟩ := by decide +kernel
/-- R69: division by zero sets `fflags`[5]. -/
theorem test_div_zero : (ran (exec (.div 0 1 2 5) numbers)).here.fflags = 0x20 := by decide +kernel
/-- R103: an address keeps its space byte when it wraps. -/
theorem test_lea_wraps :
    (ran (exec (.leai 0 1 2 (.fld 1)) (numbers.modHere fun c => c.setS 2 (mkVA 0x12 (BitVec.allOnes 64)) false))).here.sreg 1 =
      ⟨mkVA 0x12 0, true, false⟩ := by decide +kernel
/-- R205, R200: a trap by `trap 7` reaches the enabled user handler of a cause it delegates, and `eret` returns to the trap point. -/
theorem test_trap_user :
    let s := thread fun c => { c with tdeleg0 := 2 ^ 0x0B, thand := 0x20001, pc := 0x10000, cur := some bundle2 }
    let t := ran (exec (.trap 0 7) s)
    let u := ran (exec (.eret 0) (t.modHere fun c => { c with cur := some bundle2 }))
    t.here.pc = 0x20000 ∧ t.here.tcause = 0x0B ∧ t.here.tval = 7 ∧ t.here.uht = true ∧ u.here.pc = 0x10000 ∧ u.here.uht = false := by
  decide +kernel
/-- R2, R115: the bytes of a load are little-endian, and `ld.w` extends the sign. -/
theorem test_ld_sign :
    let s := filling (rec1 (.ld .w true) (own 0x40))
    (ran (exec .fill { s with mem := s.mem.write (scratchKey 0 0x40) 4 0x80000001 })).here.sreg 1 =
      ⟨sx72 0xFFFFFFFF80000001, true, false⟩ := by decide +kernel
/-- R78, R82: 1.5 × 2.0 + 1.0 = 4.0, rounded once; the largest finite word doubled is infinite. -/
theorem test_fma : (fp32.fma ⟨.rne, false, false⟩ false false 0x3FC00000 0x40000000 0x3F800000).bits = 0x40800000 := by decide +kernel
theorem test_overflow :
    (fp32.add ⟨.rne, false, false⟩ 0x7F7FFFFF 0x7F7FFFFF).bits = 0x7F800000 ∧
    (fp32.add ⟨.rtz, false, false⟩ 0x7F7FFFFF 0x7F7FFFFF).bits = 0x7F7FFFFF := by decide +kernel

end Sys2Proof.Tests
end

section
/-! SUPPORT. What a write of a number does to each byte and to each mark of poison (spec/00_scope.md R2). -/

namespace Sys2Proof.Machine

@[simp] theorem Memory.mem_pois_put (m : Memory) (a x : Nat) (b : Byte) : x ∈ (m.put a b).pois ↔ x ∈ m.pois ∧ x ≠ a := by
  simp [Memory.put, dropMark]

theorem Memory.write_succ (m : Memory) (a n v : Nat) :
    m.write a (n + 1) v = (m.put a (BitVec.ofNat 8 v)).write (a + 1) n (v / 256) := rfl

/-- A write takes the marks off the bytes that it writes, and no other marks. -/
theorem Memory.mem_pois_write (m : Memory) (a n v x : Nat) :
    x ∈ (m.write a n v).pois ↔ x ∈ m.pois ∧ (x < a ∨ a + n ≤ x) := by
  induction n generalizing m a v with
  | zero =>
    have hx : x < a ∨ a + 0 ≤ x := by omega
    exact (and_iff_left hx).symm
  | succ n ih =>
    rw [Memory.write_succ, ih, Memory.mem_pois_put, and_assoc]
    refine and_congr_right fun _ => ?_
    omega

/-- Byte k of a written number is its digit k in base 256. -/
theorem Memory.byte_write_at (m : Memory) (a n v k : Nat) (h : m.wf = true) (hk : k < n) :
    ((m.write a n v).byte (a + k)).toNat = v / 256 ^ k % 256 := by
  induction n generalizing m a v k with
  | zero => exact absurd hk (Nat.not_lt_zero k)
  | succ n ih =>
    have hp := Memory.wf_put m a (BitVec.ofNat 8 v) h
    rw [Memory.write_succ]
    cases k with
    | zero =>
      rw [Memory.byte_write_other _ _ _ _ _ hp (.inl (by omega)), Memory.byte_put m a _ _ h, if_pos (Nat.add_zero a)]
      simp
    | succ k =>
      have hd := ih _ (a + 1) (v / 256) k hp (by omega)
      rwa [Nat.div_div_eq_div_mul, ← Nat.pow_succ', Nat.add_right_comm, Nat.add_assoc] at hd

end Sys2Proof.Machine
end

section
namespace Sys2Proof

/-- Settles O35: a write is a sequence of single bytes, from the lowest up, and each sets its byte and takes off its mark. -/
theorem memoryReadsWhatWasWritten : Obligations.MemoryReadsWhatWasWritten := by
  unfold Obligations.MemoryReadsWhatWasWritten
  intro m a n v h
  refine ⟨Machine.Memory.wf_write m a n v h, Machine.Memory.read_write m a n v h, fun x hx => ?_, fun x h1 h2 => ?_⟩
  · exact ⟨Machine.Memory.byte_write_other m a n v x h hx, (Machine.Memory.mem_pois_write m a n v x).trans (and_iff_left hx)⟩
  · obtain ⟨k, rfl⟩ := Nat.exists_eq_add_of_le h1
    rw [Nat.add_sub_cancel_left, Machine.Memory.mem_pois_write]
    exact ⟨Machine.Memory.byte_write_at m a n v k h (by omega), by omega⟩

end Sys2Proof
end

section
/-! SUPPORT. The canonical form of the comb images under the updates of the list that holds them, and of copies of memory. -/

namespace Sys2Proof.Machine

theorem mem_sset {α : Type} {k : Nat} {x : α} {e : Nat × α} {l : Sparse α} (h : e ∈ sset k x l) : e = (k, x) ∨ e ∈ l := by
  induction l with
  | nil => exact .inl (List.mem_singleton.1 h)
  | cons a l ih =>
    obtain ⟨j, y⟩ := a
    unfold sset at h
    split at h
    · exact List.mem_cons.1 h
    split at h
    · exact (List.mem_cons.1 h).imp_right (List.mem_cons_of_mem _)
    · rcases List.mem_cons.1 h with rfl | h
      · exact .inr (List.mem_cons_self ..)
      · exact (ih h).imp_right (List.mem_cons_of_mem _)

theorem imagesOk_sset (k : Nat) {l : Sparse Image} {i : Image} (h : ∀ e ∈ l, e.2.mem.wf = true) (hi : i.mem.wf = true) :
    ∀ e ∈ sset k i l, e.2.mem.wf = true := by
  intro e he
  rcases mem_sset he with rfl | he
  · exact hi
  · exact h e he

theorem imagesOk_map (f : Nat × Image → Nat × Image) {l : Sparse Image} (h : ∀ e ∈ l, e.2.mem.wf = true)
    (hf : ∀ e, (f e).2.mem = e.2.mem) : ∀ e ∈ l.map f, e.2.mem.wf = true := by
  intro e he
  obtain ⟨a, ha, rfl⟩ := List.mem_map.1 he
  rw [hf]
  exact h a ha

theorem imagesOk_sdel (k : Nat) {l : Sparse Image} (h : ∀ e ∈ l, e.2.mem.wf = true) : ∀ e ∈ sdel k l, e.2.mem.wf = true :=
  fun e he => h e (List.mem_filter.1 he).1

theorem mem_images_of_xferImage {s : State} {x : Xfer} {key : Nat} {img : Image} {k : Core}
    (h : s.xferImage x = some (key, img, k)) : (key, img) ∈ s.images := by
  obtain ⟨e, he, hf⟩ := List.exists_of_findSome?_eq_some h
  split at hf
  · split at hf
    · cases hf
      exact he
    · exact absurd hf nofun
  · exact absurd hf nofun

theorem Memory.wf_foldl {α : Type} {f : Memory → α → Memory} (hf : ∀ m a, m.wf = true → (f m a).wf = true) (l : List α)
    {m : Memory} (h : m.wf = true) : (l.foldl f m).wf = true := by
  induction l generalizing m with
  | nil => exact h
  | cons a l ih => exact ih (hf m a h)

theorem Memory.wf_copy (m src : Memory) (a b n : Nat) (h : m.wf = true) : (m.copy src a b n).wf = true :=
  Memory.wf_spoilAll _ _ (Memory.wf_putAll _ _ (Memory.wf_clear _ _ _ h))

theorem Memory.wf_readScratch (m : Memory) (pages : List (Nat × Nat)) (h : m.wf = true) : (m.readScratch pages).wf = true :=
  Memory.wf_foldl (fun _ _ hm => Memory.wf_copy _ _ _ _ _ hm) _ h

theorem Memory.wf_dropScratch (m : Memory) (cores : List Nat) (h : m.wf = true) : (m.dropScratch cores).wf = true :=
  Memory.wf_foldl (fun _ _ hm => Memory.wf_clear _ _ _ hm) _ h

end Sys2Proof.Machine
end

section
/-! SUPPORT. Every operation, instruction and event of the model keeps the canonical form. One rule for each definition, in the
model's order: its proof follows the branches of the definition, and cites the rules of the operations that they call. The
proofs are taken one after another (`Elab.async false`): side by side, their memory adds up to more than a check may use. -/
set_option Elab.async false

namespace Sys2Proof.Machine

/-- A state that stands in a pair which an operation returned. -/
theorem memOk_snd {α : Type} {p : α × State} {a : α} {t : State} (e : p = (a, t)) (hp : MemOk p.2) : MemOk t := by
  subst e; exact hp

/-- A state that stands last in a triple which an operation returned. -/
theorem memOk_thd {α β : Type} {p : α × β × State} {a : α} {b : β} {t : State} (e : p = (a, b, t))
    (hp : MemOk p.2.2) : MemOk t := by
  subst e; exact hp

theorem outOk_fault (r : Fault) : OutOk (.fault r) := fun _ e => nomatch e

/-! ### Shared operations (spec/10_page.md R223, R227) -/

theorem outOk_unless (waits : Bool) {k : Outcome} {s : State} (h : MemOk s) (hk : OutOk k) : OutOk (s.unless waits k) := by
  unfold State.unless
  split
  · exact (outOk_next _).2 h
  · exact hk

theorem memOk_wakeWatch (w : WatchEnt) (code : Nat) {s : State} (h : MemOk s) : MemOk (s.wakeWatch w code) := h

theorem memOk_wakeSectors (key n : Nat) {s : State} (h : MemOk s) : MemOk (s.wakeSectors key n) := by
  unfold State.wakeSectors
  exact memOk_foldl (fun _ _ ht => memOk_wakeWatch _ _ ht) _ h

theorem memOk_sysRefuse (hv : Nat) (page : W72) {s : State} (h : MemOk s) : MemOk (s.sysRefuse hv page) := h

theorem memOk_sysTold (hv : Nat) (va : W64) {s : State} (h : MemOk s) : MemOk (s.sysTold hv va) := h

theorem memOk_sysAsk (hv : Nat) (va : W64) {s : State} (h : MemOk s) : MemOk (s.sysAsk hv va) := by
  unfold State.sysAsk
  dsimp only
  split
  · exact h
  split
  · split
    · split <;> rename_i e <;> have ht := memOk_snd e (memOk_fileFault _ _ _ _ _ _ ((memOk_modHive _ _ _).2 h))
      · exact memOk_sysRefuse _ _ ht
      · exact ht
    · exact memOk_sysRefuse _ _ ((memOk_modHive _ _ _).2 h)
    · exact memOk_sysWalk _ _ ((memOk_modHive _ _ _).2 h)
  · exact memOk_sysWalk _ _ h

theorem outOk_withSys (needs : List (Nat × W64)) (k : State → Outcome) {s : State} (h : MemOk s)
    (hk : ∀ (t : State), MemOk t → OutOk (k t)) : OutOk (s.withSys needs k) := by
  unfold State.withSys
  split
  · exact (outOk_next _).2 ((memOk_later _ _).2 (memOk_sysAsk _ _ h))
  · exact hk _ (memOk_foldl (fun _ _ ht => memOk_sysTold _ _ ht) _ h)

/-! ### Scalar forms (spec/05_scalar.md R95-R108) -/

theorem outOk_commitHere (f : Ctx → Ctx) {s : State} (h : MemOk s) : OutOk (s.commitHere f) := by
  unfold State.commitHere
  exact outOk_commit h ((memOk_modHere _ _).2 h)

theorem outOk_alu2 (g d a b : BitVec 4) (f : W64 → W64 → W64) {s : State} (h : MemOk s) : OutOk (s.alu2 g d a b f) := by
  unfold State.alu2
  exact outOk_guarded h (outOk_commitHere _ h)

theorem outOk_alu1 (g d a : BitVec 4) (f : W64 → W64) {s : State} (h : MemOk s) : OutOk (s.alu1 g d a f) := by
  unfold State.alu1
  exact outOk_guarded h (outOk_commitHere _ h)

theorem outOk_divOp (g d a b : BitVec 4) (zero : W64 → W64) (f : W64 → W64 → W64) {s : State} (h : MemOk s) :
    OutOk (s.divOp g d a b zero f) := by
  unfold State.divOp
  refine outOk_guarded h ?_
  dsimp only
  split
  · exact outOk_commitHere _ h
  split
  · split
    · exact (outOk_next _).2 (memOk_raise _ _ h)
    · exact outOk_commitHere _ h
  · exact outOk_commitHere _ h

theorem outOk_execMov (g d a : BitVec 4) {s : State} (h : MemOk s) : OutOk (execMov g d a s) := by
  refine outOk_guarded h ?_
  exact outOk_commitHere _ h

theorem outOk_execMovi (g d : BitVec 4) (i : Imm 13) {s : State} (h : MemOk s) : OutOk (execMovi g d i s) := by
  refine outOk_guarded h ?_
  exact outOk_commitHere _ h

theorem outOk_execBfi (g d a : BitVec 4) (p : BitVec 6) (n : BitVec 5) {s : State} (h : MemOk s) :
    OutOk (execBfi g d a p n s) := by
  refine outOk_guarded h ?_
  exact outOk_commitHere _ h

theorem outOk_execLea (g d a b : BitVec 4) (n : BitVec 2) {s : State} (h : MemOk s) : OutOk (execLea g d a b n s) := by
  refine outOk_guarded h ?_
  exact outOk_commitHere _ h

theorem outOk_execLeai (g d a : BitVec 4) (i : Imm 13) {s : State} (h : MemOk s) : OutOk (execLeai g d a i s) := by
  refine outOk_guarded h ?_
  exact outOk_commitHere _ h

theorem outOk_execSetsp (g d a : BitVec 4) (sp : BitVec 8) {s : State} (h : MemOk s) : OutOk (execSetsp g d a sp s) := by
  refine outOk_guarded h ?_
  exact outOk_commitHere _ h

theorem outOk_execGetsp (g d : BitVec 4) {s : State} (h : MemOk s) : OutOk (execGetsp g d s) := by
  refine outOk_guarded h ?_
  exact outOk_commitHere _ h

theorem outOk_execCmp (g : BitVec 4) (p : BitVec 3) (a b : BitVec 4) (k : Cond) {s : State} (h : MemOk s) :
    OutOk (execCmp g p a b k s) := by
  refine outOk_guarded h ?_
  exact outOk_commitHere _ h

theorem outOk_execCmpi (g : BitVec 4) (p : BitVec 3) (a : BitVec 4) (k : Cond) (i : Imm 10) {s : State} (h : MemOk s) :
    OutOk (execCmpi g p a k i s) := by
  refine outOk_guarded h ?_
  exact outOk_commitHere _ h

theorem outOk_plog (g : BitVec 4) (d a b : BitVec 3) (f : Bool → Bool → Bool) {s : State} (h : MemOk s) :
    OutOk (s.plog g d a b f) := by
  unfold State.plog
  exact outOk_guarded h (outOk_commitHere _ h)

theorem outOk_execPword (g d : BitVec 4) {s : State} (h : MemOk s) : OutOk (execPword g d s) := by
  refine outOk_guarded h ?_
  exact outOk_commitHere _ h

theorem outOk_execPset (g a : BitVec 4) {s : State} (h : MemOk s) : OutOk (execPset g a s) := by
  refine outOk_guarded h ?_
  exact outOk_commitHere _ h

theorem outOk_execSel (g d a b : BitVec 4) (p : BitVec 3) {s : State} (h : MemOk s) : OutOk (execSel g d a b p s) := by
  refine outOk_guarded h ?_
  exact outOk_commitHere _ h

/-! ### Loads, stores, atomics and fences (spec/05_scalar.md R114-R125) -/

theorem outOk_acquired (sc : Scope) {s : State} (h : MemOk s) : OutOk (s.acquired sc) := by
  unfold State.acquired
  exact (outOk_next _).2 ((memOk_finish _).2 (memOk_acquire _ _ h))

theorem memOk_sampleLoad (core cx seq : Nat) (l : Loc) {s : State} (h : MemOk s) :
    MemOk (s.sampleLoad core cx seq l) := by
  unfold State.sampleLoad
  dsimp only
  split
  · exact (memOk_modCtx _ _ _ _).2 ((memOk_modComb _ _ _).2 h)
  split
  · exact h
  · exact (memOk_later _ _).2 ((memOk_modComb _ _ _).2 h)

theorem outOk_execLdsamp (g d a : BitVec 4) (o : Imm 6) {s : State} (h : MemOk s) : OutOk (execLdsamp g d a o s) := by
  refine outOk_guarded h ?_
  dsimp only
  split
  · exact (outOk_next _).2 (memOk_raise _ _ h)
  split
  · rename_i e
    exact (outOk_next _).2 (memOk_snd e (memOk_place _ _ _ h))
  · rename_i e
    have ht := memOk_snd e (memOk_place _ _ _ h)
    refine outOk_commit ht ?_
    split
    · exact ht
    · exact memOk_sampleLoad _ _ _ _ (memOk_issueRec _ _ _ _ _ _ ht)

theorem outOk_execSamplerFill {s : State} (h : MemOk s) : OutOk (execSamplerFill s) := by
  unfold execSamplerFill
  split
  · dsimp only
    split
    · exact (outOk_next _).2 h
    split
    · exact (outOk_next _).2 ((memOk_later _ _).2 h)
    refine (outOk_next _).2 ((memOk_modComb _ _ _).2 (memOk_foldl (fun _ _ ht => ?_) _ ?_))
    · split
      · exact (memOk_modCtx _ _ _ _).2 ht
      · exact ht
    split
    · exact memOk_takeDegraded _ _ h
    · exact memOk_readAt _ _ _ h
  · exact (outOk_next _).2 h

theorem outOk_execGath (g v b i : BitVec 4) (e : Elem) (hv : BitVec 2) (r : Ord) (c : Scope) {s : State} (h : MemOk s) :
    OutOk (execGath g v b i e hv r c s) := by
  refine outOk_guarded h ?_
  split
  · exact outOk_acquired _ h
  dsimp only
  split
  · exact (outOk_next _).2 (memOk_raise _ _ h)
  split
  · exact (outOk_next _).2 (memOk_raise _ _ h)
  split <;> rename_i e2 <;> have ht := memOk_snd e2 (memOk_place _ _ _ h)
  · exact (outOk_next _).2 ht
  · exact outOk_afterRelease ht (outOk_commitTo ht (memOk_finishAccess _ _ (memOk_issueRec _ _ _ _ _ _ ht)))

theorem memOk_scatter (data : W512) (n : Nat) (l : List (Nat × Loc)) {s : State} (h : MemOk s) :
    MemOk (s.scatter data n l) := by
  induction l generalizing s with
  | nil => exact h
  | cons x l ih =>
    unfold State.scatter
    exact ih (memOk_issueWrite _ _ _ h)

theorem outOk_execScat (g v b i : BitVec 4) (e : Elem) (hv : BitVec 2) (r : Ord) (c : Scope) {s : State} (h : MemOk s) :
    OutOk (execScat g v b i e hv r c s) := by
  refine outOk_guarded h ?_
  split
  · exact outOk_acquired _ h
  dsimp only
  split
  · exact (outOk_next _).2 (memOk_raise _ _ h)
  split
  · exact (outOk_next _).2 (memOk_raise _ _ h)
  split
  · exact (outOk_next _).2 (memOk_raise _ _ h)
  split <;> rename_i e2 <;> have ht := memOk_snd e2 (memOk_place _ _ _ h)
  · exact (outOk_next _).2 ht
  · split
    · refine outOk_afterRelease ht (outOk_commitTo ht ?_)
      split
      · exact (memOk_parkStage _ _ _).2 (memOk_scatter _ _ _ ht)
      · exact (memOk_finish _).2 (memOk_scatter _ _ _ ht)
    · exact (outOk_next _).2 (memOk_raise _ _ ht)

theorem outOk_atomicForm (g d a b : BitVec 4) (dbl : Bool) (data : List (BitVec 4)) (op : Ctx → RecOp) (r : Ord) (sc : Scope)
    {s : State} (h : MemOk s) : OutOk (s.atomicForm g d a b dbl data op r sc) := by
  refine outOk_guarded h ?_
  have hp := memOk_place [(s.here.sreg a).val] (if dbl then 8 else 4) .atomic h
  split
  · exact (outOk_next _).2 (memOk_acquire _ _ h)
  · dsimp only
    split
    · exact (outOk_next _).2 (memOk_raise _ _ h)
    · split
      · exact (outOk_next _).2 (memOk_raise _ _ h)
      · split <;> rename_i e <;> rw [e] at hp
        · exact (outOk_next _).2 hp
        · split
          · exact outOk_afterRelease hp (outOk_commitTo hp
              (memOk_finishAccess _ _ (memOk_issueRec _ _ _ _ _ _ (memOk_l1Drop _ _ hp))))
          · exact (outOk_next _).2 (memOk_raise _ _ hp)

theorem outOk_execAred (g a b : BitVec 4) (o : AmoOp) (w : Bool) (r : Ord) (sc : Scope) {s : State} (h : MemOk s) :
    OutOk (execAred g a b o w r sc s) := by
  refine outOk_guarded h ?_
  split
  · exact outOk_acquired _ h
  · dsimp only
    split
    · exact (outOk_next _).2 (memOk_raise _ _ h)
    split
    · exact (outOk_next _).2 (memOk_raise _ _ h)
    split
    · rename_i e
      exact (outOk_next _).2 (memOk_snd e (memOk_place _ _ _ h))
    · rename_i e
      have ht := memOk_snd e (memOk_place _ _ _ h)
      split
      · exact outOk_afterRelease ht (outOk_commitTo ht
          (memOk_finishAccess _ _ (memOk_issueWrite _ _ _ (memOk_l1Drop _ _ ht))))
      · exact (outOk_next _).2 (memOk_raise _ _ ht)

theorem outOk_execFence (g : BitVec 4) (k : FenceKind) (sc : Scope) {s : State} (h : MemOk s) :
    OutOk (execFence g k sc s) := by
  refine outOk_guarded h ?_
  split
  · exact outOk_afterRelease h (outOk_commit h (memOk_acquire _ _ h))
  · exact outOk_afterRelease h (outOk_commit h h)
  · split
    · exact outOk_commit h (memOk_acquire _ _ h)
    · exact (outOk_next _).2 ((memOk_parkReplay _ _).2 h)
  · exact outOk_commit h ((memOk_modHere _ _).2 h)

theorem outOk_execFsamp (g : BitVec 4) (sc : Scope) {s : State} (h : MemOk s) : OutOk (execFsamp g sc s) := by
  refine outOk_guarded h ?_
  split
  · exact (outOk_next _).2 ((memOk_finish _).2 h)
  · exact outOk_commitTo h ((memOk_parkStage _ _ _).2 ((memOk_modComb _ _ _).2 h))

theorem memOk_clearSampler (comb : Nat) {s : State} (h : MemOk s) : MemOk (s.clearSampler comb) := by
  unfold State.clearSampler
  dsimp only
  exact (memOk_modComb _ _ _).2 (memOk_foldl (fun _ _ ht => (memOk_modCtx _ _ _ _).2 (memOk_acquire _ _ ht)) _ h)

theorem outOk_execSinv (g : BitVec 4) (sc : Scope) {s : State} (h : MemOk s) : OutOk (execSinv g sc s) := by
  refine outOk_guarded h ?_
  refine outOk_commit h ?_
  dsimp only
  split
  · exact memOk_acquire _ _ h
  · exact (memOk_modHere _ _).2 (memOk_acquire _ _ h)

theorem outOk_cacheForm (g a : BitVec 4) (k : State → Loc → Outcome) {s : State} (h : MemOk s)
    (hk : ∀ (t : State) x, MemOk t → OutOk (k t x)) : OutOk (s.cacheForm g a k) := by
  unfold State.cacheForm
  refine outOk_guarded h ?_
  split
  · exact (outOk_next _).2 ((memOk_finish _).2 h)
  dsimp only
  split
  · exact (outOk_next _).2 (memOk_raise _ _ h)
  split
  · exact outOk_commit h h
  split <;> rename_i e <;> have ht := memOk_snd e (memOk_place _ _ _ h)
  · exact (outOk_next _).2 ht
  · exact hk _ _ ht
  · exact outOk_commit ht ht

theorem outOk_execCflush (g a : BitVec 4) {s : State} (h : MemOk s) : OutOk (execCflush g a s) := by
  unfold execCflush
  exact outOk_cacheForm _ _ _ h (fun _ _ ht => outOk_commitTo ht ((memOk_parkStage _ _ _).2 (memOk_l1Drop _ _ ht)))

theorem outOk_execCinval (g a : BitVec 4) {s : State} (h : MemOk s) : OutOk (execCinval g a s) := by
  unfold execCinval
  exact outOk_cacheForm _ _ _ h (fun _ _ ht => outOk_commit ht (memOk_l1Drop _ _ ht))

theorem outOk_execPrf (g a : BitVec 4) {s : State} (h : MemOk s) : OutOk (execPrf g a s) := by
  refine outOk_guarded h ?_
  dsimp only
  split
  · exact (outOk_next _).2 (memOk_raise _ _ h)
  refine outOk_commit h ?_
  split
  · exact h
  · exact (memOk_later _ _).2 ((memOk_modHive _ _ _).2 ((memOk_fresh _).2 h))

theorem memOk_prefetch (hv : Nat) (p : Prefetch) {s : State} (h : MemOk s) : MemOk (s.prefetch hv p) := by
  unfold State.prefetch
  dsimp only
  split
  · split
    · exact (memOk_later _ _).2 h
    split
    · exact (memOk_modHive _ _ _).2 h
    · exact (memOk_later _ _).2 ((memOk_modHive _ _ _).2 (memOk_startWalk _ _ _ _ h))
  split
  · exact (memOk_modHive _ _ _).2 h
  split
  · exact (memOk_later _ _).2 h
  split
  · rename_i e
    have ht := memOk_snd e (memOk_pageChecks _ _ ((memOk_modHive _ _ _).2 h))
    split
    · exact (memOk_pick _ _).2 ht
    · exact memOk_l1Fill _ _ _ ((memOk_pick _ _).2 ht)
  · rename_i e
    exact memOk_snd e (memOk_pageChecks _ _ ((memOk_modHive _ _ _).2 h))
  · exact (memOk_modHive _ _ _).2 h

theorem outOk_execFill {s : State} (h : MemOk s) : OutOk (execFill s) := by
  unfold execFill
  split
  · dsimp only
    split
    · exact (outOk_next _).2 h
    split
    · refine (outOk_next _).2 ?_
      split
      · exact (memOk_later _ _).2 h
      · exact h
    split
    · split
      · exact (outOk_next _).2 ((memOk_later _ _).2 ((memOk_modCtx _ _ _ _).2 ((memOk_pick _ _).2 h)))
      split <;> rename_i e <;> have ht := memOk_snd e (memOk_tryRec _ _ _ ((memOk_pick _ _).2 h))
      · exact (outOk_next _).2 ((memOk_later _ _).2 ht)
      · exact (outOk_next _).2 ((memOk_later _ _).2 ((memOk_modCtx _ _ _ _).2 ht))
      · refine (outOk_next _).2 ?_
        split
        · refine (memOk_later _ _).2 ?_
          split
          · exact memOk_acquire _ _ ((memOk_modCtx _ _ _ _).2 ht)
          · exact (memOk_modCtx _ _ _ _).2 ht
        split
        · exact memOk_acquire _ _ ((memOk_modCtx _ _ _ _).2 ht)
        · exact (memOk_modCtx _ _ _ _).2 ht
    split
    · exact (outOk_next _).2 ((memOk_later _ _).2 ((memOk_modCtx _ _ _ _).2 h))
    split <;> rename_i e <;> have ht := memOk_snd e (memOk_tryRec _ _ _ h)
    · exact (outOk_next _).2 ((memOk_later _ _).2 ht)
    · exact (outOk_next _).2 ((memOk_later _ _).2 ((memOk_modCtx _ _ _ _).2 ht))
    · refine (outOk_next _).2 ?_
      split
      · refine (memOk_later _ _).2 ?_
        split
        · exact memOk_acquire _ _ ((memOk_modCtx _ _ _ _).2 ht)
        · exact (memOk_modCtx _ _ _ _).2 ht
      split
      · exact memOk_acquire _ _ ((memOk_modCtx _ _ _ _).2 ht)
      · exact (memOk_modCtx _ _ _ _).2 ht
  · exact (outOk_next _).2 h

theorem outOk_execStoreAcknowledgement {s : State} (h : MemOk s) : OutOk (execStoreAcknowledgement s) := by
  unfold execStoreAcknowledgement
  split
  · dsimp only
    split
    · exact (outOk_next _).2 h
    split
    · exact (outOk_next _).2 ((memOk_later _ _).2 h)
    split
    · exact (outOk_next _).2 ((memOk_later _ _).2 (MemOk.congr ((memOk_pick _ _).2 h) rfl rfl))
    split
    · exact (outOk_next _).2 ((memOk_later _ _).2 (MemOk.congr ((memOk_pick _ _).2 h) rfl rfl))
    · exact (outOk_next _).2 (memOk_performFlight _ ((memOk_pick _ _).2 h))
  · exact (outOk_next _).2 h

/-! ### The licence of a pair (spec/21_tile.md R401-R404) -/

theorem memOk_setLic (p : Nat) (l : Lic) {s : State} (h : MemOk s) : MemOk (s.setLic p l) := h

theorem memOk_modEng (core : Nat) (f : Engine → Engine) {s : State} (h : MemOk s) : MemOk (s.modEng core f) := h

theorem memOk_grantTo (p core : Nat) (last : Option Nat) {s : State} (h : MemOk s) : MemOk (s.grantTo p core last) := by
  unfold State.grantTo
  dsimp only
  exact memOk_foldl (fun _ _ ht => (memOk_modCtx _ _ _ _).2 ht) _ (memOk_setLic _ _ (h.congr rfl rfl))

theorem memOk_engineAsks (core : Nat) {s : State} (h : MemOk s) : MemOk (s.engineAsks core) := by
  unfold State.engineAsks
  dsimp only
  split
  · split
    · exact h.congr rfl rfl
    · exact h
  split
  · exact h.congr rfl rfl
  · exact h

theorem memOk_leaveLic (core : Nat) (mv : LicMove) {s : State} (h : MemOk s) : MemOk (s.leaveLic core mv) := by
  unfold State.leaveLic
  dsimp only
  split
  · refine memOk_grantTo _ _ _ ?_
    split
    · exact h
    · exact memOk_engineAsks _ h
  refine memOk_setLic _ _ ?_
  split
  · exact h
  · exact memOk_engineAsks _ h

theorem memOk_moveLic (core : Nat) (mv : LicMove) {s : State} (h : MemOk s) : MemOk (s.moveLic core mv) := by
  unfold State.moveLic
  split
  · exact memOk_setLic _ _ h
  · exact memOk_leaveLic _ _ h

theorem memOk_settleLic (e : Nat) {s : State} (h : MemOk s) : MemOk (s.settleLic e) := by
  unfold State.settleLic
  split
  · exact h
  split
  · exact memOk_leaveLic _ _ h
  · exact h

theorem memOk_arbitrate (p : Nat) {s : State} (h : MemOk s) : MemOk (s.arbitrate p) := by
  unfold State.arbitrate
  dsimp only
  split
  · exact h
  split
  · split <;> exact memOk_grantTo _ _ _ h
  · exact memOk_grantTo _ _ _ h
  · exact memOk_grantTo _ _ _ h
  · exact h

theorem memOk_cmdDone (c : Cmd) {s : State} (h : MemOk s) : MemOk (s.cmdDone c) := h

theorem memOk_resetEngine (core lid : Nat) {s : State} (h : MemOk s) : MemOk (s.resetEngine core lid) := by
  unfold State.resetEngine
  split
  · exact h
  dsimp only
  split
  · split
    · exact memOk_moveLic _ _ (memOk_foldl (fun _ _ ht => memOk_cmdDone _ ht) _ (memOk_modEng _ _ (h.congr rfl rfl)))
    split
    · exact memOk_leaveLic _ _ (memOk_foldl (fun _ _ ht => memOk_cmdDone _ ht) _ (memOk_modEng _ _ (h.congr rfl rfl)))
    · exact memOk_foldl (fun _ _ ht => memOk_cmdDone _ ht) _ (memOk_modEng _ _ (h.congr rfl rfl))
  split
  · exact memOk_moveLic _ _ h
  split
  · exact memOk_leaveLic _ _ h
  · exact h

/-! ### The life of a context (spec/07_context.md) -/

theorem memOk_dissolve (cx : Nat) (m : GangMember) {s : State} (h : MemOk s) : MemOk (s.dissolve cx m) := by
  unfold State.dissolve
  refine memOk_foldl (fun _ _ ht => ?_) _ h
  split
  · exact (memOk_modCtx _ _ _ _).2 ht
  · exact ht

theorem memOk_endsSoon (cx : Nat) (m : GangMember) {s : State} (h : MemOk s) : MemOk (s.endsSoon cx m) := by
  unfold State.endsSoon
  refine memOk_foldl (fun _ _ ht => ?_) _ h
  split
  · exact (memOk_modCtx _ _ _ _).2 ht
  · exact ht

theorem memOk_raiseAsync (core cx : Nat) (code : Byte) (val : W64) {s : State} (h : MemOk s) :
    MemOk (s.raiseAsync core cx code val) := h

theorem memOk_nodeAsk (node : BitVec 58) (n : Nat) {s : State} (h : MemOk s) : MemOk (s.nodeAsk node n) := by
  induction n generalizing node s with
  | zero => exact h
  | succ n ih =>
    unfold State.nodeAsk
    split
    · exact memOk_sysAsk _ _ h
    split
    · exact h
    dsimp only
    split
    · exact h
    · exact ih _ h

theorem memOk_addDoneNow (node : BitVec 58) (n n1 : Nat) {s : State} (h : MemOk s) : MemOk (s.addDoneNow node n n1) := by
  induction n1 generalizing node n s with
  | zero => exact h
  | succ n1 ih =>
    unfold State.addDoneNow
    split
    · exact memOk_sysTold _ _ h
    dsimp only
    split
    · split
      · split
        · exact ih _ _ (memOk_poke _ _ _ h)
        · exact memOk_poke _ _ _ h
      · exact memOk_poke _ _ _ h
    · exact memOk_poke _ _ _ h

theorem memOk_addDone (node : BitVec 58) (n : Nat) {s : State} (h : MemOk s) : MemOk (s.addDone node n) := by
  unfold State.addDone
  split
  · exact memOk_nodeAsk _ _ (h.congr rfl rfl)
  · exact memOk_addDoneNow _ _ _ h

theorem memOk_addTrig (node : BitVec 58) (n : Nat) {s : State} (h : MemOk s) : MemOk (s.addTrig node n) := by
  unfold State.addTrig
  split
  · exact memOk_nodeAsk _ _ (h.congr rfl rfl)
  split
  · exact memOk_sysTold _ _ h
  · exact memOk_poke _ _ _ h

theorem memOk_countUnit (node : BitVec 58) (triggered : Bool) {s : State} (h : MemOk s) :
    MemOk (s.countUnit node triggered) := by
  unfold State.countUnit
  refine memOk_addDone _ _ ?_
  split
  · exact h
  · exact memOk_addTrig _ _ h

theorem memOk_flushAdds {s : State} (h : MemOk s) : MemOk s.flushAdds := by
  unfold State.flushAdds
  refine memOk_foldl (fun _ _ ht => ?_) _ (h.congr rfl rfl)
  split
  · exact memOk_addDone _ _ ht
  · exact memOk_addTrig _ _ ht

theorem memOk_allocate (core cx : Nat) (c : Ctx) (whole : Bool) {s : State} (h : MemOk s) :
    MemOk (s.allocate core cx c whole) := h

theorem memOk_sendFill (t : FillTag) (val : W512) (pois : Bool) {s : State} (h : MemOk s) :
    MemOk (s.sendFill t val pois) := h

theorem memOk_giveMsg (core cx : Nat) (m : Msg) {s : State} (h : MemOk s) : MemOk (s.giveMsg core cx m) := h

theorem memOk_startTask (cx : Nat) (m : Msg) (t : Task) {s : State} (h : MemOk s) : MemOk (s.startTask cx m t) := by
  unfold State.startTask
  dsimp only
  split
  · exact h
  split
  · exact h
  · exact memOk_allocate _ _ _ _ (memOk_acquire _ _ h)

theorem memOk_takeMsg (m : Msg) (x : Nat) (bound : Bool) {s : State} (h : MemOk s) : MemOk (s.takeMsg m x bound) := by
  unfold State.takeMsg
  split
  · exact memOk_giveMsg _ _ _ h
  split
  · exact h
  · exact memOk_startTask _ _ _ h

theorem memOk_serve (core n : Nat) {s : State} (h : MemOk s) : MemOk (s.serve core n) := by
  induction n generalizing s with
  | zero => exact h
  | succ n ih =>
    unfold State.serve
    dsimp only
    split
    · exact h
    · exact ih (memOk_takeMsg _ _ _ ((memOk_modCore _ _ _).2 h))

theorem memOk_post (core : Nat) (e : MailEntry) {s : State} (h : MemOk s) : MemOk (s.post core e) := h

theorem memOk_dropMsgs (core chan : Nat) (pc : W72) {s : State} (h : MemOk s) : MemOk (s.dropMsgs core chan pc) := by
  unfold State.dropMsgs
  dsimp only
  refine memOk_foldl (fun _ _ ht => ?_) _ h
  split
  · exact memOk_sendFill _ _ _ ((memOk_modCore _ _ _).2 ht)
  · exact memOk_post _ _ ((memOk_modCore _ _ _).2 ht)
  · exact (memOk_modCore _ _ _).2 ht

theorem memOk_endLaunch (lid : Nat) {s : State} (h : MemOk s) : MemOk (s.endLaunch lid) := by
  unfold State.endLaunch
  split
  · exact h
  · rename_i l _
    extract_lets tasks desc counted u left
    have hc : MemOk counted := h.congr rfl rfl
    have hu : MemOk u := by
      subst u
      split
      · exact h
      split
      · exact memOk_nodeAsk _ _ h
      split
      · exact h
      split
      · exact memOk_sysAsk _ _ h
      split
      · exact h
      split
      · exact memOk_sysTold _ _ hc
      dsimp only
      split
      · exact memOk_poke _ _ _ (memOk_poke _ _ _ hc)
      · exact memOk_poke _ _ _ hc
    split
    · exact hu
    · exact hu.congr rfl rfl

theorem memOk_free (core cx : Nat) {s : State} (h : MemOk s) : MemOk (s.free core cx) := h

theorem memOk_spareJoins (comb : Nat) {s : State} (h : MemOk s) : MemOk (s.spareJoins comb) := by
  unfold State.spareJoins
  split
  · exact h
  · exact h.congr rfl rfl

theorem memOk_endGroup (gid : Nat) {s : State} (h : MemOk s) : MemOk (s.endGroup gid) := by
  unfold State.endGroup
  split
  · exact h
  split
  · exact h
  dsimp only
  refine memOk_endLaunch _ (memOk_foldl (fun _ _ ht => ?_) _ ?_)
  · split
    · exact ht
    split
    · exact (memOk_later _ _).2 (memOk_raiseAsync _ _ _ _ (memOk_resetEngine _ _ ht))
    · exact memOk_resetEngine _ _ ht
  split
  · refine memOk_foldl (fun _ _ ht => memOk_foldl (fun _ _ ht2 => ?_) _ ((memOk_modCore _ _ _).2 ht)) _
      (memOk_foldl (fun _ _ ht => memOk_foldl (fun _ _ ht2 => ?_) _ ht) _ (memOk_spareJoins _ (h.congr rfl rfl)))
    · split
      · split
        · exact memOk_dropMsgs _ _ _ ((memOk_modCore _ _ _).2 ht2)
        · exact (memOk_modCore _ _ _).2 ht2
      · exact ht2
    split
    · exact memOk_free _ _ ht2
    · exact ht2
  refine (memOk_modComb _ _ _).2 (memOk_foldl (fun _ _ ht => memOk_foldl (fun _ _ ht2 => ?_) _
    ((memOk_modCore _ _ _).2 ht)) _ (memOk_foldl (fun _ _ ht => memOk_foldl (fun _ _ ht2 => ?_) _ ht) _
    (memOk_spareJoins _ (h.congr rfl rfl))))
  · split
    · split
      · exact memOk_dropMsgs _ _ _ ((memOk_modCore _ _ _).2 ht2)
      · exact (memOk_modCore _ _ _).2 ht2
    · exact ht2
  split
  · exact memOk_free _ _ ht2
  · exact ht2

theorem memOk_unwait (core cx : Nat) {s : State} (h : MemOk s) : MemOk (s.unwait core cx) := h

theorem memOk_unpromise (core cx : Nat) {s : State} (h : MemOk s) : MemOk (s.unpromise core cx) := by
  unfold State.unpromise
  split
  · dsimp only
    split
    · exact (memOk_modCtx _ _ _ _).2 (h.congr rfl rfl)
    · exact h
  · exact h

theorem memOk_letGo (core cx : Nat) {s : State} (h : MemOk s) : MemOk (s.letGo core cx) := h

theorem memOk_vacate (core cx : Nat) {s : State} (h : MemOk s) : MemOk (s.vacate core cx) := by
  unfold State.vacate
  dsimp only
  split
  · exact (memOk_setCtx _ _ _ _).2 h
  · exact memOk_free _ _ h

theorem memOk_depart (core cx : Nat) {s : State} (h : MemOk s) : MemOk (s.depart core cx) := by
  unfold State.depart
  dsimp only
  refine memOk_endLaunch _ (memOk_endGroup _ ?_)
  split
  · split
    · split
      · exact memOk_countUnit _ _ (memOk_vacate _ _ (memOk_sendFill _ _ _ ((memOk_modCtx _ _ _ _).2 h)))
      · exact memOk_vacate _ _ (memOk_sendFill _ _ _ ((memOk_modCtx _ _ _ _).2 h))
    split
    · exact memOk_countUnit _ _ (memOk_vacate _ _ h)
    · exact memOk_vacate _ _ h
  split
  · refine memOk_free _ _ ?_
    split
    · exact memOk_sendFill _ _ _ ((memOk_modCtx _ _ _ _).2 h)
    · exact h
  refine memOk_free _ _ (memOk_countUnit _ _ ?_)
  split
  · exact memOk_sendFill _ _ _ ((memOk_modCtx _ _ _ _).2 h)
  · exact h

theorem memOk_retire (core cx : Nat) {s : State} (h : MemOk s) : MemOk (s.retire core cx) := by
  unfold State.retire
  dsimp only
  split
  · exact memOk_depart _ _ ((memOk_setCtx _ _ _ _).2 (memOk_unwait _ _ (memOk_letGo _ _ h)))
  · exact (memOk_later _ _).2 ((memOk_setCtx _ _ _ _).2 (memOk_unwait _ _ (memOk_letGo _ _ h)))

theorem outOk_execCounterAcknowledged {s : State} (h : MemOk s) : OutOk (execCounterAcknowledged s) := by
  unfold execCounterAcknowledged
  split
  · dsimp only
    split
    · exact (outOk_next _).2 h
    split
    · exact (outOk_next _).2 ((memOk_later _ _).2 h)
    split
    · exact (outOk_next _).2 ((memOk_later _ _).2 (memOk_nodeAsk _ _ h))
    · exact (outOk_next _).2 (memOk_depart _ _ h)
  · exact (outOk_next _).2 h

theorem outOk_execExit (g : BitVec 4) {s : State} (h : MemOk s) : OutOk (execExit g s) := by
  refine outOk_guarded h ?_
  split
  · split
    · exact (outOk_next _).2 (memOk_retire _ _ h)
    · exact (outOk_next _).2 ((memOk_parkStage _ _ _).2 h)
  · exact outOk_commitTo h ((memOk_parkStage _ _ _).2 ((memOk_modHere _ _).2 h))

theorem outOk_execClearDone {s : State} (h : MemOk s) : OutOk (execClearDone s) := by
  unfold execClearDone
  split
  · refine (outOk_next _).2 (memOk_foldl (fun t x ht => ?_) _ ((memOk_setCore _ _ _).2 h))
    extract_lets c zeroed
    split
    · exact ht.congr rfl rfl
    · exact ht
  · exact (outOk_next _).2 h

theorem outOk_execTrapDelivery {s : State} (h : MemOk s) : OutOk (execTrapDelivery s) := by
  unfold execTrapDelivery
  split
  · dsimp only
    split
    · split
      · exact (outOk_next _).2 h
      · exact (outOk_next _).2 (memOk_deliver _ _ _ _ _ _ _ ((memOk_modCtx _ _ _ _).2 h))
    · exact (outOk_next _).2 h
  · exact (outOk_next _).2 h

theorem memOk_barPut (key v : Nat) {s : State} (h : MemOk s) : MemOk (s.barPut key v) := by
  unfold State.barPut
  split
  · exact memOk_writeHome _ _ _ _ h
  · exact memOk_wakeWatches _ _ (memOk_wr _ _ _ h)

theorem memOk_breakFor (core cx : Nat) {s : State} (h : MemOk s) : MemOk (s.breakFor core cx) := by
  unfold State.breakFor
  refine memOk_foldl (fun t w ht => ?_) _ h
  refine memOk_foldl (fun _ _ hu => (memOk_modCtx _ _ _ _).2 hu) _ (memOk_barPut _ _ ?_)
  exact ht.congr rfl rfl

theorem outOk_execCancelDelivery {s : State} (h : MemOk s) : OutOk (execCancelDelivery s) := by
  unfold execCancelDelivery
  split
  · dsimp only
    split
    · exact (outOk_next _).2 h
    split
    · exact (outOk_next _).2 ((memOk_later _ _).2 h)
    split
    · exact (outOk_next _).2 ((memOk_later _ _).2 h)
    split
    · refine (outOk_next _).2 (memOk_retire _ _ ?_)
      split
      · exact memOk_dissolve _ _ (memOk_breakFor _ _ h)
      · exact memOk_breakFor _ _ h
    · exact (outOk_next _).2 h
  · exact (outOk_next _).2 h

theorem memOk_leavePark (core cx : Nat) (val : W64) {s : State} (h : MemOk s) : MemOk (s.leavePark core cx val) := by
  unfold State.leavePark
  dsimp only
  split
  · split
    · exact memOk_dissolve _ _ (memOk_deliver _ _ _ _ _ _ _ (memOk_unpromise _ _ (memOk_unwait _ _ h)))
    · exact memOk_endsSoon _ _ (memOk_deliver _ _ _ _ _ _ _ (memOk_unpromise _ _ (memOk_unwait _ _ h)))
  · exact memOk_deliver _ _ _ _ _ _ _ (memOk_unpromise _ _ (memOk_unwait _ _ h))

theorem outOk_execWatchdog {s : State} (h : MemOk s) : OutOk (execWatchdog s) := by
  unfold execWatchdog
  split
  · dsimp only
    split
    · exact (outOk_next _).2 h
    split
    · exact (outOk_next _).2 (memOk_leavePark _ _ _ ((memOk_modCtx _ _ _ _).2 h))
    · exact (outOk_next _).2 (memOk_raiseAsync _ _ _ _ ((memOk_modCtx _ _ _ _).2 h))
  · exact (outOk_next _).2 h

theorem outOk_execEnergyRefill {s : State} (h : MemOk s) : OutOk (execEnergyRefill s) := by
  unfold execEnergyRefill
  split
  · exact (outOk_next _).2 ((memOk_modCore _ _ _).2 h)
  · exact (outOk_next _).2 h

theorem memOk_remoteFill (t : FillTag) (val : W512) (pois : Bool) {s : State} (h : MemOk s) :
    MemOk (s.remoteFill t val pois) := by
  unfold State.remoteFill
  dsimp only
  split
  · split
    · split
      · exact (memOk_later _ _).2 (memOk_acquire _ _ ((memOk_modCtx _ _ _ _).2 h))
      · exact memOk_acquire _ _ ((memOk_modCtx _ _ _ _).2 h)
    · exact (memOk_later _ _).2 ((memOk_modCtx _ _ _ _).2 h)
  split
  · exact h.congr rfl rfl
  · exact h

theorem outOk_execRemoteFill {s : State} (h : MemOk s) : OutOk (execRemoteFill s) := by
  unfold execRemoteFill
  split
  · exact (outOk_next _).2 (memOk_remoteFill _ _ _ h)
  · exact (outOk_next _).2 h

/-! ### Gangs, barriers and watches (spec/12_group.md, spec/13_barrier.md) -/

theorem outOk_execGang (g : BitVec 4) (w : BitVec 2) {s : State} (h : MemOk s) : OutOk (execGang g w s) := by
  refine outOk_guarded h ?_
  dsimp only
  split
  · exact (outOk_next _).2 (memOk_raise _ _ h)
  · exact outOk_commitTo h (memOk_foldl (fun _ _ ht => (memOk_modCtx _ _ _ _).2 ht) _
      ((memOk_modCtx _ _ _ _).2 ((memOk_finish _).2 h)))

theorem outOk_execUngang (g : BitVec 4) {s : State} (h : MemOk s) : OutOk (execUngang g s) := by
  refine outOk_guarded h ?_
  exact outOk_commitTo h ((memOk_modHere _ _).2 ((memOk_finish _).2 h))

theorem memOk_wakeWaiters (key : Nat) (stage : Stage) (which : BarWaiter → Bool) {s : State} (h : MemOk s) :
    MemOk (s.wakeWaiters key stage which) := by
  unfold State.wakeWaiters
  dsimp only
  exact memOk_foldl (fun _ _ ht => (memOk_modCtx _ _ _ _).2 ht) _ (h.congr rfl rfl)

theorem outOk_atHome (l : Loc) (n : Nat) (stage : Stage) (act : State → Outcome) {s : State} (h : MemOk s)
    (hact : ∀ (t : State), MemOk t → OutOk (act t)) : OutOk (s.atHome l n stage act) := by
  unfold State.atHome
  dsimp only
  split
  · exact (outOk_next _).2 (memOk_raise _ _ (memOk_noticeDegraded _ _ _ h))
  split
  · exact (outOk_next _).2 ((memOk_parkStage _ _ _).2 h)
  split
  · exact hact _ ((memOk_pick _ _).2 h)
  · exact (outOk_next _).2 ((memOk_parkStage _ _ _).2 ((memOk_pick _ _).2 h))

theorem outOk_barAct (f : BarForm) (l : Loc) {s : State} (h : MemOk s) : OutOk (s.barAct f l) := by
  unfold State.barAct
  dsimp only
  split
  · exact (outOk_next _).2 (memOk_raise _ _ h)
  refine outOk_commitTo h ?_
  split
  · exact (memOk_finish _).2 (memOk_barPut _ _ (memOk_l1Drop _ _ (memOk_wakeWaiters _ _ _ h)))
  · split
    · exact (memOk_parkStage _ _ _).2 (h.congr rfl rfl)
    · exact (memOk_finish _).2 (memOk_acquire _ _ h)
  · split
    · refine (memOk_finish _).2 ?_
      split
      · exact memOk_wakeWaiters _ _ _ (memOk_barPut _ _ (memOk_l1Drop _ _ h))
      · exact memOk_barPut _ _ (memOk_l1Drop _ _ h)
    split
    · exact (memOk_finish _).2 (memOk_acquire _ _ (memOk_wakeWaiters _ _ _ (memOk_barPut _ _ (memOk_l1Drop _ _ h))))
    · exact (memOk_parkStage _ _ _).2 (MemOk.congr (memOk_barPut _ _ (memOk_l1Drop _ _ h)) rfl rfl)
  · split
    · refine (memOk_finish _).2 ?_
      split
      · exact memOk_wakeWaiters _ _ _ (memOk_barPut _ _ (memOk_l1Drop _ _ h))
      · exact memOk_barPut _ _ (memOk_l1Drop _ _ h)
    split
    · exact (memOk_finish _).2 (memOk_acquire _ _ (memOk_wakeWaiters _ _ _ (memOk_barPut _ _ (memOk_l1Drop _ _ h))))
    · exact (memOk_parkStage _ _ _).2 (MemOk.congr (memOk_barPut _ _ (memOk_l1Drop _ _ h)) rfl rfl)

theorem outOk_bar (a : BitVec 4) (f : BarForm) {s : State} (h : MemOk s) : OutOk (s.bar a f) := by
  unfold State.bar
  dsimp only
  split
  · exact outOk_atHome _ _ _ _ h (fun _ ht => outOk_barAct _ _ ht)
  · split
    · exact (outOk_next _).2 ((memOk_parkStage _ _ _).2 h)
    split <;> rename_i e <;> have ht := memOk_snd e (memOk_resolve _ _ _ _ _ h)
    · exact (outOk_next _).2 (memOk_raise _ _ ht)
    · exact (outOk_next _).2 ((memOk_parkStage _ _ _).2 ht)
    · exact outOk_atHome _ _ _ _ ht (fun _ ht2 => outOk_barAct _ _ ((memOk_modHere _ _).2 ht2))
  · exact (outOk_next _).2 ((memOk_finish _).2 (memOk_acquire _ _ h))
  · exact (outOk_next _).2 (memOk_raise _ _ h)
  · split
    · exact (outOk_next _).2 (memOk_raise _ _ h)
    split <;> rename_i e <;> have ht := memOk_snd e (memOk_place _ _ _ h)
    · exact (outOk_next _).2 ht
    · exact outOk_afterRelease ht ((outOk_next _).2 ((memOk_parkStage _ _ _).2 ((memOk_modHere _ _).2 ht)))

theorem outOk_execBarInit (g a b : BitVec 4) {s : State} (h : MemOk s) : OutOk (execBarInit g a b s) := by
  refine outOk_guarded h ?_
  dsimp only
  split
  · exact (outOk_next _).2 (memOk_raise _ _ h)
  split
  · exact (outOk_next _).2 (memOk_raise _ _ h)
  split
  · split <;> rename_i e <;> have ht := memOk_snd e (memOk_place _ _ _ h)
    · exact (outOk_next _).2 ht
    · exact (outOk_next _).2 (memOk_raise _ _ ht)
  · exact outOk_bar _ _ h

theorem outOk_execBarArv (g a : BitVec 4) {s : State} (h : MemOk s) : OutOk (execBarArv g a s) := by
  refine outOk_guarded h ?_
  exact outOk_bar _ _ h

theorem outOk_execBarWait (g a b : BitVec 4) {s : State} (h : MemOk s) : OutOk (execBarWait g a b s) := by
  refine outOk_guarded h ?_
  dsimp only
  split
  · exact (outOk_next _).2 (memOk_raise _ _ h)
  split
  · split <;> rename_i e <;> have ht := memOk_snd e (memOk_place _ _ _ h)
    · exact (outOk_next _).2 ht
    · exact (outOk_next _).2 (memOk_raise _ _ ht)
  · exact outOk_bar _ _ h

theorem outOk_execBarArw (g a : BitVec 4) {s : State} (h : MemOk s) : OutOk (execBarArw g a s) := by
  refine outOk_guarded h ?_
  exact outOk_bar _ _ h

theorem memOk_unwatch (core cx : Nat) {s : State} (h : MemOk s) : MemOk (s.unwatch core cx) := h

theorem memOk_arm (core cx sector : Nat) {s : State} (h : MemOk s) : MemOk (s.arm core cx sector) := by
  unfold State.arm
  extract_lets u home same v w
  have hu : MemOk u := memOk_unwatch _ _ h
  have hv : MemOk v := by
    unfold v
    split
    · exact memOk_wakeWatch _ _ (hu.congr rfl rfl)
    · exact hu
  exact (memOk_modCtx _ _ _ _).2 (hv.congr rfl rfl)

theorem outOk_execMwatch (g a : BitVec 4) {s : State} (h : MemOk s) : OutOk (execMwatch g a s) := by
  refine outOk_guarded h ?_
  split
  · exact outOk_atHome _ _ _ _ h (fun _ ht => outOk_commit ht (memOk_arm _ _ _ ht))
  dsimp only
  split
  · exact (outOk_next _).2 (memOk_raise _ _ h)
  split <;> rename_i e <;> have ht := memOk_snd e (memOk_place _ _ _ h)
  · exact (outOk_next _).2 ht
  · exact (outOk_next _).2 ((memOk_parkStage _ _ _).2 ((memOk_modHere _ _).2 ht))

theorem outOk_mwaitDone (d : BitVec 4) (code : Nat) (pending : Bool) {s : State} (h : MemOk s) :
    OutOk (s.mwaitDone d code pending) := by
  unfold State.mwaitDone
  dsimp only
  exact outOk_commitHere _ h

theorem outOk_execMwait (g d b : BitVec 4) {s : State} (h : MemOk s) : OutOk (execMwait g d b s) := by
  refine outOk_guarded h ?_
  dsimp only
  split
  · exact outOk_mwaitDone _ _ _ h
  · exact (outOk_next _).2 ((memOk_parkStage _ _ _).2 h)
  · split
    · exact (outOk_next _).2 (memOk_raise _ _ h)
    split
    · exact (outOk_next _).2 (memOk_raise _ _ h)
    split
    · exact outOk_mwaitDone _ _ _ h
    split
    · exact (outOk_next _).2 (memOk_raise _ _ h)
    · exact (outOk_next _).2 ((memOk_parkStage _ _ _).2 h)

theorem outOk_execMclr (g : BitVec 4) {s : State} (h : MemOk s) : OutOk (execMclr g s) := by
  refine outOk_guarded h ?_
  exact outOk_commit h (memOk_unwatch _ _ h)

theorem outOk_execMwaitTimeout {s : State} (h : MemOk s) : OutOk (execMwaitTimeout s) := by
  unfold execMwaitTimeout
  split
  · dsimp only
    split
    · refine (outOk_next _).2 ?_
      split
      · exact memOk_wakeWatch _ _ h
      · exact h
    · exact (outOk_next _).2 h
  · exact (outOk_next _).2 h

/-! ### A V result in hand (R132) -/

theorem outOk_hold (k : Ctx → VRes) {s : State} (h : MemOk s) : OutOk (s.hold k) := by
  unfold State.hold
  exact (outOk_next _).2 ((memOk_modHere _ _).2 h)

/-! ### Constant-bank forms (R156) -/

theorem outOk_bankForm (k : BitVec 8) (f : Ctx → Nat → Bool → VRes) {s : State} (h : MemOk s) :
    OutOk (s.bankForm k f) := by
  unfold State.bankForm
  dsimp only
  exact outOk_hold _ h

/-! ### Walks, fault records and invalidation (spec/10_page.md R227-R236) -/

theorem memOk_walkFaults (hv : Nat) (asid : W16) (level : Nat) (l : List (Nat × Nat × W72 × Byte)) {s : State}
    (h : MemOk s) : MemOk (s.walkFaults hv asid level l) := by
  induction l generalizing s with
  | nil => exact h
  | cons x l ih =>
    unfold State.walkFaults
    dsimp only
    exact ih ((memOk_modCtx _ _ _ _).2 (memOk_fileFault _ _ _ _ _ _ h))

theorem memOk_engFill (hv : Nat) (e : TlbEnt) {s : State} (h : MemOk s) : MemOk (s.engFill hv e) := by
  unfold State.engFill
  dsimp only
  exact (memOk_modHive _ _ _).2 ((memOk_pick _ _).2 h)

theorem outOk_execPageWalk {s : State} (h : MemOk s) : OutOk (execPageWalk s) := by
  unfold execPageWalk
  split
  · dsimp only
    split
    · exact (outOk_next _).2 (memOk_prefetch _ _ h)
    split
    · exact (outOk_next _).2 h
    split
    · exact (outOk_next _).2 h
    split
    · exact (outOk_next _).2 ((memOk_later _ _).2 h)
    split
    · exact outOk_fault _
    · refine (outOk_next _).2 (memOk_foldl (fun _ _ ht => memOk_tlbFill _ _ ht) _ ?_)
      split
      · exact memOk_engFill _ _ ((memOk_modHive _ _ _).2 h)
      · exact (memOk_modHive _ _ _).2 h
    · refine (outOk_next _).2 (memOk_walkFaults _ _ _ _ ?_)
      split
      · exact (memOk_modHive _ _ _).2 ((memOk_modHive _ _ _).2 h)
      · exact (memOk_modHive _ _ _).2 h
    · refine (outOk_next _).2 (memOk_foldl (fun _ _ ht => (memOk_modCtx _ _ _ _).2 ht) _ ?_)
      split
      · exact (memOk_modHive _ _ _).2 ((memOk_modHive _ _ _).2 h)
      · exact (memOk_modHive _ _ _).2 h
  · exact (outOk_next _).2 h

theorem memOk_dropFault (hv num : Nat) {s : State} (h : MemOk s) : MemOk (s.dropFault hv num) := by
  unfold State.dropFault
  exact (memOk_modHive _ _ _).2 h

theorem outOk_execFaultRetry {s : State} (h : MemOk s) : OutOk (execFaultRetry s) := by
  unfold execFaultRetry
  split
  · split
    · exact (outOk_next _).2 h
    split
    · exact (outOk_next _).2 (memOk_dropFault _ _ h)
    split
    · exact (outOk_next _).2 h
    · exact (outOk_next _).2 ((memOk_later _ _).2 h)
  · exact (outOk_next _).2 h

theorem outOk_execFaultDecline {s : State} (h : MemOk s) : OutOk (execFaultDecline s) := by
  unfold execFaultDecline
  split
  · split
    · exact (outOk_next _).2 h
    split
    · extract_lets told engine refused
      have ht : MemOk told := by
        refine memOk_foldl (fun _ _ hs => memOk_foldl (fun t x hs => ?_) _ hs) _ h
        split
        · split
          · exact (memOk_modCtx _ _ _ _).2 hs
          · exact hs
        · exact hs
      have hr : MemOk refused := by
        unfold refused
        split
        · exact memOk_sysRefuse _ _ ht
        · exact ht
      exact (outOk_next _).2 (memOk_dropFault _ _ (hr.congr rfl rfl))
    split
    · exact (outOk_next _).2 h
    · exact (outOk_next _).2 ((memOk_later _ _).2 h)
  · exact (outOk_next _).2 h

theorem memOk_dropTlb (form : Nat) (asid : W16) (va : W72) {s : State} (h : MemOk s) : MemOk (s.dropTlb form asid va) := h

theorem memOk_rearm (form : Nat) (asid : W16) (va : W72) {s : State} (h : MemOk s) : MemOk (s.rearm form asid va) := by
  unfold State.rearm
  dsimp only
  exact memOk_foldl (fun _ _ ht => memOk_freshSector _ ht) _ (h.congr rfl rfl)

theorem outOk_tlbinv (form : Nat) (asid : W16) (va : W72) {s : State} (h : MemOk s) : OutOk (s.tlbinv form asid va) := by
  unfold State.tlbinv
  split
  · exact (outOk_next _).2 ((memOk_finish _).2 (memOk_rearm _ _ _ h))
  · exact outOk_afterRelease h (outOk_commitTo h ((memOk_parkStage _ _ _).2 (memOk_dropTlb _ _ _ h)))

theorem outOk_execTlbinvPage (g a b : BitVec 4) {s : State} (h : MemOk s) : OutOk (execTlbinvPage g a b s) := by
  refine outOk_guarded h ?_
  dsimp only
  split
  · exact (outOk_next _).2 (memOk_raise _ _ h)
  split
  · exact (outOk_next _).2 (memOk_raise _ _ h)
  · exact outOk_tlbinv _ _ _ h

theorem outOk_execTlbinvAsid (g b : BitVec 4) {s : State} (h : MemOk s) : OutOk (execTlbinvAsid g b s) := by
  refine outOk_guarded h ?_
  dsimp only
  split
  · exact (outOk_next _).2 (memOk_raise _ _ h)
  · exact outOk_tlbinv _ _ _ h

theorem outOk_execTlbinvAll (g : BitVec 4) {s : State} (h : MemOk s) : OutOk (execTlbinvAll g s) := by
  refine outOk_guarded h ?_
  exact outOk_tlbinv _ _ _ h

theorem outOk_execEphemeralExpire {s : State} (h : MemOk s) : OutOk (execEphemeralExpire s) := by
  unfold execEphemeralExpire
  split
  · split
    · refine (outOk_next _).2 ?_
      split
      · exact h.congr rfl rfl
      · exact h
    · exact (outOk_next _).2 h
  · exact (outOk_next _).2 h

theorem outOk_execStagingFill {s : State} (h : MemOk s) : OutOk (execStagingFill s) := by
  unfold execStagingFill
  split
  · dsimp only
    split
    · exact (outOk_next _).2 h
    · exact (outOk_next _).2 ((memOk_modHive _ _ _).2 h)
  · exact (outOk_next _).2 h

/-! ### How engines reach memory (R227, R228) -/

theorem memOk_engineFault (u : Under) (va : W72) (cause kinds : Byte) (level : Nat) {s : State} (h : MemOk s) :
    MemOk (s.engineFault u va cause kinds level).2 := by
  unfold State.engineFault
  split <;> rename_i e <;> have ht := memOk_snd e (memOk_fileFault _ _ _ _ _ _ h)
  · exact ht
  · exact ht
  · exact ht

theorem memOk_engineMiss (u : Under) (va : W72) (k : Use) {s : State} (h : MemOk s) : MemOk (s.engineMiss u va k).2 := by
  unfold State.engineMiss
  dsimp only
  split
  · split
    · exact (memOk_modHive _ _ _).2 h
    · exact memOk_engineFault _ _ _ _ _ ((memOk_modHive _ _ _).2 h)
    · exact memOk_joinWalk _ _ _ _ _ _ ((memOk_modHive _ _ _).2 h)
  · exact memOk_joinWalk _ _ _ _ _ _ h

theorem memOk_engineAddr (u : Under) (va : W72) (k : Use) {s : State} (h : MemOk s) : MemOk (s.engineAddr u va k).2 := by
  unfold State.engineAddr
  dsimp only
  split
  · split
    · exact h
    split
    · exact memOk_engineMiss _ _ _ h
    split
    · exact memOk_engineFault _ _ _ _ _ h
    split <;> rename_i e <;> have ht := memOk_snd e (memOk_pageChecks _ _ h)
    · exact ht
    · split <;> exact ht
    · exact ht
  split
  · exact h
  split
  · exact h
  split
  · exact h
  split
  · exact memOk_engineMiss _ _ _ h
  split
  · exact memOk_engineFault _ _ _ _ _ h
  split <;> rename_i e <;> have ht := memOk_snd e (memOk_pageChecks _ _ h)
  · exact ht
  · split <;> exact ht
  · exact ht

theorem memOk_engineRead (me : Agent) (u : Under) (va : W72) (n : Nat) (acq : Bool) {s : State} (h : MemOk s) :
    MemOk (s.engineRead me u va n acq).2 := by
  unfold State.engineRead
  split <;> rename_i e <;> have ht := memOk_snd e (memOk_engineAddr _ _ _ h)
  · split
    · exact ht
    dsimp only
    exact memOk_readAt _ _ _ ht
  · exact ht
  · exact ht

theorem memOk_engineWords (me : Agent) (u : Under) (va : W72) (n : Nat) {s : State} (h : MemOk s) :
    MemOk (s.engineWords me u va n).2 := by
  induction n generalizing va s with
  | zero => exact h
  | succ n ih =>
    unfold State.engineWords
    split
    · rename_i e
      have ht := memOk_snd e (memOk_engineRead _ _ _ _ _ h)
      split
      · rename_i e2
        exact memOk_snd e2 (ih _ ht)
      · exact ih _ ht
    · exact memOk_engineRead _ _ _ _ _ h

theorem memOk_engineLines (me : Agent) (u : Under) (acq : Bool) (va : W72) (n : Nat) {s : State} (h : MemOk s) :
    MemOk (s.engineLines me u acq va n).2 := by
  induction n generalizing va s with
  | zero => exact h
  | succ n ih =>
    unfold State.engineLines
    split
    · rename_i e
      have ht := memOk_snd e (memOk_engineRead _ _ _ _ _ h)
      split
      · rename_i e2
        exact memOk_snd e2 (ih _ ht)
      · exact ih _ ht
    · exact memOk_engineRead _ _ _ _ _ h

/-! ### Display outputs (spec/24_link.md R436-R443) -/

theorem memOk_setOut (n : Nat) (o : Output) {s : State} (h : MemOk s) : MemOk (s.setOut n o) := h

theorem memOk_fitsOutput (n : Nat) (x : Surface) {s : State} (h : MemOk s) : MemOk (s.fitsOutput n x).2 := by
  unfold State.fitsOutput
  dsimp only
  split
  · exact h
  split
  · rename_i e
    exact memOk_snd e (memOk_engineAddr _ _ _ h)
  · exact memOk_engineAddr _ _ _ h

theorem memOk_scanPages (u : Under) (va : W72) (n : Nat) {s : State} (h : MemOk s) : MemOk (s.scanPages u va n) := by
  induction n generalizing va s with
  | zero => exact h
  | succ n ih =>
    unfold State.scanPages
    exact ih _ (memOk_engineAddr _ _ _ h)

theorem memOk_scan (n : Nat) {s : State} (h : MemOk s) : MemOk (s.scan n) := by
  unfold State.scan
  split
  · exact h
  · exact h
  · exact memOk_scanPages _ _ _ h

theorem outOk_execFrameLatch {s : State} (h : MemOk s) : OutOk (execFrameLatch s) := by
  unfold execFrameLatch
  split
  · refine outOk_withSys _ _ h fun t ht => ?_
    split
    · exact (outOk_next _).2 ht
    · dsimp only
      split
      · exact (outOk_next _).2 ((memOk_later _ _).2 ht)
      split
      · exact (outOk_next _).2 (memOk_scan _ (memOk_setOut _ _ ht))
      split
      · exact (outOk_next _).2 (memOk_scan _ (memOk_setOut _ _ ht))
      split <;> rename_i e <;> have ht2 := memOk_snd e (memOk_fitsOutput _ _ ht)
      · exact (outOk_next _).2 ((memOk_later _ _).2 (memOk_setOut _ _ ht2))
      · exact (outOk_next _).2 (memOk_scan _ (memOk_setOut _ _ ht2))
      · exact (outOk_next _).2 (memOk_scan _ (memOk_poke _ _ _ (memOk_setOut _ _ ht2)))
  · exact (outOk_next _).2 h

theorem memOk_setSurfaceState (st : BitVec 2) {s : State} (h : MemOk s) : MemOk (s.setSurfaceState st) := by
  unfold State.setSurfaceState
  dsimp only
  split
  · exact memOk_poke _ _ _ (memOk_setOut _ _ h)
  · exact memOk_setOut _ _ h

theorem memOk_command (n a : Nat) {s : State} (h : MemOk s) : MemOk (s.command n a) := by
  unfold State.command
  dsimp only
  split
  · exact h
  split
  · exact memOk_poke _ _ _ h
  split
  · exact memOk_setOut _ _ (memOk_poke _ _ _ h)
  split
  · exact memOk_setSurfaceState _ (MemOk.congr (memOk_poke _ _ _ h) rfl rfl)
  split
  · exact memOk_setSurfaceState _ (memOk_poke _ _ _ h)
  · exact memOk_poke _ _ _ h

theorem outOk_execVerticalBlank {s : State} (h : MemOk s) : OutOk (execVerticalBlank s) := by
  unfold execVerticalBlank
  split
  · dsimp only
    refine outOk_withSys _ _ h (fun _ ht => ?_)
    split
    · exact (outOk_next _).2 ((memOk_later _ _).2 ht)
    split
    · exact (outOk_next _).2 (memOk_setOut _ _ ht)
    refine (outOk_next _).2 (memOk_command _ _ ?_)
    split
    · exact MemOk.congr (memOk_poke _ _ _ (memOk_setOut _ _ ht)) rfl rfl
    · exact memOk_poke _ _ _ (memOk_setOut _ _ ht)
  · exact (outOk_next _).2 h

theorem outOk_execGenlockHeld {s : State} (h : MemOk s) : OutOk (execGenlockHeld s) := by
  unfold execGenlockHeld
  split
  · refine outOk_withSys _ _ h (fun _ ht => (outOk_next _).2 ?_)
    split
    · exact memOk_setSurfaceState _ (memOk_setOut _ _ ht)
    · exact ht
  · exact (outOk_next _).2 h

theorem outOk_execLockLost {s : State} (h : MemOk s) : OutOk (execLockLost s) := by
  unfold execLockLost
  split
  · refine outOk_withSys _ _ h (fun _ ht => (outOk_next _).2 ?_)
    split
    · exact memOk_setSurfaceState _ ht
    · exact ht
  · exact (outOk_next _).2 h

theorem outOk_execMuxReturn {s : State} (h : MemOk s) : OutOk (execMuxReturn s) := by
  unfold execMuxReturn
  split
  · refine outOk_withSys _ _ h (fun _ ht => (outOk_next _).2 ?_)
    split
    · exact memOk_setSurfaceState _ (ht.congr rfl rfl)
    · exact ht
  · exact (outOk_next _).2 h

/-! ### Transfers and rings (spec/17_transfer.md) -/

theorem memOk_modXferCore (x : Xfer) (f : Core → Core) {s : State} (h : MemOk s) : MemOk (s.modXferCore x f) := by
  unfold State.modXferCore
  split
  · exact (memOk_modCore _ _ _).2 h
  · split
    · rename_i key img k e
      exact ⟨h.1, imagesOk_sset _ h.2 (h.2 _ (mem_images_of_xferImage e))⟩
    · exact h

theorem memOk_setXfer (t : Nat) (x : Xfer) {s : State} (h : MemOk s) : MemOk (s.setXfer t x) := h

theorem outOk_xferForm (g d : BitVec 4) (reads : List (BitVec 4)) (kind : XferKind) (ops : Ctx → XferOps)
    (src dst : Ctx → W72) (len : Ctx → Nat) (notice ring : Bool) (hv v : BitVec 4) (ch : BitVec 3) {s : State}
    (h : MemOk s) : OutOk (s.xferForm g d reads kind ops src dst len notice ring hv v ch) := by
  unfold State.xferForm
  refine outOk_guarded h ?_
  dsimp only
  split
  · exact (outOk_next _).2 (memOk_raise _ _ h)
  split
  · exact (outOk_next _).2 (memOk_raise _ _ h)
  refine outOk_afterRelease h ?_
  split
  · exact (outOk_next _).2 ((memOk_parkReplay _ _).2 h)
  refine outOk_commit h ((memOk_later _ _).2 (memOk_setXfer _ _ ?_))
  split
  · exact memOk_issueRec _ _ _ _ _ _ ((memOk_modHere _ _).2 ((memOk_modCore _ _ _).2 ((memOk_fresh _).2 h)))
  · exact (memOk_modHere _ _).2 ((memOk_modCore _ _ _).2 ((memOk_fresh _).2 h))

theorem memOk_stopXfer (t : Nat) (x : Xfer) (cause : Byte) (va : W64) {s : State} (h : MemOk s) :
    MemOk (s.stopXfer t x cause va) := h

theorem outOk_execTransferArrive {s : State} (h : MemOk s) : OutOk (execTransferArrive s) := by
  unfold execTransferArrive
  split
  · split
    · exact (outOk_next _).2 h
    split
    · exact (outOk_next _).2 h
    split
    · split
      · exact (outOk_next _).2 (memOk_stopXfer _ _ _ _ h)
      split <;> rename_i e <;> have ht := memOk_snd e (memOk_engineWords _ _ _ _ h)
      · exact (outOk_next _).2 ((memOk_later _ _).2 (memOk_setXfer _ _ ht))
      · exact (outOk_next _).2 (memOk_stopXfer _ _ _ _ ht)
      · split
        · exact (outOk_next _).2 (memOk_stopXfer _ _ _ _ ht)
        split
        · exact (outOk_next _).2 (memOk_stopXfer _ _ _ _ ht)
        · exact (outOk_next _).2 ((memOk_later _ _).2 (memOk_setXfer _ _ ht))
    all_goals exact (outOk_next _).2 ((memOk_later _ _).2 (memOk_setXfer _ _ h))
  · exact (outOk_next _).2 h

theorem outOk_execRingReserve {s : State} (h : MemOk s) : OutOk (execRingReserve s) := by
  unfold execRingReserve
  split
  · split
    · exact (outOk_next _).2 h
    split
    · exact (outOk_next _).2 ((memOk_later _ _).2 h)
    split
    · exact (outOk_next _).2 (memOk_stopXfer _ _ _ _ h)
    split
    · exact (outOk_next _).2 ((memOk_later _ _).2 h)
    refine (outOk_next _).2 ?_
    split
    · exact (memOk_later _ _).2 ((memOk_later _ _).2 (memOk_setXfer _ _ ((memOk_modCore _ _ _).2 h)))
    · exact (memOk_later _ _).2 (memOk_setXfer _ _ ((memOk_modCore _ _ _).2 h))
  · exact (outOk_next _).2 h

theorem memOk_byteReads (me : Agent) (u : Under) (l : List (Nat × W72)) {s : State} (h : MemOk s) :
    MemOk (s.byteReads me u l).2 := by
  induction l generalizing s with
  | nil => exact h
  | cons x l ih =>
    unfold State.byteReads
    split <;> rename_i e <;> have ht := memOk_snd e (memOk_engineRead _ _ _ _ _ h)
    · dsimp only
      split
      · rename_i e2
        exact memOk_snd e2 (ih ht)
      · exact ih ht
    · exact ht
    · exact ht

theorem memOk_pieceRead (t : Nat) (x : Xfer) (k : Nat) {s : State} (h : MemOk s) : MemOk (s.pieceRead t x k).2 := by
  unfold State.pieceRead
  dsimp only
  split
  · exact memOk_byteReads _ _ _ h
  · split
    · exact memOk_readAt _ _ _ h
    · exact h
  · split
    · exact memOk_byteReads _ _ _ h
    split <;> rename_i e <;> have ht := memOk_snd e (memOk_engineRead _ _ _ _ _ h)
    · exact ht
    · exact ht
    · exact ht

theorem memOk_pieceWrite (t : Nat) (x : Xfer) (k : Nat) (l : List (Nat × Byte × Bool)) (raw : Bool) {s : State}
    (h : MemOk s) : MemOk (s.pieceWrite t x k l raw).2 := by
  unfold State.pieceWrite
  dsimp only
  split
  · exact h
  split
  · split <;> rename_i e <;> have ht := memOk_snd e (memOk_engineAddr _ _ _ h)
    · exact memOk_engineWrite _ _ _ _ _ _ ht
    · exact ht
    · exact ht
  · split <;> rename_i e <;> have ht := memOk_snd e (memOk_engineAddr _ _ _ h)
    · exact memOk_engineWrite _ _ _ _ _ _ ht
    · exact ht
    · exact ht
  · split <;> rename_i e <;> have ht := memOk_snd e (memOk_engineAddr _ _ _ h)
    · exact memOk_engineWrite _ _ _ _ _ _ ht
    · exact ht
    · exact ht
  · exact h
  · split
    · exact h
    split
    · split
      · exact memOk_engineWrite _ _ _ _ _ _ h
      · exact h
    · exact memOk_engineWrite _ _ _ _ _ _ h

theorem outOk_pieceVector (t : Nat) (x : Xfer) {s : State} (h : MemOk s) : OutOk (s.pieceVector t x) := by
  unfold State.pieceVector
  split <;> rename_i e <;> have ht := memOk_snd e (memOk_engineRead _ _ _ _ _ h)
  · exact (outOk_next _).2 ((memOk_later _ _).2 (memOk_setXfer _ _ ht))
  · exact (outOk_next _).2 (memOk_stopXfer _ _ _ _ ht)
  · exact (outOk_next _).2 ((memOk_later _ _).2 (memOk_setXfer _ _ ht))

theorem outOk_execStreamerPiece {s : State} (h : MemOk s) : OutOk (execStreamerPiece s) := by
  unfold execStreamerPiece
  split
  · split
    · exact (outOk_next _).2 h
    · dsimp only
      split
      · exact (outOk_next _).2 h
      split
      · exact (outOk_next _).2 ((memOk_later _ _).2 h)
      split
      · exact (outOk_next _).2 ((memOk_later _ _).2 h)
      split
      · exact outOk_pieceVector _ _ h
      split <;> rename_i e <;> have ht := memOk_snd e (memOk_pieceRead _ _ _ ((memOk_pick _ _).2 h))
      · exact (outOk_next _).2 ((memOk_later _ _).2 (memOk_setXfer _ _ ht))
      · exact (outOk_next _).2 (memOk_stopXfer _ _ _ _ ht)
      · split <;> rename_i e2 <;> have ht2 := memOk_snd e2 (memOk_pieceWrite _ _ _ _ _ ht)
        · exact (outOk_next _).2 ((memOk_later _ _).2 (memOk_setXfer _ _ ht2))
        · exact (outOk_next _).2 (memOk_stopXfer _ _ _ _ ht2)
        · exact (outOk_next _).2 ((memOk_later _ _).2 (memOk_setXfer _ _ ht2))
  · exact (outOk_next _).2 h

theorem memOk_doneXfer (t : Nat) (x : Xfer) {s : State} (h : MemOk s) : MemOk (s.doneXfer t x) := by
  unfold State.doneXfer
  dsimp only
  refine memOk_modXferCore _ _ ?_
  split
  · exact h.congr rfl rfl
  · split <;> exact memOk_remoteFill _ _ _ (h.congr rfl rfl)

theorem outOk_doneCopy (t : Nat) (x : Xfer) {s : State} (h : MemOk s) : OutOk (s.doneCopy t x) := by
  unfold State.doneCopy
  extract_lets gone
  have hg : ∀ u : State, MemOk u → MemOk (gone u) := fun u hu => hu.congr rfl rfl
  split
  · exact (outOk_next _).2 (memOk_notify _ (hg _ h))
  split
  · exact (outOk_next _).2 (hg _ h)
  split <;> rename_i e <;> have ht := memOk_snd e (memOk_engineAddr _ _ _ h)
  · exact (outOk_next _).2 ((memOk_later _ _).2 (memOk_setXfer _ _ ht))
  · exact (outOk_next _).2 (memOk_stopXfer _ _ _ _ ht)
  · split
    · exact (outOk_next _).2 ((memOk_later _ _).2 ht)
    · refine (outOk_next _).2 (hg _ ?_)
      split
      · exact memOk_readAt _ _ _ ht
      · exact memOk_writeHome _ _ _ _ (memOk_readAt _ _ _ ht)

theorem outOk_execTransferFinish {s : State} (h : MemOk s) : OutOk (execTransferFinish s) := by
  unfold execTransferFinish
  split
  · split
    · exact (outOk_next _).2 h
    split
    · exact (outOk_next _).2 h
    split
    · exact (outOk_next _).2 ((memOk_later _ _).2 h)
    split
    · exact (outOk_next _).2 ((memOk_later _ _).2 h)
    split
    · exact outOk_doneCopy _ _ h
    split
    · exact (outOk_next _).2 ((memOk_later _ _).2 h)
    · exact (outOk_next _).2 (memOk_doneXfer _ _ h)
  · exact (outOk_next _).2 h

theorem outOk_execXwait (g d a : BitVec 4) (ch : BitVec 3) {s : State} (h : MemOk s) : OutOk (execXwait g d a ch s) := by
  refine outOk_guarded h ?_
  dsimp only
  split
  · exact (outOk_next _).2 (memOk_raise _ _ h)
  split
  · exact outOk_commit h (memOk_acquire _ _ ((memOk_modHere _ _).2 h))
  · exact (outOk_next _).2 ((memOk_parkReplay _ _).2 h)

theorem outOk_execXstat (g d : BitVec 4) (clr : Bool) (ch : BitVec 3) {s : State} (h : MemOk s) :
    OutOk (execXstat g d clr ch s) := by
  refine outOk_guarded h ?_
  refine outOk_commit h ?_
  dsimp only
  split
  · exact (memOk_modCore _ _ _).2 (memOk_acquire _ _ ((memOk_modHere _ _).2 h))
  · exact memOk_acquire _ _ ((memOk_modHere _ _).2 h)

theorem outOk_withRing (a : BitVec 4) (k : Nat → Ring → Outcome) {s : State} (h : MemOk s) (hk : ∀ x y, OutOk (k x y)) :
    OutOk (s.withRing a k) := by
  unfold State.withRing
  dsimp only
  split
  · exact (outOk_next _).2 (memOk_raise _ _ h)
  split
  · exact (outOk_next _).2 (memOk_raise _ _ h)
  · exact hk _ _

theorem outOk_withCount (b : BitVec 4) (code : Byte) (k : Nat → Outcome) {s : State} (h : MemOk s) (hk : ∀ x, OutOk (k x)) :
    OutOk (s.withCount b code k) := by
  unfold State.withCount
  dsimp only
  split
  · exact (outOk_next _).2 (memOk_raise _ _ h)
  · exact hk _

theorem outOk_misuse (hv reason : Nat) {s : State} (h : MemOk s) : OutOk (s.misuse hv reason) := by
  unfold State.misuse
  exact (outOk_next _).2 (memOk_raise _ _ h)

theorem outOk_execCbinit (g a b : BitVec 4) (n : BitVec 5) {s : State} (h : MemOk s) : OutOk (execCbinit g a b n s) := by
  refine outOk_guarded h ?_
  dsimp only
  split
  · exact (outOk_next _).2 (memOk_raise _ _ h)
  split
  · exact (outOk_next _).2 (memOk_raise _ _ h)
  split
  · split
    · exact outOk_misuse _ _ h
    split
    · exact outOk_misuse _ _ h
    split
    · exact outOk_misuse _ _ h
    split
    · exact outOk_commit h ((memOk_modCore _ _ _).2 h)
    · exact (outOk_next _).2 (memOk_raise _ _ h)
  split
  · exact outOk_misuse _ _ h
  split
  · exact outOk_misuse _ _ h
  split
  · exact outOk_misuse _ _ h
  split
  · exact outOk_commit h ((memOk_modCore _ _ _).2 h)
  · exact (outOk_next _).2 (memOk_raise _ _ h)

theorem outOk_execCbpush (g d a b : BitVec 4) {s : State} (h : MemOk s) : OutOk (execCbpush g d a b s) := by
  refine outOk_guarded h ?_
  refine outOk_withRing _ _ h (fun _ _ => outOk_withCount _ _ _ h (fun _ => ?_))
  split
  · exact outOk_misuse _ _ h
  split
  · exact outOk_misuse _ _ h
  · exact outOk_afterRelease h (outOk_commit h ((memOk_modHere _ _).2 ((memOk_modCore _ _ _).2 h)))

theorem outOk_execCbpop (g d a b : BitVec 4) {s : State} (h : MemOk s) : OutOk (execCbpop g d a b s) := by
  refine outOk_guarded h ?_
  refine outOk_withRing _ _ h (fun _ _ => outOk_withCount _ _ _ h (fun _ => ?_))
  split
  · exact outOk_misuse _ _ h
  · exact outOk_commit h ((memOk_modHere _ _).2 ((memOk_modCore _ _ _).2 h))

theorem outOk_execCbwait (g d a b : BitVec 4) {s : State} (h : MemOk s) : OutOk (execCbwait g d a b s) := by
  refine outOk_guarded h ?_
  refine outOk_withRing _ _ h (fun _ _ => outOk_withCount _ _ _ h (fun _ => ?_))
  split
  · exact outOk_misuse _ _ h
  split
  · exact (outOk_next _).2 ((memOk_parkReplay _ _).2 h)
  · exact outOk_commit h (memOk_acquire _ _ ((memOk_modHere _ _).2 h))

theorem outOk_execCbspace (g d a b : BitVec 4) {s : State} (h : MemOk s) : OutOk (execCbspace g d a b s) := by
  refine outOk_guarded h ?_
  refine outOk_withRing _ _ h (fun _ _ => outOk_withCount _ _ _ h (fun _ => ?_))
  split
  · exact outOk_misuse _ _ h
  split
  · exact outOk_misuse _ _ h
  split
  · exact (outOk_next _).2 ((memOk_parkReplay _ _).2 h)
  · exact outOk_commit h ((memOk_modHere _ _).2 h)

/-! ### Extents and installs (spec/23_extent.md) -/

theorem memOk_showExtent (i : Nat) (e : Extent) {s : State} (h : MemOk s) : MemOk (s.showExtent i e) := by
  unfold State.showExtent
  split
  · exact h
  · exact memOk_poke _ _ _ h

theorem memOk_setExtent (i : Nat) (e : Extent) {s : State} (h : MemOk s) : MemOk (s.setExtent i e) := by
  unfold State.setExtent
  exact memOk_showExtent _ _ (h.congr rfl rfl)

theorem memOk_remap (b : Nat) {s : State} (h : MemOk s) : ∀ t ∈ s.remap b, MemOk t := by
  intro t e
  unfold State.remap at e
  dsimp only at e
  split at e
  · exact absurd e nofun
  · cases e
    exact h.congr rfl rfl

theorem memOk_counterWait (x : Install) {s : State} (h : MemOk s) : MemOk (s.counterWait x) := by
  unfold State.counterWait
  split
  · split
    · exact h
    dsimp only
    exact (memOk_later _ _).2 (MemOk.congr ((memOk_fresh _).2 h) rfl rfl)
  · exact h

theorem memOk_endInstall (i : Nat) (x : Install) (code : Byte) {s : State} (h : MemOk s) :
    MemOk (s.endInstall i x code) := by
  unfold State.endInstall
  dsimp only
  refine memOk_counterWait _ ?_
  split
  · exact memOk_post _ _ (memOk_setExtent _ _ (h.congr rfl rfl))
  · exact memOk_setExtent _ _ (h.congr rfl rfl)

theorem memOk_noSpares (i : Nat) (x : Install) (b : Nat) {s : State} (h : MemOk s) : MemOk (s.noSpares i x b) := by
  unfold State.noSpares
  dsimp only
  exact memOk_notify _ (memOk_endInstall _ _ _ (h.congr rfl rfl))

theorem memOk_setInstall (i : Nat) (x : Install) {s : State} (h : MemOk s) : MemOk (s.setInstall i x) := h

theorem outOk_execBlockErase {s : State} (h : MemOk s) : OutOk (execBlockErase s) := by
  unfold execBlockErase
  split
  · refine outOk_withSys _ _ h fun t ht => ?_
    split
    · exact (outOk_next _).2 ht
    split
    · exact (outOk_next _).2 (memOk_endInstall _ _ _ ht)
    extract_lets heads p v go
    have hp : MemOk p.2 := (memOk_pick _ _).2 ht
    split
    · exact (outOk_next _).2 ((memOk_later _ _).2 ht)
    extract_lets phys k u f
    have hgo : ∀ (w : State) y, MemOk w → OutOk (go w y) := fun w y hw =>
      (outOk_next _).2 ((memOk_later _ _).2 (memOk_setInstall _ _ hw))
    have hf : MemOk f.2 := (memOk_pick _ _).2 (hp.congr rfl rfl)
    split
    · split
      · exact (outOk_next _).2 (memOk_noSpares _ _ _ hp)
      · exact hgo _ _ (memOk_remap _ hp _ ‹_›)
    split
    · exact hgo _ _ hf
    split
    · exact (outOk_next _).2 (memOk_noSpares _ _ _ hf)
    · exact hgo _ _ (memOk_remap _ hf _ ‹_›)
  · exact (outOk_next _).2 h

theorem memOk_sourceKinds (u : Under) (l : List W72) {s : State} (h : MemOk s) : MemOk (s.sourceKinds u l).2 := by
  induction l generalizing s with
  | nil => exact h
  | cons x l ih =>
    unfold State.sourceKinds
    split
    · rename_i e
      have ht := memOk_snd e (memOk_engineAddr _ _ _ h)
      split
      · exact ht
      · exact ih ht
    · exact memOk_engineAddr _ _ _ h

theorem outOk_execUnitProgram {s : State} (h : MemOk s) : OutOk (execUnitProgram s) := by
  unfold execUnitProgram
  split
  · refine outOk_withSys _ _ h fun t ht => ?_
    split
    · exact (outOk_next _).2 ht
    extract_lets e u key b put va
    have hput : ∀ (v : State) data, MemOk v → OutOk (put v data) := by
      intro v data hv
      have hf : MemOk (v.pick 2).2 := (memOk_pick _ _).2 hv
      unfold put
      dsimp only
      generalize (cellsOf key data (2 ^ 16)).filter (fun c => c.2 != 0) = cells
      split
      · split
        · exact (outOk_next _).2 (memOk_noSpares _ _ _ hf)
        · exact (outOk_next _).2 ((memOk_later _ _).2 (memOk_setInstall _ _ (memOk_remap _ hf _ ‹_›)))
      · have hm := Memory.wf_putAll _ cells (Memory.wf_clear _ key (2 ^ 16) hf.1)
        exact (outOk_next _).2 ((memOk_later _ _).2 (memOk_setInstall _ _ ⟨hm, hf.2⟩))
    clear_value put
    split
    · exact (outOk_next _).2 (memOk_endInstall _ _ _ ht)
    split
    · exact (outOk_next _).2 ((memOk_later _ _).2 ht)
    split
    · exact hput _ _ ht
    split <;> rename_i e <;> have hk := memOk_snd e (memOk_sourceKinds _ _ ht)
    · exact (outOk_next _).2 ((memOk_later _ _).2 (memOk_setInstall _ _ hk))
    · exact (outOk_next _).2 (memOk_endInstall _ _ _ hk)
    split <;> rename_i e <;> have hl := memOk_snd e (memOk_engineLines _ _ _ _ _ hk)
    · exact (outOk_next _).2 ((memOk_later _ _).2 (memOk_setInstall _ _ hl))
    · exact (outOk_next _).2 (memOk_endInstall _ _ _ hl)
    split
    · exact (outOk_next _).2 (memOk_endInstall _ _ _ hl)
    · exact hput _ _ hl
  · exact (outOk_next _).2 h

theorem outOk_installCounter (n : Nat) (x : Install) (ctr : W72) {s : State} (h : MemOk s) :
    OutOk (s.installCounter n x ctr) := by
  unfold State.installCounter
  extract_lets gone
  have hg : ∀ u : State, MemOk u → MemOk (gone u) := fun u hu => hu.congr rfl rfl
  split <;> rename_i e <;> have ht := memOk_snd e (memOk_engineAddr _ _ _ h)
  · exact (outOk_next _).2 ((memOk_later _ _).2 (memOk_setInstall _ _ ht))
  · exact (outOk_next _).2 (hg _ ht)
  · split
    · exact (outOk_next _).2 ((memOk_later _ _).2 ht)
    · refine (outOk_next _).2 (hg _ ?_)
      split
      · exact memOk_readAt _ _ _ ht
      · exact memOk_writeHome _ _ _ _ (memOk_readAt _ _ _ ht)

theorem outOk_execInstallComplete {s : State} (h : MemOk s) : OutOk (execInstallComplete s) := by
  unfold execInstallComplete
  split
  · refine outOk_withSys _ _ h fun t ht => ?_
    split
    · exact (outOk_next _).2 ht
    · split
      · split
        · exact outOk_installCounter _ _ _ ht
        · exact (outOk_next _).2 ht
      · dsimp only
        split
        · exact (outOk_next _).2 (memOk_endInstall _ _ _ ht)
        split
        · exact (outOk_next _).2 ht
        split
        · exact (outOk_next _).2 (memOk_endInstall _ _ _ ((memOk_pick _ _).2 ht))
        split
        · exact (outOk_next _).2 (memOk_endInstall _ _ _ (MemOk.congr ((memOk_pick _ _).2 ht) rfl rfl))
        split <;> rename_i e <;> have ht2 := memOk_snd e (memOk_engineLines _ _ _ _ _ ((memOk_pick _ _).2 ht))
        · exact (outOk_next _).2 ((memOk_later _ _).2 (memOk_setInstall _ _ ht2))
        · exact (outOk_next _).2 (memOk_endInstall _ _ _ ht2)
        · split
          · exact (outOk_next _).2 (memOk_endInstall _ _ _ ht2)
          split
          · exact (outOk_next _).2 (memOk_endInstall _ _ _ (ht2.congr rfl rfl))
          · exact (outOk_next _).2 (memOk_endInstall _ _ _ ht2)
  · exact (outOk_next _).2 h

theorem outOk_execSupersedeDrain {s : State} (h : MemOk s) : OutOk (execSupersedeDrain s) := by
  unfold execSupersedeDrain
  split
  · dsimp only
    refine outOk_withSys _ _ h (fun _ ht => ?_)
    split
    · exact (outOk_next _).2 ht
    split
    · exact (outOk_next _).2 ((memOk_later _ _).2 ht)
    · exact (outOk_next _).2 (memOk_setExtent _ _ ((memOk_modHive _ _ _).2 ((memOk_modHive _ _ _).2 ht)))
  · exact (outOk_next _).2 h

theorem memOk_offerCode (i : Nat) (x : Install) {s : State} (h : MemOk s) : MemOk (s.offerCode i x).2 := by
  unfold State.offerCode
  dsimp only
  split
  · exact (memOk_pick _ _).2 h
  · exact h

theorem memOk_offerInstall (i : Nat) (x : Install) {s : State} (h : MemOk s) : MemOk (s.offerInstall i x).2 := by
  unfold State.offerInstall
  split
  · rename_i e
    have ht := memOk_snd e (memOk_offerCode _ _ h)
    dsimp only
    exact (memOk_later _ _).2 (memOk_setInstall _ _ (memOk_setExtent _ _ ht))
  · exact memOk_offerCode _ _ h

theorem outOk_nectFault (code : Nat) {s : State} (h : MemOk s) : OutOk (s.nectFault code) := by
  unfold State.nectFault
  exact (outOk_next _).2 (memOk_raise _ _ h)

theorem outOk_execNinst (g d a : BitVec 4) {s : State} (h : MemOk s) : OutOk (execNinst g d a s) := by
  refine outOk_guarded h ?_
  split
  · refine outOk_atHome _ _ _ _ h (fun _ ht => ?_)
    dsimp only
    split
    · exact outOk_nectFault _ (memOk_readAt _ _ _ ht)
    split
    · exact (outOk_next _).2 ((memOk_parkStage _ _ _).2 (memOk_sysAsk _ _ (memOk_readAt _ _ _ ht)))
    split
    · exact outOk_nectFault _ (memOk_readAt _ _ _ ht)
    · exact outOk_commit (memOk_readAt _ _ _ ht) ((memOk_modHere _ _).2
        (memOk_offerInstall _ _ (memOk_sysTold _ _ (memOk_readAt _ _ _ ht))))
  dsimp only
  split
  · exact (outOk_next _).2 (memOk_raise _ _ h)
  split <;> rename_i e <;> have ht := memOk_snd e (memOk_place _ _ _ h)
  · exact (outOk_next _).2 ht
  · exact outOk_afterRelease ht ((outOk_next _).2 ((memOk_parkStage _ _ _).2 ((memOk_modHere _ _).2 ht)))

theorem outOk_withExtent (a : BitVec 4) (k : State → Nat → Outcome) {s : State} (h : MemOk s)
    (hk : ∀ (t : State) x, MemOk t → OutOk (k t x)) : OutOk (s.withExtent a k) := by
  unfold State.withExtent
  dsimp only
  split
  · exact (outOk_next _).2 (memOk_raise _ _ h)
  split
  · exact outOk_nectFault _ h
  split
  · exact (outOk_next _).2 ((memOk_parkReplay _ _).2 (memOk_sysAsk _ _ h))
  · exact hk _ _ (memOk_sysTold _ _ h)

theorem outOk_execNwait (g d a : BitVec 4) {s : State} (h : MemOk s) : OutOk (execNwait g d a s) := by
  refine outOk_guarded h ?_
  refine outOk_withExtent _ _ h (fun _ _ ht => ?_)
  split
  · exact (outOk_next _).2 ((memOk_parkReplay _ _).2 ht)
  · exact outOk_commit ht (memOk_acquire _ _ ((memOk_modHere _ _).2 ht))

theorem outOk_execNstat (g d a : BitVec 4) (f : BitVec 2) {s : State} (h : MemOk s) : OutOk (execNstat g d a f s) := by
  refine outOk_guarded h ?_
  dsimp only
  split
  · exact (outOk_next _).2 (memOk_raise _ _ h)
  split
  · exact (outOk_next _).2 ((memOk_parkReplay _ _).2 (memOk_sysAsk _ _ h))
  · exact outOk_commit h (memOk_acquire _ _ ((memOk_modHere _ _).2 h))

theorem outOk_execNretire (g a : BitVec 4) {s : State} (h : MemOk s) : OutOk (execNretire g a s) := by
  refine outOk_guarded h ?_
  refine outOk_withExtent _ _ h (fun _ _ ht => ?_)
  dsimp only
  split
  · exact outOk_nectFault _ ht
  refine outOk_commit ht ?_
  split
  · exact (memOk_later _ _).2 (memOk_setExtent _ _ ht)
  · split
    · exact memOk_setInstall _ _ ht
    · exact ht
  · exact memOk_setExtent _ _ ht
  · exact ht
  · exact ht

/-! ### The node tree (spec/16_kernel.md R336-R342) -/

theorem memOk_dropGroup (node : BitVec 58) (gid : Nat) (g : Group) {s : State} (h : MemOk s) :
    MemOk (s.dropGroup node gid g) := by
  unfold State.dropGroup
  dsimp only
  exact memOk_endGroup _ (memOk_foldl (fun _ _ ht => memOk_free _ _
    (memOk_countUnit _ _ ((memOk_modCore _ _ _).2 ht))) _ h)

theorem memOk_orphans (c : Ctx) {s : State} (h : MemOk s) : MemOk (s.orphans c) := h

theorem memOk_dropSaved (lid : Nat) (node : BitVec 58) {s : State} (h : MemOk s) : MemOk (s.dropSaved lid node) := by
  have hi : MemOk { s with images := s.images.map fun e => (e.1, s.imageWithout lid e.2) } :=
    ⟨h.1, imagesOk_map _ h.2 fun _ => rfl⟩
  unfold State.dropSaved
  refine memOk_foldl (fun t e ht => ?_) _ (memOk_foldl (fun t c ht => memOk_cmdDone c ht) _ hi)
  dsimp only
  split
  · split
    · exact memOk_sendFill _ _ _ ((memOk_modCore _ _ _).2 ht)
    · exact (memOk_modCore _ _ _).2 ht
  split
  · split
    · split
      · exact memOk_countUnit _ _ (memOk_sendFill _ _ _ ((memOk_modCore _ _ _).2 ht))
      · exact memOk_sendFill _ _ _ ((memOk_modCore _ _ _).2 ht)
    split
    · exact memOk_countUnit _ _ ((memOk_modCore _ _ _).2 ht)
    · exact (memOk_modCore _ _ _).2 ht
  split
  · split
    · exact memOk_orphans _ (memOk_sendFill _ _ _ ((memOk_modCore _ _ _).2 ht))
    · exact memOk_countUnit _ _ (memOk_sendFill _ _ _ ((memOk_modCore _ _ _).2 ht))
  split
  · exact memOk_orphans _ ((memOk_modCore _ _ _).2 ht)
  · exact memOk_countUnit _ _ ((memOk_modCore _ _ _).2 ht)

theorem memOk_cancelLaunch (lid : Nat) {s : State} (h : MemOk s) : MemOk (s.cancelLaunch lid) := by
  unfold State.cancelLaunch
  split
  · exact h
  dsimp only
  refine memOk_endLaunch _ (memOk_foldl (fun _ _ ht => memOk_endGroup _ ht) _
    (memOk_foldl (fun _ _ ht => ?_) _ (MemOk.congr (memOk_foldl (fun _ _ ht => memOk_foldl (fun _ _ ht2 => ?_) _ ht) _
    (memOk_dropSaved _ _ (memOk_foldl (fun _ _ ht => memOk_dropGroup _ _ _ ht) _ ?_))) rfl rfl)))
  · split
    · exact memOk_resetEngine _ _ ht
    · exact ht
  · split
    · exact (memOk_later _ _).2 (memOk_raiseAsync _ _ _ _ ht2)
    · exact ht2
  split
  · exact h.congr rfl rfl
  · exact memOk_addDone _ _ (memOk_addTrig _ _ (h.congr rfl rfl))

theorem memOk_cancelAsk {s : State} (h : MemOk s) : MemOk s.cancelAsk := by
  unfold State.cancelAsk
  split
  · exact memOk_nodeAsk _ _ h
  · exact h

theorem memOk_cancelNode (node : BitVec 58) (a : Nat) {s : State} (h : MemOk s) : MemOk (s.cancelNode node a) := by
  unfold State.cancelNode
  split
  · exact h
  dsimp only
  refine memOk_foldl (fun _ _ ht => ?_) _ (memOk_poke _ _ _ h)
  split
  · exact memOk_cancelLaunch _ ht
  · exact ht

theorem memOk_nodePlace (a : BitVec 4) (bad : Byte) {s : State} (h : MemOk s) : MemOk (s.nodePlace a bad).2 := by
  unfold State.nodePlace
  dsimp only
  split
  · exact memOk_raise _ _ h
  split
  · exact memOk_raise _ _ h
  split <;> rename_i e <;> have ht := memOk_snd e (memOk_translateAs _ _ _ _ _ h)
  · split <;> rename_i e2 <;> have ht2 := memOk_snd e2 (memOk_pageChecks _ _ ht)
    · exact ht2
    · exact memOk_raise _ _ ht2
    · exact (memOk_parkReplay _ _).2 ht2
  · exact memOk_raise _ _ ht
  · exact (memOk_parkReplay _ _).2 ht

theorem outOk_nodeForm (rel : Bool) (a : BitVec 4) (bad : Byte) (k : State → Loc → Outcome) {s : State} (h : MemOk s)
    (hk : ∀ (t : State) x, MemOk t → OutOk (k t x)) : OutOk (s.nodeForm rel a bad k) := by
  unfold State.nodeForm
  split
  · refine outOk_atHome _ _ _ _ h (fun _ ht => ?_)
    dsimp only
    split
    · exact (outOk_next _).2 (memOk_raise _ _ ht)
    split
    · exact (outOk_next _).2 (memOk_raise _ _ ht)
    · exact hk _ _ ht
  split <;> rename_i e <;> have ht := memOk_snd e (memOk_nodePlace _ _ h)
  · exact (outOk_next _).2 ht
  · exact outOk_afterRelease ht ((outOk_next _).2 ((memOk_parkStage _ _ _).2 ((memOk_modHere _ _).2 ht)))

theorem outOk_execCancel (g a : BitVec 4) {s : State} (h : MemOk s) : OutOk (execCancel g a s) := by
  refine outOk_guarded h ?_
  refine outOk_nodeForm _ _ _ _ h (fun _ _ ht => ?_)
  split
  · exact (outOk_next _).2 ((memOk_parkStage _ _ _).2 (memOk_cancelAsk ht))
  · exact outOk_commit ht (MemOk.congr (memOk_cancelNode _ _ ht) rfl rfl)

theorem outOk_execCnt (g d a : BitVec 4) (f : BitVec 2) {s : State} (h : MemOk s) : OutOk (execCnt g d a f s) := by
  refine outOk_guarded h ?_
  exact outOk_nodeForm _ _ _ _ h (fun _ _ ht => outOk_commit (memOk_readHome _ _ _ ht)
    (memOk_acquire _ _ ((memOk_modHere _ _).2 (memOk_readHome _ _ _ ht))))

theorem memOk_markTriggered (c : Ctx) {s : State} (h : MemOk s) : MemOk (s.markTriggered c) :=
  ⟨h.1, imagesOk_map _ h.2 fun _ => rfl⟩

theorem outOk_execTrig (g : BitVec 4) {s : State} (h : MemOk s) : OutOk (execTrig g s) := by
  refine outOk_guarded h ?_
  dsimp only
  split
  · exact outOk_commit h h
  split
  · exact (outOk_next _).2 ((memOk_parkReplay _ _).2 (memOk_nodeAsk _ _ h))
  refine outOk_afterRelease h (outOk_commit h ?_)
  split
  · exact memOk_sysTold _ _ (memOk_markTriggered _ h)
  · exact memOk_issueWrite _ _ _ (memOk_markTriggered _ h)

/-! ### Work queues (spec/15_queue.md R301-R311) -/

theorem memOk_askQueues {s : State} (h : MemOk s) : MemOk s.askQueues := by
  unfold State.askQueues
  refine memOk_foldl (fun _ _ ht => ?_) _ h
  split
  · exact memOk_sysAsk _ _ ht
  · exact ht

theorem memOk_setQueue (q : Nat) (k : Queue) {s : State} (h : MemOk s) : MemOk (s.setQueue q k) := h

theorem memOk_queueError (q seq : Nat) {s : State} (h : MemOk s) : MemOk (s.queueError q seq) := by
  unfold State.queueError
  exact memOk_notify _ h

theorem outOk_execQhdr {s : State} (h : MemOk s) : OutOk (execQhdr s) := by
  unfold execQhdr
  split
  · dsimp only
    refine outOk_withSys _ _ h (fun _ ht => ?_)
    split
    · exact (outOk_next _).2 (memOk_queueError _ _ ht)
    split
    · exact (outOk_next _).2 (memOk_queueError _ _ (memOk_poke _ _ _ (memOk_poke _ _ _ ht)))
    · exact (outOk_next _).2 (memOk_setQueue _ _ (memOk_poke _ _ _ (memOk_poke _ _ _ ht)))
  · exact (outOk_next _).2 h

theorem outOk_execQueueStateStore {s : State} (h : MemOk s) : OutOk (execQueueStateStore s) := by
  unfold execQueueStateStore
  split
  · refine outOk_withSys _ _ h (fun _ ht => ?_)
    split
    · exact (outOk_next _).2 ht
    · exact (outOk_next _).2 (memOk_poke _ _ _ ht)
  · exact (outOk_next _).2 h

theorem outOk_execNheadWrite {s : State} (h : MemOk s) : OutOk (execNheadWrite s) := by
  unfold execNheadWrite
  split
  · exact (outOk_next _).2 (memOk_flushNotices _ (memOk_sysTold _ _ (h.congr rfl rfl)))
  · exact (outOk_next _).2 h

theorem memOk_serveQueue (q : Nat) {s : State} (h : MemOk s) : MemOk (s.serveQueue q) := by
  unfold State.serveQueue
  exact (memOk_modHive _ _ _).2 h

theorem outOk_badPacket (q : Nat) (hv : QHead) {s : State} (h : MemOk s) : OutOk (s.badPacket q hv) := by
  unfold State.badPacket
  dsimp only
  refine (outOk_next _).2 (memOk_queueError _ _ (memOk_poke _ _ _ ?_))
  split
  · refine memOk_setQueue _ _ ?_
    split
    · exact memOk_serveQueue _ h
    · exact h
  · exact h

theorem outOk_stallQueue (q : Nat) (k : Queue) (st : Option (Nat × Nat)) {s : State} (h : MemOk s) :
    OutOk (s.stallQueue q k st) := by
  unfold State.stallQueue
  exact (outOk_next _).2 (memOk_setQueue _ _ (memOk_serveQueue _ h))

theorem outOk_packetRead (p : Pkt) (u : Under) (va : W72) (n : Nat) (go : State → Nat → Outcome) {s : State}
    (h : MemOk s) (hgo : ∀ (t : State) x, MemOk t → OutOk (go t x)) : OutOk (s.packetRead p u va n go) := by
  unfold State.packetRead
  split <;> rename_i e <;> have ht := memOk_snd e (memOk_engineRead _ _ _ _ _ h)
  · exact outOk_stallQueue _ _ _ ht
  · exact outOk_badPacket _ _ ht
  · split
    · exact outOk_badPacket _ _ ht
    · exact hgo _ _ ht

theorem memOk_advance (p : Pkt) {s : State} (h : MemOk s) : MemOk (s.advance p) := by
  unfold State.advance
  dsimp only
  refine memOk_setQueue _ _ (memOk_poke _ _ _ ?_)
  split
  · exact memOk_notify _ h
  · exact h

theorem outOk_slotsRead (p : Pkt) (n acc : Nat) (go : State → Nat → Outcome) (n1 : Nat) {s : State} (h : MemOk s)
    (hgo : ∀ (t : State) x, MemOk t → OutOk (go t x)) : OutOk (s.slotsRead p n acc go n1) := by
  induction n1 generalizing n acc s with
  | zero => exact hgo _ _ h
  | succ n1 ih =>
    unfold State.slotsRead
    exact outOk_packetRead _ _ _ _ _ h (fun _ _ ht => ih _ _ ht)

theorem outOk_packet (q : Nat) (k : Queue) (hv : QHead) (go : State → Pkt → Outcome) {s : State} (h : MemOk s)
    (hgo : ∀ (t : State) x, MemOk t → OutOk (go t x)) : OutOk (s.packet q k hv go) := by
  unfold State.packet
  dsimp only
  exact outOk_packetRead _ _ _ _ _ h (fun _ _ ht => outOk_slotsRead _ _ _ _ _ ht (fun _ _ ht2 => hgo _ _ ht2))

theorem outOk_packetForm (q ty : Nat) (good : Pkt → Bool) (go : State → Pkt → Outcome) {s : State} (h : MemOk s)
    (hgo : ∀ (t : State) x, MemOk t → OutOk (go t x)) : OutOk (s.packetForm q ty good go) := by
  unfold State.packetForm
  split
  · exact (outOk_next _).2 h
  split
  · exact (outOk_next _).2 h
  refine outOk_packet _ _ _ _ h (fun _ _ ht => ?_)
  split
  · exact outOk_badPacket _ _ ht
  split
  · exact (outOk_next _).2 ht
  split
  · exact outOk_badPacket _ _ ht
  · exact hgo _ _ (memOk_serveQueue _ ht)

theorem outOk_heldPacket (q : Nat) (is : QWait → Bool) (go : State → Pkt → Outcome) {s : State} (h : MemOk s)
    (hgo : ∀ (t : State) x, MemOk t → OutOk (go t x)) : OutOk (s.heldPacket q is go) := by
  unfold State.heldPacket
  split
  · exact (outOk_next _).2 h
  split
  · exact (outOk_next _).2 h
  · exact outOk_packet _ _ _ _ h (fun _ _ ht => hgo _ _ ht)

theorem memOk_fencePass (p : Pkt) (all : Bool) (l : List (Nat × W72 × Nat)) {s : State} (h : MemOk s) :
    MemOk (s.fencePass p all l).2 := by
  induction l generalizing all s with
  | nil => exact h
  | cons x l ih =>
    unfold State.fencePass
    split <;> rename_i e <;> have ht := memOk_snd e (memOk_engineRead _ _ _ _ _ h)
    · exact ht
    · exact ht
    · dsimp only
      exact ih _ ht

theorem outOk_afterPass (p : Pkt) {s : State} (h : MemOk s) : OutOk (s.afterPass p) := by
  unfold State.afterPass
  split <;> rename_i e <;> have ht := memOk_snd e (memOk_fencePass _ _ _ h)
  · exact (outOk_next _).2 (memOk_advance _ ht)
  · exact (outOk_next _).2 (memOk_setQueue _ _ ht)
  · exact (outOk_next _).2 (memOk_setQueue _ _ ht)
  · exact (outOk_next _).2 (memOk_setQueue _ _ ht)

theorem outOk_execFencePacket {s : State} (h : MemOk s) : OutOk (execFencePacket s) := by
  unfold execFencePacket
  split
  · exact outOk_packetForm _ _ _ _ h (fun _ _ ht => outOk_afterPass _ ht)
  · exact (outOk_next _).2 h

theorem outOk_execFencePass {s : State} (h : MemOk s) : OutOk (execFencePass s) := by
  unfold execFencePass
  split
  · refine outOk_heldPacket _ _ _ h (fun _ _ ht => ?_)
    split
    · exact outOk_afterPass _ ht
    · exact outOk_badPacket _ _ ht
  · exact (outOk_next _).2 h

theorem outOk_execSignalPacket {s : State} (h : MemOk s) : OutOk (execSignalPacket s) := by
  unfold execSignalPacket
  split
  · split
    · exact (outOk_next _).2 h
    · split
      · split
        · exact (outOk_next _).2 h
        · exact outOk_packet _ _ _ _ h fun t p ht => (outOk_next _).2 (memOk_advance p ht)
      · refine outOk_packetForm _ _ _ _ h fun t p ht => ?_
        have ha := memOk_engineAddr p.under (field72 p.w 8) (if p.args = 1 then .red else .store) ht
        dsimp only
        split <;> rename_i e <;> rw [e] at ha
        · exact outOk_stallQueue _ _ _ ha
        · exact outOk_badPacket _ _ ha
        · exact (outOk_next _).2 (ha.congr rfl rfl)
  · exact (outOk_next _).2 h

theorem outOk_execCopyPacket {s : State} (h : MemOk s) : OutOk (execCopyPacket s) := by
  unfold execCopyPacket
  split
  · exact outOk_packetForm _ _ _ _ h (fun _ _ ht => (outOk_next _).2
      (memOk_advance _ ((memOk_later _ _).2 (memOk_setXfer _ _ ((memOk_fresh _).2 ht)))))
  · exact (outOk_next _).2 h

theorem outOk_execInstallPacket {s : State} (h : MemOk s) : OutOk (execInstallPacket s) := by
  unfold execInstallPacket
  split
  · refine outOk_packetForm _ _ _ _ h fun t p ht => ?_
    split
    · exact outOk_badPacket _ _ ht
    · rename_i i x _
      split
      · exact outOk_stallQueue _ _ _ (memOk_sysAsk _ _ ht)
      · have ho := memOk_offerInstall i x ((memOk_sysTold 0 (t.extVA i) ht))
        refine (outOk_next _).2 (memOk_advance _ ?_)
        split
        · exact ho
        · exact memOk_counterWait _ ho
  · exact (outOk_next _).2 h

theorem outOk_execMarkerPacket {s : State} (h : MemOk s) : OutOk (execMarkerPacket s) := by
  unfold execMarkerPacket
  split
  · split
    · exact (outOk_next _).2 h
    split
    · split
      · exact outOk_packet _ _ _ _ h (fun _ _ ht => (outOk_next _).2 (memOk_advance _ (memOk_rearm _ _ _ ht)))
      · exact (outOk_next _).2 h
    refine outOk_packetForm _ _ _ _ h (fun _ _ ht => ?_)
    split
    · exact (outOk_next _).2 (memOk_advance _ ht)
    · exact (outOk_next _).2 (memOk_setQueue _ _ (memOk_dropTlb _ _ _ ht))
  · exact (outOk_next _).2 h

theorem outOk_execCancelPacket {s : State} (h : MemOk s) : OutOk (execCancelPacket s) := by
  unfold execCancelPacket
  split
  · refine outOk_packetForm _ _ _ _ h (fun _ _ ht => outOk_packetRead _ _ _ _ _ ht (fun _ _ ht2 => ?_))
    split
    · exact outOk_badPacket _ _ ht2
    split
    · exact outOk_stallQueue _ _ _ (memOk_cancelAsk ht2)
    split
    · exact outOk_stallQueue _ _ _ (memOk_nodeAsk _ _ ht2)
    split
    · exact outOk_badPacket _ _ (memOk_sysTold _ _ ht2)
    · exact (outOk_next _).2 (memOk_advance _ (memOk_cancelNode _ _ ht2))
  · exact (outOk_next _).2 h

theorem outOk_predsOk (p : Pkt) (asid : Nat) (go : State → Outcome) (l : List (BitVec 58)) {s : State} (h : MemOk s)
    (hgo : ∀ (t : State), MemOk t → OutOk (go t)) : OutOk (s.predsOk p asid go l) := by
  induction l generalizing s with
  | nil => exact hgo _ h
  | cons x l ih =>
    unfold State.predsOk
    refine outOk_packetRead _ _ _ _ _ h (fun _ _ ht => ?_)
    split
    · exact outOk_badPacket _ _ ht
    · exact ih ht

theorem outOk_entriesOf (p : Pkt) (u : Under) (va : W72) (acc : List (Nat × Nat))
    (go : State → List (Nat × Nat) → Outcome) (n : Nat) {s : State} (h : MemOk s)
    (hgo : ∀ (t : State) x, MemOk t → OutOk (go t x)) : OutOk (s.entriesOf p u va acc go n) := by
  induction n generalizing acc s with
  | zero => exact hgo _ _ h
  | succ n ih =>
    unfold State.entriesOf
    exact outOk_packetRead _ _ _ _ _ h (fun _ _ ht => ih _ ht)

theorem outOk_handOver (p : Pkt) (i : LaunchInfo) {s : State} (h : MemOk s) : OutOk (s.handOver p i) := by
  unfold State.handOver
  dsimp only
  split
  · exact outOk_stallQueue _ _ _ (memOk_sysAsk _ _ h)
  split
  · exact outOk_stallQueue _ _ _ h
  refine (outOk_next _).2 (memOk_advance _ ((memOk_later _ _).2 (MemOk.congr ((memOk_fresh _).2 ?_) rfl rfl)))
  refine (memOk_fresh _).2 ?_
  split
  · exact memOk_poke _ _ _ h
  · exact memOk_sysTold _ _ h

theorem outOk_launchNode (p : Pkt) (asid : Nat) (go : State → Outcome) {s : State} (h : MemOk s)
    (hgo : ∀ (t : State), MemOk t → OutOk (go t)) : OutOk (s.launchNode p asid go) := by
  unfold State.launchNode
  dsimp only
  refine outOk_packetRead _ _ _ _ _ h (fun _ _ ht => ?_)
  split
  · exact outOk_badPacket _ _ ht
  split
  · exact hgo _ ht
  split
  · exact outOk_badPacket _ _ ht
  refine outOk_packetRead _ _ _ _ _ ht (fun _ _ ht2 => ?_)
  split
  · exact outOk_badPacket _ _ ht2
  · exact hgo _ ht2

theorem outOk_formatDelta (p : Pkt) (u : Under) (go : State → Byte → Outcome) {s : State} (h : MemOk s)
    (hgo : ∀ (t : State) x, MemOk t → OutOk (go t x)) : OutOk (s.formatDelta p u go) := by
  unfold State.formatDelta
  dsimp only
  split
  · exact hgo _ _ h
  split
  · exact outOk_badPacket _ _ h
  refine outOk_packetRead _ _ _ _ _ h (fun _ _ ht => ?_)
  split
  · exact outOk_badPacket _ _ ht
  · exact hgo _ _ ht

theorem outOk_execLaunchPacket {s : State} (h : MemOk s) : OutOk (execLaunchPacket s) := by
  unfold execLaunchPacket
  split
  · refine outOk_packetForm _ _ _ _ h fun t p ht => outOk_packetRead _ _ _ _ _ ht fun t d ht => ?_
    extract_lets asid prof ku table rest
    split
    · exact outOk_badPacket _ _ ht
    · refine outOk_launchNode _ _ _ ht fun t ht => outOk_predsOk _ _ _ _ ht fun t ht =>
        outOk_packetRead _ _ _ _ _ ht fun t pf ht => ?_
      split
      · exact outOk_badPacket _ _ ht
      · exact outOk_formatDelta _ _ _ ht fun t delta ht => outOk_entriesOf _ _ _ _ _ _ ht fun t es ht =>
          outOk_handOver _ _ ht
  · exact (outOk_next _).2 h

theorem memOk_slotPlaces (q : Nat) (hd : QHead) (u : Under) (first n : Nat) {s : State} (h : MemOk s) :
    MemOk (s.slotPlaces q hd u first n).2 := by
  induction n generalizing first s with
  | zero => exact h
  | succ n ih =>
    have ha := memOk_engineAddr u (hd.slot first) .store h
    unfold State.slotPlaces
    dsimp only
    split <;> rename_i e <;> rw [e] at ha
    · have hl := ih (first + 1) ha
      split
      · rename_i e; rw [e] at hl; exact hl
      · exact hl
    · exact ha

theorem memOk_putSlots (c : Ctx) (b : Nat) (l : List Loc) {s : State} (h : MemOk s) : MemOk (s.putSlots c b l) := by
  induction l generalizing b s with
  | nil => exact h
  | cons x l ih =>
    unfold State.putSlots
    dsimp only
    exact ih _ (memOk_writeHome _ _ _ _ h)

theorem outOk_qputAct (d b : BitVec 4) (n : Nat) (l : Loc) {s : State} (h : MemOk s) : OutOk (s.qputAct d b n l) := by
  unfold State.qputAct
  dsimp only
  split
  · exact (outOk_next _).2 (memOk_raise _ _ h)
  split
  · exact (outOk_next _).2 (memOk_raise _ _ h)
  split
  · exact outOk_commit h ((memOk_modHere _ _).2 h)
  split
  · exact outOk_commit h ((memOk_modHere _ _).2 h)
  split
  · exact outOk_commit h ((memOk_modHere _ _).2 h)
  split
  · exact (outOk_next _).2 (memOk_raise _ _ h)
  split <;> rename_i e <;> have ht := memOk_snd e (memOk_slotPlaces _ _ _ _ _ h)
  · exact (outOk_next _).2 (memOk_raise _ _ ht)
  · exact (outOk_next _).2 ((memOk_parkStage _ _ _).2 ht)
  · exact (outOk_next _).2 ((memOk_parkStage _ _ _).2 ht)
  · exact outOk_commit ht ((memOk_modHere _ _).2 (memOk_l1Drop _ _ (memOk_poke _ _ _ (memOk_putSlots _ _ _ ht))))

theorem outOk_execQput (g d a b : BitVec 4) {s : State} (h : MemOk s) : OutOk (execQput g d a b s) := by
  refine outOk_guarded h ?_
  dsimp only
  split
  · exact outOk_atHome _ _ _ _ h (fun _ ht => outOk_qputAct _ _ _ _ ht)
  split
  · exact (outOk_next _).2 (memOk_raise _ _ h)
  split
  · exact (outOk_next _).2 (memOk_raise _ _ h)
  split
  · exact (outOk_next _).2 (memOk_raise _ _ h)
  split <;> rename_i e <;> have ht := memOk_snd e (memOk_place _ _ _ h)
  · exact (outOk_next _).2 ht
  · exact outOk_afterRelease ht ((outOk_next _).2 ((memOk_parkStage _ _ _).2 ((memOk_modHere _ _).2 ht)))

/-! ### Launches and admission (spec/12_group.md R263-R268) -/

theorem memOk_offerGroup (lid : Nat) {s : State} (h : MemOk s) : MemOk (s.offerGroup lid) := by
  unfold State.offerGroup
  dsimp only
  exact (memOk_later _ _).2 ((memOk_pick _ _).2 h)

theorem outOk_execLaunchStart {s : State} (h : MemOk s) : OutOk (execLaunchStart s) := by
  unfold execLaunchStart
  split
  · dsimp only
    split
    · exact (outOk_next _).2 h
    split
    · exact (outOk_next _).2 h
    refine outOk_withSys _ _ h (fun _ ht => ?_)
    split
    · exact (outOk_next _).2 ((memOk_later _ _).2 ht)
    split
    · split
      · split
        · exact (outOk_next _).2 ((memOk_later _ _).2 (memOk_cancelAsk ht))
        refine (outOk_next _).2 ?_
        split
        · split
          · exact memOk_cancelLaunch _ (memOk_cancelNode _ _ ht)
          · exact memOk_cancelNode _ _ ht
        split
        · exact memOk_cancelLaunch _ ht
        · exact ht
      · exact (outOk_next _).2 (memOk_offerGroup _ (ht.congr rfl rfl))
    · exact (outOk_next _).2 ((memOk_later _ _).2 ht)
  · exact (outOk_next _).2 h

theorem memOk_choosePlaces (l : List (Nat × Nat)) (n : Nat) {s : State} (h : MemOk s) : MemOk (s.choosePlaces l n).2 := by
  induction n generalizing l s with
  | zero => exact h
  | succ n ih =>
    unfold State.choosePlaces
    dsimp only
    split
    · exact (memOk_pick _ _).2 h
    · exact ih _ ((memOk_pick _ _).2 h)

theorem memOk_templateWords (u : Under) (va : W72) (n : Nat) {s : State} (h : MemOk s) :
    MemOk (s.templateWords u va n).2 := by
  induction n generalizing va s with
  | zero => exact h
  | succ n ih =>
    unfold State.templateWords
    split <;> rename_i e <;> have ht := memOk_snd e (memOk_engineRead _ _ _ _ _ h)
    · exact ht
    · split
      · rename_i e2
        exact memOk_snd e2 (ih _ ht)
      · exact ih _ ht
    · split
      · rename_i e2
        exact memOk_snd e2 (ih _ ht)
      · exact ih _ ht

theorem memOk_bankWords (l : Launch) (comb : Nat) {s : State} (h : MemOk s) : MemOk (s.bankWords l comb).2 := by
  unfold State.bankWords
  split
  · exact h
  · exact memOk_templateWords _ _ _ h

theorem memOk_putBank (key : Nat) (l : List (Nat × Bool)) {s : State} (h : MemOk s) : MemOk (s.putBank key l) := by
  induction l generalizing key s with
  | nil => exact h
  | cons x l ih =>
    refine ih _ (h.mem ?_ rfl)
    dsimp only
    split
    · exact Memory.wf_spoilAll _ _ h.1
    · exact Memory.wf_write _ _ _ _ h.1

theorem memOk_fillBank (l : Launch) (comb : Nat) (ws : List (Nat × Bool)) {s : State} (h : MemOk s) :
    MemOk (s.fillBank l comb ws) := by
  unfold State.fillBank
  split
  · exact h
  · exact (memOk_modComb _ _ _).2 (memOk_putBank _ _ (h.mem (Memory.wf_clear _ _ _ h.1) rfl))

theorem memOk_zeroGroup (g : Group) {s : State} (h : MemOk s) : MemOk (s.zeroGroup g) := by
  unfold State.zeroGroup
  refine (memOk_modComb _ _ _).2 (h.mem (Memory.wf_clear _ _ _ (Memory.wf_foldl (fun m k hm => ?_) _ h.1)) rfl)
  split
  · exact Memory.wf_clear _ _ _ hm
  · exact hm

theorem memOk_startUnit (lid gid : Nat) (l : Launch) (g : Group) (u : Nat × Nat × Nat) {s : State} (h : MemOk s) :
    MemOk (s.startUnit lid gid l g u) := by
  unfold State.startUnit
  dsimp only
  exact memOk_foldl (fun _ _ ht => memOk_allocate _ _ _ _ ht) _ (memOk_allocate _ _ _ _ h)

theorem memOk_joinCore (lid gid : Nat) (l : Launch) (g : Group) (core : Nat) {s : State} (h : MemOk s) :
    MemOk (s.joinCore lid gid l g core) := by
  unfold State.joinCore
  dsimp only
  split
  · exact (memOk_modCore _ _ _).2 (memOk_acquire _ _ h)
  split
  · exact (memOk_modCore _ _ _).2 (memOk_acquire _ _ h)
  · exact memOk_allocate _ _ _ _ ((memOk_modCore _ _ _).2 (memOk_acquire _ _ h))

theorem memOk_enrol (lid : Nat) (l : Launch) (g : Group) (ws : List (Nat × Bool)) {s : State} (h : MemOk s) :
    MemOk (s.enrol lid l g ws) := by
  unfold State.enrol
  dsimp only
  exact memOk_foldl (fun _ _ ht => memOk_joinCore _ _ _ _ _ ht) _
    (memOk_foldl (fun _ _ ht => memOk_startUnit _ _ _ _ _ ht) _
    (memOk_fillBank _ _ _ (memOk_zeroGroup _ (MemOk.congr ((memOk_fresh _).2 h) rfl rfl))))

theorem outOk_execGroupAdmit {s : State} (h : MemOk s) : OutOk (execGroupAdmit s) := by
  unfold execGroupAdmit
  split
  · dsimp only
    split
    · exact (outOk_next _).2 h
    split
    · exact (outOk_next _).2 h
    split
    · split
      · exact (outOk_next _).2 (memOk_offerGroup _ ((memOk_pick _ _).2 h))
      split <;> rename_i e <;> have ht := memOk_snd e (memOk_bankWords _ _ ((memOk_pick _ _).2 h))
      · exact (outOk_next _).2 ((memOk_later _ _).2 (ht.congr rfl rfl))
      · refine (outOk_next _).2 ?_
        split
        · exact memOk_offerGroup _ (memOk_enrol _ _ _ _ (MemOk.congr (memOk_choosePlaces _ _ ht) rfl rfl))
        · exact memOk_enrol _ _ _ _ (MemOk.congr (memOk_choosePlaces _ _ ht) rfl rfl)
    split
    · exact (outOk_next _).2 (memOk_offerGroup _ ((memOk_pick _ _).2 h))
    split <;> rename_i e <;> have ht := memOk_snd e (memOk_bankWords _ _ ((memOk_pick _ _).2 h))
    · exact (outOk_next _).2 ((memOk_later _ _).2 (ht.congr rfl rfl))
    · refine (outOk_next _).2 ?_
      split
      · exact memOk_offerGroup _ (memOk_enrol _ _ _ _ (MemOk.congr (memOk_choosePlaces _ _ ht) rfl rfl))
      · exact memOk_enrol _ _ _ _ (MemOk.congr (memOk_choosePlaces _ _ ht) rfl rfl)
  · exact (outOk_next _).2 h

/-! ### Messages (spec/15_queue.md R312-R323) -/

theorem memOk_tellSender (m : Msg) (st : Stage) {s : State} (h : MemOk s) : MemOk (s.tellSender m st) := by
  unfold State.tellSender
  split
  · exact h
  dsimp only
  split
  · exact (memOk_modCtx _ _ _ _).2 h
  · exact h

theorem memOk_acceptMsg (m : Msg) {s : State} (h : MemOk s) : MemOk (s.acceptMsg m).2 := by
  have ht := memOk_tellSender m (.answered 0 false) h
  unfold State.acceptMsg
  dsimp only
  split
  · refine memOk_ite ?_ ht
    dsimp only
    have hr : ∀ p, MemOk { s.tellSender m (.answered 0 false) with sel := p } := fun _ => ht.congr rfl rfl
    exact MemOk.congr (memOk_issueRec _ _ _ _ _ _ (hr _)) rfl rfl
  · exact ht

theorem memOk_refuseMsg (m : Msg) (val : Nat) {s : State} (h : MemOk s) : MemOk (s.refuseMsg m val) := by
  unfold State.refuseMsg
  split
  · exact memOk_post _ _ h
  · exact memOk_tellSender _ _ h

theorem memOk_placeMsg (m : Msg) {s : State} (h : MemOk s) : ∀ t ∈ s.placeMsg m, MemOk t := by
  intro t e
  unfold State.placeMsg at e
  split at e
  · exact absurd e nofun
  split at e
  · cases e
    exact memOk_refuseMsg _ _ h
  split at e
  · cases e
    exact memOk_tellSender _ _ h
  split at e
  · cases e
    exact memOk_takeMsg _ _ _ (memOk_acceptMsg _ h)
  split at e
  · exact absurd e nofun
  · cases e
    exact (memOk_modCore _ _ _).2 (memOk_acceptMsg _ h)

theorem outOk_execMessageArrival {s : State} (h : MemOk s) : OutOk (execMessageArrival s) := by
  unfold execMessageArrival
  split
  · split
    · exact (outOk_next _).2 ((memOk_later _ _).2 h)
    split
    · rename_i e
      have ht := memOk_placeMsg _ h _ e
      exact (outOk_next _).2 ht
    · exact (outOk_next _).2 ((memOk_later _ _).2 (h.congr rfl rfl))
  · exact (outOk_next _).2 h

theorem outOk_execMessageRetry {s : State} (h : MemOk s) : OutOk (execMessageRetry s) := by
  unfold execMessageRetry
  split
  · extract_lets can p
    have hp : MemOk p.2 := (memOk_pick _ _).2 h
    split
    · refine (outOk_next _).2 ?_
      split
      · exact (memOk_later _ _).2 hp
      · exact h
    · split
      · exact (outOk_next _).2 ((memOk_later _ _).2 hp)
      · split
        · rename_i e
          exact (outOk_next _).2 ((memOk_placeMsg _ hp _ e).congr rfl rfl)
        · exact (outOk_next _).2 ((memOk_later _ _).2 hp)
  · exact (outOk_next _).2 h

theorem outOk_send (m : Msg) {s : State} (h : MemOk s) : OutOk (s.send m) := by
  unfold State.send
  split
  · exact outOk_commit h h
  · exact (outOk_next _).2 (memOk_raise _ _ h)
  · exact (outOk_next _).2 ((memOk_parkStage _ _ _).2 h)
  · exact outOk_afterRelease h ((outOk_next _).2 ((memOk_parkStage _ _ _).2
      ((memOk_later _ _).2 ((memOk_fresh _).2 h))))

theorem outOk_execMsg (g a : BitVec 4) (ch : BitVec 6) {s : State} (h : MemOk s) : OutOk (execMsg g a ch s) := by
  refine outOk_guarded h ?_
  dsimp only
  split
  · exact (outOk_next _).2 (memOk_raise _ _ h)
  · exact outOk_send _ h

theorem outOk_execCallat (g d a b : BitVec 4) {s : State} (h : MemOk s) : OutOk (execCallat g d a b s) := by
  refine outOk_guarded h ?_
  dsimp only
  split
  · exact (outOk_next _).2 (memOk_raise _ _ h)
  · exact outOk_send _ h

theorem outOk_execRet (g a : BitVec 4) {s : State} (h : MemOk s) : OutOk (execRet g a s) := by
  refine outOk_guarded h ?_
  dsimp only
  split
  · exact (outOk_next _).2 (memOk_raise _ _ h)
  split
  · exact (outOk_next _).2 (memOk_raise _ _ h)
  · exact outOk_afterRelease h (outOk_commit h (memOk_sendFill _ _ _ ((memOk_modHere _ _).2 h)))

theorem outOk_execMrecv (g d : BitVec 4) {s : State} (h : MemOk s) : OutOk (execMrecv g d s) := by
  refine outOk_guarded h ?_
  dsimp only
  split
  · exact (outOk_next _).2 ((memOk_finish _).2 (memOk_acquire _ _ ((memOk_modHere _ _).2 h)))
  · exact (outOk_next _).2 ((memOk_parkStage _ _ _).2 h)
  · exact (outOk_next _).2 (memOk_raise _ _ h)
  · refine outOk_commitTo h ?_
    split
    · exact (memOk_parkStage _ _ _).2 h
    split
    · exact (memOk_finish _).2 (memOk_acquire _ _ ((memOk_modHere _ _).2
        (memOk_giveMsg _ _ _ ((memOk_modCore _ _ _).2 h))))
    · exact (memOk_finish _).2 (memOk_giveMsg _ _ _ ((memOk_modCore _ _ _).2 h))

theorem outOk_execChbind (g : BitVec 4) (ch : BitVec 6) {s : State} (h : MemOk s) : OutOk (execChbind g ch s) := by
  refine outOk_guarded h ?_
  dsimp only
  split
  · exact (outOk_next _).2 (memOk_raise _ _ h)
  · exact outOk_commitHere _ h

theorem memOk_setEntry (ch : BitVec 6) (t : Task) {s : State} (h : MemOk s) : MemOk (s.setEntry ch t) := h

theorem outOk_execTbset (g a : BitVec 4) (ch : BitVec 6) {s : State} (h : MemOk s) : OutOk (execTbset g a ch s) := by
  refine outOk_guarded h ?_
  dsimp only
  split
  · exact (outOk_next _).2 (memOk_raise _ _ h)
  split
  · exact (outOk_next _).2 (memOk_raise _ _ h)
  · exact outOk_commit h (memOk_setEntry _ _ h)

theorem outOk_execTbclr (g : BitVec 4) (ch : BitVec 6) {s : State} (h : MemOk s) : OutOk (execTbclr g ch s) := by
  refine outOk_guarded h ?_
  split
  · exact (outOk_next _).2 (memOk_raise _ _ h)
  · exact outOk_commit h (memOk_setEntry _ _ h)

theorem outOk_execMbrd (g d : BitVec 4) (p : Bool) (w : BitVec 2) {s : State} (h : MemOk s) :
    OutOk (execMbrd g d p w s) := by
  refine outOk_guarded h ?_
  refine outOk_commit h ?_
  dsimp only
  split
  · exact (memOk_modCore _ _ _).2 (memOk_acquire _ _ ((memOk_modHere _ _).2 h))
  · exact memOk_acquire _ _ ((memOk_modHere _ _).2 h)

/-! ### Promise cells (spec/19_promise.md) -/

theorem memOk_cellAt (r : PromReq) (hv : Nat) (va : W64) {s : State} (h : MemOk s) : MemOk (s.cellAt r hv va).2 := by
  unfold State.cellAt
  split <;> rename_i e <;> have ht := memOk_snd e (memOk_engineAddr _ _ _ h)
  · split
    · exact ht
    split
    · exact ht
    · split <;> exact ht
  · exact ht
  · exact ht

theorem memOk_walkCell (r : PromReq) (va : W64) (key len : Nat) (done : List (Nat × Nat)) (n : Nat) {s : State}
    (h : MemOk s) : MemOk (s.walkCell r va key len done n).2.2 := by
  induction n generalizing va key len done s with
  | zero => exact h
  | succ n ih =>
    unfold State.walkCell
    dsimp only
    split
    · exact h
    split
    · exact h
    split <;> rename_i e <;> have ht := memOk_snd e (memOk_cellAt _ _ _ h)
    · exact ht
    · exact ht
    · split
      · exact ht
      split
      · exact ht
      split
      · exact ih _ _ _ _ ht
      split <;> rename_i e2 <;> have ht2 := memOk_snd e2 (memOk_cellAt _ _ _ ht)
      · exact ht2
      · exact ht2
      · split
        · exact ht2
        · exact ih _ _ _ _ ht2

theorem memOk_walkFromCell (r : PromReq) (va : W64) (done : List (Nat × Nat)) {s : State} (h : MemOk s) :
    MemOk (s.walkFromCell r va done).2.2 := by
  unfold State.walkFromCell
  split <;> rename_i e <;> have ht := memOk_snd e (memOk_cellAt _ _ _ h)
  · exact memOk_walkCell _ _ _ _ _ _ ht
  · exact ht
  · exact ht

theorem memOk_agentPut (key v : Nat) {s : State} (h : MemOk s) : MemOk (s.agentPut key v) := by
  unfold State.agentPut
  exact memOk_wakeSectors _ _ (memOk_wr _ _ _ (memOk_relight _ _ h))

theorem memOk_compress (done : List (Nat × Nat)) {s : State} (h : MemOk s) : MemOk (s.compress done) := by
  unfold State.compress
  exact memOk_foldl (fun _ _ ht => memOk_agentPut _ _ ht) _ h

theorem memOk_promAnswer (r : PromReq) (st : Stage) {s : State} (h : MemOk s) : MemOk (s.promAnswer r st) := by
  unfold State.promAnswer
  dsimp only
  split
  · split
    · exact (memOk_modCtx _ _ _ _).2 h
    · exact h
  · split
    · exact (memOk_modCtx _ _ _ _).2 h
    · exact h
  · split
    · exact (memOk_modCtx _ _ _ _).2 h
    · exact h

theorem memOk_wakeRoot (key v : Nat) (pois : Bool) {s : State} (h : MemOk s) : MemOk (s.wakeRoot key v pois) := by
  unfold State.wakeRoot
  exact memOk_foldl (fun _ _ ht => memOk_sendFill _ _ _ ht) _ (h.congr rfl rfl)

theorem memOk_modSaved (core cx : Nat) (f : Ctx → Ctx) {s : State} (h : MemOk s) : MemOk (s.modSaved core cx f) :=
  ⟨h.1, imagesOk_map _ h.2 fun _ => rfl⟩

theorem memOk_promFail (r : PromReq) (code : Byte) (va : W64) {s : State} (h : MemOk s) :
    MemOk (s.promFail r code va) := by
  unfold State.promFail
  split
  · exact memOk_sendFill _ _ _ h
  · exact memOk_sendFill _ _ _ h
  · split
    · exact memOk_promAnswer _ _ h
    · exact memOk_modSaved _ _ _ ((memOk_modCtx _ _ _ _).2 h)
  · exact memOk_promAnswer _ _ h

theorem memOk_fillRoot (key v : Nat) (pois : Bool) {s : State} (h : MemOk s) : MemOk (s.fillRoot key v pois) := by
  have ha := memOk_agentPut (key + 8) (ctlOf 1 (ctlRank (s.rd (key + 8) 8)) 0) (memOk_agentPut key v h)
  unfold State.fillRoot
  refine memOk_wakeRoot _ _ _ ?_
  split
  · exact ha.mem (Memory.wf_spoilAll _ _ ha.1) rfl
  · exact ha

theorem memOk_promTest (r : PromReq) (bad : Bool) {s : State} (h : MemOk s) : MemOk (s.promTest r bad) := by
  unfold State.promTest
  exact memOk_promAnswer _ _ h

theorem memOk_linkRoots (r : PromReq) (va : W64) (ka : Nat) (vb : W64) (kb : Nat) {s : State} (h : MemOk s) :
    MemOk (s.linkRoots r va ka vb kb) := by
  unfold State.linkRoots
  dsimp only
  split
  · exact memOk_promFail _ _ _ h
  refine memOk_promAnswer _ _ ?_
  split
  · exact memOk_fillRoot _ _ _ (MemOk.congr (memOk_agentPut _ _ (memOk_agentPut _ _ h)) rfl rfl)
  split
  · exact memOk_fillRoot _ _ _ (MemOk.congr (memOk_agentPut _ _ (memOk_agentPut _ _ h)) rfl rfl)
  · exact MemOk.congr (memOk_agentPut _ _ (memOk_agentPut _ _ h)) rfl rfl

theorem memOk_promAct (r : PromReq) (va : W64) (key len : Nat) {s : State} (h : MemOk s) :
    MemOk (s.promAct r va key len) := by
  unfold State.promAct
  dsimp only
  split
  · exact h
  · exact h
  · split
    · exact memOk_promAnswer _ _ (memOk_fillRoot _ _ _ h)
    split
    · exact memOk_promFail _ _ _ h
    · exact memOk_promAnswer _ _ h
  · split
    · exact memOk_sendFill _ _ _ h
    · exact h.congr rfl rfl
  · exact memOk_sendFill _ _ _ h
  · exact memOk_sendFill _ _ _ h

theorem outOk_execPromiseRequest {s : State} (h : MemOk s) : OutOk (execPromiseRequest s) := by
  unfold execPromiseRequest
  split
  · split
    · exact (outOk_next _).2 h
    rename_i r _
    extract_lets gone again
    have hg : ∀ t : State, MemOk t → OutOk (.next (gone t)) := fun t ht => (outOk_next _).2 (ht.congr rfl rfl)
    have ha : ∀ (t : State) st, MemOk t → OutOk (again t st) := fun t st ht =>
      (outOk_next _).2 ((memOk_later _ _).2 (ht.congr rfl rfl))
    have hc : ∀ {t : State} done, MemOk t → MemOk (if r.dry then t else t.compress done) := by
      intro t done ht
      split
      · exact ht
      · exact memOk_compress _ ht
    clear_value gone again
    split
    · split <;> rename_i e <;> have ht := memOk_snd e (memOk_engineAddr _ _ _ h)
      · exact ha _ _ ht
      · exact hg _ (memOk_promFail _ _ _ ht)
      split
      · exact ha _ _ ht
      split
      · exact hg _ (memOk_promTest _ _ ht)
      · exact hg _ (memOk_promAnswer _ _ (memOk_wakeRoot _ _ _ (memOk_agentPut _ _ (memOk_agentPut _ _ ht))))
    split <;> rename_i e <;> have ht := memOk_thd e (memOk_walkFromCell _ _ _ h)
    · exact ha _ _ ht
    · exact hg _ (memOk_promFail _ _ _ (hc _ ht))
    split
    · split <;> rename_i e <;> have hw := memOk_thd e (memOk_walkFromCell _ _ _ ht)
      · exact ha _ _ hw
      · exact hg _ (memOk_promFail _ _ _ (hc _ hw))
      split
      · exact hg _ (memOk_promTest _ _ hw)
      refine hg _ ?_
      split
      · exact memOk_promAnswer _ _ (memOk_compress _ hw)
      · exact memOk_linkRoots _ _ _ _ _ (memOk_compress _ hw)
    · split <;> rename_i e
      · exact hg _ (memOk_sendFill _ _ _ (memOk_compress _ (memOk_snd e (memOk_cellAt _ _ _ ht))))
      · exact ha _ _ (memOk_snd e (memOk_cellAt _ _ _ ht))
    · split
      · exact hg _ (memOk_promTest _ _ ht)
      · exact hg _ (memOk_promAct _ _ _ _ (memOk_compress _ ht))
  · exact (outOk_next _).2 h

theorem memOk_cellCheck (k : Access) (va : W72) {s : State} (h : MemOk s) : MemOk (s.cellCheck k va).2 := by
  unfold State.cellCheck
  dsimp only
  split
  · exact memOk_raise _ _ h
  split
  · exact memOk_raise _ _ h
  split
  · split
    · exact h
    · exact memOk_raise _ _ h
  split <;> rename_i e <;> have ht := memOk_snd e (memOk_translate _ _ _ _ h)
  · exact memOk_raise _ _ ht
  · exact (memOk_parkReplay _ _).2 ht
  · exact ht

theorem memOk_cellsOk (k : Access) (l : List W72) (b : Bool) {s : State} (h : MemOk s) : MemOk (s.cellsOk k l b).2 := by
  induction l generalizing s with
  | nil => exact h
  | cons va l ih =>
    cases b <;> unfold State.cellsOk
    · split <;> rename_i e <;> have ht := memOk_snd e (memOk_cellCheck _ _ h)
      · exact ht
      · exact ih ht
    · split <;> rename_i e <;> have ht := memOk_snd e (memOk_translate _ _ _ _ h)
      · exact memOk_raise _ _ ht
      · exact (memOk_parkReplay _ _).2 ht
      · split <;> rename_i e2 <;> have ht2 := memOk_snd e2 (memOk_pageChecks _ _ ht)
        · exact memOk_raise _ _ ht2
        · exact (memOk_parkReplay _ _).2 ht2
        · exact ih ht2

theorem outOk_promForm (g : BitVec 4) (cells : List (BitVec 4)) (extra : Option (BitVec 4)) (rel : Bool) (k : Access)
    (go : State → PromReq → Outcome) (op : Ctx → PromOp) (acq : Bool) {s : State} (h : MemOk s)
    (hgo : ∀ (t : State) r, MemOk t → OutOk (go t r)) : OutOk (s.promForm g cells extra rel k go op acq) := by
  refine outOk_guarded h ?_
  dsimp only
  split
  · exact outOk_commit h (by split <;> first | exact memOk_acquire _ _ h | exact h)
  · exact (outOk_next _).2 (memOk_raise _ _ h)
  · split
    · split
      · exact (outOk_next _).2 ((memOk_parkStage _ _ _).2 h)
      · exact (outOk_next _).2 ((memOk_finish _).2 (memOk_acquire _ _ h))
    · exact (outOk_next _).2 ((memOk_parkStage _ _ _).2 h)
  · split
    · exact (outOk_next _).2 h
    · split
      · exact (outOk_next _).2 (memOk_raise _ _ h)
      · split
        · exact (outOk_next _).2 (memOk_raise _ _ h)
        · split <;> rename_i e <;> have ht := memOk_snd e (memOk_cellsOk _ _ _ h)
          · exact (outOk_next _).2 ht
          · split <;> rename_i e2 <;> have ht2 := memOk_snd e2 (memOk_cellsOk _ _ _ ht)
            · exact (outOk_next _).2 ht2
            · exact outOk_afterRelease ht2 (hgo _ _ ht2)

theorem memOk_promSend (r : PromReq) {s : State} (h : MemOk s) : MemOk (s.promSend r) := h

theorem outOk_promWait (r : PromReq) {s : State} (h : MemOk s) : OutOk (promWait s r) := by
  unfold promWait
  exact (outOk_next _).2 ((memOk_parkStage _ _ _).2 (memOk_promSend _ h))

theorem outOk_execPinit (g a : BitVec 4) {s : State} (h : MemOk s) : OutOk (execPinit g a s) := by
  unfold execPinit
  exact outOk_promForm _ _ _ _ _ _ _ _ h (fun _ _ ht => outOk_promWait _ ht)

theorem outOk_execPfill (g a b : BitVec 4) {s : State} (h : MemOk s) : OutOk (execPfill g a b s) := by
  unfold execPfill
  exact outOk_promForm _ _ _ _ _ _ _ _ h (fun _ _ ht => outOk_promWait _ ht)

theorem outOk_execPeq (g a b : BitVec 4) {s : State} (h : MemOk s) : OutOk (execPeq g a b s) := by
  unfold execPeq
  exact outOk_promForm _ _ _ _ _ _ _ _ h (fun _ _ ht => outOk_promWait _ ht)

theorem outOk_execPget (g d a : BitVec 4) {s : State} (h : MemOk s) : OutOk (execPget g d a s) := by
  unfold execPget
  refine outOk_promForm _ _ _ _ _ _ _ _ h (fun _ _ ht => ?_)
  split
  · exact outOk_promWait _ ht
  · exact outOk_commitTo ht ((memOk_parkStage _ _ _).2 (memOk_promSend _ (memOk_issueRec _ _ _ _ _ _ ht)))

theorem outOk_promTry (g d a : BitVec 4) (op : PromOp) {s : State} (h : MemOk s) : OutOk (s.promTry g d a op) := by
  unfold State.promTry
  exact outOk_promForm _ _ _ _ _ _ _ _ h (fun _ _ ht => outOk_commit ht
    (memOk_promSend _ (memOk_issueRec _ _ _ _ _ _ ht)))

theorem outOk_execPtry (g d a : BitVec 4) {s : State} (h : MemOk s) : OutOk (execPtry g d a s) := by
  unfold execPtry
  exact outOk_promTry _ _ _ _ h

theorem outOk_execPstat (g d a : BitVec 4) (f : BitVec 2) {s : State} (h : MemOk s) : OutOk (execPstat g d a f s) := by
  unfold execPstat
  exact outOk_promTry _ _ _ _ h

/-! ### The matrix engine (spec/21_tile.md) -/

theorem memOk_chooseOld (seen : List (Nat × W32)) (l : List Nat) {s : State} (h : MemOk s) :
    MemOk (s.chooseOld seen l).2 := by
  induction l generalizing s with
  | nil => exact h
  | cons x l ih =>
    unfold State.chooseOld
    dsimp only
    split <;> exact ih ((memOk_pick _ _).2 h)

theorem memOk_applyBlock (old : List (Nat × W32)) (e a b da db q : Nat) {s : State} (h : MemOk s) :
    MemOk (s.applyBlock old e a b da db q) := h

theorem memOk_rejectCmd (e : Nat) (c : Cmd) (cause : Byte) {s : State} (h : MemOk s) : MemOk (s.rejectCmd e c cause) := by
  unfold State.rejectCmd
  dsimp only
  split
  · exact memOk_raiseAsync _ _ _ _ (memOk_post _ _ (memOk_cmdDone _ h))
  · exact memOk_post _ _ (memOk_cmdDone _ h)

theorem outOk_execCommandAccept {s : State} (h : MemOk s) : OutOk (execCommandAccept s) := by
  unfold execCommandAccept
  split
  · dsimp only
    split
    · exact (outOk_next _).2 h
    split
    · exact (outOk_next _).2 ((memOk_later _ _).2 h)
    split
    · exact (outOk_next _).2 (memOk_rejectCmd _ _ _ (h.congr rfl rfl))
    split
    · exact (outOk_next _).2 (memOk_rejectCmd _ _ _ (h.congr rfl rfl))
    · exact (outOk_next _).2 (memOk_modEng _ _ (h.congr rfl rfl))
  · exact (outOk_next _).2 h

theorem outOk_execMcmd (g a b : BitVec 4) {s : State} (h : MemOk s) : OutOk (execMcmd g a b s) := by
  refine outOk_guarded h ?_
  dsimp only
  split
  · exact (outOk_next _).2 (memOk_raise _ _ h)
  split
  · exact (outOk_next _).2 (memOk_raise _ _ h)
  split
  · exact (outOk_next _).2 (memOk_raise _ _ h)
  refine outOk_afterRelease h ?_
  split
  · exact (outOk_next _).2 ((memOk_parkReplay _ _).2 h)
  · exact outOk_commit h ((memOk_later _ _).2 ((memOk_modHere _ _).2 (h.congr rfl rfl)))

theorem outOk_execMfin (g d a : BitVec 4) {s : State} (h : MemOk s) : OutOk (execMfin g d a s) := by
  refine outOk_guarded h ?_
  dsimp only
  split
  · exact (outOk_next _).2 (memOk_raise _ _ h)
  split
  · exact (outOk_next _).2 ((memOk_parkReplay _ _).2 h)
  · exact outOk_commit h (memOk_acquire _ _ ((memOk_modHere _ _).2 h))

theorem memOk_popCmd (e : Nat) (c : Cmd) {s : State} (h : MemOk s) : MemOk (s.popCmd e c) := h

theorem memOk_rejectHead (e : Nat) (c : Cmd) (cause : Byte) {s : State} (h : MemOk s) :
    MemOk (s.rejectHead e c cause) := by
  unfold State.rejectHead
  exact memOk_rejectCmd _ _ _ (memOk_modEng _ _ h)

theorem outOk_tileForm (e : Nat) (i : Instr) (fits : Bool) (allowed : Engine → Bool) (k : State → Cmd → State) {s : State}
    (h : MemOk s) (hk : ∀ (t : State) c, MemOk t → MemOk (k t c)) : OutOk (s.tileForm e i fits allowed k) := by
  unfold State.tileForm
  split
  · exact (outOk_next _).2 h
  split
  · exact (outOk_next _).2 h
  split
  · exact (outOk_next _).2 h
  split
  · exact (outOk_next _).2 (memOk_rejectHead _ _ _ h)
  split
  · refine (outOk_next _).2 ?_
    split
    · exact memOk_modEng _ _ h
    · exact memOk_rejectHead _ _ _ h
  split
  · exact (outOk_next _).2 (memOk_rejectHead _ _ _ h)
  · exact (outOk_next _).2 (hk _ _ (memOk_modEng _ _ h))

theorem outOk_execMbegin (e : Nat) (tag : W32) (chain : W16) (anchor : Byte) {s : State} (h : MemOk s) :
    OutOk (execMbegin e tag chain anchor s) := by
  unfold execMbegin
  exact outOk_tileForm _ _ _ _ _ h (fun _ _ ht => memOk_popCmd _ _ (memOk_modEng _ _ ht))

theorem outOk_execMzero (e : Nat) (tag : W32) (chain : W16) {s : State} (h : MemOk s) :
    OutOk (execMzero e tag chain s) := by
  unfold execMzero
  exact outOk_tileForm _ _ _ _ _ h (fun _ _ ht => memOk_popCmd _ _ (memOk_modEng _ _ ht))

theorem outOk_execMend (e : Nat) (tag : W32) (chain : W16) {s : State} (h : MemOk s) :
    OutOk (execMend e tag chain s) := by
  refine outOk_tileForm _ _ _ _ _ h fun t c ht => ?_
  extract_lets u
  have hu : MemOk u := memOk_popCmd _ _ (memOk_modEng _ _ ht)
  exact hu.congr rfl rfl

theorem outOk_execMstep (e : Nat) (tag : W32) (chain : W16) (a b : BitVec 24) (n : BitVec 12) (da db : BitVec 4)
    {s : State} (h : MemOk s) : OutOk (execMstep e tag chain a b n da db s) := by
  unfold execMstep
  exact outOk_tileForm _ _ _ _ _ h (fun _ _ ht => memOk_modEng _ _ ht)

theorem outOk_execMdrain (e : Nat) (tag : W32) (chain : W16) (dest : BitVec 12) (o : BitVec 24) (w : BitVec 6)
    (f : BitVec 4) {s : State} (h : MemOk s) : OutOk (execMdrain e tag chain dest o w f s) := by
  unfold execMdrain
  exact outOk_tileForm _ _ _ _ _ h (fun _ _ ht => (memOk_later _ _).2 (memOk_modEng _ _ ht))

theorem memOk_drainWrites (e dest o : Nat) (l : List W32) {s : State} (h : MemOk s) :
    MemOk (s.drainWrites e dest o l) := by
  induction l generalizing o s with
  | nil => exact h
  | cons x l ih =>
    unfold State.drainWrites
    dsimp only
    exact ih _ (memOk_engineWrite _ _ _ _ _ _ h)

theorem outOk_execDrainComplete {s : State} (h : MemOk s) : OutOk (execDrainComplete s) := by
  unfold execDrainComplete
  split
  · dsimp only
    split
    · exact (outOk_next _).2 h
    split
    · split
      · exact (outOk_next _).2 h
      split
      · split
        · exact (outOk_next _).2 ((memOk_later _ _).2 h)
        · exact (outOk_next _).2 ((memOk_later _ _).2 (memOk_drainWrites _ _ _ _ (memOk_modEng _ _ h)))
      split
      · exact (outOk_next _).2 ((memOk_later _ _).2 h)
      · exact (outOk_next _).2 ((memOk_later _ _).2 (memOk_settleLic _ (memOk_popCmd _ _ ((memOk_fresh _).2 h))))
    · exact (outOk_next _).2 h
  · exact (outOk_next _).2 h

theorem memOk_endStep (e : Nat) (r : KRun) {s : State} (h : MemOk s) : MemOk (s.endStep e r) := by
  unfold State.endStep
  dsimp only
  split
  · exact memOk_settleLic _ (memOk_modEng _ _ h)
  split
  · exact memOk_settleLic _ (memOk_modEng _ _ h)
  refine memOk_settleLic _ ?_
  split
  · exact memOk_cmdDone _ (memOk_modEng _ _ (memOk_applyBlock _ _ _ _ _ _ _ (memOk_chooseOld _ _ h)))
  · exact memOk_modEng _ _ (memOk_applyBlock _ _ _ _ _ _ _ (memOk_chooseOld _ _ h))

theorem memOk_beginAt (e : Nat) (second : Bool) (c : Cmd) {s : State} (h : MemOk s) : MemOk (s.beginAt e second c) := by
  unfold State.beginAt
  split
  · exact h
  dsimp only
  split
  · exact h
  · exact memOk_modEng _ _ ((memOk_modCore _ _ _).2 ((memOk_pick _ _).2 h))

theorem memOk_beginStep (e : Nat) {s : State} (h : MemOk s) : MemOk (s.beginStep e) := by
  unfold State.beginStep
  split
  · exact h
  split
  · exact h
  split
  · exact memOk_beginAt _ _ _ h
  dsimp only
  split <;> exact memOk_beginAt _ _ _ ((memOk_pick _ _).2 h)

theorem outOk_execKStep {s : State} (h : MemOk s) : OutOk (execKStep s) := by
  unfold execKStep
  split
  · split
    · exact (outOk_next _).2 (memOk_beginStep _ h)
    refine (outOk_next _).2 ?_
    split
    · exact h
    · exact memOk_beginStep _ (memOk_endStep _ _ h)
  · exact (outOk_next _).2 h

theorem outOk_execLicenceGrant {s : State} (h : MemOk s) : OutOk (execLicenceGrant s) := by
  unfold execLicenceGrant
  split
  · exact (outOk_next _).2 (memOk_arbitrate _ h)
  · exact (outOk_next _).2 h

theorem outOk_execCoopHandover {s : State} (h : MemOk s) : OutOk (execCoopHandover s) := by
  unfold execCoopHandover
  split
  · split
    · exact (outOk_next _).2 (memOk_moveLic _ _ (memOk_modEng _ _ h))
    · exact (outOk_next _).2 (memOk_modEng _ _ (memOk_modEng _ _ h))
  · exact (outOk_next _).2 h

theorem outOk_licForm (g : BitVec 4) (k : State → Outcome) {s : State} (h : MemOk s)
    (hk : ∀ (t : State), MemOk t → OutOk (k t)) : OutOk (s.licForm g k) := by
  unfold State.licForm
  refine outOk_guarded h ?_
  split
  · exact (outOk_next _).2 (memOk_raise _ _ h)
  · exact hk _ h

theorem outOk_execLicAcq (g : BitVec 4) (x : Bool) {s : State} (h : MemOk s) : OutOk (execLicAcq g x s) := by
  unfold execLicAcq
  refine outOk_licForm _ _ h (fun _ ht => ?_)
  dsimp only
  split
  · exact (outOk_next _).2 ((memOk_finish _).2 ht)
  · exact (outOk_next _).2 ((memOk_parkStage _ _ _).2 ht)
  · split
    · exact outOk_commit ht (memOk_setLic _ _ ht)
    · exact outOk_commitTo ht ((memOk_parkStage _ _ _).2 (ht.congr rfl rfl))

theorem outOk_execLicRel (g : BitVec 4) {s : State} (h : MemOk s) : OutOk (execLicRel g s) := by
  unfold execLicRel
  refine outOk_licForm _ _ h (fun _ ht => outOk_commit ht ?_)
  split
  · exact memOk_moveLic _ _ ht
  · exact ht

theorem outOk_execLicGive (g : BitVec 4) {s : State} (h : MemOk s) : OutOk (execLicGive g s) := by
  unfold execLicGive
  refine outOk_licForm _ _ h (fun _ ht => outOk_commit ht ?_)
  split
  · exact memOk_moveLic _ _ ht
  · exact ht

/-! ### Pre-emption (spec/08_traps.md R210-R215) -/

theorem memOk_beginHalt (core : Nat) {s : State} (h : MemOk s) : MemOk (s.beginHalt core) := by
  unfold State.beginHalt
  split
  · exact memOk_modEng _ _ h
  dsimp only
  split
  · exact memOk_leaveLic _ _ (memOk_modEng _ _ h)
  split
  · exact memOk_setLic _ _ (memOk_modEng _ _ h)
  · exact memOk_modEng _ _ h

theorem outOk_execPctlGo {s : State} (h : MemOk s) : OutOk (execPctlGo s) := by
  unfold execPctlGo
  split
  · split
    · exact (outOk_next _).2 h
    · exact (outOk_next _).2 ((memOk_later _ _).2 (memOk_foldl (fun _ _ ht => memOk_beginHalt _ ht) _
        (h.congr rfl rfl)))
  · exact (outOk_next _).2 h

theorem memOk_haltLic (core : Nat) {s : State} (h : MemOk s) : MemOk (s.haltLic core) := by
  unfold State.haltLic
  split
  · exact h
  · exact memOk_modEng _ _ (memOk_leaveLic _ _ h)

theorem outOk_execPreemptHalt {s : State} (h : MemOk s) : OutOk (execPreemptHalt s) := by
  unfold execPreemptHalt
  split
  · split
    · exact (outOk_next _).2 h
    split
    · exact (outOk_next _).2 ((memOk_later _ _).2 (MemOk.congr
        (memOk_foldl (fun _ _ ht => memOk_haltLic _ ht) _ h) rfl rfl))
    · exact (outOk_next _).2 ((memOk_later _ _).2 h)
  · exact (outOk_next _).2 h

theorem memOk_leftCore (core : Nat) {s : State} (h : MemOk s) : MemOk (s.leftCore core) := by
  unfold State.leftCore
  dsimp only
  split
  · exact (memOk_setCore _ _ _).2 (h.congr rfl rfl)
  · exact (memOk_setCore _ _ _).2 h

theorem memOk_withdraw (comb : Nat) {s : State} (h : MemOk s) : MemOk (s.withdraw comb) :=
  ⟨h.1, imagesOk_map _ h.2 fun _ => rfl⟩

theorem memOk_writeScratch (src : Memory) (pages : List (Nat × Nat)) {s : State} (h : MemOk s) :
    MemOk (s.writeScratch src pages) := by
  refine memOk_foldl (fun t e ht => ?_) _ h
  have hr := memOk_relight e.2 (2 ^ 16) ht
  exact memOk_wakeWatches _ _ (hr.mem (Memory.wf_copy _ _ _ _ _ hr.1) rfl)

theorem memOk_writeParts (base : W64) (serial : Nat) (parts : List (Nat × Nat)) {s : State} (h : MemOk s) :
    MemOk (s.writeParts base serial parts) := by
  refine memOk_foldl (fun t p ht => ?_) _ h
  split
  · exact ht
  · rename_i a _
    have hr := memOk_relight a p.2 ht
    exact memOk_wakeWatches _ _ (hr.mem (Memory.wf_putAll _ _ hr.1) rfl)

theorem memOk_writeHeaders (base : W64) (heads : List (Nat × Nat)) {s : State} (h : MemOk s) :
    MemOk (s.writeHeaders base heads) := by
  unfold State.writeHeaders
  refine memOk_foldl (fun _ _ ht => ?_) _ h
  split
  · exact memOk_poke _ _ _ ht
  · exact ht

theorem memOk_saveComb (comb : Nat) (base : W64) (at_ : Nat) {s : State} (h : MemOk s) : MemOk (s.saveComb comb base at_) := by
  unfold State.saveComb
  extract_lets cores halted whole heads pages serial written parts img listed cleared left
  clear_value cores
  have hh : MemOk halted := memOk_foldl (fun _ _ ht => memOk_haltLic _ ht) cores h
  have hw : MemOk written := memOk_writeParts _ _ _ (memOk_writeHeaders _ _ ((memOk_fresh _).2 hh))
  obtain ⟨hcomb, hrest⟩ := Memory.wf_split written.mem comb hw.1
  have hl : MemOk listed := memOk_withdraw comb ⟨hw.1, imagesOk_sset serial hw.2 (Memory.wf_dropScratch _ whole hcomb)⟩
  have hc : MemOk cleared := memOk_foldl (fun _ _ ht => memOk_leftCore _ ht) cores hl
  have hs : MemOk left := memOk_writeScratch parts.1 pages ⟨hrest, hc.2⟩
  exact memOk_spareJoins _ ((memOk_modComb _ _ _).2 (hs.congr rfl rfl))

theorem outOk_execPreemptSave {s : State} (h : MemOk s) : OutOk (execPreemptSave s) := by
  unfold execPreemptSave
  split
  · split
    · refine (outOk_next _).2 ?_
      split
      · exact h.congr rfl rfl
      · exact h
    refine outOk_withSys _ _ h (fun _ ht => ?_)
    split
    · exact (outOk_next _).2 ((memOk_later _ _).2 (memOk_saveComb _ _ _ ht))
    · exact (outOk_next _).2 ((memOk_later _ _).2 (memOk_retire _ _ (memOk_breakFor _ _ ht)))
    · exact (outOk_next _).2 ((memOk_later _ _).2 ht)
  · exact (outOk_next _).2 h

theorem memOk_restoreCtx (armed : List WatchEnt) (core cx : Nat) (t : Ctx) {s : State} (h : MemOk s) :
    MemOk (s.restoreCtx armed core cx t) := by
  unfold State.restoreCtx
  split
  · exact h
  · extract_lets l t1 t2 t3 s1 s2 s3 s4 s5 s6
    have h3 : MemOk s3 := by
      unfold s3
      split
      · exact (memOk_modCtx _ _ _ _).2 (memOk_arm _ _ _ h)
      · exact h
    have h4 : MemOk s4 := by
      unfold s4
      split
      · exact h3.congr rfl rfl
      · exact h3
    have h5 : MemOk s5 := by
      refine memOk_foldl (fun u r hu => ?_) _ h4
      split
      · exact hu
      · refine (memOk_later _ _).2 ?_
        split
        · split
          · exact hu
          · exact memOk_sampleLoad _ _ _ _ hu
        · exact hu
    have h6 : MemOk s6 := by
      unfold s6
      split
      · exact (memOk_later _ _).2 h5
      · exact h5
    split
    · exact (memOk_later _ _).2 h6
    · exact h6

theorem memOk_restoreLic (core : Nat) {s : State} (h : MemOk s) : MemOk (s.restoreLic core) := by
  unfold State.restoreLic
  dsimp only
  split
  · exact memOk_engineAsks _ h
  split
  · exact memOk_grantTo _ _ _ (memOk_modEng _ _ h)
  split
  · exact memOk_modEng _ _ h
  · exact h.congr rfl rfl

theorem memOk_laterOnce (e : Event) {s : State} (h : MemOk s) : MemOk (s.laterOnce e) := by
  unfold State.laterOnce
  split
  · exact h
  · exact (memOk_later _ _).2 h

theorem memOk_restoreDrain (core : Nat) {s : State} (h : MemOk s) : MemOk (s.restoreDrain core) := by
  unfold State.restoreDrain
  split
  · exact memOk_laterOnce _ h
  · exact h

theorem memOk_restoreXfers (comb : Nat) {s : State} (h : MemOk s) : MemOk (s.restoreXfers comb) := by
  unfold State.restoreXfers
  refine memOk_foldl (fun _ _ ht => ?_) _ h
  split
  · exact memOk_laterOnce _ ht
  · exact ht

theorem memOk_restoreRings (core : Nat) (k : Core) {s : State} (h : MemOk s) : MemOk (s.restoreRings core k) := by
  unfold State.restoreRings
  refine memOk_foldl (fun _ _ ht => ?_) _ h
  split
  · exact memOk_laterOnce _ ht
  · exact ht

theorem memOk_restoreCore (armed : List WatchEnt) (whole : Bool) (core : Nat) (k : Core) {s : State} (h : MemOk s) :
    MemOk (s.restoreCore armed whole core k) := by
  unfold State.restoreCore
  dsimp only
  split
  · exact memOk_acquire _ _ ((memOk_modCore _ _ _).2 h)
  · exact memOk_restoreRings _ _ (memOk_restoreDrain _
      (memOk_restoreLic _ (memOk_foldl (fun _ _ ht => memOk_restoreCtx _ _ _ _ ht) _
      (memOk_acquire _ _ ((memOk_modCore _ _ _).2 h)))))

theorem memOk_restoreFlights (l : List Flight) {s : State} (h : MemOk s) : MemOk (s.restoreFlights l) := by
  unfold State.restoreFlights
  refine memOk_foldl (fun t f ht => memOk_laterOnce _ ?_) _ h
  exact ht.congr rfl rfl

theorem memOk_refuseImage {s : State} (h : MemOk s) : MemOk s.refuseImage := h

theorem outOk_execPrest {s : State} (h : MemOk s) : OutOk (execPrest s) := by
  unfold execPrest
  split
  · refine outOk_withSys _ _ h fun t ht => ?_
    split
    · exact (outOk_next _).2 (memOk_refuseImage ht)
    · rename_i image _ n img _
      split
      · exact (outOk_next _).2 (memOk_refuseImage ht)
      · split
        · exact (outOk_next _).2 ((memOk_later _ _).2 ht)
        · split
          · exact (outOk_next _).2 (memOk_refuseImage ht)
          · extract_lets mem laid flown banked cored mine fills filled
            have hm : mem.wf = true := Memory.wf_readScratch _ _ (Memory.wf_split _ _ ht.1).2
            have hl : MemOk laid := ⟨Memory.wf_join _ _ hm, imagesOk_sdel n ht.2⟩
            have hb : MemOk banked := (memOk_modComb _ _ _).2 (memOk_restoreFlights _ hl)
            have hc : MemOk cored := memOk_foldl (fun _ _ hs => memOk_restoreCore _ _ _ _ hs) _ hb
            have hf : MemOk filled := hc.congr rfl rfl
            exact (outOk_next _).2 (memOk_foldl (fun _ _ hs => memOk_endLaunch _ (memOk_endGroup _ hs)) _
              (memOk_restoreXfers _ hf))
  · exact (outOk_next _).2 h

/-! ### Starts, repair and machine checks (spec/25_bringup.md) -/

theorem memOk_restart (kind : BitVec 2) {s : State} (h : MemOk s) : MemOk (s.restart kind) := by
  have hk := fun d => Memory.wf_kept s.mem d h.1
  unfold State.restart
  dsimp only
  split
  · exact ⟨hk _, h.2⟩
  · exact ⟨hk _, by simp⟩

theorem outOk_execStart {s : State} (h : MemOk s) : OutOk (execStart s) := by
  unfold execStart
  split
  · dsimp only
    split
    · exact (outOk_next _).2 ((memOk_later _ _).2 (MemOk.congr ((memOk_pick _ _).2 (memOk_restart _ h)) rfl rfl))
    · exact (outOk_next _).2 (memOk_foldl (fun _ _ ht => (memOk_later _ _).2 ht) _
        ((memOk_later _ _).2 (MemOk.congr ((memOk_pick _ _).2 (memOk_restart _ h)) rfl rfl)))
  · exact (outOk_next _).2 h

theorem memOk_setRefill (core : Nat) {s : State} (h : MemOk s) : MemOk (s.setRefill core) := by
  unfold State.setRefill
  dsimp only
  exact (memOk_modCore _ _ _).2 ((memOk_pick _ _).2 h)

theorem memOk_bringUp {s : State} (h : MemOk s) : MemOk s.bringUp := by
  unfold State.bringUp
  dsimp only
  exact memOk_foldl (fun _ _ ht => (memOk_later _ _).2 ht) _
    (memOk_foldl (fun _ _ ht => (memOk_later _ _).2 ht) _
    (memOk_foldl (fun _ _ ht => memOk_setRefill _ ht) _ (h.congr rfl rfl)))

theorem outOk_execLinkRetrain {s : State} (h : MemOk s) : OutOk (execLinkRetrain s) := by
  unfold execLinkRetrain
  split
  · refine outOk_unless _ h ((outOk_next _).2 ?_)
    split
    · exact memOk_bringUp (h.congr rfl rfl)
    · exact h.congr rfl rfl
  · exact (outOk_next _).2 h

theorem memOk_showOut (n a : Nat) {s : State} (h : MemOk s) : MemOk (s.showOut n a) := by
  unfold State.showOut
  dsimp only
  exact memOk_poke _ _ _ (memOk_poke _ _ _ (memOk_poke _ _ _ h))

theorem memOk_showTables {s : State} (h : MemOk s) : MemOk s.showTables := by
  unfold State.showTables
  extract_lets u
  have hu : MemOk u := by
    refine memOk_foldl (fun t i ht => ?_) _ (h.congr rfl rfl)
    dsimp only
    split
    · exact memOk_sysAsk _ _ (ht.congr rfl rfl)
    split
    · exact memOk_showExtent _ _ ht
    · exact ht.congr rfl rfl
  refine memOk_foldl (fun t n ht => ?_) _ (hu.congr rfl rfl)
  dsimp only
  split
  · exact memOk_sysAsk _ _ (ht.congr rfl rfl)
  split
  · exact memOk_showOut _ _ ht
  · exact ht.congr rfl rfl

theorem memOk_cutInstalls {s : State} (h : MemOk s) : MemOk s.cutInstalls := by
  unfold State.cutInstalls
  dsimp only
  refine memOk_foldl (fun _ _ ht => ?_) _ (h.congr rfl rfl)
  split
  · exact memOk_counterWait _ (ht.congr rfl rfl)
  · exact ht

theorem outOk_execMainPowerLoss {s : State} (h : MemOk s) : OutOk (execMainPowerLoss s) := by
  unfold execMainPowerLoss
  split
  · exact (outOk_next _).2 (MemOk.congr (memOk_cutInstalls h) rfl rfl)
  · exact (outOk_next _).2 h

theorem outOk_execWarmReset {s : State} (h : MemOk s) : OutOk (execWarmReset s) := by
  unfold execWarmReset
  split
  · exact (outOk_next _).2 (MemOk.congr (memOk_cutInstalls h) rfl rfl)
  · exact (outOk_next _).2 h

theorem outOk_execDorm {s : State} (h : MemOk s) : OutOk (execDorm s) := by
  unfold execDorm
  split
  · split <;> exact (outOk_next _).2 (h.congr rfl rfl)
  · exact (outOk_next _).2 h

theorem memOk_checkNotice (cause : Byte) (source a b : Nat) {s : State} (h : MemOk s) :
    MemOk (s.checkNotice cause source a b) := by
  unfold State.checkNotice
  exact memOk_notify _ h

theorem memOk_degrade (slices : List Nat) {s : State} (h : MemOk s) : MemOk (s.degrade slices) := by
  unfold State.degrade
  refine memOk_foldl (fun _ _ ht => ?_) _ (h.congr rfl rfl)
  dsimp only
  split
  · exact memOk_checkNotice _ _ _ _ ht
  · exact memOk_checkNotice _ _ _ _ (memOk_checkNotice _ _ _ _ ht)

theorem outOk_execRepairReplayEnd {s : State} (h : MemOk s) : OutOk (execRepairReplayEnd s) := by
  unfold execRepairReplayEnd
  split
  · exact (outOk_next _).2 (memOk_degrade _ (MemOk.congr ((memOk_pick _ _).2 h) rfl rfl))
  · exact (outOk_next _).2 h

theorem outOk_execSpareTakeover {s : State} (h : MemOk s) : OutOk (execSpareTakeover s) := by
  unfold execSpareTakeover
  split
  · split
    · exact (outOk_next _).2 h
    split
    · split
      · exact (outOk_next _).2 h
      · exact (outOk_next _).2 ((memOk_later _ _).2 (h.congr rfl rfl))
    · exact (outOk_next _).2 (memOk_checkNotice _ _ _ _ (h.congr rfl rfl))
  · exact (outOk_next _).2 h

theorem memOk_spoilRange (key n : Nat) {s : State} (h : MemOk s) : MemOk (s.spoilRange key n) :=
  h.mem (Memory.wf_spoilAll _ _ h.1) rfl

theorem memOk_checkContexts (core : Nat) (which : Ctx → Bool) {s : State} (h : MemOk s) :
    MemOk (s.checkContexts core which) := by
  unfold State.checkContexts
  refine memOk_foldl (fun _ _ ht => ?_) _ h
  dsimp only
  split
  · exact memOk_raiseAsync _ _ _ _ ht
  · exact ht

theorem outOk_execMachineCheck {s : State} (h : MemOk s) : OutOk (execMachineCheck s) := by
  unfold execMachineCheck
  split
  · rename_i k _
    cases k with
    | sramData key => exact (outOk_next _).2 (memOk_checkNotice _ _ _ _ (memOk_spoilRange _ _ h))
    | l1Data core line o => exact (outOk_next _).2 (memOk_checkNotice _ _ _ _ ((memOk_modCore _ _ _).2 h))
    | samplerData comb line => exact (outOk_next _).2 (memOk_checkNotice _ _ _ _ ((memOk_modComb _ _ _).2 h))
    | context core cx =>
      refine (outOk_next _).2 (memOk_checkNotice _ _ _ _ ?_)
      split
      · exact memOk_raiseAsync _ _ _ _ h
      · exact h
    | control core =>
      dsimp -zeta only
      extract_lets u
      have hu : MemOk u := memOk_checkNotice _ _ _ _ (memOk_checkContexts _ _ h)
      clear_value u
      exact (outOk_next _).2 (hu.congr rfl rfl)
    | dramData pa =>
      dsimp only
      split
      · exact (outOk_next _).2 h
      · exact (outOk_next _).2 (memOk_checkNotice _ _ _ _ (memOk_spoilRange _ _ h))
    | channel slice =>
      dsimp only
      split
      · exact (outOk_next _).2 h
      · exact (outOk_next _).2 (memOk_degrade _ h)
    | nectar line =>
      dsimp only
      split
      · exact (outOk_next _).2 h
      · refine (outOk_next _).2 (memOk_checkNotice _ _ _ _
          (memOk_foldl (fun _ _ ht => memOk_foldl (fun t x ht => ?_) _ ht) _
          ((memOk_modHive _ _ _).2 h)))
        split
        · exact (memOk_modCtx _ _ _ _).2 ht
        · exact ht
    | noSpare unit => exact (outOk_next _).2 (memOk_checkNotice _ _ _ _ h)
  · exact (outOk_next _).2 h

theorem outOk_execCoreFailure {s : State} (h : MemOk s) : OutOk (execCoreFailure s) := by
  unfold execCoreFailure
  split
  · dsimp only
    split
    · exact (outOk_next _).2 (memOk_checkNotice _ _ _ _
        ((memOk_modComb _ _ _).2 (memOk_foldl (fun _ _ ht => memOk_checkContexts _ _ ht) _ h)))
    · exact (outOk_next _).2 (memOk_spareJoins _ ((memOk_modCore _ _ _).2
        ((memOk_modComb _ _ _).2 (memOk_foldl (fun _ _ ht => memOk_checkContexts _ _ ht) _ h))))
  · exact (outOk_next _).2 h

/-! ### Context instructions and migration (R181-R189) -/

theorem memOk_homeCore (core cx : Nat) (va : W72) {s : State} (h : MemOk s) : MemOk (s.homeCore core cx va).2 := by
  unfold State.homeCore
  dsimp only
  split
  case h_6 =>
    split
    · exact h
    split <;> rename_i e <;> have ht := memOk_snd e (memOk_translate _ _ _ _ h)
    · exact ht
    · exact ht
  all_goals exact h

theorem outOk_withHome (a : BitVec 4) (k : State → Nat → Outcome) {s : State} (h : MemOk s)
    (hk : ∀ (t : State) x, MemOk t → OutOk (k t x)) : OutOk (s.withHome a k) := by
  unfold State.withHome
  dsimp only
  split
  · exact (outOk_next _).2 (memOk_raise _ _ h)
  split <;> rename_i e <;> have ht := memOk_snd e (memOk_homeCore _ _ _ h)
  · exact hk _ _ ht
  · exact (outOk_next _).2 (memOk_raise _ _ ht)
  · exact (outOk_next _).2 ((memOk_parkReplay _ _).2 ht)
  · exact (outOk_next _).2 ht

theorem outOk_leaveFor (target : Nat) {s : State} (h : MemOk s) : OutOk (s.leaveFor target) := by
  unfold State.leaveFor
  split
  · exact (outOk_next _).2 (memOk_raise _ _ h)
  split
  · exact outOk_commit h h
  · exact outOk_commitTo h ((memOk_later _ _).2 ((memOk_modHere _ _).2 ((memOk_finish _).2 h)))

theorem outOk_execMig (g a : BitVec 4) {s : State} (h : MemOk s) : OutOk (execMig g a s) := by
  refine outOk_guarded h ?_
  exact outOk_withHome _ _ h (fun _ _ ht => outOk_leaveFor _ ht)

theorem outOk_execMigc (g a : BitVec 4) {s : State} (h : MemOk s) : OutOk (execMigc g a s) := by
  refine outOk_guarded h ?_
  dsimp only
  split
  · exact (outOk_next _).2 (memOk_raise _ _ h)
  · exact outOk_leaveFor _ h

theorem outOk_execMigb (g : BitVec 4) {s : State} (h : MemOk s) : OutOk (execMigb g s) := by
  refine outOk_guarded h ?_
  exact outOk_leaveFor _ h

theorem outOk_execHome (g d a : BitVec 4) {s : State} (h : MemOk s) : OutOk (execHome g d a s) := by
  refine outOk_guarded h ?_
  exact outOk_withHome _ _ h (fun _ _ ht => outOk_commitHere _ ht)

theorem outOk_execIsfull (g d a : BitVec 4) (f : Bool) {s : State} (h : MemOk s) : OutOk (execIsfull g d a f s) := by
  refine outOk_guarded h ?_
  exact outOk_commitHere _ h

theorem outOk_execMkempty (g a : BitVec 4) (f : Bool) {s : State} (h : MemOk s) : OutOk (execMkempty g a f s) := by
  refine outOk_guarded h ?_
  exact outOk_commitHere _ h

theorem outOk_execMkfull (g a : BitVec 4) (f : Bool) {s : State} (h : MemOk s) : OutOk (execMkfull g a f s) := by
  refine outOk_guarded h ?_
  exact outOk_commitHere _ h

theorem memOk_unbind (core cx : Nat) {s : State} (h : MemOk s) : MemOk (s.unbind core cx) := h

theorem outOk_execMigrationDepart {s : State} (h : MemOk s) : OutOk (execMigrationDepart s) := by
  unfold execMigrationDepart
  split
  · rename_i core cx _
    dsimp only
    split
    · exact (outOk_next _).2 h
    split
    · exact (outOk_next _).2 ((memOk_later _ _).2 h)
    split
    · exact (outOk_next _).2 ((memOk_later _ _).2 (memOk_unbind _ _ h))
    · have hu := memOk_unbind core cx h
      exact (outOk_next _).2 ((memOk_later _ _).2 (memOk_vacate _ _ (hu.congr rfl rfl)))
  · exact (outOk_next _).2 h

theorem outOk_execMigrationArrival {s : State} (h : MemOk s) : OutOk (execMigrationArrival s) := by
  unfold execMigrationArrival
  split
  · split
    · exact (outOk_next _).2 h
    split
    · exact (outOk_next _).2 ((memOk_later _ _).2 h)
    refine (outOk_next _).2 ?_
    split
    · exact (memOk_later _ _).2 (memOk_allocate _ _ _ _ (memOk_acquire _ _ (h.congr rfl rfl)))
    · exact memOk_allocate _ _ _ _ (memOk_acquire _ _ (h.congr rfl rfl))
  · exact (outOk_next _).2 h

/-! ### Branches, loops and returns (R109-R111, R129) -/

theorem outOk_guardedCtl (g : BitVec 4) (k : State → Outcome) {s : State} (h : MemOk s)
    (hk : ∀ (t : State), MemOk t → OutOk (k t)) : OutOk (s.guardedCtl g k) := by
  unfold State.guardedCtl
  dsimp only
  split
  · exact (outOk_next _).2 (memOk_raise _ _ h)
  split
  · exact hk _ h
  · exact outOk_commit h h

theorem outOk_execNop (g : BitVec 4) {s : State} (h : MemOk s) : OutOk (execNop g s) := by
  refine outOk_guarded h ?_
  exact outOk_commit h h

theorem outOk_execBrk (g : BitVec 4) {s : State} (h : MemOk s) : OutOk (execBrk g s) := by
  refine outOk_guarded h ?_
  exact (outOk_next _).2 (memOk_raise _ _ h)

theorem outOk_execTrap (g : BitVec 4) (i : BitVec 8) {s : State} (h : MemOk s) : OutOk (execTrap g i s) := by
  refine outOk_guarded h ?_
  exact (outOk_next _).2 (memOk_raise _ _ h)

theorem outOk_execEret (g : BitVec 4) {s : State} (h : MemOk s) : OutOk (execEret g s) := by
  unfold execEret
  refine outOk_guardedCtl _ _ h (fun _ ht => ?_)
  split
  · exact outOk_commit ht ht
  split
  · exact (outOk_next _).2 (memOk_raise _ _ ht)
  · exact outOk_commitTo ht ((memOk_modHere _ _).2 ht)

theorem outOk_execBr (g : BitVec 4) (i : Imm 21) {s : State} (h : MemOk s) : OutOk (execBr g i s) := by
  unfold execBr
  exact outOk_guardedCtl _ _ h (fun _ ht => outOk_commitTo ht ((memOk_finishTo _ _).2 ht))

theorem outOk_execBl (g : BitVec 4) (i : Imm 21) {s : State} (h : MemOk s) : OutOk (execBl g i s) := by
  unfold execBl
  exact outOk_guardedCtl _ _ h (fun _ ht => outOk_commitTo ht ((memOk_finishTo _ _).2 ((memOk_modHere _ _).2 ht)))

theorem outOk_jump (a : BitVec 4) (link : Ctx → Ctx) {s : State} (h : MemOk s) : OutOk (s.jump a link) := by
  unfold State.jump
  dsimp only
  split
  · exact (outOk_next _).2 (memOk_raise _ _ h)
  split
  · exact (outOk_next _).2 (memOk_raise _ _ h)
  · exact outOk_commitTo h ((memOk_finishTo _ _).2 ((memOk_modHere _ _).2 h))

theorem outOk_execJr (g a : BitVec 4) {s : State} (h : MemOk s) : OutOk (execJr g a s) := by
  unfold execJr
  exact outOk_guardedCtl _ _ h (fun _ ht => outOk_jump _ _ ht)

theorem outOk_execJlr (g d a : BitVec 4) {s : State} (h : MemOk s) : OutOk (execJlr g d a s) := by
  unfold execJlr
  exact outOk_guardedCtl _ _ h (fun _ ht => outOk_jump _ _ ht)

theorem outOk_pushLoop (n : W32) (len : BitVec 17) {s : State} (h : MemOk s) : OutOk (s.pushLoop n len) := by
  unfold State.pushLoop
  dsimp only
  split
  · exact outOk_commit h h
  split
  · exact (outOk_next _).2 (memOk_raise _ _ h)
  split <;> rename_i e <;> have ht := memOk_snd e (memOk_fetchLoc _ _ _ h)
  · exact (outOk_next _).2 (memOk_raise _ _ ht)
  · exact (outOk_next _).2 ((memOk_parkReplay _ _).2 ht)
  · split
    · exact (outOk_next _).2 (memOk_raise _ _ ht)
    split
    · exact outOk_commitTo ht ((memOk_modHere _ _).2 ht)
    · exact outOk_commit ht ((memOk_modHere _ _).2 ht)

theorem outOk_execLoop (g k : BitVec 4) (n : BitVec 17) {s : State} (h : MemOk s) : OutOk (execLoop g k n s) := by
  unfold execLoop
  refine outOk_guardedCtl _ _ h (fun _ ht => ?_)
  dsimp only
  split
  · exact (outOk_next _).2 (memOk_raise _ _ ht)
  · exact outOk_pushLoop _ _ ht

theorem outOk_execLoopi (g : BitVec 4) (k : Imm 4) (n : BitVec 17) {s : State} (h : MemOk s) :
    OutOk (execLoopi g k n s) := by
  unfold execLoopi
  exact outOk_guardedCtl _ _ h (fun _ ht => outOk_pushLoop _ _ ht)

/-! ### Bit streams (R190-R195) -/

theorem outOk_bsFault (code : Nat) {s : State} (h : MemOk s) : OutOk (s.bsFault code) := by
  unfold State.bsFault
  exact (outOk_next _).2 (memOk_raise _ _ h)

theorem outOk_bitsForm (g d : BitVec 4) (n : BitVec 5) (step : Bool) {s : State} (h : MemOk s) :
    OutOk (s.bitsForm g d n step) := by
  unfold State.bitsForm
  refine outOk_guarded h ?_
  dsimp only
  split
  · exact outOk_bsFault _ h
  split
  · exact (outOk_next _).2 (memOk_raise _ _ h)
  split
  · exact (outOk_next _).2 ((memOk_parkReplay _ _).2 h)
  · exact outOk_commit h ((memOk_modHere _ _).2 (memOk_issueRec _ _ _ _ _ _ h))

theorem outOk_execBsinit (g a b : BitVec 4) (x : Bool) {s : State} (h : MemOk s) : OutOk (execBsinit g a b x s) := by
  refine outOk_guarded h ?_
  dsimp only
  split
  · exact (outOk_next _).2 (memOk_raise _ _ h)
  split
  · exact (outOk_next _).2 (memOk_raise _ _ h)
  split
  · exact outOk_bsFault _ h
  · exact outOk_commitHere _ h

theorem outOk_execBsskip (g b : BitVec 4) {s : State} (h : MemOk s) : OutOk (execBsskip g b s) := by
  refine outOk_guarded h ?_
  dsimp only
  split
  · exact (outOk_next _).2 (memOk_raise _ _ h)
  split
  · exact outOk_bsFault _ h
  · exact outOk_commitHere _ h

theorem outOk_appendBits (x n : Nat) {s : State} (h : MemOk s) : OutOk (s.appendBits x n) := by
  unfold State.appendBits
  dsimp only
  split
  · exact outOk_bsFault _ h
  split
  · exact outOk_commit h ((memOk_modHere _ _).2 h)
  split
  · exact (outOk_next _).2 (memOk_raise _ _ h)
  · exact outOk_commit h ((memOk_modHere _ _).2 (memOk_issueWrite _ _ _ h))

theorem outOk_execBsput (g a : BitVec 4) (n : BitVec 5) {s : State} (h : MemOk s) : OutOk (execBsput g a n s) := by
  refine outOk_guarded h ?_
  dsimp only
  split
  · exact (outOk_next _).2 (memOk_raise _ _ h)
  · exact outOk_appendBits _ _ h

theorem outOk_execBsalign (g : BitVec 4) (x : Bool) {s : State} (h : MemOk s) : OutOk (execBsalign g x s) := by
  refine outOk_guarded h ?_
  split
  · exact outOk_appendBits _ _ h
  dsimp only
  split
  · exact outOk_bsFault _ h
  · exact outOk_commitHere _ h

theorem outOk_execBsflush (g d : BitVec 4) {s : State} (h : MemOk s) : OutOk (execBsflush g d s) := by
  refine outOk_guarded h ?_
  dsimp only
  split
  · exact outOk_commit h ((memOk_modHere _ _).2 h)
  split
  · exact (outOk_next _).2 (memOk_raise _ _ h)
  · exact outOk_commit h ((memOk_modHere _ _).2 (memOk_issueWrite _ _ _ h))

theorem outOk_execFwait (g d a : BitVec 4) {s : State} (h : MemOk s) : OutOk (execFwait g d a s) := by
  refine outOk_guarded h ?_
  refine outOk_withRing _ _ h (fun _ _ => ?_)
  split
  · exact (outOk_next _).2 ((memOk_parkReplay _ _).2 h)
  · exact outOk_commit h (memOk_acquire _ _ ((memOk_modHere _ _).2 h))

/-! ### Host accesses and power (spec/24_link.md R431-R435) -/

theorem outOk_execHostWrite {s : State} (h : MemOk s) : OutOk (execHostWrite s) := by
  unfold execHostWrite
  split
  · split
    · exact (outOk_next _).2 h
    · exact (outOk_next _).2 (memOk_engineWrite _ _ _ _ _ _ h)
  · exact (outOk_next _).2 h

theorem memOk_timeOut (core cx : Nat) (n : Late) {s : State} (h : MemOk s) : MemOk (s.timeOut core cx n) := by
  unfold State.timeOut
  split
  · exact (memOk_later _ _).2 ((memOk_modCtx _ _ _ _).2 h)
  · dsimp only
    refine (memOk_modComb _ _ _).2 (memOk_foldl (fun _ _ ht => ?_) _ h)
    split
    · exact (memOk_modCtx _ _ _ _).2 ht
    · exact ht
  · exact h.congr rfl rfl

theorem outOk_execHostCompletionTimeout {s : State} (h : MemOk s) : OutOk (execHostCompletionTimeout s) := by
  unfold execHostCompletionTimeout
  split
  · dsimp only
    split
    · exact (outOk_next _).2 h
    · exact (outOk_next _).2 (MemOk.congr (memOk_timeOut _ _ _ ((memOk_pick _ _).2 h)) rfl rfl)
  · exact (outOk_next _).2 h

theorem outOk_execPowerTick {s : State} (h : MemOk s) : OutOk (execPowerTick s) := by
  unfold execPowerTick
  cases s.event
  case powerTick o =>
    cases o with
    | some g => exact (outOk_next _).2 (h.congr rfl rfl)
    | none =>
      refine (outOk_next _).2 ?_
      dsimp only
      split
      · exact h.congr rfl rfl
      · exact h.congr rfl rfl
  all_goals exact (outOk_next _).2 h

theorem outOk_execGrantLoss {s : State} (h : MemOk s) : OutOk (execGrantLoss s) := by
  unfold execGrantLoss
  split
  · refine (outOk_next _).2 ?_
    split
    · exact h.congr rfl rfl
    · exact h
  · exact (outOk_next _).2 h

theorem memOk_sample (x : W16) {s : State} (h : MemOk s) : MemOk (s.sample x) := h

theorem memOk_samples (run : State → Bool) (l : List W16) {s : State} (h : MemOk s) : MemOk (s.samples run l).2 := by
  induction l generalizing s with
  | nil => exact h
  | cons x l ih =>
    unfold State.samples
    dsimp only
    exact ih (memOk_sample _ h)

theorem outOk_execClampEngage {s : State} (h : MemOk s) : OutOk (execClampEngage s) := by
  unfold execClampEngage
  split
  · refine outOk_unless _ h ((outOk_next _).2 ?_)
    split
    · exact MemOk.congr (memOk_samples _ _ h) rfl rfl
    · exact memOk_samples _ _ h
  · exact (outOk_next _).2 h

theorem outOk_execClampRelease {s : State} (h : MemOk s) : OutOk (execClampRelease s) := by
  unfold execClampRelease
  split
  · refine outOk_unless _ h ((outOk_next _).2 ?_)
    split
    · exact MemOk.congr (memOk_samples _ _ h) rfl rfl
    · exact memOk_samples _ _ h
  · exact (outOk_next _).2 h

/-! ### Special registers (R126-R128) -/

theorem memOk_gput (core : Nat) (n : BitVec 3) (x : W64) {s : State} (h : MemOk s) : MemOk (s.gput core n x) := h

theorem memOk_wput (core : Nat) (n : BitVec 3) (x : W64) {s : State} (h : MemOk s) : MemOk (s.wput core n x) := h

theorem outOk_execRdsr (g d : BitVec 4) (n : BitVec 12) {s : State} (h : MemOk s) : OutOk (execRdsr g d n s) := by
  refine outOk_guarded h ?_
  dsimp only
  split
  · split
    · exact outOk_commitHere _ h
    · exact (outOk_next _).2 ((memOk_parkReplay _ _).2 h)
  split
  · split
    · exact outOk_commitHere _ h
    · exact (outOk_next _).2 ((memOk_parkReplay _ _).2 h)
  · exact outOk_commitHere _ h

theorem memOk_writeSreg (core cx n : Nat) (x : W64) {s : State} (h : MemOk s) : MemOk (s.writeSreg core cx n x) := by
  unfold State.writeSreg
  split
  · exact (memOk_setCtx _ _ _ _).2 h
  split
  · exact memOk_wput _ _ _ h
  split
  · exact memOk_gput _ _ _ h
  dsimp only
  split
  · exact (memOk_modCore _ _ _).2 h
  · exact (memOk_modCore _ _ _).2 h
  · exact h.congr rfl rfl
  · exact h.congr rfl rfl
  · exact h.congr rfl rfl
  · split
    · exact h.congr rfl rfl
    · exact h
  · exact h.congr rfl rfl
  · exact (memOk_modHive _ _ _).2 h
  · exact memOk_flushNotices _ (memOk_sysTold _ _ (h.congr rfl rfl))
  · exact h.congr rfl rfl
  · exact h.congr rfl rfl
  · exact h.congr rfl rfl
  · exact h.congr rfl rfl
  · exact h.congr rfl rfl
  · exact h.congr rfl rfl
  · exact h.congr rfl rfl
  · split <;> exact h.congr rfl rfl
  · exact h.congr rfl rfl
  · exact h

theorem outOk_execWrsr (g a : BitVec 4) (n : BitVec 12) {s : State} (h : MemOk s) : OutOk (execWrsr g a n s) := by
  refine outOk_guarded h ?_
  dsimp only
  split
  · exact (outOk_next _).2 (memOk_raise _ _ h)
  split
  · exact (outOk_next _).2 (memOk_raise _ _ h)
  · exact outOk_commit h (memOk_writeSreg _ _ _ _ h)

theorem outOk_execFmode (g : BitVec 4) (r : Rm) {s : State} (h : MemOk s) : OutOk (execFmode g r s) := by
  refine outOk_guarded h ?_
  exact outOk_commitHere _ h

end Sys2Proof.Machine
end

section
/-! SUPPORT. Every instruction keeps the canonical form, and with it the issue of bundles and the course of time. -/
set_option Elab.async false

namespace Sys2Proof.Machine

/-- Every arm of `exec` gives an outcome that keeps the form: by the rule of the arm's own meaning, or of the form that the
arm shares with others. -/
theorem outOk_exec (i : Instr) {s : State} (h : MemOk s) : OutOk (exec i s) := by
  cases i with
  | add | sub | mul | mulh | mulhu | and | or | xor | shl | shr | sra | min | max | minu | maxu | andn =>
    unfold exec; exact outOk_alu2 _ _ _ _ _ h
  | div | divu | rem | remu => unfold exec; exact outOk_divOp _ _ _ _ _ _ h
  | clz | ctz | pcnt | sext | addi | andi | ori | xori | shli | shri | srai | orh | bfx | bfxs =>
    unfold exec; exact outOk_alu1 _ _ _ _ h
  | pand | por | pxor | pandn | pnot => unfold exec; exact outOk_plog _ _ _ _ _ h
  | ld | ldz | ldv => unfold exec; exact outOk_loadForm _ _ _ _ _ _ _ _ h
  | st | stv => unfold exec; exact outOk_storeForm _ _ _ _ _ _ _ _ _ h
  | amo | cas => unfold exec; exact outOk_atomicForm _ _ _ _ _ _ _ _ _ h
  | xget | xput | xcopy | xtile | xgetv => unfold exec; exact outOk_xferForm _ _ _ _ _ _ _ _ _ _ _ _ _ h
  | bsget | bspeek => unfold exec; exact outOk_bitsForm _ _ _ _ h
  | vnop | vaddF32 | vsubF32 | vmulF32 | vminF32 | vmaxF32 | vminnum | vmaxnum | vabs | vneg | vcopysign | vfma
  | vfms | vfnma | vfnms | vhAdd | vhMul | vhFma | vhMin | vhMax | vaddI32 | vsubI32 | vmulI32 | vmulh | vandI32
  | vorI32 | vxorI32 | vshlI32 | vshrI32 | vsraI32 | vminI32 | vmaxI32 | vminN32 | vmaxN32 | vclzI32 | vpcntI32
  | vadd8 | vadds8 | vdot4 | vcmp | vsel | vcvtI32F32 | vcvtF32I32 | vcvtF32N32 | vcvtF16F32 | vcvtF32F16
  | vcvtBf16F32 | vcvtF32Bf16 | vcvtI32I8 | vcvtI8I32 | vcvtN32F32 | vrcp | vrsqrt | vsqrt | vdiv | vexp2 | vlog2
  | vsinpi | vcospi | vperm | vrotl | vbcastl | vredaddF32 | vredaddI32 | vredminF32 | vredmaxF32 | vmov | vbcast
  | vext | vins | vlane | mlog | mcnt | mset | vbfpk | vbfunp | vbfhdr | vbfscale | vtopk | vaddi | vmuli | vfmai
  | vmovi => unfold exec; exact outOk_hold _ h
  | vfmak | vaddk | vmulk => unfold exec; exact outOk_bankForm _ _ h
  | nop => exact outOk_execNop _ h
  | brk => exact outOk_execBrk _ h
  | exit => exact outOk_execExit _ h
  | eret => exact outOk_execEret _ h
  | trap => exact outOk_execTrap _ _ h
  | tlbinvPage => exact outOk_execTlbinvPage _ _ _ h
  | tlbinvAsid => exact outOk_execTlbinvAsid _ _ h
  | tlbinvAll => exact outOk_execTlbinvAll _ h
  | mov => exact outOk_execMov _ _ _ h
  | movi => exact outOk_execMovi _ _ _ h
  | bfi => exact outOk_execBfi _ _ _ _ _ h
  | lea => exact outOk_execLea _ _ _ _ _ h
  | leai => exact outOk_execLeai _ _ _ _ h
  | setsp => exact outOk_execSetsp _ _ _ _ h
  | getsp => exact outOk_execGetsp _ _ h
  | cmp => exact outOk_execCmp _ _ _ _ _ h
  | cmpi => exact outOk_execCmpi _ _ _ _ _ h
  | pword => exact outOk_execPword _ _ h
  | pset => exact outOk_execPset _ _ h
  | sel => exact outOk_execSel _ _ _ _ _ h
  | br => exact outOk_execBr _ _ h
  | bl => exact outOk_execBl _ _ h
  | jr => exact outOk_execJr _ _ h
  | jlr => exact outOk_execJlr _ _ _ h
  | loop => exact outOk_execLoop _ _ _ h
  | loopi => exact outOk_execLoopi _ _ _ h
  | ldsamp => exact outOk_execLdsamp _ _ _ _ h
  | gath => exact outOk_execGath _ _ _ _ _ _ _ _ h
  | scat => exact outOk_execScat _ _ _ _ _ _ _ _ h
  | ared => exact outOk_execAred _ _ _ _ _ _ _ h
  | fence => exact outOk_execFence _ _ _ h
  | fsamp => exact outOk_execFsamp _ _ h
  | sinv => exact outOk_execSinv _ _ h
  | mwatch => exact outOk_execMwatch _ _ h
  | mwait => exact outOk_execMwait _ _ _ h
  | mclr => exact outOk_execMclr _ h
  | cflush => exact outOk_execCflush _ _ h
  | cinval => exact outOk_execCinval _ _ h
  | prf => exact outOk_execPrf _ _ h
  | mig => exact outOk_execMig _ _ h
  | migc => exact outOk_execMigc _ _ h
  | migb => exact outOk_execMigb _ h
  | home => exact outOk_execHome _ _ _ h
  | isfull => exact outOk_execIsfull _ _ _ _ h
  | mkempty => exact outOk_execMkempty _ _ _ h
  | mkfull => exact outOk_execMkfull _ _ _ h
  | fmode => exact outOk_execFmode _ _ h
  | rdsr => exact outOk_execRdsr _ _ _ h
  | wrsr => exact outOk_execWrsr _ _ _ h
  | msg => exact outOk_execMsg _ _ _ h
  | mrecv => exact outOk_execMrecv _ _ h
  | chbind => exact outOk_execChbind _ _ h
  | tbset => exact outOk_execTbset _ _ _ h
  | tbclr => exact outOk_execTbclr _ _ h
  | mbrd => exact outOk_execMbrd _ _ _ _ h
  | callat => exact outOk_execCallat _ _ _ _ h
  | ret => exact outOk_execRet _ _ h
  | qput => exact outOk_execQput _ _ _ _ h
  | gang => exact outOk_execGang _ _ h
  | ungang => exact outOk_execUngang _ h
  | barInit => exact outOk_execBarInit _ _ _ h
  | barArv => exact outOk_execBarArv _ _ h
  | barWait => exact outOk_execBarWait _ _ _ h
  | barArw => exact outOk_execBarArw _ _ h
  | trig => exact outOk_execTrig _ h
  | cancel => exact outOk_execCancel _ _ h
  | cnt => exact outOk_execCnt _ _ _ _ h
  | xwait => exact outOk_execXwait _ _ _ _ h
  | xstat => exact outOk_execXstat _ _ _ _ h
  | cbinit => exact outOk_execCbinit _ _ _ _ h
  | cbpush => exact outOk_execCbpush _ _ _ _ h
  | cbpop => exact outOk_execCbpop _ _ _ _ h
  | cbwait => exact outOk_execCbwait _ _ _ _ h
  | cbspace => exact outOk_execCbspace _ _ _ _ h
  | pinit => exact outOk_execPinit _ _ h
  | pfill => exact outOk_execPfill _ _ _ h
  | peq => exact outOk_execPeq _ _ _ h
  | pget => exact outOk_execPget _ _ _ h
  | ptry => exact outOk_execPtry _ _ _ h
  | pstat => exact outOk_execPstat _ _ _ _ h
  | licAcq => exact outOk_execLicAcq _ _ h
  | licRel => exact outOk_execLicRel _ h
  | licGive => exact outOk_execLicGive _ h
  | mcmd => exact outOk_execMcmd _ _ _ h
  | mfin => exact outOk_execMfin _ _ _ h
  | ninst => exact outOk_execNinst _ _ _ h
  | nwait => exact outOk_execNwait _ _ _ h
  | nstat => exact outOk_execNstat _ _ _ _ h
  | nretire => exact outOk_execNretire _ _ h
  | bsinit => exact outOk_execBsinit _ _ _ _ h
  | bsput => exact outOk_execBsput _ _ _ h
  | bsskip => exact outOk_execBsskip _ _ h
  | bsalign => exact outOk_execBsalign _ _ h
  | bsflush => exact outOk_execBsflush _ _ h
  | fwait => exact outOk_execFwait _ _ _ h
  | mbegin => exact outOk_execMbegin _ _ _ _ h
  | mstep => exact outOk_execMstep _ _ _ _ _ _ _ _ h
  | mend => exact outOk_execMend _ _ _ h
  | mdrain => exact outOk_execMdrain _ _ _ _ _ _ _ h
  | mzero => exact outOk_execMzero _ _ _ h
  | commandAccept => exact outOk_execCommandAccept h
  | kStep => exact outOk_execKStep h
  | drainComplete => exact outOk_execDrainComplete h
  | licenceGrant => exact outOk_execLicenceGrant h
  | coopHandover => exact outOk_execCoopHandover h
  | fill => exact outOk_execFill h
  | remoteFill => exact outOk_execRemoteFill h
  | clearDone => exact outOk_execClearDone h
  | trapDelivery => exact outOk_execTrapDelivery h
  | cancelDelivery => exact outOk_execCancelDelivery h
  | watchdog => exact outOk_execWatchdog h
  | energyRefill => exact outOk_execEnergyRefill h
  | migrationDepart => exact outOk_execMigrationDepart h
  | migrationArrival => exact outOk_execMigrationArrival h
  | messageArrival => exact outOk_execMessageArrival h
  | messageRetry => exact outOk_execMessageRetry h
  | counterAcknowledged => exact outOk_execCounterAcknowledged h
  | groupAdmit => exact outOk_execGroupAdmit h
  | launchStart => exact outOk_execLaunchStart h
  | pctlGo => exact outOk_execPctlGo h
  | preemptHalt => exact outOk_execPreemptHalt h
  | preemptSave => exact outOk_execPreemptSave h
  | prest => exact outOk_execPrest h
  | pageWalk => exact outOk_execPageWalk h
  | faultRetry => exact outOk_execFaultRetry h
  | faultDecline => exact outOk_execFaultDecline h
  | ephemeralExpire => exact outOk_execEphemeralExpire h
  | samplerFill => exact outOk_execSamplerFill h
  | mwaitTimeout => exact outOk_execMwaitTimeout h
  | qhdr => exact outOk_execQhdr h
  | queueStateStore => exact outOk_execQueueStateStore h
  | launchPacket => exact outOk_execLaunchPacket h
  | fencePacket => exact outOk_execFencePacket h
  | fencePass => exact outOk_execFencePass h
  | signalPacket => exact outOk_execSignalPacket h
  | copyPacket => exact outOk_execCopyPacket h
  | installPacket => exact outOk_execInstallPacket h
  | markerPacket => exact outOk_execMarkerPacket h
  | cancelPacket => exact outOk_execCancelPacket h
  | nheadWrite => exact outOk_execNheadWrite h
  | transferArrive => exact outOk_execTransferArrive h
  | streamerPiece => exact outOk_execStreamerPiece h
  | transferFinish => exact outOk_execTransferFinish h
  | ringReserve => exact outOk_execRingReserve h
  | promiseRequest => exact outOk_execPromiseRequest h
  | blockErase => exact outOk_execBlockErase h
  | unitProgram => exact outOk_execUnitProgram h
  | installComplete => exact outOk_execInstallComplete h
  | supersedeDrain => exact outOk_execSupersedeDrain h
  | stagingFill => exact outOk_execStagingFill h
  | hostWrite => exact outOk_execHostWrite h
  | hostCompletionTimeout => exact outOk_execHostCompletionTimeout h
  | linkRetrain => exact outOk_execLinkRetrain h
  | powerTick => exact outOk_execPowerTick h
  | grantLoss => exact outOk_execGrantLoss h
  | clampEngage => exact outOk_execClampEngage h
  | clampRelease => exact outOk_execClampRelease h
  | frameLatch => exact outOk_execFrameLatch h
  | verticalBlank => exact outOk_execVerticalBlank h
  | genlockHeld => exact outOk_execGenlockHeld h
  | lockLost => exact outOk_execLockLost h
  | muxReturn => exact outOk_execMuxReturn h
  | start => exact outOk_execStart h
  | mainPowerLoss => exact outOk_execMainPowerLoss h
  | dorm => exact outOk_execDorm h
  | warmReset => exact outOk_execWarmReset h
  | repairReplayEnd => exact outOk_execRepairReplayEnd h
  | spareTakeover => exact outOk_execSpareTakeover h
  | machineCheck => exact outOk_execMachineCheck h
  | coreFailure => exact outOk_execCoreFailure h
  | storeAcknowledgement => exact outOk_execStoreAcknowledgement h

/-! ### Issue of bundles (R43-R47, R61, R278-R280) -/

theorem memOk_fetch (core cx n : Nat) {s : State} (h : MemOk s) : MemOk (s.fetch core cx n).2 := by
  induction n generalizing s with
  | zero => exact h
  | succ n ih =>
    unfold State.fetch
    dsimp only
    split <;> rename_i e <;> have ht := memOk_snd e (memOk_fetchLoc _ _ _ h)
    · exact ht
    · exact ht
    · split
      · exact ht
      · exact ih ((memOk_modCtx _ _ _ _).2 ht)
      · exact ht
      · exact ht

theorem memOk_charge (paid : Bool) (core cx n : Nat) {s : State} (h : MemOk s) : MemOk (s.charge paid core cx n) := by
  unfold State.charge
  dsimp only
  split
  · exact h
  split
  · exact (memOk_modCtx _ _ _ _).2 h
  split
  · exact (memOk_modCtx _ _ _ _).2 ((memOk_modCore _ _ _).2 h)
  · exact (memOk_modCore _ _ _).2 h

theorem outOk_runBundle (core cx : Nat) (si vi : Instr) (b : Bundle) {s : State} (h : MemOk s) :
    OutOk (s.runBundle core cx si vi b) := by
  unfold State.runBundle
  extract_lets paid u
  have hv : OutOk (exec vi u) := outOk_exec _ ((memOk_modCtx _ _ _ _).2 (h.congr rfl rfl))
  split
  · rename_i v e
    have hs : OutOk (exec si { v with sel := (core, cx) }) := outOk_exec _ ((hv v e).congr rfl rfl)
    split
    · rename_i w e2
      exact (outOk_next _).2 (memOk_charge _ _ _ _ (hs w e2))
    · exact hs
  · exact hv

theorem outOk_resume (core cx : Nat) {s : State} (h : MemOk s) : OutOk (s.resume core cx) := by
  unfold State.resume
  exact outOk_exec _ (h.congr rfl rfl)

theorem outOk_takeAsync (core cx : Nat) (code : Byte) {s : State} (h : MemOk s) : OutOk (s.takeAsync core cx code) := by
  unfold State.takeAsync
  dsimp only
  exact outOk_exec _ (h.congr rfl rfl)

theorem memOk_ready (core cx : Nat) {s : State} (h : MemOk s) : MemOk (s.ready core cx).2 := by
  unfold State.ready
  split
  · exact h
  split <;> rename_i e <;> have ht := memOk_snd e (memOk_fetch _ _ _ h)
  · exact ht
  · exact ht
  · exact ht

theorem memOk_parkAt (core cx : Nat) (w : Wait) {s : State} (h : MemOk s) : MemOk (s.parkAt core cx w) := by
  unfold State.parkAt
  split
  · exact h
  · exact (memOk_modCtx _ _ _ _).2 h

theorem memOk_leaves (core cx : Nat) {s : State} (h : MemOk s) : MemOk (s.leaves core cx) := by
  unfold State.leaves
  dsimp only
  split
  · split
    · exact memOk_leavePark _ _ _ ((memOk_modCtx _ _ _ _).2 h)
    · exact h
  · exact h

theorem outOk_issueOne (core cx : Nat) {s : State} (h : MemOk s) : OutOk (s.issueOne core cx) := by
  unfold State.issueOne
  split <;> rename_i e <;> have ht := memOk_snd e (memOk_ready _ _ h)
  · exact (outOk_next _).2 (memOk_deliver _ _ _ _ _ _ _ ht)
  · exact (outOk_next _).2 (memOk_parkAt _ _ _ ht)
  · split
    · exact (outOk_next _).2 (memOk_deliver _ _ _ _ _ _ _ ht)
    · exact (outOk_next _).2 (memOk_parkAt _ _ _ ht)
    · exact (outOk_next _).2 ht
    · exact outOk_runBundle _ _ _ _ _ ht

theorem memOk_hasIssued (cx : Nat) (ks : List Nat) {s : State} (h : MemOk s) : MemOk (s.hasIssued cx ks) := by
  unfold State.hasIssued
  exact memOk_foldl (fun _ _ ht => (memOk_modCtx _ _ _ _).2 ht) _ h

theorem memOk_tries (core cx : Nat) {s : State} (h : MemOk s) : MemOk (s.tries core cx) := by
  unfold State.tries
  split
  · exact (memOk_modCtx _ _ _ _).2 h
  · exact h

theorem outOk_resumeAll (cx : Nat) (l : List Nat) {s : State} (h : MemOk s) : OutOk (s.resumeAll cx l) := by
  induction l generalizing s with
  | nil => exact (outOk_next _).2 h
  | cons x l ih =>
    unfold State.resumeAll
    dsimp only
    split
    · split
      · rename_i e
        have ht := outOk_resume _ _ (memOk_tries _ _ h) _ e
        exact ih (memOk_hasIssued _ _ (memOk_leaves _ _ ht))
      · exact outOk_resume _ _ (memOk_tries _ _ h)
    · exact ih h

theorem outOk_issueAll (cx lead : Nat) (c : Option Ctx) (si vi : Instr) (b : Bundle) (l : List Nat) {s : State}
    (h : MemOk s) : OutOk (s.issueAll cx lead c si vi b l) := by
  induction l generalizing s with
  | nil => exact (outOk_next _).2 h
  | cons k l ih =>
    have hb : OutOk (State.runBundle { s with lead := if k = lead then none else c } k cx si vi b) :=
      outOk_runBundle _ _ _ _ _ h
    unfold State.issueAll
    split
    · rename_i t e
      exact ih (hb t e)
    · exact hb

theorem outOk_takeAll (cx : Nat) (l : List Nat) {s : State} (h : MemOk s) : OutOk (s.takeAll cx l) := by
  induction l generalizing s with
  | nil => exact (outOk_next _).2 h
  | cons x l ih =>
    unfold State.takeAll
    split
    · exact ih h
    split
    · rename_i e
      have ht := outOk_takeAsync _ _ _ h _ e
      exact ih ht
    · exact outOk_takeAsync _ _ _ h

theorem memOk_standWith (cx : Nat) (m : GangMember) {s : State} (h : MemOk s) : MemOk (s.standWith cx m) := by
  unfold State.standWith
  dsimp only
  split
  · refine memOk_foldl (fun _ _ ht => ?_) _ h
    split
    · exact (memOk_modCtx _ _ _ _).2 ht
    · exact ht
  · exact h

theorem memOk_gangEnd (cx : Nat) (m : GangMember) {s : State} (h : MemOk s) : MemOk (s.gangEnd cx m) := by
  unfold State.gangEnd
  dsimp only
  split
  · exact memOk_standWith _ _ h
  · exact memOk_dissolve _ _ (memOk_standWith _ _ h)

theorem memOk_gateAll (cx : Nat) (l : List (Nat × Gate)) {s : State} (h : MemOk s) : MemOk (s.gateAll cx l) := by
  induction l generalizing s with
  | nil => exact h
  | cons x l ih =>
    unfold State.gateAll
    split
    · rename_i e
      cases e
    · rename_i e
      cases e
      exact ih (memOk_parkAt _ _ _ h)
    · rename_i e
      cases e
      exact ih h

theorem memOk_trapAll (cx : Nat) (b : Bundle) (l : List (Nat × Gate)) {s : State} (h : MemOk s) :
    MemOk (s.trapAll cx b l) := by
  induction l generalizing s with
  | nil => exact h
  | cons x l ih =>
    unfold State.trapAll
    split
    · rename_i e
      cases e
    · rename_i e
      cases e
      exact ih (memOk_deliver _ _ _ _ _ _ _ h)
    · rename_i e
      cases e
      exact ih h

theorem outOk_issueMembers (cx : Nat) (m : GangMember) (si vi : Instr) (b : Bundle) (take ks : List Nat) {s : State}
    (h : MemOk s) : OutOk (s.issueMembers cx m si vi b take ks) := by
  unfold State.issueMembers
  dsimp only
  split
  · exact (outOk_next _).2 (memOk_gateAll _ _ h)
  split
  · split
    · exact outOk_issueAll _ _ _ _ _ _ _ h
    split
    · rename_i e
      have ht := outOk_takeAll _ _ h _ e
      split
      · rename_i e2
        have ht2 := outOk_issueAll _ _ _ _ _ _ _ (memOk_trapAll _ _ _ ht) _ e2
        split
        · rename_i e3
          have ht3 := outOk_issueAll _ _ _ _ _ _ _ ht2 _ e3
          refine (outOk_next _).2 ?_
          split
          · exact memOk_dissolve _ _ (memOk_standWith _ _ ht3)
          · exact ht3
        · exact outOk_issueAll _ _ _ _ _ _ _ ht2
      · exact outOk_issueAll _ _ _ _ _ _ _ (memOk_trapAll _ _ _ ht)
    · exact outOk_takeAll _ _ h
  split
  · exact outOk_issueAll _ _ _ _ _ _ _ h
  split
  · rename_i e
    have ht := outOk_takeAll _ _ h _ e
    split
    · rename_i e2
      have ht2 := outOk_issueAll _ _ _ _ _ _ _ (memOk_trapAll _ _ _ ht) _ e2
      split
      · rename_i e3
        have ht3 := outOk_issueAll _ _ _ _ _ _ _ ht2 _ e3
        refine (outOk_next _).2 ?_
        split
        · exact memOk_dissolve _ _ (memOk_standWith _ _ ht3)
        · exact ht3
      · exact outOk_issueAll _ _ _ _ _ _ _ ht2
    · exact outOk_issueAll _ _ _ _ _ _ _ (memOk_trapAll _ _ _ ht)
  · exact outOk_takeAll _ _ h

theorem outOk_issueGang (cx : Nat) (m : GangMember) {s : State} (h : MemOk s) : OutOk (s.issueGang cx m) := by
  have hr := outOk_resumeAll cx (s.members cx m).tail h
  unfold State.issueGang
  split
  case h_2 => exact hr
  rename_i u e
  have hu : MemOk u := hr u e
  extract_lets lead ks take rest r v o
  split
  · exact (outOk_next _).2 hu
  split
  · exact (outOk_next _).2 (memOk_foldl (fun _ _ ht => (memOk_modCtx _ _ _ _).2 ht) _ hu)
  have ho : OutOk o := by
    unfold o
    split
    · exact outOk_takeAll _ _ hu
    have hv : MemOk v := memOk_foldl (fun _ _ ht => (memOk_modCtx _ _ _ _).2 ht) _ (memOk_ready _ _ hu)
    clear_value v
    split
    · exact (outOk_next _).2 (memOk_leaves _ _ (memOk_parkAt _ _ _ hv))
    · have hw := outOk_takeAll cx take hv
      split
      · rename_i w e2
        exact (outOk_next _).2 (memOk_foldl (fun _ _ ht => memOk_deliver _ _ _ _ _ _ _ ht) _ (hw w e2))
      · exact hw
    · exact outOk_issueMembers _ _ _ _ _ _ _ hv
  clear_value o
  split
  · exact (outOk_next _).2 (memOk_hasIssued _ _ (ho _ rfl))
  · exact ho

theorem outOk_offer (core cx : Nat) {s : State} (h : MemOk s) : OutOk (s.offer core cx) := by
  unfold State.offer
  dsimp only
  split
  · exact (outOk_next _).2 h
  split
  · split
    · exact outOk_issueGang _ _ h
    · exact (outOk_next _).2 h
  split
  · exact (outOk_next _).2 ((memOk_modCtx _ _ _ _).2 h)
  split
  · exact outOk_takeAsync _ _ _ h
  · exact outOk_issueOne _ _ h

theorem outOk_use (core cx : Nat) {s : State} (h : MemOk s) : OutOk (s.use core cx) := by
  unfold State.use
  dsimp only
  split
  · exact (outOk_next _).2 h
  split
  · split
    · rename_i e
      have ht := outOk_resume _ _ (memOk_tries _ _ h) _ e
      split
      · exact outOk_offer _ _ (memOk_leaves _ _ ht)
      · exact (outOk_next _).2 (memOk_leaves _ _ ht)
    · exact outOk_resume _ _ (memOk_tries _ _ h)
  · exact outOk_offer _ _ (memOk_tries _ _ h)

theorem outOk_slot (core cx : Nat) {s : State} (h : MemOk s) : OutOk (s.slot core cx) := by
  unfold State.slot
  split
  · rename_i e
    have ht := outOk_use _ _ h _ e
    exact (outOk_next _).2 (memOk_gangEnd _ _ ht)
  · exact outOk_use _ _ h

/-! ### The course of time (R165-R178) -/

theorem memOk_clearSamplers {s : State} (h : MemOk s) : MemOk s.clearSamplers := by
  unfold State.clearSamplers
  refine memOk_foldl (fun _ _ ht => ?_) _ h
  split
  · exact ht
  · exact memOk_clearSampler _ ht

theorem memOk_endLaunches {s : State} (h : MemOk s) : MemOk s.endLaunches := by
  unfold State.endLaunches
  exact memOk_foldl (fun _ _ ht => memOk_endLaunch _ ht) _ h

theorem memOk_joinSpares {s : State} (h : MemOk s) : MemOk s.joinSpares := by
  unfold State.joinSpares
  refine memOk_foldl (fun _ _ ht => ?_) _ h
  split
  · exact memOk_spareJoins _ ht
  · exact ht

theorem memOk_askNotices {s : State} (h : MemOk s) : MemOk s.askNotices := by
  unfold State.askNotices
  split
  · exact memOk_sysAsk _ _ h
  · exact h

theorem memOk_catchUp {s : State} (h : MemOk s) : MemOk s.catchUp := by
  unfold State.catchUp
  dsimp only
  exact memOk_askNotices (memOk_flushNotices _ (memOk_askQueues
    (memOk_showTables (memOk_endLaunches (memOk_flushAdds (memOk_joinSpares h))))))

theorem memOk_serveAll {s : State} (h : MemOk s) : MemOk s.serveAll := by
  unfold State.serveAll
  refine memOk_foldl (fun _ _ ht => ?_) _ h
  dsimp only
  split
  · exact ht
  · exact memOk_serve _ _ ht

theorem memOk_endCycle {s : State} (h : MemOk s) : MemOk s.endCycle := by
  unfold State.endCycle
  extract_lets u
  have hu : MemOk u := memOk_serveAll (memOk_catchUp (memOk_clearSamplers h))
  clear_value u
  exact hu.congr rfl rfl

theorem outOk_takeSlot {s : State} (h : MemOk s) : OutOk s.takeSlot := by
  unfold State.takeSlot
  dsimp only
  split
  · exact (outOk_next _).2 (memOk_endCycle h)
  split
  · exact (outOk_next _).2 (h.congr rfl rfl)
  split
  · rename_i e
    have ht := outOk_slot _ _ h _ e
    exact (outOk_next _).2 (ht.congr rfl rfl)
  · exact outOk_slot _ _ h

theorem outOk_happen (e : Event) {s : State} (h : MemOk s) : OutOk (s.happen e) := by
  unfold State.happen
  exact outOk_exec _ (h.congr rfl rfl)

theorem outOk_advanceOne {s : State} (h : MemOk s) : OutOk s.advanceOne := by
  unfold State.advanceOne
  split
  · exact outOk_happen _ (h.congr rfl rfl)
  dsimp only
  split
  · exact outOk_happen _ (MemOk.congr ((memOk_pick _ _).2 h) rfl rfl)
  split
  · exact (outOk_next _).2 ((memOk_pick _ _).2 h)
  · exact outOk_takeSlot ((memOk_pick _ _).2 h)

end Sys2Proof.Machine
end

section
namespace Sys2Proof

/-- Settles O57: the form of memory and of the images is kept by the shared operations, by every instruction and event,
and so by the step, which takes one of them. -/
theorem stepKeepsMemoryForm : Obligations.StepKeepsMemoryForm := by
  unfold Obligations.StepKeepsMemoryForm
  intro s t h e
  exact Machine.outOk_advanceOne h t e

end Sys2Proof
end

section
/-! SUPPORT. Integer functions of the model as operations on bit vectors: division (spec/04_numbers.md R69), the sign bit
(R80), lanes and bytes (spec/06_vector.md R140, R141). -/

namespace Sys2Proof.Machine

/-! ### Division (R69) -/

/-- The signed quotient wraps in one case alone, MIN ÷ −1, and there to MIN. -/
theorem ofInt_tdiv_toInt {w : Nat} (x y : BitVec w) : BitVec.ofInt w (x.toInt.tdiv y.toInt) = x.sdiv y := by
  apply BitVec.eq_of_toInt_eq
  rw [BitVec.toInt_ofInt, BitVec.toInt_sdiv]

theorem ofInt_tmod_toInt {w : Nat} (x y : BitVec w) : BitVec.ofInt w (x.toInt.tmod y.toInt) = x.srem y := by
  rw [← BitVec.toInt_srem, BitVec.ofInt_toInt]

/-! ### High halves of products (R140) -/

/-- The bits from n on of an integer are those of its quotient by 2^n. -/
theorem extractLsb'_ofInt (n w : Nat) (v : Int) :
    (BitVec.ofInt (n + w) v).extractLsb' n w = BitVec.ofInt w (v / 2 ^ n) := by
  obtain ⟨r, hr⟩ := Int.eq_ofNat_of_zero_le (Int.emod_nonneg v (b := 2 ^ (n + w)) (by positivity))
  have hq : v / 2 ^ n = (r / 2 ^ n : Nat) + v / 2 ^ (n + w) * 2 ^ w := by
    push_cast
    rw [← Int.add_mul_ediv_right _ _ (by positivity), mul_assoc, ← pow_add, Nat.add_comm w n, ← hr,
      Int.emod_add_ediv_mul]
  apply BitVec.eq_of_toNat_eq
  rw [BitVec.extractLsb'_toNat, BitVec.toNat_ofInt, BitVec.toNat_ofInt, Nat.shiftRight_eq_div_pow, hq]
  push_cast
  rw [hr, Int.add_mul_emod_self_right]
  norm_cast

theorem mulHigh32_signed (x y : W32) :
    mulHigh32 false x y = (x.signExtend 64 * y.signExtend 64).extractLsb' 32 32 := by
  have hp : x.signExtend 64 * y.signExtend 64 = BitVec.ofInt (32 + 32) (x.toInt * y.toInt) := (BitVec.ofInt_mul _ _).symm
  rw [hp, extractLsb'_ofInt]
  rfl

theorem mulHigh32_unsigned (x y : W32) :
    mulHigh32 true x y = (x.zeroExtend 64 * y.zeroExtend 64).extractLsb' 32 32 := by
  have hp : x.zeroExtend 64 * y.zeroExtend 64 = BitVec.ofInt (32 + 32) ((x.toNat * y.toNat : Nat) : Int) := by
    rw [BitVec.ofInt_natCast, BitVec.ofNat_mul, BitVec.ofNat_toNat, BitVec.ofNat_toNat]
  rw [hp, extractLsb'_ofInt]
  exact (BitVec.ofInt_natCast _ _).symm

/-! ### Shift amounts, the smaller and the larger of two lanes (R140) -/

theorem shiftAmount_eq (y : W32) : y.toNat % 32 = (y.extractLsb' 0 5).toNat := (BitVec.extractLsb'_toNat 0 5 y).symm

/-- At a tie both choices are the same word. -/
theorem ite_le_eq_ite_lt {α β : Type} [LinearOrder β] {k : α → β} (hk : Function.Injective k) (x y : α) :
    (if k x ≤ k y then x else y) = (if k x < k y then x else y) ∧
    (if k x ≤ k y then y else x) = (if k x < k y then y else x) := by
  rcases lt_trichotomy (k x) (k y) with h | h | h
  · simp only [h, h.le, if_true, and_self]
  · simp only [hk h, ite_self, and_self]
  · simp only [h.not_gt, h.not_ge, if_false, and_self]

theorem smin32_eq (x y : W32) : smin32 x y = if x.slt y then x else y := by
  simp only [BitVec.slt_iff_toInt_lt]
  exact (ite_le_eq_ite_lt (fun _ _ => BitVec.eq_of_toInt_eq) x y).1

theorem smax32_eq (x y : W32) : smax32 x y = if x.slt y then y else x := by
  simp only [BitVec.slt_iff_toInt_lt]
  exact (ite_le_eq_ite_lt (fun _ _ => BitVec.eq_of_toInt_eq) x y).2

theorem umin32_eq (x y : W32) : umin32 x y = if x.ult y then x else y := by
  simp only [BitVec.ult_iff_toNat_lt]
  exact (ite_le_eq_ite_lt (fun _ _ => BitVec.eq_of_toNat_eq) x y).1

theorem umax32_eq (x y : W32) : umax32 x y = if x.ult y then y else x := by
  simp only [BitVec.ult_iff_toNat_lt]
  exact (ite_le_eq_ite_lt (fun _ _ => BitVec.eq_of_toNat_eq) x y).2

/-! ### Counts (R140) -/

/-- Above the highest one of a word stand its leading zeros. -/
theorem clz_eq_ofNat_log2 {w : Nat} {x : BitVec w} (h : x ≠ 0) : x.clz = BitVec.ofNat w (w - 1 - x.toNat.log2) := by
  have hw : 0 < w := Nat.pos_of_ne_zero (by rintro rfl; exact h (Subsingleton.elim _ _))
  have hx : x.toNat ≠ 0 := fun e => h (BitVec.eq_of_toNat_eq e)
  have hc : x.clz.toNat < w := by
    have := BitVec.lt_def.1 (BitVec.clz_lt_iff_ne_zero.2 h)
    simpa [Nat.mod_eq_of_lt Nat.lt_two_pow_self] using this
  have hl : x.toNat.log2 = w - 1 - x.clz.toNat := by
    rw [Nat.log2_eq_iff hx]
    refine ⟨BitVec.two_pow_sub_clz_le_toNat_of_ne_zero hw h, ?_⟩
    rw [show w - 1 - x.clz.toNat + 1 = w - x.clz.toNat by omega]
    exact BitVec.toNat_lt_two_pow_sub_clz
  rw [hl, show w - 1 - (w - 1 - x.clz.toNat) = x.clz.toNat by omega, BitVec.ofNat_toNat, BitVec.setWidth_eq]

theorem clz32_eq (x : W32) : clz32 x = x.clz := by
  unfold clz32
  split
  · rename_i h
    exact (BitVec.clz_eq_iff_eq_zero.2 h).symm
  · rename_i h
    exact (clz_eq_ofNat_log2 h).symm

/-- `onesIn` counts from bit 0 up; this counts the same bits from the top down, as `BitVec.cpop` does. -/
theorem onesIn_succ_top (v n : Nat) : onesIn v (n + 1) = onesIn v n + (v.testBit n).toNat := by
  induction n generalizing v with
  | zero =>
    rw [Nat.testBit_zero]
    rcases Nat.mod_two_eq_zero_or_one v with h | h <;> simp [onesIn, h]
  | succ n ih =>
    have hs := ih (v / 2)
    rw [← Nat.testBit_succ] at hs
    rw [onesIn, hs, onesIn, Nat.add_assoc]

theorem cpopNatRec_eq_onesIn {w : Nat} (x : BitVec w) (n acc : Nat) : x.cpopNatRec n acc = acc + onesIn x.toNat n := by
  induction n generalizing acc with
  | zero => rfl
  | succ n ih => rw [BitVec.cpopNatRec_succ, ih, onesIn_succ_top, Nat.add_right_comm, Nat.add_assoc]; rfl

theorem ofNat_onesIn {w : Nat} (x : BitVec w) : BitVec.ofNat w (onesIn x.toNat w) = x.cpop := by
  rw [BitVec.cpop, cpopNatRec_eq_onesIn, Nat.zero_add]

/-! ### Bytes (R141) -/

/-- Saturation to −128 … 127. -/
theorem max_min_i8 (x : Int) : max (-128) (min 127 x) = if x < -128 then -128 else if 127 < x then 127 else x := by
  split_ifs <;> omega

theorem satAdd8_eq (x y : Byte) :
    satAdd8 x y = BitVec.ofInt 8 (if x.toInt + y.toInt < -128 then -128 else
      if 127 < x.toInt + y.toInt then 127 else x.toInt + y.toInt) := by
  rw [satAdd8, max_min_i8]

theorem bytewise_eq (f : Byte → Byte → Byte) (x y : W32) :
    bytewise f x y = bytes4 fun q => f (byteAt x q) (byteAt y q) := rfl

theorem dot4_eq (x y z : W32) :
    let p (q : Nat) : W32 := (byteAt x q).signExtend 32 * (byteAt y q).signExtend 32
    dot4 x y z = z + p 0 + p 1 + p 2 + p 3 := by
  simp only [dot4, byteAt, BitVec.ofInt_add, BitVec.ofInt_mul, BitVec.signExtend, ← BitVec.add_assoc]

/-! ### The sign bit (R80) -/

theorem append_sign_magnitude (x : W32) : x.extractLsb' 31 1 ++ x.extractLsb' 0 31 = x :=
  BitVec.extractLsb'_append_extractLsb'

theorem and_magnitude (x : W32) : x &&& 0x7FFFFFFF = (0 : BitVec 1) ++ x.extractLsb' 0 31 := by
  have hm : (0x7FFFFFFF : W32) = (0 : BitVec 1) ++ BitVec.allOnes 31 := rfl
  conv_lhs => rw [← append_sign_magnitude x, hm, BitVec.and_append]
  simp only [BitVec.ofNat_eq_ofNat, BitVec.and_zero, BitVec.and_allOnes]

theorem and_sign (x : W32) : x &&& 0x80000000 = x.extractLsb' 31 1 ++ (0 : BitVec 31) := by
  have hm : (0x80000000 : W32) = BitVec.allOnes 1 ++ (0 : BitVec 31) := rfl
  conv_lhs => rw [← append_sign_magnitude x, hm, BitVec.and_append]
  simp only [BitVec.ofNat_eq_ofNat, BitVec.and_zero, BitVec.and_allOnes]

theorem xor_sign (x : W32) : x ^^^ 0x80000000 = (~~~(x.extractLsb' 31 1)) ++ x.extractLsb' 0 31 := by
  have hm : (0x80000000 : W32) = BitVec.allOnes 1 ++ (0 : BitVec 31) := rfl
  conv_lhs => rw [← append_sign_magnitude x, hm, BitVec.xor_append]
  simp only [BitVec.ofNat_eq_ofNat, BitVec.xor_zero, BitVec.xor_allOnes]

theorem magnitude_or_sign (x y : W32) :
    (x &&& 0x7FFFFFFF) ||| (y &&& 0x80000000) = y.extractLsb' 31 1 ++ x.extractLsb' 0 31 := by
  rw [and_magnitude, and_sign, BitVec.or_append]
  simp only [BitVec.ofNat_eq_ofNat, BitVec.zero_or, BitVec.or_zero]

end Sys2Proof.Machine
end

section
/-! SUPPORT. What a division form and a form that computes bits do under a guard that lets them take effect
(spec/04_numbers.md R69, spec/06_vector.md R130, R135). -/

namespace Sys2Proof

open Machine

/-! ### The division forms -/

section
variable {s : State} {g a b : BitVec 4} (h : Takes s g) (d : BitVec 4) (zero : W64 → W64) (f : W64 → W64 → W64)
include h

theorem divOp_of_poisoned (hp : (poisS s a || poisS s b) = true) :
    s.divOp g d a b zero f = .next (s.modHere fun c => c.setS d 0 true).finish := by
  rw [State.divOp, guarded_takes h]
  exact (if_pos hp).trans (commitHere_takes h _)

theorem divOp_of_ne_zero (hp : (poisS s a || poisS s b) = false) (hy : reg64 s b ≠ 0) :
    s.divOp g d a b zero f =
      .next (s.modHere fun c => c.setS d (sx72 (f (reg64 s a) (reg64 s b))) false).finish := by
  rw [State.divOp, guarded_takes h]
  exact (if_neg (ne_true_of_eq_false hp)).trans ((if_neg hy).trans (commitHere_takes h _))

theorem divOp_of_zero_flag (hp : (poisS s a || poisS s b) = false) (hy : reg64 s b = 0)
    (ht : s.here.fmode.getLsbD 9 = false) :
    s.divOp g d a b zero f =
      .next (s.modHere fun c =>
        { c.setS d (sx72 (zero (reg64 s a))) false with fflags := c.fflags ||| 0x20 }).finish := by
  rw [State.divOp, guarded_takes h]
  exact (if_neg (ne_true_of_eq_false hp)).trans
    ((if_pos hy).trans ((if_neg (ne_true_of_eq_false ht)).trans (commitHere_takes h _)))

theorem divOp_of_zero_trap (hp : (poisS s a || poisS s b) = false) (hy : reg64 s b = 0)
    (ht : s.here.fmode.getLsbD 9 = true) : s.divOp g d a b zero f = .next (s.raise 0x19 0) := by
  rw [State.divOp, guarded_takes h]
  exact (if_neg (ne_true_of_eq_false hp)).trans ((if_pos hy).trans (if_pos ht))

end

theorem execDiv_eq (g d a b : BitVec 4) (s : State) :
    execDiv g d a b s = s.divOp g d a b (fun _ => BitVec.allOnes 64) BitVec.sdiv := by
  simp only [execDiv, ofInt_tdiv_toInt]

theorem execDivu_eq (g d a b : BitVec 4) (s : State) :
    execDivu g d a b s = s.divOp g d a b (fun _ => BitVec.allOnes 64) (· / ·) := by
  simp only [execDivu, BitVec.udiv_def]

theorem execRem_eq (g d a b : BitVec 4) (s : State) : execRem g d a b s = s.divOp g d a b id BitVec.srem := by
  simp only [execRem, ofInt_tmod_toInt]

theorem execRemu_eq (g d a b : BitVec 4) (s : State) : execRemu g d a b s = s.divOp g d a b id (· % ·) := by
  simp only [execRemu, BitVec.umod_def]

/-! ### The forms that compute bits -/

section
variable {i : Instr} {s : State} {g d : BitVec 4}

/-- A form whose result in hand is f in the active lanes moves lanes, f said in any way that agrees on each lane. -/
theorem movesLanes_of_bitForm {k : Ctx → VRes} {f f' : Nat → W32} (hm : MaskOk s g d) (hi : exec i s = s.hold k)
    (hk : k s.here = s.here.bitForm g d false f) (hf : ∀ n, f n = f' n) : MovesLanes i s g d f' := by
  obtain ⟨x, hx, hl⟩ := bitForm_result hm f
  refine ⟨x, hi.trans (hold_of (hk.trans hx)), fun n hn => ?_⟩
  rw [hl n hn, hf n]

theorem movesLanes_of_bits1 {y : VSrc} {f : W32 → W32} {f' : Nat → W32} (hm : MaskOk s g d)
    (hy : (s.here.vsrc y).pois = false) (hi : exec i s = s.hold fun c => c.bits1 g d y f)
    (hf : ∀ k, f (srcLane s y k) = f' k) : MovesLanes i s g d f' := by
  refine movesLanes_of_bitForm hm hi ?_ hf
  rw [Ctx.bits1, hy]
  rfl

theorem movesLanes_of_bits2 {a : BitVec 4} {y : VSrc} {f : W32 → W32 → W32} {f' : Nat → W32} (hm : MaskOk s g d)
    (ha : poisV s a = false) (hy : (s.here.vsrc y).pois = false)
    (hi : exec i s = s.hold fun c => c.bits2 g d a y f)
    (hf : ∀ k, f (regLane s a k) (srcLane s y k) = f' k) : MovesLanes i s g d f' := by
  refine movesLanes_of_bitForm hm hi ?_ hf
  rw [Ctx.bits2, show (s.here.vreg a).pois = false from ha, hy]
  rfl

end

end Sys2Proof
end

section
namespace Sys2Proof

open Machine

/-- Settles O3: the four forms are one operation, with their own functions and their own result for a zero divisor. -/
theorem divisionAndZeroDivisor : Obligations.DivisionAndZeroDivisor := by
  unfold Obligations.DivisionAndZeroDivisor
  intro s g d a b h
  simp only [WritesS, Alters, Raises, exec_div, exec_divu, exec_rem, exec_remu, execDiv_eq, execDivu_eq, execRem_eq,
    execRemu_eq]
  refine ⟨fun hp => ?poisoned, fun hp hy => ?quotient, fun hp hy ht => ?flag, fun hp hy ht => ?trap⟩
  case poisoned => simp only [divOp_of_poisoned h d _ _ hp, and_self]
  case quotient => simp only [divOp_of_ne_zero h d _ _ hp hy, and_self]
  case flag => simp only [divOp_of_zero_flag h d _ _ hp hy ht, id_eq, and_self]
  case trap => simp only [divOp_of_zero_trap h d _ _ hp hy ht, and_self]

/-- Settles O17: every form is one that computes bits, and its function agrees with the one stated on each lane. -/
theorem vectorIntegerLanes : Obligations.VectorIntegerLanes := by
  unfold Obligations.VectorIntegerLanes
  intro s g d a b y z hm ha hb hy hz
  have one {i : Instr} {f : W32 → W32} {f' : Nat → W32} (hi : exec i s = s.hold fun c => c.bits1 g d y f)
      (hf : ∀ k, f (srcLane s y k) = f' k) : MovesLanes i s g d f' :=
    movesLanes_of_bits1 hm hy hi hf
  have two {i : Instr} {f : W32 → W32 → W32} {f' : Nat → W32} (hi : exec i s = s.hold fun c => c.bits2 g d a y f)
      (hf : ∀ k, f (regLane s a k) (srcLane s y k) = f' k) : MovesLanes i s g d f' :=
    movesLanes_of_bits2 hm ha hy hi hf
  refine ⟨?vadd, ?vsub, ?vmul, ?vmulh, ?vmulhu, ?vand, ?vor, ?vxor, ?vshl, ?vshr, ?vsra, ?vmin, ?vmax, ?vminu, ?vmaxu,
    ?vclz, ?vpcnt, ?vadd8, ?vadds8, ?vdot4, ?vcvtI32I8, ?vcvtI8I32, ?vabs, ?vneg, ?vcopysign⟩
  case vadd => exact two (exec_vaddI32 ..) fun _ => rfl
  case vsub => exact two (exec_vsubI32 ..) fun _ => rfl
  case vmul => exact two (exec_vmulI32 ..) fun _ => rfl
  case vmulh => exact two (exec_vmulh ..) fun _ => mulHigh32_signed _ _
  case vmulhu => exact two (exec_vmulh ..) fun _ => mulHigh32_unsigned _ _
  case vand => exact two (exec_vandI32 ..) fun _ => rfl
  case vor => exact two (exec_vorI32 ..) fun _ => rfl
  case vxor => exact two (exec_vxorI32 ..) fun _ => rfl
  case vshl => exact two (exec_vshlI32 ..) fun _ => congrArg _ (shiftAmount_eq _)
  case vshr => exact two (exec_vshrI32 ..) fun _ => congrArg _ (shiftAmount_eq _)
  case vsra => exact two (exec_vsraI32 ..) fun _ => congrArg _ (shiftAmount_eq _)
  case vmin => exact two (exec_vminI32 ..) fun _ => smin32_eq _ _
  case vmax => exact two (exec_vmaxI32 ..) fun _ => smax32_eq _ _
  case vminu => exact two (exec_vminN32 ..) fun _ => umin32_eq _ _
  case vmaxu => exact two (exec_vmaxN32 ..) fun _ => umax32_eq _ _
  case vclz => exact one (exec_vclzI32 ..) fun _ => clz32_eq _
  case vpcnt => exact one (exec_vpcntI32 ..) fun _ => ofNat_onesIn _
  case vadd8 => exact two (exec_vadd8 ..) fun _ => bytewise_eq _ _ _
  case vadds8 =>
    exact two (exec_vadds8 ..) fun _ => (bytewise_eq _ _ _).trans (congrArg bytes4 (funext fun _ => satAdd8_eq _ _))
  case vdot4 =>
    refine movesLanes_of_bitForm hm (exec_vdot4 ..) ?_ fun _ => dot4_eq _ _ _
    rw [show (s.here.vreg a).pois = false from ha, show (s.here.vreg b).pois = false from hb, hz]
    rfl
  case vcvtI32I8 => exact one (exec_vcvtI32I8 ..) fun _ => rfl
  case vcvtI8I32 => exact one (exec_vcvtI8I32 ..) fun _ => congrArg _ (max_min_i8 _)
  case vabs => exact one (exec_vabs ..) fun _ => and_magnitude _
  case vneg => exact one (exec_vneg ..) fun _ => xor_sign _
  case vcopysign => exact two (exec_vcopysign ..) fun _ => magnitude_or_sign _ _

end Sys2Proof
end

section
/-! SUPPORT. What a form does that changes its own context alone, under a guard that lets it take effect (spec/05_scalar.md
R95, R96), and the immediates, the conditions and the predicates of the scalar forms (R101, R105-R107). -/

namespace Sys2Proof

open Machine

/-! ### The guarded forms -/

section
variable {i : Instr} {s : State} {g : BitVec 4} (h : Takes s g)
include h

/-- The change may be said in any way that agrees on the executing context. -/
theorem alters_of_guarded {f k : Ctx → Ctx} (hi : exec i s = s.guarded g fun s => s.commitHere f)
    (hf : f s.here = k s.here) : Alters i s k := by
  rw [Alters, hi, guarded_takes h, commitHere_takes h, modHere_congr hf]

theorem writesS_of_alu1 {d a : BitVec 4} {f : W64 → W64} {x : W64} (hi : exec i s = s.alu1 g d a f)
    (hf : f (reg64 s a) = x) : WritesS i s d (sx72 x) (poisS s a) :=
  hi.trans (hf ▸ alu1_takes h d a f)

theorem writesP_of_plog {d a b : BitVec 3} {f : Bool → Bool → Bool} {x q : Bool} (hi : exec i s = s.plog g d a b f)
    (hf : f (s.here.preg a).val (s.here.preg b).val = x) (hq : ((s.here.preg a).pois || (s.here.preg b).pois) = q) :
    WritesP i s d x q := by
  subst hf hq
  exact hi.trans (plog_takes h d a b f)

end

end Sys2Proof

namespace Sys2Proof.Machine

/-! ### Immediates (R101) -/

/-- The shift passes the extension's bits above 31 out of the word. -/
theorem signExtend_shiftLeft_32 {n : Nat} (v : BitVec n) :
    v.signExtend 64 <<< 32 = v.signExtend 32 ++ (0 : W32) := by
  apply BitVec.eq_of_getLsbD_eq
  intro k hk
  rw [BitVec.getLsbD_shiftLeft, BitVec.getLsbD_append, BitVec.getLsbD_signExtend, BitVec.getLsbD_signExtend]
  by_cases h : k < 32
  · simp [h]
  · simp [h, hk, show k - 32 < 64 by omega, show k - 32 < 32 by omega]

/-! ### Conditions (R106) -/

@[simp] theorem condHolds_eq (x y : W64) : condHolds .eq x y = decide (x = y) := rfl
@[simp] theorem condHolds_ne (x y : W64) : condHolds .ne x y = decide (x ≠ y) := (decide_not (p := x = y)).symm
@[simp] theorem condHolds_lt (x y : W64) : condHolds .lt x y = x.slt y := rfl
@[simp] theorem condHolds_ge (x y : W64) : condHolds .ge x y = !x.slt y := by
  simp only [condHolds, BitVec.slt, ← decide_not, Int.not_lt]
@[simp] theorem condHolds_ltu (x y : W64) : condHolds .ltu x y = x.ult y := rfl
@[simp] theorem condHolds_geu (x y : W64) : condHolds .geu x y = !x.ult y := by
  simp only [condHolds, BitVec.ult, ← decide_not, Nat.not_lt]
@[simp] theorem condHolds_tst (x y : W64) : condHolds .tst x y = decide (x &&& y ≠ 0) :=
  (decide_not (p := x &&& y = 0)).symm

/-! ### Predicates (R105, R107) -/

theorem Ctx.preg_of_ne_zero (c : Ctx) {r : BitVec 3} (h : r ≠ 0) : c.preg r = c.p[r.toNat - 1]?.getD {} := by
  rw [Ctx.preg, if_neg h, Vector.getD, Array.getD_eq_getD_getElem?, Vector.getElem?_toArray]

theorem Ctx.setP_p (c : Ctx) {r : BitVec 3} (h : r ≠ 0) (x q : Bool) :
    (c.setP r x q).p = c.p.setIfInBounds (r.toNat - 1) ⟨x && !q, q⟩ := by
  rw [Ctx.setP, if_neg h]

theorem Ctx.preg_setP_same (c : Ctx) {r : BitVec 3} (h : r ≠ 0) (x q : Bool) :
    (c.setP r x q).preg r = ⟨x && !q, q⟩ := by
  have hr : r.toNat - 1 < 7 := by omega
  rw [Ctx.preg_of_ne_zero _ h, Ctx.setP_p c h, Vector.getElem?_setIfInBounds_self, if_pos hr, Option.getD_some]

theorem Ctx.preg_setP_other (c : Ctx) {r k : BitVec 3} (h : k ≠ r) (x q : Bool) : (c.setP r x q).preg k = c.preg k := by
  by_cases hr : r = 0
  · rw [hr, Ctx.setP_zero]
  · by_cases hk : k = 0
    · rw [hk, Ctx.preg_zero, Ctx.preg_zero]
    · have hi : r.toNat - 1 ≠ k.toNat - 1 := by bv_omega
      rw [Ctx.preg_of_ne_zero _ hk, Ctx.setP_p c hr, Vector.getElem?_setIfInBounds_ne hi, Ctx.preg_of_ne_zero _ hk]

/-- A write of a predicate changes nothing but the predicates. -/
theorem Ctx.setP_frame (c : Ctx) (r : BitVec 3) (x q : Bool) (p : Vector PCell 7) :
    { c.setP r x q with p := p } = { c with p := p } := by
  unfold Ctx.setP
  split <;> rfl

theorem toNat_mem_predicates {k : BitVec 3} (h : k ≠ 0) : k.toNat ∈ [1, 2, 3, 4, 5, 6, 7] := by
  have h0 : k.toNat ≠ 0 := fun e => h (BitVec.eq_of_toNat_eq e)
  simp only [List.mem_cons, List.not_mem_nil, or_false]
  omega

theorem Ctx.any_preg_pois_iff (c : Ctx) :
    ([1, 2, 3, 4, 5, 6, 7].any fun n => (c.preg (BitVec.ofNat 3 n)).pois) = true ↔ ∃ k, (c.preg k).pois = true := by
  rw [List.any_eq_true]
  refine ⟨fun ⟨n, _, hn⟩ => ⟨_, hn⟩, fun ⟨k, hk⟩ => ⟨k.toNat, toNat_mem_predicates ?_, ?_⟩⟩
  · rintro rfl
    exact Bool.false_ne_true hk
  · rwa [BitVec.ofNat_toNat, BitVec.setWidth_eq]

/-- Adding powers of two from bit m on to a word below it sets the bits for which b holds. -/
theorem testBit_foldl_add_two_pow (b : Nat → Bool) (m n a k : Nat) (ha : a < 2 ^ m) :
    ((List.range' m n).foldl (fun a j => if b j then a + 2 ^ j else a) a).testBit k =
      if k < m then a.testBit k else decide (k < m + n) && b k := by
  induction n generalizing m a with
  | zero =>
    split
    · rfl
    · rename_i hk
      have hm : a < 2 ^ k := ha.trans_le (Nat.pow_le_pow_right (by decide) (Nat.le_of_not_lt hk))
      simp [Nat.testBit_lt_two_pow hm, hk]
  | succ n ih =>
    have hs : (if b m then a + 2 ^ m else a) < 2 ^ (m + 1) := by
      rw [Nat.pow_succ]
      split <;> omega
    rw [List.range'_succ, List.foldl_cons, ih _ _ hs]
    rcases Nat.lt_trichotomy k m with h | rfl | h
    · rw [if_pos (Nat.lt_succ_of_lt h), if_pos h]
      split
      · rw [Nat.add_comm, Nat.testBit_two_pow_add_gt h]
      · rfl
    · rw [if_pos (Nat.lt_succ_self k), if_neg (Nat.lt_irrefl k), decide_eq_true (by omega), Bool.true_and]
      split
      · rename_i hb
        rw [Nat.add_comm, Nat.testBit_two_pow_add_eq, Nat.testBit_lt_two_pow ha, hb]
        rfl
      · rename_i hb
        rw [Nat.testBit_lt_two_pow ha, eq_false_of_ne_true hb]
    · rw [if_neg (by omega), if_neg (by omega), Nat.add_right_comm, Nat.add_assoc]

theorem getLsbD_predWord (c : Ctx) {k : Nat} (hk : k < 64) :
    (predWord c).getLsbD k = (decide (k < 8) && (c.preg (BitVec.ofNat 3 k)).val) := by
  have h := testBit_foldl_add_two_pow (fun n => (c.preg (BitVec.ofNat 3 n)).val) 1 7 1 k (by decide)
  rw [predWord, BitVec.getLsbD_ofNat, decide_eq_true hk, Bool.true_and]
  refine h.trans ?_
  split
  · obtain rfl : k = 0 := by omega
    rfl
  · rfl

/-- Predicates written one after the other, by their numbers. -/
def Ctx.setPs (l : List Nat) (x : Nat → Bool) (q : Bool) (c : Ctx) : Ctx :=
  l.foldl (fun k n => k.setP (BitVec.ofNat 3 n) (x n) q) c

theorem Ctx.setPs_cons (n : Nat) (l : List Nat) (x : Nat → Bool) (q : Bool) (c : Ctx) :
    c.setPs (n :: l) x q = (c.setP (BitVec.ofNat 3 n) (x n) q).setPs l x q := rfl

theorem Ctx.setPs_frame (l : List Nat) (x : Nat → Bool) (q : Bool) (c : Ctx) (p : Vector PCell 7) :
    { c.setPs l x q with p := p } = { c with p := p } := by
  induction l generalizing c with
  | nil => rfl
  | cons n l ih => exact (ih _).trans (Ctx.setP_frame c _ _ _ p)

theorem Ctx.preg_setPs {l : List Nat} (hl : ∀ n ∈ l, n < 8) (x : Nat → Bool) (q : Bool) (c : Ctx) {k : BitVec 3}
    (hk : k ≠ 0) : (c.setPs l x q).preg k = if k.toNat ∈ l then ⟨x k.toNat && !q, q⟩ else c.preg k := by
  induction l generalizing c with
  | nil => rfl
  | cons n l ih =>
    obtain ⟨hn, hl⟩ := List.forall_mem_cons.1 hl
    rw [Ctx.setPs_cons, ih hl]
    by_cases hm : k.toNat ∈ l
    · rw [if_pos hm, if_pos (List.mem_cons_of_mem _ hm)]
    · rw [if_neg hm]
      by_cases he : k.toNat = n
      · subst he
        rw [BitVec.ofNat_toNat, BitVec.setWidth_eq, Ctx.preg_setP_same c hk, if_pos List.mem_cons_self]
      · have hne : k ≠ BitVec.ofNat 3 n := by bv_omega
        rw [Ctx.preg_setP_other c hne, if_neg (List.not_mem_cons_of_ne_of_not_mem he hm)]

end Sys2Proof.Machine
end

section
namespace Sys2Proof

open Machine

/-- Settles O4: each form but `movi` is an arithmetic form of sA, and its second operand is the sign-extended immediate. -/
theorem immediateForms : Obligations.ImmediateForms := by
  unfold Obligations.ImmediateForms
  intro s g d a i n h x k hi q
  have hk : immOf i = k := by cases i <;> rfl
  have hhi : immOf i <<< 32 = hi ++ (0 : W32) := by
    cases i with
    | fld v => exact signExtend_shiftLeft_32 v
    | lit w => exact (signExtend_shiftLeft_32 w).trans (by rw [BitVec.signExtend_eq])
  refine ⟨?addi, ?andi, ?ori, ?xori, ?shli, ?shri, ?srai, ?movi, ?orh⟩
  case addi => exact writesS_of_alu1 h (exec_addi ..) (congrArg (x + ·) hk)
  case andi => exact writesS_of_alu1 h (exec_andi ..) (congrArg (x &&& ·) hk)
  case ori => exact writesS_of_alu1 h (exec_ori ..) (congrArg (x ||| ·) hk)
  case xori => exact writesS_of_alu1 h (exec_xori ..) (congrArg (x ^^^ ·) hk)
  case shli => exact writesS_of_alu1 h (exec_shli ..) rfl
  case shri => exact writesS_of_alu1 h (exec_shri ..) rfl
  case srai => exact writesS_of_alu1 h (exec_srai ..) rfl
  case movi => exact alters_of_guarded h (exec_movi ..) (by rw [Ctx.result, hk])
  case orh => exact writesS_of_alu1 h (exec_orh ..) (congrArg (x ||| ·) hhi)

/-- Settles O6: each form puts a space byte over its own bits [63:0]. -/
theorem addressForms : Obligations.AddressForms := by
  unfold Obligations.AddressForms
  intro s g d a b n i sp h space k
  have hk : immOf i = k := by cases i <;> rfl
  refine ⟨?lea, ?leai, ?setsp, ?getsp⟩
  case lea => exact alters_of_guarded h (exec_lea ..) rfl
  case leai => exact alters_of_guarded h (exec_leai ..) (by rw [hk]; rfl)
  case setsp => exact alters_of_guarded h (exec_setsp ..) rfl
  case getsp => exact alters_of_guarded h (exec_getsp ..) (by rw [BitVec.setWidth_eq_append (by decide)]; rfl)

/-- Settles O7: both forms write what one function of condition and operands gives, and it agrees with the one stated on each
condition. -/
theorem compareForms : Obligations.CompareForms := by
  unfold Obligations.CompareForms
  intro s g p a b i h x y k holds c
  have hk : immOf i = k := by cases i <;> rfl
  have hc (u v : W64) : condHolds c u v = holds c u v := by
    cases c with
    | eq => exact condHolds_eq u v
    | ne => exact condHolds_ne u v
    | lt => exact condHolds_lt u v
    | ge => exact condHolds_ge u v
    | ltu => exact condHolds_ltu u v
    | geu => exact condHolds_geu u v
    | tst => exact condHolds_tst u v
  refine ⟨?cmp, ?cmpi⟩
  case cmp => exact alters_of_guarded h (exec_cmp ..) (by rw [hc]; rfl)
  case cmpi => exact alters_of_guarded h (exec_cmpi ..) (by rw [hc, hk]; rfl)

/-- Settles O8: `pword` gathers the bits of p1–p7 over the set bit of p0, and `pset` writes them one after the other. -/
theorem predicateForms : Obligations.PredicateForms := by
  unfold Obligations.PredicateForms
  intro s g d a b r m n h x y q
  refine ⟨?pand, ?por, ?pxor, ?pandn, ?pnot, ?pword, ?pset, ?sel⟩
  case pand => exact writesP_of_plog h (exec_pand ..) rfl rfl
  case por => exact writesP_of_plog h (exec_por ..) rfl rfl
  case pxor => exact writesP_of_plog h (exec_pxor ..) rfl rfl
  case pandn => exact writesP_of_plog h (exec_pandn ..) rfl rfl
  case pnot => exact writesP_of_plog h (exec_pnot ..) rfl (Bool.or_self _)
  case pword =>
    exact ⟨predWord s.here, _, alters_of_guarded h (exec_pword ..) rfl, s.here.any_preg_pois_iff,
      fun _ hk => getLsbD_predWord s.here hk⟩
  case pset =>
    refine ⟨Ctx.setPs [1, 2, 3, 4, 5, 6, 7] (reg64 s m).getLsbD (poisS s m), ?_, fun k hk => ?_, ?_⟩
    · exact alters_of_guarded h (exec_pset ..) rfl
    · rw [Ctx.preg_setPs (by decide) _ _ _ hk, if_pos (toNat_mem_predicates hk)]
    · exact Ctx.setPs_frame _ _ _ s.here s.here.p
  case sel =>
    exact alters_of_guarded h (exec_sel ..)
      (congrArg₂ (s.here.setS r) (apply_ite SCell.val ..) (congrArg (x.pois || ·) (apply_ite SCell.pois ..)))

end Sys2Proof
end

section
/-! SUPPORT. The forms that copy whole lanes, each with the poison of its own sources, and the rank by which `vtopk` keeps a lane
(spec/06_vector.md R133, R147, R155). -/

namespace Sys2Proof

open Machine

/-- A form that computes bits moves lanes when no source of its own is poisoned. -/
theorem movesLanes_of_sources {i : Instr} {s : State} {g d : BitVec 4} {q : Ctx → Bool} {f : Ctx → Nat → W32}
    {f' : Nat → W32} (hm : MaskOk s g d) (hi : exec i s = s.hold fun c => c.bitForm g d (q c) (f c)) (hq : q s.here = false)
    (hf : ∀ k, f s.here k = f' k) : MovesLanes i s g d f' :=
  movesLanes_of_bitForm hm hi (by rw [hq]) hf

/-- The source lane of `vperm` is named by the low four bits of the index lane (R147). -/
theorem laneIndex_eq (x : W32) : x.toNat % 16 = (x.extractLsb' 0 4).toNat :=
  (BitVec.extractLsb'_toNat 0 4 x).symm

/-- The lanes that rank before lane i, taken from all sixteen (R155). -/
theorem rankOf_eq (act : W16) (v : W512) (i : Nat) :
    rankOf act v i = ((List.range 16).filter fun j => act.getLsbD j &&
      (decide (magnitude (lane v i) < magnitude (lane v j)) ||
        (decide (magnitude (lane v j) = magnitude (lane v i)) && decide (j < i)))).length := by
  rw [rankOf, activeLanes, List.filter_filter]
  refine congrArg List.length (List.filter_congr fun j _ => ?_)
  rw [Bool.and_comm, beq_eq_decide]

end Sys2Proof
end

section
namespace Sys2Proof

open Machine

/-- Settles O18: every form is one that computes bits, and its lane is a lane of a source, or a number for `vlane`. A lane that
`vtopk` keeps ranks below k, that is at most at the k − 1 of its field. -/
theorem vectorMovesAndPermutes : Obligations.VectorMovesAndPermutes := by
  unfold Obligations.VectorMovesAndPermutes
  intro s g d a b n m y hm ha hb hy act mag before
  refine ⟨fun hmask => ?vsel, ?vperm, ?vrotl, ?vbcastl, ?vmov, fun hn => ?vbcast, ?vlane, ?vtopk⟩
  case vsel =>
    have hpois := Bool.or_eq_false_iff.2 ⟨Bool.or_eq_false_iff.2 ⟨ha, hy⟩, hmask⟩
    exact movesLanes_of_sources hm (exec_vsel ..) hpois fun _ => rfl
  case vperm =>
    exact movesLanes_of_sources hm (exec_vperm ..) (Bool.or_eq_false_iff.2 ⟨ha, hy⟩) fun _ => congrArg _ (laneIndex_eq _)
  case vrotl => exact movesLanes_of_sources hm (exec_vrotl ..) hy fun _ => rfl
  case vbcastl => exact movesLanes_of_sources hm (exec_vbcastl ..) hy fun _ => rfl
  case vmov => exact movesLanes_of_bits1 hm hy (exec_vmov ..) fun _ => rfl
  case vbcast => exact movesLanes_of_sources hm (exec_vbcast ..) hn fun _ => rfl
  case vlane => exact movesLanes_of_sources hm (exec_vlane ..) rfl fun _ => rfl
  case vtopk =>
    refine movesLanes_of_sources hm (exec_vtopk ..) (Bool.or_eq_false_iff.2 ⟨ha, hb⟩) fun k => ?_
    have hrank : rankOf (s.here.maskGuard g).val (s.here.vreg a).val k = before k := rankOf_eq ..
    simp only [hrank, Nat.lt_succ_iff]
    rfl

end Sys2Proof
end

section
/-! SUPPORT. The core that owns an address (spec/07_context.md R181), the form that asks for it, and the word that `isfull` writes
(R188). -/

namespace Sys2Proof

open Machine

/-! ### The home core of an address (R181) -/

/-- Core k of a core's own comb has the number of the comb's core 0 plus k. -/
theorem coreOfComb_combOf (core k : Nat) : coreOfComb (combOf core) k = core / 16 * 16 + k := by
  unfold coreOfComb combOf
  omega

section
variable {s t : State} {core cx : Nat} {va : W72} {l : Loc}

theorem homeCore_own (h : (spaceOf va).toNat = 0xF0 ∨ (spaceOf va).toNat = 0xF2 ∨ (spaceOf va).toNat = 0xF4) :
    s.homeCore core cx va = (.ok core, s) := by
  rcases h with h | h | h <;> simp only [State.homeCore, h]

theorem homeCore_comb (h : (spaceOf va).toNat = 0xF1) :
    s.homeCore core cx va = (.ok (core / 16 * 16 + (lo64 va).toNat / 2 ^ 18 % 16), s) := by
  simp only [State.homeCore, h, coreOfComb_combOf]

theorem homeCore_twin (h : (spaceOf va).toNat = 0xF3) : s.homeCore core cx va = (.ok (twinOf core), s) := by
  simp only [State.homeCore, h]

theorem homeCore_reserved (h : 0xF5 ≤ (spaceOf va).toNat) :
    s.homeCore core cx va = (.error (.trap 0x25 (lo64 va)), s) := by
  unfold State.homeCore
  split
  case h_6 => exact if_pos h
  all_goals omega

theorem homeCore_page (h : (spaceOf va).toNat < 0xF0) (ht : s.translate core cx va .load = (.ok l, t)) :
    s.homeCore core cx va = (.ok (coreOfSlice (t.homeOf l.key)), t) := by
  unfold State.homeCore
  split
  case h_6 =>
    rw [if_neg (by omega), ht]
  all_goals omega

end

/-! ### The operand of `mig` and `home` (R187) -/

section
variable {s t : State} {a : BitVec 4}

theorem withHome_of_pois (hp : (s.here.sreg a).pois = true) (k : State → Nat → Outcome) :
    s.withHome a k = .next (s.raise 0x10 (BitVec.ofNat 64 a.toNat)) := by
  rw [State.withHome, if_pos hp, poisVal, Nat.zero_mul, Nat.zero_add]

theorem withHome_of_trap {code : Byte} {v : W64} (hp : (s.here.sreg a).pois = false)
    (hc : s.homeCore s.sel.1 s.sel.2 (s.here.sreg a).val = (.error (.trap code v), t)) (k : State → Nat → Outcome) :
    s.withHome a k = .next (t.raise code v) := by
  rw [State.withHome, if_neg (ne_true_of_eq_false hp), hc]

theorem withHome_of_ok {n : Nat} (hp : (s.here.sreg a).pois = false)
    (hc : s.homeCore s.sel.1 s.sel.2 (s.here.sreg a).val = (.ok n, t)) (k : State → Nat → Outcome) :
    s.withHome a k = k t n := by
  rw [State.withHome, if_neg (ne_true_of_eq_false hp), hc]

end

theorem exec_home_takes {s : State} {g : BitVec 4} (h : Takes s g) (d a : BitVec 4) :
    exec (.home g d a) s = s.withHome a fun s n => s.commitHere fun c => c.result d (BitVec.ofNat 64 n) false := by
  rw [exec_home, execHome, guarded_takes h]

/-- The result is written in the state that the translation of the operand leaves, which differs from s by a look-up at most. -/
theorem exec_home_of_ok {s t : State} {g a : BitVec 4} {n : Nat} (h : Takes s g) (d : BitVec 4)
    (hp : (s.here.sreg a).pois = false) (hl : Looked s t)
    (hc : s.homeCore s.sel.1 s.sel.2 (s.here.sreg a).val = (.ok n, t)) :
    exec (.home g d a) s = .next (t.modHere fun c => c.setS d (sx72 (BitVec.ofNat 64 n)) false).finish := by
  rw [exec_home_takes h, withHome_of_ok hp hc]
  exact commitHere_takes (takes_looked h hl) _

/-! ### `isfull` (R188) -/

/-- The word that `isfull` writes: full, poisoned and named by a pending record, from bit 0 up. -/
def fullnessWord (full pois pending : Bool) : W64 :=
  BitVec.ofNat 64 ((if full then 1 else 0) + (if pois then 2 else 0) + (if pending then 4 else 0))

theorem writesS_isfull {s : State} {g : BitVec 4} (h : Takes s g) (d a : BitVec 4) (f : Bool) :
    WritesS (.isfull g d a f) s d (sx72 (fullnessWord (if f then (s.here.vreg a).full else (s.here.sreg a).full)
      (if f then poisV s a else poisS s a) (s.here.recs.any fun r => r.isV == f && r.reg == a))) false :=
  alters_of_guarded h (exec_isfull ..) rfl

theorem fullnessWord_bits (full pois pending : Bool) :
    (fullnessWord full pois pending).toNat < 8 ∧ (fullnessWord full pois pending).getLsbD 0 = full ∧
    (fullnessWord full pois pending).getLsbD 1 = pois ∧ (fullnessWord full pois pending).getLsbD 2 = pending := by
  revert full pois pending
  decide

theorem any_names_iff {l : List Rec} {f : Bool} {a : BitVec 4} :
    (l.any fun r => r.isV == f && r.reg == a) = true ↔ ∃ r ∈ l, r.isV = f ∧ r.reg = a := by
  simp only [List.any_eq_true, Bool.and_eq_true, beq_iff_eq]

end Sys2Proof
end

section
namespace Sys2Proof

open Machine

/-- Settles O36: `home` writes the home core of its operand's space byte, and of a page the core that owns the home slice; the other
forms change the context as they say. -/
theorem fullnessHomeAndMode : Obligations.FullnessHomeAndMode := by
  unfold Obligations.FullnessHomeAndMode
  intro s u g d a f rm l h core x sp o mode homeIs
  have hmode : encRm rm = mode := by cases rm <;> rfl
  refine ⟨?isfull, ?mkempty, ?mkfull, ?fmode, fun hp => ?poisoned, fun hp hsp => ?own, fun hp hsp => ?comb,
    fun hp hsp => ?twin, fun hp hsp => ?reserved, fun hp hsp ht => ?page⟩
  case isfull =>
    obtain ⟨hlt, hfull, hpois, hpending⟩ := fullnessWord_bits (if f then (s.here.vreg a).full else x.full)
      (if f then poisV s a else poisS s a) (s.here.recs.any fun r => r.isV == f && r.reg == a)
    exact ⟨_, writesS_isfull h d a f, hlt, hfull, hpois, by rw [hpending, any_names_iff]⟩
  case mkempty => exact alters_of_guarded h (exec_mkempty ..) rfl
  case mkfull => exact alters_of_guarded h (exec_mkfull ..) rfl
  case fmode => exact alters_of_guarded h (exec_fmode ..) (by rw [hmode])
  case poisoned => exact (exec_home_takes h d a).trans (withHome_of_pois hp _)
  case own => exact exec_home_of_ok h d hp (.refl s) (homeCore_own hsp)
  case comb => exact exec_home_of_ok h d hp (.refl s) (homeCore_comb hsp)
  case twin => exact exec_home_of_ok h d hp (.refl s) (homeCore_twin hsp)
  case reserved => exact (exec_home_takes h d a).trans (withHome_of_trap hp (homeCore_reserved hsp) _)
  case page => exact exec_home_of_ok h d hp (translateAs_ok ht) (homeCore_page hsp ht)

end Sys2Proof
end
